-- ==== Sys2Proof/Word.lean ====
section
/-! DEFINITION. The words of the machine and the shape of its sparse tables. -/

namespace Sys2Proof

/-- A general register, a system register or a doubleword of memory (R101). -/
abbrev Word := BitVec 64

/-- One byte of memory. -/
abbrev Byte := BitVec 8

/-- The number of a general register, g0 to g15 (R101). -/
abbrev Reg := Fin 16

/-- A sparse table: keys in strictly rising order; an absent key stands for a default that the
reader of the table names. -/
abbrev AMap (α : Type) := List (Nat × α)

end Sys2Proof
end

