-- ==== Sys2Proof/Syntax.lean ====
section
/-! DEFINITION. The instructions and events of the GZ-8: one constructor of `Instr` for each row of
spec/opcode_table.json.  An instruction is one 30-bit half of a bundle (R50); the rows the table
gives no bits (the last 64) are events of the machine, each whole and indivisible. -/

namespace Sys2Proof

/-- The mode of ADD and SUB (R105). -/
inductive SatMode where
  | w  -- wrapping
  | ss  -- signed saturation
  | su  -- unsigned saturation
  deriving DecidableEq, Repr

/-- An access size (R62). -/
inductive Size where
  | b  -- 1 byte
  | h  -- 2 bytes
  | w  -- 4 bytes
  | d  -- 8 bytes
  deriving DecidableEq, Repr

/-- The size of an atomic or RED (R63, R200). -/
inductive ASize where
  | d  -- 8 bytes
  | w  -- 4 bytes
  deriving DecidableEq, Repr

/-- The shift of ADDS (R116). -/
inductive ShAmt where
  | s0  -- by 0
  | s1  -- by 1
  | s2  -- by 2
  | s3  -- by 3
  | s4  -- by 4
  deriving DecidableEq, Repr

/-- A rounding field (R57, R58). -/
inductive Rnd where
  | dyn  -- RMODE.MODE
  | rne  -- nearest, ties to even
  | rtz  -- toward zero
  | rup  -- toward +infinity
  | rdn  -- toward -infinity
  deriving DecidableEq, Repr

/-- The format bit of a scalar floating instruction (R57). -/
inductive FpSel where
  | d  -- FP64
  | s  -- FP32
  deriving DecidableEq, Repr

/-- The function of FFN (R99). -/
inductive FnOp where
  | exp2
  | log2
  | rcp
  | rsq
  | tanh
  | sigm
  deriving DecidableEq, Repr

/-- The operator of VRED (R218). -/
inductive VRedOp where
  | sum
  | max
  | min
  | tmax
  deriving DecidableEq, Repr

/-- The function of VFN (R225). -/
inductive VFnOp where
  | exp2
  | log2
  | tanh
  | sigm
  | gelu
  | silu
  | rcp
  | rsq
  deriving DecidableEq, Repr

/-- The derivative of VDFN (R226). -/
inductive VDFnOp where
  | dgelu
  | dsilu
  | dsigm
  | dtanh
  | drelu
  deriving DecidableEq, Repr

/-- The relation of VCMP (R216). -/
inductive VCmpOp where
  | eq
  | ne
  | lt
  | le
  deriving DecidableEq, Repr

/-- The activation of DRN (R59, R246). -/
inductive Act where
  | none
  | relu
  | gelu
  | silu
  | sigm
  | tanh
  deriving DecidableEq, Repr

/-- The operator of RED (R201). -/
inductive RedOp where
  | add
  | fadd
  | max
  | min
  | sadd
  deriving DecidableEq, Repr

/-- A scope (R63, R193). -/
inductive Scope where
  | core
  | clus
  | die
  | dev
  | sys
  deriving DecidableEq, Repr

/-- The kind of FENCE (R204). -/
inductive FenceK where
  | acq
  | rel
  | full
  deriving DecidableEq, Repr

/-- The operation of GCOL (R298). -/
inductive CollOp where
  | rs  -- reduce-scatter
  | ar  -- all-reduce
  | ag  -- all-gather
  | bc  -- broadcast
  | bar  -- barrier
  deriving DecidableEq, Repr

/-- The word of SWQRY (R314). -/
inductive SwqWord where
  | state
  | counts
  | faults
  deriving DecidableEq, Repr

/-- The system registers (R326). -/
inductive SysReg where
  | tsw | tepc | tcause | tval | tvec | lseg | vl | rmode | bankm | tscr | ortb | swq | codeo
  | xdone (n : Fin 8)
  | tedi | tedg | tedm | tedc | time | wdog | frec
  deriving DecidableEq, Repr

/-- The side-operand registers named by DRN's extension word (R59). -/
structure DrnSide where
  /-- scale-word destination, [15:12] -/
  sw : Reg
  /-- saved pre-activation address, [11:8] -/
  dx : Reg
  /-- bias address, [7:4] -/
  bias : Reg
  /-- scale value, [3:0] -/
  scl : Reg
  deriving DecidableEq, Repr

/-- One row of the opcode table each: the instructions by class and major, then the events. -/
inductive Instr where
  /-- NOP_A (R56): A-class no-operation; its whole body is zero. -/
  | nopA
  /-- ADD (R105): Adds two registers, wrapping (.W) or saturating signed (.SS) or unsigned (.SU). -/
  | add (rd : Reg) (ra : Reg) (rb : Reg) (m : SatMode)
  /-- SUB (R105): Subtracts two registers, wrapping or saturating. -/
  | sub (rd : Reg) (ra : Reg) (rb : Reg) (m : SatMode)
  /-- MUL (R106): Writes the low 64 bits of a product. -/
  | mul (rd : Reg) (ra : Reg) (rb : Reg)
  /-- MULH (R106): Writes the high 64 bits of a signed product. -/
  | mulh (rd : Reg) (ra : Reg) (rb : Reg)
  /-- MULHU (R106): Writes the high 64 bits of an unsigned product. -/
  | mulhu (rd : Reg) (ra : Reg) (rb : Reg)
  /-- DIV (R107): Signed division truncating toward zero, with defined results for a zero divisor and for overflow. -/
  | div (rd : Reg) (ra : Reg) (rb : Reg)
  /-- DIVU (R107): Unsigned division. -/
  | divu (rd : Reg) (ra : Reg) (rb : Reg)
  /-- REM (R107): Signed remainder. -/
  | rem (rd : Reg) (ra : Reg) (rb : Reg)
  /-- REMU (R107): Unsigned remainder. -/
  | remu (rd : Reg) (ra : Reg) (rb : Reg)
  /-- AND (R108): Bitwise AND of two registers. -/
  | and (rd : Reg) (ra : Reg) (rb : Reg)
  /-- OR (R108): Bitwise OR of two registers. -/
  | or (rd : Reg) (ra : Reg) (rb : Reg)
  /-- XOR (R108): Bitwise XOR of two registers. -/
  | xor (rd : Reg) (ra : Reg) (rb : Reg)
  /-- ANDN (R108): Writes ga AND NOT gb. -/
  | andn (rd : Reg) (ra : Reg) (rb : Reg)
  /-- SHL (R109): Shifts left by the whole of gb; an amount of 64 or more gives 0. -/
  | shl (rd : Reg) (ra : Reg) (rb : Reg)
  /-- SHR (R109): Logical shift right by the whole of gb. -/
  | shr (rd : Reg) (ra : Reg) (rb : Reg)
  /-- SAR (R109): Arithmetic shift right by the whole of gb. -/
  | sar (rd : Reg) (ra : Reg) (rb : Reg)
  /-- ROL (R109): Rotates left by gb mod 64. -/
  | rol (rd : Reg) (ra : Reg) (rb : Reg)
  /-- SEQ (R113): Writes 1 if the operands are equal, else 0. -/
  | seq (rd : Reg) (ra : Reg) (rb : Reg)
  /-- SNE (R113): Writes 1 if the operands differ, else 0. -/
  | sne (rd : Reg) (ra : Reg) (rb : Reg)
  /-- SLT (R113): Signed less-than comparison. -/
  | slt (rd : Reg) (ra : Reg) (rb : Reg)
  /-- SLTU (R113): Unsigned less-than comparison. -/
  | sltu (rd : Reg) (ra : Reg) (rb : Reg)
  /-- MIN (R114): Signed minimum. -/
  | min (rd : Reg) (ra : Reg) (rb : Reg)
  /-- MAX (R114): Signed maximum. -/
  | max (rd : Reg) (ra : Reg) (rb : Reg)
  /-- MINU (R114): Unsigned minimum. -/
  | minu (rd : Reg) (ra : Reg) (rb : Reg)
  /-- MAXU (R114): Unsigned maximum. -/
  | maxu (rd : Reg) (ra : Reg) (rb : Reg)
  /-- SEL (R115): Selects ga if gc is non-zero, else gb. -/
  | sel (rd : Reg) (ra : Reg) (rb : Reg) (rc : Reg)
  /-- CLZ (R112): Counts leading zero bits. -/
  | clz (rd : Reg) (ra : Reg)
  /-- CTZ (R112): Counts trailing zero bits. -/
  | ctz (rd : Reg) (ra : Reg)
  /-- POPC (R112): Counts one bits. -/
  | popc (rd : Reg) (ra : Reg)
  /-- BSWAP (R112): Reverses the eight bytes of a register. -/
  | bswap (rd : Reg) (ra : Reg)
  /-- EXT (R111): Extracts a bit field, zero-extended. -/
  | ext (rd : Reg) (ra : Reg) (pos : BitVec 6) (wm1 : BitVec 6)
  /-- EXTS (R111): Extracts a bit field, sign-extended. -/
  | exts (rd : Reg) (ra : Reg) (pos : BitVec 6) (wm1 : BitVec 6)
  /-- INS (R111): Inserts the low bits of ga into a field of gd. -/
  | ins (rd : Reg) (ra : Reg) (pos : BitVec 6) (wm1 : BitVec 6)
  /-- MAD (R106): Writes the low 64 bits of ga times gb plus gc. -/
  | mad (rd : Reg) (ra : Reg) (rb : Reg) (rc : Reg)
  /-- ADDS (R116): Adds gb shifted left by 0 to 4 bits to ga, wrapping. -/
  | adds (rd : Reg) (ra : Reg) (rb : Reg) (sh : ShAmt)
  /-- CRCW (R117): Folds 1, 2, 4 or 8 bytes into a running reflected CRC-32C value. -/
  | crcw (rd : Reg) (ra : Reg) (rb : Reg) (z : Size)
  /-- ADDI (R118): Adds a signed 15-bit immediate, wrapping. -/
  | addi (rd : Reg) (ra : Reg) (imm : BitVec 15)
  /-- ANDI (R108): ANDs with a sign-extended immediate. -/
  | andi (rd : Reg) (ra : Reg) (imm : BitVec 15)
  /-- ORI (R108): ORs with a zero-extended immediate. -/
  | ori (rd : Reg) (ra : Reg) (imm : BitVec 15)
  /-- XORI (R108): XORs with a zero-extended immediate. -/
  | xori (rd : Reg) (ra : Reg) (imm : BitVec 15)
  /-- SHLI (R110): Shifts left by an immediate from 0 to 63. -/
  | shli (rd : Reg) (ra : Reg) (n : BitVec 6)
  /-- SHRI (R110): Logical shift right by an immediate. -/
  | shri (rd : Reg) (ra : Reg) (n : BitVec 6)
  /-- SARI (R110): Arithmetic shift right by an immediate. -/
  | sari (rd : Reg) (ra : Reg) (n : BitVec 6)
  /-- SEQI (R113): Compares for equality with a sign-extended immediate. -/
  | seqi (rd : Reg) (ra : Reg) (imm : BitVec 13)
  /-- SLTI (R113): Signed less-than comparison with an immediate. -/
  | slti (rd : Reg) (ra : Reg) (imm : BitVec 13)
  /-- SLTIU (R113): Unsigned less-than comparison with a sign-extended immediate. -/
  | sltiu (rd : Reg) (ra : Reg) (imm : BitVec 13)
  /-- MOVI (R119): Loads a sign-extended 19-bit immediate. -/
  | movi (rd : Reg) (imm : BitVec 19)
  /-- MOVX (R120): Loads a sign-extended 32-bit extension word (lone bundle only). -/
  | movx (rd : Reg) (x : BitVec 32)
  /-- MOVHX (R120): Replaces bits [63:32] with the extension word (lone bundle only). -/
  | movhx (rd : Reg) (x : BitVec 32)
  /-- MULI (R118): Multiplies by a signed immediate, wrapping. -/
  | muli (rd : Reg) (ra : Reg) (imm : BitVec 15)
  /-- FADD (R94): Adds two FP64 or FP32 values, rounding once. -/
  | fadd (rd : Reg) (ra : Reg) (rb : Reg) (r : Rnd) (f : FpSel)
  /-- FSUB (R94): Subtracts two floating values, rounding once. -/
  | fsub (rd : Reg) (ra : Reg) (rb : Reg) (r : Rnd) (f : FpSel)
  /-- FMUL (R94): Multiplies two floating values, rounding once. -/
  | fmul (rd : Reg) (ra : Reg) (rb : Reg) (r : Rnd) (f : FpSel)
  /-- FFMA (R94): Fused multiply-add with a single rounding. -/
  | ffma (rd : Reg) (ra : Reg) (rb : Reg) (rc : Reg) (r : Rnd) (f : FpSel)
  /-- FDIV (R94): Divides two floating values, rounding once. -/
  | fdiv (rd : Reg) (ra : Reg) (rb : Reg) (r : Rnd) (f : FpSel)
  /-- FSQRT (R94): Floating square root, rounding once. -/
  | fsqrt (rd : Reg) (ra : Reg) (r : Rnd) (f : FpSel)
  /-- FMIN (R95): IEEE 754-2019 minimum. -/
  | fmin (rd : Reg) (ra : Reg) (rb : Reg) (f : FpSel)
  /-- FMAX (R95): IEEE 754-2019 maximum. -/
  | fmax (rd : Reg) (ra : Reg) (rb : Reg) (f : FpSel)
  /-- FEQ (R95): Floating equality comparison. -/
  | feq (rd : Reg) (ra : Reg) (rb : Reg) (f : FpSel)
  /-- FLT (R95): Floating less-than comparison. -/
  | flt (rd : Reg) (ra : Reg) (rb : Reg) (f : FpSel)
  /-- FLE (R95): Floating less-or-equal comparison. -/
  | fle (rd : Reg) (ra : Reg) (rb : Reg) (f : FpSel)
  /-- FUNO (R95): Writes 1 if either operand is NaN. -/
  | funo (rd : Reg) (ra : Reg) (rb : Reg) (f : FpSel)
  /-- FTLE (R95): totalOrder comparison through TotalKey. -/
  | ftle (rd : Reg) (ra : Reg) (rb : Reg) (f : FpSel)
  /-- FCVT (R96): Converts between floating formats, saturating narrow destinations unless .NS. -/
  | fcvt (rd : Reg) (ra : Reg) (dst : BitVec 4) (src : BitVec 4) (ns : Bool) (r : Rnd)
  /-- FCVTI (R97): Converts FP64 or FP32 to an integer format, saturating, with NaN giving 0. -/
  | fcvti (rd : Reg) (ra : Reg) (int : BitVec 4) (r : Rnd) (f : FpSel)
  /-- ICVTF (R98): Converts an integer to FP64 or FP32. -/
  | icvtf (rd : Reg) (ra : Reg) (int : BitVec 4) (r : Rnd) (f : FpSel)
  /-- FCLS (R95): Writes a one-hot class mask of the operand. -/
  | fcls (rd : Reg) (ra : Reg) (f : FpSel)
  /-- FFN (R99): Correctly rounded FP32 function (EXP2, LOG2, RCP, RSQ, TANH, SIGM). -/
  | ffn (rd : Reg) (ra : Reg) (op : FnOp) (r : Rnd)
  /-- FSEL (R100): Reads packed scale words and chooses the next gradient format descriptor. -/
  | fsel (rd : Reg) (ra : Reg) (rb : Reg)
  /-- VADD (R216): Element-wise vector addition. -/
  | vadd (rd : Reg) (ra : Reg) (rb : Reg) (r : Rnd) (e : BitVec 4)
  /-- VSUB (R216): Element-wise vector subtraction. -/
  | vsub (rd : Reg) (ra : Reg) (rb : Reg) (r : Rnd) (e : BitVec 4)
  /-- VMUL (R216): Element-wise vector multiplication. -/
  | vmul (rd : Reg) (ra : Reg) (rb : Reg) (r : Rnd) (e : BitVec 4)
  /-- VFMA (R216): Element-wise fused multiply-add. -/
  | vfma (rd : Reg) (ra : Reg) (rb : Reg) (rc : Reg) (r : Rnd) (e : BitVec 4)
  /-- VSCL (R216): Scales each element by a scalar register value. -/
  | vscl (rd : Reg) (ra : Reg) (rb : Reg) (r : Rnd) (e : BitVec 4)
  /-- VMIN (R216): Element-wise minimum. -/
  | vmin (rd : Reg) (ra : Reg) (rb : Reg) (r : Rnd) (e : BitVec 4)
  /-- VMAX (R216): Element-wise maximum. -/
  | vmax (rd : Reg) (ra : Reg) (rb : Reg) (r : Rnd) (e : BitVec 4)
  /-- VCVT (R217): Element-wise format conversion. -/
  | vcvt (rd : Reg) (ra : Reg) (dst : BitVec 4) (r : Rnd) (src : BitVec 4)
  /-- VQNT (R220): Block-quantises a vector under ts3, writing codes and scale words. -/
  | vqnt (rd : Reg) (ra : Reg) (rb : Reg) (r : Rnd) (e : BitVec 4)
  /-- VDQ (R221): Dequantises block-scaled codes. -/
  | vdq (rd : Reg) (ra : Reg) (rb : Reg) (r : Rnd) (e : BitVec 4)
  /-- VRED (R218): Reduces a vector by SUM, MAX, MIN or TMAX in a fixed order. -/
  | vred (rd : Reg) (ra : Reg) (op : VRedOp) (r : Rnd) (e : BitVec 4)
  /-- VBDOT (R222): Block-scaled dot product, optionally writing per-block partials. -/
  | vbdot (rd : Reg) (ra : Reg) (rb : Reg) (pb : Bool) (r : Rnd)
  /-- VTOPK (R223): Writes the k-list of the k greatest elements. -/
  | vtopk (rd : Reg) (ra : Reg) (k : Fin 8) (r : Rnd) (e : BitVec 4)
  /-- VMRG (R224): Merges two k-lists into one. -/
  | vmrg (rd : Reg) (ra : Reg) (rb : Reg) (k : Fin 8) (r : Rnd) (e : BitVec 4)
  /-- VFN (R225): Applies an activation or elementary function to each element. -/
  | vfn (rd : Reg) (ra : Reg) (op : VFnOp) (r : Rnd) (e : BitVec 4)
  /-- VDFN (R226): Multiplies gradients by an activation derivative at saved pre-activations. -/
  | vdfn (rd : Reg) (ra : Reg) (rb : Reg) (op : VDFnOp) (r : Rnd) (e : BitVec 4)
  /-- VGTH (R227): Gathers elements through an index vector. -/
  | vgth (rd : Reg) (ra : Reg) (rb : Reg) (r : Rnd) (e : BitVec 4)
  /-- VSCT (R227): Scatters elements through an index vector, optionally adding. -/
  | vsct (rd : Reg) (ra : Reg) (rb : Reg) (addTo : Bool) (r : Rnd) (e : BitVec 4)
  /-- VCMP (R216): Element-wise comparison writing a byte mask. -/
  | vcmp (rd : Reg) (ra : Reg) (rb : Reg) (op : VCmpOp) (r : Rnd) (e : BitVec 4)
  /-- VMSEL (R216): Selects elements by a mask vector. -/
  | vmsel (rd : Reg) (ra : Reg) (rb : Reg) (rc : Reg) (r : Rnd) (e : BitVec 4)
  /-- VIOTA (R216): Writes start value plus index into each element. -/
  | viota (rd : Reg) (ra : Reg) (r : Rnd) (e : BitVec 4)
  /-- VPFX (R219): Inclusive prefix sum in index order. -/
  | vpfx (rd : Reg) (ra : Reg) (r : Rnd) (e : BitVec 4)
  /-- VSTAT (R228): Summarises the statistics of packed scale words. -/
  | vstat (rd : Reg) (ra : Reg) (r : Rnd)
  /-- SETVL (R209): Sets VL to min(ga, 4096) unless zero, and writes the count. -/
  | setvl (rd : Reg) (ra : Reg)
  /-- VCPY (R216): Copies elements bit for bit in index order. -/
  | vcpy (rd : Reg) (ra : Reg) (r : Rnd) (e : BitVec 4)
  /-- MMA (R241): Consumes the head A and B tiles and accumulates an unscaled product. -/
  | mma (acc : Fin 8) (tb : Bool) (ta : Bool) (z : Bool)
  /-- MMAS (R241): Consumes the head tiles and accumulates a block-scaled product. -/
  | mmas (acc : Fin 8) (tb : Bool) (ta : Bool) (z : Bool)
  /-- MMR (R242): Multiplies the head tiles and rotates them to the gang neighbours' streams. -/
  | mmr (acc : Fin 8) (z : Bool)
  /-- MMG (R243): One step of a grouped product, using a group-offset vector. -/
  | mmg (acc : Fin 8) (ra : Reg) (rb : Reg) (z : Bool)
  /-- ACLR (R244): Clears an accumulator tile to +0 and EMPTY. -/
  | aclr (acc : Fin 8)
  /-- AMOV_LD (R245): Loads a 1,032-byte tile image into an accumulator. -/
  | amovLd (acc : Fin 8) (ra : Reg)
  /-- AMOV_ST (R245): Stores an accumulator tile image to scratchpad. -/
  | amovSt (acc : Fin 8) (ra : Reg)
  /-- DRN (R246): Drains an accumulator through scale, bias, activation and output or quantisation (lone bundle with extension word). -/
  | drn (acc : Fin 8) (ra : Reg) (stat : Bool) (q : Bool) (dx : Bool) (bias : Bool) (scl : Bool) (act : Act) (side : DrnSide)
  /-- QPOP (R249): Discards the unreserved head entry of the A or B stream. -/
  | qpop (q : Bool)
  /-- QLVL (R250): Reports stream levels, rotation buffers and engine wakefulness. -/
  | qlvl (rd : Reg)
  /-- ASTAT (R251): Reports statistics and the kind of an accumulator tile. -/
  | astat (rd : Reg) (acc : Fin 8)
  /-- MWAKE (R252): Makes a wake request for the cluster's matrix engine. -/
  | mwake
  /-- NOP_C (R61): C-class no-operation; its whole body is zero. -/
  | nopC
  /-- BR (R130): Unconditional PC-relative branch. -/
  | br (off : BitVec 15)
  /-- BEQ (R130): Branches if the registers are equal. -/
  | beq (ra : Reg) (rb : Reg) (off : BitVec 12)
  /-- BNE (R130): Branches if the registers differ. -/
  | bne (ra : Reg) (rb : Reg) (off : BitVec 12)
  /-- BLT (R130): Branches on signed less-than. -/
  | blt (ra : Reg) (rb : Reg) (off : BitVec 12)
  /-- BGE (R130): Branches on signed greater-or-equal. -/
  | bge (ra : Reg) (rb : Reg) (off : BitVec 12)
  /-- BLTU (R130): Branches on unsigned less-than. -/
  | bltu (ra : Reg) (rb : Reg) (off : BitVec 12)
  /-- BGEU (R130): Branches on unsigned greater-or-equal. -/
  | bgeu (ra : Reg) (rb : Reg) (off : BitVec 12)
  /-- BZ (R130): Branches if the register is zero. -/
  | bz (ra : Reg) (off : BitVec 15)
  /-- BNZ (R130): Branches if the register is non-zero. -/
  | bnz (ra : Reg) (off : BitVec 15)
  /-- LOOP (R131): Decrements a register and branches while the result is non-zero. -/
  | loop (ra : Reg) (off : BitVec 15)
  /-- CALL (R132): PC-relative call writing the return address to g15. -/
  | call (off : BitVec 15)
  /-- JR (R132): Register-indirect jump with an exact range and alignment check. -/
  | jr (ra : Reg) (off : BitVec 15)
  /-- CALLR (R132): Register-indirect call writing g15. -/
  | callr (ra : Reg) (off : BitVec 15)
  /-- BRK (R133): Traps BREAK with its code, or silently ends a helper. -/
  | brk (code : BitVec 19)
  /-- AWAIT (R134): Waits until a continuation payload has marked the register, then clears the mark. -/
  | await (rd : Reg)
  /-- SPAWN (R142): Checks a work packet and submits it to the partition's task queue. -/
  | spawn (ra : Reg)
  /-- TDONE (R143): Releases at system scope, fills the completion word and retires the task. -/
  | tdone
  /-- TYLD (R144): Gives up the slot to waiting work if any is waiting and no slot is free. -/
  | tyld
  /-- CHSET (R146): Sets a cluster iteration counter. -/
  | chset (n : Fin 8) (ra : Reg) (rb : Reg)
  /-- CHUNK (R146): Takes a guided chunk from a cluster iteration counter. -/
  | chunk (rd : Reg) (n : Fin 8)
  /-- BARC (R147): Configures the leaf and root of the cluster barrier. -/
  | barc (ra : Reg)
  /-- BARR (R147): Reads the phase and records an arrival with cluster-scope release. -/
  | barr (rd : Reg)
  /-- BARW (R147): Waits until the barrier phase differs from the given value. -/
  | barw (ra : Reg)
  /-- STGP (R149): Waits for a stage slot to be free for a sequence and reserves it. -/
  | stgp (rd : Reg) (ra : Reg) (rb : Reg)
  /-- STGF (R149): Releases and marks a stage slot FULL with a sequence. -/
  | stgf (ra : Reg) (rb : Reg)
  /-- STGW (R149): Waits until a stage slot holds the sequence, then acquires it. -/
  | stgw (rd : Reg) (ra : Reg) (rb : Reg)
  /-- STGE (R149): Releases and frees a stage slot for the next round. -/
  | stge (ra : Reg) (rb : Reg)
  /-- HSPAWN (R150): Starts a run-ahead helper if a slot is free. -/
  | hspawn (off : BitVec 15)
  /-- HSTOP (R152): Ends the issuing helper, or the thread's helper. -/
  | hstop
  /-- TSRD (R145): Reads a task shadow register. -/
  | tsrd (rd : Reg) (n : Fin 8)
  /-- LD (R160): Loads 1 to 8 bytes from scratchpad, migrating if the address is remote. -/
  | ld (rd : Reg) (base : Reg) (sx : Bool) (z : Size) (off : BitVec 12)
  /-- ST (R160): Buffers a store of 1 to 8 bytes to scratchpad. -/
  | st (rs : Reg) (base : Reg) (z : Size) (off : BitVec 12)
  /-- LDP (R160): Loads 16 bytes into an even-odd register pair. -/
  | ldp (rd : Reg) (base : Reg) (off : BitVec 12)
  /-- STP (R160): Buffers a 16-byte store of a register pair. -/
  | stp (rs : Reg) (base : Reg) (off : BitVec 12)
  /-- LDF (R161): Waits for a full word, reads it and sets it empty. -/
  | ldf (rd : Reg) (base : Reg) (off : BitVec 12)
  /-- LDW (R161): Waits for a full word and reads it, leaving it full. -/
  | ldw (rd : Reg) (base : Reg) (off : BitVec 12)
  /-- STF (R161): Waits for an empty word, writes it and sets it full, releasing waiters. -/
  | stf (rs : Reg) (base : Reg) (off : BitVec 12)
  /-- SETE (R161): Sets a word's full/empty bit to empty. -/
  | sete (base : Reg) (off : BitVec 12)
  /-- FEST (R161): Reads a word's full/empty bit. -/
  | fest (rd : Reg) (base : Reg) (off : BitVec 12)
  /-- OLD (R181): Loads an element of a tensor object through translation. -/
  | old (rd : Reg) (ra : Reg) (sx : Bool) (z : Size) (off : BitVec 12)
  /-- OST (R181): Buffers a store to an element of a tensor object. -/
  | ost (rs : Reg) (ra : Reg) (z : Size) (off : BitVec 12)
  /-- ORQ (R182): Reads one field of an object record. -/
  | orq (rd : Reg) (ra : Reg) (f : BitVec 4)
  /-- OPRB (R183): Probes the residency and move state of an element's granule. -/
  | oprb (rd : Reg) (ra : Reg)
  /-- OREF (R184): Forms a shape-checked reference offset by gb elements. -/
  | oref (rd : Reg) (ra : Reg) (rb : Reg)
  /-- OLDC (R181): Combinable element load that a switch may merge. -/
  | oldc (rd : Reg) (ra : Reg) (sx : Bool) (z : Size) (off : BitVec 12)
  /-- AADD (R200): Returning atomic add at the home slice. -/
  | aadd (rd : Reg) (ra : Reg) (rb : Reg) (z : ASize)
  /-- AINCB (R200): Returning bounded increment at the home slice. -/
  | aincb (rd : Reg) (ra : Reg) (rb : Reg) (z : ASize)
  /-- AMIN (R200): Returning signed or totalOrder atomic minimum. -/
  | amin (rd : Reg) (ra : Reg) (rb : Reg) (t : Bool) (z : ASize)
  /-- AMAX (R200): Returning signed or totalOrder atomic maximum. -/
  | amax (rd : Reg) (ra : Reg) (rb : Reg) (t : Bool) (z : ASize)
  /-- AMINU (R200): Returning unsigned atomic minimum. -/
  | aminu (rd : Reg) (ra : Reg) (rb : Reg) (z : ASize)
  /-- AMAXU (R200): Returning unsigned atomic maximum. -/
  | amaxu (rd : Reg) (ra : Reg) (rb : Reg) (z : ASize)
  /-- AAND (R200): Returning atomic AND. -/
  | aand (rd : Reg) (ra : Reg) (rb : Reg) (z : ASize)
  /-- AOR (R200): Returning atomic OR. -/
  | aor (rd : Reg) (ra : Reg) (rb : Reg) (z : ASize)
  /-- AXOR (R200): Returning atomic XOR. -/
  | axor (rd : Reg) (ra : Reg) (rb : Reg) (z : ASize)
  /-- ASWP (R200): Returning atomic swap. -/
  | aswp (rd : Reg) (ra : Reg) (rb : Reg) (z : ASize)
  /-- ACAS (R200): Returning atomic compare-and-swap. -/
  | acas (rd : Reg) (ra : Reg) (rb : Reg) (z : ASize)
  /-- RED (R201): Non-returning reduction (ADD, FADD, MAX, MIN, SADD) at the home slice. -/
  | red (ra : Reg) (rb : Reg) (op : RedOp) (z : ASize)
  /-- LDC (R202): Combinable object load with a byte offset. -/
  | ldc (rd : Reg) (ra : Reg) (sx : Bool) (z : Size) (off : BitVec 12)
  /-- LDACQ (R203): Plain object load followed by an acquire of the named scope. -/
  | ldacq (rd : Reg) (ra : Reg) (sc : Scope) (off : BitVec 12)
  /-- STREL (R203): Release of the named scope followed by an object store. -/
  | strel (rs : Reg) (ra : Reg) (sc : Scope) (off : BitVec 12)
  /-- FENCE (R204): Release, acquire or full fence of a scope. -/
  | fence (sc : Scope) (k : FenceK)
  /-- MBXW (R257): Worker form: waits for its request mailbox to be empty and fills it. -/
  | mbxw (ra : Reg)
  /-- MBXW_MOVEMENT (R257): Movement form: fills the reply mailbox of the named slot. -/
  | mbxwMovement (ra : Reg) (rb : Reg)
  /-- MBXR (R257): Worker form: waits for its reply mailbox and empties it with acquire. -/
  | mbxr (rd : Reg)
  /-- MBXR_MOVEMENT (R257): Movement form: takes a full request mailbox by the pass-over rule. -/
  | mbxrMovement (rd : Reg) (ra : Reg)
  /-- CPY (R260): Submits a byte-sequence copy job to the channel. -/
  | cpy (rd : Reg) (ra : Reg) (stg : Bool)
  /-- CPYT (R261): Submits a job pushing tiles into the A or B stream. -/
  | cpyt (rd : Reg) (ra : Reg) (toB : Bool)
  /-- CPYF (R262): Submits a pattern-fill job. -/
  | cpyf (rd : Reg) (ra : Reg) (stg : Bool)
  /-- CPYG (R262): Submits a row-gather copy job. -/
  | cpyg (rd : Reg) (ra : Reg) (stg : Bool)
  /-- PFCH (R263): Submits a granule prefetch fill job, or gives a hint from a helper. -/
  | pfch (rd : Reg) (ra : Reg)
  /-- EVCT (R263): Submits a granule eviction job. -/
  | evct (rd : Reg) (ra : Reg)
  /-- XWAIT (R266): Waits until every transfer up to the identifier has completed, then acquires. -/
  | xwait (ra : Reg)
  /-- XWAIT_T (R266): Waits for transfers until a TIME deadline and reports whether they completed. -/
  | xwaitT (rd : Reg) (ra : Reg) (rb : Reg)
  /-- XSTAT (R266): Reports the status of a transfer. -/
  | xstat (rd : Reg) (ra : Reg)
  /-- KICK (R268): Restarts a cluster's copy hart on named microcode. -/
  | kick (ra : Reg)
  /-- MBXD (R267): Copy-hart completion of a job: release, stage marking and DONE update. -/
  | mbxd (ra : Reg) (rb : Reg)
  /-- SEND (R273): Releases and injects a message to a continuation. -/
  | send (ra : Reg) (rb : Reg)
  /-- SENDW (R273): Sends a message and waits for its delivery or return. -/
  | sendw (ra : Reg) (rb : Reg)
  /-- CONT (R272): Forms a continuation word, or arms or disarms the bounce register. -/
  | cont (rd : Reg) (n : Reg)
  /-- MIGR (R280): Migrates the thread to a named vcore. -/
  | migr (ra : Reg)
  /-- HOME (R280): Migrates the thread back to its home vcore. -/
  | home
  /-- RST (R283): Posts a remote scratchpad store and journals it. -/
  | rst (ra : Reg) (rb : Reg) (z : Size)
  /-- JRNL (R284): Reads, and may free, a posted-store journal entry. -/
  | jrnl (rd : Reg) (ra : Reg)
  /-- GST (R296): Starts a scalar round of a group with this rank's value. -/
  | gst (g : Fin 8) (ra : Reg)
  /-- GLD (R297): Waits for the most recent round and returns its result or status. -/
  | gld (rd : Reg) (g : Fin 8)
  /-- GSEQ (R293): Reads the group's next round number. -/
  | gseq (rd : Reg) (g : Fin 8)
  /-- GABT (R302): Cancels a round and all later rounds at every rank. -/
  | gabt (g : Fin 8) (ra : Reg)
  /-- CMC (R291): Binds a group register to a multicast window. -/
  | cmc (g : Fin 8) (ra : Reg) (rb : Reg)
  /-- GCOL (R298): Starts a chunked collective round as a job on the copy hart. -/
  | gcol (g : Fin 8) (ra : Reg) (rb : Reg) (p : Fin 4) (op : CollOp)
  /-- WNW (R305): Contributes a gate k-list to a Winnow merge keyed by a continuation. -/
  | wnw (g : Fin 8) (ra : Reg) (rb : Reg) (k : Fin 8)
  /-- SWOPEN (R311): Opens or re-opens a swath stream. -/
  | swopen (s : Fin 4) (ra : Reg) (rb : Reg)
  /-- SWCLOSE (R312): Closes a swath stream, dropping its entries. -/
  | swclose (s : Fin 4)
  /-- FWM (R315): Multicasts a span to the group and records it. -/
  | fwm (s : Fin 4) (ra : Reg) (rb : Reg) (g : Fin 8)
  /-- FWG (R315): Sends a span to a group collector and records it. -/
  | fwg (s : Fin 4) (ra : Reg) (rb : Reg) (g : Fin 8)
  /-- FWA (R315): Sends a span to a destination vcore and records it. -/
  | fwa (s : Fin 4) (ra : Reg) (rb : Reg)
  /-- RPLY (R320): Replays recorded entries as transposes into gradient twins. -/
  | rply (s : Fin 4) (ra : Reg) (rb : Reg) (fwd : Bool)
  /-- SWQRY (R314): Reads the state, counts or faults of a stream. -/
  | swqry (s : Fin 4) (rd : Reg) (w : SwqWord)
  /-- SWDROP (R313): Drops recorded entries, optionally setting recompute mode. -/
  | swdrop (s : Fin 4) (ra : Reg) (rb : Reg)
  /-- TRAP (R334): Traps SYSCALL with its code. -/
  | trap (code : BitVec 19)
  /-- TRET (R335): Returns from a trap, restoring S and taking a pending event. -/
  | tret
  /-- SRD (R328): Reads a system register; XDONE reads add an acquire. -/
  | srd (rd : Reg) (sr : SysReg)
  /-- SWR (R328): Writes a system register, subject to privilege and field checks. -/
  | swr (rs : Reg) (sr : SysReg)
  /-- ORW (R348): Writes one doubleword of an object record at its home slice. -/
  | orw (ra : Reg) (rb : Reg)
  /-- ORINV (R349): Makes every record cache drop a record. -/
  | orinv (ra : Reg)
  /-- ORMOV (R350): Begins relocating an object to a new base. -/
  | ormov (ra : Reg) (rb : Reg)
  /-- PLC_SWAP (R289): Exchanges the occupants of two core positions. -/
  | plcSwap (ra : Reg) (rb : Reg)
  /-- PLC_MIGX (R289): Live-migrates a vcore to an empty core. -/
  | plcMigx (ra : Reg) (rb : Reg)
  /-- PLC_FOLD (R289): Folds a vcore onto a core that another vcore occupies. -/
  | plcFold (ra : Reg) (rb : Reg)
  /-- PLC_SEAL (R339): Seals the core at a position. -/
  | plcSeal (ra : Reg)
  /-- DUAL_ON (R341): Starts a redundant trailing copy of the thread. -/
  | dualOn
  /-- DUAL_OFF (R341): Compares the contexts of a redundant pair and ends it. -/
  | dualOff
  /-- QSC (R346): Quiesces or resumes the partition. -/
  | qsc (ra : Reg)
  /-- ASYNC_EVENT_ENTRY (R333): A queued asynchronous event is taken by trap entry before the thread's next bundle. -/
  | asyncEventEntry (pos : Nat) (slot : Nat)
  /-- ICACHE_FILL (R123): A missing instruction-cache line arrives and the thread returns to the rotation. -/
  | icacheFill (pos : Nat) (slot : Nat)
  /-- RECORD_FETCH (R171): A fetched object record arrives and the whole bundle issues again. -/
  | recordFetch (pos : Nat) (slot : Nat)
  /-- STORE_BUFFER_PERFORM (R159): The store buffer performs its oldest eligible entry at its home. -/
  | storeBufferPerform (pos : Nat) (id : Nat)
  /-- HOME_SLICE_REQUEST (R185): A home slice performs an arriving request on a line in arrival order. -/
  | homeSliceRequest (h : Nat) (id : Nat)
  /-- L2_MISS_FILL (R186): A line read from HBM4E arrives and the linked requests are performed in order. -/
  | l2MissFill (h : Nat) (line : Nat)
  /-- PROBE_ECHO (R195): A slice group echoes a release probe once earlier requests are performed. -/
  | probeEcho (pos : Nat) (slot : Nat) (grp : Nat)
  /-- RESIDENCY_FILL_RELEASE (R175): A granule becomes resident and the parked accesses to it are performed. -/
  | residencyFillRelease (rmapByte : Nat) (data : List Host.Cell)
  /-- DISPATCH (R139): The dispatcher places a ready packet in a core's slot. -/
  | dispatch (pid : Nat)
  /-- GANG_PLACEMENT (R140): The dispatcher places a whole ready gang on a block of clusters. -/
  | gangPlacement (gang : Nat)
  /-- COMPACTION (R140): After a ready gang has waited 2^16 cycles, the Tedder is asked to empty a block. -/
  | compaction (gang : Nat)
  /-- TEDDER_INSTANT (R287): At a swap instant the Tedder evaluates pairs, chooses swaps and halves counts. -/
  | tedderInstant
  /-- EXCHANGE (R288): The atomic exchange of a chosen pair of occupants completes once engines and buffers drain. -/
  | exchange (posA : Nat) (posB : Nat)
  /-- FORWARDING_ENTRY_EXPIRY (R278): A forwarding entry lapses 2^20 cycles after its hold ends. -/
  | forwardingEntryExpiry (pos : Nat) (vcore : Nat)
  /-- MESSAGE_DELIVERY (R274): A message arrives and writes its payload into the named register. -/
  | messageDelivery (id : Nat)
  /-- MESSAGE_RETURN (R275): A returned message reaches its sender: bounce register or asynchronous UNDELIVERABLE. -/
  | messageReturn (id : Nat)
  /-- MIGRATION_ARRIVAL (R280): A migrating thread's context arrives and takes a guest or home slot. -/
  | migrationArrival (id : Nat)
  /-- MIGRATION_FAILURE (R282): A migration to an exited vcore returns the thread home with UNDELIVERABLE. -/
  | migrationFailure (id : Nat)
  /-- RST_ARRIVAL (R283): A posted remote store reaches the owning core, which checks its limit and buffers it. -/
  | rstArrival (id : Nat)
  /-- RST_ACKNOWLEDGEMENT (R284): An acknowledgement or refusal of a posted store reaches the sender's journal. -/
  | rstAcknowledgement (id : Nat)
  /-- ENGINE_SLEEP (R252): An engine falls asleep after 2^16 idle cycles. -/
  | engineSleep (clu : Nat)
  /-- ENGINE_WAKE (R252): A sleeping engine with a wake request wakes in its wave's cycle. -/
  | engineWake (clu : Nat)
  /-- CONSUMPTION (R239): The engine consumes an accepted matrix instruction and computes its product. -/
  | consumption (clu : Nat)
  /-- DRAIN_START (R248): The drain starts an accepted DRN once the tile and engine are ready. -/
  | drainStart (clu : Nat)
  /-- ROTATION_BUFFER_FORWARD (R242): A rotated tile arrives at the tail of the neighbour's stream. -/
  | rotationBufferForward (pos : Nat) (isB : Bool)
  /-- COPY_CHUNK (R256): The copy hart runs the next 4 KiB chunk of a job, chosen by priority. -/
  | copyChunk (clu : Nat)
  /-- RESERVATION_GRANT (R295): An end-to-end reservation for a collective chunk is granted. -/
  | reservationGrant (vc : Nat) (gid : Nat)
  /-- COMPLETION_NOTICE (R292): A group's completion notice for a round reaches a rank. -/
  | completionNotice (vc : Nat) (gid : Nat)
  /-- ROUND_CANCEL (R302): A cancel from the root reaches a rank, which stops jobs and resets SEQ. -/
  | roundCancel (vc : Nat) (gid : Nat)
  /-- WINNOW_MERGE (R305): A k-list arrives at a Winnow unit and is merged; at the root the result is delivered; a number
  of 2 ^ 40 + 64 × die + slot is a list of another package's rank. -/
  | winnowMerge (id : Nat)
  /-- SWATH_ACKNOWLEDGEMENT (R318): A recorded transfer's acknowledgement or return fills or marks its entry. -/
  | swathAcknowledgement (id : Nat)
  /-- XWAIT_DEADLINE (R266): The deadline of XWAIT.T passes and the thread resumes with 0. -/
  | xwaitDeadline (pos : Nat) (slot : Nat)
  /-- WATCHDOG (R343): The watchdog interval expires without progress and the partition is reset. -/
  | watchdog
  /-- UNCORRECTABLE_ERROR (R337): An uncorrectable error consumed by a core seals it. -/
  | uncorrectableError (pos : Nat)
  /-- LINE_CHECK (R359): A line arrives at an L2 and its CRC-32C is checked, retried or poisoned; `bad` is the
  bits turned on the way, of the 64 bytes and the CRC. -/
  | lineCheck (hpa : Nat) (bad : Nat)
  /-- FRAME_RECEIPT (R358): A receiving port checks a frame's key, tag and counter, resending or dropping it; `id` names up to
  eight items of the network, as `State.frameItems` reads it. -/
  | frameReceipt (port : Nat) (key : Nat) (ctr : Nat) (tagOk : Bool) (id : Nat)
  /-- KEY_PHASE_SWITCH (R358): The service processor switches an owner's key phase at both ends of a link. -/
  | keyPhaseSwitch (port : Nat) (key : Nat) (newKey : Nat)
  /-- NARROWED (R356): A failing lane is retired and the link retrains narrower. -/
  | narrowed (port : Nat) (lanes : Nat)
  /-- DOWN (R385): A link loses its last good lane and routers take alternate routes. -/
  | down (port : Nat)
  /-- RETRAINED (R356): A link finishes retraining and carries traffic again. -/
  | retrained (port : Nat) (lanes : Nat)
  /-- THERMAL (R362): A junction sensor reaches 105 °C and the die halts. -/
  | thermal (die : Nat)
  /-- POWER_UP (R363): Power-up runs verification, training and loading, then starts TIME; one step of it completes, or
  fails with a code. -/
  | powerUp (failCode : Nat) (image : Nat)
  /-- HOST_MEMORY_ACCESS (R355): A host CXL.mem access is performed at its home slice. -/
  | hostMemoryAccess (hpa : Nat) (len : Nat) (wr : Option (List Byte))
  /-- TAIL (R353): A notify write to TAIL makes slots valid and starts command fetching. -/
  | tail (port : Nat) (q : Nat) (v : Nat) (relaxed : Bool)
  /-- COMMAND_REFETCH (R353): 1 µs after a refused fetch, the slot is fetched again or the queue stalls. -/
  | commandRefetch (port : Nat) (q : Nat)
  /-- EN (R351): Writing EN enables a queue, resetting HEAD and the expected sequence. -/
  | en (port : Nat) (q : Nat) (v : Nat)
  /-- STALLED (R353): Writing 1 to STALLED resumes fetching at HEAD. -/
  | stalled (port : Nat) (q : Nat)
  /-- RHEAD (R354): Writing RHEAD frees report slots so that held reports are written. -/
  | rhead (port : Nat) (q : Nat) (v : Nat)
  /-- QUEUE_REGISTER_WRITE (R351): A write to a command-queue register with no behaviour of its own. -/
  | queueRegisterWrite (port : Nat) (q : Nat) (off : Nat) (v : Nat)
  /-- SUBMIT (R352): Command that submits a packet array for a partition. -/
  | submit (port : Nat) (q : Nat)
  /-- POWER (R361): Command that sets the power state of the dies in a mask. -/
  | power (port : Nat) (q : Nat)
  /-- ATTEST (R360): Command that returns a signed attestation report. -/
  | attest (port : Nat) (q : Nat)
  /-- BAD_OP (R352): A record with a reserved OP completes with report BAD_OP. -/
  | badOp (port : Nat) (q : Nat)
  /-- SPARE_CLUSTER_STEERING (R24): A supervisor core retires an active cluster and the die steers a spare cluster into its torus position, ports and swath stores. -/
  | spareClusterSteering (die : Nat) (clu : Nat)
  /-- SECOND_STAGE_MAPPING (R173): The hypervisor level installs a missing second-stage mapping and the access parked on the miss is performed. -/
  | secondStageMapping (gframe : Nat) (hframe : Nat)
  /-- RECORD_CACHE_ACKNOWLEDGEMENT (R176): A record cache drops a record and its acknowledgement reaches the ORMOV, ORW or ORINV waiting for it. -/
  | recordCacheAcknowledgement (cache : Nat) (key : Nat)
  /-- HOST_WINDOW_RESPONSE (R187): A window agent's CXL.cache request completes or the host acknowledges a window write. -/
  | hostWindowResponse (port : Nat) (id : Nat)
  /-- MESSAGE_ACKNOWLEDGEMENT (R273): The delivery acknowledgement of a message reaches its sender, ending SENDW or a system-scope release's wait. -/
  | messageAcknowledgement (id : Nat)
  /-- VECTOR_COMPLETION (R214): The vector unit completes an instruction at S + 4 + c and takes the next one in issue order. -/
  | vectorCompletion (pos : Nat) (upTo : Nat)
  /-- COLLECTIVE_DELIVERY (R299): A combined chunk or scalar result of a round reaches a rank, is written to OUT or the result, and the round completes there. -/
  | collectiveDelivery (vc : Nat) (gid : Nat)
  /-- RECORDED_TRANSFER_ARRIVAL (R315): The data of a recorded transfer reaches its destination, where it is written as posted stores or refused. -/
  | recordedTransferArrival (id : Nat) (vc : Nat)
  /-- SHEAF_TABLE_WRITE (R294): Spahan writes a router sheaf entry through a service port, installing a group at round 0. -/
  | sheafTableWrite (die : Nat) (entry : BitVec 128)
  /-- TASK_END (R336): Spahan ends a task without TDONE, freeing its thread and reporting to the host; code 0
  gives up the granule of a copy job, 256 + v that of a round of vcore v. -/
  | taskEnd (pos : Nat) (slot : Nat) (code : Nat)
  /-- PARTITION_RESET (R347): Spahan resets a partition for rollback, without the fence-record replay. -/
  | partitionReset
  deriving DecidableEq, Repr

/-- A bundle (R50): a pair, or one lone instruction of either class. -/
inductive Bundle where
  | pair (c a : Instr)
  | loneC (c : Instr)
  | loneA (a : Instr)
  deriving DecidableEq, Repr

end Sys2Proof
end

