-- ==== Sys2Proof/WellFormed.lean ====
section
/-! DEFINITION. Which terms of `Instr` the encodings of spec/03_encoding.md admit: the checks that
the operand types do not already make.  Events carry no encoding; their checks bound the names of
the units they act on (R17, R18, R21). -/

namespace Sys2Proof

/-- SWR reaches every register of R326 but BANKM, XDONE0-7 and TIME, whose SWR entry is "none". -/
def SysReg.writable : SysReg → Bool
  | .bankm => false
  | .xdone _ => false
  | .time => false
  | _ => true

/-- LD's size field: .S only with .B, .H, .W (R62). -/
def loadFormOk (sx : Bool) (z : Size) : Bool := !(sx && z == .d)

/-- An even register, as LDP and STP need (R62). -/
def evenReg (r : Reg) : Bool := r.val % 2 == 0

/-- BF: pos + width is at most 64 (R56, R111). -/
def bitFieldOk (pos wm1 : BitVec 6) : Bool := decide (pos.toNat + wm1.toNat + 1 ≤ 64)

/-- DRN's checks (R59): .STAT needs .Q, .DX needs an activation, and a side field whose modifier is
absent is zero. -/
def drnOk (stat q dx bias scl : Bool) (act : Act) (side : DrnSide) : Bool :=
  (!stat || q) && (!dx || act != .none) && (q || side.sw == 0) && (dx || side.dx == 0) &&
    (bias || side.bias == 0) && (scl || side.scl == 0)

/-- A core position in a torus. -/
def torusOk (pos : Nat) : Bool := decide (pos < 4096)

/-- A core position; those from 4,096 on are the supervisor cores'. -/
def posOk (pos : Nat) : Bool := decide (pos < 4160)

/-- The place of a store buffer: a core's, or that of a cluster's copy hart. -/
def bufferOk (pos : Nat) : Bool := posOk pos || (decide (8192 ≤ pos) && decide (pos < 8704))

/-- A slot of a core. -/
def slotOk (slot : Nat) : Bool := decide (slot < 16)

/-- A cluster of the package, 64 × die + torus position (R17). -/
def cluOk (clu : Nat) : Bool := decide (clu < 512)

/-- A die of the package (R15). -/
def dieOk (die : Nat) : Bool := decide (die < 8)

/-- A home: slice 192 × die + n, or 1536 + p for the window agent of host port p (R173, R187). -/
def homeOk (h : Nat) : Bool := decide (h < 1538)

/-- A host port and one of its command queues (R351). -/
def queueOk (port q : Nat) : Bool := decide (port < 2) && decide (q < 64)

/-- A die's port, 256 × die + port id, of the kinds that carry frames: external Ifethal ports and
the die-to-die ports that are connected (R21, R384). -/
def linkPortOk (p : Nat) : Bool :=
  decide (p < 2048) && decide (0xE0 ≤ p % 256) && decide (p % 256 ≤ 0xEA)

/-- The instructions and events that name something. -/
def Instr.wellFormed : Instr → Bool
  | .nopA => true
  | .add _ _ _ _ => true
  | .sub _ _ _ _ => true
  | .mul _ _ _ => true
  | .mulh _ _ _ => true
  | .mulhu _ _ _ => true
  | .div _ _ _ => true
  | .divu _ _ _ => true
  | .rem _ _ _ => true
  | .remu _ _ _ => true
  | .and _ _ _ => true
  | .or _ _ _ => true
  | .xor _ _ _ => true
  | .andn _ _ _ => true
  | .shl _ _ _ => true
  | .shr _ _ _ => true
  | .sar _ _ _ => true
  | .rol _ _ _ => true
  | .seq _ _ _ => true
  | .sne _ _ _ => true
  | .slt _ _ _ => true
  | .sltu _ _ _ => true
  | .min _ _ _ => true
  | .max _ _ _ => true
  | .minu _ _ _ => true
  | .maxu _ _ _ => true
  | .sel _ _ _ _ => true
  | .clz _ _ => true
  | .ctz _ _ => true
  | .popc _ _ => true
  | .bswap _ _ => true
  | .ext _ _ pos wm1 => bitFieldOk pos wm1
  | .exts _ _ pos wm1 => bitFieldOk pos wm1
  | .ins _ _ pos wm1 => bitFieldOk pos wm1
  | .mad _ _ _ _ => true
  | .adds _ _ _ _ => true
  | .crcw _ _ _ _ => true
  | .addi _ _ _ => true
  | .andi _ _ _ => true
  | .ori _ _ _ => true
  | .xori _ _ _ => true
  | .shli _ _ _ => true
  | .shri _ _ _ => true
  | .sari _ _ _ => true
  | .seqi _ _ _ => true
  | .slti _ _ _ => true
  | .sltiu _ _ _ => true
  | .movi _ _ => true
  | .movx _ _ => true
  | .movhx _ _ => true
  | .muli _ _ _ => true
  | .fadd _ _ _ _ _ => true
  | .fsub _ _ _ _ _ => true
  | .fmul _ _ _ _ _ => true
  | .ffma _ _ _ _ _ _ => true
  | .fdiv _ _ _ _ _ => true
  | .fsqrt _ _ _ _ => true
  | .fmin _ _ _ _ => true
  | .fmax _ _ _ _ => true
  | .feq _ _ _ _ => true
  | .flt _ _ _ _ => true
  | .fle _ _ _ _ => true
  | .funo _ _ _ _ => true
  | .ftle _ _ _ _ => true
  | .fcvt _ _ _ _ _ _ => true
  | .fcvti _ _ _ _ _ => true
  | .icvtf _ _ _ _ _ => true
  | .fcls _ _ _ => true
  | .ffn _ _ _ _ => true
  | .fsel _ _ _ => true
  | .vadd _ _ _ _ _ => true
  | .vsub _ _ _ _ _ => true
  | .vmul _ _ _ _ _ => true
  | .vfma _ _ _ _ _ _ => true
  | .vscl _ _ _ _ _ => true
  | .vmin _ _ _ _ _ => true
  | .vmax _ _ _ _ _ => true
  | .vcvt _ _ _ _ _ => true
  | .vqnt _ _ _ _ _ => true
  | .vdq _ _ _ _ _ => true
  | .vred _ _ _ _ _ => true
  | .vbdot _ _ _ _ _ => true
  | .vtopk _ _ _ _ _ => true
  | .vmrg _ _ _ _ _ _ => true
  | .vfn _ _ _ _ _ => true
  | .vdfn _ _ _ _ _ _ => true
  | .vgth _ _ _ _ _ => true
  | .vsct _ _ _ _ _ _ => true
  | .vcmp _ _ _ _ _ _ => true
  | .vmsel _ _ _ _ _ _ => true
  | .viota _ _ _ _ => true
  | .vpfx _ _ _ _ => true
  | .vstat _ _ _ => true
  | .setvl _ _ => true
  | .vcpy _ _ _ _ => true
  | .mma _ _ _ _ => true
  | .mmas _ _ _ _ => true
  | .mmr _ _ => true
  | .mmg _ _ _ _ => true
  | .aclr _ => true
  | .amovLd _ _ => true
  | .amovSt _ _ => true
  | .drn _ _ stat q dx bias scl act side => drnOk stat q dx bias scl act side
  | .qpop _ => true
  | .qlvl _ => true
  | .astat _ _ => true
  | .mwake => true
  | .nopC => true
  | .br _ => true
  | .beq _ _ _ => true
  | .bne _ _ _ => true
  | .blt _ _ _ => true
  | .bge _ _ _ => true
  | .bltu _ _ _ => true
  | .bgeu _ _ _ => true
  | .bz _ _ => true
  | .bnz _ _ => true
  | .loop _ _ => true
  | .call _ => true
  | .jr _ _ => true
  | .callr _ _ => true
  | .brk _ => true
  | .await _ => true
  | .spawn _ => true
  | .tdone => true
  | .tyld => true
  | .chset _ _ _ => true
  | .chunk _ _ => true
  | .barc _ => true
  | .barr _ => true
  | .barw _ => true
  | .stgp _ _ _ => true
  | .stgf _ _ => true
  | .stgw _ _ _ => true
  | .stge _ _ => true
  | .hspawn _ => true
  | .hstop => true
  | .tsrd _ _ => true
  | .ld _ _ sx z _ => loadFormOk sx z
  | .st _ _ _ _ => true
  | .ldp rd _ _ => evenReg rd
  | .stp rs _ _ => evenReg rs
  | .ldf _ _ _ => true
  | .ldw _ _ _ => true
  | .stf _ _ _ => true
  | .sete _ _ => true
  | .fest _ _ _ => true
  | .old _ _ sx z _ => loadFormOk sx z
  | .ost _ _ _ _ => true
  | .orq _ _ _ => true
  | .oprb _ _ => true
  | .oref _ _ _ => true
  | .oldc _ _ sx z _ => loadFormOk sx z
  | .aadd _ _ _ _ => true
  | .aincb _ _ _ _ => true
  | .amin _ _ _ t z => (!t || z == .w)
  | .amax _ _ _ t z => (!t || z == .w)
  | .aminu _ _ _ _ => true
  | .amaxu _ _ _ _ => true
  | .aand _ _ _ _ => true
  | .aor _ _ _ _ => true
  | .axor _ _ _ _ => true
  | .aswp _ _ _ _ => true
  | .acas _ _ _ _ => true
  | .red _ _ _ _ => true
  | .ldc _ _ sx z _ => loadFormOk sx z
  | .ldacq _ _ _ _ => true
  | .strel _ _ _ _ => true
  | .fence _ _ => true
  | .mbxw _ => true
  | .mbxwMovement _ _ => true
  | .mbxr _ => true
  | .mbxrMovement _ _ => true
  | .cpy _ _ _ => true
  | .cpyt _ _ _ => true
  | .cpyf _ _ _ => true
  | .cpyg _ _ _ => true
  | .pfch _ _ => true
  | .evct _ _ => true
  | .xwait _ => true
  | .xwaitT _ _ _ => true
  | .xstat _ _ => true
  | .kick _ => true
  | .mbxd _ _ => true
  | .send _ _ => true
  | .sendw _ _ => true
  | .cont _ _ => true
  | .migr _ => true
  | .home => true
  | .rst _ _ _ => true
  | .jrnl _ _ => true
  | .gst _ _ => true
  | .gld _ _ => true
  | .gseq _ _ => true
  | .gabt _ _ => true
  | .cmc _ _ _ => true
  | .gcol _ _ _ _ _ => true
  | .wnw _ _ _ _ => true
  | .swopen _ _ _ => true
  | .swclose _ => true
  | .fwm _ _ _ _ => true
  | .fwg _ _ _ _ => true
  | .fwa _ _ _ => true
  | .rply _ _ _ _ => true
  | .swqry _ _ _ => true
  | .swdrop _ _ _ => true
  | .trap _ => true
  | .tret => true
  | .srd _ _ => true
  | .swr _ sr => sr.writable
  | .orw _ _ => true
  | .orinv _ => true
  | .ormov _ _ => true
  | .plcSwap _ _ => true
  | .plcMigx _ _ => true
  | .plcFold _ _ => true
  | .plcSeal _ => true
  | .dualOn => true
  | .dualOff => true
  | .qsc _ => true
  | .asyncEventEntry pos slot => posOk pos && slotOk slot
  | .icacheFill pos slot => posOk pos && slotOk slot
  | .recordFetch pos slot => posOk pos && slotOk slot
  | .storeBufferPerform pos _ => bufferOk pos
  | .homeSliceRequest h _ => homeOk h
  | .l2MissFill h _ => decide (h < 1536)
  | .probeEcho pos slot grp => posOk pos && slotOk slot && decide (grp < 512)
  | .residencyFillRelease rmapByte _ => decide (rmapByte < 2 ^ 48)
  | .dispatch _ => true
  | .gangPlacement _ => true
  | .compaction _ => true
  | .tedderInstant => true
  | .exchange posA posB => torusOk posA && torusOk posB && posA != posB
  | .forwardingEntryExpiry pos _ => posOk pos
  | .messageDelivery _ => true
  | .messageReturn _ => true
  | .migrationArrival _ => true
  | .migrationFailure _ => true
  | .rstArrival _ => true
  | .rstAcknowledgement _ => true
  | .engineSleep clu => cluOk clu
  | .engineWake clu => cluOk clu
  | .consumption clu => cluOk clu
  | .drainStart clu => cluOk clu
  | .rotationBufferForward pos _ => posOk pos
  | .copyChunk clu => cluOk clu
  | .reservationGrant _ _ => true
  | .completionNotice _ _ => true
  | .roundCancel _ _ => true
  | .winnowMerge _ => true
  | .swathAcknowledgement _ => true
  | .xwaitDeadline pos slot => posOk pos && slotOk slot
  | .watchdog => true
  | .uncorrectableError pos => torusOk pos
  | .lineCheck hpa bad => decide (hpa < 2 ^ 48) && decide (bad < 2 ^ 544)
  | .frameReceipt port key _ _ _ => linkPortOk port && decide (key < 256)
  | .keyPhaseSwitch port key _ => linkPortOk port && decide (key < 256)
  | .narrowed port lanes => linkPortOk port && (lanes == 4 || lanes == 2 || lanes == 1)
  | .down port => linkPortOk port
  | .retrained port lanes => linkPortOk port && (lanes == 8 || lanes == 4 || lanes == 2 || lanes == 1)
  | .thermal die => dieOk die
  | .powerUp failCode image => decide (failCode ≤ 4) && decide (image ≤ 4)
  | .hostMemoryAccess hpa _ _ => decide (hpa < 2 ^ 47)
  | .tail port q _ _ => queueOk port q
  | .commandRefetch port q => queueOk port q
  | .en port q _ => queueOk port q
  | .stalled port q => queueOk port q
  | .rhead port q _ => queueOk port q
  | .queueRegisterWrite port q _ _ => queueOk port q
  | .submit port q => queueOk port q
  | .power port q => queueOk port q
  | .attest port q => queueOk port q
  | .badOp port q => queueOk port q
  | .spareClusterSteering die clu => dieOk die && decide (clu < 64)
  | .secondStageMapping gframe hframe => decide (gframe < 2 ^ 32) && decide (hframe < 2 ^ 32)
  | .recordCacheAcknowledgement cache _ => decide (cache < 520)
  | .hostWindowResponse port _ => decide (port < 2)
  | .messageAcknowledgement _ => true
  | .vectorCompletion pos _ => posOk pos
  | .collectiveDelivery _ _ => true
  | .recordedTransferArrival _ _ => true
  | .sheafTableWrite die _ => dieOk die
  | .taskEnd pos slot _ => posOk pos && slotOk slot
  | .partitionReset => true

end Sys2Proof
end

