-- ==== Sys2Proof/Decode.lean ====
section
/-! DEFINITION. The decoder of bundles (R50-R68), total on any bytes and rejecting by name, and the
encoder written from the same encoding tables.  Words and bodies are natural numbers here; a field
is a quotient and a remainder. -/

namespace Sys2Proof

/-- Why a bundle is ILLEGAL (R67). -/
inductive DecodeError where
  /-- the class marker (R67 step 1) -/
  | classMarker
  /-- a reserved major (R60, R66) -/
  | reservedMajor
  /-- a reserved func, condition, op or scope value (R55) -/
  | reservedValue
  /-- a bit that must be zero is set (R55) -/
  | nonzeroBit
  /-- an operand form that the instruction's own description refuses (R56, R59, R62, R65) -/
  | badOperand
  /-- MOVX, MOVHX or DRN in a pair (R51, R67 step 2) -/
  | extensionInPair
  /-- a nonzero extension word for an instruction that defines none (R67 step 3) -/
  | nonzeroExtension
  /-- the two destination sets intersect (R67 step 4, R68) -/
  | destinations
  deriving DecidableEq, Repr

/-- Bits [lo + n - 1 : lo] of a word. -/
def fld (w lo n : Nat) : Nat := w / 2 ^ lo % 2 ^ n

/-- The field value of `SatMode`. -/
def SatMode.code : SatMode → Nat
  | .w => 0
  | .ss => 1
  | .su => 2

/-- `SatMode` from its field value; the other values are reserved. -/
def SatMode.ofCode : Nat → Option SatMode
  | 0 => some .w
  | 1 => some .ss
  | 2 => some .su
  | _ => none

/-- The field value of `Size`. -/
def Size.code : Size → Nat
  | .b => 0
  | .h => 1
  | .w => 2
  | .d => 3

/-- `Size` from its field value; the other values are reserved. -/
def Size.ofCode : Nat → Option Size
  | 0 => some .b
  | 1 => some .h
  | 2 => some .w
  | 3 => some .d
  | _ => none

/-- The field value of `ASize`. -/
def ASize.code : ASize → Nat
  | .d => 0
  | .w => 1

/-- `ASize` from its field value; the other values are reserved. -/
def ASize.ofCode : Nat → Option ASize
  | 0 => some .d
  | 1 => some .w
  | _ => none

/-- The field value of `ShAmt`. -/
def ShAmt.code : ShAmt → Nat
  | .s0 => 0
  | .s1 => 1
  | .s2 => 2
  | .s3 => 3
  | .s4 => 4

/-- `ShAmt` from its field value; the other values are reserved. -/
def ShAmt.ofCode : Nat → Option ShAmt
  | 0 => some .s0
  | 1 => some .s1
  | 2 => some .s2
  | 3 => some .s3
  | 4 => some .s4
  | _ => none

/-- The field value of `Rnd`. -/
def Rnd.code : Rnd → Nat
  | .dyn => 0
  | .rne => 1
  | .rtz => 2
  | .rup => 3
  | .rdn => 4

/-- `Rnd` from its field value; the other values are reserved. -/
def Rnd.ofCode : Nat → Option Rnd
  | 0 => some .dyn
  | 1 => some .rne
  | 2 => some .rtz
  | 3 => some .rup
  | 4 => some .rdn
  | _ => none

/-- The field value of `FpSel`. -/
def FpSel.code : FpSel → Nat
  | .d => 0
  | .s => 1

/-- `FpSel` from its field value; the other values are reserved. -/
def FpSel.ofCode : Nat → Option FpSel
  | 0 => some .d
  | 1 => some .s
  | _ => none

/-- The field value of `FnOp`. -/
def FnOp.code : FnOp → Nat
  | .exp2 => 0
  | .log2 => 1
  | .rcp => 2
  | .rsq => 3
  | .tanh => 4
  | .sigm => 5

/-- `FnOp` from its field value; the other values are reserved. -/
def FnOp.ofCode : Nat → Option FnOp
  | 0 => some .exp2
  | 1 => some .log2
  | 2 => some .rcp
  | 3 => some .rsq
  | 4 => some .tanh
  | 5 => some .sigm
  | _ => none

/-- The field value of `VRedOp`. -/
def VRedOp.code : VRedOp → Nat
  | .sum => 0
  | .max => 1
  | .min => 2
  | .tmax => 3

/-- `VRedOp` from its field value; the other values are reserved. -/
def VRedOp.ofCode : Nat → Option VRedOp
  | 0 => some .sum
  | 1 => some .max
  | 2 => some .min
  | 3 => some .tmax
  | _ => none

/-- The field value of `VFnOp`. -/
def VFnOp.code : VFnOp → Nat
  | .exp2 => 0
  | .log2 => 1
  | .tanh => 2
  | .sigm => 3
  | .gelu => 4
  | .silu => 5
  | .rcp => 6
  | .rsq => 7

/-- `VFnOp` from its field value; the other values are reserved. -/
def VFnOp.ofCode : Nat → Option VFnOp
  | 0 => some .exp2
  | 1 => some .log2
  | 2 => some .tanh
  | 3 => some .sigm
  | 4 => some .gelu
  | 5 => some .silu
  | 6 => some .rcp
  | 7 => some .rsq
  | _ => none

/-- The field value of `VDFnOp`. -/
def VDFnOp.code : VDFnOp → Nat
  | .dgelu => 0
  | .dsilu => 1
  | .dsigm => 2
  | .dtanh => 3
  | .drelu => 4

/-- `VDFnOp` from its field value; the other values are reserved. -/
def VDFnOp.ofCode : Nat → Option VDFnOp
  | 0 => some .dgelu
  | 1 => some .dsilu
  | 2 => some .dsigm
  | 3 => some .dtanh
  | 4 => some .drelu
  | _ => none

/-- The field value of `VCmpOp`. -/
def VCmpOp.code : VCmpOp → Nat
  | .eq => 0
  | .ne => 1
  | .lt => 2
  | .le => 3

/-- `VCmpOp` from its field value; the other values are reserved. -/
def VCmpOp.ofCode : Nat → Option VCmpOp
  | 0 => some .eq
  | 1 => some .ne
  | 2 => some .lt
  | 3 => some .le
  | _ => none

/-- The field value of `Act`. -/
def Act.code : Act → Nat
  | .none => 0
  | .relu => 1
  | .gelu => 2
  | .silu => 3
  | .sigm => 4
  | .tanh => 5

/-- `Act` from its field value; the other values are reserved. -/
def Act.ofCode : Nat → Option Act
  | 0 => some .none
  | 1 => some .relu
  | 2 => some .gelu
  | 3 => some .silu
  | 4 => some .sigm
  | 5 => some .tanh
  | _ => Option.none

/-- The field value of `RedOp`. -/
def RedOp.code : RedOp → Nat
  | .add => 0
  | .fadd => 1
  | .max => 2
  | .min => 3
  | .sadd => 4

/-- `RedOp` from its field value; the other values are reserved. -/
def RedOp.ofCode : Nat → Option RedOp
  | 0 => some .add
  | 1 => some .fadd
  | 2 => some .max
  | 3 => some .min
  | 4 => some .sadd
  | _ => none

/-- The field value of `Scope`. -/
def Scope.code : Scope → Nat
  | .core => 0
  | .clus => 1
  | .die => 2
  | .dev => 3
  | .sys => 4

/-- `Scope` from its field value; the other values are reserved. -/
def Scope.ofCode : Nat → Option Scope
  | 0 => some .core
  | 1 => some .clus
  | 2 => some .die
  | 3 => some .dev
  | 4 => some .sys
  | _ => none

/-- The field value of `FenceK`. -/
def FenceK.code : FenceK → Nat
  | .acq => 1
  | .rel => 2
  | .full => 3

/-- `FenceK` from its field value; the other values are reserved. -/
def FenceK.ofCode : Nat → Option FenceK
  | 1 => some .acq
  | 2 => some .rel
  | 3 => some .full
  | _ => none

/-- The field value of `CollOp`. -/
def CollOp.code : CollOp → Nat
  | .rs => 0
  | .ar => 1
  | .ag => 2
  | .bc => 3
  | .bar => 4

/-- `CollOp` from its field value; the other values are reserved. -/
def CollOp.ofCode : Nat → Option CollOp
  | 0 => some .rs
  | 1 => some .ar
  | 2 => some .ag
  | 3 => some .bc
  | 4 => some .bar
  | _ => none

/-- The field value of `SwqWord`. -/
def SwqWord.code : SwqWord → Nat
  | .state => 0
  | .counts => 1
  | .faults => 2

/-- `SwqWord` from its field value; the other values are reserved. -/
def SwqWord.ofCode : Nat → Option SwqWord
  | 0 => some .state
  | 1 => some .counts
  | 2 => some .faults
  | _ => none

/-- The number of a system register (R326). -/
def SysReg.code : SysReg → Nat
  | .tsw => 0x000
  | .tepc => 0x001
  | .tcause => 0x002
  | .tval => 0x003
  | .tvec => 0x004
  | .lseg => 0x005
  | .vl => 0x006
  | .rmode => 0x007
  | .bankm => 0x008
  | .tscr => 0x00A
  | .ortb => 0x010
  | .swq => 0x011
  | .codeo => 0x012
  | .tedi => 0x030
  | .tedg => 0x031
  | .tedm => 0x032
  | .tedc => 0x033
  | .time => 0x040
  | .wdog => 0x041
  | .frec => 0x042
  | .xdone n => 0x020 + n.val

/-- The system register of a number; a number not in the map is ILLEGAL (R65, R326). -/
def SysReg.ofCode : Nat → Option SysReg
  | 0x000 => some .tsw
  | 0x001 => some .tepc
  | 0x002 => some .tcause
  | 0x003 => some .tval
  | 0x004 => some .tvec
  | 0x005 => some .lseg
  | 0x006 => some .vl
  | 0x007 => some .rmode
  | 0x008 => some .bankm
  | 0x00A => some .tscr
  | 0x010 => some .ortb
  | 0x011 => some .swq
  | 0x012 => some .codeo
  | 0x030 => some .tedi
  | 0x031 => some .tedg
  | 0x032 => some .tedm
  | 0x033 => some .tedc
  | 0x040 => some .time
  | 0x041 => some .wdog
  | 0x042 => some .frec
  | 0x020 => some (.xdone 0)
  | 0x021 => some (.xdone 1)
  | 0x022 => some (.xdone 2)
  | 0x023 => some (.xdone 3)
  | 0x024 => some (.xdone 4)
  | 0x025 => some (.xdone 5)
  | 0x026 => some (.xdone 6)
  | 0x027 => some (.xdone 7)
  | _ => none

/-- Continue with a field value, or reject it as reserved. -/
def need {α : Type} (o : Option α) (k : α → Except DecodeError Instr) : Except DecodeError Instr :=
  match o with
  | some a => k a
  | none => .error .reservedValue

/-- The last checks of a half: the bits that must be zero, then the instruction's own. -/
def finish (zero : Bool) (i : Instr) : Except DecodeError Instr :=
  if zero then (if i.wellFormed then .ok i else .error .badOperand) else .error .nonzeroBit

/-- DRN's side fields, from its extension word [15:0] (R59). -/
def drnSide (ext : Nat) : DrnSide :=
  ⟨Fin.ofNat 16 (ext / 2 ^ 12), Fin.ofNat 16 (ext / 2 ^ 8), Fin.ofNat 16 (ext / 2 ^ 4), Fin.ofNat 16 ext⟩

/-- An instruction that defines an extension word: lone only (R51). -/
def extended (lone : Bool) (r : Except DecodeError Instr) : Except DecodeError Instr :=
  if lone then r else .error .extensionInPair

/-- An instruction that defines none: a lone bundle's word 1 is zero (R51). -/
def plain (ext : Nat) (r : Except DecodeError Instr) : Except DecodeError Instr :=
  match r with
  | .ok i => if ext = 0 then .ok i else .error .nonzeroExtension
  | .error e => .error e

/-- Major 0x00 of the A map: NOP_A. -/
def decodeA00 (b : Nat) : Except DecodeError Instr :=
  finish (decide (fld b 0 23 = 0)) (.nopA)

/-- Major 0x01 of the A map: ADD. -/
def decodeA01 (b : Nat) : Except DecodeError Instr :=
  need (SatMode.ofCode (fld b 0 2)) fun m =>
      finish (decide (fld b 2 9 = 0)) (.add (Fin.ofNat 16 (b / 2 ^ 19)) (Fin.ofNat 16 (b / 2 ^ 15)) (Fin.ofNat 16 (b / 2 ^ 11)) m)

/-- Major 0x02 of the A map: SUB. -/
def decodeA02 (b : Nat) : Except DecodeError Instr :=
  need (SatMode.ofCode (fld b 0 2)) fun m =>
      finish (decide (fld b 2 9 = 0)) (.sub (Fin.ofNat 16 (b / 2 ^ 19)) (Fin.ofNat 16 (b / 2 ^ 15)) (Fin.ofNat 16 (b / 2 ^ 11)) m)

/-- Major 0x03 of the A map: MUL, MULH, MULHU. -/
def decodeA03 (b : Nat) : Except DecodeError Instr :=
  if fld b 0 2 = 0 then
    finish (decide (fld b 2 9 = 0)) (.mul (Fin.ofNat 16 (b / 2 ^ 19)) (Fin.ofNat 16 (b / 2 ^ 15)) (Fin.ofNat 16 (b / 2 ^ 11)))
  else if fld b 0 2 = 1 then
    finish (decide (fld b 2 9 = 0)) (.mulh (Fin.ofNat 16 (b / 2 ^ 19)) (Fin.ofNat 16 (b / 2 ^ 15)) (Fin.ofNat 16 (b / 2 ^ 11)))
  else if fld b 0 2 = 2 then
    finish (decide (fld b 2 9 = 0)) (.mulhu (Fin.ofNat 16 (b / 2 ^ 19)) (Fin.ofNat 16 (b / 2 ^ 15)) (Fin.ofNat 16 (b / 2 ^ 11)))
  else .error .reservedValue

/-- Major 0x04 of the A map: DIV, DIVU, REM, REMU. -/
def decodeA04 (b : Nat) : Except DecodeError Instr :=
  if fld b 0 2 = 0 then
    finish (decide (fld b 2 9 = 0)) (.div (Fin.ofNat 16 (b / 2 ^ 19)) (Fin.ofNat 16 (b / 2 ^ 15)) (Fin.ofNat 16 (b / 2 ^ 11)))
  else if fld b 0 2 = 1 then
    finish (decide (fld b 2 9 = 0)) (.divu (Fin.ofNat 16 (b / 2 ^ 19)) (Fin.ofNat 16 (b / 2 ^ 15)) (Fin.ofNat 16 (b / 2 ^ 11)))
  else if fld b 0 2 = 2 then
    finish (decide (fld b 2 9 = 0)) (.rem (Fin.ofNat 16 (b / 2 ^ 19)) (Fin.ofNat 16 (b / 2 ^ 15)) (Fin.ofNat 16 (b / 2 ^ 11)))
  else if fld b 0 2 = 3 then
    finish (decide (fld b 2 9 = 0)) (.remu (Fin.ofNat 16 (b / 2 ^ 19)) (Fin.ofNat 16 (b / 2 ^ 15)) (Fin.ofNat 16 (b / 2 ^ 11)))
  else .error .reservedValue

/-- Major 0x05 of the A map: AND, OR, XOR, ANDN. -/
def decodeA05 (b : Nat) : Except DecodeError Instr :=
  if fld b 0 2 = 0 then
    finish (decide (fld b 2 9 = 0)) (.and (Fin.ofNat 16 (b / 2 ^ 19)) (Fin.ofNat 16 (b / 2 ^ 15)) (Fin.ofNat 16 (b / 2 ^ 11)))
  else if fld b 0 2 = 1 then
    finish (decide (fld b 2 9 = 0)) (.or (Fin.ofNat 16 (b / 2 ^ 19)) (Fin.ofNat 16 (b / 2 ^ 15)) (Fin.ofNat 16 (b / 2 ^ 11)))
  else if fld b 0 2 = 2 then
    finish (decide (fld b 2 9 = 0)) (.xor (Fin.ofNat 16 (b / 2 ^ 19)) (Fin.ofNat 16 (b / 2 ^ 15)) (Fin.ofNat 16 (b / 2 ^ 11)))
  else if fld b 0 2 = 3 then
    finish (decide (fld b 2 9 = 0)) (.andn (Fin.ofNat 16 (b / 2 ^ 19)) (Fin.ofNat 16 (b / 2 ^ 15)) (Fin.ofNat 16 (b / 2 ^ 11)))
  else .error .reservedValue

/-- Major 0x06 of the A map: SHL, SHR, SAR, ROL. -/
def decodeA06 (b : Nat) : Except DecodeError Instr :=
  if fld b 0 2 = 0 then
    finish (decide (fld b 2 9 = 0)) (.shl (Fin.ofNat 16 (b / 2 ^ 19)) (Fin.ofNat 16 (b / 2 ^ 15)) (Fin.ofNat 16 (b / 2 ^ 11)))
  else if fld b 0 2 = 1 then
    finish (decide (fld b 2 9 = 0)) (.shr (Fin.ofNat 16 (b / 2 ^ 19)) (Fin.ofNat 16 (b / 2 ^ 15)) (Fin.ofNat 16 (b / 2 ^ 11)))
  else if fld b 0 2 = 2 then
    finish (decide (fld b 2 9 = 0)) (.sar (Fin.ofNat 16 (b / 2 ^ 19)) (Fin.ofNat 16 (b / 2 ^ 15)) (Fin.ofNat 16 (b / 2 ^ 11)))
  else if fld b 0 2 = 3 then
    finish (decide (fld b 2 9 = 0)) (.rol (Fin.ofNat 16 (b / 2 ^ 19)) (Fin.ofNat 16 (b / 2 ^ 15)) (Fin.ofNat 16 (b / 2 ^ 11)))
  else .error .reservedValue

/-- Major 0x07 of the A map: SEQ, SNE, SLT, SLTU. -/
def decodeA07 (b : Nat) : Except DecodeError Instr :=
  if fld b 0 2 = 0 then
    finish (decide (fld b 2 9 = 0)) (.seq (Fin.ofNat 16 (b / 2 ^ 19)) (Fin.ofNat 16 (b / 2 ^ 15)) (Fin.ofNat 16 (b / 2 ^ 11)))
  else if fld b 0 2 = 1 then
    finish (decide (fld b 2 9 = 0)) (.sne (Fin.ofNat 16 (b / 2 ^ 19)) (Fin.ofNat 16 (b / 2 ^ 15)) (Fin.ofNat 16 (b / 2 ^ 11)))
  else if fld b 0 2 = 2 then
    finish (decide (fld b 2 9 = 0)) (.slt (Fin.ofNat 16 (b / 2 ^ 19)) (Fin.ofNat 16 (b / 2 ^ 15)) (Fin.ofNat 16 (b / 2 ^ 11)))
  else if fld b 0 2 = 3 then
    finish (decide (fld b 2 9 = 0)) (.sltu (Fin.ofNat 16 (b / 2 ^ 19)) (Fin.ofNat 16 (b / 2 ^ 15)) (Fin.ofNat 16 (b / 2 ^ 11)))
  else .error .reservedValue

/-- Major 0x08 of the A map: MIN, MAX, MINU, MAXU. -/
def decodeA08 (b : Nat) : Except DecodeError Instr :=
  if fld b 0 2 = 0 then
    finish (decide (fld b 2 9 = 0)) (.min (Fin.ofNat 16 (b / 2 ^ 19)) (Fin.ofNat 16 (b / 2 ^ 15)) (Fin.ofNat 16 (b / 2 ^ 11)))
  else if fld b 0 2 = 1 then
    finish (decide (fld b 2 9 = 0)) (.max (Fin.ofNat 16 (b / 2 ^ 19)) (Fin.ofNat 16 (b / 2 ^ 15)) (Fin.ofNat 16 (b / 2 ^ 11)))
  else if fld b 0 2 = 2 then
    finish (decide (fld b 2 9 = 0)) (.minu (Fin.ofNat 16 (b / 2 ^ 19)) (Fin.ofNat 16 (b / 2 ^ 15)) (Fin.ofNat 16 (b / 2 ^ 11)))
  else if fld b 0 2 = 3 then
    finish (decide (fld b 2 9 = 0)) (.maxu (Fin.ofNat 16 (b / 2 ^ 19)) (Fin.ofNat 16 (b / 2 ^ 15)) (Fin.ofNat 16 (b / 2 ^ 11)))
  else .error .reservedValue

/-- Major 0x09 of the A map: SEL. -/
def decodeA09 (b : Nat) : Except DecodeError Instr :=
  finish (decide (fld b 0 7 = 0)) (.sel (Fin.ofNat 16 (b / 2 ^ 19)) (Fin.ofNat 16 (b / 2 ^ 15)) (Fin.ofNat 16 (b / 2 ^ 11)) (Fin.ofNat 16 (b / 2 ^ 7)))

/-- Major 0x0A of the A map: CLZ, CTZ, POPC, BSWAP. -/
def decodeA0A (b : Nat) : Except DecodeError Instr :=
  if fld b 0 2 = 0 then
    finish (decide (fld b 2 13 = 0)) (.clz (Fin.ofNat 16 (b / 2 ^ 19)) (Fin.ofNat 16 (b / 2 ^ 15)))
  else if fld b 0 2 = 1 then
    finish (decide (fld b 2 13 = 0)) (.ctz (Fin.ofNat 16 (b / 2 ^ 19)) (Fin.ofNat 16 (b / 2 ^ 15)))
  else if fld b 0 2 = 2 then
    finish (decide (fld b 2 13 = 0)) (.popc (Fin.ofNat 16 (b / 2 ^ 19)) (Fin.ofNat 16 (b / 2 ^ 15)))
  else if fld b 0 2 = 3 then
    finish (decide (fld b 2 13 = 0)) (.bswap (Fin.ofNat 16 (b / 2 ^ 19)) (Fin.ofNat 16 (b / 2 ^ 15)))
  else .error .reservedValue

/-- Major 0x0B of the A map: EXT, EXTS, INS. -/
def decodeA0B (b : Nat) : Except DecodeError Instr :=
  if fld b 13 2 = 0 then
    finish (decide (fld b 0 1 = 0)) (.ext (Fin.ofNat 16 (b / 2 ^ 19)) (Fin.ofNat 16 (b / 2 ^ 15)) (BitVec.ofNat 6 (b / 2 ^ 7)) (BitVec.ofNat 6 (b / 2 ^ 1)))
  else if fld b 13 2 = 1 then
    finish (decide (fld b 0 1 = 0)) (.exts (Fin.ofNat 16 (b / 2 ^ 19)) (Fin.ofNat 16 (b / 2 ^ 15)) (BitVec.ofNat 6 (b / 2 ^ 7)) (BitVec.ofNat 6 (b / 2 ^ 1)))
  else if fld b 13 2 = 2 then
    finish (decide (fld b 0 1 = 0)) (.ins (Fin.ofNat 16 (b / 2 ^ 19)) (Fin.ofNat 16 (b / 2 ^ 15)) (BitVec.ofNat 6 (b / 2 ^ 7)) (BitVec.ofNat 6 (b / 2 ^ 1)))
  else .error .reservedValue

/-- Major 0x0C of the A map: MAD. -/
def decodeA0C (b : Nat) : Except DecodeError Instr :=
  finish (decide (fld b 0 7 = 0)) (.mad (Fin.ofNat 16 (b / 2 ^ 19)) (Fin.ofNat 16 (b / 2 ^ 15)) (Fin.ofNat 16 (b / 2 ^ 11)) (Fin.ofNat 16 (b / 2 ^ 7)))

/-- Major 0x0D of the A map: ADDS. -/
def decodeA0D (b : Nat) : Except DecodeError Instr :=
  need (ShAmt.ofCode (fld b 0 3)) fun sh =>
      finish (decide (fld b 3 8 = 0)) (.adds (Fin.ofNat 16 (b / 2 ^ 19)) (Fin.ofNat 16 (b / 2 ^ 15)) (Fin.ofNat 16 (b / 2 ^ 11)) sh)

/-- Major 0x0E of the A map: CRCW. -/
def decodeA0E (b : Nat) : Except DecodeError Instr :=
  need (Size.ofCode (fld b 0 2)) fun z =>
      finish (decide (fld b 2 9 = 0)) (.crcw (Fin.ofNat 16 (b / 2 ^ 19)) (Fin.ofNat 16 (b / 2 ^ 15)) (Fin.ofNat 16 (b / 2 ^ 11)) z)

/-- Major 0x10 of the A map: ADDI. -/
def decodeA10 (b : Nat) : Except DecodeError Instr :=
  finish (true) (.addi (Fin.ofNat 16 (b / 2 ^ 19)) (Fin.ofNat 16 (b / 2 ^ 15)) (BitVec.ofNat 15 (b / 2 ^ 0)))

/-- Major 0x11 of the A map: ANDI. -/
def decodeA11 (b : Nat) : Except DecodeError Instr :=
  finish (true) (.andi (Fin.ofNat 16 (b / 2 ^ 19)) (Fin.ofNat 16 (b / 2 ^ 15)) (BitVec.ofNat 15 (b / 2 ^ 0)))

/-- Major 0x12 of the A map: ORI. -/
def decodeA12 (b : Nat) : Except DecodeError Instr :=
  finish (true) (.ori (Fin.ofNat 16 (b / 2 ^ 19)) (Fin.ofNat 16 (b / 2 ^ 15)) (BitVec.ofNat 15 (b / 2 ^ 0)))

/-- Major 0x13 of the A map: XORI. -/
def decodeA13 (b : Nat) : Except DecodeError Instr :=
  finish (true) (.xori (Fin.ofNat 16 (b / 2 ^ 19)) (Fin.ofNat 16 (b / 2 ^ 15)) (BitVec.ofNat 15 (b / 2 ^ 0)))

/-- Major 0x14 of the A map: SHLI, SHRI, SARI. -/
def decodeA14 (b : Nat) : Except DecodeError Instr :=
  if fld b 13 2 = 0 then
    finish (decide (fld b 6 7 = 0)) (.shli (Fin.ofNat 16 (b / 2 ^ 19)) (Fin.ofNat 16 (b / 2 ^ 15)) (BitVec.ofNat 6 (b / 2 ^ 0)))
  else if fld b 13 2 = 1 then
    finish (decide (fld b 6 7 = 0)) (.shri (Fin.ofNat 16 (b / 2 ^ 19)) (Fin.ofNat 16 (b / 2 ^ 15)) (BitVec.ofNat 6 (b / 2 ^ 0)))
  else if fld b 13 2 = 2 then
    finish (decide (fld b 6 7 = 0)) (.sari (Fin.ofNat 16 (b / 2 ^ 19)) (Fin.ofNat 16 (b / 2 ^ 15)) (BitVec.ofNat 6 (b / 2 ^ 0)))
  else .error .reservedValue

/-- Major 0x15 of the A map: SEQI, SLTI, SLTIU. -/
def decodeA15 (b : Nat) : Except DecodeError Instr :=
  if fld b 13 2 = 0 then
    finish (true) (.seqi (Fin.ofNat 16 (b / 2 ^ 19)) (Fin.ofNat 16 (b / 2 ^ 15)) (BitVec.ofNat 13 (b / 2 ^ 0)))
  else if fld b 13 2 = 1 then
    finish (true) (.slti (Fin.ofNat 16 (b / 2 ^ 19)) (Fin.ofNat 16 (b / 2 ^ 15)) (BitVec.ofNat 13 (b / 2 ^ 0)))
  else if fld b 13 2 = 2 then
    finish (true) (.sltiu (Fin.ofNat 16 (b / 2 ^ 19)) (Fin.ofNat 16 (b / 2 ^ 15)) (BitVec.ofNat 13 (b / 2 ^ 0)))
  else .error .reservedValue

/-- Major 0x16 of the A map: MOVI. -/
def decodeA16 (b : Nat) : Except DecodeError Instr :=
  finish (true) (.movi (Fin.ofNat 16 (b / 2 ^ 19)) (BitVec.ofNat 19 (b / 2 ^ 0)))

/-- Major 0x17 of the A map: MOVX. -/
def decodeA17 (b : Nat) (ext : Nat) : Except DecodeError Instr :=
  finish (decide (fld b 0 19 = 0)) (.movx (Fin.ofNat 16 (b / 2 ^ 19)) (BitVec.ofNat 32 ext))

/-- Major 0x18 of the A map: MOVHX. -/
def decodeA18 (b : Nat) (ext : Nat) : Except DecodeError Instr :=
  finish (decide (fld b 0 19 = 0)) (.movhx (Fin.ofNat 16 (b / 2 ^ 19)) (BitVec.ofNat 32 ext))

/-- Major 0x19 of the A map: MULI. -/
def decodeA19 (b : Nat) : Except DecodeError Instr :=
  finish (true) (.muli (Fin.ofNat 16 (b / 2 ^ 19)) (Fin.ofNat 16 (b / 2 ^ 15)) (BitVec.ofNat 15 (b / 2 ^ 0)))

/-- Major 0x20 of the A map: FADD. -/
def decodeA20 (b : Nat) : Except DecodeError Instr :=
  need (Rnd.ofCode (fld b 1 3)) fun r =>
      need (FpSel.ofCode (fld b 0 1)) fun f =>
      finish (decide (fld b 4 7 = 0)) (.fadd (Fin.ofNat 16 (b / 2 ^ 19)) (Fin.ofNat 16 (b / 2 ^ 15)) (Fin.ofNat 16 (b / 2 ^ 11)) r f)

/-- Major 0x21 of the A map: FSUB. -/
def decodeA21 (b : Nat) : Except DecodeError Instr :=
  need (Rnd.ofCode (fld b 1 3)) fun r =>
      need (FpSel.ofCode (fld b 0 1)) fun f =>
      finish (decide (fld b 4 7 = 0)) (.fsub (Fin.ofNat 16 (b / 2 ^ 19)) (Fin.ofNat 16 (b / 2 ^ 15)) (Fin.ofNat 16 (b / 2 ^ 11)) r f)

/-- Major 0x22 of the A map: FMUL. -/
def decodeA22 (b : Nat) : Except DecodeError Instr :=
  need (Rnd.ofCode (fld b 1 3)) fun r =>
      need (FpSel.ofCode (fld b 0 1)) fun f =>
      finish (decide (fld b 4 7 = 0)) (.fmul (Fin.ofNat 16 (b / 2 ^ 19)) (Fin.ofNat 16 (b / 2 ^ 15)) (Fin.ofNat 16 (b / 2 ^ 11)) r f)

/-- Major 0x23 of the A map: FFMA. -/
def decodeA23 (b : Nat) : Except DecodeError Instr :=
  need (Rnd.ofCode (fld b 1 3)) fun r =>
      need (FpSel.ofCode (fld b 0 1)) fun f =>
      finish (decide (fld b 4 3 = 0)) (.ffma (Fin.ofNat 16 (b / 2 ^ 19)) (Fin.ofNat 16 (b / 2 ^ 15)) (Fin.ofNat 16 (b / 2 ^ 11)) (Fin.ofNat 16 (b / 2 ^ 7)) r f)

/-- Major 0x24 of the A map: FDIV. -/
def decodeA24 (b : Nat) : Except DecodeError Instr :=
  need (Rnd.ofCode (fld b 1 3)) fun r =>
      need (FpSel.ofCode (fld b 0 1)) fun f =>
      finish (decide (fld b 4 7 = 0)) (.fdiv (Fin.ofNat 16 (b / 2 ^ 19)) (Fin.ofNat 16 (b / 2 ^ 15)) (Fin.ofNat 16 (b / 2 ^ 11)) r f)

/-- Major 0x25 of the A map: FSQRT. -/
def decodeA25 (b : Nat) : Except DecodeError Instr :=
  need (Rnd.ofCode (fld b 1 3)) fun r =>
      need (FpSel.ofCode (fld b 0 1)) fun f =>
      finish (decide (fld b 4 11 = 0)) (.fsqrt (Fin.ofNat 16 (b / 2 ^ 19)) (Fin.ofNat 16 (b / 2 ^ 15)) r f)

/-- Major 0x26 of the A map: FMIN, FMAX. -/
def decodeA26 (b : Nat) : Except DecodeError Instr :=
  if fld b 4 1 = 0 then
    need (FpSel.ofCode (fld b 0 1)) fun f =>
      finish (decide (fld b 1 3 = 0) && decide (fld b 5 6 = 0)) (.fmin (Fin.ofNat 16 (b / 2 ^ 19)) (Fin.ofNat 16 (b / 2 ^ 15)) (Fin.ofNat 16 (b / 2 ^ 11)) f)
  else if fld b 4 1 = 1 then
    need (FpSel.ofCode (fld b 0 1)) fun f =>
      finish (decide (fld b 1 3 = 0) && decide (fld b 5 6 = 0)) (.fmax (Fin.ofNat 16 (b / 2 ^ 19)) (Fin.ofNat 16 (b / 2 ^ 15)) (Fin.ofNat 16 (b / 2 ^ 11)) f)
  else .error .reservedValue

/-- Major 0x27 of the A map: FEQ, FLT, FLE, FUNO. -/
def decodeA27 (b : Nat) : Except DecodeError Instr :=
  if fld b 4 2 = 0 then
    need (FpSel.ofCode (fld b 0 1)) fun f =>
      finish (decide (fld b 1 3 = 0) && decide (fld b 6 5 = 0)) (.feq (Fin.ofNat 16 (b / 2 ^ 19)) (Fin.ofNat 16 (b / 2 ^ 15)) (Fin.ofNat 16 (b / 2 ^ 11)) f)
  else if fld b 4 2 = 1 then
    need (FpSel.ofCode (fld b 0 1)) fun f =>
      finish (decide (fld b 1 3 = 0) && decide (fld b 6 5 = 0)) (.flt (Fin.ofNat 16 (b / 2 ^ 19)) (Fin.ofNat 16 (b / 2 ^ 15)) (Fin.ofNat 16 (b / 2 ^ 11)) f)
  else if fld b 4 2 = 2 then
    need (FpSel.ofCode (fld b 0 1)) fun f =>
      finish (decide (fld b 1 3 = 0) && decide (fld b 6 5 = 0)) (.fle (Fin.ofNat 16 (b / 2 ^ 19)) (Fin.ofNat 16 (b / 2 ^ 15)) (Fin.ofNat 16 (b / 2 ^ 11)) f)
  else if fld b 4 2 = 3 then
    need (FpSel.ofCode (fld b 0 1)) fun f =>
      finish (decide (fld b 1 3 = 0) && decide (fld b 6 5 = 0)) (.funo (Fin.ofNat 16 (b / 2 ^ 19)) (Fin.ofNat 16 (b / 2 ^ 15)) (Fin.ofNat 16 (b / 2 ^ 11)) f)
  else .error .reservedValue

/-- Major 0x28 of the A map: FTLE. -/
def decodeA28 (b : Nat) : Except DecodeError Instr :=
  need (FpSel.ofCode (fld b 0 1)) fun f =>
      finish (decide (fld b 1 10 = 0)) (.ftle (Fin.ofNat 16 (b / 2 ^ 19)) (Fin.ofNat 16 (b / 2 ^ 15)) (Fin.ofNat 16 (b / 2 ^ 11)) f)

/-- Major 0x29 of the A map: FCVT. -/
def decodeA29 (b : Nat) : Except DecodeError Instr :=
  need (Rnd.ofCode (fld b 1 3)) fun r =>
      finish (decide (fld b 0 1 = 0) && decide (fld b 5 2 = 0)) (.fcvt (Fin.ofNat 16 (b / 2 ^ 19)) (Fin.ofNat 16 (b / 2 ^ 15)) (BitVec.ofNat 4 (b / 2 ^ 11)) (BitVec.ofNat 4 (b / 2 ^ 7)) (decide (fld b 4 1 = 1)) r)

/-- Major 0x2A of the A map: FCVTI. -/
def decodeA2A (b : Nat) : Except DecodeError Instr :=
  need (Rnd.ofCode (fld b 1 3)) fun r =>
      need (FpSel.ofCode (fld b 0 1)) fun f =>
      finish (decide (fld b 4 3 = 0) && decide (fld b 11 4 = 0)) (.fcvti (Fin.ofNat 16 (b / 2 ^ 19)) (Fin.ofNat 16 (b / 2 ^ 15)) (BitVec.ofNat 4 (b / 2 ^ 7)) r f)

/-- Major 0x2B of the A map: ICVTF. -/
def decodeA2B (b : Nat) : Except DecodeError Instr :=
  need (Rnd.ofCode (fld b 1 3)) fun r =>
      need (FpSel.ofCode (fld b 0 1)) fun f =>
      finish (decide (fld b 4 3 = 0) && decide (fld b 11 4 = 0)) (.icvtf (Fin.ofNat 16 (b / 2 ^ 19)) (Fin.ofNat 16 (b / 2 ^ 15)) (BitVec.ofNat 4 (b / 2 ^ 7)) r f)

/-- Major 0x2C of the A map: FCLS. -/
def decodeA2C (b : Nat) : Except DecodeError Instr :=
  need (FpSel.ofCode (fld b 0 1)) fun f =>
      finish (decide (fld b 1 14 = 0)) (.fcls (Fin.ofNat 16 (b / 2 ^ 19)) (Fin.ofNat 16 (b / 2 ^ 15)) f)

/-- Major 0x2D of the A map: FFN. -/
def decodeA2D (b : Nat) : Except DecodeError Instr :=
  if fld b 0 1 = 1 then
    need (FnOp.ofCode (fld b 4 3)) fun op =>
      need (Rnd.ofCode (fld b 1 3)) fun r =>
      finish (decide (fld b 7 8 = 0)) (.ffn (Fin.ofNat 16 (b / 2 ^ 19)) (Fin.ofNat 16 (b / 2 ^ 15)) op r)
  else .error .reservedValue

/-- Major 0x2E of the A map: FSEL. -/
def decodeA2E (b : Nat) : Except DecodeError Instr :=
  finish (decide (fld b 0 11 = 0)) (.fsel (Fin.ofNat 16 (b / 2 ^ 19)) (Fin.ofNat 16 (b / 2 ^ 15)) (Fin.ofNat 16 (b / 2 ^ 11)))

/-- Major 0x30 of the A map: VADD. -/
def decodeA30 (b : Nat) : Except DecodeError Instr :=
  need (Rnd.ofCode (fld b 4 3)) fun r =>
      finish (decide (fld b 7 4 = 0)) (.vadd (Fin.ofNat 16 (b / 2 ^ 19)) (Fin.ofNat 16 (b / 2 ^ 15)) (Fin.ofNat 16 (b / 2 ^ 11)) r (BitVec.ofNat 4 (b / 2 ^ 0)))

/-- Major 0x31 of the A map: VSUB. -/
def decodeA31 (b : Nat) : Except DecodeError Instr :=
  need (Rnd.ofCode (fld b 4 3)) fun r =>
      finish (decide (fld b 7 4 = 0)) (.vsub (Fin.ofNat 16 (b / 2 ^ 19)) (Fin.ofNat 16 (b / 2 ^ 15)) (Fin.ofNat 16 (b / 2 ^ 11)) r (BitVec.ofNat 4 (b / 2 ^ 0)))

/-- Major 0x32 of the A map: VMUL. -/
def decodeA32 (b : Nat) : Except DecodeError Instr :=
  need (Rnd.ofCode (fld b 4 3)) fun r =>
      finish (decide (fld b 7 4 = 0)) (.vmul (Fin.ofNat 16 (b / 2 ^ 19)) (Fin.ofNat 16 (b / 2 ^ 15)) (Fin.ofNat 16 (b / 2 ^ 11)) r (BitVec.ofNat 4 (b / 2 ^ 0)))

/-- Major 0x33 of the A map: VFMA. -/
def decodeA33 (b : Nat) : Except DecodeError Instr :=
  need (Rnd.ofCode (fld b 4 3)) fun r =>
      finish (true) (.vfma (Fin.ofNat 16 (b / 2 ^ 19)) (Fin.ofNat 16 (b / 2 ^ 15)) (Fin.ofNat 16 (b / 2 ^ 11)) (Fin.ofNat 16 (b / 2 ^ 7)) r (BitVec.ofNat 4 (b / 2 ^ 0)))

/-- Major 0x34 of the A map: VSCL. -/
def decodeA34 (b : Nat) : Except DecodeError Instr :=
  need (Rnd.ofCode (fld b 4 3)) fun r =>
      finish (decide (fld b 7 4 = 0)) (.vscl (Fin.ofNat 16 (b / 2 ^ 19)) (Fin.ofNat 16 (b / 2 ^ 15)) (Fin.ofNat 16 (b / 2 ^ 11)) r (BitVec.ofNat 4 (b / 2 ^ 0)))

/-- Major 0x35 of the A map: VMIN, VMAX. -/
def decodeA35 (b : Nat) : Except DecodeError Instr :=
  if fld b 7 1 = 0 then
    need (Rnd.ofCode (fld b 4 3)) fun r =>
      finish (decide (fld b 8 3 = 0)) (.vmin (Fin.ofNat 16 (b / 2 ^ 19)) (Fin.ofNat 16 (b / 2 ^ 15)) (Fin.ofNat 16 (b / 2 ^ 11)) r (BitVec.ofNat 4 (b / 2 ^ 0)))
  else if fld b 7 1 = 1 then
    need (Rnd.ofCode (fld b 4 3)) fun r =>
      finish (decide (fld b 8 3 = 0)) (.vmax (Fin.ofNat 16 (b / 2 ^ 19)) (Fin.ofNat 16 (b / 2 ^ 15)) (Fin.ofNat 16 (b / 2 ^ 11)) r (BitVec.ofNat 4 (b / 2 ^ 0)))
  else .error .reservedValue

/-- Major 0x36 of the A map: VCVT. -/
def decodeA36 (b : Nat) : Except DecodeError Instr :=
  need (Rnd.ofCode (fld b 4 3)) fun r =>
      finish (decide (fld b 11 4 = 0)) (.vcvt (Fin.ofNat 16 (b / 2 ^ 19)) (Fin.ofNat 16 (b / 2 ^ 15)) (BitVec.ofNat 4 (b / 2 ^ 7)) r (BitVec.ofNat 4 (b / 2 ^ 0)))

/-- Major 0x37 of the A map: VQNT. -/
def decodeA37 (b : Nat) : Except DecodeError Instr :=
  need (Rnd.ofCode (fld b 4 3)) fun r =>
      finish (decide (fld b 7 4 = 0)) (.vqnt (Fin.ofNat 16 (b / 2 ^ 19)) (Fin.ofNat 16 (b / 2 ^ 15)) (Fin.ofNat 16 (b / 2 ^ 11)) r (BitVec.ofNat 4 (b / 2 ^ 0)))

/-- Major 0x38 of the A map: VDQ. -/
def decodeA38 (b : Nat) : Except DecodeError Instr :=
  need (Rnd.ofCode (fld b 4 3)) fun r =>
      finish (decide (fld b 7 4 = 0)) (.vdq (Fin.ofNat 16 (b / 2 ^ 19)) (Fin.ofNat 16 (b / 2 ^ 15)) (Fin.ofNat 16 (b / 2 ^ 11)) r (BitVec.ofNat 4 (b / 2 ^ 0)))

/-- Major 0x39 of the A map: VRED. -/
def decodeA39 (b : Nat) : Except DecodeError Instr :=
  need (VRedOp.ofCode (fld b 7 2)) fun op =>
      need (Rnd.ofCode (fld b 4 3)) fun r =>
      finish (decide (fld b 9 6 = 0)) (.vred (Fin.ofNat 16 (b / 2 ^ 19)) (Fin.ofNat 16 (b / 2 ^ 15)) op r (BitVec.ofNat 4 (b / 2 ^ 0)))

/-- Major 0x3A of the A map: VBDOT. -/
def decodeA3A (b : Nat) : Except DecodeError Instr :=
  need (Rnd.ofCode (fld b 4 3)) fun r =>
      finish (decide (fld b 0 4 = 0) && decide (fld b 8 3 = 0)) (.vbdot (Fin.ofNat 16 (b / 2 ^ 19)) (Fin.ofNat 16 (b / 2 ^ 15)) (Fin.ofNat 16 (b / 2 ^ 11)) (decide (fld b 7 1 = 1)) r)

/-- Major 0x3B of the A map: VTOPK. -/
def decodeA3B (b : Nat) : Except DecodeError Instr :=
  need (Rnd.ofCode (fld b 4 3)) fun r =>
      finish (decide (fld b 10 5 = 0)) (.vtopk (Fin.ofNat 16 (b / 2 ^ 19)) (Fin.ofNat 16 (b / 2 ^ 15)) (Fin.ofNat 8 (b / 2 ^ 7)) r (BitVec.ofNat 4 (b / 2 ^ 0)))

/-- Major 0x3C of the A map: VMRG. -/
def decodeA3C (b : Nat) : Except DecodeError Instr :=
  need (Rnd.ofCode (fld b 4 3)) fun r =>
      finish (decide (fld b 10 1 = 0)) (.vmrg (Fin.ofNat 16 (b / 2 ^ 19)) (Fin.ofNat 16 (b / 2 ^ 15)) (Fin.ofNat 16 (b / 2 ^ 11)) (Fin.ofNat 8 (b / 2 ^ 7)) r (BitVec.ofNat 4 (b / 2 ^ 0)))

/-- Major 0x3D of the A map: VFN. -/
def decodeA3D (b : Nat) : Except DecodeError Instr :=
  need (VFnOp.ofCode (fld b 7 3)) fun op =>
      need (Rnd.ofCode (fld b 4 3)) fun r =>
      finish (decide (fld b 10 5 = 0)) (.vfn (Fin.ofNat 16 (b / 2 ^ 19)) (Fin.ofNat 16 (b / 2 ^ 15)) op r (BitVec.ofNat 4 (b / 2 ^ 0)))

/-- Major 0x3E of the A map: VDFN. -/
def decodeA3E (b : Nat) : Except DecodeError Instr :=
  need (VDFnOp.ofCode (fld b 7 3)) fun op =>
      need (Rnd.ofCode (fld b 4 3)) fun r =>
      finish (decide (fld b 10 1 = 0)) (.vdfn (Fin.ofNat 16 (b / 2 ^ 19)) (Fin.ofNat 16 (b / 2 ^ 15)) (Fin.ofNat 16 (b / 2 ^ 11)) op r (BitVec.ofNat 4 (b / 2 ^ 0)))

/-- Major 0x3F of the A map: VGTH. -/
def decodeA3F (b : Nat) : Except DecodeError Instr :=
  need (Rnd.ofCode (fld b 4 3)) fun r =>
      finish (decide (fld b 7 4 = 0)) (.vgth (Fin.ofNat 16 (b / 2 ^ 19)) (Fin.ofNat 16 (b / 2 ^ 15)) (Fin.ofNat 16 (b / 2 ^ 11)) r (BitVec.ofNat 4 (b / 2 ^ 0)))

/-- Major 0x40 of the A map: VSCT. -/
def decodeA40 (b : Nat) : Except DecodeError Instr :=
  need (Rnd.ofCode (fld b 4 3)) fun r =>
      finish (decide (fld b 8 3 = 0)) (.vsct (Fin.ofNat 16 (b / 2 ^ 19)) (Fin.ofNat 16 (b / 2 ^ 15)) (Fin.ofNat 16 (b / 2 ^ 11)) (decide (fld b 7 1 = 1)) r (BitVec.ofNat 4 (b / 2 ^ 0)))

/-- Major 0x41 of the A map: VCMP. -/
def decodeA41 (b : Nat) : Except DecodeError Instr :=
  need (VCmpOp.ofCode (fld b 7 3)) fun op =>
      need (Rnd.ofCode (fld b 4 3)) fun r =>
      finish (decide (fld b 10 1 = 0)) (.vcmp (Fin.ofNat 16 (b / 2 ^ 19)) (Fin.ofNat 16 (b / 2 ^ 15)) (Fin.ofNat 16 (b / 2 ^ 11)) op r (BitVec.ofNat 4 (b / 2 ^ 0)))

/-- Major 0x42 of the A map: VMSEL. -/
def decodeA42 (b : Nat) : Except DecodeError Instr :=
  need (Rnd.ofCode (fld b 4 3)) fun r =>
      finish (true) (.vmsel (Fin.ofNat 16 (b / 2 ^ 19)) (Fin.ofNat 16 (b / 2 ^ 15)) (Fin.ofNat 16 (b / 2 ^ 11)) (Fin.ofNat 16 (b / 2 ^ 7)) r (BitVec.ofNat 4 (b / 2 ^ 0)))

/-- Major 0x43 of the A map: VIOTA. -/
def decodeA43 (b : Nat) : Except DecodeError Instr :=
  need (Rnd.ofCode (fld b 4 3)) fun r =>
      finish (decide (fld b 7 8 = 0)) (.viota (Fin.ofNat 16 (b / 2 ^ 19)) (Fin.ofNat 16 (b / 2 ^ 15)) r (BitVec.ofNat 4 (b / 2 ^ 0)))

/-- Major 0x44 of the A map: VPFX. -/
def decodeA44 (b : Nat) : Except DecodeError Instr :=
  need (Rnd.ofCode (fld b 4 3)) fun r =>
      finish (decide (fld b 7 8 = 0)) (.vpfx (Fin.ofNat 16 (b / 2 ^ 19)) (Fin.ofNat 16 (b / 2 ^ 15)) r (BitVec.ofNat 4 (b / 2 ^ 0)))

/-- Major 0x45 of the A map: VSTAT. -/
def decodeA45 (b : Nat) : Except DecodeError Instr :=
  need (Rnd.ofCode (fld b 4 3)) fun r =>
      finish (decide (fld b 0 4 = 0) && decide (fld b 7 8 = 0)) (.vstat (Fin.ofNat 16 (b / 2 ^ 19)) (Fin.ofNat 16 (b / 2 ^ 15)) r)

/-- Major 0x46 of the A map: SETVL. -/
def decodeA46 (b : Nat) : Except DecodeError Instr :=
  finish (decide (fld b 0 15 = 0)) (.setvl (Fin.ofNat 16 (b / 2 ^ 19)) (Fin.ofNat 16 (b / 2 ^ 15)))

/-- Major 0x47 of the A map: VCPY. -/
def decodeA47 (b : Nat) : Except DecodeError Instr :=
  need (Rnd.ofCode (fld b 4 3)) fun r =>
      finish (decide (fld b 7 8 = 0)) (.vcpy (Fin.ofNat 16 (b / 2 ^ 19)) (Fin.ofNat 16 (b / 2 ^ 15)) r (BitVec.ofNat 4 (b / 2 ^ 0)))

/-- Major 0x50 of the A map: MMA. -/
def decodeA50 (b : Nat) : Except DecodeError Instr :=
  finish (decide (fld b 3 17 = 0)) (.mma (Fin.ofNat 8 (b / 2 ^ 20)) (decide (fld b 2 1 = 1)) (decide (fld b 1 1 = 1)) (decide (fld b 0 1 = 1)))

/-- Major 0x51 of the A map: MMAS. -/
def decodeA51 (b : Nat) : Except DecodeError Instr :=
  finish (decide (fld b 3 17 = 0)) (.mmas (Fin.ofNat 8 (b / 2 ^ 20)) (decide (fld b 2 1 = 1)) (decide (fld b 1 1 = 1)) (decide (fld b 0 1 = 1)))

/-- Major 0x52 of the A map: MMR. -/
def decodeA52 (b : Nat) : Except DecodeError Instr :=
  finish (decide (fld b 1 19 = 0)) (.mmr (Fin.ofNat 8 (b / 2 ^ 20)) (decide (fld b 0 1 = 1)))

/-- Major 0x53 of the A map: MMG. -/
def decodeA53 (b : Nat) : Except DecodeError Instr :=
  finish (decide (fld b 1 10 = 0) && decide (fld b 19 1 = 0)) (.mmg (Fin.ofNat 8 (b / 2 ^ 20)) (Fin.ofNat 16 (b / 2 ^ 15)) (Fin.ofNat 16 (b / 2 ^ 11)) (decide (fld b 0 1 = 1)))

/-- Major 0x54 of the A map: ACLR. -/
def decodeA54 (b : Nat) : Except DecodeError Instr :=
  finish (decide (fld b 0 20 = 0)) (.aclr (Fin.ofNat 8 (b / 2 ^ 20)))

/-- Major 0x55 of the A map: AMOV_LD, AMOV_ST. -/
def decodeA55 (b : Nat) : Except DecodeError Instr :=
  if fld b 0 1 = 0 then
    finish (decide (fld b 1 14 = 0) && decide (fld b 19 1 = 0)) (.amovLd (Fin.ofNat 8 (b / 2 ^ 20)) (Fin.ofNat 16 (b / 2 ^ 15)))
  else if fld b 0 1 = 1 then
    finish (decide (fld b 1 14 = 0) && decide (fld b 19 1 = 0)) (.amovSt (Fin.ofNat 8 (b / 2 ^ 20)) (Fin.ofNat 16 (b / 2 ^ 15)))
  else .error .reservedValue

/-- Major 0x56 of the A map: DRN. -/
def decodeA56 (b : Nat) (ext : Nat) : Except DecodeError Instr :=
  need (Act.ofCode (fld b 0 4)) fun act =>
      finish (decide (fld b 9 6 = 0) && decide (fld b 19 1 = 0) && decide (fld ext 16 16 = 0)) (.drn (Fin.ofNat 8 (b / 2 ^ 20)) (Fin.ofNat 16 (b / 2 ^ 15)) (decide (fld b 8 1 = 1)) (decide (fld b 7 1 = 1)) (decide (fld b 6 1 = 1)) (decide (fld b 5 1 = 1)) (decide (fld b 4 1 = 1)) act (drnSide ext))

/-- Major 0x57 of the A map: QPOP. -/
def decodeA57 (b : Nat) : Except DecodeError Instr :=
  finish (decide (fld b 1 22 = 0)) (.qpop (decide (fld b 0 1 = 1)))

/-- Major 0x58 of the A map: QLVL. -/
def decodeA58 (b : Nat) : Except DecodeError Instr :=
  finish (decide (fld b 0 19 = 0)) (.qlvl (Fin.ofNat 16 (b / 2 ^ 19)))

/-- Major 0x59 of the A map: ASTAT. -/
def decodeA59 (b : Nat) : Except DecodeError Instr :=
  finish (decide (fld b 0 15 = 0) && decide (fld b 18 1 = 0)) (.astat (Fin.ofNat 16 (b / 2 ^ 19)) (Fin.ofNat 8 (b / 2 ^ 15)))

/-- Major 0x5A of the A map: MWAKE. -/
def decodeA5A (b : Nat) : Except DecodeError Instr :=
  finish (decide (fld b 0 23 = 0)) (.mwake)

/-- A body under the A-class map (R56-R60); `ext` is the extension word of a lone bundle. -/
def decodeA (lone : Bool) (ext b : Nat) : Except DecodeError Instr :=
  match fld b 23 7 with
  | 0x00 => plain ext (decodeA00 b)
  | 0x01 => plain ext (decodeA01 b)
  | 0x02 => plain ext (decodeA02 b)
  | 0x03 => plain ext (decodeA03 b)
  | 0x04 => plain ext (decodeA04 b)
  | 0x05 => plain ext (decodeA05 b)
  | 0x06 => plain ext (decodeA06 b)
  | 0x07 => plain ext (decodeA07 b)
  | 0x08 => plain ext (decodeA08 b)
  | 0x09 => plain ext (decodeA09 b)
  | 0x0A => plain ext (decodeA0A b)
  | 0x0B => plain ext (decodeA0B b)
  | 0x0C => plain ext (decodeA0C b)
  | 0x0D => plain ext (decodeA0D b)
  | 0x0E => plain ext (decodeA0E b)
  | 0x10 => plain ext (decodeA10 b)
  | 0x11 => plain ext (decodeA11 b)
  | 0x12 => plain ext (decodeA12 b)
  | 0x13 => plain ext (decodeA13 b)
  | 0x14 => plain ext (decodeA14 b)
  | 0x15 => plain ext (decodeA15 b)
  | 0x16 => plain ext (decodeA16 b)
  | 0x17 => extended lone (decodeA17 b ext)
  | 0x18 => extended lone (decodeA18 b ext)
  | 0x19 => plain ext (decodeA19 b)
  | 0x20 => plain ext (decodeA20 b)
  | 0x21 => plain ext (decodeA21 b)
  | 0x22 => plain ext (decodeA22 b)
  | 0x23 => plain ext (decodeA23 b)
  | 0x24 => plain ext (decodeA24 b)
  | 0x25 => plain ext (decodeA25 b)
  | 0x26 => plain ext (decodeA26 b)
  | 0x27 => plain ext (decodeA27 b)
  | 0x28 => plain ext (decodeA28 b)
  | 0x29 => plain ext (decodeA29 b)
  | 0x2A => plain ext (decodeA2A b)
  | 0x2B => plain ext (decodeA2B b)
  | 0x2C => plain ext (decodeA2C b)
  | 0x2D => plain ext (decodeA2D b)
  | 0x2E => plain ext (decodeA2E b)
  | 0x30 => plain ext (decodeA30 b)
  | 0x31 => plain ext (decodeA31 b)
  | 0x32 => plain ext (decodeA32 b)
  | 0x33 => plain ext (decodeA33 b)
  | 0x34 => plain ext (decodeA34 b)
  | 0x35 => plain ext (decodeA35 b)
  | 0x36 => plain ext (decodeA36 b)
  | 0x37 => plain ext (decodeA37 b)
  | 0x38 => plain ext (decodeA38 b)
  | 0x39 => plain ext (decodeA39 b)
  | 0x3A => plain ext (decodeA3A b)
  | 0x3B => plain ext (decodeA3B b)
  | 0x3C => plain ext (decodeA3C b)
  | 0x3D => plain ext (decodeA3D b)
  | 0x3E => plain ext (decodeA3E b)
  | 0x3F => plain ext (decodeA3F b)
  | 0x40 => plain ext (decodeA40 b)
  | 0x41 => plain ext (decodeA41 b)
  | 0x42 => plain ext (decodeA42 b)
  | 0x43 => plain ext (decodeA43 b)
  | 0x44 => plain ext (decodeA44 b)
  | 0x45 => plain ext (decodeA45 b)
  | 0x46 => plain ext (decodeA46 b)
  | 0x47 => plain ext (decodeA47 b)
  | 0x50 => plain ext (decodeA50 b)
  | 0x51 => plain ext (decodeA51 b)
  | 0x52 => plain ext (decodeA52 b)
  | 0x53 => plain ext (decodeA53 b)
  | 0x54 => plain ext (decodeA54 b)
  | 0x55 => plain ext (decodeA55 b)
  | 0x56 => extended lone (decodeA56 b ext)
  | 0x57 => plain ext (decodeA57 b)
  | 0x58 => plain ext (decodeA58 b)
  | 0x59 => plain ext (decodeA59 b)
  | 0x5A => plain ext (decodeA5A b)
  | _ => .error .reservedMajor

/-- Major 0x00 of the C map: NOP_C. -/
def decodeC00 (b : Nat) : Except DecodeError Instr :=
  finish (decide (fld b 0 23 = 0)) (.nopC)

/-- Major 0x01 of the C map: BR. -/
def decodeC01 (b : Nat) : Except DecodeError Instr :=
  finish (decide (fld b 15 8 = 0)) (.br (BitVec.ofNat 15 (b / 2 ^ 0)))

/-- Major 0x02 of the C map: BEQ, BNE, BLT, BGE, BLTU, BGEU. -/
def decodeC02 (b : Nat) : Except DecodeError Instr :=
  if fld b 12 3 = 0 then
    finish (true) (.beq (Fin.ofNat 16 (b / 2 ^ 19)) (Fin.ofNat 16 (b / 2 ^ 15)) (BitVec.ofNat 12 (b / 2 ^ 0)))
  else if fld b 12 3 = 1 then
    finish (true) (.bne (Fin.ofNat 16 (b / 2 ^ 19)) (Fin.ofNat 16 (b / 2 ^ 15)) (BitVec.ofNat 12 (b / 2 ^ 0)))
  else if fld b 12 3 = 2 then
    finish (true) (.blt (Fin.ofNat 16 (b / 2 ^ 19)) (Fin.ofNat 16 (b / 2 ^ 15)) (BitVec.ofNat 12 (b / 2 ^ 0)))
  else if fld b 12 3 = 3 then
    finish (true) (.bge (Fin.ofNat 16 (b / 2 ^ 19)) (Fin.ofNat 16 (b / 2 ^ 15)) (BitVec.ofNat 12 (b / 2 ^ 0)))
  else if fld b 12 3 = 4 then
    finish (true) (.bltu (Fin.ofNat 16 (b / 2 ^ 19)) (Fin.ofNat 16 (b / 2 ^ 15)) (BitVec.ofNat 12 (b / 2 ^ 0)))
  else if fld b 12 3 = 5 then
    finish (true) (.bgeu (Fin.ofNat 16 (b / 2 ^ 19)) (Fin.ofNat 16 (b / 2 ^ 15)) (BitVec.ofNat 12 (b / 2 ^ 0)))
  else .error .reservedValue

/-- Major 0x03 of the C map: BZ, BNZ. -/
def decodeC03 (b : Nat) : Except DecodeError Instr :=
  if fld b 15 4 = 0 then
    finish (true) (.bz (Fin.ofNat 16 (b / 2 ^ 19)) (BitVec.ofNat 15 (b / 2 ^ 0)))
  else if fld b 15 4 = 1 then
    finish (true) (.bnz (Fin.ofNat 16 (b / 2 ^ 19)) (BitVec.ofNat 15 (b / 2 ^ 0)))
  else .error .reservedValue

/-- Major 0x04 of the C map: LOOP. -/
def decodeC04 (b : Nat) : Except DecodeError Instr :=
  finish (decide (fld b 15 4 = 0)) (.loop (Fin.ofNat 16 (b / 2 ^ 19)) (BitVec.ofNat 15 (b / 2 ^ 0)))

/-- Major 0x05 of the C map: CALL. -/
def decodeC05 (b : Nat) : Except DecodeError Instr :=
  finish (decide (fld b 15 8 = 0)) (.call (BitVec.ofNat 15 (b / 2 ^ 0)))

/-- Major 0x06 of the C map: JR. -/
def decodeC06 (b : Nat) : Except DecodeError Instr :=
  finish (decide (fld b 15 4 = 0)) (.jr (Fin.ofNat 16 (b / 2 ^ 19)) (BitVec.ofNat 15 (b / 2 ^ 0)))

/-- Major 0x07 of the C map: CALLR. -/
def decodeC07 (b : Nat) : Except DecodeError Instr :=
  finish (decide (fld b 15 4 = 0)) (.callr (Fin.ofNat 16 (b / 2 ^ 19)) (BitVec.ofNat 15 (b / 2 ^ 0)))

/-- Major 0x08 of the C map: BRK. -/
def decodeC08 (b : Nat) : Except DecodeError Instr :=
  finish (decide (fld b 19 4 = 0)) (.brk (BitVec.ofNat 19 (b / 2 ^ 0)))

/-- Major 0x09 of the C map: AWAIT. -/
def decodeC09 (b : Nat) : Except DecodeError Instr :=
  finish (decide (fld b 0 19 = 0)) (.await (Fin.ofNat 16 (b / 2 ^ 19)))

/-- Major 0x10 of the C map: SPAWN. -/
def decodeC10 (b : Nat) : Except DecodeError Instr :=
  finish (decide (fld b 0 15 = 0) && decide (fld b 19 4 = 0)) (.spawn (Fin.ofNat 16 (b / 2 ^ 15)))

/-- Major 0x11 of the C map: TDONE. -/
def decodeC11 (b : Nat) : Except DecodeError Instr :=
  finish (decide (fld b 0 23 = 0)) (.tdone)

/-- Major 0x12 of the C map: TYLD. -/
def decodeC12 (b : Nat) : Except DecodeError Instr :=
  finish (decide (fld b 0 23 = 0)) (.tyld)

/-- Major 0x13 of the C map: CHSET. -/
def decodeC13 (b : Nat) : Except DecodeError Instr :=
  finish (decide (fld b 0 11 = 0) && decide (fld b 22 1 = 0)) (.chset (Fin.ofNat 8 (b / 2 ^ 19)) (Fin.ofNat 16 (b / 2 ^ 15)) (Fin.ofNat 16 (b / 2 ^ 11)))

/-- Major 0x14 of the C map: CHUNK. -/
def decodeC14 (b : Nat) : Except DecodeError Instr :=
  finish (decide (fld b 0 15 = 0) && decide (fld b 18 1 = 0)) (.chunk (Fin.ofNat 16 (b / 2 ^ 19)) (Fin.ofNat 8 (b / 2 ^ 15)))

/-- Major 0x15 of the C map: BARC. -/
def decodeC15 (b : Nat) : Except DecodeError Instr :=
  finish (decide (fld b 0 15 = 0) && decide (fld b 19 4 = 0)) (.barc (Fin.ofNat 16 (b / 2 ^ 15)))

/-- Major 0x16 of the C map: BARR. -/
def decodeC16 (b : Nat) : Except DecodeError Instr :=
  finish (decide (fld b 0 19 = 0)) (.barr (Fin.ofNat 16 (b / 2 ^ 19)))

/-- Major 0x17 of the C map: BARW. -/
def decodeC17 (b : Nat) : Except DecodeError Instr :=
  finish (decide (fld b 0 15 = 0) && decide (fld b 19 4 = 0)) (.barw (Fin.ofNat 16 (b / 2 ^ 15)))

/-- Major 0x18 of the C map: STGP. -/
def decodeC18 (b : Nat) : Except DecodeError Instr :=
  finish (decide (fld b 0 11 = 0)) (.stgp (Fin.ofNat 16 (b / 2 ^ 19)) (Fin.ofNat 16 (b / 2 ^ 15)) (Fin.ofNat 16 (b / 2 ^ 11)))

/-- Major 0x19 of the C map: STGF. -/
def decodeC19 (b : Nat) : Except DecodeError Instr :=
  finish (decide (fld b 0 11 = 0) && decide (fld b 19 4 = 0)) (.stgf (Fin.ofNat 16 (b / 2 ^ 15)) (Fin.ofNat 16 (b / 2 ^ 11)))

/-- Major 0x1A of the C map: STGW. -/
def decodeC1A (b : Nat) : Except DecodeError Instr :=
  finish (decide (fld b 0 11 = 0)) (.stgw (Fin.ofNat 16 (b / 2 ^ 19)) (Fin.ofNat 16 (b / 2 ^ 15)) (Fin.ofNat 16 (b / 2 ^ 11)))

/-- Major 0x1B of the C map: STGE. -/
def decodeC1B (b : Nat) : Except DecodeError Instr :=
  finish (decide (fld b 0 11 = 0) && decide (fld b 19 4 = 0)) (.stge (Fin.ofNat 16 (b / 2 ^ 15)) (Fin.ofNat 16 (b / 2 ^ 11)))

/-- Major 0x1C of the C map: HSPAWN. -/
def decodeC1C (b : Nat) : Except DecodeError Instr :=
  finish (decide (fld b 15 8 = 0)) (.hspawn (BitVec.ofNat 15 (b / 2 ^ 0)))

/-- Major 0x1D of the C map: HSTOP. -/
def decodeC1D (b : Nat) : Except DecodeError Instr :=
  finish (decide (fld b 0 23 = 0)) (.hstop)

/-- Major 0x1E of the C map: TSRD. -/
def decodeC1E (b : Nat) : Except DecodeError Instr :=
  finish (decide (fld b 0 15 = 0) && decide (fld b 18 1 = 0)) (.tsrd (Fin.ofNat 16 (b / 2 ^ 19)) (Fin.ofNat 8 (b / 2 ^ 15)))

/-- Major 0x20 of the C map: LD. -/
def decodeC20 (b : Nat) : Except DecodeError Instr :=
  need (Size.ofCode (fld b 12 2)) fun z =>
      finish (true) (.ld (Fin.ofNat 16 (b / 2 ^ 19)) (Fin.ofNat 16 (b / 2 ^ 15)) (decide (fld b 14 1 = 1)) z (BitVec.ofNat 12 (b / 2 ^ 0)))

/-- Major 0x21 of the C map: ST. -/
def decodeC21 (b : Nat) : Except DecodeError Instr :=
  need (Size.ofCode (fld b 12 2)) fun z =>
      finish (decide (fld b 14 1 = 0)) (.st (Fin.ofNat 16 (b / 2 ^ 19)) (Fin.ofNat 16 (b / 2 ^ 15)) z (BitVec.ofNat 12 (b / 2 ^ 0)))

/-- Major 0x22 of the C map: LDP. -/
def decodeC22 (b : Nat) : Except DecodeError Instr :=
  if fld b 12 3 = 3 then
    finish (true) (.ldp (Fin.ofNat 16 (b / 2 ^ 19)) (Fin.ofNat 16 (b / 2 ^ 15)) (BitVec.ofNat 12 (b / 2 ^ 0)))
  else .error .reservedValue

/-- Major 0x23 of the C map: STP. -/
def decodeC23 (b : Nat) : Except DecodeError Instr :=
  if fld b 12 3 = 3 then
    finish (true) (.stp (Fin.ofNat 16 (b / 2 ^ 19)) (Fin.ofNat 16 (b / 2 ^ 15)) (BitVec.ofNat 12 (b / 2 ^ 0)))
  else .error .reservedValue

/-- Major 0x24 of the C map: LDF. -/
def decodeC24 (b : Nat) : Except DecodeError Instr :=
  if fld b 12 3 = 3 then
    finish (true) (.ldf (Fin.ofNat 16 (b / 2 ^ 19)) (Fin.ofNat 16 (b / 2 ^ 15)) (BitVec.ofNat 12 (b / 2 ^ 0)))
  else .error .reservedValue

/-- Major 0x25 of the C map: LDW. -/
def decodeC25 (b : Nat) : Except DecodeError Instr :=
  if fld b 12 3 = 3 then
    finish (true) (.ldw (Fin.ofNat 16 (b / 2 ^ 19)) (Fin.ofNat 16 (b / 2 ^ 15)) (BitVec.ofNat 12 (b / 2 ^ 0)))
  else .error .reservedValue

/-- Major 0x26 of the C map: STF. -/
def decodeC26 (b : Nat) : Except DecodeError Instr :=
  if fld b 12 3 = 3 then
    finish (true) (.stf (Fin.ofNat 16 (b / 2 ^ 19)) (Fin.ofNat 16 (b / 2 ^ 15)) (BitVec.ofNat 12 (b / 2 ^ 0)))
  else .error .reservedValue

/-- Major 0x27 of the C map: SETE. -/
def decodeC27 (b : Nat) : Except DecodeError Instr :=
  if fld b 12 3 = 3 then
    finish (decide (fld b 19 4 = 0)) (.sete (Fin.ofNat 16 (b / 2 ^ 15)) (BitVec.ofNat 12 (b / 2 ^ 0)))
  else .error .reservedValue

/-- Major 0x28 of the C map: FEST. -/
def decodeC28 (b : Nat) : Except DecodeError Instr :=
  if fld b 12 3 = 3 then
    finish (true) (.fest (Fin.ofNat 16 (b / 2 ^ 19)) (Fin.ofNat 16 (b / 2 ^ 15)) (BitVec.ofNat 12 (b / 2 ^ 0)))
  else .error .reservedValue

/-- Major 0x30 of the C map: OLD. -/
def decodeC30 (b : Nat) : Except DecodeError Instr :=
  need (Size.ofCode (fld b 12 2)) fun z =>
      finish (true) (.old (Fin.ofNat 16 (b / 2 ^ 19)) (Fin.ofNat 16 (b / 2 ^ 15)) (decide (fld b 14 1 = 1)) z (BitVec.ofNat 12 (b / 2 ^ 0)))

/-- Major 0x31 of the C map: OST. -/
def decodeC31 (b : Nat) : Except DecodeError Instr :=
  need (Size.ofCode (fld b 12 2)) fun z =>
      finish (decide (fld b 14 1 = 0)) (.ost (Fin.ofNat 16 (b / 2 ^ 19)) (Fin.ofNat 16 (b / 2 ^ 15)) z (BitVec.ofNat 12 (b / 2 ^ 0)))

/-- Major 0x32 of the C map: ORQ. -/
def decodeC32 (b : Nat) : Except DecodeError Instr :=
  finish (decide (fld b 4 11 = 0)) (.orq (Fin.ofNat 16 (b / 2 ^ 19)) (Fin.ofNat 16 (b / 2 ^ 15)) (BitVec.ofNat 4 (b / 2 ^ 0)))

/-- Major 0x33 of the C map: OPRB. -/
def decodeC33 (b : Nat) : Except DecodeError Instr :=
  finish (decide (fld b 0 15 = 0)) (.oprb (Fin.ofNat 16 (b / 2 ^ 19)) (Fin.ofNat 16 (b / 2 ^ 15)))

/-- Major 0x34 of the C map: OREF. -/
def decodeC34 (b : Nat) : Except DecodeError Instr :=
  finish (decide (fld b 0 11 = 0)) (.oref (Fin.ofNat 16 (b / 2 ^ 19)) (Fin.ofNat 16 (b / 2 ^ 15)) (Fin.ofNat 16 (b / 2 ^ 11)))

/-- Major 0x35 of the C map: OLDC. -/
def decodeC35 (b : Nat) : Except DecodeError Instr :=
  need (Size.ofCode (fld b 12 2)) fun z =>
      finish (true) (.oldc (Fin.ofNat 16 (b / 2 ^ 19)) (Fin.ofNat 16 (b / 2 ^ 15)) (decide (fld b 14 1 = 1)) z (BitVec.ofNat 12 (b / 2 ^ 0)))

/-- Major 0x40 of the C map: AADD. -/
def decodeC40 (b : Nat) : Except DecodeError Instr :=
  need (ASize.ofCode (fld b 0 1)) fun z =>
      finish (decide (fld b 1 10 = 0)) (.aadd (Fin.ofNat 16 (b / 2 ^ 19)) (Fin.ofNat 16 (b / 2 ^ 15)) (Fin.ofNat 16 (b / 2 ^ 11)) z)

/-- Major 0x41 of the C map: AINCB. -/
def decodeC41 (b : Nat) : Except DecodeError Instr :=
  need (ASize.ofCode (fld b 0 1)) fun z =>
      finish (decide (fld b 1 10 = 0)) (.aincb (Fin.ofNat 16 (b / 2 ^ 19)) (Fin.ofNat 16 (b / 2 ^ 15)) (Fin.ofNat 16 (b / 2 ^ 11)) z)

/-- Major 0x42 of the C map: AMIN, AMAX, AMINU, AMAXU. -/
def decodeC42 (b : Nat) : Except DecodeError Instr :=
  if fld b 1 2 = 0 then
    need (ASize.ofCode (fld b 0 1)) fun z =>
      finish (decide (fld b 4 7 = 0)) (.amin (Fin.ofNat 16 (b / 2 ^ 19)) (Fin.ofNat 16 (b / 2 ^ 15)) (Fin.ofNat 16 (b / 2 ^ 11)) (decide (fld b 3 1 = 1)) z)
  else if fld b 1 2 = 1 then
    need (ASize.ofCode (fld b 0 1)) fun z =>
      finish (decide (fld b 4 7 = 0)) (.amax (Fin.ofNat 16 (b / 2 ^ 19)) (Fin.ofNat 16 (b / 2 ^ 15)) (Fin.ofNat 16 (b / 2 ^ 11)) (decide (fld b 3 1 = 1)) z)
  else if fld b 1 2 = 2 then
    need (ASize.ofCode (fld b 0 1)) fun z =>
      finish (decide (fld b 3 8 = 0)) (.aminu (Fin.ofNat 16 (b / 2 ^ 19)) (Fin.ofNat 16 (b / 2 ^ 15)) (Fin.ofNat 16 (b / 2 ^ 11)) z)
  else if fld b 1 2 = 3 then
    need (ASize.ofCode (fld b 0 1)) fun z =>
      finish (decide (fld b 3 8 = 0)) (.amaxu (Fin.ofNat 16 (b / 2 ^ 19)) (Fin.ofNat 16 (b / 2 ^ 15)) (Fin.ofNat 16 (b / 2 ^ 11)) z)
  else .error .reservedValue

/-- Major 0x43 of the C map: AAND, AOR, AXOR. -/
def decodeC43 (b : Nat) : Except DecodeError Instr :=
  if fld b 1 2 = 0 then
    need (ASize.ofCode (fld b 0 1)) fun z =>
      finish (decide (fld b 3 8 = 0)) (.aand (Fin.ofNat 16 (b / 2 ^ 19)) (Fin.ofNat 16 (b / 2 ^ 15)) (Fin.ofNat 16 (b / 2 ^ 11)) z)
  else if fld b 1 2 = 1 then
    need (ASize.ofCode (fld b 0 1)) fun z =>
      finish (decide (fld b 3 8 = 0)) (.aor (Fin.ofNat 16 (b / 2 ^ 19)) (Fin.ofNat 16 (b / 2 ^ 15)) (Fin.ofNat 16 (b / 2 ^ 11)) z)
  else if fld b 1 2 = 2 then
    need (ASize.ofCode (fld b 0 1)) fun z =>
      finish (decide (fld b 3 8 = 0)) (.axor (Fin.ofNat 16 (b / 2 ^ 19)) (Fin.ofNat 16 (b / 2 ^ 15)) (Fin.ofNat 16 (b / 2 ^ 11)) z)
  else .error .reservedValue

/-- Major 0x44 of the C map: ASWP. -/
def decodeC44 (b : Nat) : Except DecodeError Instr :=
  need (ASize.ofCode (fld b 0 1)) fun z =>
      finish (decide (fld b 1 10 = 0)) (.aswp (Fin.ofNat 16 (b / 2 ^ 19)) (Fin.ofNat 16 (b / 2 ^ 15)) (Fin.ofNat 16 (b / 2 ^ 11)) z)

/-- Major 0x45 of the C map: ACAS. -/
def decodeC45 (b : Nat) : Except DecodeError Instr :=
  need (ASize.ofCode (fld b 0 1)) fun z =>
      finish (decide (fld b 1 10 = 0)) (.acas (Fin.ofNat 16 (b / 2 ^ 19)) (Fin.ofNat 16 (b / 2 ^ 15)) (Fin.ofNat 16 (b / 2 ^ 11)) z)

/-- Major 0x46 of the C map: RED. -/
def decodeC46 (b : Nat) : Except DecodeError Instr :=
  need (RedOp.ofCode (fld b 1 3)) fun op =>
      need (ASize.ofCode (fld b 0 1)) fun z =>
      finish (decide (fld b 4 7 = 0) && decide (fld b 19 4 = 0)) (.red (Fin.ofNat 16 (b / 2 ^ 15)) (Fin.ofNat 16 (b / 2 ^ 11)) op z)

/-- Major 0x47 of the C map: LDC. -/
def decodeC47 (b : Nat) : Except DecodeError Instr :=
  need (Size.ofCode (fld b 12 2)) fun z =>
      finish (true) (.ldc (Fin.ofNat 16 (b / 2 ^ 19)) (Fin.ofNat 16 (b / 2 ^ 15)) (decide (fld b 14 1 = 1)) z (BitVec.ofNat 12 (b / 2 ^ 0)))

/-- Major 0x48 of the C map: LDACQ. -/
def decodeC48 (b : Nat) : Except DecodeError Instr :=
  need (Scope.ofCode (fld b 12 3)) fun sc =>
      finish (true) (.ldacq (Fin.ofNat 16 (b / 2 ^ 19)) (Fin.ofNat 16 (b / 2 ^ 15)) sc (BitVec.ofNat 12 (b / 2 ^ 0)))

/-- Major 0x49 of the C map: STREL. -/
def decodeC49 (b : Nat) : Except DecodeError Instr :=
  need (Scope.ofCode (fld b 12 3)) fun sc =>
      finish (true) (.strel (Fin.ofNat 16 (b / 2 ^ 19)) (Fin.ofNat 16 (b / 2 ^ 15)) sc (BitVec.ofNat 12 (b / 2 ^ 0)))

/-- Major 0x4A of the C map: FENCE. -/
def decodeC4A (b : Nat) : Except DecodeError Instr :=
  need (Scope.ofCode (fld b 2 3)) fun sc =>
      need (FenceK.ofCode (fld b 0 2)) fun k =>
      finish (decide (fld b 5 18 = 0)) (.fence sc k)

/-- Major 0x50 of the C map: MBXW, MBXW_MOVEMENT. -/
def decodeC50 (b : Nat) : Except DecodeError Instr :=
  if fld b 0 1 = 0 then
    finish (decide (fld b 1 14 = 0) && decide (fld b 19 4 = 0)) (.mbxw (Fin.ofNat 16 (b / 2 ^ 15)))
  else if fld b 0 1 = 1 then
    finish (decide (fld b 1 10 = 0) && decide (fld b 19 4 = 0)) (.mbxwMovement (Fin.ofNat 16 (b / 2 ^ 15)) (Fin.ofNat 16 (b / 2 ^ 11)))
  else .error .reservedValue

/-- Major 0x51 of the C map: MBXR, MBXR_MOVEMENT. -/
def decodeC51 (b : Nat) : Except DecodeError Instr :=
  if fld b 0 1 = 0 then
    finish (decide (fld b 1 18 = 0)) (.mbxr (Fin.ofNat 16 (b / 2 ^ 19)))
  else if fld b 0 1 = 1 then
    finish (decide (fld b 1 14 = 0)) (.mbxrMovement (Fin.ofNat 16 (b / 2 ^ 19)) (Fin.ofNat 16 (b / 2 ^ 15)))
  else .error .reservedValue

/-- Major 0x52 of the C map: CPY. -/
def decodeC52 (b : Nat) : Except DecodeError Instr :=
  finish (decide (fld b 1 14 = 0)) (.cpy (Fin.ofNat 16 (b / 2 ^ 19)) (Fin.ofNat 16 (b / 2 ^ 15)) (decide (fld b 0 1 = 1)))

/-- Major 0x53 of the C map: CPYT. -/
def decodeC53 (b : Nat) : Except DecodeError Instr :=
  finish (decide (fld b 1 14 = 0)) (.cpyt (Fin.ofNat 16 (b / 2 ^ 19)) (Fin.ofNat 16 (b / 2 ^ 15)) (decide (fld b 0 1 = 1)))

/-- Major 0x54 of the C map: CPYF. -/
def decodeC54 (b : Nat) : Except DecodeError Instr :=
  finish (decide (fld b 1 14 = 0)) (.cpyf (Fin.ofNat 16 (b / 2 ^ 19)) (Fin.ofNat 16 (b / 2 ^ 15)) (decide (fld b 0 1 = 1)))

/-- Major 0x55 of the C map: CPYG. -/
def decodeC55 (b : Nat) : Except DecodeError Instr :=
  finish (decide (fld b 1 14 = 0)) (.cpyg (Fin.ofNat 16 (b / 2 ^ 19)) (Fin.ofNat 16 (b / 2 ^ 15)) (decide (fld b 0 1 = 1)))

/-- Major 0x56 of the C map: PFCH. -/
def decodeC56 (b : Nat) : Except DecodeError Instr :=
  finish (decide (fld b 0 15 = 0)) (.pfch (Fin.ofNat 16 (b / 2 ^ 19)) (Fin.ofNat 16 (b / 2 ^ 15)))

/-- Major 0x57 of the C map: EVCT. -/
def decodeC57 (b : Nat) : Except DecodeError Instr :=
  finish (decide (fld b 0 15 = 0)) (.evct (Fin.ofNat 16 (b / 2 ^ 19)) (Fin.ofNat 16 (b / 2 ^ 15)))

/-- Major 0x58 of the C map: XWAIT, XWAIT_T. -/
def decodeC58 (b : Nat) : Except DecodeError Instr :=
  if fld b 0 1 = 0 then
    finish (decide (fld b 1 14 = 0) && decide (fld b 19 4 = 0)) (.xwait (Fin.ofNat 16 (b / 2 ^ 15)))
  else if fld b 0 1 = 1 then
    finish (decide (fld b 1 10 = 0)) (.xwaitT (Fin.ofNat 16 (b / 2 ^ 19)) (Fin.ofNat 16 (b / 2 ^ 15)) (Fin.ofNat 16 (b / 2 ^ 11)))
  else .error .reservedValue

/-- Major 0x59 of the C map: XSTAT. -/
def decodeC59 (b : Nat) : Except DecodeError Instr :=
  finish (decide (fld b 0 15 = 0)) (.xstat (Fin.ofNat 16 (b / 2 ^ 19)) (Fin.ofNat 16 (b / 2 ^ 15)))

/-- Major 0x5A of the C map: KICK. -/
def decodeC5A (b : Nat) : Except DecodeError Instr :=
  finish (decide (fld b 0 15 = 0) && decide (fld b 19 4 = 0)) (.kick (Fin.ofNat 16 (b / 2 ^ 15)))

/-- Major 0x5B of the C map: MBXD. -/
def decodeC5B (b : Nat) : Except DecodeError Instr :=
  finish (decide (fld b 0 11 = 0) && decide (fld b 19 4 = 0)) (.mbxd (Fin.ofNat 16 (b / 2 ^ 15)) (Fin.ofNat 16 (b / 2 ^ 11)))

/-- Major 0x60 of the C map: SEND. -/
def decodeC60 (b : Nat) : Except DecodeError Instr :=
  finish (decide (fld b 0 11 = 0) && decide (fld b 19 4 = 0)) (.send (Fin.ofNat 16 (b / 2 ^ 15)) (Fin.ofNat 16 (b / 2 ^ 11)))

/-- Major 0x61 of the C map: SENDW. -/
def decodeC61 (b : Nat) : Except DecodeError Instr :=
  finish (decide (fld b 0 11 = 0) && decide (fld b 19 4 = 0)) (.sendw (Fin.ofNat 16 (b / 2 ^ 15)) (Fin.ofNat 16 (b / 2 ^ 11)))

/-- Major 0x62 of the C map: CONT. -/
def decodeC62 (b : Nat) : Except DecodeError Instr :=
  finish (decide (fld b 0 15 = 0)) (.cont (Fin.ofNat 16 (b / 2 ^ 19)) (Fin.ofNat 16 (b / 2 ^ 15)))

/-- Major 0x63 of the C map: MIGR. -/
def decodeC63 (b : Nat) : Except DecodeError Instr :=
  finish (decide (fld b 0 15 = 0) && decide (fld b 19 4 = 0)) (.migr (Fin.ofNat 16 (b / 2 ^ 15)))

/-- Major 0x64 of the C map: HOME. -/
def decodeC64 (b : Nat) : Except DecodeError Instr :=
  finish (decide (fld b 0 23 = 0)) (.home)

/-- Major 0x65 of the C map: RST. -/
def decodeC65 (b : Nat) : Except DecodeError Instr :=
  need (Size.ofCode (fld b 0 2)) fun z =>
      finish (decide (fld b 2 9 = 0) && decide (fld b 19 4 = 0)) (.rst (Fin.ofNat 16 (b / 2 ^ 15)) (Fin.ofNat 16 (b / 2 ^ 11)) z)

/-- Major 0x66 of the C map: JRNL. -/
def decodeC66 (b : Nat) : Except DecodeError Instr :=
  finish (decide (fld b 0 15 = 0)) (.jrnl (Fin.ofNat 16 (b / 2 ^ 19)) (Fin.ofNat 16 (b / 2 ^ 15)))

/-- Major 0x68 of the C map: GST. -/
def decodeC68 (b : Nat) : Except DecodeError Instr :=
  finish (decide (fld b 0 15 = 0) && decide (fld b 22 1 = 0)) (.gst (Fin.ofNat 8 (b / 2 ^ 19)) (Fin.ofNat 16 (b / 2 ^ 15)))

/-- Major 0x69 of the C map: GLD. -/
def decodeC69 (b : Nat) : Except DecodeError Instr :=
  finish (decide (fld b 0 15 = 0) && decide (fld b 18 1 = 0)) (.gld (Fin.ofNat 16 (b / 2 ^ 19)) (Fin.ofNat 8 (b / 2 ^ 15)))

/-- Major 0x6A of the C map: GSEQ. -/
def decodeC6A (b : Nat) : Except DecodeError Instr :=
  finish (decide (fld b 0 15 = 0) && decide (fld b 18 1 = 0)) (.gseq (Fin.ofNat 16 (b / 2 ^ 19)) (Fin.ofNat 8 (b / 2 ^ 15)))

/-- Major 0x6B of the C map: GABT. -/
def decodeC6B (b : Nat) : Except DecodeError Instr :=
  finish (decide (fld b 0 15 = 0) && decide (fld b 22 1 = 0)) (.gabt (Fin.ofNat 8 (b / 2 ^ 19)) (Fin.ofNat 16 (b / 2 ^ 15)))

/-- Major 0x6C of the C map: CMC. -/
def decodeC6C (b : Nat) : Except DecodeError Instr :=
  finish (decide (fld b 0 11 = 0) && decide (fld b 22 1 = 0)) (.cmc (Fin.ofNat 8 (b / 2 ^ 19)) (Fin.ofNat 16 (b / 2 ^ 15)) (Fin.ofNat 16 (b / 2 ^ 11)))

/-- Major 0x6D of the C map: GCOL. -/
def decodeC6D (b : Nat) : Except DecodeError Instr :=
  need (CollOp.ofCode (fld b 0 3)) fun op =>
      finish (decide (fld b 5 6 = 0) && decide (fld b 22 1 = 0)) (.gcol (Fin.ofNat 8 (b / 2 ^ 19)) (Fin.ofNat 16 (b / 2 ^ 15)) (Fin.ofNat 16 (b / 2 ^ 11)) (Fin.ofNat 4 (b / 2 ^ 3)) op)

/-- Major 0x6E of the C map: WNW. -/
def decodeC6E (b : Nat) : Except DecodeError Instr :=
  finish (decide (fld b 3 8 = 0) && decide (fld b 22 1 = 0)) (.wnw (Fin.ofNat 8 (b / 2 ^ 19)) (Fin.ofNat 16 (b / 2 ^ 15)) (Fin.ofNat 16 (b / 2 ^ 11)) (Fin.ofNat 8 (b / 2 ^ 0)))

/-- Major 0x70 of the C map: SWOPEN. -/
def decodeC70 (b : Nat) : Except DecodeError Instr :=
  finish (decide (fld b 0 11 = 0) && decide (fld b 19 2 = 0)) (.swopen (Fin.ofNat 4 (b / 2 ^ 21)) (Fin.ofNat 16 (b / 2 ^ 15)) (Fin.ofNat 16 (b / 2 ^ 11)))

/-- Major 0x71 of the C map: SWCLOSE. -/
def decodeC71 (b : Nat) : Except DecodeError Instr :=
  finish (decide (fld b 0 21 = 0)) (.swclose (Fin.ofNat 4 (b / 2 ^ 21)))

/-- Major 0x72 of the C map: FWM. -/
def decodeC72 (b : Nat) : Except DecodeError Instr :=
  finish (decide (fld b 3 8 = 0) && decide (fld b 19 2 = 0)) (.fwm (Fin.ofNat 4 (b / 2 ^ 21)) (Fin.ofNat 16 (b / 2 ^ 15)) (Fin.ofNat 16 (b / 2 ^ 11)) (Fin.ofNat 8 (b / 2 ^ 0)))

/-- Major 0x73 of the C map: FWG. -/
def decodeC73 (b : Nat) : Except DecodeError Instr :=
  finish (decide (fld b 3 8 = 0) && decide (fld b 19 2 = 0)) (.fwg (Fin.ofNat 4 (b / 2 ^ 21)) (Fin.ofNat 16 (b / 2 ^ 15)) (Fin.ofNat 16 (b / 2 ^ 11)) (Fin.ofNat 8 (b / 2 ^ 0)))

/-- Major 0x74 of the C map: FWA. -/
def decodeC74 (b : Nat) : Except DecodeError Instr :=
  finish (decide (fld b 0 11 = 0) && decide (fld b 19 2 = 0)) (.fwa (Fin.ofNat 4 (b / 2 ^ 21)) (Fin.ofNat 16 (b / 2 ^ 15)) (Fin.ofNat 16 (b / 2 ^ 11)))

/-- Major 0x75 of the C map: RPLY. -/
def decodeC75 (b : Nat) : Except DecodeError Instr :=
  finish (decide (fld b 1 10 = 0) && decide (fld b 19 2 = 0)) (.rply (Fin.ofNat 4 (b / 2 ^ 21)) (Fin.ofNat 16 (b / 2 ^ 15)) (Fin.ofNat 16 (b / 2 ^ 11)) (decide (fld b 0 1 = 1)))

/-- Major 0x76 of the C map: SWQRY. -/
def decodeC76 (b : Nat) : Except DecodeError Instr :=
  need (SwqWord.ofCode (fld b 0 2)) fun w =>
      finish (decide (fld b 2 9 = 0) && decide (fld b 15 6 = 0)) (.swqry (Fin.ofNat 4 (b / 2 ^ 21)) (Fin.ofNat 16 (b / 2 ^ 11)) w)

/-- Major 0x77 of the C map: SWDROP. -/
def decodeC77 (b : Nat) : Except DecodeError Instr :=
  finish (decide (fld b 0 11 = 0) && decide (fld b 19 2 = 0)) (.swdrop (Fin.ofNat 4 (b / 2 ^ 21)) (Fin.ofNat 16 (b / 2 ^ 15)) (Fin.ofNat 16 (b / 2 ^ 11)))

/-- Major 0x78 of the C map: TRAP. -/
def decodeC78 (b : Nat) : Except DecodeError Instr :=
  finish (decide (fld b 19 4 = 0)) (.trap (BitVec.ofNat 19 (b / 2 ^ 0)))

/-- Major 0x79 of the C map: TRET. -/
def decodeC79 (b : Nat) : Except DecodeError Instr :=
  finish (decide (fld b 0 23 = 0)) (.tret)

/-- Major 0x7A of the C map: SRD. -/
def decodeC7A (b : Nat) : Except DecodeError Instr :=
  need (SysReg.ofCode (fld b 0 12)) fun sr =>
      finish (decide (fld b 12 7 = 0)) (.srd (Fin.ofNat 16 (b / 2 ^ 19)) sr)

/-- Major 0x7B of the C map: SWR. -/
def decodeC7B (b : Nat) : Except DecodeError Instr :=
  need (SysReg.ofCode (fld b 0 12)) fun sr =>
      finish (decide (fld b 12 7 = 0)) (.swr (Fin.ofNat 16 (b / 2 ^ 19)) sr)

/-- Major 0x7C of the C map: ORW, ORINV, ORMOV. -/
def decodeC7C (b : Nat) : Except DecodeError Instr :=
  if fld b 0 2 = 0 then
    finish (decide (fld b 2 9 = 0) && decide (fld b 19 4 = 0)) (.orw (Fin.ofNat 16 (b / 2 ^ 15)) (Fin.ofNat 16 (b / 2 ^ 11)))
  else if fld b 0 2 = 1 then
    finish (decide (fld b 2 13 = 0) && decide (fld b 19 4 = 0)) (.orinv (Fin.ofNat 16 (b / 2 ^ 15)))
  else if fld b 0 2 = 2 then
    finish (decide (fld b 2 9 = 0) && decide (fld b 19 4 = 0)) (.ormov (Fin.ofNat 16 (b / 2 ^ 15)) (Fin.ofNat 16 (b / 2 ^ 11)))
  else .error .reservedValue

/-- Major 0x7D of the C map: PLC_SWAP, PLC_MIGX, PLC_FOLD, PLC_SEAL. -/
def decodeC7D (b : Nat) : Except DecodeError Instr :=
  if fld b 0 2 = 0 then
    finish (decide (fld b 2 9 = 0) && decide (fld b 19 4 = 0)) (.plcSwap (Fin.ofNat 16 (b / 2 ^ 15)) (Fin.ofNat 16 (b / 2 ^ 11)))
  else if fld b 0 2 = 1 then
    finish (decide (fld b 2 9 = 0) && decide (fld b 19 4 = 0)) (.plcMigx (Fin.ofNat 16 (b / 2 ^ 15)) (Fin.ofNat 16 (b / 2 ^ 11)))
  else if fld b 0 2 = 2 then
    finish (decide (fld b 2 9 = 0) && decide (fld b 19 4 = 0)) (.plcFold (Fin.ofNat 16 (b / 2 ^ 15)) (Fin.ofNat 16 (b / 2 ^ 11)))
  else if fld b 0 2 = 3 then
    finish (decide (fld b 2 13 = 0) && decide (fld b 19 4 = 0)) (.plcSeal (Fin.ofNat 16 (b / 2 ^ 15)))
  else .error .reservedValue

/-- Major 0x7E of the C map: DUAL_ON, DUAL_OFF. -/
def decodeC7E (b : Nat) : Except DecodeError Instr :=
  if fld b 0 1 = 1 then
    finish (decide (fld b 1 22 = 0)) (.dualOn)
  else if fld b 0 1 = 0 then
    finish (decide (fld b 1 22 = 0)) (.dualOff)
  else .error .reservedValue

/-- Major 0x7F of the C map: QSC. -/
def decodeC7F (b : Nat) : Except DecodeError Instr :=
  finish (decide (fld b 0 15 = 0) && decide (fld b 19 4 = 0)) (.qsc (Fin.ofNat 16 (b / 2 ^ 15)))

/-- A body under the C-class map (R61-R66); `ext` is the extension word of a lone bundle. -/
def decodeC (ext b : Nat) : Except DecodeError Instr :=
  match fld b 23 7 with
  | 0x00 => plain ext (decodeC00 b)
  | 0x01 => plain ext (decodeC01 b)
  | 0x02 => plain ext (decodeC02 b)
  | 0x03 => plain ext (decodeC03 b)
  | 0x04 => plain ext (decodeC04 b)
  | 0x05 => plain ext (decodeC05 b)
  | 0x06 => plain ext (decodeC06 b)
  | 0x07 => plain ext (decodeC07 b)
  | 0x08 => plain ext (decodeC08 b)
  | 0x09 => plain ext (decodeC09 b)
  | 0x10 => plain ext (decodeC10 b)
  | 0x11 => plain ext (decodeC11 b)
  | 0x12 => plain ext (decodeC12 b)
  | 0x13 => plain ext (decodeC13 b)
  | 0x14 => plain ext (decodeC14 b)
  | 0x15 => plain ext (decodeC15 b)
  | 0x16 => plain ext (decodeC16 b)
  | 0x17 => plain ext (decodeC17 b)
  | 0x18 => plain ext (decodeC18 b)
  | 0x19 => plain ext (decodeC19 b)
  | 0x1A => plain ext (decodeC1A b)
  | 0x1B => plain ext (decodeC1B b)
  | 0x1C => plain ext (decodeC1C b)
  | 0x1D => plain ext (decodeC1D b)
  | 0x1E => plain ext (decodeC1E b)
  | 0x20 => plain ext (decodeC20 b)
  | 0x21 => plain ext (decodeC21 b)
  | 0x22 => plain ext (decodeC22 b)
  | 0x23 => plain ext (decodeC23 b)
  | 0x24 => plain ext (decodeC24 b)
  | 0x25 => plain ext (decodeC25 b)
  | 0x26 => plain ext (decodeC26 b)
  | 0x27 => plain ext (decodeC27 b)
  | 0x28 => plain ext (decodeC28 b)
  | 0x30 => plain ext (decodeC30 b)
  | 0x31 => plain ext (decodeC31 b)
  | 0x32 => plain ext (decodeC32 b)
  | 0x33 => plain ext (decodeC33 b)
  | 0x34 => plain ext (decodeC34 b)
  | 0x35 => plain ext (decodeC35 b)
  | 0x40 => plain ext (decodeC40 b)
  | 0x41 => plain ext (decodeC41 b)
  | 0x42 => plain ext (decodeC42 b)
  | 0x43 => plain ext (decodeC43 b)
  | 0x44 => plain ext (decodeC44 b)
  | 0x45 => plain ext (decodeC45 b)
  | 0x46 => plain ext (decodeC46 b)
  | 0x47 => plain ext (decodeC47 b)
  | 0x48 => plain ext (decodeC48 b)
  | 0x49 => plain ext (decodeC49 b)
  | 0x4A => plain ext (decodeC4A b)
  | 0x50 => plain ext (decodeC50 b)
  | 0x51 => plain ext (decodeC51 b)
  | 0x52 => plain ext (decodeC52 b)
  | 0x53 => plain ext (decodeC53 b)
  | 0x54 => plain ext (decodeC54 b)
  | 0x55 => plain ext (decodeC55 b)
  | 0x56 => plain ext (decodeC56 b)
  | 0x57 => plain ext (decodeC57 b)
  | 0x58 => plain ext (decodeC58 b)
  | 0x59 => plain ext (decodeC59 b)
  | 0x5A => plain ext (decodeC5A b)
  | 0x5B => plain ext (decodeC5B b)
  | 0x60 => plain ext (decodeC60 b)
  | 0x61 => plain ext (decodeC61 b)
  | 0x62 => plain ext (decodeC62 b)
  | 0x63 => plain ext (decodeC63 b)
  | 0x64 => plain ext (decodeC64 b)
  | 0x65 => plain ext (decodeC65 b)
  | 0x66 => plain ext (decodeC66 b)
  | 0x68 => plain ext (decodeC68 b)
  | 0x69 => plain ext (decodeC69 b)
  | 0x6A => plain ext (decodeC6A b)
  | 0x6B => plain ext (decodeC6B b)
  | 0x6C => plain ext (decodeC6C b)
  | 0x6D => plain ext (decodeC6D b)
  | 0x6E => plain ext (decodeC6E b)
  | 0x70 => plain ext (decodeC70 b)
  | 0x71 => plain ext (decodeC71 b)
  | 0x72 => plain ext (decodeC72 b)
  | 0x73 => plain ext (decodeC73 b)
  | 0x74 => plain ext (decodeC74 b)
  | 0x75 => plain ext (decodeC75 b)
  | 0x76 => plain ext (decodeC76 b)
  | 0x77 => plain ext (decodeC77 b)
  | 0x78 => plain ext (decodeC78 b)
  | 0x79 => plain ext (decodeC79 b)
  | 0x7A => plain ext (decodeC7A b)
  | 0x7B => plain ext (decodeC7B b)
  | 0x7C => plain ext (decodeC7C b)
  | 0x7D => plain ext (decodeC7D b)
  | 0x7E => plain ext (decodeC7E b)
  | 0x7F => plain ext (decodeC7F b)
  | _ => .error .reservedMajor

/-- What a half may write (R68): a general register or a system register. -/
inductive Dest where
  | reg (r : Reg)
  | sys (r : SysReg)
  deriving DecidableEq, Repr

/-- The destination set of a half (R68). -/
def Instr.dests : Instr → List Dest
  | .nopA => []
  | .add rd _ _ _ => [.reg rd]
  | .sub rd _ _ _ => [.reg rd]
  | .mul rd _ _ => [.reg rd]
  | .mulh rd _ _ => [.reg rd]
  | .mulhu rd _ _ => [.reg rd]
  | .div rd _ _ => [.reg rd]
  | .divu rd _ _ => [.reg rd]
  | .rem rd _ _ => [.reg rd]
  | .remu rd _ _ => [.reg rd]
  | .and rd _ _ => [.reg rd]
  | .or rd _ _ => [.reg rd]
  | .xor rd _ _ => [.reg rd]
  | .andn rd _ _ => [.reg rd]
  | .shl rd _ _ => [.reg rd]
  | .shr rd _ _ => [.reg rd]
  | .sar rd _ _ => [.reg rd]
  | .rol rd _ _ => [.reg rd]
  | .seq rd _ _ => [.reg rd]
  | .sne rd _ _ => [.reg rd]
  | .slt rd _ _ => [.reg rd]
  | .sltu rd _ _ => [.reg rd]
  | .min rd _ _ => [.reg rd]
  | .max rd _ _ => [.reg rd]
  | .minu rd _ _ => [.reg rd]
  | .maxu rd _ _ => [.reg rd]
  | .sel rd _ _ _ => [.reg rd]
  | .clz rd _ => [.reg rd]
  | .ctz rd _ => [.reg rd]
  | .popc rd _ => [.reg rd]
  | .bswap rd _ => [.reg rd]
  | .ext rd _ _ _ => [.reg rd]
  | .exts rd _ _ _ => [.reg rd]
  | .ins rd _ _ _ => [.reg rd]
  | .mad rd _ _ _ => [.reg rd]
  | .adds rd _ _ _ => [.reg rd]
  | .crcw rd _ _ _ => [.reg rd]
  | .addi rd _ _ => [.reg rd]
  | .andi rd _ _ => [.reg rd]
  | .ori rd _ _ => [.reg rd]
  | .xori rd _ _ => [.reg rd]
  | .shli rd _ _ => [.reg rd]
  | .shri rd _ _ => [.reg rd]
  | .sari rd _ _ => [.reg rd]
  | .seqi rd _ _ => [.reg rd]
  | .slti rd _ _ => [.reg rd]
  | .sltiu rd _ _ => [.reg rd]
  | .movi rd _ => [.reg rd]
  | .movx rd _ => [.reg rd]
  | .movhx rd _ => [.reg rd]
  | .muli rd _ _ => [.reg rd]
  | .fadd rd _ _ _ _ => [.reg rd]
  | .fsub rd _ _ _ _ => [.reg rd]
  | .fmul rd _ _ _ _ => [.reg rd]
  | .ffma rd _ _ _ _ _ => [.reg rd]
  | .fdiv rd _ _ _ _ => [.reg rd]
  | .fsqrt rd _ _ _ => [.reg rd]
  | .fmin rd _ _ _ => [.reg rd]
  | .fmax rd _ _ _ => [.reg rd]
  | .feq rd _ _ _ => [.reg rd]
  | .flt rd _ _ _ => [.reg rd]
  | .fle rd _ _ _ => [.reg rd]
  | .funo rd _ _ _ => [.reg rd]
  | .ftle rd _ _ _ => [.reg rd]
  | .fcvt rd _ _ _ _ _ => [.reg rd]
  | .fcvti rd _ _ _ _ => [.reg rd]
  | .icvtf rd _ _ _ _ => [.reg rd]
  | .fcls rd _ _ => [.reg rd]
  | .ffn rd _ _ _ => [.reg rd]
  | .fsel rd _ _ => [.reg rd]
  | .vadd _ _ _ _ _ => []
  | .vsub _ _ _ _ _ => []
  | .vmul _ _ _ _ _ => []
  | .vfma _ _ _ _ _ _ => []
  | .vscl _ _ _ _ _ => []
  | .vmin _ _ _ _ _ => []
  | .vmax _ _ _ _ _ => []
  | .vcvt _ _ _ _ _ => []
  | .vqnt _ _ _ _ _ => []
  | .vdq _ _ _ _ _ => []
  | .vred _ _ _ _ _ => []
  | .vbdot _ _ _ _ _ => []
  | .vtopk _ _ _ _ _ => []
  | .vmrg _ _ _ _ _ _ => []
  | .vfn _ _ _ _ _ => []
  | .vdfn _ _ _ _ _ _ => []
  | .vgth _ _ _ _ _ => []
  | .vsct _ _ _ _ _ _ => []
  | .vcmp _ _ _ _ _ _ => []
  | .vmsel _ _ _ _ _ _ => []
  | .viota _ _ _ _ => []
  | .vpfx _ _ _ _ => []
  | .vstat _ _ _ => []
  | .setvl rd _ => [.reg rd, .sys .vl]
  | .vcpy _ _ _ _ => []
  | .mma _ _ _ _ => []
  | .mmas _ _ _ _ => []
  | .mmr _ _ => []
  | .mmg _ _ _ _ => []
  | .aclr _ => []
  | .amovLd _ _ => []
  | .amovSt _ _ => []
  | .drn _ _ _ _ _ _ _ _ _ => []
  | .qpop _ => []
  | .qlvl rd => [.reg rd]
  | .astat rd _ => [.reg rd]
  | .mwake => []
  | .nopC => []
  | .br _ => []
  | .beq _ _ _ => []
  | .bne _ _ _ => []
  | .blt _ _ _ => []
  | .bge _ _ _ => []
  | .bltu _ _ _ => []
  | .bgeu _ _ _ => []
  | .bz _ _ => []
  | .bnz _ _ => []
  | .loop ra _ => [.reg ra]
  | .call _ => [.reg 15]
  | .jr _ _ => []
  | .callr _ _ => [.reg 15]
  | .brk _ => []
  | .await rd => [.reg rd]
  | .spawn _ => []
  | .tdone => []
  | .tyld => []
  | .chset _ _ _ => []
  | .chunk rd _ => [.reg rd]
  | .barc _ => []
  | .barr rd => [.reg rd]
  | .barw _ => []
  | .stgp rd _ _ => [.reg rd]
  | .stgf _ _ => []
  | .stgw rd _ _ => [.reg rd]
  | .stge _ _ => []
  | .hspawn _ => []
  | .hstop => []
  | .tsrd rd _ => [.reg rd]
  | .ld rd _ _ _ _ => [.reg rd]
  | .st _ _ _ _ => []
  | .ldp rd _ _ => [.reg rd, .reg (rd + 1)]
  | .stp _ _ _ => []
  | .ldf rd _ _ => [.reg rd]
  | .ldw rd _ _ => [.reg rd]
  | .stf _ _ _ => []
  | .sete _ _ => []
  | .fest rd _ _ => [.reg rd]
  | .old rd _ _ _ _ => [.reg rd]
  | .ost _ _ _ _ => []
  | .orq rd _ _ => [.reg rd]
  | .oprb rd _ => [.reg rd]
  | .oref rd _ _ => [.reg rd]
  | .oldc rd _ _ _ _ => [.reg rd]
  | .aadd rd _ _ _ => [.reg rd]
  | .aincb rd _ _ _ => [.reg rd]
  | .amin rd _ _ _ _ => [.reg rd]
  | .amax rd _ _ _ _ => [.reg rd]
  | .aminu rd _ _ _ => [.reg rd]
  | .amaxu rd _ _ _ => [.reg rd]
  | .aand rd _ _ _ => [.reg rd]
  | .aor rd _ _ _ => [.reg rd]
  | .axor rd _ _ _ => [.reg rd]
  | .aswp rd _ _ _ => [.reg rd]
  | .acas rd _ _ _ => [.reg rd]
  | .red _ _ _ _ => []
  | .ldc rd _ _ _ _ => [.reg rd]
  | .ldacq rd _ _ _ => [.reg rd]
  | .strel _ _ _ _ => []
  | .fence _ _ => []
  | .mbxw _ => []
  | .mbxwMovement _ _ => []
  | .mbxr rd => [.reg rd]
  | .mbxrMovement rd ra => [.reg rd, .reg ra]
  | .cpy rd _ _ => [.reg rd]
  | .cpyt rd _ _ => [.reg rd]
  | .cpyf rd _ _ => [.reg rd]
  | .cpyg rd _ _ => [.reg rd]
  | .pfch rd _ => [.reg rd]
  | .evct rd _ => [.reg rd]
  | .xwait _ => []
  | .xwaitT rd _ _ => [.reg rd]
  | .xstat rd _ => [.reg rd]
  | .kick _ => []
  | .mbxd _ _ => []
  | .send _ _ => []
  | .sendw _ _ => []
  | .cont rd _ => [.reg rd]
  | .migr _ => []
  | .home => []
  | .rst _ _ _ => []
  | .jrnl rd _ => [.reg rd]
  | .gst _ _ => []
  | .gld rd _ => [.reg rd]
  | .gseq rd _ => [.reg rd]
  | .gabt _ _ => []
  | .cmc _ _ _ => []
  | .gcol _ _ _ _ _ => []
  | .wnw _ _ _ _ => []
  | .swopen _ _ _ => []
  | .swclose _ => []
  | .fwm _ _ _ _ => []
  | .fwg _ _ _ _ => []
  | .fwa _ _ _ => []
  | .rply _ _ _ _ => []
  | .swqry _ rd _ => [.reg rd]
  | .swdrop _ _ _ => []
  | .trap _ => []
  | .tret => []
  | .srd rd _ => [.reg rd]
  | .swr _ sr => [.sys sr]
  | .orw _ _ => []
  | .orinv _ => []
  | .ormov _ _ => []
  | .plcSwap _ _ => []
  | .plcMigx _ _ => []
  | .plcFold _ _ => []
  | .plcSeal _ => []
  | .dualOn => []
  | .dualOff => []
  | .qsc _ => []
  | .asyncEventEntry _ _ => []
  | .icacheFill _ _ => []
  | .recordFetch _ _ => []
  | .storeBufferPerform _ _ => []
  | .homeSliceRequest _ _ => []
  | .l2MissFill _ _ => []
  | .probeEcho _ _ _ => []
  | .residencyFillRelease _ _ => []
  | .dispatch _ => []
  | .gangPlacement _ => []
  | .compaction _ => []
  | .tedderInstant => []
  | .exchange _ _ => []
  | .forwardingEntryExpiry _ _ => []
  | .messageDelivery _ => []
  | .messageReturn _ => []
  | .migrationArrival _ => []
  | .migrationFailure _ => []
  | .rstArrival _ => []
  | .rstAcknowledgement _ => []
  | .engineSleep _ => []
  | .engineWake _ => []
  | .consumption _ => []
  | .drainStart _ => []
  | .rotationBufferForward _ _ => []
  | .copyChunk _ => []
  | .reservationGrant _ _ => []
  | .completionNotice _ _ => []
  | .roundCancel _ _ => []
  | .winnowMerge _ => []
  | .swathAcknowledgement _ => []
  | .xwaitDeadline _ _ => []
  | .watchdog => []
  | .uncorrectableError _ => []
  | .lineCheck _ _ => []
  | .frameReceipt _ _ _ _ _ => []
  | .keyPhaseSwitch _ _ _ => []
  | .narrowed _ _ => []
  | .down _ => []
  | .retrained _ _ => []
  | .thermal _ => []
  | .powerUp _ _ => []
  | .hostMemoryAccess _ _ _ => []
  | .tail _ _ _ _ => []
  | .commandRefetch _ _ => []
  | .en _ _ _ => []
  | .stalled _ _ => []
  | .rhead _ _ _ => []
  | .queueRegisterWrite _ _ _ _ => []
  | .submit _ _ => []
  | .power _ _ => []
  | .attest _ _ => []
  | .badOp _ _ => []
  | .spareClusterSteering _ _ => []
  | .secondStageMapping _ _ => []
  | .recordCacheAcknowledgement _ _ => []
  | .hostWindowResponse _ _ => []
  | .messageAcknowledgement _ => []
  | .vectorCompletion _ _ => []
  | .collectiveDelivery _ _ => []
  | .recordedTransferArrival _ _ => []
  | .sheafTableWrite _ _ => []
  | .taskEnd _ _ _ => []
  | .partitionReset => []

/-- Two destination sets share a register, g0 included (R68). -/
def destsMeet (c a : Instr) : Bool := c.dests.any fun d => a.dests.contains d

/-- A whole bundle, checked in the order of R67. -/
def decodeBundle (w0 w1 : Nat) : Except DecodeError Bundle :=
  match fld w0 30 2 with
  | 0 =>
    if fld w1 30 2 = 1 then
      match decodeC 0 (fld w0 0 30) with
      | .error e => .error e
      | .ok c =>
        match decodeA false 0 (fld w1 0 30) with
        | .error e => .error e
        | .ok a => if destsMeet c a then .error .destinations else .ok (.pair c a)
    else .error .classMarker
  | 2 =>
    match decodeC w1 (fld w0 0 30) with
    | .error e => .error e
    | .ok c => .ok (.loneC c)
  | 3 =>
    match decodeA true w1 (fld w0 0 30) with
    | .error e => .error e
    | .ok a => .ok (.loneA a)
  | _ => .error .classMarker

/-- A little-endian number (R3). -/
def leNat : List Byte → Nat
  | [] => 0
  | b :: bs => b.toNat + 256 * leNat bs

/-- The bundle at the head of a list of bytes, word 0 at the lower address (R3, R50), with the rest
of the list; no bundle where fewer than eight bytes are left. -/
def decodeBytes (bs : List Byte) : Option (Except DecodeError Bundle × List Byte) :=
  if bs.length < 8 then none
  else some (decodeBundle (leNat (bs.take 4)) (leNat ((bs.drop 4).take 4)), bs.drop 8)

/-- The bundle that carries one table word.  Up to 32 bits it is one half: its marker [31:30] says
where it stands (log entry 2): 00 word 0 of a pair and 01 word 1 of a pair, whose other half is then
NOP, 10 and 11 lone.  A longer word is the whole bundle. -/
def tableWords (nbits w : Nat) : Nat × Nat :=
  if nbits ≤ 32 then
    match fld w 30 2 with
    | 0 => (w, 0x40000000)
    | 1 => (0, w)
    | _ => (w, 0)
  else (w % 2 ^ 32, w / 2 ^ 32)

/-- The instruction the decoder reads from one table word. -/
def decodeTableWord (nbits w : Nat) : Option Instr :=
  match decodeBundle (tableWords nbits w).1 (tableWords nbits w).2 with
  | .ok (.pair c a) => if fld w 30 2 = 1 ∧ nbits ≤ 32 then some a else some c
  | .ok (.loneC c) => some c
  | .ok (.loneA a) => some a
  | .error _ => none

/-- DRN's extension word (R59). -/
def DrnSide.code (s : DrnSide) : Nat :=
  s.sw.val * 2 ^ 12 + s.dx.val * 2 ^ 8 + s.bias.val * 2 ^ 4 + s.scl.val

/-- A body: the major in [29:23] and each listed field value at its lowest bit. -/
def bodyOf (major : Nat) (fields : List (Nat × Nat)) : Nat :=
  fields.foldr (fun f b => f.1 * 2 ^ f.2 + b) (major * 2 ^ 23)

/-- The body [29:0] of an instruction (R53-R65); an event has none. -/
def Instr.body : Instr → Option Nat
  | .nopA => some (bodyOf 0x00 [])
  | .add rd ra rb m => some (bodyOf 0x01 [(rd.val, 19), (ra.val, 15), (rb.val, 11), (m.code, 0)])
  | .sub rd ra rb m => some (bodyOf 0x02 [(rd.val, 19), (ra.val, 15), (rb.val, 11), (m.code, 0)])
  | .mul rd ra rb => some (bodyOf 0x03 [(rd.val, 19), (ra.val, 15), (rb.val, 11)])
  | .mulh rd ra rb => some (bodyOf 0x03 [(rd.val, 19), (ra.val, 15), (rb.val, 11), (1, 0)])
  | .mulhu rd ra rb => some (bodyOf 0x03 [(rd.val, 19), (ra.val, 15), (rb.val, 11), (2, 0)])
  | .div rd ra rb => some (bodyOf 0x04 [(rd.val, 19), (ra.val, 15), (rb.val, 11)])
  | .divu rd ra rb => some (bodyOf 0x04 [(rd.val, 19), (ra.val, 15), (rb.val, 11), (1, 0)])
  | .rem rd ra rb => some (bodyOf 0x04 [(rd.val, 19), (ra.val, 15), (rb.val, 11), (2, 0)])
  | .remu rd ra rb => some (bodyOf 0x04 [(rd.val, 19), (ra.val, 15), (rb.val, 11), (3, 0)])
  | .and rd ra rb => some (bodyOf 0x05 [(rd.val, 19), (ra.val, 15), (rb.val, 11)])
  | .or rd ra rb => some (bodyOf 0x05 [(rd.val, 19), (ra.val, 15), (rb.val, 11), (1, 0)])
  | .xor rd ra rb => some (bodyOf 0x05 [(rd.val, 19), (ra.val, 15), (rb.val, 11), (2, 0)])
  | .andn rd ra rb => some (bodyOf 0x05 [(rd.val, 19), (ra.val, 15), (rb.val, 11), (3, 0)])
  | .shl rd ra rb => some (bodyOf 0x06 [(rd.val, 19), (ra.val, 15), (rb.val, 11)])
  | .shr rd ra rb => some (bodyOf 0x06 [(rd.val, 19), (ra.val, 15), (rb.val, 11), (1, 0)])
  | .sar rd ra rb => some (bodyOf 0x06 [(rd.val, 19), (ra.val, 15), (rb.val, 11), (2, 0)])
  | .rol rd ra rb => some (bodyOf 0x06 [(rd.val, 19), (ra.val, 15), (rb.val, 11), (3, 0)])
  | .seq rd ra rb => some (bodyOf 0x07 [(rd.val, 19), (ra.val, 15), (rb.val, 11)])
  | .sne rd ra rb => some (bodyOf 0x07 [(rd.val, 19), (ra.val, 15), (rb.val, 11), (1, 0)])
  | .slt rd ra rb => some (bodyOf 0x07 [(rd.val, 19), (ra.val, 15), (rb.val, 11), (2, 0)])
  | .sltu rd ra rb => some (bodyOf 0x07 [(rd.val, 19), (ra.val, 15), (rb.val, 11), (3, 0)])
  | .min rd ra rb => some (bodyOf 0x08 [(rd.val, 19), (ra.val, 15), (rb.val, 11)])
  | .max rd ra rb => some (bodyOf 0x08 [(rd.val, 19), (ra.val, 15), (rb.val, 11), (1, 0)])
  | .minu rd ra rb => some (bodyOf 0x08 [(rd.val, 19), (ra.val, 15), (rb.val, 11), (2, 0)])
  | .maxu rd ra rb => some (bodyOf 0x08 [(rd.val, 19), (ra.val, 15), (rb.val, 11), (3, 0)])
  | .sel rd ra rb rc => some (bodyOf 0x09 [(rd.val, 19), (ra.val, 15), (rb.val, 11), (rc.val, 7)])
  | .clz rd ra => some (bodyOf 0x0A [(rd.val, 19), (ra.val, 15)])
  | .ctz rd ra => some (bodyOf 0x0A [(rd.val, 19), (ra.val, 15), (1, 0)])
  | .popc rd ra => some (bodyOf 0x0A [(rd.val, 19), (ra.val, 15), (2, 0)])
  | .bswap rd ra => some (bodyOf 0x0A [(rd.val, 19), (ra.val, 15), (3, 0)])
  | .ext rd ra pos wm1 => some (bodyOf 0x0B [(rd.val, 19), (ra.val, 15), (pos.toNat, 7), (wm1.toNat, 1)])
  | .exts rd ra pos wm1 => some (bodyOf 0x0B [(rd.val, 19), (ra.val, 15), (pos.toNat, 7), (wm1.toNat, 1), (1, 13)])
  | .ins rd ra pos wm1 => some (bodyOf 0x0B [(rd.val, 19), (ra.val, 15), (pos.toNat, 7), (wm1.toNat, 1), (2, 13)])
  | .mad rd ra rb rc => some (bodyOf 0x0C [(rd.val, 19), (ra.val, 15), (rb.val, 11), (rc.val, 7)])
  | .adds rd ra rb sh => some (bodyOf 0x0D [(rd.val, 19), (ra.val, 15), (rb.val, 11), (sh.code, 0)])
  | .crcw rd ra rb z => some (bodyOf 0x0E [(rd.val, 19), (ra.val, 15), (rb.val, 11), (z.code, 0)])
  | .addi rd ra imm => some (bodyOf 0x10 [(rd.val, 19), (ra.val, 15), (imm.toNat, 0)])
  | .andi rd ra imm => some (bodyOf 0x11 [(rd.val, 19), (ra.val, 15), (imm.toNat, 0)])
  | .ori rd ra imm => some (bodyOf 0x12 [(rd.val, 19), (ra.val, 15), (imm.toNat, 0)])
  | .xori rd ra imm => some (bodyOf 0x13 [(rd.val, 19), (ra.val, 15), (imm.toNat, 0)])
  | .shli rd ra n => some (bodyOf 0x14 [(rd.val, 19), (ra.val, 15), (n.toNat, 0)])
  | .shri rd ra n => some (bodyOf 0x14 [(rd.val, 19), (ra.val, 15), (n.toNat, 0), (1, 13)])
  | .sari rd ra n => some (bodyOf 0x14 [(rd.val, 19), (ra.val, 15), (n.toNat, 0), (2, 13)])
  | .seqi rd ra imm => some (bodyOf 0x15 [(rd.val, 19), (ra.val, 15), (imm.toNat, 0)])
  | .slti rd ra imm => some (bodyOf 0x15 [(rd.val, 19), (ra.val, 15), (imm.toNat, 0), (1, 13)])
  | .sltiu rd ra imm => some (bodyOf 0x15 [(rd.val, 19), (ra.val, 15), (imm.toNat, 0), (2, 13)])
  | .movi rd imm => some (bodyOf 0x16 [(rd.val, 19), (imm.toNat, 0)])
  | .movx rd _ => some (bodyOf 0x17 [(rd.val, 19)])
  | .movhx rd _ => some (bodyOf 0x18 [(rd.val, 19)])
  | .muli rd ra imm => some (bodyOf 0x19 [(rd.val, 19), (ra.val, 15), (imm.toNat, 0)])
  | .fadd rd ra rb r f => some (bodyOf 0x20 [(rd.val, 19), (ra.val, 15), (rb.val, 11), (r.code, 1), (f.code, 0)])
  | .fsub rd ra rb r f => some (bodyOf 0x21 [(rd.val, 19), (ra.val, 15), (rb.val, 11), (r.code, 1), (f.code, 0)])
  | .fmul rd ra rb r f => some (bodyOf 0x22 [(rd.val, 19), (ra.val, 15), (rb.val, 11), (r.code, 1), (f.code, 0)])
  | .ffma rd ra rb rc r f => some (bodyOf 0x23 [(rd.val, 19), (ra.val, 15), (rb.val, 11), (rc.val, 7), (r.code, 1), (f.code, 0)])
  | .fdiv rd ra rb r f => some (bodyOf 0x24 [(rd.val, 19), (ra.val, 15), (rb.val, 11), (r.code, 1), (f.code, 0)])
  | .fsqrt rd ra r f => some (bodyOf 0x25 [(rd.val, 19), (ra.val, 15), (r.code, 1), (f.code, 0)])
  | .fmin rd ra rb f => some (bodyOf 0x26 [(rd.val, 19), (ra.val, 15), (rb.val, 11), (f.code, 0)])
  | .fmax rd ra rb f => some (bodyOf 0x26 [(rd.val, 19), (ra.val, 15), (rb.val, 11), (f.code, 0), (1, 4)])
  | .feq rd ra rb f => some (bodyOf 0x27 [(rd.val, 19), (ra.val, 15), (rb.val, 11), (f.code, 0)])
  | .flt rd ra rb f => some (bodyOf 0x27 [(rd.val, 19), (ra.val, 15), (rb.val, 11), (f.code, 0), (1, 4)])
  | .fle rd ra rb f => some (bodyOf 0x27 [(rd.val, 19), (ra.val, 15), (rb.val, 11), (f.code, 0), (2, 4)])
  | .funo rd ra rb f => some (bodyOf 0x27 [(rd.val, 19), (ra.val, 15), (rb.val, 11), (f.code, 0), (3, 4)])
  | .ftle rd ra rb f => some (bodyOf 0x28 [(rd.val, 19), (ra.val, 15), (rb.val, 11), (f.code, 0)])
  | .fcvt rd ra dst src ns r => some (bodyOf 0x29 [(rd.val, 19), (ra.val, 15), (dst.toNat, 11), (src.toNat, 7), (ns.toNat, 4), (r.code, 1)])
  | .fcvti rd ra int r f => some (bodyOf 0x2A [(rd.val, 19), (ra.val, 15), (int.toNat, 7), (r.code, 1), (f.code, 0)])
  | .icvtf rd ra int r f => some (bodyOf 0x2B [(rd.val, 19), (ra.val, 15), (int.toNat, 7), (r.code, 1), (f.code, 0)])
  | .fcls rd ra f => some (bodyOf 0x2C [(rd.val, 19), (ra.val, 15), (f.code, 0)])
  | .ffn rd ra op r => some (bodyOf 0x2D [(rd.val, 19), (ra.val, 15), (op.code, 4), (r.code, 1), (1, 0)])
  | .fsel rd ra rb => some (bodyOf 0x2E [(rd.val, 19), (ra.val, 15), (rb.val, 11)])
  | .vadd rd ra rb r e => some (bodyOf 0x30 [(rd.val, 19), (ra.val, 15), (rb.val, 11), (r.code, 4), (e.toNat, 0)])
  | .vsub rd ra rb r e => some (bodyOf 0x31 [(rd.val, 19), (ra.val, 15), (rb.val, 11), (r.code, 4), (e.toNat, 0)])
  | .vmul rd ra rb r e => some (bodyOf 0x32 [(rd.val, 19), (ra.val, 15), (rb.val, 11), (r.code, 4), (e.toNat, 0)])
  | .vfma rd ra rb rc r e => some (bodyOf 0x33 [(rd.val, 19), (ra.val, 15), (rb.val, 11), (rc.val, 7), (r.code, 4), (e.toNat, 0)])
  | .vscl rd ra rb r e => some (bodyOf 0x34 [(rd.val, 19), (ra.val, 15), (rb.val, 11), (r.code, 4), (e.toNat, 0)])
  | .vmin rd ra rb r e => some (bodyOf 0x35 [(rd.val, 19), (ra.val, 15), (rb.val, 11), (r.code, 4), (e.toNat, 0)])
  | .vmax rd ra rb r e => some (bodyOf 0x35 [(rd.val, 19), (ra.val, 15), (rb.val, 11), (r.code, 4), (e.toNat, 0), (1, 7)])
  | .vcvt rd ra dst r src => some (bodyOf 0x36 [(rd.val, 19), (ra.val, 15), (dst.toNat, 7), (r.code, 4), (src.toNat, 0)])
  | .vqnt rd ra rb r e => some (bodyOf 0x37 [(rd.val, 19), (ra.val, 15), (rb.val, 11), (r.code, 4), (e.toNat, 0)])
  | .vdq rd ra rb r e => some (bodyOf 0x38 [(rd.val, 19), (ra.val, 15), (rb.val, 11), (r.code, 4), (e.toNat, 0)])
  | .vred rd ra op r e => some (bodyOf 0x39 [(rd.val, 19), (ra.val, 15), (op.code, 7), (r.code, 4), (e.toNat, 0)])
  | .vbdot rd ra rb pb r => some (bodyOf 0x3A [(rd.val, 19), (ra.val, 15), (rb.val, 11), (pb.toNat, 7), (r.code, 4)])
  | .vtopk rd ra k r e => some (bodyOf 0x3B [(rd.val, 19), (ra.val, 15), (k.val, 7), (r.code, 4), (e.toNat, 0)])
  | .vmrg rd ra rb k r e => some (bodyOf 0x3C [(rd.val, 19), (ra.val, 15), (rb.val, 11), (k.val, 7), (r.code, 4), (e.toNat, 0)])
  | .vfn rd ra op r e => some (bodyOf 0x3D [(rd.val, 19), (ra.val, 15), (op.code, 7), (r.code, 4), (e.toNat, 0)])
  | .vdfn rd ra rb op r e => some (bodyOf 0x3E [(rd.val, 19), (ra.val, 15), (rb.val, 11), (op.code, 7), (r.code, 4), (e.toNat, 0)])
  | .vgth rd ra rb r e => some (bodyOf 0x3F [(rd.val, 19), (ra.val, 15), (rb.val, 11), (r.code, 4), (e.toNat, 0)])
  | .vsct rd ra rb addTo r e => some (bodyOf 0x40 [(rd.val, 19), (ra.val, 15), (rb.val, 11), (addTo.toNat, 7), (r.code, 4), (e.toNat, 0)])
  | .vcmp rd ra rb op r e => some (bodyOf 0x41 [(rd.val, 19), (ra.val, 15), (rb.val, 11), (op.code, 7), (r.code, 4), (e.toNat, 0)])
  | .vmsel rd ra rb rc r e => some (bodyOf 0x42 [(rd.val, 19), (ra.val, 15), (rb.val, 11), (rc.val, 7), (r.code, 4), (e.toNat, 0)])
  | .viota rd ra r e => some (bodyOf 0x43 [(rd.val, 19), (ra.val, 15), (r.code, 4), (e.toNat, 0)])
  | .vpfx rd ra r e => some (bodyOf 0x44 [(rd.val, 19), (ra.val, 15), (r.code, 4), (e.toNat, 0)])
  | .vstat rd ra r => some (bodyOf 0x45 [(rd.val, 19), (ra.val, 15), (r.code, 4)])
  | .setvl rd ra => some (bodyOf 0x46 [(rd.val, 19), (ra.val, 15)])
  | .vcpy rd ra r e => some (bodyOf 0x47 [(rd.val, 19), (ra.val, 15), (r.code, 4), (e.toNat, 0)])
  | .mma acc tb ta z => some (bodyOf 0x50 [(acc.val, 20), (tb.toNat, 2), (ta.toNat, 1), (z.toNat, 0)])
  | .mmas acc tb ta z => some (bodyOf 0x51 [(acc.val, 20), (tb.toNat, 2), (ta.toNat, 1), (z.toNat, 0)])
  | .mmr acc z => some (bodyOf 0x52 [(acc.val, 20), (z.toNat, 0)])
  | .mmg acc ra rb z => some (bodyOf 0x53 [(acc.val, 20), (ra.val, 15), (rb.val, 11), (z.toNat, 0)])
  | .aclr acc => some (bodyOf 0x54 [(acc.val, 20)])
  | .amovLd acc ra => some (bodyOf 0x55 [(acc.val, 20), (ra.val, 15)])
  | .amovSt acc ra => some (bodyOf 0x55 [(acc.val, 20), (ra.val, 15), (1, 0)])
  | .drn acc ra stat q dx bias scl act _ => some (bodyOf 0x56 [(acc.val, 20), (ra.val, 15), (stat.toNat, 8), (q.toNat, 7), (dx.toNat, 6), (bias.toNat, 5), (scl.toNat, 4), (act.code, 0)])
  | .qpop q => some (bodyOf 0x57 [(q.toNat, 0)])
  | .qlvl rd => some (bodyOf 0x58 [(rd.val, 19)])
  | .astat rd acc => some (bodyOf 0x59 [(rd.val, 19), (acc.val, 15)])
  | .mwake => some (bodyOf 0x5A [])
  | .nopC => some (bodyOf 0x00 [])
  | .br off => some (bodyOf 0x01 [(off.toNat, 0)])
  | .beq ra rb off => some (bodyOf 0x02 [(ra.val, 19), (rb.val, 15), (off.toNat, 0)])
  | .bne ra rb off => some (bodyOf 0x02 [(ra.val, 19), (rb.val, 15), (off.toNat, 0), (1, 12)])
  | .blt ra rb off => some (bodyOf 0x02 [(ra.val, 19), (rb.val, 15), (off.toNat, 0), (2, 12)])
  | .bge ra rb off => some (bodyOf 0x02 [(ra.val, 19), (rb.val, 15), (off.toNat, 0), (3, 12)])
  | .bltu ra rb off => some (bodyOf 0x02 [(ra.val, 19), (rb.val, 15), (off.toNat, 0), (4, 12)])
  | .bgeu ra rb off => some (bodyOf 0x02 [(ra.val, 19), (rb.val, 15), (off.toNat, 0), (5, 12)])
  | .bz ra off => some (bodyOf 0x03 [(ra.val, 19), (off.toNat, 0)])
  | .bnz ra off => some (bodyOf 0x03 [(ra.val, 19), (off.toNat, 0), (1, 15)])
  | .loop ra off => some (bodyOf 0x04 [(ra.val, 19), (off.toNat, 0)])
  | .call off => some (bodyOf 0x05 [(off.toNat, 0)])
  | .jr ra off => some (bodyOf 0x06 [(ra.val, 19), (off.toNat, 0)])
  | .callr ra off => some (bodyOf 0x07 [(ra.val, 19), (off.toNat, 0)])
  | .brk code => some (bodyOf 0x08 [(code.toNat, 0)])
  | .await rd => some (bodyOf 0x09 [(rd.val, 19)])
  | .spawn ra => some (bodyOf 0x10 [(ra.val, 15)])
  | .tdone => some (bodyOf 0x11 [])
  | .tyld => some (bodyOf 0x12 [])
  | .chset n ra rb => some (bodyOf 0x13 [(n.val, 19), (ra.val, 15), (rb.val, 11)])
  | .chunk rd n => some (bodyOf 0x14 [(rd.val, 19), (n.val, 15)])
  | .barc ra => some (bodyOf 0x15 [(ra.val, 15)])
  | .barr rd => some (bodyOf 0x16 [(rd.val, 19)])
  | .barw ra => some (bodyOf 0x17 [(ra.val, 15)])
  | .stgp rd ra rb => some (bodyOf 0x18 [(rd.val, 19), (ra.val, 15), (rb.val, 11)])
  | .stgf ra rb => some (bodyOf 0x19 [(ra.val, 15), (rb.val, 11)])
  | .stgw rd ra rb => some (bodyOf 0x1A [(rd.val, 19), (ra.val, 15), (rb.val, 11)])
  | .stge ra rb => some (bodyOf 0x1B [(ra.val, 15), (rb.val, 11)])
  | .hspawn off => some (bodyOf 0x1C [(off.toNat, 0)])
  | .hstop => some (bodyOf 0x1D [])
  | .tsrd rd n => some (bodyOf 0x1E [(rd.val, 19), (n.val, 15)])
  | .ld rd base sx z off => some (bodyOf 0x20 [(rd.val, 19), (base.val, 15), (sx.toNat, 14), (z.code, 12), (off.toNat, 0)])
  | .st rs base z off => some (bodyOf 0x21 [(rs.val, 19), (base.val, 15), (z.code, 12), (off.toNat, 0)])
  | .ldp rd base off => some (bodyOf 0x22 [(rd.val, 19), (base.val, 15), (off.toNat, 0), (3, 12)])
  | .stp rs base off => some (bodyOf 0x23 [(rs.val, 19), (base.val, 15), (off.toNat, 0), (3, 12)])
  | .ldf rd base off => some (bodyOf 0x24 [(rd.val, 19), (base.val, 15), (off.toNat, 0), (3, 12)])
  | .ldw rd base off => some (bodyOf 0x25 [(rd.val, 19), (base.val, 15), (off.toNat, 0), (3, 12)])
  | .stf rs base off => some (bodyOf 0x26 [(rs.val, 19), (base.val, 15), (off.toNat, 0), (3, 12)])
  | .sete base off => some (bodyOf 0x27 [(base.val, 15), (off.toNat, 0), (3, 12)])
  | .fest rd base off => some (bodyOf 0x28 [(rd.val, 19), (base.val, 15), (off.toNat, 0), (3, 12)])
  | .old rd ra sx z off => some (bodyOf 0x30 [(rd.val, 19), (ra.val, 15), (sx.toNat, 14), (z.code, 12), (off.toNat, 0)])
  | .ost rs ra z off => some (bodyOf 0x31 [(rs.val, 19), (ra.val, 15), (z.code, 12), (off.toNat, 0)])
  | .orq rd ra f => some (bodyOf 0x32 [(rd.val, 19), (ra.val, 15), (f.toNat, 0)])
  | .oprb rd ra => some (bodyOf 0x33 [(rd.val, 19), (ra.val, 15)])
  | .oref rd ra rb => some (bodyOf 0x34 [(rd.val, 19), (ra.val, 15), (rb.val, 11)])
  | .oldc rd ra sx z off => some (bodyOf 0x35 [(rd.val, 19), (ra.val, 15), (sx.toNat, 14), (z.code, 12), (off.toNat, 0)])
  | .aadd rd ra rb z => some (bodyOf 0x40 [(rd.val, 19), (ra.val, 15), (rb.val, 11), (z.code, 0)])
  | .aincb rd ra rb z => some (bodyOf 0x41 [(rd.val, 19), (ra.val, 15), (rb.val, 11), (z.code, 0)])
  | .amin rd ra rb t z => some (bodyOf 0x42 [(rd.val, 19), (ra.val, 15), (rb.val, 11), (t.toNat, 3), (z.code, 0)])
  | .amax rd ra rb t z => some (bodyOf 0x42 [(rd.val, 19), (ra.val, 15), (rb.val, 11), (t.toNat, 3), (z.code, 0), (1, 1)])
  | .aminu rd ra rb z => some (bodyOf 0x42 [(rd.val, 19), (ra.val, 15), (rb.val, 11), (z.code, 0), (2, 1)])
  | .amaxu rd ra rb z => some (bodyOf 0x42 [(rd.val, 19), (ra.val, 15), (rb.val, 11), (z.code, 0), (3, 1)])
  | .aand rd ra rb z => some (bodyOf 0x43 [(rd.val, 19), (ra.val, 15), (rb.val, 11), (z.code, 0)])
  | .aor rd ra rb z => some (bodyOf 0x43 [(rd.val, 19), (ra.val, 15), (rb.val, 11), (z.code, 0), (1, 1)])
  | .axor rd ra rb z => some (bodyOf 0x43 [(rd.val, 19), (ra.val, 15), (rb.val, 11), (z.code, 0), (2, 1)])
  | .aswp rd ra rb z => some (bodyOf 0x44 [(rd.val, 19), (ra.val, 15), (rb.val, 11), (z.code, 0)])
  | .acas rd ra rb z => some (bodyOf 0x45 [(rd.val, 19), (ra.val, 15), (rb.val, 11), (z.code, 0)])
  | .red ra rb op z => some (bodyOf 0x46 [(ra.val, 15), (rb.val, 11), (op.code, 1), (z.code, 0)])
  | .ldc rd ra sx z off => some (bodyOf 0x47 [(rd.val, 19), (ra.val, 15), (sx.toNat, 14), (z.code, 12), (off.toNat, 0)])
  | .ldacq rd ra sc off => some (bodyOf 0x48 [(rd.val, 19), (ra.val, 15), (sc.code, 12), (off.toNat, 0)])
  | .strel rs ra sc off => some (bodyOf 0x49 [(rs.val, 19), (ra.val, 15), (sc.code, 12), (off.toNat, 0)])
  | .fence sc k => some (bodyOf 0x4A [(sc.code, 2), (k.code, 0)])
  | .mbxw ra => some (bodyOf 0x50 [(ra.val, 15)])
  | .mbxwMovement ra rb => some (bodyOf 0x50 [(ra.val, 15), (rb.val, 11), (1, 0)])
  | .mbxr rd => some (bodyOf 0x51 [(rd.val, 19)])
  | .mbxrMovement rd ra => some (bodyOf 0x51 [(rd.val, 19), (ra.val, 15), (1, 0)])
  | .cpy rd ra stg => some (bodyOf 0x52 [(rd.val, 19), (ra.val, 15), (stg.toNat, 0)])
  | .cpyt rd ra toB => some (bodyOf 0x53 [(rd.val, 19), (ra.val, 15), (toB.toNat, 0)])
  | .cpyf rd ra stg => some (bodyOf 0x54 [(rd.val, 19), (ra.val, 15), (stg.toNat, 0)])
  | .cpyg rd ra stg => some (bodyOf 0x55 [(rd.val, 19), (ra.val, 15), (stg.toNat, 0)])
  | .pfch rd ra => some (bodyOf 0x56 [(rd.val, 19), (ra.val, 15)])
  | .evct rd ra => some (bodyOf 0x57 [(rd.val, 19), (ra.val, 15)])
  | .xwait ra => some (bodyOf 0x58 [(ra.val, 15)])
  | .xwaitT rd ra rb => some (bodyOf 0x58 [(rd.val, 19), (ra.val, 15), (rb.val, 11), (1, 0)])
  | .xstat rd ra => some (bodyOf 0x59 [(rd.val, 19), (ra.val, 15)])
  | .kick ra => some (bodyOf 0x5A [(ra.val, 15)])
  | .mbxd ra rb => some (bodyOf 0x5B [(ra.val, 15), (rb.val, 11)])
  | .send ra rb => some (bodyOf 0x60 [(ra.val, 15), (rb.val, 11)])
  | .sendw ra rb => some (bodyOf 0x61 [(ra.val, 15), (rb.val, 11)])
  | .cont rd n => some (bodyOf 0x62 [(rd.val, 19), (n.val, 15)])
  | .migr ra => some (bodyOf 0x63 [(ra.val, 15)])
  | .home => some (bodyOf 0x64 [])
  | .rst ra rb z => some (bodyOf 0x65 [(ra.val, 15), (rb.val, 11), (z.code, 0)])
  | .jrnl rd ra => some (bodyOf 0x66 [(rd.val, 19), (ra.val, 15)])
  | .gst g ra => some (bodyOf 0x68 [(g.val, 19), (ra.val, 15)])
  | .gld rd g => some (bodyOf 0x69 [(rd.val, 19), (g.val, 15)])
  | .gseq rd g => some (bodyOf 0x6A [(rd.val, 19), (g.val, 15)])
  | .gabt g ra => some (bodyOf 0x6B [(g.val, 19), (ra.val, 15)])
  | .cmc g ra rb => some (bodyOf 0x6C [(g.val, 19), (ra.val, 15), (rb.val, 11)])
  | .gcol g ra rb p op => some (bodyOf 0x6D [(g.val, 19), (ra.val, 15), (rb.val, 11), (p.val, 3), (op.code, 0)])
  | .wnw g ra rb k => some (bodyOf 0x6E [(g.val, 19), (ra.val, 15), (rb.val, 11), (k.val, 0)])
  | .swopen s ra rb => some (bodyOf 0x70 [(s.val, 21), (ra.val, 15), (rb.val, 11)])
  | .swclose s => some (bodyOf 0x71 [(s.val, 21)])
  | .fwm s ra rb g => some (bodyOf 0x72 [(s.val, 21), (ra.val, 15), (rb.val, 11), (g.val, 0)])
  | .fwg s ra rb g => some (bodyOf 0x73 [(s.val, 21), (ra.val, 15), (rb.val, 11), (g.val, 0)])
  | .fwa s ra rb => some (bodyOf 0x74 [(s.val, 21), (ra.val, 15), (rb.val, 11)])
  | .rply s ra rb fwd => some (bodyOf 0x75 [(s.val, 21), (ra.val, 15), (rb.val, 11), (fwd.toNat, 0)])
  | .swqry s rd w => some (bodyOf 0x76 [(s.val, 21), (rd.val, 11), (w.code, 0)])
  | .swdrop s ra rb => some (bodyOf 0x77 [(s.val, 21), (ra.val, 15), (rb.val, 11)])
  | .trap code => some (bodyOf 0x78 [(code.toNat, 0)])
  | .tret => some (bodyOf 0x79 [])
  | .srd rd sr => some (bodyOf 0x7A [(rd.val, 19), (sr.code, 0)])
  | .swr rs sr => some (bodyOf 0x7B [(rs.val, 19), (sr.code, 0)])
  | .orw ra rb => some (bodyOf 0x7C [(ra.val, 15), (rb.val, 11)])
  | .orinv ra => some (bodyOf 0x7C [(ra.val, 15), (1, 0)])
  | .ormov ra rb => some (bodyOf 0x7C [(ra.val, 15), (rb.val, 11), (2, 0)])
  | .plcSwap ra rb => some (bodyOf 0x7D [(ra.val, 15), (rb.val, 11)])
  | .plcMigx ra rb => some (bodyOf 0x7D [(ra.val, 15), (rb.val, 11), (1, 0)])
  | .plcFold ra rb => some (bodyOf 0x7D [(ra.val, 15), (rb.val, 11), (2, 0)])
  | .plcSeal ra => some (bodyOf 0x7D [(ra.val, 15), (3, 0)])
  | .dualOn => some (bodyOf 0x7E [(1, 0)])
  | .dualOff => some (bodyOf 0x7E [])
  | .qsc ra => some (bodyOf 0x7F [(ra.val, 15)])
  | .asyncEventEntry _ _ => none
  | .icacheFill _ _ => none
  | .recordFetch _ _ => none
  | .storeBufferPerform _ _ => none
  | .homeSliceRequest _ _ => none
  | .l2MissFill _ _ => none
  | .probeEcho _ _ _ => none
  | .residencyFillRelease _ _ => none
  | .dispatch _ => none
  | .gangPlacement _ => none
  | .compaction _ => none
  | .tedderInstant => none
  | .exchange _ _ => none
  | .forwardingEntryExpiry _ _ => none
  | .messageDelivery _ => none
  | .messageReturn _ => none
  | .migrationArrival _ => none
  | .migrationFailure _ => none
  | .rstArrival _ => none
  | .rstAcknowledgement _ => none
  | .engineSleep _ => none
  | .engineWake _ => none
  | .consumption _ => none
  | .drainStart _ => none
  | .rotationBufferForward _ _ => none
  | .copyChunk _ => none
  | .reservationGrant _ _ => none
  | .completionNotice _ _ => none
  | .roundCancel _ _ => none
  | .winnowMerge _ => none
  | .swathAcknowledgement _ => none
  | .xwaitDeadline _ _ => none
  | .watchdog => none
  | .uncorrectableError _ => none
  | .lineCheck _ _ => none
  | .frameReceipt _ _ _ _ _ => none
  | .keyPhaseSwitch _ _ _ => none
  | .narrowed _ _ => none
  | .down _ => none
  | .retrained _ _ => none
  | .thermal _ => none
  | .powerUp _ _ => none
  | .hostMemoryAccess _ _ _ => none
  | .tail _ _ _ _ => none
  | .commandRefetch _ _ => none
  | .en _ _ _ => none
  | .stalled _ _ => none
  | .rhead _ _ _ => none
  | .queueRegisterWrite _ _ _ _ => none
  | .submit _ _ => none
  | .power _ _ => none
  | .attest _ _ => none
  | .badOp _ _ => none
  | .spareClusterSteering _ _ => none
  | .secondStageMapping _ _ => none
  | .recordCacheAcknowledgement _ _ => none
  | .hostWindowResponse _ _ => none
  | .messageAcknowledgement _ => none
  | .vectorCompletion _ _ => none
  | .collectiveDelivery _ _ => none
  | .recordedTransferArrival _ _ => none
  | .sheafTableWrite _ _ => none
  | .taskEnd _ _ _ => none
  | .partitionReset => none

/-- The extension word of an instruction; 0 where it defines none (R51). -/
def Instr.extWord : Instr → Nat
  | .movx _ x => x.toNat
  | .movhx _ x => x.toNat
  | .drn _ _ _ _ _ _ _ _ side => side.code
  | _ => 0

/-- The class of an instruction: true for the A map (R56-R59). -/
def Instr.isA : Instr → Bool
  | .nopA => true
  | .add _ _ _ _ => true
  | .sub _ _ _ _ => true
  | .mul _ _ _ => true
  | .mulh _ _ _ => true
  | .mulhu _ _ _ => true
  | .div _ _ _ => true
  | .divu _ _ _ => true
  | .rem _ _ _ => true
  | .remu _ _ _ => true
  | .and _ _ _ => true
  | .or _ _ _ => true
  | .xor _ _ _ => true
  | .andn _ _ _ => true
  | .shl _ _ _ => true
  | .shr _ _ _ => true
  | .sar _ _ _ => true
  | .rol _ _ _ => true
  | .seq _ _ _ => true
  | .sne _ _ _ => true
  | .slt _ _ _ => true
  | .sltu _ _ _ => true
  | .min _ _ _ => true
  | .max _ _ _ => true
  | .minu _ _ _ => true
  | .maxu _ _ _ => true
  | .sel _ _ _ _ => true
  | .clz _ _ => true
  | .ctz _ _ => true
  | .popc _ _ => true
  | .bswap _ _ => true
  | .ext _ _ _ _ => true
  | .exts _ _ _ _ => true
  | .ins _ _ _ _ => true
  | .mad _ _ _ _ => true
  | .adds _ _ _ _ => true
  | .crcw _ _ _ _ => true
  | .addi _ _ _ => true
  | .andi _ _ _ => true
  | .ori _ _ _ => true
  | .xori _ _ _ => true
  | .shli _ _ _ => true
  | .shri _ _ _ => true
  | .sari _ _ _ => true
  | .seqi _ _ _ => true
  | .slti _ _ _ => true
  | .sltiu _ _ _ => true
  | .movi _ _ => true
  | .movx _ _ => true
  | .movhx _ _ => true
  | .muli _ _ _ => true
  | .fadd _ _ _ _ _ => true
  | .fsub _ _ _ _ _ => true
  | .fmul _ _ _ _ _ => true
  | .ffma _ _ _ _ _ _ => true
  | .fdiv _ _ _ _ _ => true
  | .fsqrt _ _ _ _ => true
  | .fmin _ _ _ _ => true
  | .fmax _ _ _ _ => true
  | .feq _ _ _ _ => true
  | .flt _ _ _ _ => true
  | .fle _ _ _ _ => true
  | .funo _ _ _ _ => true
  | .ftle _ _ _ _ => true
  | .fcvt _ _ _ _ _ _ => true
  | .fcvti _ _ _ _ _ => true
  | .icvtf _ _ _ _ _ => true
  | .fcls _ _ _ => true
  | .ffn _ _ _ _ => true
  | .fsel _ _ _ => true
  | .vadd _ _ _ _ _ => true
  | .vsub _ _ _ _ _ => true
  | .vmul _ _ _ _ _ => true
  | .vfma _ _ _ _ _ _ => true
  | .vscl _ _ _ _ _ => true
  | .vmin _ _ _ _ _ => true
  | .vmax _ _ _ _ _ => true
  | .vcvt _ _ _ _ _ => true
  | .vqnt _ _ _ _ _ => true
  | .vdq _ _ _ _ _ => true
  | .vred _ _ _ _ _ => true
  | .vbdot _ _ _ _ _ => true
  | .vtopk _ _ _ _ _ => true
  | .vmrg _ _ _ _ _ _ => true
  | .vfn _ _ _ _ _ => true
  | .vdfn _ _ _ _ _ _ => true
  | .vgth _ _ _ _ _ => true
  | .vsct _ _ _ _ _ _ => true
  | .vcmp _ _ _ _ _ _ => true
  | .vmsel _ _ _ _ _ _ => true
  | .viota _ _ _ _ => true
  | .vpfx _ _ _ _ => true
  | .vstat _ _ _ => true
  | .setvl _ _ => true
  | .vcpy _ _ _ _ => true
  | .mma _ _ _ _ => true
  | .mmas _ _ _ _ => true
  | .mmr _ _ => true
  | .mmg _ _ _ _ => true
  | .aclr _ => true
  | .amovLd _ _ => true
  | .amovSt _ _ => true
  | .drn _ _ _ _ _ _ _ _ _ => true
  | .qpop _ => true
  | .qlvl _ => true
  | .astat _ _ => true
  | .mwake => true
  | _ => false

/-- The two words of an instruction as a lone bundle (R50, R51). -/
def encode (i : Instr) : Option (Nat × Nat) :=
  match i.body with
  | some b => some ((if i.isA then 3 else 2) * 2 ^ 30 + b, i.extWord)
  | none => none

/-- The two words of a pair (R50). -/
def encodePair (c a : Instr) : Option (Nat × Nat) :=
  match c.body, a.body with
  | some b, some d => some (b, 2 ^ 30 + d)
  | _, _ => none

end Sys2Proof
end

