-- ==== Sys2Proof/Config.lean ====
section
/-! DEFINITION. What the spec leaves open: free values, which nothing in Lean can evaluate or prove
a value of, and the few constants of the package that the spec names without a value. -/

namespace Sys2Proof.Config

/-- The free schedule (R6, log entry 3): which of `k` enabled events or the next issue comes next.
The n-th reading of the free values of a run reads index n. -/
opaque choice : Nat → Nat

/-- A free bit: whether a request misses in its slice (R186), whether a switch merges two requests
(R189, R190) (log entry 4). -/
opaque bit : Nat → Bool

/-- A free word: a result that another package of the partition would supply (log entry 5). -/
opaque word : Nat → BitVec 64

/-- The rounding of a function value that the fixed-point interval of `fnBits` bits does not decide
(log entry 6): the encoding, as a function of the function's number, the operand and the mode. -/
opaque fnValue : Nat → Nat → Nat → BitVec 32

/-- The device identity record, the stepping as it holds it (R1), and the SHA-384 of each running image, as
bytes of an attestation report (R360) (log entry 7). -/
opaque identity : List (BitVec 8)
opaque stepping : List (BitVec 8)
opaque images : List (BitVec 8)

/-- The SHA-384 of a port's key table, from the key ids that it admits (R360) (log entry 7). -/
opaque keyDigest : List Nat → List (BitVec 8)

/-- The two signatures over an attestation report, as a function of the LMS signature's number (log entry 7). -/
opaque signatures : Nat → List (BitVec 8) → List (BitVec 8)

/-- How many packets the partition's task queue holds beyond one (R142) (log entry 77). -/
opaque queueRoom : Nat

/-- The bytes of OUT in a cancelled round (R302) (log entry 8). -/
opaque cancelled : Nat → BitVec 8

end Sys2Proof.Config
end

