-- ==== Sys2Proof/Machine/Maps.lean ====
section
/-! DEFINITION. Sparse tables and byte memories: reading and writing one entry. -/

namespace Sys2Proof

/-- The entry of a key. -/
def AMap.get {α : Type} : AMap α → Nat → Option α
  | [], _ => none
  | (j, a) :: t, k => if j = k then some a else AMap.get t k

/-- Put an entry at its place in the order of keys. -/
def AMap.put {α : Type} : AMap α → Nat → α → AMap α
  | [], k, a => [(k, a)]
  | (j, b) :: t, k, a =>
    if k < j then (k, a) :: (j, b) :: t
    else if j = k then (k, a) :: t
    else (j, b) :: AMap.put t k a

/-- Remove the entry of a key. -/
def AMap.del {α : Type} : AMap α → Nat → AMap α
  | [], _ => []
  | (j, b) :: t, k => if j = k then t else (j, b) :: AMap.del t k

/-- Insert a number into a rising list without repeats. -/
def insertNat : List Nat → Nat → List Nat
  | [], k => [k]
  | j :: t, k => if k < j then k :: j :: t else if j = k then j :: t else j :: insertNat t k

namespace Machine.Memory

/-- The byte at an address; an address that nothing has written reads as 0 (log entry 10). -/
def read : List Host.Cell → Nat → Byte
  | [], _ => 0
  | (j, b) :: t, a => if j = a then b else read t a

/-- The canonical form: addresses strictly rising and no entry equal to 0. -/
def wf : List Host.Cell → Bool
  | [] => true
  | [(_, b)] => b != 0
  | (j, b) :: (k, c) :: t => b != 0 && decide (j < k) && wf ((k, c) :: t)

/-- Write a byte, keeping the canonical form. -/
def write (m : List Host.Cell) (a : Nat) (b : Byte) : List Host.Cell :=
  if b = 0 then AMap.del m a else AMap.put m a b

/-- The n bytes from an address up. -/
def readN (m : List Host.Cell) (a : Nat) : Nat → List Byte
  | 0 => []
  | n + 1 => read m a :: readN m (a + 1) n

/-- Write bytes from an address up. -/
def writeN (m : List Host.Cell) (a : Nat) : List Byte → List Host.Cell
  | [] => m
  | b :: bs => writeN (write m a b) (a + 1) bs

end Machine.Memory

/-- The low n bytes of a number, least significant first (R3). -/
def toBytes : Nat → Nat → List Byte
  | 0, _ => []
  | n + 1, w => BitVec.ofNat 8 w :: toBytes n (w / 256)

/-- The number of a list of bytes, least significant first (R3). -/
def ofBytes : List Byte → Nat
  | [] => 0
  | b :: bs => b.toNat + 256 * ofBytes bs

/-- Bits [hi:lo] of a word as a number. -/
def bits (w : Word) (hi lo : Nat) : Nat := w.toNat / 2 ^ lo % 2 ^ (hi + 1 - lo)

/-- Bit n of a word. -/
def bit (w : Word) (n : Nat) : Bool := w.toNat / 2 ^ n % 2 == 1

/-- The word with bits [hi:lo] replaced. -/
def setBits (w : Word) (hi lo v : Nat) : Word :=
  BitVec.ofNat 64 (w.toNat - bits w hi lo * 2 ^ lo + v % 2 ^ (hi + 1 - lo) * 2 ^ lo)

/-- Sign extension of an immediate. -/
def sext {n : Nat} (b : BitVec n) : Word := b.signExtend 64

end Sys2Proof
end

