-- ==== Sys2Proof/Machine/Fp.lean ====
section
/-! DEFINITION. The number formats (R75-R79) and correctly rounded arithmetic on exact values
(R80-R85, R94-R98): a finite value is a sign, a natural number and a power of two. -/

namespace Sys2Proof.Machine

/-- A rounding mode (R80). -/
inductive Mode where
  | rne | rtz | rup | rdn
  deriving DecidableEq, Repr

/-- MODE by its code (R80). -/
def Mode.ofCode (n : Nat) : Mode :=
  match n % 4 with
  | 0 => .rne
  | 1 => .rtz
  | 2 => .rup
  | _ => .rdn

/-- An exact value: NaN, an infinity, or (-1)^neg × m × 2^e. -/
inductive FVal where
  | nan
  | inf (neg : Bool)
  | fin (neg : Bool) (m : Nat) (e : Int)
  deriving DecidableEq, Repr

/-- A floating format (R76): exponent bits, fraction bits, bias, the exponent of the largest finite
value and its significand, whether infinities and many NaNs exist (IEEE), whether any NaN exists. -/
structure FFmt where
  eb : Nat
  p : Nat
  bias : Int
  emax : Int
  top : Nat
  ieee : Bool
  hasNan : Bool
  deriving DecidableEq, Repr

/-- The floating format of a code (R75, R76); E8M0 is read by `FVal.ofE8M0`. -/
def FFmt.ofCode : Nat → Option FFmt
  | 0x8 => some ⟨11, 52, 1023, 1023, 2 ^ 53 - 1, true, true⟩
  | 0x9 => some ⟨8, 23, 127, 127, 2 ^ 24 - 1, true, true⟩
  | 0xA => some ⟨8, 7, 127, 127, 2 ^ 8 - 1, true, true⟩
  | 0xB => some ⟨5, 10, 15, 15, 2 ^ 11 - 1, true, true⟩
  | 0xC => some ⟨4, 3, 7, 8, 14, false, true⟩
  | 0xD => some ⟨5, 2, 15, 15, 7, true, true⟩
  | 0xE => some ⟨2, 1, 1, 2, 3, false, false⟩
  | _ => none

/-- binary32. -/
def f32 : FFmt := ⟨8, 23, 127, 127, 2 ^ 24 - 1, true, true⟩

/-- binary64. -/
def f64 : FFmt := ⟨11, 52, 1023, 1023, 2 ^ 53 - 1, true, true⟩

/-- Width in bits of a format code (R75); 0 for the reserved codes. -/
def fmtBits : Nat → Nat
  | 0x0 => 8 | 0x1 => 8 | 0x2 => 16 | 0x3 => 32 | 0x4 => 64
  | 0x8 => 64 | 0x9 => 32 | 0xA => 16 | 0xB => 16 | 0xC => 8 | 0xD => 8 | 0xE => 4 | 0xF => 8
  | _ => 0

/-- Width in bytes of a format code, E2M1 counted as 1. -/
def fmtBytes (c : Nat) : Nat := if c = 0xE then 1 else fmtBits c / 8

/-- An integer format code (R75). -/
def isIntFmt (c : Nat) : Bool := decide (c ≤ 4)

/-- The value of an encoding (R76). -/
def FFmt.value (f : FFmt) (b : Nat) : FVal :=
  let frac := b % 2 ^ f.p
  let ex := b / 2 ^ f.p % 2 ^ f.eb
  let neg := b / 2 ^ (f.eb + f.p) % 2 == 1
  if f.ieee && ex == 2 ^ f.eb - 1 then
    if frac = 0 then .inf neg else .nan
  else if f.hasNan && !f.ieee && ex == 2 ^ f.eb - 1 && frac == 2 ^ f.p - 1 then .nan
  else if ex = 0 then .fin neg frac (1 - f.bias - f.p)
  else .fin neg (2 ^ f.p + frac) ((ex : Int) - f.bias - f.p)

/-- The value of an E8M0 code (R76). -/
def FVal.ofE8M0 (b : Nat) : FVal :=
  if b % 256 = 255 then .nan else .fin false 1 ((b % 256 : Nat) - 127)

/-- An integer as an exact value. -/
def FVal.ofInt (n : Int) : FVal := .fin (decide (n < 0)) n.natAbs 0

/-- The canonical NaN of a format (R82); code 0 where there is none (R81). -/
def FFmt.nanCode (f : FFmt) : Nat :=
  if !f.hasNan then 0
  else if f.ieee then (2 ^ f.eb - 1) * 2 ^ f.p + 2 ^ (f.p - 1)
  else 2 ^ (f.eb + f.p) - 1

/-- A sign bit. -/
def FFmt.signed (f : FFmt) (neg : Bool) (b : Nat) : Nat := if neg then 2 ^ (f.eb + f.p) + b else b

/-- The encoding of the largest finite value. -/
def FFmt.maxCode (f : FFmt) : Nat := (f.emax + f.bias).toNat * 2 ^ f.p + (f.top - 2 ^ f.p)

/-- The encoding of infinity. -/
def FFmt.infCode (f : FFmt) : Nat := (2 ^ f.eb - 1) * 2 ^ f.p

/-- Round m ÷ 2^sh to an integer under a mode; `neg` is the sign of the value. -/
def roundShift (mode : Mode) (neg : Bool) (m sh : Nat) : Nat :=
  let q := m / 2 ^ sh
  let r := m % 2 ^ sh
  let up := match mode with
    | .rne => decide (2 * r > 2 ^ sh) || (decide (2 * r = 2 ^ sh) && q % 2 == 1)
    | .rtz => false
    | .rup => !neg && r != 0
    | .rdn => neg && r != 0
  if up then q + 1 else q

/-- A finite value rounded to p + 1 significant bits, no lower than 2^low (R81): the integer and its
exponent. -/
def roundSig (mode : Mode) (p : Nat) (low : Int) (neg : Bool) (m : Nat) (e : Int) : Nat × Int :=
  let top : Int := e + Nat.log2 m
  let q := max (top - p) low
  if q ≤ e then (m * 2 ^ (e - q).toNat, q) else (roundShift mode neg m (q - e).toNat, q)

/-- Whether the overflow rule of a mode gives infinity (R81). -/
def overflowsToInf (mode : Mode) (neg : Bool) : Bool :=
  match mode with
  | .rne => true
  | .rtz => false
  | .rup => !neg
  | .rdn => neg

/-- Round (R81): E4M3 and E2M1 always saturate; the other formats saturate when asked. -/
def FFmt.round (f : FFmt) (mode : Mode) (sat : Bool) : FVal → Nat
  | .nan => f.nanCode
  | .inf neg => f.signed neg (if sat || !f.ieee then f.maxCode else f.infCode)
  | .fin neg m e =>
    if m = 0 then f.signed neg 0
    else
      let r := roundSig mode f.p (1 - f.bias - f.p) neg m e
      let y := if r.1 = 2 ^ (f.p + 1) then (2 ^ f.p, r.2 + 1) else r
      if y.1 < 2 ^ f.p then f.signed neg y.1
      else
        let ex := y.2 + f.p
        if decide (ex > f.emax) || (decide (ex = f.emax) && decide (y.1 > f.top)) then
          f.signed neg
            (if sat || !f.ieee || !overflowsToInf mode neg then f.maxCode else f.infCode)
        else f.signed neg ((ex + f.bias).toNat * 2 ^ f.p + (y.1 - 2 ^ f.p))

/-- Whether a value, rounded at unbounded range, lies above the format's largest finite value (R90). -/
def FFmt.overflows (f : FFmt) (mode : Mode) : FVal → Bool
  | .fin neg m e =>
    if m = 0 then false
    else
      let r := roundSig mode f.p (1 - f.bias - f.p) neg m e
      let y := if r.1 = 2 ^ (f.p + 1) then (2 ^ f.p, r.2 + 1) else r
      decide (2 ^ f.p ≤ y.1) &&
        (decide (y.2 + f.p > f.emax) || (decide (y.2 + f.p = f.emax) && decide (y.1 > f.top)))
  | .inf _ => true
  | .nan => false

/-- The ends of an integer format's range (R81). -/
def intRange : Nat → Int × Int
  | 0x0 => (-128, 127)
  | 0x1 => (0, 255)
  | 0x2 => (-32768, 32767)
  | 0x3 => (-2147483648, 2147483647)
  | _ => (-9223372036854775808, 9223372036854775807)

/-- An exact value rounded to an integer under a mode. -/
def roundInt (mode : Mode) (neg : Bool) (m : Nat) (e : Int) : Int :=
  let n : Nat := if 0 ≤ e then m * 2 ^ e.toNat else roundShift mode neg m (-e).toNat
  if neg then -n else n

/-- Clamp to an integer format's range. -/
def clampInt (c : Nat) (n : Int) : Int := max (intRange c).1 (min (intRange c).2 n)

/-- Round to an integer format: saturating, NaN to 0 (R81, R97). -/
def toIntFmt (c : Nat) (mode : Mode) : FVal → Int
  | .nan => 0
  | .inf neg => if neg then (intRange c).1 else (intRange c).2
  | .fin neg m e => clampInt c (roundInt mode neg m e)

/-- The low bits of an integer as an encoding of w bits. -/
def wrapInt (w : Nat) (n : Int) : Nat := (n % (2 ^ w : Int)).toNat

/-- The integer that an encoding of an integer format stands for (R75, R98). -/
def readInt (c b : Nat) : Int :=
  let w := fmtBits c
  let u := b % 2 ^ w
  if c = 1 then u else if u < 2 ^ (w - 1) then u else (u : Int) - 2 ^ w

/-- The exact value of an element encoding of any format code (R75-R77). -/
def elemValue (c b : Nat) : FVal :=
  match FFmt.ofCode c with
  | some f => f.value b
  | none => if c = 0xF then .ofE8M0 b else .ofInt (readInt c b)

/-- Round to any element format code: a float by R81, an integer saturating (R81). -/
def roundTo (c : Nat) (mode : Mode) (sat : Bool) (v : FVal) : Nat :=
  match FFmt.ofCode c with
  | some f => f.round mode sat v
  | none => wrapInt (fmtBits c) (toIntFmt c mode v)

/-- The narrow formats (R75). -/
def isNarrow (c : Nat) : Bool := c == 0xC || c == 0xD || c == 0xE

namespace FVal

/-- Is it a NaN? -/
def isNan : FVal → Bool
  | .nan => true
  | _ => false

/-- The value with its sign turned. -/
def neg : FVal → FVal
  | .nan => .nan
  | .inf s => .inf (!s)
  | .fin s m e => .fin (!s) m e

/-- The integer (-1)^s × m. -/
def sgn (s : Bool) (m : Nat) : Int := if s then -(m : Int) else m

/-- Exact sum; an exact zero of operands of opposite sign is +0, −0 under RDN (R83). -/
def add (mode : Mode) : FVal → FVal → FVal
  | .nan, _ => .nan
  | _, .nan => .nan
  | .inf s, .inf t => if s = t then .inf s else .nan
  | .inf s, _ => .inf s
  | _, .inf t => .inf t
  | .fin s m e, .fin t n d =>
    let k := min e d
    let v := sgn s (m * 2 ^ (e - k).toNat) + sgn t (n * 2 ^ (d - k).toNat)
    if v = 0 then .fin (if s = t then s else mode == .rdn) 0 0
    else .fin (decide (v < 0)) v.natAbs k

/-- Exact product (R83). -/
def mul : FVal → FVal → FVal
  | .nan, _ => .nan
  | _, .nan => .nan
  | .inf s, .inf t => .inf (s != t)
  | .inf s, .fin t n _ => if n = 0 then .nan else .inf (s != t)
  | .fin s m _, .inf t => if m = 0 then .nan else .inf (s != t)
  | .fin s m e, .fin t n d => .fin (s != t) (m * n) (e + d)

/-- Quotient, to 128 bits or more with its last bit set when inexact: every Round of it is the Round
of the exact quotient. -/
def div : FVal → FVal → FVal
  | .nan, _ => .nan
  | _, .nan => .nan
  | .inf _, .inf _ => .nan
  | .inf s, .fin t _ _ => .inf (s != t)
  | .fin s _ _, .inf t => .fin (s != t) 0 0
  | .fin s m e, .fin t n d =>
    if n = 0 then (if m = 0 then .nan else .inf (s != t))
    else
      let k := 128 + Nat.log2 n
      let q := m * 2 ^ k / n
      .fin (s != t) (2 * q + (if m * 2 ^ k % n = 0 then 0 else 1)) (e - d - k - 1)

/-- Integer square root, bit by bit from 2^k down. -/
def isqrt (n : Nat) : Nat → Nat → Nat
  | 0, r => r
  | k + 1, r => isqrt n k (if (r + 2 ^ k) * (r + 2 ^ k) ≤ n then r + 2 ^ k else r)

/-- Square root, to 100 bits or more with its last bit set when inexact. -/
def sqrt : FVal → FVal
  | .nan => .nan
  | .inf s => if s then .nan else .inf false
  | .fin s m e =>
    if m = 0 then .fin s 0 0
    else if s then .nan
    else
      let k : Nat := 200 + (if e % 2 = 0 then 0 else 1)
      let n := m * 2 ^ k
      let r := isqrt n (Nat.log2 n / 2 + 1) 0
      .fin false (2 * r + (if r * r = n then 0 else 1)) ((e - k) / 2 - 1)

/-- The order of two values that are not NaN. -/
def cmp : FVal → FVal → Ordering
  | .inf s, .inf t => if s = t then .eq else if s then .lt else .gt
  | .inf s, _ => if s then .lt else .gt
  | _, .inf t => if t then .gt else .lt
  | .fin s m e, .fin t n d =>
    let k := min e d
    compare (sgn s (m * 2 ^ (e - k).toNat)) (sgn t (n * 2 ^ (d - k).toNat))
  | _, _ => .eq

/-- a = b; any NaN gives false (R95). -/
def feq (a b : FVal) : Bool := !a.isNan && !b.isNan && cmp a b == .eq

/-- a < b. -/
def flt (a b : FVal) : Bool := !a.isNan && !b.isNan && cmp a b == .lt

/-- a ≤ b. -/
def fle (a b : FVal) : Bool := !a.isNan && !b.isNan && cmp a b != .gt

end FVal

/-- TotalKey of an n-bit encoding (R85). -/
def totalKey (n b : Nat) : Nat :=
  let u := b % 2 ^ n
  if u / 2 ^ (n - 1) = 1 then 2 ^ n - 1 - u else u + 2 ^ (n - 1)

/-- TotalKey of an element of a format code; for E8M0 the code itself. -/
def totalKeyOf (c b : Nat) : Nat := if c = 0xF then b % 256 else totalKey (fmtBits c) b

/-- The IEEE 754-2019 minimum or maximum of two encodings (R95): NaN if either is NaN, −0 below +0. -/
def FFmt.minMax (f : FFmt) (isMax : Bool) (a b : Nat) : Nat :=
  let n := f.eb + f.p + 1
  if (f.value a).isNan || (f.value b).isNan then f.nanCode
  else if decide (totalKey n a ≤ totalKey n b) == !isMax then a % 2 ^ n else b % 2 ^ n

/-- The class mask of an encoding (R95). -/
def FFmt.classMask (f : FFmt) (b : Nat) : Nat :=
  match f.value b with
  | .nan => if b / 2 ^ (f.p - 1) % 2 = 1 then 2 ^ 9 else 2 ^ 8
  | .inf s => if s then 2 ^ 0 else 2 ^ 7
  | .fin s m _ =>
    if m = 0 then (if s then 2 ^ 3 else 2 ^ 4)
    else if m < 2 ^ f.p then (if s then 2 ^ 2 else 2 ^ 5)
    else if s then 2 ^ 1 else 2 ^ 6

end Sys2Proof.Machine
end

