-- ==== Sys2Proof/Machine/State.lean ====
section
/-! DEFINITION. The state of one GZ-8 package with one partition, as plain data, and `State.reset`.
Sparse tables (`AMap`) hold what differs from the default that their docstring names; cores are
numbered by position (R18), supervisor cores 4096 + 8 × die + n (R15), clusters 64 × die + torus position (R17), slices 192 × die + n and the
window agents 1536 + p (R173, R187). -/

namespace Sys2Proof.Machine

/-- What stops the machine. -/
inductive Fault where
  /-- An access to a host physical address that does not exist: [46:43] not zero, or OFF not below
  80 × 10^9 (R173).  Raised by HOST_MEMORY_ACCESS, LINE_CHECK and SECOND_STAGE_MAPPING.  Safe: the
  spec gives such an address no contents. -/
  | noSuchAddress
  deriving DecidableEq, Repr

/-- What the model gives no meaning. -/
inductive Refusal where
  /-- The instruction has no meaning yet.  Raised by a refused arm of `exec` only.  Safe: it stops. -/
  | notModelled (mnemonic : String)
  deriving DecidableEq, Repr

/-- The trap causes of R329. -/
inductive Cause where
  | illegal | priv | align | localRange | outOfShape | objPerm | objInvalid | residency | revoked
  | remoteRefused | undeliverable | format | swizzleMismatch | groupOffsets | accOwner | swathFull
  | swathStale | collectiveAbort | gangUnplaceable | checkFail | dualMismatch | watchdog | syscall
  | brk
  deriving DecidableEq, Repr

/-- A thread's identity (R270): home vcore, thread number and dispatch generation. -/
structure Tid where
  vc : Nat := 0
  tnum : Fin 16 := 0
  gen : BitVec 16 := 0
  deriving DecidableEq, Repr

/-- The registers of a slot: general and shadow registers, the PC and the system registers that a
slot or its thread holds (R101, R126, R138, R326). -/
structure Regs where
  /-- g0 to g15; entry 0 is never read (R101) -/
  g : Vector Word 16 := Vector.replicate 16 0
  /-- ts0 to ts7 (R39, R138) -/
  ts : Vector Word 8 := Vector.replicate 8 0
  /-- PC (R126) -/
  pc : BitVec 38 := 0
  /-- TSW (R127) -/
  tsw : Word := 0
  /-- TEPC, TCAUSE, TVAL, TSCR (R327) -/
  tepc : Word := 0
  tcause : Word := 0
  tval : Word := 0
  tscr : Word := 0
  /-- TVEC, LSEG, ORTB: the thread's view of the vcore's kept values (R155, R326) -/
  tvec : Word := 0
  lseg : Word := 0x4000000
  ortb : Word := 0
  /-- VL (R208), RMODE (R80), SWQ (R307) -/
  vl : Word := 32
  rmode : Word := 0
  swq : Word := 2048
  /-- BANKM (R194) -/
  bankm : Word := 0
  deriving DecidableEq, Repr

/-- An object record: its eight doublewords (R168). -/
abbrev Rec := Vector Word 8

/-- The full/empty operations (R161). -/
inductive FeOp where
  | ldf | ldw | stf | sete | fest
  deriving DecidableEq, Repr

/-- What a half that has left the rotation waits for. -/
inductive Wait where
  /-- a condition that is tested in each of the thread's cycles -/
  | poll
  /-- a free entry of the store buffer (R159) -/
  | room
  /-- Release (R195): these buffer entries performed, these probes echoed, and for .SYS the
  acknowledgements of the thread -/
  | release (entries probes : List Nat) (sys : Bool)
  /-- a migration to a vcore, once the implied Release(.DEV) has ended (R157, R198) -/
  | depart (entries probes : List Nat) (v : Nat)
  /-- a full/empty operation on a doubleword of the core, after these buffer entries (R162);
  `v` is STF's value, or the effective address -/
  | fe (op : FeOp) (dw : Nat) (r : Reg) (v : Word) (after : List Nat)
  /-- AWAIT on a register (R134) -/
  | await (r : Reg)
  /-- element i of an object, by TBASE and number, to be resident and mapped (R173, R175) -/
  | resident (tbase obj i : Nat)
  /-- a granule, by TBASE, object and number, to be resident, or its report to be answered (R175) -/
  | granule (tbase obj j : Nat)
  /-- the frame of a guest address to be mapped (R173) -/
  | frame (gpa : Nat)
  /-- BARW: the leaf's phase to differ from this (R147) -/
  | leaf (ph : BitVec 16)
  /-- the event that holds this number -/
  | token (k : Nat)
  deriving DecidableEq, Repr

/-- A half of a bundle that is out of the rotation: its instruction, how far it has come, and the
values it carries. -/
structure Pend where
  ins : Instr
  phase : Nat := 0
  held : List Word := []
  wait : Wait := .poll
  deriving DecidableEq, Repr

/-- A journal entry in use: remote address, size code, the number that orders it among its thread's (R283), and the
cause once it is REFUSED (R284). -/
structure JEntry where
  addr : Word
  size : BitVec 2
  seq : Nat := 0
  cause : Option Cause := none
  deriving DecidableEq, Repr

/-- A queued asynchronous event (R333). -/
structure AsyncEv where
  cause : Cause
  tval : Word
  deriving DecidableEq, Repr

/-- What kind of thread a slot holds: a tile task, the movement thread (R141), a run-ahead helper
of the thread in a slot (R150), or the trailing copy of the thread in a slot (R341). -/
inductive Life where
  | task
  | movement
  | helper (parent : Fin 16)
  | trailing (leading : Fin 16)
  deriving DecidableEq, Repr

/-- A hardware thread slot with the thread it holds. -/
structure Slot where
  /-- the slot holds a thread (R122) -/
  busy : Bool := false
  life : Life := .task
  regs : Regs := {}
  /-- identity (R270) and the vcore the thread occupies (R156) -/
  tid : Tid := {}
  occ : Nat := 0
  /-- completion word and priority of the task's packet (R136, R138) -/
  cpl : Word := 0
  prio : Nat := 0
  /-- the number of the task's packet among the live ones -/
  pid : Nat := 0
  /-- BOUNCE (R272) and the journal (R284) -/
  bounce : Reg := 0
  journal : Vector (Option JEntry) 16 := Vector.replicate 16 none
  /-- asynchronous events, oldest first, and whether some were lost (R333) -/
  events : List AsyncEv := []
  lost : Bool := false
  /-- request and reply mailbox words with their bits, the vcore of the thread that filled the request, and the
  pass-over count (R257) -/
  request : Option Word := none
  asked : Nat := 0
  passed : Nat := 0
  reply : Option Word := none
  /-- the halves that are out of the rotation (R52, R124), and the registers, bundle address and bundle that
  they latched at issue (R35, R329) -/
  pendC : Option Pend := none
  pendA : Option Pend := none
  latch : Regs := {}
  ipc : BitVec 38 := 0
  bundle : Word := 0
  /-- while a half that has passed its traps at issue is out: the registers and BOUNCE before the bundle, which a
  trap that the bundle still takes gives back (R36), and the cycle of the bundle's issue -/
  undo : Option (Regs × Reg) := none
  issued : Nat := 0
  /-- the register that a CONT has named, and the cycle (R128) -/
  cont : Option (Reg × Nat) := none
  /-- the stream entries and rotation buffers that the bundle at the PC has lacked at issue (R238) -/
  stalled : Option (Nat × Nat × Bool) := none
  /-- the first cycle in which the thread may issue again (R124) -/
  ready : Nat := 0
  /-- the code line whose fill the thread waits for (R123), and whether the granule of the bundle at the PC has been
  found not resident, mapped or in motion and reported (R175, R331) -/
  fetch : Option Nat := none
  absent : Bool := false
  /-- the record the thread waits for, as TBASE and number, and the records fetched for the bundle
  that issues again (R171) -/
  want : Option (Nat × Nat) := none
  fetched : List (Nat × Nat × Rec) := []
  /-- parked at a bundle boundary by QSC (R346) -/
  quiet : Bool := false
  /-- the partner slot of a redundant pair (R341), and how many bundles the leading thread is ahead
  (R342) -/
  pair : Option (Fin 16) := none
  ahead : Nat := 0
  /-- messages and recorded transfers of the thread not yet acknowledged (R193, R319), and its
  host-window writes (R187) -/
  unacked : List Nat := []
  deriving DecidableEq, Repr

/-- The returning atomics (R200). -/
inductive AtomOp where
  | add | incb | min | max | minu | maxu | tmin | tmax | and | or | xor | swap | cas
  deriving DecidableEq, Repr

/-- What a request asks of a home (R185, R188, R321). -/
inductive Access where
  | load (combinable : Bool)
  | store (bytes : List Byte)
  | atomic (op : AtomOp) (v expect : Word)
  | red (op : RedOp) (v : Word)
  /-- one element of a replay: add an exact value to the twin's element of format c (R322) -/
  | twinAdd (c : Nat) (v : FVal)
  /-- bytes that a copy hart writes (R254), each where the mask has ones, and whether their line becomes poisoned or
  is poisoned no more (R264) -/
  | copied (bytes : List Byte) (mask : Byte) (poison : Option Bool)
  deriving DecidableEq, Repr

/-- A request on its way to a home or queued there. -/
structure Req where
  /-- the core it comes from, and the buffer entries it performs, as core and number (none for a load,
  several where a switch has merged RED .FADD, R189) -/
  pos : Nat
  entries : List (Nat × Nat) := []
  /-- the token its reply ends, the register and extension of the reply -/
  token : Nat := 0
  rd : Reg := 0
  sx : Bool := false
  acc : Access
  /-- guest and host physical byte addresses and the size in bytes -/
  gpa : Nat := 0
  hpa : Nat
  n : Nat
  /-- for a record that is MOVING (R177): host address of the record's line, offset and granule -/
  moving : Option (Nat × Nat × Nat) := none
  /-- the record's TBASE and object number (R176, R304) and the reference -/
  key : Nat × Nat := (0, 0)
  ref : Word := 0
  /-- the owner key id of its frames, OKEY of its record (R357) -/
  okey : Nat := 0
  /-- a combinable read whose reply is on its way: the line, and the bytes its thread receives (R190) -/
  line : Option (List Byte) := none
  got : List Byte := []
  deriving DecidableEq, Repr

/-- A home: its ingress queue in arrival order with request numbers (R185), its miss-status
registers (lines being read, R186), its open saturation accumulators in order of opening, as
address, size and exact sum (R192). -/
structure Home where
  queue : AMap Req := []
  mshr : List Nat := []
  sat : List (Nat × Nat × Int) := []
  deriving DecidableEq, Repr

/-- A store-buffer entry's kind (R159, R181, R200, R201, R283). -/
inductive SbOp where
  /-- n bytes at a scratchpad address -/
  | scratch (pa n : Nat)
  /-- a request to the home of an object element -/
  | obj (r : Req)
  /-- a posted remote store with its journal entry -/
  | rst (entry : Fin 16) (addr : Word) (n : Nat) (v : Word)
  deriving DecidableEq, Repr

/-- A store-buffer entry: its number, its thread, and whether it is on its way. -/
structure SbEntry where
  id : Nat
  tid : Tid
  op : SbOp
  sent : Bool := false
  deriving DecidableEq, Repr

/-- A stream or rotation-buffer entry (R232): 1,024 bytes, swizzle tag, sidecar if valid, poison
(R337). -/
structure Tile where
  data : List Byte
  tag : Nat := 0
  sidecar : Option (List (BitVec 32)) := none
  poison : Bool := false
  deriving DecidableEq, Repr

/-- KIND of an accumulator tile (R229). -/
inductive Kind where
  | empty | plain | scaled | d64
  deriving DecidableEq, Repr

/-- An accumulator tile (R229): owner (a vcore number), KIND, the words that are not zero, and the cycle
from which its last update is present (R239). -/
structure AccTile where
  owner : Nat := 0
  kind : Kind := .empty
  data : AMap (BitVec 32) := []
  ready : Nat := 0
  deriving DecidableEq, Repr

/-- A matrix instruction accepted into a job queue (R238): its thread's slot and registers at issue,
the token, the acceptance cycle, the reserved A and B entries, the group ends of MMG, the resolved
scratchpad addresses of AMOV and DRN. -/
structure MJob where
  token : Nat
  slot : Fin 16
  ins : Instr
  regs : Regs
  occ : Nat
  accepted : Nat
  needA : Nat := 0
  needB : Nat := 0
  ends : List Nat := []
  addrs : List Nat := []
  deriving DecidableEq, Repr

/-- An AMOV that has been consumed (R245): its job, the cycle of consumption, the doublewords accessed so
far, and the doublewords read or to be written. -/
structure Move where
  job : MJob
  begun : Nat
  done : Nat := 0
  buf : List Word := []
  deriving DecidableEq, Repr

/-- A vector instruction in the unit's queue (R214): token, slot and thread, registers at issue, the
resolved scratchpad addresses, the indices of a gather or scatter, the buffer entries it waits for (R213), its
issue cycle, the cycle in which that wait ended, the groups of accesses performed, the
accesses of the running group, and the values read for it. -/
structure VJob where
  token : Nat
  slot : Fin 16
  ins : Instr
  regs : Regs
  addrs : List Nat
  idx : List Nat := []
  after : List Nat
  issued : Nat
  start : Option Nat := none
  grp : Nat := 0
  done : Nat := 0
  buf : List Nat := []
  deriving DecidableEq, Repr

/-- A core's leaf barrier (R147): expected count E, count, phase, and the arrivals that wait for
their BARR's release (buffer entries). -/
structure Leaf where
  e : Nat := 0
  count : Nat := 0
  ph : BitVec 16 := 0
  waiting : List (List Nat) := []
  deriving DecidableEq, Repr

/-- A forwarding entry (R278): the vcore, the new position, whether it holds, when it lapses. -/
structure Fwd where
  vc : Nat
  pos : Nat
  hold : Bool
  lapses : Nat
  deriving DecidableEq, Repr

/-- The kinds of copy job (R258). -/
inductive CopyKind where
  | cpy | cpytA | cpytB | cpyf | cpyg | pfch | evct
  deriving DecidableEq, Repr

/-- A job of a copy channel (R255, R259): kind, .STG, the four words, identifier and client; how far
it has come (bytes, or tiles of CPYT), the GEN of a fill, whether its accesses are done, and the
status and cause it will report. -/
structure CopyJob where
  kind : CopyKind
  stg : Bool
  q : Vector Word 4
  id : Nat
  client : Nat
  begun : Bool := false
  done : Nat := 0
  gen : Nat := 0
  ended : Bool := false
  status : Nat := 0
  cause : Nat := 0
  deriving DecidableEq, Repr

/-- The record a core keeps of who asked when a request was taken (R257): the slot number it came from,
the slot that holds the thread now (a fold may change it), the vcore occupied, the asking thread, and the movement
thread that took the request. -/
structure Asker where
  slot : Fin 16
  now : Fin 16
  vc : Nat
  tid : Tid
  taker : Tid := {}
  deriving DecidableEq, Repr

/-- A core (R16, R27, R153, R159, R232, R255, R278). -/
structure Core where
  slots : Vector Slot 16 := Vector.replicate 16 {}
  /-- scratchpad bytes that are not zero, full doublewords, poisoned 64-byte lines -/
  spad : List Host.Cell := []
  full : List Nat := []
  spoiled : List Nat := []
  /-- the store buffer, oldest first -/
  buffer : List SbEntry := []
  /-- arrived migrations that wait for a slot, oldest first (R27) -/
  guests : List Slot := []
  /-- the vector unit's queue, the running instruction first, and its last completion cycle (R214) -/
  vector : List VJob := []
  vlast : Nat := 0
  /-- the A and B streams with their reserved counts, the rotation buffers with the cycle in which
  their entry arrives and its target position (R232, R238, R242) -/
  strA : List Tile := []
  strB : List Tile := []
  resA : Nat := 0
  resB : Nat := 0
  rotA : Option (Tile × Nat × Nat) := none
  rotB : Option (Tile × Nat × Nat) := none
  /-- the job queue of accepted matrix instructions (R238), and the AMOVs consumed (R245) -/
  jobs : List MJob := []
  moves : List Move := []
  leaf : Leaf := {}
  fwd : List Fwd := []
  /-- the copy channel: queue, running job first (R255), and the vcore of the last movement MBXR -/
  channel : List CopyJob := []
  client : Option Nat := none
  askers : List Asker := []
  sealed : Bool := false
  /-- lines of the code object in the instruction cache (R123) -/
  icache : List Nat := []
  /-- the load-value queue of the core's redundant pair (R341, R342): the bundle that the leading thread has
  performed for both and whose values the trailing thread has still to take -/
  lvq : Option (BitVec 38) := none
  /-- the number of the last instant at which the core was chosen for a swap (R287) -/
  swapped : Option Nat := none
  /-- the cycle of the last access at the scratchpad bank and the slot it was for, 16 for one from outside the
  threads (R165) -/
  bank : Nat × Nat := (0, 0)
  deriving DecidableEq, Repr

/-- A cluster iteration counter (R146). -/
structure Counter where
  next : BitVec 32 := 0
  remaining : BitVec 32 := 0
  p : BitVec 16 := 1
  minimum : BitVec 32 := 1
  deriving DecidableEq, Repr

/-- A drain in progress (R248): core number, job, the tiles as they stood at its start (later instructions on
them take effect after it, R239), start cycle, rows begun, and the writes of the row that are still to come, as
scratchpad address and bytes. -/
structure Drain where
  core : Fin 8
  job : MJob
  tiles : List AccTile
  start : Nat
  row : Nat := 0
  buf : List (Nat × List Byte) := []
  deriving DecidableEq, Repr

/-- A matrix engine (R229, R239, R252): its tiles, whether it is awake, the cycle of the wake request
it holds, the cycle from which it may work, the last cycle that was not idle, the cycle in which the
multiplier is free, the core served last (7 at power-up, so that core 0 is first: log entry 64), the drain. -/
structure Engine where
  tiles : AMap AccTile := []
  awake : Bool := false
  request : Option Nat := none
  usable : Nat := 0
  active : Nat := 0
  free : Nat := 0
  last : Fin 8 := 7
  drain : Option Drain := none
  deriving DecidableEq, Repr

/-- A collective job on a copy hart (R298): vcore of the rank and its group register, group, priority,
round, chunks read so far, the elements of the running chunk that have been read, each with its poison, whether the
hart is in the middle of that chunk (R300), and whether it has begun the job (R268). -/
structure CollJob where
  vc : Nat
  n : Fin 8
  gid : Nat
  prio : Fin 4
  round : Nat
  chunk : Nat := 0
  buf : List (Nat × Bool) := []
  going : Bool := false
  begun : Bool := false
  deriving DecidableEq, Repr

/-- A cached record (R170). -/
structure Cached where
  tbase : Nat
  obj : Nat
  r : Rec
  deriving DecidableEq, Repr

/-- A cluster: counters, barrier root with the arrivals of each core's leaf that no phase has used yet and the
phases that travel to its leaves, engine, collective
queues, the hart's turn among the eight channels and .P0, what it is in the middle of a chunk of (a channel, or 8 and
the priority of a collective job, R300), its microcode, the record cache. -/
structure Cluster where
  ctr : Vector Counter 8 := Vector.replicate 8 {}
  mask : BitVec 8 := 0
  arrivals : Vector Nat 8 := Vector.replicate 8 0
  ph : BitVec 16 := 0
  phases : List (Nat × BitVec 16) := []
  eng : Engine := {}
  coll : List CollJob := []
  turn : Nat := 0
  running : Option Nat := none
  microcode : Nat := 0
  records : List Cached := []
  deriving DecidableEq, Repr

/-- A sheaf entry (R294), 128 bits. -/
abbrev Sheaf := BitVec 128

/-- A merge slot of a Winnow unit (R305): group, continuation word, k, format, ranks, lists merged, how many of them
from other packages, the list so far, the offset of the list that opened it. -/
structure WSlot where
  gid : Nat
  key : Word
  k : Nat
  fmt : Nat
  nrank : Nat
  lists : Nat
  remote : Nat := 0
  list : List Word
  off : Nat
  deriving DecidableEq, Repr

/-- A key-table entry of a port (R357). -/
structure KeyEntry where
  admitted : Bool := false
  key0 : BitVec 256 := 0
  key1 : BitVec 256 := 0
  phase : Bool := false
  deriving DecidableEq, Repr

/-- A die's power state (R361, R362). -/
inductive Power where
  | on | cap (n : Nat) | idle | off | halted
  deriving DecidableEq, Repr

/-- A compute die: record cache, sheaf entries and Winnow slots of its router, key tables of its
ports (256 × port + key id), last accepted counters of its ports, good lanes of its links (a port not
listed has 8), power state, spare clusters in use, torus positions whose cluster is retired and not
replaced. -/
structure Die where
  records : List Cached := []
  sheaf : List Sheaf := []
  winnow : List WSlot := []
  keys : AMap KeyEntry := []
  counters : AMap Nat := []
  lanes : AMap Nat := []
  power : Power := .on
  spares : Nat := 0
  retired : List Nat := []
  deriving DecidableEq, Repr

/-- STATE of a placement entry (R277). -/
inductive Place where
  | unplaced | placed | folded | exited
  deriving DecidableEq, Repr

/-- The state of a thread-map entry (R270). -/
inductive MapState where
  | none
  | home (slot : Fin 16)
  | away (pos : Nat) (slot : Fin 16)
  | inFlight
  | yielded
  deriving DecidableEq, Repr

/-- A thread-map entry (R270); a yielded thread's context is kept with it. -/
structure MapEntry where
  state : MapState := .none
  gen : BitVec 16 := 0
  saved : Option Slot := none
  deriving DecidableEq, Repr

/-- The descriptor of a collective job (R298), IN and OUT with the round offset added. -/
structure CollDesc where
  op : CollOp
  fmt : Nat
  count : Nat
  inn : Nat
  out : Nat
  root : Nat
  deriving DecidableEq, Repr

/-- A round that a rank has started (R290, R292): its number, the job's descriptor (none for a scalar
round), the token and value of a GST that waits to contribute, the chunks reserved (R295) and delivered, the results of the
chunk being delivered that the hart has written, the GLDs that wait for the round, as token and register (R297), the
cause and chunk at which an element of IN has stopped the rank's job and whether an element of OUT has ended its
writes (R299), the status and cause to report (R297), the result. -/
structure Round where
  n : Nat
  desc : Option CollDesc := none
  wait : Option (Nat × Word) := none
  granted : Nat := 0
  delivered : Nat := 0
  put : Nat := 0
  readers : List (Nat × Reg) := []
  stopped : Option (Nat × Nat) := none
  barred : Bool := false
  complete : Bool := false
  cancelled : Bool := false
  result : Word := 0
  status : Nat := 0
  cause : Nat := 0
  deriving DecidableEq, Repr

/-- A group register (R290).  The completion notices of the rounds below `noticed` have come. -/
structure Grp where
  bound : Bool := false
  obj : Nat := 0
  gid : Nat := 0
  op : Nat := 0
  vc : Nat := 0
  rank : Nat := 0
  nrank : Nat := 0
  wfmt : Nat := 0
  seq : BitVec 32 := 0
  rounds : List Round := []
  noticed : Nat := 0
  deriving DecidableEq, Repr

/-- A swath entry (R309) and where it is held (R308): a port store (256 × die + port), or else its spill
position; whether it awaits acknowledgement (R318); the vcores at its ends with their positions when
recorded (R323). -/
structure SwEntry where
  w : Vector Word 4
  port : Option Nat
  spill : Nat := 0
  awaiting : Bool := true
  ends : List (Nat × Nat) := []
  deriving DecidableEq, Repr

/-- A swath stream (R306).  `entries` holds the entries not dropped, by sequence. -/
structure Stream where
  isOpen : Bool := false
  rcmp : Bool := false
  busy : Bool := false
  quota : Nat := 0
  spill : Nat := 0
  gdesc : BitVec 32 := 0
  next : BitVec 32 := 0
  dlo : BitVec 32 := 0
  entries : AMap SwEntry := []
  orphan : BitVec 16 := 0
  rerouted : BitVec 16 := 0
  moved : BitVec 16 := 0
  undelivered : BitVec 16 := 0
  twinf : BitVec 16 := 0
  bad : BitVec 16 := 0
  deriving DecidableEq, Repr

/-- The status of a completed transfer (R255, R266). -/
structure XStat where
  id : Nat
  status : Nat
  cause : Nat
  bytes : Nat
  deriving DecidableEq, Repr

/-- A gang block (R140): die, x0, y0, W, H. -/
structure Block where
  die : Nat
  x0 : Nat
  y0 : Nat
  w : Nat
  h : Nat
  deriving DecidableEq, Repr

/-- A vcore: its placement entry (R277), kept ORTB and TVEC (R155), thread map (R270), channel state
(R255), group registers (R290), swath streams (R306), partner table (R286), gang identifier and block
(R140), and the scratchpad image that the loader writes when it is created (R153). -/
structure VCore where
  place : Place := .unplaced
  lock : Bool := false
  res : Nat := 0
  segb : BitVec 10 := 0
  segl : BitVec 10 := 0x3FF
  pos : Nat := 0
  ortb : Word := 0
  tvec : Word := 0
  map : Vector MapEntry 16 := Vector.replicate 16 {}
  next : Nat := 1
  done : Nat := 0
  completed : List Nat := []
  history : List XStat := []
  grp : Vector Grp 8 := Vector.replicate 8 {}
  str : Vector Stream 4 := Vector.replicate 4 {}
  partners : List (Nat × Nat) := []
  gang : Option (Nat × Block) := none
  image : List Host.Cell := []
  deriving DecidableEq, Repr

/-- A task-queue entry (R136, R137): its sixteen words, when it was accepted and when it became ready,
a yielded thread in place of a new task (R144), whether that is a movement thread that a fold has saved (R141),
whether Spahan has resubmitted the packet for the vcore that it ran on (R338), the epoch of a host graph (R345), whether it has left for another package (R142). -/
structure Packet where
  w : Vector Word 16
  accepted : Nat
  ready : Option Nat := none
  yielded : Option Tid := none
  saved : Bool := false
  again : Bool := false
  epoch : Nat := 0
  far : Bool := false
  deriving DecidableEq, Repr

/-- A packet of a host-submitted graph, kept for replay (R345): epoch, number, words, retired. -/
structure GraphPacket where
  epoch : Nat
  pid : Nat
  w : Vector Word 16
  retired : Bool := false
  deriving DecidableEq, Repr

/-- What travels in the network (R273-R284, R305, R315-R318). -/
inductive Load where
  /-- a message: continuation word, payload, sender, SENDW's token -/
  | message (dest payload : Word) (src : Tid) (wait : Option Nat)
  /-- a message on its way back (R275) -/
  | returned (dest : Word) (dst : Tid) (wait : Option Nat)
  /-- a delivery acknowledgement -/
  | delivered (dst : Tid) (wait : Option Nat)
  /-- a migrating thread and the vcore it goes to -/
  | thread (ctx : Slot) (v : Nat) (left : Nat)
  /-- a posted store and its journal entry -/
  | rst (src : Tid) (entry : Fin 16) (addr : Word) (n : Nat) (v : Word)
  /-- its acknowledgement, or refusal with a cause -/
  | rstAck (dst : Tid) (entry : Fin 16) (cause : Option Cause)
  /-- a k-list: group, key, k, format, ranks, list, offset, root die -/
  | klist (gid : Nat) (key : Word) (k fmt nrank : Nat) (list : List Word) (off : Nat) (die : Nat)
  /-- a merged list on its way from the root, to be written at an offset before the payload -/
  | winnow (dest : Word) (list : List Word) (off : Nat)
  /-- a recorded transfer (R315): sender and stream, its sequence if recorded, of an FWM its group, object,
  first index and element width, the elements, the ports at which it has left dies, the receivers still to
  write and whether one has refused -/
  | transfer (src : Tid) (s : Fin 4) (seq : Option Nat) (tree : Option Nat) (obj idx n : Nat) (elems : List Nat)
      (hops : List Nat) (left : List Nat) (refused : Bool)
  /-- its acknowledgement or return, with the hops recorded -/
  | transferAck (dst : Tid) (s : Fin 4) (seq : Option Nat) (hops : List Nat) (back : Bool)
  /-- a host-window write's acknowledgement (R187) -/
  | hostAck (dst : Tid)
  /-- the fill of a completion word whose vcore could not take it at once: its address and TS0 (R143) -/
  | fill (dest value : Word)
  deriving DecidableEq, Repr

/-- An item in the network: what it is, the core position it is routed to, the die it comes from on this
hop (R385), the owner's key id. -/
structure Item where
  load : Load
  dst : Nat
  die : Nat := 0
  key : Nat := 0
  deriving DecidableEq, Repr

/-- A rank's contribution to a chunk of a round (R296, R299): its elements, each with its poison, or the
cause if it is marked empty. -/
structure Contrib where
  rank : Nat
  chunk : Nat
  elems : List (Nat × Bool) := []
  marked : Option Nat := none
  deriving DecidableEq, Repr

/-- A round at the tree of a group (R292): its number, the contributions, the combined chunks, the ranks
that have completed it. -/
structure TreeRound where
  n : Nat
  parts : List Contrib := []
  sums : AMap (List (Nat × Bool)) := []
  complete : List Nat := []
  deriving DecidableEq, Repr

/-- A cancel on its way (R302): the round, the vcores still to cancel, the tokens of the GABTs. -/
structure Cancel where
  n : Nat
  left : List Nat
  tokens : List Nat
  deriving DecidableEq, Repr

/-- A group's tree (R294).  Every rank has completed the rounds below `fin`; `revoked` once an ORW has set RVK in a
window's record (R304). -/
structure Tree where
  rounds : List TreeRound := []
  cancels : List Cancel := []
  fin : Nat := 0
  revoked : Bool := false
  deriving DecidableEq, Repr

/-- A wait for record-cache acknowledgements (R176): the record, the caches that have not acknowledged (clusters 0-511, dies 512-519). -/
structure AckWait where
  tbase : Nat
  obj : Nat
  left : List Nat
  deriving DecidableEq, Repr

/-- An exchange or move that is under way (R288, R289). -/
inductive Exch where
  | swap (a b : Nat) (token : Option Nat)
  | move (vc : Nat) (pos : Nat) (token : Option Nat)
  | fold (vc : Nat) (base : BitVec 10) (pos : Nat) (token : Option Nat)
  deriving DecidableEq, Repr

/-- A command queue of a host port (R351): its registers, the expected sequence E, the notifies that
made slots valid (slot after the last, relaxed), a refetch under way (count, due), the report sequence
and the reports held while the ring is full (R353, R354). -/
structure HQueue where
  cbase : Word := 0
  part : BitVec 16 := 0
  clog : Nat := 4
  en : Bool := false
  tail : Nat := 0
  stalled : Bool := false
  head : Nat := 0
  rbase : Word := 0
  rlog : Nat := 4
  rhead : Nat := 0
  rtail : Nat := 0
  expected : BitVec 32 := 0
  notify : List (Nat × Bool) := []
  refetch : Option (Nat × Nat) := none
  /-- the accepted record whose command has not run: its eight words (R352) -/
  command : Option (Vector Word 8) := none
  rseq : BitVec 32 := 0
  reports : List (Vector Word 3) := []
  /-- how often the device has written the queue's MSI-X vector (R354) -/
  msix : Nat := 0
  deriving DecidableEq, Repr

/-- Boot status (R363). -/
structure Boot where
  fail : Nat := 0
  image : Nat := 0
  step : Nat := 0
  ready : Bool := false
  deriving DecidableEq, Repr

/-- The partition: number, its packages (R142, R273), the record table of its code object (R331), owner
key id (R357), the task queue (R137), the partition-wide registers (R285, R327), the progress count and
the cycle of its last change (R343), quiescence (R346), the cycle since which the watchdog is suspended (R361),
the host graphs by epoch (R345). -/
structure Part where
  num : BitVec 16 := 0
  packages : List Nat := []
  ortb : Word := 0
  key : Nat := 0
  queue : AMap Packet := []
  /-- packets dispatched and not retired, by number (R338), and the gangs that have left for another package (R140) -/
  live : AMap Packet := []
  away : List Nat := []
  codeo : Word := 0
  tedi : Word := 22
  tedg : Word := 0x10000
  tedm : Word := 2
  tedc : Word := 4
  wdog : Word := 32
  frec : Word := 0
  progress : Nat := 0
  moved : Nat := 0
  suspended : Option Nat := none
  quiet : Bool := false
  /-- a partition reset's replay is still to come (R347) -/
  rollback : Bool := false
  graphs : List GraphPacket := []
  deriving DecidableEq, Repr

/-- How the half that `exec` runs has ended so far. -/
inductive Out where
  /-- it runs to its end -/
  | done
  /-- it has taken a trap: neither half has an effect (R36) -/
  | trap
  /-- the whole bundle is held and issues again (R171, R238) -/
  | held
  /-- it has left the rotation -/
  | parked
  deriving DecidableEq, Repr

/-- The half that is running: where its thread is, the address of its bundle, the registers latched at
issue (R35), whether it is the A half, the phase it resumes in with the values it carries, how it has
ended, and whether a copy hart runs it (R267). -/
structure Cur where
  pos : Nat := 0
  slot : Fin 16 := 0
  ipc : BitVec 38 := 0
  src : Regs := {}
  isA : Bool := false
  phase : Nat := 0
  held : List Word := []
  out : Out := .done
  hart : Bool := false
  bundle : Word := 0
  deriving DecidableEq, Repr

/-- The package. -/
structure State where
  /-- TIME (R327), and in this cycle the next core position to try its waiting halves and the next to issue -/
  time : Nat := 0
  polled : Nat := 0
  turn : Nat := 0
  cur : Cur := {}
  /-- positions not listed: `{}` -/
  cores : AMap Core := []
  /-- clusters not listed: `{}` -/
  clusters : AMap Cluster := []
  /-- dies not listed: `{}` -/
  dies : AMap Die := []
  /-- vcores of the package by global identifier; one not listed is UNPLACED and has never existed -/
  vcores : AMap VCore := []
  /-- homes not listed: `{}` -/
  homes : AMap Home := []
  /-- device and host memory by host physical address (R173) -/
  mem : List Host.Cell := []
  /-- poisoned lines, by host physical address ÷ 64 (R329) -/
  poison : List Nat := []
  /-- deliveries of a line that have failed its check so far (R359) -/
  checks : AMap Nat := []
  /-- second stage: guest frame to host frame of 64 KiB (R173) -/
  stage2 : AMap Nat := []
  part : Part := {}
  /-- the partition and queue tables that Spahan loads at power-up (R363) -/
  tables : Part := {}
  /-- the supervisor cores (R15) as their firmware image starts them at power-up (R363) -/
  firmware : AMap Core := []
  /-- the key tables that the service processor loads at power-up, by die as in `Die.keys` (R357, R363), and the queue
  tables: the partition of each queue, 64 × port + queue (R351, R363) -/
  linkKeys : AMap (AMap KeyEntry) := []
  queueParts : AMap (BitVec 16) := []
  /-- the sealed cores of which a supervisor core has been notified and whose vcores it has not restarted (R337,
  R338) -/
  notified : List Nat := []
  /-- residency fill requests: TBASE, object and granule (R151, R264) -/
  fills : List (Nat × Nat × Nat) := []
  /-- the guest frames whose accesses have missed in the second stage, as reported to the hypervisor level (R173) -/
  misses : List Nat := []
  net : AMap Item := []
  /-- trees of the groups by group id -/
  trees : AMap Tree := []
  acks : AMap AckWait := []
  exchanges : List Exch := []
  /-- one more than the TIME of the last Tedder instant, 0 before the first, and how many there have been (R285, R287) -/
  instant : Nat := 0
  instants : Nat := 0
  boot : Boot := {}
  /-- command queues, 64 × port + queue -/
  queues : AMap HQueue := []
  /-- reports signed by the device's LMS key so far (R360) -/
  signed : Nat := 0
  /-- the package identifier (R26) -/
  pkg : Nat := 0
  /-- outside events that have not happened yet, the next first -/
  inputs : List Instr := []
  /-- free values read so far, and the next unused number of items, tokens and requests -/
  tick : Nat := 0
  fresh : Nat := 0
  deriving DecidableEq, Repr

/-- Power applied (R363): no firmware has run, BOOTST is 0, no vcore exists, memory lists nothing. -/
def State.reset : State := {}

end Sys2Proof.Machine
end

