-- ==== Sys2Proof/Machine/Flags.lean ====
section
/-! DEFINITION. The fields of the status and mode registers: TSW (R127, R128), RMODE (R80), TCAUSE
(R327), LSEG (R154), ORTB (R167), BANKM (R194), and what trap entry and TRET do to them (R332, R335).
The GZ-8 has no arithmetic flags (R84, R102). -/

namespace Sys2Proof.Machine

/-- The code of a cause (R329). -/
def Cause.code : Cause → Nat
  | .illegal => 0x01 | .priv => 0x02 | .align => 0x03 | .localRange => 0x04 | .outOfShape => 0x05
  | .objPerm => 0x06 | .objInvalid => 0x07 | .residency => 0x08 | .revoked => 0x09
  | .remoteRefused => 0x0A | .undeliverable => 0x0B | .format => 0x0C | .swizzleMismatch => 0x0D
  | .groupOffsets => 0x0E | .accOwner => 0x0F | .swathFull => 0x10 | .swathStale => 0x11
  | .collectiveAbort => 0x12 | .gangUnplaceable => 0x13 | .checkFail => 0x14
  | .dualMismatch => 0x15 | .watchdog => 0x16 | .syscall => 0x17 | .brk => 0x18

namespace Tsw

/-- The SLOT field. -/
def slot (w : Word) : Nat := bits w 3 0
/-- Supervisor mode. -/
def s (w : Word) : Bool := bit w 4
def ps (w : Word) : Bool := bit w 5
/-- Leading and trailing threads of a pair, helper, guest. -/
def d (w : Word) : Bool := bit w 6
def t (w : Word) : Bool := bit w 7
def h (w : Word) : Bool := bit w 8
def g (w : Word) : Bool := bit w 9
/-- The await mark of a register (R128); g0 has none. -/
def mark (w : Word) (r : Reg) : Bool := r != 0 && bit w (10 + r.val)

def setSlot (w : Word) (n : Nat) : Word := setBits w 3 0 n
def setS (w : Word) (b : Bool) : Word := setBits w 4 4 b.toNat
def setPs (w : Word) (b : Bool) : Word := setBits w 5 5 b.toNat
def setD (w : Word) (b : Bool) : Word := setBits w 6 6 b.toNat
def setT (w : Word) (b : Bool) : Word := setBits w 7 7 b.toNat
def setH (w : Word) (b : Bool) : Word := setBits w 8 8 b.toNat
def setG (w : Word) (b : Bool) : Word := setBits w 9 9 b.toNat
/-- Set or clear the await mark of a register. -/
def setMark (w : Word) (r : Reg) (b : Bool) : Word :=
  if r = 0 then w else setBits w (10 + r.val) (10 + r.val) b.toNat

/-- What SWR writes: the RW fields AWM, PS and S; the others keep their contents (R127). -/
def write (old new : Word) : Word :=
  setBits (setBits old 25 11 (bits new 25 11)) 5 4 (bits new 5 4)

/-- A value with a reserved bit set (R127). -/
def reserved (w : Word) : Bool := bits w 63 26 != 0 || bit w 10

end Tsw

/-- LSEG's BASE and LIMIT in bytes (R154). -/
def segBase (lseg : Word) : Nat := 256 * bits lseg 9 0
def segLimit (lseg : Word) : Nat := 256 * bits lseg 26 16

/-- LSEG of a BASE and a LIMIT − 1 (R154, R277). -/
def lsegOf (base : BitVec 10) (limitM1 : BitVec 10) : Word :=
  BitVec.ofNat 64 (base.toNat + (limitM1.toNat + 1) * 2 ^ 16)

/-- ORTB's TBASE as an address and LLOG (R167). -/
def tableBase (ortb : Word) : Nat := bits ortb 47 12 * 2 ^ 12
def tableLog (ortb : Word) : Nat := bits ortb 58 54

/-- The dynamic mode of RMODE (R80). -/
def rmodeOf (rmode : Word) : Mode := Mode.ofCode (bits rmode 1 0)

/-- The mode a rounding field selects (R57, R80). -/
def modeOf (r : Rnd) (rmode : Word) : Mode :=
  match r with
  | .dyn => rmodeOf rmode
  | .rne => .rne
  | .rtz => .rtz
  | .rup => .rup
  | .rdn => .rdn

/-- Trap entry (R332): TEPC, TCAUSE and TVAL are written, PS := S, S := 1, PC := TVEC.HPC. -/
def Regs.enter (r : Regs) (c : Cause) (async lost : Bool) (epc : BitVec 38) (tval : Word) : Regs :=
  { r with
    tepc := epc.setWidth 64
    tcause := BitVec.ofNat 64 (lost.toNat * 2 ^ 8 + async.toNat * 2 ^ 7 + c.code)
    tval := tval
    tsw := Tsw.setS (Tsw.setPs r.tsw (Tsw.s r.tsw)) true
    pc := BitVec.ofNat 38 (bits r.tvec 37 0) }

/-- Return from a trap (R335): S := PS, PS := 0, PC := TEPC.PC. -/
def Regs.leave (r : Regs) : Regs :=
  { r with
    tsw := Tsw.setPs (Tsw.setS r.tsw (Tsw.ps r.tsw)) false
    pc := BitVec.ofNat 38 (bits r.tepc 37 0) }

/-- Set the BANKM bit of a slice group (R194). -/
def bankSet (w : Word) (g : Nat) : Word := w ||| (1 <<< g)

/-- The slice groups that BANKM names (R194). -/
def bankGroups (w : Word) : List Nat := (List.range 64).filter fun g => bit w g

end Sys2Proof.Machine
end

