-- ==== Sys2Proof/Machine/FpFun.lean ====
section
/-! DEFINITION. The correctly rounded functions of R92.  EXP2, LOG2, TANH and SIGM are enclosed by a
fixed-point interval of 320 bits; where both ends round alike, that is Round of the exact value.  Where
they do not, the value is free (log entry 6). -/

namespace Sys2Proof.Machine

/-- The function names (R92). -/
inductive Fn where
  | exp2 | log2 | rcp | rsq | tanh | sigm
  deriving DecidableEq, Repr

/-- A number for `Config.fnValue`. -/
def Fn.num : Fn → Nat
  | .exp2 => 0 | .log2 => 1 | .rcp => 2 | .rsq => 3 | .tanh => 4 | .sigm => 5

namespace Fix

/-- One unit: 2^320. -/
def one : Nat := 2 ^ 320

/-- ln 2 × 2^320, rounded down. -/
def ln2 : Nat :=
  1480553391661173448385607439722553250922680800745876974795605978609098082859138712941075737848984

/-- How far a computed number may lie from the exact one. -/
def slack : Nat := 2 ^ 40

/-- The sum of the Taylor series of e^t from term k on, `term` being term k − 1. -/
def expSeries (t : Nat) : Nat → Nat → Nat → Nat
  | 0, _, _ => 0
  | fuel + 1, k, term =>
    let next := term * t / one / k
    next + expSeries t fuel (k + 1) next

/-- 2^f for f in [0, 1). -/
def pow2 (f : Nat) : Nat := one + expSeries (f * ln2 / one) 90 1 one

/-- The sum of z^(2k+1) ÷ (2k+1) from k on, `p` being z^(2k+1). -/
def atanhSeries (z2 : Nat) : Nat → Nat → Nat → Nat
  | 0, _, _ => 0
  | fuel + 1, k, p => p / (2 * k + 1) + atanhSeries z2 fuel (k + 1) (p * z2 / one)

/-- log2 y for y in [1, 2). -/
def log2 (y : Nat) : Nat :=
  let z := (y - one) * one / (y + one)
  2 * atanhSeries (z * z / one) 110 0 z * one / ln2

/-- A finite value as a fixed-point integer, rounded down. -/
def ofFin (m : Nat) (e : Int) : Nat :=
  if 0 ≤ e + 320 then m * 2 ^ (e + 320).toNat else m / 2 ^ (-(e + 320)).toNat

/-- e^−u for u ≥ 0. -/
def expNeg (u : Nat) : Nat :=
  let y := u * one / ln2
  let n := y / one
  let f := y % one
  if f = 0 then one / 2 ^ n else pow2 (one - f) / 2 ^ (n + 1)

end Fix

/-- The value with both ends of an interval around a fixed-point number of a sign. -/
def around (neg : Bool) (v : Nat) (scale : Int) : FVal × FVal :=
  (.fin neg (v - Fix.slack) (scale - 320), .fin neg (v + Fix.slack) (scale - 320))

/-- An interval around F(x) for finite x that is no special operand; both ends are equal where F(x) is
exact or where the one given rounds as F(x) does. -/
def Fn.interval (f : Fn) (neg : Bool) (m : Nat) (e : Int) : FVal × FVal :=
  let top : Int := e + Nat.log2 m
  match f with
  | .exp2 =>
    if decide (0 ≤ e) || (decide (-300 < e) && decide (m % 2 ^ (-e).toNat = 0)) then
      -- an integer: 2^x is exact
      let n : Nat := if 0 ≤ e then m * 2 ^ (min e 400).toNat else m / 2 ^ (-e).toNat
      let k : Int := if neg then -(min n 4000 : Nat) else (min n 4000 : Nat)
      (.fin false 1 k, .fin false 1 k)
    else if top > 10 then
      let k : Int := if neg then -4000 else 4000
      (.fin false 3 k, .fin false 3 k)
    else
      let u := Fix.ofFin m e
      let n := u / Fix.one
      let r := u % Fix.one
      if neg then around false (Fix.pow2 (Fix.one - r)) (-(n : Int) - 1)
      else around false (Fix.pow2 r) n
  | .log2 =>
    if m = 2 ^ Nat.log2 m then (.ofInt top, .ofInt top)
    else
      let y := Fix.ofFin m (e - top)
      let v : Int := top * (Fix.one : Int) + (Fix.log2 y : Int)
      around (decide (v < 0)) v.natAbs 0
  | .rcp => let q := (FVal.fin false 1 0).div (.fin neg m e); (q, q)
  | .rsq => let q := (FVal.fin false 1 0).div (FVal.fin neg m e).sqrt; (q, q)
  | .tanh =>
    if top < -60 then
      -- x − x^3/3 < tanh x < x
      (.fin neg (m * 2 ^ 110 - 1 - m) (e - 110), .fin neg (m * 2 ^ 300 - 1) (e - 300))
    else if top > 5 then
      -- 1 − 2^−100 < tanh x < 1
      (.fin neg (2 ^ 100 - 1) (-100), .fin neg (2 ^ 100 - 1) (-100))
    else
      let q := Fix.expNeg (2 * Fix.ofFin m e)
      around neg ((Fix.one - q) * Fix.one / (Fix.one + q)) 0
  | .sigm =>
    if top < -60 then
      let v : FVal := if neg then .fin false (2 ^ 99 - 1) (-100) else .fin false (2 ^ 99 + 1) (-100)
      (v, v)
    else if top > 6 then
      let v : FVal := if neg then .fin false 1 (-300) else .fin false (2 ^ 100 - 1) (-100)
      (v, v)
    else
      let q := Fix.expNeg (Fix.ofFin m e)
      around false ((if neg then q else Fix.one) * Fix.one / (Fix.one + q)) 0

/-- The special operands of R92; none where the interval decides. -/
def Fn.special (f : Fn) (x : FVal) : Option FVal :=
  match f, x with
  | _, .nan => some .nan
  | .exp2, .inf s => some (if s then .fin false 0 0 else .inf false)
  | .exp2, .fin _ 0 _ => some (.ofInt 1)
  | .log2, .inf s => some (if s then .nan else .inf false)
  | .log2, .fin _ 0 _ => some (.inf true)
  | .log2, .fin s _ _ => if s then some .nan else none
  | .rcp, .inf s => some (.fin s 0 0)
  | .rcp, .fin s 0 _ => some (.inf s)
  | .rsq, .inf s => some (if s then .nan else .fin false 0 0)
  | .rsq, .fin s 0 _ => some (.inf s)
  | .rsq, .fin s _ _ => if s then some .nan else none
  | .tanh, .inf s => some (.ofInt (if s then -1 else 1))
  | .tanh, .fin s 0 _ => some (.fin s 0 0)
  | .sigm, .inf s => some (.ofInt (if s then 0 else 1))
  | .sigm, .fin _ 0 _ => some (.fin false 1 (-1))
  | _, _ => none

/-- Round(F(x), FP32, mode) of R92, x an FP32 encoding. -/
def Fn.apply (f : Fn) (mode : Mode) (x : Nat) : Nat :=
  let v := f32.value x
  match f.special v with
  | some r => f32.round mode false r
  | none =>
    match v with
    | .fin s m e =>
      let i := f.interval s m e
      let a := f32.round mode false i.1
      if a = f32.round mode false i.2 then a
      else (Config.fnValue f.num x (match mode with | .rne => 0 | .rtz => 1 | .rup => 2 | .rdn => 3)).toNat
    | _ => f32.nanCode

/-- One FP32 step: Round of an exact value to FP32. -/
def rnd32 (mode : Mode) (v : FVal) : FVal := f32.value (f32.round mode false v)

/-- A function step in RNE on an FP32 value. -/
def fn32 (f : Fn) (v : FVal) : FVal := f32.value (f.apply .rne (f32.round .rne false v))

/-- GELU's h and its parts (R225): t1, u's tangent h. -/
def geluParts (x : FVal) : FVal × FVal :=
  let c0 := f32.value 0x3F4C422A
  let c1 := f32.value 0x3D372713
  let t1 := rnd32 .rne (x.mul x)
  let t2 := rnd32 .rne (t1.mul x)
  let t3 := rnd32 .rne ((c1.mul t2).add .rne x)
  let u := rnd32 .rne (c0.mul t3)
  (t1, fn32 .tanh u)

/-- One. -/
def fone : FVal := .fin false 1 0

/-- GELU (R225): y as an FP32 value, the last step rounded in mode. -/
def gelu (mode : Mode) (x : FVal) : FVal :=
  let a := rnd32 .rne (fone.add .rne (geluParts x).2)
  let p := rnd32 .rne (x.mul a)
  rnd32 mode ((FVal.fin false 1 (-1)).mul p)

/-- SILU (R225). -/
def silu (mode : Mode) (x : FVal) : FVal := rnd32 mode (x.mul (fn32 .sigm x))

/-- The derivative d of R226 at x. -/
def deriv (op : VDFnOp) (x : FVal) : FVal :=
  match op with
  | .drelu =>
    if x.isNan then .nan else if (FVal.ofInt 0).flt x then fone else .fin false 0 0
  | .dsigm =>
    let s := fn32 .sigm x
    rnd32 .rne (s.mul (rnd32 .rne (fone.add .rne s.neg)))
  | .dtanh =>
    let h := fn32 .tanh x
    rnd32 .rne ((h.neg.mul h).add .rne fone)
  | .dsilu =>
    let s := fn32 .sigm x
    let q := rnd32 .rne (fone.add .rne s.neg)
    let r := rnd32 .rne (x.mul q)
    rnd32 .rne (s.mul (rnd32 .rne (fone.add .rne r)))
  | .dgelu =>
    let c0 := f32.value 0x3F4C422A
    let c2 := f32.value 0x3DDB33B6
    let g := geluParts x
    let a := rnd32 .rne (fone.add .rne g.2)
    let b := rnd32 .rne ((g.2.neg.mul g.2).add .rne fone)
    let up := rnd32 .rne ((c2.mul g.1).add .rne c0)
    let v := rnd32 .rne (x.mul b)
    let w := rnd32 .rne (v.mul up)
    rnd32 .rne ((FVal.fin false 1 (-1)).mul (rnd32 .rne (a.add .rne w)))

end Sys2Proof.Machine
end

