-- ==== Sys2Proof/Machine/Quant.lean ====
section
/-! DEFINITION. Format descriptors, scale words, block quantisation and exact sums of products
(R86-R91, R236). -/

namespace Sys2Proof.Machine

/-- A format descriptor (R86). -/
structure Desc where
  w : Nat
  deriving DecidableEq, Repr

namespace Desc

/-- The descriptor in bits [31:0] of a register (R86). -/
def ofWord (w : Word) : Desc := ⟨w.toNat % 2 ^ 32⟩

def fmt (d : Desc) : Nat := d.w % 16
def skind (d : Desc) : Nat := d.w / 2 ^ 4 % 16
def lblk (d : Desc) : Nat := d.w / 2 ^ 8 % 16
def swz (d : Desc) : Nat := d.w / 2 ^ 12 % 16
def mode (d : Desc) : Mode := Mode.ofCode (d.w / 2 ^ 16)
def sat (d : Desc) : Bool := d.w / 2 ^ 18 % 2 == 1

/-- The block length L = 2^LBLK. -/
def len (d : Desc) : Nat := 2 ^ d.lblk

/-- The checks of R87. -/
def ok (d : Desc) : Bool :=
  !(decide (5 ≤ d.fmt) && decide (d.fmt ≤ 7)) && d.fmt != 0xF && decide (d.skind ≤ 4) &&
  (if d.skind = 0 then d.lblk == 0 else decide (3 ≤ d.lblk) && decide (d.lblk ≤ 12)) &&
  decide (d.swz ≤ 4) && d.w / 2 ^ 19 == 0

end Desc

/-- ScaleValue (R88). -/
def scaleValue (skind w : Nat) : FVal :=
  match skind with
  | 1 => f32.value (w % 2 ^ 32)
  | 2 => .ofE8M0 (w % 256)
  | 3 => elemValue 0xD (w % 256)
  | 4 => elemValue 0xC (w % 256)
  | _ => fone

/-- M(E): the largest finite value of a format (R90). -/
def maxValue (c : Nat) : FVal :=
  match FFmt.ofCode c with
  | some f => .fin false f.top (f.emax - f.p)
  | none => .ofInt (intRange c).2

/-- Emax(E) (R90). -/
def emaxOf (c : Nat) : Int :=
  match FFmt.ofCode c with
  | some f => f.emax
  | none => match c with
    | 0 => 6 | 1 => 7 | 2 => 14 | 3 => 30 | _ => 62

/-- Whether a value rounded at unbounded range lies outside a format's range (R90). -/
def outOfRange (c : Nat) (mode : Mode) (v : FVal) : Bool :=
  match FFmt.ofCode c with
  | some f => f.overflows mode v
  | none =>
    match v with
    | .fin s m e =>
      let n := roundInt mode s m e
      decide (n < (intRange c).1) || decide ((intRange c).2 < n)
    | .inf _ => true
    | .nan => false

/-- Whether an encoding is ±0. -/
def isZeroCode (c b : Nat) : Bool :=
  match elemValue c b with
  | .fin _ m _ => m == 0
  | _ => false

/-- The magnitude of a value. -/
def FVal.abs : FVal → FVal
  | .nan => .nan
  | .inf _ => .inf false
  | .fin _ m e => .fin false m e

/-- The greatest magnitude of a list. -/
def maxAbs (xs : List FVal) : FVal :=
  xs.foldl (fun a x => if a.flt x.abs then x.abs else a) (.fin false 0 0)

/-- The format of the scale of a SKIND: binary32, E5M2 or E4M3 (R88). -/
def scaleFmt (skind : Nat) : Nat :=
  match skind with
  | 1 => 0x9
  | 3 => 0xD
  | _ => 0xC

/-- The scale word of a packed or binary32 kind from its code and statistics (R89, R90). -/
def scaleWord (skind code bexp scnt zcnt : Nat) : Nat :=
  if skind = 1 then code
  else min zcnt 255 * 2 ^ 24 + min scnt 255 * 2 ^ 16 + bexp * 2 ^ 8 + code

/-- QuantiseBlock (R90): the codes and the scale word. -/
def quantiseBlock (d : Desc) (xs : List FVal) : List Nat × Nat :=
  let e := d.fmt
  let k := d.skind
  if xs.any (fun x => match x with | .fin _ _ _ => false | _ => true) then
    let code := match k with | 1 => 0x7FC00000 | 2 => 0xFF | 3 => 0x7E | _ => 0x7F
    (xs.map fun _ => 0, scaleWord k code 0xFF 0 xs.length)
  else
    match maxAbs xs with
    | .fin _ m ex =>
      let eb : Int := max (-127) (min 126 (ex + Nat.log2 m))
      let code : Nat :=
        if m = 0 then (match k with | 1 => 0x3F800000 | 2 => 0x7F | 3 => 0x3C | _ => 0x38)
        else if k = 2 then (max (-127) (min 127 (eb - emaxOf e)) + 127).toNat
        else roundTo (scaleFmt k) .rup true ((FVal.fin false m ex).div (maxValue e))
      let s := scaleValue k code
      let qs := xs.map fun x => x.div s
      let codes := qs.map fun q => roundTo e d.mode d.sat q
      let scnt := (qs.filter fun q => outOfRange e d.mode q).length
      let zcnt := (codes.filter fun c => isZeroCode e c).length
      (codes, scaleWord k code (if m = 0 then 0 else (eb + 128).toNat) scnt zcnt)
    | _ => ([], 0)

/-- The tensor scale t of ts6 (R91). -/
def tensorScale (ts6 : Word) : FVal :=
  rnd32 .rne ((elemValue 0xA (bits ts6 15 0)).mul (elemValue 0xA (bits ts6 31 16)))

/-- The exact sum of products; an exact zero is −0 exactly when every product is −0 (R236). -/
def exactDot : List (FVal × FVal) → FVal
  | [] => .fin false 0 0
  | (a, b) :: t => t.foldl (fun s p => s.add .rne (p.1.mul p.2)) (a.mul b)

/-- Round of a block sum times the exact scale product (R222, R237). -/
def scaledSum (mode : Mode) (e sa sb : FVal) : FVal := rnd32 mode (e.mul (sa.mul sb))

/-- The order of k-list entries (R224): does entry a come before entry b?  TotalKey of the encoding,
greatest first, then the lower index. -/
def entryBefore (c : Nat) (a b : Word) : Bool :=
  let ka := totalKeyOf c (bits a 31 0)
  let kb := totalKeyOf c (bits b 31 0)
  decide (kb < ka) || (decide (ka = kb) && decide (bits a 63 32 ≤ bits b 63 32))

/-- Insert an entry into a sorted k-list, after entries equal to it. -/
def insertEntry (c : Nat) (x : Word) : List Word → List Word
  | [] => [x]
  | y :: t => if entryBefore c y x then y :: insertEntry c x t else x :: y :: t

/-- The filler entry (R223). -/
def filler : Word := 0xFFFFFFFFFFFFFFFF

/-- The k first of the entries of two lists, those of the first before equal ones of the second
(R224). -/
def mergeLists (c k : Nat) (a b : List Word) : List Word :=
  ((a ++ b).foldl (fun l x => insertEntry c x l) []).take k

end Sys2Proof.Machine
end

