-- ==== Sys2Proof/Machine/Ops.lean ====
section
/-! DEFINITION. The named operations over the state that the meanings share: cores, slots, registers,
memory, parking and releases, full/empty words, taking a slot, taking an exception and returning. -/

namespace Sys2Proof

/-- A vector with one entry replaced. -/
def vput {α : Type} {n : Nat} (v : Vector α n) (i : Fin n) (a : α) : Vector α n :=
  v.set i.val a i.isLt

/-- The first of a list of alternatives. -/
def firstSome {α β : Type} (f : α → Option β) : List α → Option β
  | [] => none
  | a :: t => match f a with
    | some b => some b
    | none => firstSome f t

/-- The slot numbers 0 to 15. -/
def slotIds : List (Fin 16) := List.finRange 16

/-- The slot numbers 0 to 14 (R27). -/
def workIds : List (Fin 16) := (List.finRange 16).take 15

namespace Machine

/-- What an instruction answers. -/
abbrev Res := Host.Outcome State Fault Refusal

/-- The place of the copy hart of cluster k (R254). -/
def hartPos (k : Nat) : Nat := 8192 + k

/-- The position after the last core's: 4,096 cores, then eight supervisor cores for each die (R15). -/
def allCores : Nat := 4160

/-- The cluster (64 × die + torus), die, torus position and core number of a core position (R18); the supervisor
cores of die d stand together under number 512 + d, and the copy hart of cluster k, as the place from which its
accesses come (R254), is position 8192 + k. -/
def cluOf (pos : Nat) : Nat := if pos < 8192 then pos / 8 else pos - 8192
def dieOf (pos : Nat) : Nat :=
  if pos < 4096 then pos / 512 else if pos < 8192 then (pos - 4096) / 8 else (pos - 8192) / 64
def torusOf (pos : Nat) : Nat := pos / 8 % 64
def coreNum (pos : Nat) : Fin 8 := Fin.ofNat 8 pos

namespace State

/-! ### Parts of the package -/

def core (s : State) (p : Nat) : Core := (s.cores.get p).getD {}
def setCore (s : State) (p : Nat) (c : Core) : State := { s with cores := s.cores.put p c }
def updCore (s : State) (p : Nat) (f : Core → Core) : State := s.setCore p (f (s.core p))

def cluster (s : State) (k : Nat) : Cluster := (s.clusters.get k).getD {}
def updCluster (s : State) (k : Nat) (f : Cluster → Cluster) : State :=
  { s with clusters := s.clusters.put k (f (s.cluster k)) }

def die (s : State) (d : Nat) : Die := (s.dies.get d).getD {}
def updDie (s : State) (d : Nat) (f : Die → Die) : State :=
  { s with dies := s.dies.put d (f (s.die d)) }

def vcore (s : State) (v : Nat) : VCore := (s.vcores.get v).getD {}
def updVcore (s : State) (v : Nat) (f : VCore → VCore) : State :=
  { s with vcores := s.vcores.put v (f (s.vcore v)) }

def home (s : State) (h : Nat) : Home := (s.homes.get h).getD {}
def updHome (s : State) (h : Nat) (f : Home → Home) : State :=
  { s with homes := s.homes.put h (f (s.home h)) }

def tree (s : State) (g : Nat) : Tree := (s.trees.get g).getD {}
def updTree (s : State) (g : Nat) (f : Tree → Tree) : State :=
  { s with trees := s.trees.put g (f (s.tree g)) }

def queue (s : State) (q : Nat) : HQueue := (s.queues.get q).getD {}
def updQueue (s : State) (q : Nat) (f : HQueue → HQueue) : State :=
  { s with queues := s.queues.put q (f (s.queue q)) }

def updPart (s : State) (f : Part → Part) : State := { s with part := f s.part }

/-! ### Where a vcore is (R277-R279, R288) -/

/-- The home supervisor core of a vcore number (R277). -/
def homeSup (v : Nat) : Nat := 4096 + 8 * (v % 2 ^ 16 / 2 ^ 13) + v % 8

/-- Does a core hold the vcore: is it PLACED or FOLDED (R277)? -/
def isPlaced (x : VCore) : Bool := x.place == .placed || x.place == .folded

/-- The position that an item for a vcore is first routed to: its core, or its home supervisor's (R278, R279). -/
def posOf (s : State) (v : Nat) : Nat := if isPlaced (s.vcore v) then (s.vcore v).pos else homeSup v

/-- The cores of an exchange or move. -/
def exchCores (s : State) (e : Exch) : Nat × Nat :=
  match e with
  | .swap a b _ => (a, b)
  | .move v p _ => (s.posOf v, p)
  | .fold v _ p _ => (s.posOf v, p)

/-- Do a core's threads stand still for an exchange (R288 step 1)? -/
def frozen (s : State) (p : Nat) : Bool :=
  s.exchanges.any fun e => (s.exchCores e).1 == p || (s.exchCores e).2 == p

/-! ### Slots and registers -/

def slotAt (s : State) (p : Nat) (j : Fin 16) : Slot := (s.core p).slots.get j

def setSlot (s : State) (p : Nat) (j : Fin 16) (x : Slot) : State :=
  s.updCore p fun c => { c with slots := vput c.slots j x }

def updSlot (s : State) (p : Nat) (j : Fin 16) (f : Slot → Slot) : State :=
  s.setSlot p j (f (s.slotAt p j))

/-- The slot of the thread whose half is running. -/
def me (s : State) : Slot := s.slotAt s.cur.pos s.cur.slot

def updMe (s : State) (f : Slot → Slot) : State := s.updSlot s.cur.pos s.cur.slot f

def updRegs (s : State) (f : Regs → Regs) : State :=
  s.updMe fun x => { x with regs := f x.regs }

/-- A source register as it was at issue (R35); g0 reads zero (R101). -/
def g (s : State) (r : Reg) : Word := if r = 0 then 0 else s.cur.src.g.get r

end State

/-- Write a general register; g0 discards the value (R101). -/
def Regs.setG (x : Regs) (r : Reg) (w : Word) : Regs :=
  if r = 0 then x else { x with g := vput x.g r w }

namespace State

/-- Write a general register of the running thread (R101). -/
def setG (s : State) (r : Reg) (w : Word) : State := s.updRegs fun x => x.setG r w

/-- Write the PC of the running thread. -/
def setPc (s : State) (pc : BitVec 38) : State := s.updRegs fun x => { x with pc := pc }

/-- The bundle address of the running half. -/
def pc (s : State) : BitVec 38 := s.cur.ipc

/-- A shadow register of the thread (R39). -/
def ts (s : State) (n : Fin 8) : Word := s.cur.src.ts.get n

/-- Supervisor mode of the running thread (R324). -/
def sup (s : State) : Bool := Tsw.s s.cur.src.tsw

/-- The dynamic or static mode of a rounding field, with RMODE as read at issue. -/
def mode (s : State) (r : Rnd) : Mode := modeOf r s.cur.src.rmode

def out (s : State) (o : Out) : State := { s with cur := { s.cur with out := o } }

/-! ### Free values and numbers -/

/-- A number below n, free where n is above 1. -/
def pick (s : State) (n : Nat) : Nat × State :=
  if n ≤ 1 then (0, s) else (Config.choice s.tick % n, { s with tick := s.tick + 1 })

/-- A free bit. -/
def coin (s : State) : Bool × State := (Config.bit s.tick, { s with tick := s.tick + 1 })

/-- A free word. -/
def freeWord (s : State) : Word × State := (Config.word s.tick, { s with tick := s.tick + 1 })

/-- A number not used before. -/
def fresh1 (s : State) : Nat × State := (s.fresh, { s with fresh := s.fresh + 1 })

/-! ### Threads -/

/-- The map entry of a thread (R270). -/
def mapEntry (s : State) (t : Tid) : MapEntry := (s.vcore t.vc).map.get t.tnum

def setMap (s : State) (t : Tid) (m : MapEntry) : State :=
  s.updVcore t.vc fun v => { v with map := vput v.map t.tnum m }

/-- Where a thread is, by its home vcore's thread map (R274): none while it is in flight, yielded or
ended. -/
def findThread (s : State) (t : Tid) : Option (Nat × Fin 16) :=
  let m := s.mapEntry t
  if m.gen = t.gen then
    match m.state with
    | .home j => some ((s.vcore t.vc).pos, j)
    | .away p j => some (p, j)
    | _ => none
  else none

/-- The migrating thread that an item carries. -/
def migrant (x : Item) : Option Slot :=
  match x.load with
  | .thread ctx _ _ => some ctx
  | _ => none

/-- The context of a thread wherever it is: in a slot, saved, in a guest queue or on its way. -/
def context (s : State) (t : Tid) : Option Slot :=
  match s.findThread t with
  | some (p, j) => some (s.slotAt p j)
  | none =>
    let mine (x : Option Slot) : Option Slot := x.filter fun y => y.tid == t
    match mine (s.mapEntry t).saved with
    | some x => some x
    | none =>
      match firstSome (fun c : Nat × Core => c.2.guests.find? fun x => x.tid == t) s.cores with
      | some x => some x
      | none => firstSome (fun n : Nat × Item => mine (migrant n.2)) s.net

/-- Change a thread's context wherever it is. -/
def onThread (s : State) (t : Tid) (f : Slot → Slot) : State :=
  match s.findThread t with
  | some (p, j) => s.updSlot p j f
  | none =>
    let g (x : Slot) : Slot := if x.tid = t then f x else x
    match (s.mapEntry t).saved with
    | some x => s.setMap t { s.mapEntry t with saved := some (g x) }
    | none =>
      { s with
        cores := s.cores.map fun c => (c.1, { c.2 with guests := c.2.guests.map g })
        net := s.net.map fun n => (n.1, match n.2.load with
          | .thread ctx v left => { n.2 with load := .thread (g ctx) v left }
          | _ => n.2) }

/-- Every slot that holds a thread. -/
def threads (s : State) : List (Nat × Fin 16) :=
  s.cores.flatMap fun pc => (slotIds.filter fun j => (pc.2.slots.get j).busy).map fun j => (pc.1, j)

/-- A slot emptied: the registers that a slot holds keep their contents (R326). -/
def emptied (x : Slot) : Slot := { regs := x.regs }

/-- A slot that its thread has left for good, or on a migration, or a helper: a request that no movement thread has
taken yet stays full for the vcore (R141, R257). -/
def vacated (x : Slot) : Slot := { regs := x.regs, request := x.request, passed := x.passed, asked := x.asked }

/-- Empty the helpers of the thread in a slot (R152). -/
def endHelpers (s : State) (p : Nat) (j : Fin 16) : State :=
  s.updCore p fun c =>
    { c with slots := c.slots.map fun x => if x.busy && x.life == .helper j then vacated x else x }

/-- The lowest empty slot among 0 to 14. -/
def lowestEmpty (c : Core) : Option (Fin 16) := workIds.find? fun j => !(c.slots.get j).busy

/-- The highest slot among 0 to 14 that holds a helper (R139). -/
def highestHelper (c : Core) : Option (Fin 16) :=
  workIds.reverse.find? fun j =>
    (c.slots.get j).busy && (match (c.slots.get j).life with | .helper _ => true | _ => false)

/-- Does a DUAL.ON of the core wait for a slot, which it takes before any guest or packet (R341)? -/
def dualWaits (c : Core) : Bool :=
  !(slotIds.any fun j => (c.slots.get j).pair.isSome) &&
    slotIds.any fun j => match (c.slots.get j).pendC with
      | some q => q.ins == .dualOn && q.wait == .poll && q.phase == 1
      | none => false

/-- An empty slot for a guest or a packet: the lowest, or the highest helper's, which ends (R139). -/
def reclaim (s : State) (p : Nat) : Option (Fin 16 × State) :=
  if dualWaits (s.core p) then none else
  match lowestEmpty (s.core p) with
  | some j => some (j, s)
  | none =>
    match highestHelper (s.core p) with
    | some j => some (j, s.updSlot p j vacated)
    | none => none

/-- LSEG of a vcore's kept segment (R155, R277). -/
def keptSeg (s : State) (v : Nat) : Word := lsegOf (s.vcore v).segb (s.vcore v).segl

/-- A thread takes a slot at core p to occupy vcore v (R155, R80, R208, R257, R307): `own` when it
comes by dispatch, by its own migration or by HOME; otherwise it brings the registers of its slot.  BANKM, which
only a release or a migration clears, goes with it (R194). -/
def takeSlot (s : State) (p : Nat) (j : Fin 16) (ctx : Slot) (v : Nat) (own : Bool) : State :=
  let old := (s.slotAt p j).regs
  let guest := v != ctx.tid.vc
  let fix (r : Regs) : Regs :=
    { r with
      tsw := Tsw.setG (Tsw.setSlot r.tsw j.val) guest
      tvec := (s.vcore v).tvec, lseg := s.keptSeg v, ortb := (s.vcore v).ortb }
  let here (r : Regs) : Regs :=
    if own then
      { fix r with
        tepc := old.tepc, tcause := old.tcause, tval := old.tval, tscr := old.tscr
        vl := 32, rmode := 0, swq := 2048 }
    else { fix r with swq := 2048 }
  let x : Slot :=
    { ctx with
      busy := true, regs := here ctx.regs, latch := fix ctx.latch, undo := ctx.undo.map fun u => (here u.1, u.2)
      occ := v, ready := max ctx.ready (s.time + 1)
      request := if own then none else ctx.request
      reply := if own then none else ctx.reply
      passed := if own then 0 else ctx.passed
      fetch := none, absent := false, want := none, fetched := [] }
  (s.setSlot p j x).setMap ctx.tid
    { s.mapEntry ctx.tid with state := if guest then .away p j else .home j, saved := none }

/-- The heads of the guest queue take empty slots, as far as there are any (R27, R139); none while an exchange holds the
core (R288). -/
def guestLoop (s : State) (p : Nat) : Nat → State
  | 0 => s
  | n + 1 =>
    match (s.core p).guests with
    | [] => s
    | ctx :: rest =>
      if s.frozen p then s
      else match s.reclaim p with
      | some (j, s1) => guestLoop ((s1.updCore p fun c => { c with guests := rest }).takeSlot p j ctx ctx.occ true) p n
      | none => s

/-- The guest queue settles: a guest that has yielded takes a slot as a new arrival does (log entry 76). -/
def guestSettle (s : State) (p : Nat) : State := s.guestLoop p 16

/-- The thread leaves its slot with its mailbox words: its helpers end and a waiting guest may take the slot. -/
def freeSlot (s : State) (p : Nat) (j : Fin 16) : State :=
  ((s.endHelpers p j).updSlot p j emptied).guestSettle p

/-- The thread leaves its slot, and a request that has not been taken stays there (R257). -/
def leaveSlot (s : State) (p : Nat) (j : Fin 16) : State :=
  ((s.endHelpers p j).updSlot p j vacated).guestSettle p

/-! ### Taking an exception, and returning -/

/-- Is the report ring full (R354)? -/
def ringFull (x : HQueue) : Bool := (x.rtail + 1) % 2 ^ x.rlog == x.rhead % 2 ^ x.rlog

/-- Write the reports that a queue holds while its ring has room, each with the TIME of its writing,
then RTAIL, then the MSI-X vector (R354). -/
def flushReports (s : State) (q : Nat) : Nat → State
  | 0 => s
  | n + 1 =>
    let x := s.queue q
    match x.reports with
    | [] => s
    | r :: rest =>
      if ringFull x then s
      else
        let a := 2 ^ 47 + (bits x.rbase 46 6 * 64 + 32 * x.rtail) % 2 ^ 47
        let bs := (toBytes 8 (r.get 0).toNat ++ toBytes 8 (r.get 1).toNat ++ toBytes 8 (r.get 2).toNat ++
          toBytes 8 s.time)
        let t := { s with mem := Memory.writeN s.mem a bs }
        flushReports (t.updQueue q fun x =>
          { x with reports := rest, rtail := (x.rtail + 1) % 2 ^ x.rlog, msix := x.msix + 1 }) q n

/-- A report for a queue: KIND, CODE, vcore, VALUE (R354).  A queue holds at most 64 (log entry 14). -/
def reportTo (s : State) (q : Nat) (kind code vc : Nat) (value : Word) : State :=
  let x := s.queue q
  if 64 ≤ x.reports.length then s
  else
    let n := x.rseq + 1
    let r : Vector Word 3 :=
      #v[BitVec.ofNat 64 (n.toNat * 2 ^ 32 + kind * 2 ^ 24 + code * 2 ^ 16), BitVec.ofNat 64 vc, value]
    (s.updQueue q fun x => { x with rseq := n, reports := x.reports ++ [r] }).flushReports q 65

/-- The enabled queues of the partition (R354). -/
def partQueues (s : State) : List Nat :=
  (s.queues.filter fun q => q.2.en && q.2.part == s.part.num).map (·.1)

/-- Report to every enabled queue of the partition. -/
def reportPart (s : State) (kind code vc : Nat) (value : Word) : State :=
  s.partQueues.foldl (fun t q => t.reportTo q kind code vc value) s

/-- Report that a task of a vcore has ended without TDONE (R336, R354); its VALUE is not stated. -/
def reportTask (s : State) (code vc : Nat) : State :=
  let w := s.freeWord
  w.2.reportPart 2 code vc w.1

/-- End a thread without TDONE (R336): its slot, its helpers and its trailing copy are freed, its map entry
returns to NONE, its completion word is not filled, and the end is reported with a code. -/
def endTask (s : State) (p : Nat) (j : Fin 16) (code : Nat) : State :=
  let x := s.slotAt p j
  let t := match x.pair with
    | some k => s.updSlot p k vacated
    | none => s
  (((t.leaveSlot p j).setMap x.tid { s.mapEntry x.tid with state := .none, saved := none }).updPart fun q =>
    { q with live := q.live.del x.pid }).reportTask code x.tid.vc

end State

namespace Rec

/-! ### Fields of an object record (R168) -/

def v (r : Rec) : Bool := bit (r.get 0) 63
def fmt (r : Rec) : Nat := bits (r.get 0) 59 56
/-- k, the rank. -/
def rank (r : Rec) : Nat := bits (r.get 0) 55 54 + 1
def tiled (r : Rec) : Bool := bit (r.get 0) 52
def swz (r : Rec) : Nat := bits (r.get 0) 50 48
def base (r : Rec) : Nat := bits (r.get 0) 47 0
def dim (r : Rec) (d : Nat) : Nat :=
  match d with
  | 0 => bits (r.get 1) 31 0
  | 1 => bits (r.get 1) 63 32
  | 2 => bits (r.get 2) 31 0
  | _ => bits (r.get 2) 63 32
def str (r : Rec) (d : Nat) : Nat :=
  match d with
  | 0 => bits (r.get 3) 31 0
  | 1 => bits (r.get 3) 63 32
  | 2 => bits (r.get 4) 31 0
  | _ => bits (r.get 4) 63 32
def twin (r : Rec) : Nat := bits (r.get 5) 63 40
def group (r : Rec) : Nat := bits (r.get 5) 39 24
def okey (r : Rec) : Nat := bits (r.get 5) 23 16
def gran (r : Rec) : Nat := bits (r.get 5) 15 12
def rvk (r : Rec) : Bool := bit (r.get 5) 7
def aff (r : Rec) : Bool := bit (r.get 5) 6
def rec1 (r : Rec) : Bool := bit (r.get 5) 5
def multi (r : Rec) : Bool := bit (r.get 5) 4
def permA (r : Rec) : Bool := bit (r.get 5) 3
def permX (r : Rec) : Bool := bit (r.get 5) 2
def permW (r : Rec) : Bool := bit (r.get 5) 1
def permR (r : Rec) : Bool := bit (r.get 5) 0
def affv (r : Rec) : Nat := bits (r.get 6) 63 48
def rmap (r : Rec) : Nat := bits (r.get 6) 47 0
def moving (r : Rec) : Bool := bit (r.get 7) 63
def wmark (r : Rec) : Nat := bits (r.get 7) 55 32
def oldb (r : Rec) : Nat := bits (r.get 7) 31 0

/-- The old base during a move (R177). -/
def oldBase (r : Rec) : Nat := r.oldb * 2 ^ 16 + r.base % 2 ^ 16

/-- P, the product of the extents (R169). -/
def count (r : Rec) : Nat := ((List.range r.rank).map r.dim).foldl (· * ·) 1

/-- An element's width in half-bytes (R75; E2M1 one). -/
def nibbles (r : Rec) : Nat := fmtBits r.fmt / 4

/-- A valid record (R169). -/
def ok (r : Rec) : Bool :=
  r.v && bits (r.get 0) 62 60 == 0 && !bit (r.get 0) 53 && !bit (r.get 0) 51 &&
  bits (r.get 5) 11 8 == 0 && bits (r.get 7) 62 56 == 0 &&
  !(decide (5 ≤ r.fmt) && decide (r.fmt ≤ 7)) && r.fmt != 0xF && decide (r.count < 2 ^ 40) &&
  ((List.range 4).all fun d => decide (d < r.rank) || (r.dim d == 0 && r.str d == 0)) &&
  (if r.tiled then decide (2 ≤ r.rank) && decide (r.swz ≤ 4) && r.base % 1024 == 0
   else r.swz == 0 && r.base % fmtBytes r.fmt == 0) &&
  decide (r.gran ≤ 8) && (r.moving || (r.wmark == 0 && r.oldb == 0))

/-- The coordinates of an element index, outermost first (R172). -/
def coords (r : Rec) (i : Nat) : List Nat :=
  ((List.range r.rank).reverse.foldl
    (fun (acc : Nat × List Nat) d => (acc.1 / r.dim d, acc.1 % r.dim d :: acc.2)) (i, [])).2

/-- The tile number of an element in tile order (R172). -/
def tileOf (r : Rec) (i : Nat) : Nat :=
  let x := r.coords i
  let k := r.rank
  let e := 128 / r.nibbles
  let across := (r.dim (k - 1) + e - 1) / e
  (List.range (k - 2)).foldl (fun t d => t + x.getD d 0 * r.str d)
    (x.getD (k - 2) 0 / 16 * across + x.getD (k - 1) 0 / e)

/-- The offset of element i in half-bytes (R172). -/
def offset (r : Rec) (i : Nat) : Nat :=
  let x := r.coords i
  if r.tiled then
    let k := r.rank
    let e := 128 / r.nibbles
    let row := x.getD (k - 2) 0
    let rr := row % 16
    let cb := x.getD (k - 1) 0 % e * r.nibbles
    let sw := if r.swz = 0 then 0 else rr / 2 ^ (r.swz - 1) % 4
    2048 * r.tileOf i + 128 * rr + 32 * (cb / 32 ^^^ sw) + cb % 32
  else
    r.nibbles * (List.range r.rank).foldl (fun t d => t + x.getD d 0 * r.str d) 0

/-- The granule of an offset in half-bytes (R172). -/
def granule (r : Rec) (off : Nat) : Nat := off / 2 / 2 ^ (16 + r.gran)

end Rec

namespace State

/-! ### Memory -/

/-- A host physical address that exists (R173, R355). -/
def hpaOk (a : Nat) : Bool :=
  decide (a < 2 ^ 48) &&
    (a / 2 ^ 47 == 1 || (a / 2 ^ 43 == 0 && decide (a % 2 ^ 40 < 80000000000)))

/-- The home of a host physical address (R173, R187). -/
def homeOf (a : Nat) : Nat :=
  if a / 2 ^ 47 % 2 = 1 then 1536 + a / 2 ^ 12 % 2
  else 192 * (a / 2 ^ 40 % 8) + 3 * (a / 2 ^ 16 % 64) + a / 2 ^ 6 % 1024 % 3

/-- The host window (R355). -/
def inWindow (a : Nat) : Bool := a / 2 ^ 47 % 2 == 1

/-- The die of a device address. -/
def dieOfAddr (a : Nat) : Nat := a / 2 ^ 40 % 8

/-! ### Links between dies (R384, R385) -/

/-- The port of die d toward die e. -/
def portTo (d e : Nat) : Nat := 0xE4 + (if e < d then e else e - 1)

/-- The die behind a die-to-die port of die d. -/
def dieBehind (d port : Nat) : Option Nat :=
  if 0xE4 ≤ port && decide (port ≤ 0xEA) then
    some (if port - 0xE4 < d then port - 0xE4 else port - 0xE4 + 1) else none

/-- Is the link between two dies up? -/
def linkUp (s : State) (d e : Nat) : Bool :=
  ((s.die d).lanes.get (portTo d e)).getD 8 != 0 && ((s.die e).lanes.get (portTo e d)).getD 8 != 0

/-- The ports at which an item leaves dies on its way from die d to die e, and whether it takes an
alternate route; none while it waits for a link (R385). -/
def crossing (s : State) (d e : Nat) : Option (List Nat × Bool) :=
  if d = e then some ([], false)
  else if s.linkUp d e then some ([portTo d e], false)
  else
    match (List.range 8).find? fun m => m != d && m != e && s.linkUp d m && s.linkUp m e with
    | some m => some ([portTo d m, portTo m e], true)
    | none => none

/-- Does what goes from die d to die e find a way, its own link or an alternate route (R385)? -/
def joined (s : State) (d e : Nat) : Bool := (s.crossing d e).isSome

/-- Do the clocks of a die run (R361, R362)?  After a failed power-up the dies are held in reset (R363). -/
def dieRuns (s : State) (d : Nat) : Bool :=
  s.boot.fail == 0 &&
  match (s.die d).power with
  | .on | .cap _ => true
  | _ => false

/-- Does traffic between a core and an address find a way, to a die that runs (R361)?  The host window's ports are
no such links (R384). -/
def reaches (s : State) (p hpa : Nat) : Bool :=
  inWindow hpa || (s.joined (dieOf p) (dieOfAddr hpa) && s.dieRuns (dieOfAddr hpa))

/-- The host physical address of a guest physical address (R173); none is a second-stage miss. -/
def hpaOf (s : State) (gpa : Nat) : Option Nat :=
  match s.stage2.get (gpa / 2 ^ 16) with
  | some f => some (f * 2 ^ 16 + gpa % 2 ^ 16)
  | none => none

/-- Do two byte ranges meet? -/
def overlap (a n b m : Nat) : Bool := decide (a < b + m) && decide (b < a + n)

/-- Sat of an exact sum to n bytes (R192). -/
def satTo (n : Nat) (e : Int) : Int := max (-(2 : Int) ^ (8 * n - 1)) (min (2 ^ (8 * n - 1) - 1) e)

/-- Close the saturation accumulators of a home that meet a byte range, delivering them (R192). -/
def closeSatAt (s : State) (h a n : Nat) : State :=
  let hit := (s.home h).sat.filter fun x => overlap x.1 x.2.1 a n
  if hit.isEmpty then s
  else
    let s1 := s.updHome h fun x => { x with sat := x.sat.filter fun y => !overlap y.1 y.2.1 a n }
    hit.foldl (fun t x =>
      { t with mem := Memory.writeN t.mem x.1 (toBytes x.2.1 (wrapInt (8 * x.2.1) (satTo x.2.1 x.2.2))) }) s1

/-- Close the accumulators that meet a byte range, at every home of its lines. -/
def closeSat (s : State) (a n : Nat) : State :=
  (List.range ((a % 64 + n + 63) / 64)).foldl (fun t i => t.closeSatAt (homeOf (a + 64 * i)) a n) s

/-- Read n bytes at their home, which delivers open accumulators (R185, R192). -/
def memRead (s : State) (a n : Nat) : List Byte × State :=
  let t := s.closeSat a n
  (Memory.readN t.mem a n, t)

/-- Write bytes at their home; a store that overwrites a whole poisoned line clears its poison (R359). -/
def memWrite (s : State) (a : Nat) (bs : List Byte) : State :=
  let t := s.closeSat a bs.length
  { t with
    mem := Memory.writeN t.mem a bs
    poison := t.poison.filter fun l => !(decide (a ≤ 64 * l) && decide (64 * l + 64 ≤ a + bs.length)) }

/-- Does a byte range meet a poisoned line? -/
def poisoned (s : State) (a n : Nat) : Bool := s.poison.any fun l => overlap (64 * l) 64 a n

/-- Memory as a read of n bytes finds it: open accumulators that meet them are delivered first (R192). -/
def memSeen (s : State) (a n : Nat) : List Host.Cell := (s.closeSat a n).mem

/-- A doubleword of guest memory; none on a second-stage miss. -/
def gword (s : State) (gpa : Nat) : Option Word :=
  (s.hpaOf gpa).map fun a => BitVec.ofNat 64 (ofBytes (Memory.readN (s.memSeen a 8) a 8))

/-- The record of an object at its home (R167); none on a second-stage miss. -/
def recordAt (s : State) (tbase obj : Nat) : Option Rec :=
  (s.hpaOf (tbase + 64 * obj)).map fun a =>
    Vector.ofFn fun i : Fin 8 => BitVec.ofNat 64 (ofBytes (Memory.readN (s.memSeen a 64) (a + 8 * i.val) 8))

/-- A record has been read at its home: the accumulators that meet it are closed (R192). -/
def recordRead (s : State) (tbase obj : Nat) : State :=
  match s.hpaOf (tbase + 64 * obj) with
  | some a => s.closeSat a 64
  | none => s

/-- The residency byte of a granule (R174); none on a second-stage miss. -/
def rmapByte (s : State) (r : Rec) (j : Nat) : Option Byte :=
  (s.hpaOf (r.rmap + j)).map fun a => Memory.read (s.memSeen a 1) a

/-- A residency byte has been read at its home (R192). -/
def rmapRead (s : State) (r : Rec) (j : Nat) : State :=
  match s.hpaOf (r.rmap + j) with
  | some a => s.closeSat a 1
  | none => s

/-- Is a granule resident (R174)? -/
def resident (s : State) (r : Rec) (j : Nat) : Bool :=
  match s.rmapByte r j with
  | some b => decide (128 ≤ b.toNat)
  | none => false

/-! ### Instruction fetch tests (R331) -/

/-- What fetching the bundle at a PC finds. -/
inductive Fetch where
  | fault (c : Cause)
  | wait
  | bytes (a : Nat)
  deriving DecidableEq, Repr

/-- The fetch tests on the code object's record, then residency (R331).  The last alternative holds the
host address of the bundle. -/
def fetchAt (s : State) (pc : BitVec 38) : Fetch :=
  let obj := bits s.part.codeo 23 0
  if obj == 0 || decide (2 ^ tableLog s.part.ortb ≤ obj) then .fault .objInvalid
  else
  match s.recordAt (tableBase s.part.ortb) obj with
  | none => .wait
  | some r =>
    if !r.ok then .fault .objInvalid
    else if r.rvk then .fault .revoked
    else if !r.permX then .fault .objPerm
    else if decide (r.dim 0 ≤ pc.toNat + 7) then .fault .outOfShape
    else
      let off := r.offset pc.toNat / 2
      let j := r.granule (r.offset pc.toNat)
      let base := if r.moving && decide (r.wmark < j) then r.oldBase else r.base
      if !s.resident r j || (r.moving && r.wmark == j) then .wait
      else
        match s.hpaOf (base + off) with
        | none => .wait
        | some a => if s.poisoned a 8 then .fault .checkFail else .bytes a

/-- The registers and BOUNCE with which a thread enters its handler: a trap that its bundle takes after issue gives
back what the bundle has written (R36), unless they are kept. -/
def entryRegs (x : Slot) (keep : Bool) : Regs × Reg :=
  if keep then (x.regs, x.bounce) else x.undo.getD (x.regs, x.bounce)

/-- Does a trap leave what the bundle has written: an asynchronous one (R333), or the limit failure of a C half after
its migration, which leaves the A half's result (R157)? -/
def keepsRegs (s : State) (c : Cause) (async : Bool) : Bool := async || (c == .localRange && !s.cur.isA)

/-- Has the bundle that is out handed an instruction of this token to a unit (R36)? -/
def ofBundle (x : Slot) (token : Nat) : Bool := x.undo.isSome && decide (x.issued ≤ token)

/-- A trap that a bundle takes after issue drops what its other half has handed to the vector unit or the job queue and
the unit has not begun; the entries it reserved are free again (R36), and an ASTAT that waits for such a job waits for it no
longer (R251). -/
def dropHalves (s : State) (p : Nat) (j : Fin 16) : State :=
  let x := s.slotAt p j
  if x.undo.isNone then s
  else
    s.updCore p fun c =>
      let out := c.jobs.filter fun m => m.slot == j && m.occ == x.occ && ofBundle x m.token
      let freed (q : Pend) : Pend := match q.ins, q.phase with
        | .astat _ _, 1 => { q with held := q.held.filter fun w => !out.any fun m => m.token == w.toNat }
        | _, _ => q
      { c with
        vector := c.vector.filter fun v => !(v.slot == j && v.grp == 0 && v.done == 0 && ofBundle x v.token)
        jobs := c.jobs.filter fun m => !(m.slot == j && m.occ == x.occ && ofBundle x m.token)
        slots := c.slots.map fun y => { y with pendA := y.pendA.map freed }
        resA := c.resA - (out.map (·.needA)).sum, resB := c.resB - (out.map (·.needB)).sum }

/-- Trap entry in a slot (R332): the handler is entered, after the other half of the bundle where TRET takes an event
(R52); where the fetch at TVEC.HPC faults, the task
ends with HANDLER_FAULT; in a helper any trap ends the helper (R151). -/
def enterTrap (s : State) (p : Nat) (j : Fin 16) (c : Cause) (async : Bool) (epc : BitVec 38)
    (tval : Word) : State :=
  let x := s.slotAt p j
  match x.life with
  | .helper _ => s.updSlot p j vacated
  | _ =>
    let b := entryRegs x (s.keepsRegs c async)
    let t := (if async then s else s.dropHalves p j).updSlot p j fun x =>
      { x with
        regs := b.1.enter c async (async && x.lost) epc tval, bounce := b.2
        lost := x.lost && !async
        pendC := if async then x.pendC else none, pendA := if async then x.pendA else none
        undo := none, ready := if async then max x.ready (s.time + 1) else s.time + 1 }
    match s.fetchAt (BitVec.ofNat 38 (bits b.1.tvec 37 0)) with
    | .fault _ => t.endTask p j 3
    | _ => t

/-- Trap of the running half (R332): TEPC is its bundle's address. -/
def trap (s : State) (c : Cause) (tval : Word) : State :=
  (s.enterTrap s.cur.pos s.cur.slot c false s.cur.ipc tval).out .trap

/-- The whole bundle is held: neither half has an effect and it issues again (R171, R238). -/
def hold (s : State) : State := s.out .held

/-- Queue an asynchronous event for a thread; a full queue discards it (R333).  An event ends an AWAIT,
whose bundle then issues again as a whole: what its A half has written stays, and the A half runs again, which is the
model's choice (log entry 96). -/
def withEvent (now : Nat) (c : Cause) (tval : Word) (x : Slot) : Slot :=
  let y := if x.events.length < 4 then { x with events := x.events ++ [⟨c, tval⟩] }
           else { x with lost := true }
  match y.pendC with
  | some q =>
    match q.wait with
    | .await _ =>
      if Tsw.s y.regs.tsw then y
      else { y with pendC := none, regs := { y.regs with pc := y.ipc }, ready := max y.ready (now + 1) }
    | _ => y
  | none => y

/-- Queue an asynchronous event for the thread in a slot. -/
def postEvent (s : State) (p : Nat) (j : Fin 16) (c : Cause) (tval : Word) : State :=
  s.updSlot p j (withEvent s.time c tval)

/-! ### Leaving the rotation -/

/-- The running half leaves the rotation with what it latched and carries (R52, R123). -/
def park (s : State) (ins : Instr) (phase : Nat) (held : List Word) (w : Wait) : State :=
  let q : Pend := ⟨ins, phase, held, w⟩
  (s.updMe fun x =>
    let y := { x with latch := s.cur.src, ipc := s.cur.ipc, bundle := s.cur.bundle }
    if s.cur.isA then { y with pendA := some q } else { y with pendC := some q }).out .parked

/-- The half of a thread that waits for a token: whether it is the A half. -/
def waitsToken (x : Slot) (k : Nat) : Option Bool :=
  let isFor (q : Option Pend) : Bool :=
    match q with
    | some p => p.wait == .token k
    | none => false
  if isFor x.pendC then some false else if isFor x.pendA then some true else none

/-- The slot whose thread waits for a token. -/
def findToken (s : State) (k : Nat) : Option (Nat × Fin 16 × Bool) :=
  firstSome (fun pj : Nat × Fin 16 => (waitsToken (s.slotAt pj.1 pj.2) k).map fun a => (pj.1, pj.2, a)) s.threads

/-- The saved movement thread that waits for a token (R141). -/
def findSaved (s : State) (k : Nat) : Option (Tid × Slot × Bool) :=
  firstSome (fun v : Nat × VCore =>
    firstSome (fun j : Fin 16 =>
      match (v.2.map.get j).saved with
      | some x => (waitsToken x k).map fun a => (x.tid, x, a)
      | none => none) slotIds) s.vcores

/-- A thread's half has completed: the thread returns by R124, and not before another bound that it has (R52). -/
def endSlotHalf (now : Nat) (isA : Bool) (x : Slot) : Slot :=
  let y := { x with ready := max x.ready (now + 1) }
  if isA then { y with pendA := none } else { y with pendC := none }

/-- The threads of a core go on after an event that is no turn of theirs: they issue from the next cycle on (R124). -/
def goOn (s : State) (p : Nat) : State :=
  s.updCore p fun c => { c with slots := c.slots.map fun x =>
    if x.busy then { x with ready := max x.ready (s.time + 1) } else x }

/-- The half of the thread in a slot has completed. -/
def endHalf (s : State) (p : Nat) (j : Fin 16) (isA : Bool) : State := s.updSlot p j (endSlotHalf s.time isA)

/-- What becomes of the half that waits for a token, in its slot or in a saved context. -/
def onToken (s : State) (k : Nat) (f : Bool → Slot → Slot) : State :=
  match s.findToken k with
  | some (p, j, isA) => s.updSlot p j (f isA)
  | none =>
    match s.findSaved k with
    | some (t, x, isA) => s.setMap t { s.mapEntry t with saved := some (f isA x) }
    | none => s

/-- The wait for a token ends; the thread's registers take a result. -/
def endToken (s : State) (k : Nat) (f : Regs → Regs) : State :=
  s.onToken k fun isA x => let y := endSlotHalf s.time isA x; { y with regs := f y.regs }

/-- The wait for a token ends and the half is tried again in the thread's cycles. -/
def pollToken (s : State) (k : Nat) : State :=
  s.onToken k fun isA x =>
    let f (q : Option Pend) : Option Pend := q.map fun p => { p with wait := .poll }
    if isA then { x with pendA := f x.pendA } else { x with pendC := f x.pendC }

/-! ### The store buffer and releases -/

/-- The host addresses at which a request may be performed: during a move, those of both bases (R177). -/
def reqPlaces (s : State) (r : Req) : List Nat :=
  match r.moving with
  | none => [r.hpa]
  | some (_, off, _) =>
    match s.recordAt r.key.1 r.key.2 with
    | some x => [x.base + off, x.oldBase + off].filterMap s.hpaOf
    | none => [r.hpa]

/-- Is a request's element homed on a core's own die (R193, R205)? -/
def reqHere (s : State) (p : Nat) (r : Req) : Bool :=
  (s.reqPlaces r).any fun a => !inWindow a && dieOfAddr a == dieOf p

/-- Is a buffer entry homed on the core's own die (R193, R206)?  The host window and a posted store are not. -/
def entryHere (s : State) (p : Nat) (e : SbEntry) : Bool :=
  match e.op with
  | .scratch _ _ => true
  | .obj r => s.reqHere p r
  | .rst _ _ _ _ => false

/-- The buffer entries that a release of a scope covers (R193, R195). -/
def covered (s : State) (p : Nat) (sc : Scope) : List Nat :=
  match sc with
  | .core => []
  | .clus | .die => ((s.core p).buffer.filter (s.entryHere p)).map (·.id)
  | .dev | .sys => (s.core p).buffer.map (·.id)

/-- The probes that a release of a scope sends, as 64 × die + slice group (R195). -/
def probes (p : Nat) (sc : Scope) (bankm : Word) : List Nat :=
  match sc with
  | .core => []
  | .clus | .die => (bankGroups bankm).map fun g => 64 * dieOf p + g
  | .dev | .sys => (List.range 8).flatMap fun d => (bankGroups bankm).map fun g => 64 * d + g

/-- Has every message, transfer, window write and posted store of the thread been acknowledged? -/
def allAcked (x : Slot) : Bool :=
  x.unacked.isEmpty && x.journal.toList.all fun e => match e with
    | some j => j.cause.isSome
    | none => true

/-- Is a release over for the thread in a slot? -/
def releaseOver (s : State) (p : Nat) (j : Fin 16) (entries prs : List Nat) (sys : Bool) : Bool :=
  (entries.all fun i => !((s.core p).buffer.any fun e => e.id == i)) && prs.isEmpty &&
    (!sys || allAcked (s.slotAt p j))

/-- What a completed release of a scope leaves: BANKM is cleared at device and system scope (R194), in the registers from
before the bundle too. -/
def released (s : State) (sc : Scope) : State :=
  match sc with
  | .dev | .sys => s.updMe fun x =>
    { x with regs := { x.regs with bankm := 0 }, undo := x.undo.map fun u => ({ u.1 with bankm := 0 }, u.2) }
  | _ => s

/-- Release(sc), then `k`: at once where nothing is waited for, else in `next` of the instruction
(R195). -/
def release (s : State) (sc : Scope) (ins : Instr) (next : Nat) (held : List Word)
    (k : State → State) : State :=
  let es := s.covered s.cur.pos sc
  let ps := probes s.cur.pos sc s.me.regs.bankm
  if s.releaseOver s.cur.pos s.cur.slot es ps (sc == .sys) then k (s.released sc)
  else s.park ins next held (.release es ps (sc == .sys))

/-- Leave for vcore v (R157): in slot 15, in supervisor mode or in a redundant pair the access traps
LOCAL_RANGE instead (R259, R324, R342), and to another package it traps UNDELIVERABLE (R280); a helper ends
(R151).  The half resumes in `phase` at v.  The implied release waits for the entries of every thread in the buffer, some of
which the thread may have observed (R195, R198, log entry 107). -/
def migrate (s : State) (ins : Instr) (phase : Nat) (held : List Word) (v : Nat) (tval : Word) : State :=
  let x := s.me
  if s.cur.slot = 15 || s.sup || x.pair.isSome then s.trap .localRange tval
  else if v / 2 ^ 16 ≠ s.pkg then s.trap .undeliverable (BitVec.ofNat 64 v)
  else
    match x.life with
    | .helper _ => s.trap .localRange tval
    | _ =>
      let es := s.covered s.cur.pos .dev
      s.park ins phase held (.depart es (probes s.cur.pos .dev x.regs.bankm) v)

/-! ### The vector unit's timing (R214) -/

end State

/-- R of R214: elements per unit cycle, by width. -/
def laneRate (bytes : Nat) : Nat := if bytes ≤ 2 then 64 else if bytes = 4 then 32 else 16

/-- ceil(a ÷ b). -/
def ceilDiv (a b : Nat) : Nat := (a + b - 1) / b

/-- The width of the format that a descriptor in a shadow register names. -/
def tsWidth (r : Regs) (n : Fin 8) : Nat := fmtBytes (Desc.ofWord (r.ts.get n)).fmt

/-- c of R214: of two formats the wider sets R. -/
def vcycles (i : Instr) (r : Regs) : Nat :=
  let vl := bits r.vl 12 0
  let wide (n : Nat) : Nat := ceilDiv vl (laneRate n)
  let ew (c : BitVec 4) : Nat := wide (fmtBytes c.toNat)
  match i with
  | .vcvt _ _ dst _ src => wide (max (fmtBytes dst.toNat) (fmtBytes src.toNat))
  | .vqnt _ _ _ _ e | .vdq _ _ _ _ e => wide (max (fmtBytes e.toNat) (tsWidth r 3))
  | .vbdot _ _ _ _ _ => wide (max (tsWidth r 1) (tsWidth r 2))
  | .vfn _ _ _ _ e => 2 * ew e
  | .vdfn _ _ _ _ _ e => 4 * ew e
  | .vgth _ _ _ _ _ | .vsct _ _ _ _ _ _ => ceilDiv vl 32 + ceilDiv vl 8
  | .vtopk _ _ k _ _ => ceilDiv vl 32 + (k.val + 1)
  | .vmrg _ _ _ k _ _ => 2 * (k.val + 1)
  | .vstat _ _ _ => ceilDiv vl 64
  | .vadd _ _ _ _ e | .vsub _ _ _ _ e | .vmul _ _ _ _ e | .vfma _ _ _ _ _ e | .vscl _ _ _ _ e
  | .vmin _ _ _ _ e | .vmax _ _ _ _ e | .vcpy _ _ _ e
  | .vred _ _ _ _ e | .vcmp _ _ _ _ _ e | .vmsel _ _ _ _ _ e | .viota _ _ _ e | .vpfx _ _ _ e => ew e
  | _ => 0

namespace State

/-- S of R214 for the head of the queue, once its wait has ended. -/
def vstart (c : Core) (j : VJob) : Option Nat := j.start.map fun w => max (max j.issued w) c.vlast

/-- The completion cycle of the head of the queue. -/
def vdue (c : Core) : Option Nat :=
  match c.vector with
  | [] => none
  | j :: _ => (vstart c j).map fun x => x + 4 + vcycles j.ins j.regs

/-! ### The scratchpad -/

/-- Read bytes of a core's scratchpad in its total order (R165). -/
def spadRead (s : State) (p a n : Nat) : List Byte := Memory.readN (s.core p).spad a n

/-- Write bytes of a core's scratchpad; a whole poisoned line that is overwritten is no longer poisoned. -/
def spadWrite (s : State) (p a : Nat) (bs : List Byte) : State :=
  s.updCore p fun c =>
    { c with
      spad := Memory.writeN c.spad a bs
      spoiled := c.spoiled.filter fun l => !(decide (a ≤ 64 * l) && decide (64 * l + 64 ≤ a + bs.length)) }

/-- Does a scratchpad range meet a poisoned line (R264)? -/
def spadPoisoned (s : State) (p a n : Nat) : Bool :=
  n != 0 && (s.core p).spoiled.any fun l => overlap (64 * l) 64 a n

/-- The scratchpad doubleword numbered dw. -/
def spadWord (s : State) (p dw : Nat) : Word := BitVec.ofNat 64 (ofBytes (s.spadRead p (8 * dw) 8))

/-- Is a doubleword full (R153)? -/
def isFull (c : Core) (dw : Nat) : Bool := c.full.contains dw

/-! ### The order of accesses at the bank within a cycle (R165) -/

/-- The slots for which accesses are due at a core's bank in this cycle: of the vector unit, of its AMOVs and of
its drain. -/
def bankDue (s : State) (p : Nat) : List (Fin 16) :=
  let c := s.core p
  let e := (s.cluster (cluOf p)).eng
  (match c.vector, vdue c with
   | j :: _, some d => if d ≤ s.time && s.dieRuns (dieOf p) then [j.slot] else []
   | _, _ => []) ++
  (c.moves.filter fun m => decide (m.begun + 72 ≤ s.time)).map (·.job.slot) ++
  (match e.drain with
   | some d => if d.core == coreNum p && decide (d.start + 24 ≤ s.time) then [d.job.slot] else []
   | none => [])

/-- May an access for a slot be performed at a core's bank now: no access for a higher slot has been, and none
for a lower slot is due? -/
def bankTurn (s : State) (p : Nat) (j : Fin 16) : Bool :=
  ((s.core p).bank.1 != s.time || decide ((s.core p).bank.2 ≤ j.val)) && (s.bankDue p).all fun i => decide (j ≤ i)

/-- An access has been performed at a core's bank for a slot, or, as slot 16, from outside the threads. -/
def bankMark (s : State) (p k : Nat) : State :=
  if (s.core p).bank = (s.time, k) then s else s.updCore p fun c => { c with bank := (s.time, k) }

/-- May an access from outside the threads reach a core's bank now: the core has issued and nothing is due? -/
def bankOpen (s : State) (p : Nat) : Bool := decide (p < s.turn) && (s.bankDue p).isEmpty

/-- Set or empty a doubleword's bit. -/
def setFull (s : State) (p dw : Nat) (b : Bool) : State :=
  s.updCore p fun c =>
    { c with full := if b then insertNat c.full dw else c.full.filter fun d => d != dw }

/-- Put an entry into the store buffer (R159). -/
def pushEntry (s : State) (p : Nat) (tid : Tid) (op : SbOp) : State :=
  let n := s.fresh1
  n.2.updCore p fun c => { c with buffer := c.buffer ++ [⟨n.1, tid, op, false⟩] }

/-- Is the store buffer full (R159)? -/
def bufferFull (s : State) (p : Nat) : Bool := decide (32 ≤ (s.core p).buffer.length)

/-- The buffer entries before which a full/empty operation of a thread is not performed (R162): stores
to the doubleword, and for STF and SETE every earlier scratchpad store of the thread.  Its vector, drain
and AMOV writes are over before the thread issues again (R214, R245, R248). -/
def feAfter (s : State) (p dw : Nat) (j : Fin 16) (op : FeOp) : List Nat :=
  let c := s.core p
  ((c.buffer.filter fun e =>
    match e.op with
    | .scratch a n => overlap a n (8 * dw) 8 || ((op == .stf || op == .sete) && e.tid == (c.slots.get j).tid)
    | _ => false).map (·.id))

/-- Does an LDW of the core wait on a full doubleword (R163)? -/
def ldwWaits (s : State) (p dw : Nat) : Bool :=
  slotIds.any fun j => match (s.slotAt p j).pendC with
    | some q => (match q.wait with
      | .fe .ldw d _ _ _ => d == dw
      | _ => false)
    | none => false

/-- The full/empty operation that a slot waits for and whose word and earlier stores let it be performed: an LDF only
after every LDW on its word (R163). -/
def feCan (s : State) (p : Nat) (j : Fin 16) : Option (FeOp × Nat × Reg × Word) :=
  match (s.slotAt p j).pendC with
  | some q =>
    match q.wait with
    | .fe op dw r v after =>
      let cond := match op with
        | .ldw => isFull (s.core p) dw
        | .ldf => isFull (s.core p) dw && !s.ldwWaits p dw
        | .stf => !isFull (s.core p) dw
        | .sete | .fest => true
      if cond && after.all fun i => !((s.core p).buffer.any fun e => e.id == i) then some (op, dw, r, v) else none
    | _ => none
  | none => none

/-- The full/empty operation that a slot waits for and that can be performed now, where the bank's order lets it in
(R165). -/
def feReady (s : State) (p : Nat) (j : Fin 16) : Option (FeOp × Nat × Reg × Word) :=
  if s.bankTurn p j then s.feCan p j else none

/-- The effect of the operation a slot waits for (R161); a load that finds a poisoned line traps (R329). -/
def feEffect (s : State) (p : Nat) (j : Fin 16) (x : FeOp × Nat × Reg × Word) : State :=
  let t := s.endHalf p j false
  let get (r : Reg) (dw : Nat) : State :=
    t.updSlot p j fun y => { y with regs := y.regs.setG r (s.spadWord p dw) }
  let bad (dw : Nat) : Bool := s.spadPoisoned p (8 * dw) 8
  let fail (ea : Word) : State := s.enterTrap p j .checkFail false (s.slotAt p j).ipc ea
  match x with
  | (.ldw, dw, r, v) => if bad dw then fail v else get r dw
  | (.ldf, dw, r, v) => if bad dw then fail v else (get r dw).setFull p dw false
  | (.stf, dw, _, v) => (t.spadWrite p (8 * dw) (toBytes 8 v.toNat)).setFull p dw true
  | (.sete, dw, _, _) => t.setFull p dw false
  | (.fest, dw, r, _) =>
    t.updSlot p j fun y => { y with regs := y.regs.setG r (if isFull (s.core p) dw then 1 else 0) }

/-- The slots that wait to perform an operation on a doubleword and can. -/
def feWaiters (s : State) (p dw : Nat) (op : FeOp) : List (Fin 16 × FeOp × Nat × Reg × Word) :=
  slotIds.filterMap fun j => match s.feCan p j with
    | some x => if x.1 == op && x.2.1 == dw then some (j, x) else none
    | none => none

/-- A doubleword has changed between full and empty: it lets every LDW that waits for it go on, and then one LDF or STF,
any one, until none can (R40, R163).  They are performed directly after the change, whatever their slot (log entry
103). -/
def feRelease (s : State) (p dw : Nat) : Nat → State
  | 0 => s
  | fuel + 1 =>
    match s.feWaiters p dw .ldw with
    | y :: _ => feRelease (s.feEffect p y.1 y.2) p dw fuel
    | [] =>
      match s.feWaiters p dw .ldf ++ s.feWaiters p dw .stf with
      | [] => s
      | y :: rest =>
        let n := s.pick (rest.length + 1)
        let z := (y :: rest).getD n.1 y
        feRelease (n.2.feEffect p z.1 z.2) p dw fuel

/-- Perform the operation a slot waits for, and what its change of the word releases (R161, R163); SETE of an empty word
changes nothing. -/
def fePerform (s : State) (p : Nat) (j : Fin 16) (x : FeOp × Nat × Reg × Word) : State :=
  let t := (s.bankMark p j.val).feEffect p j x
  match x.1 with
  | .ldf | .stf => t.feRelease p x.2.1 16
  | .sete => if isFull (s.core p) x.2.1 then t.feRelease p x.2.1 16 else t
  | .ldw | .fest => t

/-- Perform the full/empty operations of a core that can be performed: every LDW first, then one LDF
or STF of those that wait, any one (R163). -/
def feLoop (s : State) (p : Nat) : Nat → State
  | 0 => s
  | fuel + 1 =>
    let ready := slotIds.filterMap fun j => (s.feReady p j).map fun x => (j, x)
    match ready.filter fun y => y.2.1 == .ldw with
    | y :: _ => feLoop (s.fePerform p y.1 y.2) p fuel
    | [] =>
      match ready with
      | [] => s
      | y :: rest =>
        let n := s.pick ready.length
        let z := (y :: rest).getD n.1 y
        feLoop (n.2.fePerform p z.1 z.2) p fuel

/-- Settle the waits on full/empty words of a core; before the core has issued in this cycle, and where the bank's
order does not let an operation in, it is performed later (R165). -/
def feSettle (s : State) (p : Nat) : State := if p < s.turn then s.feLoop p 16 else s

end State

end Machine

end Sys2Proof
end

