-- ==== Sys2Proof/Machine/Operands.lean ====
section
/-! DEFINITION. The operand forms: local and remote scratchpad addresses (R46, R156), vector operands
(R210, R212), tensor references with the tests of R180, affinity (R178), residency (R175) and the
request that an element access sends (R172, R177). -/

namespace Sys2Proof.Machine

/-- Where an effective address leads (R156). -/
inductive Addr where
  /-- a scratchpad byte address of the core -/
  | here (pa : Nat)
  | trap (c : Cause) (tval : Word)
  /-- another vcore -/
  | go (v : Nat)
  deriving DecidableEq, Repr

/-- A well-formed remote scratchpad address (R46): vcore and offset. -/
def remoteAddr (a : Word) : Option (Nat × Nat) :=
  if bit a 63 && bits a 62 60 == 0 && bits a 23 18 == 0 then some (bits a 59 24, bits a 17 0) else none

/-- The package of a vcore identifier (R26). -/
def pkgOf (v : Nat) : Nat := v / 2 ^ 16

namespace State

/-- The vcore that a local address names (R156, R325). -/
def localVcore (s : State) : Nat := if s.sup then s.me.occ else s.me.tid.vc

/-- The vcore and offset of an effective address; none is LOCAL_RANGE (R156). -/
def addrForm (s : State) (ea : Word) : Option (Nat × Nat) :=
  if bit ea 63 then remoteAddr ea
  else if bits ea 62 18 = 0 then some (s.localVcore, bits ea 17 0) else none

/-- Is the thread that runs a run-ahead helper (R151)? -/
def helperRuns (s : State) : Bool :=
  match s.me.life with
  | .helper _ => true
  | _ => false

/-- R156 for n bytes aligned to `al`.  A remote address, of its own vcore too, ends a run-ahead helper (R46, R151). -/
def resolve (s : State) (ea : Word) (al n : Nat) : Addr :=
  if ea.toNat % al ≠ 0 then .trap .align ea
  else if bit ea 63 && s.helperRuns then .trap .localRange ea
  else
    match s.addrForm ea with
    | none => .trap .localRange ea
    | some (v, off) =>
      if v ≠ s.me.occ then .go v
      else if segLimit s.cur.src.lseg < off + n then .trap .localRange ea
      else .here (segBase s.cur.src.lseg + off)

/-- The effective address of the M format (R33, R156). -/
def ea (s : State) (base : Reg) (off : BitVec 12) : Word := s.g base + sext off

/-- Continue at the scratchpad address of an operand, or trap, or migrate and start again there. -/
def withAddr (s : State) (ins : Instr) (ea : Word) (al n : Nat) (k : Nat → State) : State :=
  match s.resolve ea al n with
  | .here pa => k pa
  | .trap c v => s.trap c v
  | .go v => s.migrate ins 0 [] v ea

/-- The test of instructions whose operand must be local and stay at home: bit 63 clear and the bytes
inside the local segment (R259, R298, R305). -/
def localRange (s : State) (a : Word) (n : Nat) : Option Nat :=
  if bits a 63 18 = 0 && decide (bits a 17 0 + n ≤ segLimit s.cur.src.lseg) then
    some (segBase s.cur.src.lseg + bits a 17 0)
  else none

/-- A guest migrates home first (R257, R266, R290, R306, R341). -/
def atHome (s : State) (ins : Instr) (tval : Word) (k : State) : State :=
  if s.me.occ = s.me.tid.vc then k else s.migrate ins 0 [] s.me.tid.vc tval

/-- A vector operand: address, element width in bytes for ALIGN, bytes accessed as offsets from the
address. -/
structure VArg where
  ea : Word
  al : Nat
  n : Nat
  deriving DecidableEq, Repr

/-- The first ALIGN failure of a list of operands (R212 step 2), which are listed in the order rd, ra, rb, rc, the
addresses of scale words last; that the first gives TVAL is the model's choice (log entry 101). -/
def alignFault (args : List VArg) : Option Word :=
  firstSome (fun a : VArg => if a.ea.toNat % a.al ≠ 0 then some a.ea else none) args

/-- Steps 2 to 5 of R212: the scratchpad addresses of all operands, a trap, or the vcore to go to.
`more` are the addresses of scale words; `extra` gives further addresses outside the segment, of gathered
and scattered elements, from the operands' offsets. -/
def resolveAll (s : State) (args : List VArg) (more : List Word) (extra : List Nat → List Word) :
    Except Addr (List Nat) :=
  match alignFault (args ++ more.map fun a => ⟨a, 4, 0⟩) with
  | some a => .error (.trap .align a)
  | none =>
    match firstSome (fun a : VArg => if (s.addrForm a.ea).isNone then some a.ea else none) args with
    | some a => .error (.trap .localRange a)
    | none =>
      let vs := args.map fun a => ((s.addrForm a.ea).getD (0, 0))
      match vs with
      | [] => .ok []
      | (v, _) :: _ =>
        match firstSome (fun a : VArg =>
            if ((s.addrForm a.ea).getD (0, 0)).1 ≠ v then some a.ea else none) args with
        | some a => .error (.trap .localRange a)
        | none =>
          if v ≠ s.me.occ then .error (.go v)
          else
            -- the lowest address whose byte lies outside the segment
            let lim := segLimit s.cur.src.lseg
            let bad := args.filterMap fun a =>
              let off := ((s.addrForm a.ea).getD (0, 0)).2
              if 0 < a.n && decide (lim < off + a.n) then some (a.ea + BitVec.ofNat 64 (max lim off - off)) else none
            match bad ++ extra (vs.map (·.2)) with
            | [] => .ok (vs.map fun x => segBase s.cur.src.lseg + x.2)
            | b :: t => .error (.trap .localRange (t.foldl (fun m x => if x.toNat < m.toNat then x else m) b))

/-- What looking up a record at issue gives (R171). -/
inductive Look where
  | invalid
  | fetch (tbase obj : Nat)
  | got (r : Rec)
  deriving DecidableEq, Repr

/-- The record cache through which a core translates. -/
def recordsFor (s : State) (p : Nat) : List Cached :=
  if p < 4096 then (s.cluster (cluOf p)).records else (s.die (dieOf p)).records

/-- The record of an object of the thread's table, as it is present at issue: fetched for this bundle,
or in the cluster's cache (R167, R169-R171); a supervisor core reads its die's. -/
def look (s : State) (obj : Nat) : Look :=
  let tb := tableBase s.cur.src.ortb
  if obj = 0 || decide (2 ^ tableLog s.cur.src.ortb ≤ obj) then .invalid
  else
    let found : Option Rec :=
      match s.me.fetched.find? fun x => x.1 == tb && x.2.1 == obj with
      | some x => some x.2.2
      | none => ((s.recordsFor s.cur.pos).find? fun x => x.tbase == tb && x.obj == obj).map (·.r)
    match found with
    | some r => if r.ok then .got r else .invalid
    | none => .fetch tb obj

/-- Continue with an object's record, trap OBJ_INVALID, or hold the bundle for a fetch (R171). -/
def withRecord (s : State) (obj : Nat) (tval : Word) (k : Rec → State) : State :=
  match s.look obj with
  | .invalid => s.trap .objInvalid tval
  | .fetch tb o => (s.updMe fun x => { x with want := some (tb, o) }).hold
  | .got r => k r

/-- The object number of a reference (R166). -/
def objOf (ref : Word) : Nat := bits ref 63 40

/-- The reference's object with an exact index's low 40 bits (R180). -/
def refWith (ref : Word) (idx : Int) : Word :=
  BitVec.ofNat 64 (objOf ref * 2 ^ 40 + (idx % 2 ^ 40).toNat)

/-- The tests of R180 on a present record; `n` is the access size where FORMAT is tested. -/
def elemTests (r : Rec) (ref : Word) (perm : Rec → Bool) (n : Option Nat) (idx : Int) :
    Option (Cause × Word) :=
  if r.rvk then some (.revoked, ref)
  else if !perm r then some (.objPerm, ref)
  else if (match n with
      | some k => r.fmt == 0xE || fmtBytes r.fmt != k
      | none => false) then some (.format, refWith ref idx)
  else if decide (idx < 0) || decide ((r.count : Int) ≤ idx) then some (.outOfShape, refWith ref idx)
  else none

/-- Whether an access through a record migrates the thread, and where (R178). -/
def affinity (s : State) (r : Rec) : Option Nat :=
  if r.aff then
    let v := s.pkg * 2 ^ 16 + r.affv
    let x := s.vcore v
    match x.place with
    | .placed | .folded => if dieOf x.pos = dieOf s.cur.pos then none else some v
    | _ => some v
  else none

/-- The guest physical addresses of an element through its base and, during a move, its old base. -/
def elemBases (r : Rec) (i : Nat) : List Nat :=
  let off := r.offset i / 2
  if r.moving then [r.base + off, r.oldBase + off] else [r.base + off]

/-- Does a translation of the element reach the host window (R199 step 4)? -/
def reachesWindow (s : State) (r : Rec) (i : Nat) : Bool :=
  (elemBases r i).any fun g => match s.hpaOf g with
    | some a => inWindow a
    | none => false

/-- The guest physical address of an element, by the watermark as it stands (R172, R177). -/
def elemAddr (r : Rec) (i : Nat) : Nat :=
  let off := r.offset i
  (if r.moving && decide (r.wmark < r.granule off) then r.oldBase else r.base) + off / 2

/-- Are both bases of an element in a moving record mapped, for a request that its record's home must not send to
the host window (R177, R199)? -/
def movedMapped (s : State) (r : Rec) (i : Nat) (acc : Access) : Bool :=
  match acc with
  | .atomic _ _ _ | .red _ _ => (elemBases r i).all fun g => (s.hpaOf g).isSome
  | _ => true

/-- The request of an element access, once its granule is resident and its frame is mapped: during a
move it goes to the record's home (R177). -/
def request (s : State) (r : Rec) (obj i n : Nat) (ref : Word) (acc : Access) : Option Req :=
  let off := r.offset i
  let j := r.granule off
  let tb := tableBase s.cur.src.ortb
  if !s.resident r j || !s.movedMapped r i acc then none
  else
    match s.hpaOf (elemAddr r i), s.hpaOf (tb + 64 * obj) with
    | some a, some rh =>
      some { pos := s.cur.pos, acc := acc, gpa := elemAddr r i, hpa := a, n := n, key := (tb, obj)
             ref := ref, okey := r.okey, moving := if r.moving then some (rh, off / 2, j) else none }
    | _, _ => none

/-- The home that a request goes to first. -/
def reqHome (r : Req) : Nat :=
  match r.moving with
  | some m => homeOf m.1
  | none => homeOf r.hpa

/-- Send a request on its way to its home; its number orders it there (R185). -/
def sendReq (s : State) (r : Req) : State :=
  let n := s.fresh1
  n.2.updHome (reqHome r) fun h => { h with queue := h.queue.put n.1 r }

/-- The record of an object as its home holds it now, for an access that has passed its traps (R175). -/
def homeRecord (s : State) (obj : Nat) : Option Rec := s.recordAt (tableBase s.cur.src.ortb) obj

/-- A parked access whose record has been revoked completes without effect (R304). -/
def revokeHalf (s : State) (ref : Word) : State :=
  s.postEvent s.cur.pos s.cur.slot .revoked ref

/-- Ask a supervisor core to fill a granule (R175, R151); requests for one granule merge. -/
def askFill (s : State) (tb obj j : Nat) : State :=
  if s.fills.contains (tb, obj, j) then s else { s with fills := s.fills ++ [(tb, obj, j)] }

/-- Report a second-stage miss to the hypervisor level (R173); misses of one frame merge. -/
def reportMiss (s : State) (gpa : Nat) : State :=
  if (s.hpaOf gpa).isSome || s.misses.contains (gpa / 2 ^ 16) then s
  else { s with misses := s.misses ++ [gpa / 2 ^ 16] }

/-- What keeps an access to element i of an object away is reported: to the hypervisor level an unmapped frame, of the
bitmap or of the addresses accessed (R173), to a supervisor core a granule that is not resident (R175). -/
def reportAbsent (s : State) (tb obj : Nat) (r : Rec) (i : Nat) (gpas : List Nat) : State :=
  let j := r.granule (r.offset i)
  if (s.rmapByte r j).isNone then s.reportMiss (r.rmap + j)
  else if !s.resident r j then s.askFill tb obj j
  else gpas.foldl reportMiss s

/-- Is the frame of a guest address mapped, or its miss on report (R173)? -/
def missKnown (s : State) (gpa : Nat) : Bool := (s.hpaOf gpa).isSome || s.misses.contains (gpa / 2 ^ 16)

/-- Is what keeps an access away, as `reportAbsent` finds it, on report? -/
def absenceKnown (s : State) (tb obj : Nat) (r : Rec) (i : Nat) (gpas : List Nat) : Bool :=
  let j := r.granule (r.offset i)
  if (s.rmapByte r j).isNone then s.missKnown (r.rmap + j)
  else if !s.resident r j then s.fills.contains (tb, obj, j)
  else gpas.all s.missKnown

/-- The guest addresses that an access needs mapped: during a move an atomic or RED needs both bases (R177, R199). -/
def accessAddrs (r : Rec) (i : Nat) (acc : Access) : List Nat :=
  match acc with
  | .atomic _ _ _ | .red _ _ => elemBases r i
  | _ => [elemAddr r i]

/-- An access whose granule is not resident, or whose frame is not mapped, parks in phase 1 (R175). -/
def parkResident (s : State) (ins : Instr) (r : Rec) (obj i : Nat) (acc : Access) : State :=
  let tb := tableBase s.cur.src.ortb
  (s.reportAbsent tb obj r i ((tb + 64 * obj) :: accessAddrs r i acc)).park ins 1 s.cur.held (.resident tb obj i)

/-- An access whose record's own frame is not mapped parks, to go on in `phase` (R173). -/
def parkRecord (s : State) (ins : Instr) (phase obj i : Nat) : State :=
  let tb := tableBase s.cur.src.ortb
  (s.reportMiss (tb + 64 * obj)).park ins phase s.cur.held (.resident tb obj i)

/-- The residency byte of an element has been read (R174, R192). -/
def elemRead (s : State) (r : Rec) (i : Nat) : State := s.rmapRead r (r.granule (r.offset i))

/-- The guest physical address of a request now: during a move its record's home chooses (R177). -/
def curGpa (s : State) (q : Req) : Nat :=
  match q.moving with
  | none => q.gpa
  | some (_, off, j) =>
    match s.recordAt q.key.1 q.key.2 with
    | none => q.gpa
    | some r => (if r.moving && decide (r.wmark < j) then r.oldBase else r.base) + off

/-- The host physical address of a request now. -/
def curHpa (s : State) (q : Req) : Nat := (s.hpaOf (s.curGpa q)).getD q.hpa

/-- The byte that the youngest buffered element store of a core gives for a guest byte (R181). -/
def forwarded (s : State) (p gpa : Nat) : Option Byte :=
  (s.core p).buffer.foldl (fun acc e =>
    match e.op with
    | .obj q =>
      match q.acc with
      | .store bs =>
        let a := s.curGpa q
        if a ≤ gpa && decide (gpa < a + bs.length) then bs[gpa - a]? else acc
      | _ => acc
    | _ => acc) none

/-- Are all bytes of a request covered by buffered stores of its core (R190)? -/
def allForwarded (s : State) (q : Req) : Bool :=
  (List.range q.n).all fun i => (s.forwarded q.pos (s.curGpa q + i)).isSome

/-- Does the element lie in a poisoned line (R329)? -/
def elemPoisoned (s : State) (r : Rec) (i n : Nat) : Bool :=
  match s.hpaOf (elemAddr r i) with
  | some a => s.poisoned a n
  | none => false

/-- An element load, its traps passed (R181): wait for residency in phase 1, then for the reply.  A
combinable read that the buffer serves whole is not merged (R190). -/
def elemLoad (s : State) (ins : Instr) (r : Rec) (ref : Word) (i n : Nat) (comb : Bool) (rd : Reg)
    (sx : Bool) : State :=
  let s := s.elemRead r i
  match s.request r (objOf ref) i n ref (.load comb) with
  | none => s.parkResident ins r (objOf ref) i (.load comb)
  | some q =>
    if s.elemPoisoned r i n && !s.allForwarded q then s.trap .checkFail ref
    else
      let t := s.fresh1
      let acc := Access.load (comb && !s.allForwarded q && !inWindow q.hpa && q.moving.isNone)
      (t.2.sendReq { q with token := t.1, rd := rd, sx := sx, acc := acc }).park ins 2 [] (.token t.1)

/-- Set the BANKM bit of a host physical address; a window write sets none (R187, R194). -/
def touchBank (s : State) (hpa : Nat) : State :=
  if inWindow hpa then s else s.updRegs fun x => { x with bankm := bankSet x.bankm (hpa / 2 ^ 16 % 64) }

/-- An element store or RED, its traps passed (R181, R201): wait for residency or for buffer room in
phase 1.  A RED consumes a poisoned line, and the host window, where a mapping may lead only now, is no place for it
(R199, R329).  The group of a moving object's element is that of the base which the watermark gives it now (log entry
100). -/
def elemStore (s : State) (ins : Instr) (r : Rec) (ref : Word) (i n : Nat) (acc : Access) : State :=
  let s := s.elemRead r i
  match s.request r (objOf ref) i n ref acc with
  | none => s.parkResident ins r (objOf ref) i acc
  | some q =>
    let red := match acc with
      | .red _ _ => true
      | _ => false
    if red && s.reachesWindow r i then s.trap .objPerm ref
    else if red && s.elemPoisoned r i n then s.trap .checkFail ref
    else if s.bufferFull s.cur.pos then s.park ins 1 s.cur.held .room
    else (s.pushEntry s.cur.pos s.me.tid (.obj q)).touchBank q.hpa

/-- A returning atomic, its traps passed (R200): buffered as a store, then its reply is waited for.  The host window,
where a mapping may lead only now, is no place for it (R199). -/
def elemAtomic (s : State) (ins : Instr) (r : Rec) (ref : Word) (i n : Nat) (acc : Access) (rd : Reg) :
    State :=
  let s := s.elemRead r i
  match s.request r (objOf ref) i n ref acc with
  | none => s.parkResident ins r (objOf ref) i acc
  | some q =>
    if s.reachesWindow r i then s.trap .objPerm ref
    else if s.elemPoisoned r i n then s.trap .checkFail ref
    else if s.bufferFull s.cur.pos then s.park ins 1 s.cur.held .room
    else
      let t := s.fresh1
      (t.2.pushEntry s.cur.pos s.me.tid (.obj { q with token := t.1, rd := rd })).park ins 2 [] (.token t.1)

/-- Keep the record table of the tests beside the parked access (R178). -/
def keepTable (s : State) : State := { s with cur := { s.cur with held := [s.cur.src.ortb] } }

/-- Go on with the record table that an access was tested with (R178). -/
def keptTable (s : State) : State :=
  { s with cur := { s.cur with src := { s.cur.src with ortb := s.cur.held.getD 0 0 } } }

/-- The tests of R180 and those of the instruction, then `go`. -/
def elemTested (s : State) (ref : Word) (idx : Int) (perm : Rec → Bool) (n : Nat)
    (extra : Rec → Option (Cause × Word)) (r : Rec) (go : State) : State :=
  match elemTests r ref perm (some n) idx with
  | some (c, v) => s.trap c v
  | none =>
    match extra r with
    | some (c, v) => s.trap c v
    | none => go

/-- An element access from issue: the tests of R180, affinity, then `k`.  After an affinity migration, which is
phase 1 with nothing kept, it translates through the table of the vcore it occupies now (R167, R181), and `k` runs
there as at issue; the tests of R180 are made a second time, by that table's record, and may trap (log entry 26).  In
another later phase it goes on with the record as its home holds it (R175, R177). -/
def elemAccess (s : State) (ins : Instr) (ref : Word) (idx : Int) (perm : Rec → Bool) (n : Nat)
    (extra : Rec → Option (Cause × Word)) (k : State → Rec → Nat → State) : State :=
  let tested (r : Rec) (go : State) : State := s.elemTested ref idx perm n extra r go
  let tb := tableBase s.cur.src.ortb
  let obj := objOf ref
  if s.cur.phase = 0 then
    s.withRecord obj ref fun r =>
      tested r
        (match s.affinity r with
         | some v => s.migrate ins 1 [] v ref
         | none => k s.keepTable r idx.toNat)
  else if s.cur.held.isEmpty then
    if obj = 0 || decide (2 ^ tableLog s.cur.src.ortb ≤ obj) then s.trap .objInvalid ref
    else
      match s.homeRecord obj with
      | none => s.parkRecord ins 1 obj idx.toNat
      | some r =>
        if !r.ok then s.trap .objInvalid ref
        else
          let t := (s.recordRead tb obj).keepTable
          tested r (k { t with cur := { t.cur with phase := 0 } } r idx.toNat)
  else
    let t := s.keptTable
    match t.homeRecord obj with
    | none => t.parkRecord ins 1 obj idx.toNat
    | some r =>
      if r.rvk then t.revokeHalf ref
      else k (t.recordRead (tableBase t.cur.src.ortb) obj) r idx.toNat

end State

end Sys2Proof.Machine
end

