-- ==== Sys2Proof/Machine/Control.lean ====
section
/-! DEFINITION. NOP of the C class and the control instructions, C-class majors 0x00 to 0x09
(R61, R129-R134). -/

namespace Sys2Proof.Machine

/-- PC + 8 × off modulo 2^38 (R130). -/
def target {n : Nat} (pc : BitVec 38) (off : BitVec n) : BitVec 38 := pc + 8 * off.signExtend 38

/-- The address of the next bundle (R129). -/
def nextPc (pc : BitVec 38) : BitVec 38 := pc + 8

/-- A taken branch; the PC of one not taken is PC + 8 already (R129). -/
def branchIf (s : State) (c : Bool) (pc : BitVec 38) : State := if c then s.setPc pc else s

def execNopC (s : State) : Res := .next s
def execBr (off : BitVec 15) (s : State) : Res := .next (s.setPc (target s.pc off))
def execBeq (ra rb : Reg) (off : BitVec 12) (s : State) : Res :=
  .next (branchIf s (s.g ra == s.g rb) (target s.pc off))
def execBne (ra rb : Reg) (off : BitVec 12) (s : State) : Res :=
  .next (branchIf s (s.g ra != s.g rb) (target s.pc off))
def execBlt (ra rb : Reg) (off : BitVec 12) (s : State) : Res :=
  .next (branchIf s ((s.g ra).slt (s.g rb)) (target s.pc off))
def execBge (ra rb : Reg) (off : BitVec 12) (s : State) : Res :=
  .next (branchIf s (!(s.g ra).slt (s.g rb)) (target s.pc off))
def execBltu (ra rb : Reg) (off : BitVec 12) (s : State) : Res :=
  .next (branchIf s ((s.g ra).ult (s.g rb)) (target s.pc off))
def execBgeu (ra rb : Reg) (off : BitVec 12) (s : State) : Res :=
  .next (branchIf s (!(s.g ra).ult (s.g rb)) (target s.pc off))
def execBz (ra : Reg) (off : BitVec 15) (s : State) : Res :=
  .next (branchIf s (s.g ra == 0) (target s.pc off))
def execBnz (ra : Reg) (off : BitVec 15) (s : State) : Res :=
  .next (branchIf s (s.g ra != 0) (target s.pc off))
/-- LOOP (R131). -/
def execLoop (ra : Reg) (off : BitVec 15) (s : State) : Res :=
  .next (branchIf (s.setG ra (s.g ra - 1)) (s.g ra - 1 != 0) (target s.pc off))

/-- The exact target of JR and CALLR (R132). -/
def jumpTarget (a : Word) (off : BitVec 15) : Int := a.toNat + 8 * off.toInt

/-- The range and alignment check of JR and CALLR (R132). -/
def jumpOk (t : Int) : Bool := decide (0 ≤ t) && decide (t ≤ 2 ^ 38 - 8) && t % 8 == 0

/-- The link that CALL and CALLR write (R132). -/
def link (s : State) : Word := (nextPc s.pc).setWidth 64

/-- CALL (R132). -/
def execCall (off : BitVec 15) (s : State) : Res :=
  .next ((s.setG 15 (link s)).setPc (target s.pc off))
/-- JR (R132). -/
def execJr (ra : Reg) (off : BitVec 15) (s : State) : Res :=
  let t := jumpTarget (s.g ra) off
  .next (if jumpOk t then s.setPc (BitVec.ofInt 38 t) else s.trap .align (BitVec.ofInt 64 t))
/-- CALLR (R132): ga is read before g15 is written. -/
def execCallr (ra : Reg) (off : BitVec 15) (s : State) : Res :=
  let t := jumpTarget (s.g ra) off
  .next (if jumpOk t then (s.setG 15 (link s)).setPc (BitVec.ofInt 38 t)
         else s.trap .align (BitVec.ofInt 64 t))
/-- BRK (R133). -/
def execBrk (code : BitVec 19) (s : State) : Res := .next (s.trap .brk (code.setWidth 64))

/-- AWAIT (R134): a payload that arrives later ends the wait and clears the mark. -/
def execAwait (rd : Reg) (s : State) : Res :=
  .next
    (if rd = 0 then s
     else if Tsw.mark s.me.regs.tsw rd then s.updRegs fun x => { x with tsw := Tsw.setMark x.tsw rd false }
     else s.park (.await rd) 1 [] (.await rd))

end Sys2Proof.Machine
end

