-- ==== Sys2Proof/Machine/Float.lean ====
section
/-! DEFINITION. The scalar floating and conversion instructions, A-class majors 0x20 to 0x2E
(R93-R100). -/

namespace Sys2Proof.Machine

/-- The format of func[0] (R94). -/
def fmtOf (f : FpSel) : FFmt :=
  match f with
  | .d => f64
  | .s => f32

/-- A format's value in a register (R79). -/
def fval (f : FpSel) (w : Word) : FVal := (fmtOf f).value w.toNat

/-- Round of an exact value written by R79, with no saturation (R94). -/
def fres (f : FpSel) (m : Mode) (v : FVal) : Word := BitVec.ofNat 64 ((fmtOf f).round m false v)

/-- The bits of a register that hold a value of the format (R79). -/
def fbits (f : FpSel) (w : Word) : Nat := w.toNat % 2 ^ ((fmtOf f).eb + (fmtOf f).p + 1)

/-- A truth value in a register. -/
def flag (b : Bool) : Word := if b then 1 else 0

def faddOp (f : FpSel) (m : Mode) (a b : Word) : Word := fres f m ((fval f a).add m (fval f b))
def fsubOp (f : FpSel) (m : Mode) (a b : Word) : Word := fres f m ((fval f a).add m (fval f b).neg)
def fmulOp (f : FpSel) (m : Mode) (a b : Word) : Word := fres f m ((fval f a).mul (fval f b))
def ffmaOp (f : FpSel) (m : Mode) (a b c : Word) : Word :=
  fres f m (((fval f a).mul (fval f b)).add m (fval f c))
def fdivOp (f : FpSel) (m : Mode) (a b : Word) : Word := fres f m ((fval f a).div (fval f b))
def fsqrtOp (f : FpSel) (m : Mode) (a : Word) : Word := fres f m (fval f a).sqrt

def execFadd (rd ra rb : Reg) (r : Rnd) (f : FpSel) (s : State) : Res :=
  .next (s.setG rd (faddOp f (s.mode r) (s.g ra) (s.g rb)))
def execFsub (rd ra rb : Reg) (r : Rnd) (f : FpSel) (s : State) : Res :=
  .next (s.setG rd (fsubOp f (s.mode r) (s.g ra) (s.g rb)))
def execFmul (rd ra rb : Reg) (r : Rnd) (f : FpSel) (s : State) : Res :=
  .next (s.setG rd (fmulOp f (s.mode r) (s.g ra) (s.g rb)))
def execFfma (rd ra rb rc : Reg) (r : Rnd) (f : FpSel) (s : State) : Res :=
  .next (s.setG rd (ffmaOp f (s.mode r) (s.g ra) (s.g rb) (s.g rc)))
def execFdiv (rd ra rb : Reg) (r : Rnd) (f : FpSel) (s : State) : Res :=
  .next (s.setG rd (fdivOp f (s.mode r) (s.g ra) (s.g rb)))
def execFsqrt (rd ra : Reg) (r : Rnd) (f : FpSel) (s : State) : Res :=
  .next (s.setG rd (fsqrtOp f (s.mode r) (s.g ra)))
def execFmin (rd ra rb : Reg) (f : FpSel) (s : State) : Res :=
  .next (s.setG rd (BitVec.ofNat 64 ((fmtOf f).minMax false (s.g ra).toNat (s.g rb).toNat)))
def execFmax (rd ra rb : Reg) (f : FpSel) (s : State) : Res :=
  .next (s.setG rd (BitVec.ofNat 64 ((fmtOf f).minMax true (s.g ra).toNat (s.g rb).toNat)))
def execFeq (rd ra rb : Reg) (f : FpSel) (s : State) : Res :=
  .next (s.setG rd (flag ((fval f (s.g ra)).feq (fval f (s.g rb)))))
def execFlt (rd ra rb : Reg) (f : FpSel) (s : State) : Res :=
  .next (s.setG rd (flag ((fval f (s.g ra)).flt (fval f (s.g rb)))))
def execFle (rd ra rb : Reg) (f : FpSel) (s : State) : Res :=
  .next (s.setG rd (flag ((fval f (s.g ra)).fle (fval f (s.g rb)))))
def execFuno (rd ra rb : Reg) (f : FpSel) (s : State) : Res :=
  .next (s.setG rd (flag ((fval f (s.g ra)).isNan || (fval f (s.g rb)).isNan)))

/-- FTLE: totalOrder by TotalKey (R85, R95). -/
def ftleOp (f : FpSel) (a b : Word) : Word :=
  let n := (fmtOf f).eb + (fmtOf f).p + 1
  flag (decide (totalKey n a.toNat ≤ totalKey n b.toNat))

def execFtle (rd ra rb : Reg) (f : FpSel) (s : State) : Res :=
  .next (s.setG rd (ftleOp f (s.g ra) (s.g rb)))
def execFcls (rd ra : Reg) (f : FpSel) (s : State) : Res :=
  .next (s.setG rd (BitVec.ofNat 64 ((fmtOf f).classMask (fbits f (s.g ra)))))

/-- FCVT's FORMAT conditions (R96). -/
def fcvtBad (dst src : Nat) (ns : Bool) : Bool :=
  !(decide (8 ≤ dst) && decide (dst ≤ 0xE)) || decide (src < 8) || (ns && dst != 0xD)

/-- FCVT (R96): a narrow destination saturates unless .NS.  A same-format conversion returns its operand, but for a
NaN; that it does so for an infinity of E5M2 without .NS, which the rule's pseudo-code saturates, is the model's choice
(log entry 89). -/
def fcvtOp (dst src : Nat) (ns : Bool) (m : Mode) (a : Word) : Word :=
  let x := a.toNat % 2 ^ fmtBits src
  let v := elemValue src x
  BitVec.ofNat 64 (if dst = src && !v.isNan then x else roundTo dst m (isNarrow dst && !ns) v)

def execFcvt (rd ra : Reg) (dst src : BitVec 4) (ns : Bool) (r : Rnd) (s : State) : Res :=
  .next (if fcvtBad dst.toNat src.toNat ns then s.trap .format 0
         else s.setG rd (fcvtOp dst.toNat src.toNat ns (s.mode r) (s.g ra)))

/-- FCVTI (R97). -/
def fcvtiOp (c : Nat) (f : FpSel) (m : Mode) (a : Word) : Word :=
  BitVec.ofInt 64 (toIntFmt c m (fval f a))

def execFcvti (rd ra : Reg) (int : BitVec 4) (r : Rnd) (f : FpSel) (s : State) : Res :=
  .next (if decide (4 < int.toNat) then s.trap .format 0
         else s.setG rd (fcvtiOp int.toNat f (s.mode r) (s.g ra)))

/-- ICVTF (R98). -/
def icvtfOp (c : Nat) (f : FpSel) (m : Mode) (a : Word) : Word :=
  fres f m (.ofInt (readInt c a.toNat))

def execIcvtf (rd ra : Reg) (int : BitVec 4) (r : Rnd) (f : FpSel) (s : State) : Res :=
  .next (if decide (4 < int.toNat) then s.trap .format 0
         else s.setG rd (icvtfOp int.toNat f (s.mode r) (s.g ra)))

/-- The function of FFN (R99). -/
def fnOf (op : FnOp) : Fn :=
  match op with
  | .exp2 => .exp2
  | .log2 => .log2
  | .rcp => .rcp
  | .rsq => .rsq
  | .tanh => .tanh
  | .sigm => .sigm

def execFfn (rd ra : Reg) (op : FnOp) (r : Rnd) (s : State) : Res :=
  .next (s.setG rd (BitVec.ofNat 64 ((fnOf op).apply (s.mode r) ((s.g ra).toNat % 2 ^ 32))))

/-- FSEL's choice from its scale words and parameters (R100). -/
def fselOp (ws : List Nat) (p : Word) : Word :=
  let sat := (ws.map fun w => w / 2 ^ 16 % 256).sum
  let zer := (ws.map fun w => w / 2 ^ 24 % 256).sum
  let bad := ws.any fun w => w / 2 ^ 8 % 256 == 0xFF
  let lb := bits p 31 28
  BitVec.ofNat 64
    (if bad then 0x4000A
     else if decide (bits p 7 0 < sat) || decide (bits p 15 8 < zer) then 0x4002D + lb * 2 ^ 8
     else 0x4002C + lb * 2 ^ 8)

/-- The 32-bit words of a list of bytes. -/
def words32 : Nat → List Byte → List Nat
  | 0, _ => []
  | n + 1, bs => ofBytes (bs.take 4) :: words32 n (bs.drop 4)

/-- FSEL (R100).  A poisoned word is consumed as CHECK_FAIL (R329). -/
def execFsel (rd ra rb : Reg) (s : State) : Res :=
  let p := s.g rb
  let a := s.g ra
  let n := bits p 27 16
  .next
    (if bits p 63 32 ≠ 0 || decide (bits p 31 28 < 3) || decide (12 < bits p 31 28) then s.trap .format 0
     else if a.toNat % 4 ≠ 0 then s.trap .align a
     else if bit a 63 then s.trap .localRange a
     else s.withAddr (.fsel rd ra rb) a 4 (4 * n) fun pa =>
       if s.spadPoisoned s.cur.pos pa (4 * n) then s.trap .checkFail a
       else
         (s.setG rd (fselOp (words32 n (s.spadRead s.cur.pos pa (4 * n))) p)).updMe fun x =>
           { x with ready := s.time + (n + 63) / 64 + 4 })

end Sys2Proof.Machine
end

