-- ==== Sys2Proof/Machine/IntAlu.lean ====
section
/-! DEFINITION. The scalar integer and address instructions, A-class majors 0x00 to 0x19 (R101-R120). -/

namespace Sys2Proof.Machine

/-! ### Results -/

/-- A truth value in a register (R113). -/
def ofBool (b : Bool) : Word := if b then 1 else 0

/-- ADD (R105). -/
def addOp (m : SatMode) (a b : Word) : Word :=
  match m with
  | .w => a + b
  | .ss => BitVec.ofInt 64 (min (max (a.toInt + b.toInt) (-2 ^ 63)) (2 ^ 63 - 1))
  | .su => BitVec.ofNat 64 (min (a.toNat + b.toNat) (2 ^ 64 - 1))

/-- SUB (R105). -/
def subOp (m : SatMode) (a b : Word) : Word :=
  match m with
  | .w => a - b
  | .ss => BitVec.ofInt 64 (min (max (a.toInt - b.toInt) (-2 ^ 63)) (2 ^ 63 - 1))
  | .su => BitVec.ofNat 64 (a.toNat - b.toNat)

/-- MULH (R106). -/
def mulhOp (a b : Word) : Word := BitVec.ofInt 64 (a.toInt * b.toInt / 2 ^ 64)

/-- MULHU (R106). -/
def mulhuOp (a b : Word) : Word := BitVec.ofNat 64 (a.toNat * b.toNat / 2 ^ 64)

/-- DIV (R107). -/
def divOp (a b : Word) : Word :=
  if b = 0 then BitVec.allOnes 64 else BitVec.ofInt 64 (Int.tdiv a.toInt b.toInt)

/-- REM (R107). -/
def remOp (a b : Word) : Word :=
  if b = 0 then a else BitVec.ofInt 64 (Int.tmod a.toInt b.toInt)

/-- DIVU (R107). -/
def divuOp (a b : Word) : Word :=
  if b = 0 then BitVec.allOnes 64 else BitVec.ofNat 64 (a.toNat / b.toNat)

/-- REMU (R107). -/
def remuOp (a b : Word) : Word := if b = 0 then a else BitVec.ofNat 64 (a.toNat % b.toNat)

/-- SHL (R109). -/
def shlOp (a : Word) (n : Nat) : Word := if n < 64 then a <<< n else 0

/-- SHR (R109). -/
def shrOp (a : Word) (n : Nat) : Word := if n < 64 then a >>> n else 0

/-- SAR (R109). -/
def sarOp (a : Word) (n : Nat) : Word := a.sshiftRight (min n 63)

/-- ROL (R109). -/
def rolOp (a : Word) (n : Nat) : Word := a.rotateLeft (n % 64)

/-- The field of EXT and EXTS (R111). -/
def fieldOf (a : Word) (pos wm1 : BitVec 6) : Nat := a.toNat / 2 ^ pos.toNat % 2 ^ (wm1.toNat + 1)

/-- EXT (R111). -/
def extOp (a : Word) (pos wm1 : BitVec 6) : Word := BitVec.ofNat 64 (fieldOf a pos wm1)

/-- EXTS (R111). -/
def extsOp (a : Word) (pos wm1 : BitVec 6) : Word :=
  let f := fieldOf a pos wm1
  let w := wm1.toNat + 1
  BitVec.ofInt 64 (if f < 2 ^ (w - 1) then (f : Int) else f - 2 ^ w)

/-- INS (R111): the field of d replaced by the low bits of a. -/
def insOp (d a : Word) (pos wm1 : BitVec 6) : Word :=
  let p := 2 ^ pos.toNat
  let w := 2 ^ (wm1.toNat + 1)
  BitVec.ofNat 64 (d.toNat - fieldOf d pos wm1 * p + a.toNat % w * p)

/-- The bits of a word, bit 63 first. -/
def bitsDown (a : Word) : List Bool := (List.range 64).map fun i => bit a (63 - i)

/-- How many entries at the front of a list are false. -/
def leadingFalse : List Bool → Nat
  | [] => 0
  | b :: t => if b then 0 else leadingFalse t + 1

/-- CLZ (R112). -/
def clzOp (a : Word) : Word := BitVec.ofNat 64 (leadingFalse (bitsDown a))

/-- CTZ (R112). -/
def ctzOp (a : Word) : Word := BitVec.ofNat 64 (leadingFalse (bitsDown a).reverse)

/-- POPC (R112). -/
def popcOp (a : Word) : Word := BitVec.ofNat 64 ((bitsDown a).filter id).length

/-- BSWAP (R112). -/
def bswapOp (a : Word) : Word := BitVec.ofNat 64 (ofBytes (toBytes 8 a.toNat).reverse)

/-- One bit of a CRC-32C step (R117). -/
def crcBit (c : Nat) : Nat := if c % 2 = 1 then c / 2 ^^^ 0x82F63B78 else c / 2

/-- One byte of a CRC-32C (R117). -/
def crcByte (c : Nat) (b : Byte) : Nat :=
  crcBit (crcBit (crcBit (crcBit (crcBit (crcBit (crcBit (crcBit (c ^^^ b.toNat))))))))

/-- CRC-32C over bytes from a running value (R117). -/
def crcOver (c : Nat) (bs : List Byte) : Nat := bs.foldl crcByte c

/-- The bytes of an access size. -/
def Size.bytes (z : Size) : Nat :=
  match z with
  | .b => 1
  | .h => 2
  | .w => 4
  | .d => 8

/-- CRCW (R117). -/
def crcOp (z : Size) (a b : Word) : Word :=
  BitVec.ofNat 64 (crcOver (bits a 31 0) (toBytes (Size.bytes z) b.toNat))

/-- ADDS (R116). -/
def addsOp (sh : ShAmt) (a b : Word) : Word :=
  a + b <<< (match sh with | .s0 => 0 | .s1 => 1 | .s2 => 2 | .s3 => 3 | .s4 => 4)

/-- MOVHX (R120). -/
def movhxOp (d : Word) (x : BitVec 32) : Word :=
  BitVec.ofNat 64 (x.toNat * 2 ^ 32 + d.toNat % 2 ^ 32)

/-! ### Meanings -/

/-- NOP of the A class: no effect (R56). -/
def execNopA (s : State) : Res := .next s
def execAdd (rd ra rb : Reg) (m : SatMode) (s : State) : Res := .next (s.setG rd (addOp m (s.g ra) (s.g rb)))
def execSub (rd ra rb : Reg) (m : SatMode) (s : State) : Res := .next (s.setG rd (subOp m (s.g ra) (s.g rb)))
def execMul (rd ra rb : Reg) (s : State) : Res := .next (s.setG rd (s.g ra * s.g rb))
def execMulh (rd ra rb : Reg) (s : State) : Res := .next (s.setG rd (mulhOp (s.g ra) (s.g rb)))
def execMulhu (rd ra rb : Reg) (s : State) : Res := .next (s.setG rd (mulhuOp (s.g ra) (s.g rb)))
def execDiv (rd ra rb : Reg) (s : State) : Res := .next (s.setG rd (divOp (s.g ra) (s.g rb)))
def execDivu (rd ra rb : Reg) (s : State) : Res := .next (s.setG rd (divuOp (s.g ra) (s.g rb)))
def execRem (rd ra rb : Reg) (s : State) : Res := .next (s.setG rd (remOp (s.g ra) (s.g rb)))
def execRemu (rd ra rb : Reg) (s : State) : Res := .next (s.setG rd (remuOp (s.g ra) (s.g rb)))
def execAnd (rd ra rb : Reg) (s : State) : Res := .next (s.setG rd (s.g ra &&& s.g rb))
def execOr (rd ra rb : Reg) (s : State) : Res := .next (s.setG rd (s.g ra ||| s.g rb))
def execXor (rd ra rb : Reg) (s : State) : Res := .next (s.setG rd (s.g ra ^^^ s.g rb))
def execAndn (rd ra rb : Reg) (s : State) : Res := .next (s.setG rd (s.g ra &&& ~~~(s.g rb)))
def execShl (rd ra rb : Reg) (s : State) : Res := .next (s.setG rd (shlOp (s.g ra) (s.g rb).toNat))
def execShr (rd ra rb : Reg) (s : State) : Res := .next (s.setG rd (shrOp (s.g ra) (s.g rb).toNat))
def execSar (rd ra rb : Reg) (s : State) : Res := .next (s.setG rd (sarOp (s.g ra) (s.g rb).toNat))
def execRol (rd ra rb : Reg) (s : State) : Res := .next (s.setG rd (rolOp (s.g ra) (s.g rb).toNat))
def execSeq (rd ra rb : Reg) (s : State) : Res := .next (s.setG rd (ofBool (s.g ra == s.g rb)))
def execSne (rd ra rb : Reg) (s : State) : Res := .next (s.setG rd (ofBool (s.g ra != s.g rb)))
def execSlt (rd ra rb : Reg) (s : State) : Res := .next (s.setG rd (ofBool ((s.g ra).slt (s.g rb))))
def execSltu (rd ra rb : Reg) (s : State) : Res := .next (s.setG rd (ofBool ((s.g ra).ult (s.g rb))))
def execMin (rd ra rb : Reg) (s : State) : Res :=
  .next (s.setG rd (if (s.g ra).slt (s.g rb) then s.g ra else s.g rb))
def execMax (rd ra rb : Reg) (s : State) : Res :=
  .next (s.setG rd (if (s.g ra).slt (s.g rb) then s.g rb else s.g ra))
def execMinu (rd ra rb : Reg) (s : State) : Res :=
  .next (s.setG rd (if (s.g ra).ult (s.g rb) then s.g ra else s.g rb))
def execMaxu (rd ra rb : Reg) (s : State) : Res :=
  .next (s.setG rd (if (s.g ra).ult (s.g rb) then s.g rb else s.g ra))
def execSel (rd ra rb rc : Reg) (s : State) : Res :=
  .next (s.setG rd (if s.g rc ≠ 0 then s.g ra else s.g rb))
def execClz (rd ra : Reg) (s : State) : Res := .next (s.setG rd (clzOp (s.g ra)))
def execCtz (rd ra : Reg) (s : State) : Res := .next (s.setG rd (ctzOp (s.g ra)))
def execPopc (rd ra : Reg) (s : State) : Res := .next (s.setG rd (popcOp (s.g ra)))
def execBswap (rd ra : Reg) (s : State) : Res := .next (s.setG rd (bswapOp (s.g ra)))
def execExt (rd ra : Reg) (pos wm1 : BitVec 6) (s : State) : Res :=
  .next (s.setG rd (extOp (s.g ra) pos wm1))
def execExts (rd ra : Reg) (pos wm1 : BitVec 6) (s : State) : Res :=
  .next (s.setG rd (extsOp (s.g ra) pos wm1))
/-- INS reads gd as well as writing it (R111). -/
def execIns (rd ra : Reg) (pos wm1 : BitVec 6) (s : State) : Res :=
  .next (s.setG rd (insOp (s.g rd) (s.g ra) pos wm1))
def execMad (rd ra rb rc : Reg) (s : State) : Res := .next (s.setG rd (s.g ra * s.g rb + s.g rc))
def execAdds (rd ra rb : Reg) (sh : ShAmt) (s : State) : Res :=
  .next (s.setG rd (addsOp sh (s.g ra) (s.g rb)))
def execCrcw (rd ra rb : Reg) (z : Size) (s : State) : Res :=
  .next (s.setG rd (crcOp z (s.g ra) (s.g rb)))
def execAddi (rd ra : Reg) (imm : BitVec 15) (s : State) : Res := .next (s.setG rd (s.g ra + sext imm))
def execAndi (rd ra : Reg) (imm : BitVec 15) (s : State) : Res := .next (s.setG rd (s.g ra &&& sext imm))
def execOri (rd ra : Reg) (imm : BitVec 15) (s : State) : Res :=
  .next (s.setG rd (s.g ra ||| imm.setWidth 64))
def execXori (rd ra : Reg) (imm : BitVec 15) (s : State) : Res :=
  .next (s.setG rd (s.g ra ^^^ imm.setWidth 64))
def execShli (rd ra : Reg) (n : BitVec 6) (s : State) : Res := .next (s.setG rd (shlOp (s.g ra) n.toNat))
def execShri (rd ra : Reg) (n : BitVec 6) (s : State) : Res := .next (s.setG rd (shrOp (s.g ra) n.toNat))
def execSari (rd ra : Reg) (n : BitVec 6) (s : State) : Res := .next (s.setG rd (sarOp (s.g ra) n.toNat))
def execSeqi (rd ra : Reg) (imm : BitVec 13) (s : State) : Res :=
  .next (s.setG rd (ofBool (s.g ra == sext imm)))
def execSlti (rd ra : Reg) (imm : BitVec 13) (s : State) : Res :=
  .next (s.setG rd (ofBool ((s.g ra).slt (sext imm))))
def execSltiu (rd ra : Reg) (imm : BitVec 13) (s : State) : Res :=
  .next (s.setG rd (ofBool ((s.g ra).ult (sext imm))))
def execMovi (rd : Reg) (imm : BitVec 19) (s : State) : Res := .next (s.setG rd (sext imm))
def execMovx (rd : Reg) (x : BitVec 32) (s : State) : Res := .next (s.setG rd (sext x))
/-- MOVHX keeps gd[31:0] (R120). -/
def execMovhx (rd : Reg) (x : BitVec 32) (s : State) : Res := .next (s.setG rd (movhxOp (s.g rd) x))
def execMuli (rd ra : Reg) (imm : BitVec 15) (s : State) : Res := .next (s.setG rd (s.g ra * sext imm))

end Sys2Proof.Machine
end

