-- ==== Sys2Proof/Machine/Local.lean ====
section
/-! DEFINITION. The local memory instructions, C-class majors 0x20 to 0x28 (R153-R165). -/

namespace Sys2Proof.Machine

/-- ZeroExt or SignExt of the bytes that a load reads (R160, R181). -/
def loadWord (sx : Bool) (bs : List Byte) : Word :=
  let n := ofBytes bs
  if sx && decide (2 ^ (8 * bs.length - 1) ≤ n) then BitVec.ofInt 64 ((n : Int) - 2 ^ (8 * bs.length))
  else BitVec.ofNat 64 n

/-- The odd register of a pair (R160). -/
def pairOf (r : Reg) : Reg := r + 1

namespace State

/-- A plain load of n bytes, performed in its issue cycle (R160, R165). -/
def load (s : State) (ins : Instr) (base : Reg) (off : BitVec 12) (n : Nat)
    (k : State → List Byte → State) : State :=
  let a := s.ea base off
  s.withAddr ins a n n fun pa =>
    if s.spadPoisoned s.cur.pos pa n then s.trap .checkFail a else k s (s.spadRead s.cur.pos pa n)

/-- Enter a plain store into the buffer; it takes its place in the core's total order now (R159,
R165). -/
def enterStore (s : State) (pa : Nat) (bs : List Byte) : State :=
  (s.spadWrite s.cur.pos pa bs).pushEntry s.cur.pos s.me.tid (.scratch pa bs.length)

/-- A plain store: traps, then the entry, which waits while the buffer is full (R159). -/
def store (s : State) (ins : Instr) (base : Reg) (off : BitVec 12) (bs : List Byte) : State :=
  let wait (pa : Nat) : State := s.park ins 1 [BitVec.ofNat 64 pa] .room
  let go (pa : Nat) : State := if s.bufferFull s.cur.pos then wait pa else s.enterStore pa bs
  if s.cur.phase = 0 then s.withAddr ins (s.ea base off) bs.length bs.length go
  else go (s.cur.held.getD 0 0).toNat

/-- A full/empty operation: traps, then the wait of R161 and R162, which ends at once where its
condition holds. -/
def feAccess (s : State) (ins : Instr) (op : FeOp) (r : Reg) (base : Reg) (off : BitVec 12) : State :=
  let a := s.ea base off
  s.withAddr ins a 8 8 fun pa =>
    let loads := op == .ldf || op == .ldw
    if loads && s.spadPoisoned s.cur.pos pa 8 then s.trap .checkFail a
    else
      let v := if op = .stf then s.g r else a
      (s.park ins 1 [] (.fe op (pa / 8) r v (s.feAfter s.cur.pos (pa / 8) s.cur.slot op))).feSettle s.cur.pos

end State

/-- LD (R160). -/
def execLd (rd base : Reg) (sx : Bool) (z : Size) (off : BitVec 12) (s : State) : Res :=
  .next (s.load (.ld rd base sx z off) base off (Size.bytes z) fun t bs => t.setG rd (loadWord sx bs))

/-- ST (R160). -/
def execSt (rs base : Reg) (z : Size) (off : BitVec 12) (s : State) : Res :=
  .next (s.store (.st rs base z off) base off (toBytes (Size.bytes z) (s.g rs).toNat))

/-- LDP (R160). -/
def execLdp (rd base : Reg) (off : BitVec 12) (s : State) : Res :=
  .next (s.load (.ldp rd base off) base off 16 fun t bs =>
    (t.setG rd (loadWord false (bs.take 8))).setG (pairOf rd) (loadWord false (bs.drop 8)))

/-- STP (R160). -/
def execStp (rs base : Reg) (off : BitVec 12) (s : State) : Res :=
  .next (s.store (.stp rs base off) base off
    (toBytes 8 (s.g rs).toNat ++ toBytes 8 (s.g (pairOf rs)).toNat))

/-- LDF (R161). -/
def execLdf (rd base : Reg) (off : BitVec 12) (s : State) : Res :=
  .next (s.feAccess (.ldf rd base off) .ldf rd base off)

/-- LDW (R161). -/
def execLdw (rd base : Reg) (off : BitVec 12) (s : State) : Res :=
  .next (s.feAccess (.ldw rd base off) .ldw rd base off)

/-- STF (R161). -/
def execStf (rs base : Reg) (off : BitVec 12) (s : State) : Res :=
  .next (s.feAccess (.stf rs base off) .stf rs base off)

/-- SETE (R161). -/
def execSete (base : Reg) (off : BitVec 12) (s : State) : Res :=
  .next (s.feAccess (.sete base off) .sete 0 base off)

/-- FEST (R161). -/
def execFest (rd base : Reg) (off : BitVec 12) (s : State) : Res :=
  .next (s.feAccess (.fest rd base off) .fest rd base off)

end Sys2Proof.Machine
end

