-- ==== Sys2Proof/Machine/Objects.lean ====
section
/-! DEFINITION. The object-addressed memory instructions, C-class majors 0x30 to 0x35 (R166-R184). -/

namespace Sys2Proof.Machine

/-- The exact element index of OLD, OST and OLDC (R181). -/
def elemIndex (ref : Word) (off : BitVec 12) : Int := (bits ref 39 0 : Int) + off.toInt

/-- No test beyond those of R180. -/
def noExtra (_ : Rec) : Option (Cause × Word) := none

namespace State

/-- OLD and OLDC (R181). -/
def oldAccess (s : State) (ins : Instr) (rd ra : Reg) (sx : Bool) (z : Size) (off : BitVec 12)
    (comb : Bool) : State :=
  let n := Size.bytes z
  s.elemAccess ins (s.g ra) (elemIndex (s.g ra) off) Rec.permR n noExtra fun t r i =>
    t.elemLoad ins r (s.g ra) i n comb rd sx

end State

/-- OLD (R181). -/
def execOld (rd ra : Reg) (sx : Bool) (z : Size) (off : BitVec 12) (s : State) : Res :=
  .next (s.oldAccess (.old rd ra sx z off) rd ra sx z off false)

/-- OLDC (R181, R190). -/
def execOldc (rd ra : Reg) (sx : Bool) (z : Size) (off : BitVec 12) (s : State) : Res :=
  .next (s.oldAccess (.oldc rd ra sx z off) rd ra sx z off true)

/-- OST (R181). -/
def execOst (rs ra : Reg) (z : Size) (off : BitVec 12) (s : State) : Res :=
  let n := Size.bytes z
  let ins := Instr.ost rs ra z off
  .next (s.elemAccess ins (s.g ra) (elemIndex (s.g ra) off) Rec.permW n noExtra fun t r i =>
    t.elemStore ins r (s.g ra) i n (.store (toBytes n (s.g rs).toNat)))

/-- The field of a record that ORQ reads (R182). -/
def orqField (r : Rec) (f : Nat) : Word :=
  match f with
  | 0 => BitVec.ofNat 64 r.base
  | 1 => BitVec.ofNat 64 r.rank
  | 2 => BitVec.ofNat 64 (r.dim 0)
  | 3 => BitVec.ofNat 64 (r.dim 1)
  | 4 => BitVec.ofNat 64 (r.dim 2)
  | 5 => BitVec.ofNat 64 (r.dim 3)
  | 6 => BitVec.ofNat 64 (r.str 0)
  | 7 => BitVec.ofNat 64 (r.str 1)
  | 8 => BitVec.ofNat 64 (r.str 2)
  | 9 => BitVec.ofNat 64 (r.str 3)
  | 10 => BitVec.ofNat 64 r.fmt
  | 11 => BitVec.ofNat 64 (r.tiled.toNat * 8 + r.swz)
  | 12 => BitVec.ofNat 64 (bits (r.get 5) 15 0)
  | 13 => BitVec.ofNat 64 r.twin
  | 14 => r.get 6
  | _ => r.get 7

/-- ORQ (R182). -/
def execOrq (rd ra : Reg) (f : BitVec 4) (s : State) : Res :=
  .next (s.withRecord (State.objOf (s.g ra)) (s.g ra) fun r => s.setG rd (orqField r f.toNat))

/-- The result of OPRB from a record, the granule and its bitmap byte (R183). -/
def oprbWord (s : State) (r : Rec) (j : Nat) (b : Byte) : Word :=
  BitVec.ofNat 64
    (j % 2 ^ 24 * 2 ^ 16 + b.toNat % 128 * 2 ^ 9 + r.rvk.toNat * 2 ^ 8 + (s.affinity r).isSome.toNat * 8 +
      (r.moving && j == r.wmark).toNat * 4 + r.moving.toNat * 2 + b.toNat / 128)

/-- OPRB (R183): the bitmap byte returns after a time that is not stated; a frame that is not mapped
is reported and waited for (R173). -/
def execOprb (rd ra : Reg) (s : State) : Res :=
  let ref := s.g ra
  let i := bits ref 39 0
  .next
    (if s.cur.phase = 0 then
      s.withRecord (State.objOf ref) ref fun r =>
        if r.count ≤ i then s.trap .outOfShape ref else s.park (.oprb rd ra) 1 [] .poll
     else
       let c := s.coin
       let tb := tableBase s.cur.src.ortb
       match c.1, s.homeRecord (State.objOf ref) with
       | true, none =>
         (c.2.reportMiss (tb + 64 * State.objOf ref)).park (.oprb rd ra) 1 [] (.frame (tb + 64 * State.objOf ref))
       | true, some r =>
         let j := r.granule (r.offset i)
         match s.rmapByte r j with
         | some b =>
           ((c.2.recordRead tb (State.objOf ref)).rmapRead r j).setG rd (oprbWord s r j b)
         | none => (c.2.reportMiss (r.rmap + j)).park (.oprb rd ra) 1 [] (.frame (r.rmap + j))
       | _, _ => c.2.park (.oprb rd ra) 1 [] .poll)

/-- OREF (R184). -/
def execOref (rd ra rb : Reg) (s : State) : Res :=
  let ref := s.g ra
  let idx : Int := (bits ref 39 0 : Int) + (s.g rb).toInt
  .next (s.withRecord (State.objOf ref) ref fun r =>
    if idx < 0 || (r.count : Int) ≤ idx then s.trap .outOfShape (State.refWith ref idx)
    else s.setG rd (State.refWith ref idx))

end Sys2Proof.Machine
end

