-- ==== Sys2Proof/Machine/Atomics.lean ====
section
/-! DEFINITION. Atomics, reductions, combinable, acquiring and releasing accesses and fences, C-class
majors 0x40 to 0x4A (R185-R207). -/

namespace Sys2Proof.Machine

def ASize.bytes (z : ASize) : Nat := match z with | .d => 8 | .w => 4

/-- The signed value of the low n bytes. -/
def signedOf (n w : Nat) : Int := if w < 2 ^ (8 * n - 1) then w else (w : Int) - 2 ^ (8 * n)

/-- The new value of a returning atomic (R200), of n bytes. -/
def atomNew (op : AtomOp) (n old v expect : Nat) : Nat :=
  match op with
  | .add => (old + v) % 2 ^ (8 * n)
  | .incb => if old < v then old + 1 else old
  | .min => if signedOf n v < signedOf n old then v else old
  | .max => if signedOf n old < signedOf n v then v else old
  | .minu => Nat.min old v
  | .maxu => Nat.max old v
  | .tmin => if totalKey (8 * n) v < totalKey (8 * n) old then v else old
  | .tmax => if totalKey (8 * n) old < totalKey (8 * n) v then v else old
  | .and => old &&& v
  | .or => old ||| v
  | .xor => old ^^^ v
  | .swap => v
  | .cas => if old = expect then v else old

/-- Round(a + b, FP32 or FP64, RNE) (R189, R201). -/
def faddBits (n a b : Nat) : Nat :=
  let f := if n = 8 then f64 else f32
  f.round .rne false ((f.value a).add .rne (f.value b))

/-- The new value of a RED other than .SADD (R201), of n bytes. -/
def redNew (op : RedOp) (n old v : Nat) : Nat :=
  match op with
  | .add => (old + v) % 2 ^ (8 * n)
  | .fadd => faddBits n old v
  | .max => if signedOf n old < signedOf n v then v else old
  | .min => if signedOf n v < signedOf n old then v else old
  | .sadd => wrapInt (8 * n) (State.satTo n (signedOf n old + signedOf n v))

namespace State

/-- An atomic or RED on the host window (R199 step 4). -/
def windowTest (s : State) (ref : Word) (i : Nat) (r : Rec) : Option (Cause × Word) :=
  if s.reachesWindow r i then some (.objPerm, ref) else none

/-- A returning atomic (R200). -/
def atomic (s : State) (ins : Instr) (op : AtomOp) (rd ra rb : Reg) (z : ASize) : State :=
  let n := ASize.bytes z
  let ref := s.g ra
  let i := bits ref 39 0
  s.elemAccess ins ref i Rec.permA n (s.windowTest ref i) fun t r i =>
    t.elemAtomic ins r ref i n (.atomic op (s.g rb) (s.g rd)) rd

end State

def execAadd (rd ra rb : Reg) (z : ASize) (s : State) : Res :=
  .next (s.atomic (.aadd rd ra rb z) .add rd ra rb z)
def execAincb (rd ra rb : Reg) (z : ASize) (s : State) : Res :=
  .next (s.atomic (.aincb rd ra rb z) .incb rd ra rb z)
def execAmin (rd ra rb : Reg) (t : Bool) (z : ASize) (s : State) : Res :=
  .next (s.atomic (.amin rd ra rb t z) (if t then .tmin else .min) rd ra rb z)
def execAmax (rd ra rb : Reg) (t : Bool) (z : ASize) (s : State) : Res :=
  .next (s.atomic (.amax rd ra rb t z) (if t then .tmax else .max) rd ra rb z)
def execAminu (rd ra rb : Reg) (z : ASize) (s : State) : Res :=
  .next (s.atomic (.aminu rd ra rb z) .minu rd ra rb z)
def execAmaxu (rd ra rb : Reg) (z : ASize) (s : State) : Res :=
  .next (s.atomic (.amaxu rd ra rb z) .maxu rd ra rb z)
def execAand (rd ra rb : Reg) (z : ASize) (s : State) : Res :=
  .next (s.atomic (.aand rd ra rb z) .and rd ra rb z)
def execAor (rd ra rb : Reg) (z : ASize) (s : State) : Res :=
  .next (s.atomic (.aor rd ra rb z) .or rd ra rb z)
def execAxor (rd ra rb : Reg) (z : ASize) (s : State) : Res :=
  .next (s.atomic (.axor rd ra rb z) .xor rd ra rb z)
def execAswp (rd ra rb : Reg) (z : ASize) (s : State) : Res :=
  .next (s.atomic (.aswp rd ra rb z) .swap rd ra rb z)
def execAcas (rd ra rb : Reg) (z : ASize) (s : State) : Res :=
  .next (s.atomic (.acas rd ra rb z) .cas rd ra rb z)

/-- The tests of RED after those of R180: FORMAT of .FADD, then the host window (R199). -/
def redTest (s : State) (op : RedOp) (z : ASize) (ref : Word) (i : Nat) (r : Rec) :
    Option (Cause × Word) :=
  if op = .fadd && r.fmt ≠ (match z with | .d => 0x8 | .w => 0x9) then some (.format, State.refWith ref i)
  else s.windowTest ref i r

/-- RED (R201); a poisoned line is consumed once its granule is resident (R329). -/
def execRed (ra rb : Reg) (op : RedOp) (z : ASize) (s : State) : Res :=
  let n := ASize.bytes z
  let ref := s.g ra
  let i := bits ref 39 0
  let ins := Instr.red ra rb op z
  .next (s.elemAccess ins ref i Rec.permA n (redTest s op z ref i) fun t r i =>
    t.elemStore ins r ref i n (.red op (s.g rb)))

/-- The exact index of LDC, LDACQ and STREL (R199). -/
def byteIndex (ref : Word) (off : BitVec 12) (n : Nat) : Int := (bits ref 39 0 : Int) + off.toInt / n

/-- LDC (R202). -/
def execLdc (rd ra : Reg) (sx : Bool) (z : Size) (off : BitVec 12) (s : State) : Res :=
  let n := Size.bytes z
  let ins := Instr.ldc rd ra sx z off
  let ref := s.g ra
  .next
    (if off.toInt % n ≠ 0 then s.trap .align (sext off)
     else s.elemAccess ins ref (byteIndex ref off n) Rec.permR n noExtra fun t r i =>
       t.elemLoad ins r ref i n true rd sx)

/-- LDACQ (R203): a plain load; the thread waits for it, so its later accesses follow it. -/
def execLdacq (rd ra : Reg) (sc : Scope) (off : BitVec 12) (s : State) : Res :=
  let ins := Instr.ldacq rd ra sc off
  let ref := s.g ra
  .next
    (if off.toInt % 8 ≠ 0 then s.trap .align (sext off)
     else s.elemAccess ins ref (byteIndex ref off 8) Rec.permR 8 noExtra fun t r i =>
       t.elemLoad ins r ref i 8 false rd false)

/-- STREL (R203): its tests, Release(s) at the core where it was issued (R193, R195), an affinity migration (R178), then
the store.  Once the release is over it goes on with the record as its home holds it. -/
def execStrel (rs ra : Reg) (sc : Scope) (off : BitVec 12) (s : State) : Res :=
  let ins := Instr.strel rs ra sc off
  let ref := s.g ra
  let obj := State.objOf ref
  let idx := byteIndex ref off 8
  let put (t : State) (r : Rec) (i : Nat) : State := t.elemStore ins r ref i 8 (.store (toBytes 8 (s.g rs).toNat))
  let go (t : State) (r : Rec) : State :=
    match t.affinity r with
    | some v => t.migrate ins 1 [] v ref
    | none => put t r idx.toNat
  .next
    (if off.toInt % 8 ≠ 0 then s.trap .align (sext off)
     else
       match s.cur.phase with
       | 0 =>
         s.withRecord obj ref fun r =>
           s.elemTested ref idx Rec.permW 8 noExtra r
             (s.keepTable.release sc ins 2 [s.cur.src.ortb] fun t => go t r)
       | 2 =>
         let t := (s.released sc).keptTable
         match t.homeRecord obj with
         | none => t.parkRecord ins 2 obj idx.toNat
         | some r =>
           if r.rvk then t.revokeHalf ref
           else go (t.recordRead (tableBase t.cur.src.ortb) obj) r
       | _ => s.elemAccess ins ref idx Rec.permW 8 noExtra put)

/-- FENCE (R204): what it orders is over when the thread goes on. -/
def execFence (sc : Scope) (k : FenceK) (s : State) : Res :=
  .next
    (match k with
     | .acq => s
     | .rel | .full =>
       if s.cur.phase = 0 then s.release sc (.fence sc k) 1 [] id else s.released sc)

end Sys2Proof.Machine
end

