-- ==== Sys2Proof/Machine/Tasks.lean ====
section
/-! DEFINITION. Tasks, counters, barriers, stages and helpers, C-class majors 0x10 to 0x1E
(R136-R152), but for the dispatcher, which is in Sched.lean. -/

namespace Sys2Proof.Machine

/-! ### Work packets (R136) -/

namespace Pkt

abbrev Words := Vector Word 16

def pc (p : Words) : Word := BitVec.ofNat 64 (bits (p.get 0) 37 0)
def prio (p : Words) : Nat := bits (p.get 0) 39 38
def ndep (p : Words) : Nat := bits (p.get 0) 42 40
def any (p : Words) : Bool := bit (p.get 0) 43
def move (p : Words) : Bool := bit (p.get 0) 44
def vcore (p : Words) : Nat := bits (p.get 1) 35 0
def gangId (p : Words) : Nat := bits (p.get 2) 31 0
def gw (p : Words) : Nat := bits (p.get 2) 34 32 + 1
def gh (p : Words) : Nat := bits (p.get 2) 37 35 + 1
def gang (p : Words) : Bool := bit (p.get 2) 38
def member (p : Words) : Nat := bits (p.get 2) 47 39
def dep (p : Words) (i : Fin 4) : Word := p.get (Fin.ofNat 16 (3 + i.val))
def cpl (p : Words) : Word := p.get 7
/-- A shadow value TS0 to TS7. -/
def ts (p : Words) (i : Fin 8) : Word := p.get (Fin.ofNat 16 (8 + i.val))

/-- An address that is 0 or a well-formed remote one (R46, R142). -/
def addrOk (a : Word) : Bool := a == 0 || (remoteAddr a).isSome

/-- The reserved bits and field constraints of R136, with supervisor mode of the submitter. -/
def ok (p : Words) (sup : Bool) : Bool :=
  bits (p.get 0) 63 45 == 0 && bits (p.get 1) 63 36 == 0 && bits (p.get 2) 63 48 == 0 &&
  decide (ndep p ≤ 4) &&
  (!move p || (sup && !gang p && !any p)) &&
  (!any p || (gang p && vcore p == 0)) &&
  (gang p || (gangId p == 0 && gw p == 1 && gh p == 1 && member p == 0 && !any p)) &&
  ((List.finRange 4).all fun i => addrOk (dep p i) && (decide (i.val < ndep p) || dep p i == 0)) &&
  addrOk (cpl p)

end Pkt

namespace State

/-- Is a package of a vcore identifier in the partition (R142, R273)? -/
def inPart (s : State) (v : Nat) : Bool := pkgOf v == s.pkg || s.part.packages.contains (pkgOf v)

/-- Can a cluster hold a gang's cores (R25, R140)? -/
def clusterUsable (s : State) (d c : Nat) : Bool :=
  !((s.die d).retired.contains c) && (List.range 8).all fun k => !(s.core (512 * d + 8 * c + k)).sealed

/-- The clusters of a block, in the order of member placement (R140). -/
def blockClusters (b : Block) : List Nat :=
  (List.range b.h).flatMap fun j =>
    (List.range b.w).map fun i => (b.x0 + i) % 8 + 8 * ((b.y0 + j) % 8)

/-- Every block of a shape, by lowest die, then y0, then x0 (R140). -/
def blocks (w h : Nat) : List Block :=
  (List.range 8).flatMap fun d => (List.range 8).flatMap fun y =>
    (List.range 8).map fun x => ⟨d, x, y, w, h⟩

/-- GANG_UNPLACEABLE (R140). -/
def gangUnplaceable (s : State) (p : Pkt.Words) : Bool :=
  decide (8 * Pkt.gw p * Pkt.gh p ≤ Pkt.member p) ||
    !((blocks (Pkt.gw p) (Pkt.gh p)).any fun b =>
      (blockClusters b).all fun c => s.clusterUsable b.die c)

/-- A packet enters the task queue (R137); one with no dependence word is ready at once. -/
def submit (s : State) (p : Pkt.Words) (epoch : Nat) : State :=
  let n := s.fresh1
  let e : Packet :=
    { w := p, accepted := s.time, epoch := epoch
      ready := if Pkt.ndep p = 0 then some s.time else none }
  n.2.updPart fun q => { q with queue := q.queue.put n.1 e }

/-- Eight bytes of a core's scratchpad as a word. -/
def spad64 (s : State) (p a : Nat) : Word := BitVec.ofNat 64 (ofBytes (s.spadRead p a 8))

/-- Has the task queue room for another packet (R142)?  What it holds the spec does not say (log entry 77). -/
def queueRoom (s : State) : Bool := decide (s.part.queue.length < Config.queueRoom + 1)

/-- The packet of words carried between phases. -/
def packetOf (ws : List Word) : Pkt.Words := Vector.ofFn fun i => ws.getD i.val 0

/-- The end of SPAWN: the task queue accepts the packet, or a full queue holds the thread (R142). -/
def enqueue (s : State) (ins : Instr) (ws : List Word) : State :=
  if s.queueRoom then s.submit (packetOf ws) 0 else s.park ins 1 ws .poll

end State

/-- SPAWN (R142). -/
def execSpawn (ra : Reg) (s : State) : Res :=
  let a := s.g ra
  let ins := Instr.spawn ra
  .next
    (if s.cur.phase = 0 then
      if a.toNat % 128 ≠ 0 then s.trap .align a
      else if bit a 63 then s.trap .localRange a
      else s.withAddr ins a 128 128 fun pa =>
        if s.spadPoisoned s.cur.pos pa 128 then s.trap .checkFail a
        else
          let ws := (List.range 16).map fun i => s.spad64 s.cur.pos (pa + 8 * i)
          let p := State.packetOf ws
          if !Pkt.ok p s.sup then s.trap .illegal a
          else if (Pkt.pc p).toNat % 8 ≠ 0 then s.trap .align (Pkt.pc p)
          else if !s.inPart (Pkt.vcore p) then s.trap .undeliverable (p.get 1)
          else if Pkt.gang p && s.gangUnplaceable p then s.trap .gangUnplaceable 0
          else s.release .dev ins 1 ws fun t => t.enqueue ins ws
     else (s.released .dev).enqueue ins s.cur.held)

namespace State

/-- The progress count rises (R343). -/
def progressed (s : State) : State :=
  s.updPart fun p => { p with progress := p.progress + 1, moved := s.time }

/-- What a completion word's address leads to (R143): discard, wait for the vcore to be placed, or the
core and scratchpad address.  A word that is not aligned or lies beyond its vcore's segment is discarded, which is
the model's choice (log entry 78). -/
inductive Fill where
  | discard
  | wait
  | word (p a : Nat)
  deriving DecidableEq, Repr

/-- Where a completion word is (R143). -/
def fillAt (s : State) (cpl : Word) : Fill :=
  match remoteAddr cpl with
  | none => .discard
  | some (v, off) =>
    if pkgOf v ≠ s.pkg then .discard
    else
      let x := s.vcore v
      match x.place with
      | .exited => .discard
      | .unplaced => .wait
      | _ =>
        if x.lock || !s.dieRuns (dieOf x.pos) then .wait
        else if segLimit (s.keptSeg v) < off + 8 || off % 8 ≠ 0 then .discard
        else .word x.pos (segBase (s.keptSeg v) + off)

/-- Fill a completion word (R143): ts0 is written and the word set full, without waiting.  Where the fill stands among
the accesses of its cycle R165 does not say: the model performs it at once (log entry 98). -/
def fill (s : State) (p a : Nat) (w : Word) : State :=
  ((s.spadWrite p a (toBytes 8 w.toNat)).setFull p (a / 8) true).feRelease p (a / 8) 16

/-- Write element 0 of the INT64 object that FREC names (R345). -/
def writeFrec (s : State) (e : Nat) : State :=
  match s.recordAt (tableBase s.part.ortb) (bits s.part.frec 23 0) with
  | none => s
  | some r =>
    if bits s.part.frec 23 0 = 0 || !r.ok then s
    else
      match s.hpaOf (elemAddr r 0) with
      | none => s
      | some a => s.memWrite a (toBytes 8 e)

/-- A packet of a host graph has retired; when every packet of its epoch has, Spahan writes the epoch to
the fence record (R345). -/
def retireGraph (s : State) (pid : Nat) : State :=
  match s.part.graphs.find? fun g => g.pid == pid with
  | none => s
  | some g =>
    let gs := s.part.graphs.map fun x => if x.pid = pid then { x with retired := true } else x
    let t := s.updPart fun p => { p with graphs := gs }
    if gs.all fun x => x.epoch != g.epoch || x.retired then t.writeFrec g.epoch else t

/-- The thread in a slot retires (R143): a redundant pair frees both slots (R342). -/
def retire (s : State) (p : Nat) (j : Fin 16) : State :=
  let x := s.slotAt p j
  let t := match x.pair with
    | some k => s.updSlot p k vacated
    | none => s
  (((t.leaveSlot p j).setMap x.tid { s.mapEntry x.tid with state := .none, saved := none }).updPart
    fun q => { q with live := q.live.del x.pid }).progressed.retireGraph x.pid

/-- Put an item into the network. -/
def inject (s : State) (x : Item) : State :=
  let n := s.fresh1
  { n.2 with net := n.2.net.put n.1 x }

/-- The fill of a completion word (R143) from a core, or from another package: a word on another die, or one whose vcore
cannot take it yet, is filled by an item in the network (R361, R385). -/
def fillFrom (s : State) (src : Option Nat) (cpl w : Word) : State :=
  let send (p : Nat) : State :=
    s.inject { load := .fill cpl w, key := s.part.key, dst := p, die := dieOf (src.getD p) }
  match s.fillAt cpl with
  | .discard => s
  | .word p a => if dieOf p = dieOf (src.getD p) then s.fill p a w else send p
  | .wait => send (s.posOf (bits cpl 59 24))

/-- The fill of a completion word by the task that retires at the core at work. -/
def fillWord (s : State) (cpl w : Word) : State := s.fillFrom (some s.cur.pos) cpl w

/-- The end of TDONE, after its release (R143) and after the other half of its bundle (R52). -/
def taskDone (s : State) : State :=
  let x := s.me
  if x.pendA.isSome then s.park .tdone 1 [] .poll
  else (if x.cpl = 0 then s else s.fillWord x.cpl (s.ts 0)).retire s.cur.pos s.cur.slot

end State

/-- TDONE (R143); in a helper it ends the helper (R152). -/
def execTdone (s : State) : Res :=
  .next
    (match s.me.life with
     | .helper _ => s.updMe State.vacated
     | _ =>
       if s.cur.phase = 0 then s.release .sys .tdone 1 [] fun t => t.taskDone
       else (s.released .sys).taskDone)

namespace State

/-- The core that a ready packet other than a movement packet waits for (R139). -/
def packetFor (s : State) (q : Packet) (pos : Nat) : Bool :=
  q.ready.isSome && !Pkt.move q.w &&
  (if Pkt.any q.w then
    s.vcores.any fun v =>
      v.2.pos == pos && v.2.place == .placed &&
        (match v.2.gang with
         | some g => g.1 == Pkt.gangId q.w
         | none => false)
   else if Pkt.gang q.w && !q.again then false
   else
     let v := s.vcore (Pkt.vcore q.w)
     v.pos == pos && (v.place == .placed || v.place == .folded))

/-- Does a ready movement packet wait for a core (R141)? -/
def moveFor (s : State) (q : Packet) (pos : Nat) : Bool :=
  let v := s.vcore (Pkt.vcore q.w)
  q.ready.isSome && Pkt.move q.w && v.pos == pos && (v.place == .placed || v.place == .folded)

/-- TYLD's condition (R144) for a slot: work waits for the core, and no slot that it could take is empty (log entry
79). -/
def workWaits (s : State) (p : Nat) (j : Fin 16) : Bool :=
  let c := s.core p
  let move := (c.slots.get 15).busy && s.part.queue.any fun q => s.moveFor q.2 p
  ((!c.guests.isEmpty || (s.part.queue.any fun q => s.packetFor q.2 p) || move) && (lowestEmpty c).isNone) ||
    (j == 15 && move)

/-- Would a guest that yields find the guest queue full, with no slot that its head may take (R27, R341)? -/
def guestStays (c : Core) : Bool := decide (8 ≤ c.guests.length) && dualWaits c

/-- The thread leaves its slot as a dispatcher entry of its vcore (R144), the movement thread as one for slot 15. -/
def yieldTask (s : State) : State :=
  let x := s.me
  let n := s.fresh1
  let move := if s.cur.slot = 15 then 2 ^ 44 else 0
  let e : Packet :=
    { w := vput (vput (Vector.replicate 16 0) 1 (BitVec.ofNat 64 x.tid.vc)) 0
        (BitVec.ofNat 64 (x.prio * 2 ^ 38 + move))
      accepted := s.time, ready := some s.time, yielded := some x.tid }
  let t := n.2.updPart fun q => { q with queue := q.queue.put n.1 e }
  (t.freeSlot s.cur.pos s.cur.slot).setMap x.tid
    { s.mapEntry x.tid with state := .yielded, saved := some x }

/-- A guest rejoins the tail of the core's guest queue (R144). -/
def yieldGuest (s : State) : State :=
  let x := s.me
  let t := s.setMap x.tid { s.mapEntry x.tid with state := .inFlight }
  (t.updCore s.cur.pos fun c => { c with guests := c.guests ++ [x] }).freeSlot s.cur.pos s.cur.slot

end State

/-- TYLD (R144); the thread leaves once the other half of its bundle has completed (R52).  A guest that the guest queue
cannot take stays (log entry 79). -/
def execTyld (s : State) : Res :=
  .next
    (if !s.workWaits s.cur.pos s.cur.slot || (Tsw.g s.cur.src.tsw && State.guestStays (s.core s.cur.pos)) then s
     else if s.me.pendA.isSome then s.park .tyld 1 [] .poll
     else if Tsw.g s.cur.src.tsw then s.yieldGuest
     else s.yieldTask)

/-- TSRD (R145); a supervisor core's thread is no tile task. -/
def execTsrd (rd : Reg) (n : Fin 8) (s : State) : Res := .next (s.setG rd (if s.cur.pos < 4096 then s.ts n else 0))

/-! ### Cluster iteration counters (R146) -/

/-- CHSET's counter (R146). -/
def counterOf (a b : Word) : Counter :=
  { next := 0, remaining := BitVec.ofNat 32 (bits a 31 0)
    p := if bits b 15 0 = 0 then 1 else BitVec.ofNat 16 (bits b 15 0)
    minimum := if bits b 47 16 = 0 then 1 else BitVec.ofNat 32 (bits b 47 16) }

/-- The size of the next chunk (R41, R146). -/
def chunkSize (c : Counter) : Nat :=
  min c.remaining.toNat
    (max c.minimum.toNat ((c.remaining.toNat + 2 * c.p.toNat - 1) / (2 * c.p.toNat)))

/-- The counter after a chunk. -/
def chunkTake (c : Counter) : Counter :=
  { c with next := c.next + BitVec.ofNat 32 (chunkSize c)
           remaining := c.remaining - BitVec.ofNat 32 (chunkSize c) }

/-- CHUNK's result: count in [63:32], first index in [31:0]. -/
def chunkWord (c : Counter) : Word := BitVec.ofNat 64 (chunkSize c * 2 ^ 32 + c.next.toNat)

def execChset (n : Fin 8) (ra rb : Reg) (s : State) : Res :=
  .next (s.updCluster (cluOf s.cur.pos) fun k =>
    { k with ctr := vput k.ctr n (counterOf (s.g ra) (s.g rb)) })

def execChunk (rd : Reg) (n : Fin 8) (s : State) : Res :=
  let k := cluOf s.cur.pos
  let c := (s.cluster k).ctr.get n
  .next ((s.updCluster k fun x => { x with ctr := vput x.ctr n (chunkTake c) }).setG rd (chunkWord c))

/-! ### The barrier tree (R147) -/

namespace State

/-- Has every core in M arrived? -/
def allArrived (mask : BitVec 8) (a : Vector Nat 8) : Bool :=
  (List.finRange 8).all fun i => !mask.getLsbD i.val || decide (0 < a.get i)

/-- A leaf's arrival reaches the root: when every core in M has arrived the phase advances, and is present at the
leaves 6 cycles later; an arrival beyond a core's first counts toward the next phase. -/
def arrive (s : State) (p : Nat) : State :=
  s.updCluster (cluOf p) fun k =>
    if !k.mask.getLsbD (p % 8) then k
    else
      let a := vput k.arrivals (coreNum p) (k.arrivals.get (coreNum p) + 1)
      if allArrived k.mask a then
        { k with
          arrivals := a.map fun n => n - 1
          ph := k.ph + 1, phases := k.phases ++ [(s.time + 6, k.ph + 1)] }
      else { k with arrivals := a }

/-- Arrivals of a leaf whose releases have completed go to the root. -/
def barrierSettle (s : State) (p : Nat) : State :=
  let c := s.core p
  let excess (es : List Nat) : Bool := es.all fun i => !(c.buffer.any fun e => e.id == i)
  let go := (c.leaf.waiting.filter excess).length
  if go = 0 then s
  else
    let t := s.updCore p fun c =>
      { c with leaf := { c.leaf with waiting := c.leaf.waiting.filter fun es => !excess es } }
    (List.range go).foldl (fun u _ => u.arrive p) t

/-- A phase becomes present at the leaves of a cluster, and BARW waits that it ends are over. -/
def phaseArrives (s : State) (k : Nat) (ph : BitVec 16) : State :=
  (List.range 8).foldl (fun t i =>
    t.updCore (8 * k + i) fun c =>
      { c with
        leaf := { c.leaf with ph := ph }
        slots := c.slots.map fun x =>
          match x.pendC with
          | some q =>
            match q.wait with
            | .leaf w => if w = ph then x else endSlotHalf s.time false x
            | _ => x
          | none => x }) s

end State

/-- BARC (R147). -/
def execBarc (ra : Reg) (s : State) : Res :=
  let a := s.g ra
  .next ((s.updCore s.cur.pos fun c =>
      { c with leaf := { c.leaf with e := bits a 3 0, count := 0, waiting := [] } }).updCluster
    (cluOf s.cur.pos) fun k => { k with mask := BitVec.ofNat 8 (bits a 15 8), arrivals := Vector.replicate 8 0 })

/-- BARR (R147): a Release(.CLUS) that the thread does not wait for. -/
def execBarr (rd : Reg) (s : State) : Res :=
  let p := s.cur.pos
  let l := (s.core p).leaf
  let t := s.setG rd (l.ph.setWidth 64)
  .next
    (if l.e = 0 then t
     else if l.count + 1 < l.e then
       t.updCore p fun c => { c with leaf := { c.leaf with count := l.count + 1 } }
     else
       (t.updCore p fun c =>
         { c with leaf := { c.leaf with count := 0, waiting := c.leaf.waiting ++ [s.covered p .clus] } }).barrierSettle p)

/-- BARW (R147). -/
def execBarw (ra : Reg) (s : State) : Res :=
  let w : BitVec 16 := BitVec.ofNat 16 (bits (s.g ra) 15 0)
  .next (if (s.core s.cur.pos).leaf.ph ≠ w then s else s.park (.barw ra) 1 [] (.leaf w))

/-! ### Sequence-tagged stages (R148, R149) -/

/-- A stage descriptor's first doubleword: N, SIZE, SLOT0. -/
def stageN (w : Word) : Nat := bits w 51 48
def stageSize (w : Word) : Nat := bits w 47 32
def stageSlot0 (w : Word) : Nat := bits w 17 0

/-- The stage operations. -/
inductive StageOp where
  | p | f | w | e
  deriving DecidableEq, Repr

namespace State

/-- Tag j of the descriptor at a scratchpad address. -/
def stageTag (s : State) (p a j : Nat) : Nat := ofBytes (s.spadRead p (a + 8 + 3 * j) 3)

/-- Write tag j. -/
def setStageTag (s : State) (p a j v : Nat) : State := s.spadWrite p (a + 8 + 3 * j) (toBytes 3 v)

/-- The slot j and the round q of a sequence number. -/
def stageJ (n seq : Nat) : Nat := seq % n
def stageQ (n seq : Nat) : Nat := seq / n % 2 ^ 22

/-- Does the tag meet the operation's condition (R149)? -/
def stageReady (s : State) (op : StageOp) (p a seq : Nat) : Bool :=
  let n := stageN (s.spad64 p a)
  let t := s.stageTag p a (stageJ n seq)
  let st := t / 2 ^ 22
  let same := t % 2 ^ 22 == stageQ n seq
  match op with
  | .p => st == 0 && same
  | .f => (st == 0 || st == 1) && same
  | .w => st == 2 && same
  | .e => st == 2 && same

/-- The tag after an operation (R149). -/
def stageMark (s : State) (op : StageOp) (p a seq : Nat) : State :=
  let n := stageN (s.spad64 p a)
  let q := stageQ n seq
  match op with
  | .p => s.setStageTag p a (stageJ n seq) (2 ^ 22 + q)
  | .f => s.setStageTag p a (stageJ n seq) (2 * 2 ^ 22 + q)
  | .w => s
  | .e => s.setStageTag p a (stageJ n seq) ((q + 1) % 2 ^ 22)

/-- A(j), the address of a sequence's slot (R149). -/
def stageAddr (s : State) (p a seq : Nat) : Word :=
  let d := s.spad64 p a
  BitVec.ofNat 64 (stageSlot0 d + 64 * stageSize d * stageJ (stageN d) seq)

/-- The stage operation that a slot waits to perform, with its descriptor and sequence number. -/
def stageWait (x : Slot) : Option (StageOp × Reg × Nat × Nat) :=
  match x.pendC with
  | none => none
  | some q =>
    if q.phase = 0 then none
    else
      let a := (q.held.getD 0 0).toNat
      let n := (q.held.getD 1 0).toNat
      match q.ins with
      | .stgp rd _ _ => some (.p, rd, a, n)
      | .stgf _ _ => some (.f, 0, a, n)
      | .stgw rd _ _ => some (.w, rd, a, n)
      | .stge _ _ => some (.e, 0, a, n)
      | _ => none

/-- Perform waiting stage operations whose tag meets their condition: every STGW first, then the
lowest-numbered slot (R149). -/
def stageLoop (s : State) (p : Nat) : Nat → State
  | 0 => s
  | fuel + 1 =>
    let ready := slotIds.filterMap fun j =>
      match stageWait (s.slotAt p j) with
      | some (op, rd, a, n) => if s.stageReady op p a n then some (j, op, rd, a, n) else none
      | none => none
    let next := match ready.filter fun y => y.2.1 == .w with
      | y :: _ => some y
      | [] => ready.head?
    match next with
    | none => s
    | some (j, op, rd, a, n) =>
      let v := s.stageAddr p a n
      stageLoop ((((s.stageMark op p a n).endHalf p j false).updSlot p j fun x =>
        if op = .p || op = .w then { x with regs := x.regs.setG rd v } else x)) p fuel

/-- Settle the stage waits of a core. -/
def stageSettle (s : State) (p : Nat) : State := s.stageLoop p 32

/-- A malformed descriptor (R149 step 3). -/
def stageBad (s : State) (p a seq : Nat) : Bool :=
  let d := s.spad64 p a
  let n := stageN d
  n == 0 || decide (8 < n) || stageSize d == 0 || bits d 63 52 != 0 || bits d 31 18 != 0 ||
    s.stageTag p a (stageJ n seq) / 2 ^ 22 == 3

/-- A stage instruction (R149): its traps, then the wait on its tag.  Its accesses stand outside the bank's order of the
cycle (R165), as do SPAWN's and a copy request's, which is the model's choice (log entry 109). -/
def stage (s : State) (ins : Instr) (a b : Word) : State :=
  let p := s.cur.pos
  if s.cur.phase = 0 then
    s.withAddr ins a 32 32 fun pa =>
      let d := s.spad64 p pa
      if segLimit s.cur.src.lseg < stageSlot0 d + 64 * stageSize d * stageN d then s.trap .localRange a
      else if s.stageBad p pa (bits b 31 0) then s.trap .illegal a
      else
        (s.park ins 1 [BitVec.ofNat 64 pa, BitVec.ofNat 64 (bits b 31 0)] .poll).stageSettle p
  else
    -- a tag that a plain store has met lets the thread issue in this cycle of its own (R124)
    let t := (s.park ins 1 s.cur.held .poll).stageSettle p
    if t.me.pendC.isNone then (t.updMe fun x => { x with ready := s.me.ready }).out .done else t

end State

def execStgp (rd ra rb : Reg) (s : State) : Res := .next (s.stage (.stgp rd ra rb) (s.g ra) (s.g rb))
def execStgf (ra rb : Reg) (s : State) : Res := .next (s.stage (.stgf ra rb) (s.g ra) (s.g rb))
def execStgw (rd ra rb : Reg) (s : State) : Res := .next (s.stage (.stgw rd ra rb) (s.g ra) (s.g rb))
def execStge (ra rb : Reg) (s : State) : Res := .next (s.stage (.stge ra rb) (s.g ra) (s.g rb))

/-! ### Run-ahead helpers (R150, R152) -/

/-- HSPAWN (R150).  The helper's slot starts with VL 32, RMODE 0 and SWQ 2,048, which is the model's choice (log
entry 80). -/
def execHspawn (off : BitVec 15) (s : State) : Res :=
  let p := s.cur.pos
  let c := s.core p
  let has := slotIds.any fun j => (c.slots.get j).busy && (c.slots.get j).life == .helper s.cur.slot
  .next
    (if has || Tsw.g s.cur.src.tsw then s
     else
       match State.lowestEmpty c with
       | none => s
       | some j =>
         let x := s.me
         let y := s.slotAt p j
         let old := y.regs
         s.setSlot p j
           { busy := true, life := .helper s.cur.slot, tid := x.tid, occ := x.occ, ready := s.time + 1
             request := y.request, passed := y.passed, asked := y.asked
             regs :=
               { old with
                 g := s.cur.src.g, ts := s.cur.src.ts
                 pc := s.pc + 8 * off.signExtend 38
                 tsw := Tsw.setSlot (Tsw.setH s.cur.src.tsw true) j.val
                 tvec := (s.vcore x.occ).tvec, lseg := s.keptSeg x.occ, ortb := (s.vcore x.occ).ortb
                 vl := 32, rmode := 0, swq := 2048, bankm := 0 } })

/-- HSTOP (R152). -/
def execHstop (s : State) : Res :=
  .next
    (match s.me.life with
     | .helper _ => s.updMe State.vacated
     | _ => s.endHelpers s.cur.pos s.cur.slot)

end Sys2Proof.Machine
end

