-- ==== Sys2Proof/Machine/Home.lean ====
section
/-! DEFINITION. What the store buffers, the homes, the record caches, the second stage and the host do
to memory: the events STORE_BUFFER_PERFORM to SECOND_STAGE_MAPPING (R123, R159, R170-R177, R185-R195,
R355, R359). -/

namespace Sys2Proof.Machine

/-- The thread identity of a buffer entry that no thread of the core issued (R283). -/
def noTid : Tid := { vc := 2 ^ 36 }

namespace State

/-! ### The store buffer (R159, R205, R206) -/

/-- The vector unit's waits for buffer entries that have ended (R213 step 1). -/
def vectorSettle (s : State) (p : Nat) : State :=
  if (s.core p).vector.isEmpty then s
  else
    s.updCore p fun c =>
      { c with
        vector := c.vector.map fun j =>
          if j.start.isNone && j.after.all fun i => !(c.buffer.any fun e => e.id == i) then
            { j with start := some s.time } else j }

/-- Buffer entries have been performed: they leave the buffer, and what waited for them is settled. -/
def entriesDone (s : State) (es : List (Nat × Nat)) : State :=
  es.foldl (fun t e =>
    (((t.updCore e.1 fun c => { c with buffer := c.buffer.filter fun x => x.id != e.2 }).feSettle
      e.1).barrierSettle e.1).vectorSettle e.1) s

/-- The guest bytes of a buffer entry. -/
def entryBytes (s : State) (e : SbEntry) : Option (Nat × Nat) :=
  match e.op with
  | .obj q => some (s.curGpa q, q.n)
  | _ => none

/-- Has an earlier entry been sent to the home that a request goes to? -/
def sentToHome (e : SbEntry) (h : Nat) : Bool :=
  match e.op with
  | .obj q => e.sent && reqHome q == h
  | _ => false

/-- Is an entry in the order of the core's own die: scratchpad and posted stores and elements homed on
the die? -/
def ownClass (s : State) (p : Nat) (e : SbEntry) : Bool :=
  match e.op with
  | .rst _ _ _ _ => true
  | _ => s.entryHere p e

/-- Does an earlier posted store of the same thread that covers a common byte still wait for its acknowledgement
(R283)?  Those on their way are earlier ones; after the thread has ended its journal tells nothing, and every
acknowledgement on its way counts. -/
def rstWaits (s : State) (tid : Tid) (entry : Fin 16) (addr : Word) (n : Nat) : Bool :=
  (s.net.any fun x => match x.2.load with
    | .rst src _ a m _ => src == tid && bits a 59 24 == bits addr 59 24 && overlap (bits a 17 0) m (bits addr 17 0) n
    | _ => false) ||
  match s.context tid with
  | none => s.net.any fun x => match x.2.load with
    | .rstAck dst _ _ => dst == tid
    | _ => false
  | some x =>
    let at' := ((x.journal.get entry).map (·.seq)).getD 0
    x.journal.toList.any fun e => match e with
      | some e =>
        decide (e.seq < at') && e.cause.isNone && bits e.addr 59 24 == bits addr 59 24 &&
          overlap (bits e.addr 17 0) (2 ^ e.size.toNat) (bits addr 17 0) n
      | none => false

/-- Is an entry a request on the same record's way (R177)? -/
def sameMove (x : SbEntry) (q : Req) : Bool :=
  match x.op with
  | .obj r => r.moving.isSome && q.moving.isSome && reqHome r == reqHome q
  | _ => false

/-- Must two accesses of a core keep their order at a home: both are homed on its own die (R205), or one is a returning
atomic, the other an atomic or a store, and both are homed on one die (R200)? -/
def mustFollow (s : State) (p : Nat) (x q : Req) : Bool :=
  let atomic (r : Req) : Bool := match r.acc with
    | .atomic _ _ _ => true
    | _ => false
  let stores (r : Req) : Bool := match r.acc with
    | .store _ => true
    | _ => atomic r
  let dies (r : Req) : List Nat := ((s.reqPlaces r).filter fun a => !inWindow a).map dieOfAddr
  (s.reqHere p x && s.reqHere p q) ||
    ((atomic x || atomic q) && stores x && stores q && (dies x).any (dies q).contains)

/-- Is an earlier entry in one of these orders with a request? -/
def entryOrders (s : State) (p : Nat) (x : SbEntry) (q : Req) : Bool :=
  match x.op with
  | .obj r => s.mustFollow p r q
  | _ => s.reqHere p q

/-- May the entry leave the buffer now, behind these earlier ones? -/
def mayPerform (s : State) (p : Nat) (e : SbEntry) (earlier : List SbEntry) : Bool :=
  s.dieRuns (dieOf p) &&
  match e.op with
  | .obj q =>
    earlier.all fun x =>
      sentToHome x (reqHome q) ||
        (!s.entryOrders p x q && !sameMove x q &&
          (match s.entryBytes x with
           | some (a, n) => !overlap a n (s.curGpa q) q.n
           | none => true))
  | .rst entry addr n _ =>
    (earlier.all fun x => !s.ownClass p x) && !s.rstWaits e.tid entry addr n
  | .scratch _ _ => earlier.all fun x => !s.ownClass p x

/-- Where an item from a position goes for a vcore; one for another package leaves through the die's ports. -/
def aim (s : State) (p v : Nat) : Nat := if pkgOf v = s.pkg then s.posOf v else p

/-- Count bytes of traffic with a partner in a vcore's partner table (R286): a new partner takes a free
entry, or the entry with the least count. -/
def countTraffic (l : List (Nat × Nat)) (w n : Nat) : List (Nat × Nat) :=
  if l.any fun x => x.1 == w then
    l.map fun x => if x.1 = w then (w, min (2 ^ 32 - 1) (x.2 + n)) else x
  else if l.length < 8 then l ++ [(w, n)]
  else
    let least := l.foldl (fun m x => min m x.2) (2 ^ 32 - 1)
    let i := l.findIdx fun x => x.2 == least
    l.set i (w, n)

/-- Traffic of the occupant v with the partner w. -/
def traffic (s : State) (v w n : Nat) : State :=
  s.updVcore v fun x => { x with partners := countTraffic x.partners w n }

/-- The store buffer performs or sends an entry (R159, R185, R283). -/
def bufferPerform (s : State) (p id : Nat) : State :=
  let buf := (s.core p).buffer
  match buf.find? fun e => e.id == id with
  | none => s
  | some e =>
    let earlier := buf.takeWhile fun x => x.id != id
    if e.sent || !s.mayPerform p e earlier then s
    else
      match e.op with
      | .scratch _ _ => s.entriesDone [(p, id)]
      | .obj q =>
        (s.updCore p fun c =>
          { c with buffer := c.buffer.map fun x => if x.id = id then { x with sent := true } else x }).sendReq
            { q with entries := [(p, id)] }
      | .rst entry addr n v =>
        let w := bits addr 59 24
        let from' := match s.findThread e.tid with
          | some (q, j) => (s.slotAt q j).occ
          | none => e.tid.vc
        ((s.entriesDone [(p, id)]).traffic from' w 32).inject
          { load := .rst e.tid entry addr n v, key := s.part.key, dst := s.aim p w, die := dieOf p }

/-! ### Performing a request at its home -/

/-- The bytes that a load of a core receives: of each, the youngest buffered store's (R181). -/
def overlay (s : State) (q : Req) (bs : List Byte) : List Byte :=
  (List.range q.n).map fun i => (s.forwarded q.pos (s.curGpa q + i)).getD (bs.getD i 0)

/-- A saved movement thread takes a trap (R141, R332): it resumes in its handler. -/
def failSaved (s : State) (t : Tid) (x : Slot) (c : Cause) (tval : Word) : State :=
  let b := entryRegs x false
  match s.fetchAt (BitVec.ofNat 38 (bits b.1.tvec 37 0)) with
  | .fault _ =>
    ((s.setMap t { s.mapEntry t with state := .none, saved := none }).updPart fun q =>
      { q with live := q.live.del x.pid, queue := q.queue.filter fun y => y.2.yielded != some t }).reportTask 3 t.vc
  | _ =>
    s.setMap t { s.mapEntry t with
      saved := some { x with
        regs := b.1.enter c false false x.ipc tval, bounce := b.2
        pendC := none, pendA := none, undo := none, ready := s.time + 1 } }

/-- The thread that waits for a reply consumes a poisoned line (R329). -/
def failToken (s : State) (k : Nat) (tval : Word) : State :=
  match s.findToken k with
  | some (p, j, _) => s.enterTrap p j .checkFail false (s.slotAt p j).ipc tval
  | none =>
    match s.findSaved k with
    | some (t, x, _) => s.failSaved t x .checkFail tval
    | none => s

/-- A RED .SADD of n bytes (R192). -/
def satAdd (s : State) (a n : Nat) (c : Int) : State :=
  let h := homeOf a
  if (s.home h).sat.any fun x => x.1 == a && x.2.1 == n then
    s.updHome h fun x =>
      { x with sat := x.sat.map fun y => if y.1 = a && y.2.1 = n then (a, n, y.2.2 + c) else y }
  else
    let t := s.closeSatAt h a n
    let t := match (t.home h).sat with
      | x :: _ => if 32 ≤ (t.home h).sat.length then t.closeSatAt h x.1 x.2.1 else t
      | [] => t
    let w := signedOf n (ofBytes (Memory.readN t.mem a n))
    t.updHome h fun x => { x with sat := x.sat ++ [(a, n, w + c)] }

/-- Read-modify-write of n bytes at their home, in one step (R188). -/
def modify (s : State) (a n : Nat) (f : Nat → Nat) : State :=
  let r := s.memRead a n
  r.2.memWrite a (toBytes n (f (ofBytes r.1)))

/-- A host-window write has been performed: its acknowledgement is on its way (R187). -/
def windowWritten (s : State) (es : List (Nat × Nat)) : State :=
  es.foldl (fun t e =>
    match ((t.core e.1).buffer.find? fun x => x.id == e.2) with
    | none => t
    | some x =>
      (t.onThread x.tid fun y => { y with unacked := t.fresh :: y.unacked }).inject
        { load := .hostAck x.tid, dst := e.1, die := dieOf e.1 }) s

/-- Perform a request at its home, as one step (R185, R188), and take it out of the queue; a
combinable read keeps its line until its reply (R190). -/
def performReq (s : State) (h id : Nat) (q : Req) : State :=
  let a := s.curHpa q
  let n := q.n
  let bad := s.poisoned a n
  let del (t : State) : State := t.updHome h fun x => { x with queue := x.queue.del id }
  match q.acc with
  | .load false =>
    if bad && !s.allForwarded q then del (s.failToken q.token q.ref)
    else
      let r := s.memRead a n
      del (r.2.endToken q.token fun x => x.setG q.rd (loadWord q.sx (s.overlay q r.1)))
  | .load true =>
    if bad then del (s.failToken q.token q.ref)
    else
      let r := s.memRead (a / 64 * 64) 64
      let got := s.overlay q ((r.1.drop (a % 64)).take n)
      r.2.updHome h fun x => { x with queue := x.queue.put id { q with line := some r.1, got := got } }
  | .store bs =>
    let t := s.memWrite a bs
    del ((if inWindow a then t.windowWritten q.entries else t).entriesDone q.entries)
  | .atomic op v e =>
    if bad then del ((s.failToken q.token q.ref).entriesDone q.entries)
    else
      let old := ofBytes (s.memRead a n).1
      let m := 2 ^ (8 * n)
      let t := s.modify a n fun o => atomNew op n o (v.toNat % m) (e.toNat % m)
      del ((t.endToken q.token fun x => x.setG q.rd (BitVec.ofNat 64 old)).entriesDone q.entries)
  | .red op v =>
    let m := v.toNat % 2 ^ (8 * n)
    let t := match op with
      | .sadd => s.satAdd a n (signedOf n m)
      | _ => s.modify a n fun o => redNew op n o m
    del (t.entriesDone q.entries)
  | .twinAdd c v => del (s.modify a n fun o => roundTo c .rne false ((elemValue c o).add .rne v))
  | .copied bs m po =>
    let r := s.memRead a bs.length
    let t := r.2.memWrite a ((bs.zip r.1).map fun x => (x.1 &&& m) ||| (x.2 &&& ~~~m))
    let u : State := match po with
      | none => t
      | some true => { t with poison := insertNat t.poison (a / 64) }
      | some false => { t with poison := t.poison.filter fun l => l != a / 64 }
    del ((if inWindow a then u.windowWritten q.entries else u).entriesDone q.entries)

/-! ### A home's queue (R185, R186, R189, R190) -/

/-- The line of a request. -/
def lineOf (s : State) (q : Req) : Nat := s.curHpa q / 64

/-- A load that waits for an unperformed RED or atomic of its core on its bytes (R201). -/
def loadWaits (s : State) (q : Req) : Bool :=
  match q.acc with
  | .load _ =>
    (s.core q.pos).buffer.any fun e =>
      match e.op with
      | .obj r =>
        (match r.acc with
         | .atomic _ _ _ | .red _ _ => true
         | _ => false) && overlap (s.curGpa r) r.n (s.curGpa q) q.n
      | _ => false
  | _ => false

/-- A request that its record's home holds, because its granule is being copied (R177) or the frame that the
watermark gives it is not mapped (R173). -/
def held (s : State) (q : Req) : Bool :=
  match q.moving with
  | none => false
  | some (_, _, j) =>
    match s.recordAt q.key.1 q.key.2 with
    | none => true
    | some r => (r.moving && r.wmark == j) || (s.hpaOf (s.curGpa q)).isNone

/-- Does a request find a way to its home (R385), and does that die run (R361)?  During a move it goes on from its record's
home to the home of its place (R177). -/
def arrives (s : State) (h : Nat) (q : Req) : Bool :=
  let a := s.curHpa q
  decide (1536 ≤ h) ||
    (s.joined (dieOf q.pos) (h / 192) && s.dieRuns (h / 192) &&
      (q.moving.isNone || inWindow a || (s.joined (h / 192) (dieOfAddr a) && s.dieRuns (dieOfAddr a))))

/-- Are two requests entries of one core's buffer that keep their order (R200, R205)? -/
def inOrder (s : State) (x q : Req) : Bool :=
  q.entries.any fun e => x.entries.any fun f => f.1 == e.1 && s.mustFollow e.1 x q

/-- The cores whose accesses a request performs. -/
def reqCores (q : Req) : List Nat := q.pos :: q.entries.map (·.1)

/-- An earlier request to the same line or, during a move, to the same granule (R177, R185), or of the same core's
order (R200, R205). -/
def blocked (s : State) (h id : Nat) (q : Req) : Bool :=
  (s.home h).queue.any fun x =>
    decide (x.1 < id) && x.2.line.isNone && !s.loadWaits x.2 && s.arrives h x.2 &&
      (s.lineOf x.2 == s.lineOf q || s.inOrder x.2 q ||
        (match x.2.moving, q.moving with
         | some (_, _, i), some (_, _, j) => x.2.key == q.key && i == j
         | _, _ => false))

/-- May the request be performed now? -/
def mayServe (s : State) (h id : Nat) (q : Req) : Bool :=
  q.line.isNone && s.arrives h q && !s.loadWaits q && !s.held q && !s.blocked h id q

/-- May a switch combine a request: is its record not moving (R189)? -/
def mayCombine (s : State) (q : Req) : Bool :=
  q.moving.isNone && (match s.recordAt q.key.1 q.key.2 with
    | some r => !r.moving
    | none => true)

/-- The older pending combinable read whose reply a combinable read may share (R190). -/
def mergeFrom (s : State) (h id : Nat) (q : Req) : Option (List Byte) :=
  match q.acc, q.line with
  | .load true, none =>
    if !s.mayCombine q then none
    else
      firstSome (fun x : Nat × Req =>
        if x.1 < id && x.2.moving.isNone && s.lineOf x.2 == s.lineOf q then x.2.line else none) (s.home h).queue
  | _, _ => none

/-- The RED .FADDs that a switch may have merged with a request (R189), which may stand before or after it: between the
two there is no other request of their cores, to the line or in the order of a die.  RED .FADDs to the same bytes may
pass one another, as every tree of their additions is allowed (R201). -/
def fuseWith (s : State) (h id : Nat) (q : Req) : List (Nat × Req × Word) :=
  match q.acc with
  | .red .fadd _ =>
    if !s.mayCombine q then []
    else
      let adds (x : Req) : Bool := (match x.acc with
        | .red .fadd _ => true
        | _ => false) && s.curHpa x == s.curHpa q && x.n == q.n
      (s.home h).queue.filterMap fun x =>
        match x.2.acc with
        | .red .fadd w =>
          let between (y : Nat × Req) : Bool := decide (min id x.1 < y.1) && decide (y.1 < max id x.1)
          let bars (y : Req) : Bool :=
            !adds y && (((reqCores y).any (reqCores x.2).contains && s.lineOf y == s.lineOf q) || s.inOrder y x.2)
          if x.1 != id && adds x.2 && s.arrives h x.2 && s.mayCombine x.2 && !((s.home h).queue.any fun y => between y && bars y.2)
          then some (x.1, x.2, w) else none
        | _ => none
  | _ => []

/-- A home slice performs a request, or sends its reply, or merges it, or it misses (R185-R190). -/
def homeRequest (s : State) (h id : Nat) : State :=
  match (s.home h).queue.get id with
  | none => s
  | some q =>
    if 1536 ≤ h then s
    else if !s.arrives h q then s
    else if q.line.isSome then
      (s.updHome h fun x => { x with queue := x.queue.del id }).endToken q.token fun x =>
        x.setG q.rd (loadWord q.sx q.got)
    else
      match s.mergeFrom h id q with
      | some l =>
        let c := s.coin
        if c.1 then
          let a := s.curHpa q
          let got := s.overlay q ((l.drop (a % 64)).take q.n)
          c.2.updHome h fun x => { x with queue := x.queue.put id { q with line := some l, got := got } }
        else serve c.2 q
      | none =>
        match s.fuseWith h id q, q.acc with
        | l@(y :: _), .red op v =>
          let c := s.coin
          if c.1 then
            let n := c.2.pick l.length
            let (i, r, w) := l.getD n.1 y
            let m := 2 ^ (8 * q.n)
            let sum := faddBits q.n (v.toNat % m) (w.toNat % m)
            n.2.updHome h fun x =>
              { x with
                queue := (x.queue.del i).put id
                  { q with entries := q.entries ++ r.entries, acc := .red op (BitVec.ofNat 64 sum) } }
          else serve c.2 q
        | _, _ => serve s q
where
  /-- Perform the request, or let it miss where a miss register is free (R186). -/
  serve (s : State) (q : Req) : State :=
    if !s.mayServe h id q || (s.home h).mshr.contains (s.lineOf q) then s
    else
      let open' := (s.home h).sat.any fun x => x.1 / 64 == s.lineOf q
      let c := if open' then (false, s) else s.coin
      if !c.1 then c.2.performReq h id q
      else if (s.home h).mshr.length < 64 then
        c.2.updHome h fun x => { x with mshr := s.lineOf q :: x.mshr }
      else c.2

/-- The requests linked behind a line's miss, in arrival order. -/
def linked (s : State) (h line : Nat) : List Nat :=
  ((s.home h).queue.filter fun x => x.2.line.isNone && s.lineOf x.2 == line).map (·.1)

/-- A line arrives from HBM4E: the linked requests are performed in order (R186). -/
def missFill (s : State) (h line : Nat) : State :=
  if !(s.home h).mshr.contains line || !(decide (1536 ≤ h) || s.dieRuns (h / 192)) then s
  else
    (s.linked h line).foldl (fun t id =>
      match (t.home h).queue.get id with
      | some q => if t.mayServe h id q then t.performReq h id q else t
      | none => t) (s.updHome h fun x => { x with mshr := x.mshr.filter fun l => l != line })

/-! ### Probes (R195) -/

/-- A request of a core that its slices of a group have not performed. -/
def probeBlocked (s : State) (p grp : Nat) : Bool :=
  (List.range 3).any fun i =>
    (s.home (192 * (grp / 64) + 3 * (grp % 64) + i)).queue.any fun x =>
      (reqCores x.2).contains p && x.2.line.isNone && !s.loadWaits x.2

/-- A probe's echo reaches the half that waits for it. -/
def echoed (grp : Nat) (q : Pend) : Pend :=
  match q.wait with
  | .release es ps sys => { q with wait := .release es (ps.filter fun g => g != grp) sys }
  | .depart es ps v => { q with wait := .depart es (ps.filter fun g => g != grp) v }
  | _ => q

end State

/-- STORE_BUFFER_PERFORM (R159, R205, R206). -/
def execStoreBufferPerform (pos id : Nat) (s : State) : Res := .next (s.bufferPerform pos id)

/-- HOME_SLICE_REQUEST (R185). -/
def execHomeSliceRequest (h id : Nat) (s : State) : Res := .next (s.homeRequest h id)

/-- L2_MISS_FILL (R186). -/
def execL2MissFill (h line : Nat) (s : State) : Res := .next (s.missFill h line)

/-- PROBE_ECHO (R195). -/
def execProbeEcho (pos slot grp : Nat) (s : State) : Res :=
  .next
    (if s.probeBlocked pos grp || !s.joined (dieOf pos) (grp / 64) || !s.dieRuns (grp / 64) then s
     else s.updSlot pos (Fin.ofNat 16 slot) fun x =>
       { x with pendC := x.pendC.map (State.echoed grp), pendA := x.pendA.map (State.echoed grp) })

/-- The host address of the bitmap byte of a granule that a residency request names. -/
def State.fillByte (s : State) (x : Nat × Nat × Nat) : Option Nat :=
  match s.recordAt x.1 x.2.1 with
  | some r => s.hpaOf (r.rmap + x.2.2)
  | none => none

/-- RESIDENCY_FILL_RELEASE (R174, R175): Spahan fills a granule, named by the host address of its bitmap
byte, and sets RES; every access parked on it goes on. -/
def execResidencyFillRelease (rmapByte : Nat) (data : List Host.Cell) (s : State) : Res :=
  .next
    (let r := s.memRead rmapByte 1
     let b := r.1.headD 0
     if 128 ≤ b.toNat then s
     else
       let t := ((data.foldl (fun t d => t.memWrite d.1 [d.2]) r.2).memWrite rmapByte [b ||| 0x80])
       { t with fills := t.fills.filter fun x => t.fillByte x != some rmapByte })

/-- SECOND_STAGE_MAPPING (R173): a missing mapping is installed, which answers the report of its miss. -/
def execSecondStageMapping (gframe hframe : Nat) (s : State) : Res :=
  if 2 ^ 32 ≤ gframe || !State.hpaOk (hframe * 2 ^ 16) then .fault .noSuchAddress
  else
    .next
      (if (s.stage2.get gframe).isSome then s
       else { s with stage2 := s.stage2.put gframe hframe, misses := s.misses.filter fun f => f != gframe })

namespace State

/-- Put a record into a cache of a size; which entry a full cache drops is not stated (R170). -/
def cachePut (s : State) (l : List Cached) (size : Nat) (x : Cached) : List Cached × State :=
  let l := l.filter fun y => !(y.tbase == x.tbase && y.obj == x.obj)
  if l.length < size then (x :: l, s)
  else
    let n := s.pick l.length
    (x :: l.eraseIdx n.1, n.2)

/-- A fetched record is cached in the cluster and the die, unless it is moving (R170); a supervisor core belongs to
no cluster. -/
def cacheRecord (s : State) (pos : Nat) (x : Cached) : State :=
  if x.r.moving then s
  else
    let t :=
      if pos < 4096 then
        let a := s.cachePut (s.cluster (cluOf pos)).records 64 x
        a.2.updCluster (cluOf pos) fun k => { k with records := a.1 }
      else s
    let b := t.cachePut (t.die (dieOf pos)).records 4096 x
    b.2.updDie (dieOf pos) fun d => { d with records := b.1 }

/-- The record that its home sends to a core; none on a second-stage miss, or while no way is found (R385). -/
def fromHome (s : State) (pos tb obj : Nat) : Option Rec :=
  match s.hpaOf (tb + 64 * obj) with
  | some a => if s.reaches pos a then s.recordAt tb obj else none
  | none => none

/-- The record that a fetch brings: the die's cached copy may serve it (R170), unless an instruction waits for the
caches to drop the record (R176). -/
def fetchRecord (s : State) (pos tb obj : Nat) : Option Rec × State :=
  let home (t : State) : Option Rec × State := (t.fromHome pos tb obj, t.recordRead tb obj)
  match (s.die (dieOf pos)).records.find? fun x => x.tbase == tb && x.obj == obj with
  | some x =>
    if s.acks.any fun a => a.2.tbase == tb && a.2.obj == obj then home s
    else
      let c := s.coin
      if c.1 then (some x.r, c.2) else home c.2
  | none => home s

end State

/-- RECORD_FETCH (R171): the bundle issues again from the thread's next cycle; a record whose frame is not mapped is
reported (R173). -/
def execRecordFetch (pos slot : Nat) (s : State) : Res :=
  let j := Fin.ofNat 16 slot
  .next
    (match (s.slotAt pos j).want with
     | none => s
     | some (tb, obj) =>
       match s.fetchRecord pos tb obj with
       | (none, t) => t.reportMiss (tb + 64 * obj)
       | (some r, t) =>
         (t.cacheRecord pos ⟨tb, obj, r⟩).updSlot pos j fun x =>
           { x with want := none, fetched := x.fetched ++ [(tb, obj, r)], ready := max x.ready (s.time + 1) })

/-- Does the code line at a PC find a way to a core (R385)? -/
def State.lineReaches (s : State) (pos : Nat) (pc : BitVec 38) : Bool :=
  match s.fetchAt pc with
  | .bytes a => s.reaches pos a
  | _ => true

/-- ICACHE_FILL (R123).  How the 16 KiB are organised is the model's choice: 256 lines of 64 bytes, any of which
may stand anywhere, and of which the one filled first makes room (log entry 75). -/
def execIcacheFill (pos slot : Nat) (s : State) : Res :=
  let j := Fin.ofNat 16 slot
  .next
    (match (s.slotAt pos j).fetch with
     | none => s
     | some l =>
       if !s.lineReaches pos (s.slotAt pos j).regs.pc then s
       else
       (s.updCore pos fun c => { c with icache := (l :: c.icache.filter fun k => k != l).take 256 }).updSlot
         pos j fun x => { x with fetch := none, ready := max x.ready (s.time + 1) })

namespace State

/-- The cores whose accesses a record cache has translated: clusters 0 to 511, dies 512 to 519. -/
def cacheCovers (cache pos : Nat) : Bool :=
  if cache < 512 then cluOf pos == cache else dieOf pos == cache - 512

/-- Does a key fall under an acknowledgement's record? -/
def ackMatches (w : AckWait) (key : Nat × Nat) : Bool := key == (w.tbase, w.obj)

/-- An access translated through a cache that has not been performed (R176); a thread that has fetched the record
for its bundle, and may issue it, has such an access. -/
def accessPending (s : State) (cache : Nat) (w : AckWait) : Bool :=
  (s.cores.any fun c => cacheCovers cache c.1 && c.2.slots.toList.any fun x =>
    x.busy && !x.quiet && x.fetched.any fun f => ackMatches w (f.1, f.2.1)) ||
  (s.homes.any fun h => h.2.queue.any fun x =>
    (reqCores x.2).any (cacheCovers cache) && x.2.moving.isNone && ackMatches w x.2.key && x.2.line.isNone) ||
  (s.cores.any fun c => cacheCovers cache c.1 && c.2.buffer.any fun e =>
    match e.op with
    | .obj q => q.moving.isNone && ackMatches w q.key
    | _ => false)

/-- A record cache drops a record, and the copies of it that threads parked at a bundle boundary have fetched. -/
def cacheDrop (s : State) (cache : Nat) (w : AckWait) : State :=
  let keep (x : Cached) : Bool := !(x.tbase == w.tbase && x.obj == w.obj)
  let copies (x : Slot) : Slot :=
    if x.quiet then { x with fetched := x.fetched.filter fun f => !ackMatches w (f.1, f.2.1) } else x
  let s := { s with
    cores := s.cores.map fun c : Nat × Core =>
      (c.1, if cacheCovers cache c.1 then { c.2 with slots := c.2.slots.map copies } else c.2) }
  if cache < 512 then s.updCluster cache fun k => { k with records := k.records.filter keep }
  else s.updDie (cache - 512) fun d => { d with records := d.records.filter keep }

/-- Do a record's home and a record cache find a way to each other (R385)? -/
def cacheJoins (s : State) (cache : Nat) (w : AckWait) : Bool :=
  match s.hpaOf (w.tbase + 64 * w.obj) with
  | some a =>
    let d := if cache < 512 then cache / 64 else cache - 512
    s.joined d (dieOfAddr a) && s.dieRuns d && s.dieRuns (dieOfAddr a)
  | none => true

/-- A cache's acknowledgement reaches the instruction that waits for it; the last one ends the wait. -/
def cacheAck (s : State) (cache key : Nat) : State :=
  match s.acks.get key with
  | none => s
  | some w =>
    if !w.left.contains cache || s.accessPending cache w || !s.cacheJoins cache w then s
    else
      let t := s.cacheDrop cache w
      let left := w.left.filter fun c => c != cache
      if left.isEmpty then ({ t with acks := t.acks.del key }).endToken key id
      else { t with acks := t.acks.put key { w with left := left } }

end State

/-- RECORD_CACHE_ACKNOWLEDGEMENT (R176): the wait is named by its token. -/
def execRecordCacheAcknowledgement (cache key : Nat) (s : State) : Res := .next (s.cacheAck cache key)

/-- HOST_WINDOW_RESPONSE (R187): the agent performs a request, or the host acknowledges a write. -/
def execHostWindowResponse (port id : Nat) (s : State) : Res :=
  let h := 1536 + port
  .next
    (match (s.home h).queue.get id with
     | some q => if s.mayServe h id q then s.performReq h id q else s
     | none =>
       match s.net.get id with
       | some x =>
         match x.load with
         | .hostAck tid =>
           ({ s with net := s.net.del id }).onThread tid fun y =>
             { y with unacked := y.unacked.filter fun k => k != id }
         | _ => s
       | none => s)

/-- Do the homes of a host access run (R361)? -/
def State.hostLands (s : State) (hpa len : Nat) : Bool :=
  (inWindow hpa || s.dieRuns (dieOfAddr hpa)) && (inWindow (hpa + len - 1) || s.dieRuns (dieOfAddr (hpa + len - 1)))

/-- HOST_MEMORY_ACCESS (R355): a CXL.mem access is performed at its home slice as an agent outside; an
address in the window is the host's access to its own memory (log entry 15).  One to a die whose clocks are stopped
waits (R361): the event has no effect until then. -/
def execHostMemoryAccess (hpa len : Nat) (wr : Option (List Byte)) (s : State) : Res :=
  if !State.hpaOk hpa || !State.hpaOk (hpa + len - 1) then .fault .noSuchAddress
  else if !s.hostLands hpa len then .next s
  else
    .next
      (match wr with
       | some bs => s.memWrite hpa (bs.take len)
       | none => (s.memRead hpa len).2)

/-- The CRC-32C of a line: over its 64 bytes, then the six bytes of its address (R359). -/
def lineCrc (bs : List Byte) (hpa : Nat) : Nat :=
  crcOver (2 ^ 32 - 1) (bs ++ toBytes 6 (hpa / 64 * 64)) ^^^ (2 ^ 32 - 1)

/-- A line and its CRC arrive at another L2 with some bits turned, bit i of `bad` for bit i of the 68 bytes: what passes
the check, if it does (R359). -/
def State.lineArrives (s : State) (hpa bad : Nat) : Option (List Byte) :=
  let bs := Memory.readN s.mem (hpa / 64 * 64) 64
  let got := (bs.zip (toBytes 64 bad)).map fun x => x.1 ^^^ x.2
  if lineCrc got hpa = lineCrc bs hpa ^^^ (bad / 2 ^ 512 % 2 ^ 32) then some got else none

/-- LINE_CHECK (R359): a delivery of a line passes its check, or fails; the fourth failure leaves the line poisoned
and is reported. -/
def execLineCheck (hpa bad : Nat) (s : State) : Res :=
  let l := hpa / 64
  if !State.hpaOk hpa then .fault .noSuchAddress
  else
    .next
      (match s.lineArrives hpa bad with
       | some bs =>
         let t := { s with checks := s.checks.del l }
         if bad % 2 ^ 512 = 0 then t else t.memWrite (64 * l) bs
       | none =>
         let n := (s.checks.get l).getD 0 + 1
         if n < 4 then { s with checks := s.checks.put l n }
         else
           ({ s with checks := s.checks.del l, poison := insertNat s.poison l }).reportPart 5 0 0
             (BitVec.ofNat 64 (64 * l)))

end Sys2Proof.Machine
end

