-- ==== Sys2Proof/Machine/Vector.lean ====
section
/-! DEFINITION. The wide vector instructions, A-class majors 0x30 to 0x47, and the vector unit (R208-R228).
A vector instruction is a plan: groups of accesses, each group reading all its sources before its writes;
an element-wise instruction has one group per element. -/

namespace Sys2Proof.Machine

/-! ### Elements -/

/-- Where an element lies: byte address, width, and for E2M1 whether it is the high nibble (R77, R211). -/
structure VLoc where
  a : Nat
  n : Nat
  nib : Option Bool := none
  deriving DecidableEq, Repr

/-- Element i of a vector of a format at an address (R211). -/
def eloc (c base i : Nat) : VLoc :=
  if c = 0xE then ⟨base + i / 2, 1, some (i % 2 == 1)⟩ else ⟨base + fmtBytes c * i, fmtBytes c, none⟩

/-- The bytes that n elements of a format take (R211). -/
def bytesOf (c n : Nat) : Nat := if c = 0xE then (n + 1) / 2 else fmtBytes c * n

/-- The offset of the first scale word of a block-scaled operand (R211). -/
def scaleOff (c vl : Nat) : Nat := (bytesOf c vl + 3) / 4 * 4

namespace State

/-- Read an element. -/
def getLoc (s : State) (p : Nat) (l : VLoc) : Nat :=
  let v := ofBytes (s.spadRead p l.a l.n)
  match l.nib with
  | none => v
  | some hi => if hi then v / 16 else v % 16

/-- Write an element; a nibble leaves the other nibble of its byte (R211). -/
def putLoc (s : State) (p : Nat) (l : VLoc) (v : Nat) : State :=
  match l.nib with
  | none => s.spadWrite p l.a (toBytes l.n v)
  | some hi =>
    let o := ofBytes (s.spadRead p l.a 1)
    s.spadWrite p l.a (toBytes 1 (if hi then v % 16 * 16 + o % 16 else o / 16 * 16 + v % 16))

end State

/-! ### Plans -/

/-- A vector instruction as groups of accesses: the sources that group g reads, and, from the values
carried and read, what it writes and carries on. -/
structure VPlan where
  groups : Nat
  reads : Nat → List VLoc
  writes : Nat → List Nat → List (VLoc × Nat) × List Nat

/-- What a plan is made from: VL, mode, the registers at issue, resolved addresses in the order rd, ra,
rb, rc, and indices. -/
structure VCtx where
  vl : Nat
  mode : Mode
  regs : Regs
  addrs : List Nat
  idx : List Nat

namespace VCtx

def d (x : VCtx) : Nat := x.addrs.getD 0 0
def a (x : VCtx) : Nat := x.addrs.getD 1 0
def b (x : VCtx) : Nat := x.addrs.getD 2 0
def c (x : VCtx) : Nat := x.addrs.getD 3 0
/-- A descriptor in a shadow register. -/
def desc (x : VCtx) (n : Fin 8) : Desc := Desc.ofWord (x.regs.ts.get n)

end VCtx

namespace VPlan

/-- Element-wise: for each i, read the sources, then write `f i` of them. -/
def ew (n : Nat) (srcs : List (Nat × Nat)) (dst : Nat × Nat) (f : Nat → List Nat → Nat) : VPlan where
  groups := n
  reads i := srcs.map fun s => eloc s.1 s.2 i
  writes i v := ([(eloc dst.1 dst.2 i, f i v)], [])

/-- Read everything, then write. -/
def whole (srcs : List VLoc) (f : List Nat → List (VLoc × Nat)) : VPlan where
  groups := 1
  reads _ := srcs
  writes _ v := (f v, [])

end VPlan

/-! ### Arithmetic on elements (R215, R216) -/

/-- Round(a + b). -/
def vaddOp (c : Nat) (m : Mode) (a b : Nat) : Nat :=
  if isIntFmt c then wrapInt (fmtBits c) (readInt c a + readInt c b)
  else roundTo c m false ((elemValue c a).add m (elemValue c b))

/-- Round(a − b). -/
def vsubOp (c : Nat) (m : Mode) (a b : Nat) : Nat :=
  if isIntFmt c then wrapInt (fmtBits c) (readInt c a - readInt c b)
  else roundTo c m false ((elemValue c a).add m (elemValue c b).neg)

/-- Round(a × b). -/
def vmulOp (c : Nat) (m : Mode) (a b : Nat) : Nat :=
  if isIntFmt c then wrapInt (fmtBits c) (readInt c a * readInt c b)
  else roundTo c m false ((elemValue c a).mul (elemValue c b))

/-- Round(a × b + c), one rounding. -/
def vfmaOp (c : Nat) (m : Mode) (x y z : Nat) : Nat :=
  if isIntFmt c then wrapInt (fmtBits c) (readInt c x * readInt c y + readInt c z)
  else roundTo c m false (((elemValue c x).mul (elemValue c y)).add m (elemValue c z))

/-- VSCL: the scalar is read by R79, or as a signed integer of the element width. -/
def vsclOp (c : Nat) (m : Mode) (a : Nat) (w : Word) : Nat :=
  if isIntFmt c then
    wrapInt (fmtBits c) (readInt c a * signedOf (fmtBits c / 8) (w.toNat % 2 ^ fmtBits c))
  else roundTo c m false ((elemValue c a).mul (elemValue c w.toNat))

/-- VMIN and VMAX. -/
def vminmax (isMax : Bool) (c a b : Nat) : Nat :=
  match FFmt.ofCode c with
  | some f => f.minMax isMax a b
  | none => if decide (readInt c a ≤ readInt c b) == isMax then b else a

/-- VCMP's relation. -/
def vcmpOp (op : VCmpOp) (c a b : Nat) : Bool :=
  if isIntFmt c then
    match op with
    | .eq => readInt c a == readInt c b
    | .ne => readInt c a != readInt c b
    | .lt => decide (readInt c a < readInt c b)
    | .le => decide (readInt c a ≤ readInt c b)
  else
    match op with
    | .eq => (elemValue c a).feq (elemValue c b)
    | .ne => !(elemValue c a).feq (elemValue c b)
    | .lt => (elemValue c a).flt (elemValue c b)
    | .le => (elemValue c a).fle (elemValue c b)

/-- VCVT (R217): a narrow destination saturates. -/
def vcvtOp (dst src : Nat) (m : Mode) (a : Nat) : Nat := roundTo dst m (isNarrow dst) (elemValue src a)

/-! ### Reductions (R218) -/

/-- One level of the pairwise tree. -/
def pairUp (f : Nat → Nat → Nat) : List Nat → List Nat
  | x :: y :: t => f x y :: pairUp f t
  | l => l

/-- The tree of a chunk of at most 32 values. -/
def treeOf (f : Nat → Nat → Nat) (l : List Nat) : Nat :=
  ((List.range 5).foldl (fun l _ => pairUp f l) l).headD 0

/-- Chunks of 32 consecutive values; the first argument bounds their number. -/
def chunks32 : Nat → List Nat → List (List Nat)
  | 0, _ => []
  | n + 1, l => if l.isEmpty then [] else l.take 32 :: chunks32 n (l.drop 32)

/-- The chunked sum: trees, then the totals in order. -/
def chunkSum (f : Nat → Nat → Nat) (l : List Nat) : Nat :=
  match (chunks32 l.length l).map (treeOf f) with
  | [] => 0
  | x :: t => t.foldl f x

/-- VRED .SUM: BF16 and FP16 are added in FP32 (R218). -/
def vsum (c : Nat) (m : Mode) (l : List Nat) : Nat :=
  if isIntFmt c then chunkSum (vaddOp c m) l
  else if c = 8 || c = 9 then roundTo c m false (elemValue c (chunkSum (vaddOp c m) l))
  else
    roundTo c m false
      (f32.value (chunkSum (vaddOp 9 m) (l.map fun x => f32.round m false (elemValue c x))))

/-- VRED .MAX and .MIN. -/
def vextreme (isMax : Bool) (c : Nat) (l : List Nat) : Nat :=
  match l with
  | [] => 0
  | x :: t => t.foldl (vminmax isMax c) (vminmax isMax c x x)

/-- A k-list entry (R211). -/
def kentry (i code : Nat) : Word := BitVec.ofNat 64 (i * 2 ^ 32 + code)

/-- The k-list entries of a vector. -/
def kentries (l : List Nat) : List Word := (l.zipIdx).map fun x => kentry x.2 x.1

/-- The k first entries, with fillers (R223). -/
def topK (c k : Nat) (l : List Word) : List Word :=
  let t := l.foldl (fun acc x => (insertEntry c x acc).take k) []
  t ++ List.replicate (k - t.length) filler

/-! ### The plan of each instruction -/

/-- Sources and destinations of one format. -/
def plan1 (x : VCtx) (c : Nat) (f : Nat → Nat) : VPlan :=
  .ew x.vl [(c, x.a)] (c, x.d) fun _ v => f (v.getD 0 0)
def plan2 (x : VCtx) (c : Nat) (f : Nat → Nat → Nat) : VPlan :=
  .ew x.vl [(c, x.a), (c, x.b)] (c, x.d) fun _ v => f (v.getD 0 0) (v.getD 1 0)

/-- VFMA. -/
def planFma (x : VCtx) (c : Nat) : VPlan :=
  .ew x.vl [(c, x.a), (c, x.b), (c, x.c)] (c, x.d) fun _ v =>
    vfmaOp c x.mode (v.getD 0 0) (v.getD 1 0) (v.getD 2 0)

/-- VCMP: a mask byte for each element. -/
def planCmp (x : VCtx) (op : VCmpOp) (c : Nat) : VPlan :=
  .ew x.vl [(c, x.a), (c, x.b)] (1, x.d) fun _ v => (vcmpOp op c (v.getD 0 0) (v.getD 1 0)).toNat

/-- VMSEL. -/
def planMsel (x : VCtx) (c : Nat) : VPlan :=
  .ew x.vl [(c, x.a), (c, x.b), (1, x.c)] (c, x.d) fun _ v =>
    if v.getD 2 0 ≠ 0 then v.getD 0 0 else v.getD 1 0

/-- VIOTA. -/
def planIota (x : VCtx) (c : Nat) (start : Word) : VPlan :=
  .ew x.vl [] (c, x.d) fun i _ => (start.toNat + i) % 2 ^ fmtBits c

/-- VPFX (R219): the running sum is carried; element 0 is copied bit for bit, a NaN too (log entry 112). -/
def planPfx (x : VCtx) (c : Nat) : VPlan where
  groups := x.vl
  reads i := [eloc c x.a i]
  writes i v :=
    let r := if i = 0 then v.getD 0 0 else vaddOp c x.mode (v.getD 0 0) (v.getD 1 0)
    ([(eloc c x.d i, r)], [r])

/-- VRED (R218). -/
def planRed (x : VCtx) (op : VRedOp) (c : Nat) : VPlan :=
  .whole ((List.range x.vl).map (eloc c x.a)) fun v =>
    match op with
    | .sum => [(eloc c x.d 0, vsum c x.mode v)]
    | .max => [(eloc c x.d 0, vextreme true c v)]
    | .min => [(eloc c x.d 0, vextreme false c v)]
    | .tmax => [(⟨x.d, 8, none⟩, ((topK c 1 (kentries v)).headD 0).toNat)]

/-- VQNT (R220): block by block. -/
def planQnt (x : VCtx) (src : Nat) : VPlan :=
  let q := x.desc 3
  let l := q.len
  { groups := x.vl / l
    reads := fun b => (List.range l).map fun k => eloc src x.a (b * l + k)
    writes := fun b v =>
      let r := quantiseBlock q (v.map (elemValue src))
      ((r.1.zipIdx.map fun y => (eloc q.fmt x.d (b * l + y.2), y.1)) ++ [(⟨x.b + 4 * b, 4, none⟩, r.2)], []) }

/-- VDQ (R221). -/
def planDq (x : VCtx) (dst : Nat) : VPlan :=
  let q := x.desc 3
  { groups := x.vl
    reads := fun i => [eloc q.fmt x.a i, ⟨x.b + 4 * (i / q.len), 4, none⟩]
    writes := fun i v =>
      ([(eloc dst x.d i,
        roundTo dst x.mode q.sat ((elemValue q.fmt (v.getD 0 0)).mul (scaleValue q.skind (v.getD 1 0))))],
        []) }

/-- The partials of VBDOT (R222). -/
def bdotPartials (m : Mode) (q1 q2 : Desc) (l : Nat) (a b sa sb : List Nat) (blocks : Nat) : List FVal :=
  (List.range blocks).map fun j =>
    let xs := ((a.drop (j * l)).take l).map (elemValue q1.fmt)
    let ys := ((b.drop (j * l)).take l).map (elemValue q2.fmt)
    scaledSum m (exactDot (xs.zip ys)) (scaleValue q1.skind (sa.getD j 0)) (scaleValue q2.skind (sb.getD j 0))

/-- VBDOT (R222). -/
def planBdot (x : VCtx) (pb : Bool) : VPlan :=
  let q1 := x.desc 1
  let q2 := x.desc 2
  let l := q1.len
  let n := x.vl / l
  let loc (q : Desc) (base : Nat) : List VLoc := (List.range x.vl).map (eloc q.fmt base)
  let sloc (q : Desc) (base : Nat) : List VLoc :=
    (List.range n).map fun j => ⟨base + scaleOff q.fmt x.vl + 4 * j, 4, none⟩
  .whole (loc q1 x.a ++ loc q2 x.b ++ sloc q1 x.a ++ sloc q2 x.b) fun v =>
    let ps := bdotPartials x.mode q1 q2 l (v.take x.vl) ((v.drop x.vl).take x.vl)
      ((v.drop (2 * x.vl)).take n) (v.drop (2 * x.vl + n)) n
    let acc := match ps with
      | [] => FVal.fin false 0 0
      | p :: t => t.foldl (fun s y => rnd32 x.mode (s.add x.mode y)) p
    let dot := f32.round x.mode false (acc.mul (tensorScale (x.regs.ts.get 6)))
    (⟨x.d, 4, none⟩, dot) ::
      (if pb then ps.zipIdx.map fun y => (⟨x.d + 4 + 4 * y.2, 4, none⟩, f32.round x.mode false y.1) else [])

/-- VTOPK (R223). -/
def planTopk (x : VCtx) (c k : Nat) : VPlan :=
  .whole ((List.range x.vl).map (eloc c x.a)) fun v =>
    (topK c k (kentries v)).zipIdx.map fun y => (⟨x.d + 8 * y.2, 8, none⟩, y.1.toNat)

/-- VMRG (R224). -/
def planMrg (x : VCtx) (c k : Nat) : VPlan :=
  let loc (base : Nat) : List VLoc := (List.range k).map fun i => ⟨base + 8 * i, 8, none⟩
  .whole (loc x.a ++ loc x.b) fun v =>
    let w := v.map (BitVec.ofNat 64)
    (mergeLists c k (w.take k) (w.drop k)).zipIdx.map fun y => (⟨x.d + 8 * y.2, 8, none⟩, y.1.toNat)

/-- VFN's function on a value (R225). -/
def vfnValue (op : VFnOp) (m : Mode) (v : FVal) : FVal :=
  let one (f : Fn) : FVal := f32.value (f.apply m (f32.round .rne false v))
  match op with
  | .exp2 => one .exp2
  | .log2 => one .log2
  | .tanh => one .tanh
  | .sigm => one .sigm
  | .rcp => one .rcp
  | .rsq => one .rsq
  | .gelu => gelu m v
  | .silu => silu m v

/-- VFN (R225). -/
def vfnOp (op : VFnOp) (c : Nat) (m : Mode) (a : Nat) : Nat :=
  roundTo c m false (vfnValue op m (elemValue c a))

/-- VDFN (R226). -/
def vdfnOp (op : VDFnOp) (c : Nat) (m : Mode) (g x : Nat) : Nat :=
  roundTo c m false (rnd32 m ((elemValue c g).mul (deriv op (elemValue c x))))

/-- VGTH (R227). -/
def planGth (x : VCtx) (c : Nat) : VPlan where
  groups := x.vl
  reads i := [eloc c x.a (x.idx.getD i 0)]
  writes i v := ([(eloc c x.d i, v.getD 0 0)], [])

/-- VSCT (R227). -/
def planSct (x : VCtx) (addTo : Bool) (c : Nat) : VPlan where
  groups := x.vl
  reads i := if addTo then [eloc c x.d (x.idx.getD i 0), eloc c x.a i] else [eloc c x.a i]
  writes i v :=
    ([(eloc c x.d (x.idx.getD i 0), if addTo then vaddOp c x.mode (v.getD 0 0) (v.getD 1 0) else v.getD 0 0)],
      [])

/-- The eight words of VSTAT (R228). -/
def vstatWords (vl : Nat) (ws : List Nat) : List Nat :=
  let bexp := ws.map fun w => w / 2 ^ 8 % 256
  let other := bexp.filter fun e => e != 0 && e != 0xFF
  [(ws.map fun w => w / 2 ^ 16 % 256).sum, (ws.map fun w => w / 2 ^ 24 % 256).sum,
    (bexp.filter fun e => e == 0xFF).length, (bexp.filter fun e => e == 0).length,
    other.foldl Nat.min 0xFF, other.foldl Nat.max 0, vl, 0]

/-- VSTAT (R228). -/
def planStat (x : VCtx) : VPlan :=
  .whole ((List.range x.vl).map fun i => ⟨x.a + 4 * i, 4, none⟩) fun v =>
    (vstatWords x.vl v).zipIdx.map fun y => (⟨x.d + 4 * y.2, 4, none⟩, y.1)

/-- No accesses. -/
def planNone : VPlan := { groups := 0, reads := fun _ => [], writes := fun _ _ => ([], []) }

/-- The plan of a vector instruction. -/
def planOf (i : Instr) (x : VCtx) : VPlan :=
  match i with
  | .vadd _ _ _ _ e => plan2 x e.toNat (vaddOp e.toNat x.mode)
  | .vsub _ _ _ _ e => plan2 x e.toNat (vsubOp e.toNat x.mode)
  | .vmul _ _ _ _ e => plan2 x e.toNat (vmulOp e.toNat x.mode)
  | .vfma _ _ _ _ _ e => planFma x e.toNat
  | .vscl _ _ rb _ e => plan1 x e.toNat fun a => vsclOp e.toNat x.mode a (if rb = 0 then 0 else x.regs.g.get rb)
  | .vmin _ _ _ _ e => plan2 x e.toNat (vminmax false e.toNat)
  | .vmax _ _ _ _ e => plan2 x e.toNat (vminmax true e.toNat)
  | .vcpy _ _ _ e => plan1 x e.toNat id
  | .vcvt _ _ dst _ src => .ew x.vl [(src.toNat, x.a)] (dst.toNat, x.d) fun _ v =>
      vcvtOp dst.toNat src.toNat x.mode (v.getD 0 0)
  | .vqnt _ _ _ _ e => planQnt x e.toNat
  | .vdq _ _ _ _ e => planDq x e.toNat
  | .vred _ _ op _ e => planRed x op e.toNat
  | .vbdot _ _ _ pb _ => planBdot x pb
  | .vtopk _ _ k _ e => planTopk x e.toNat (k.val + 1)
  | .vmrg _ _ _ k _ e => planMrg x e.toNat (k.val + 1)
  | .vfn _ _ op _ e => plan1 x e.toNat (vfnOp op e.toNat x.mode)
  | .vdfn _ _ _ op _ e => plan2 x e.toNat (vdfnOp op e.toNat x.mode)
  | .vgth _ _ _ _ e => planGth x e.toNat
  | .vsct _ _ _ addTo _ e => planSct x addTo e.toNat
  | .vcmp _ _ _ op _ e => planCmp x op e.toNat
  | .vmsel _ _ _ _ _ e => planMsel x e.toNat
  | .viota _ ra _ e => planIota x e.toNat (if ra = 0 then 0 else x.regs.g.get ra)
  | .vpfx _ _ _ e => planPfx x e.toNat
  | .vstat _ _ _ => planStat x
  | _ => planNone

/-- The rounding field of a vector instruction. -/
def vrnd (i : Instr) : Rnd :=
  match i with
  | .vadd _ _ _ r _ | .vsub _ _ _ r _ | .vmul _ _ _ r _ | .vfma _ _ _ _ r _ | .vscl _ _ _ r _
  | .vcvt _ _ _ r _ | .vdq _ _ _ r _ | .vred _ _ _ r _ | .vbdot _ _ _ _ r | .vfn _ _ _ r _
  | .vdfn _ _ _ _ r _ | .vsct _ _ _ _ r _ | .vpfx _ _ r _ => r
  | _ => .dyn

/-- The context of a job. -/
def VJob.ctx (j : VJob) : VCtx :=
  { vl := bits j.regs.vl 12 0, mode := modeOf (vrnd j.ins) j.regs.rmode, regs := j.regs
    addrs := j.addrs, idx := j.idx }

def VJob.plan (j : VJob) : VPlan := planOf j.ins j.ctx

/-! ### The unit (R213, R214) -/

namespace State

/-- One access of a job; none when every access has been performed. -/
def vaccess (s : State) (p : Nat) (j : VJob) : Option (State × VJob) :=
  let pl := j.plan
  if pl.groups ≤ j.grp then none
  else
    let rs := pl.reads j.grp
    match rs[j.done]? with
    | some l => some (s, { j with buf := j.buf ++ [s.getLoc p l], done := j.done + 1 })
    | none =>
      let w := pl.writes j.grp j.buf
      let k := j.done - rs.length
      let t := match w.1[k]? with
        | some x => s.putLoc p x.1 x.2
        | none => s
      some (if k + 1 < w.1.length then (t, { j with done := j.done + 1 })
            else (t, { j with grp := j.grp + 1, done := 0, buf := w.2 }))

/-- Up to a number of accesses of a job. -/
def vrun (s : State) (p : Nat) (j : VJob) : Nat → State × VJob
  | 0 => (s, j)
  | n + 1 =>
    match s.vaccess p j with
    | none => (s, j)
    | some (t, k) => t.vrun p k n

/-- An upper bound on a job's accesses. -/
def vaccesses (j : VJob) : Nat := (j.plan.groups + 1) * 16400

/-- The vector unit performs up to `upTo` accesses of the instruction it runs, or completes it in its
completion cycle (R214). -/
def vectorProgress (s : State) (p upTo : Nat) : State :=
  let c := s.core p
  match c.vector with
  | [] => s
  | j :: rest =>
    match vstart c j, vdue c with
    | some st, some due =>
      if s.time < st then s
      else
        let s := s.bankMark p j.slot.val
        if due ≤ s.time then
          let r := s.vrun p j (vaccesses j)
          ((r.1.updCore p fun c => { c with vector := rest, vlast := due }).endToken j.token id).feSettle p
        else
          let r := s.vrun p j upTo
          r.1.updCore p fun c => { c with vector := r.2 :: rest }
    | _, _ => s

/-! ### Issue (R210-R212) -/

/-- An operand that is not there. -/
def noArg : VArg := ⟨0, 1, 0⟩

/-- A vector instruction at issue: the tests of R212 in order, then the unit's queue.  `fmt` is a FORMAT
trap; `srcs` are the operands that are read, by position, and `gather` the position of gathered or
scattered elements with their width (R212 step 5) and of the index vector, which is read here (log entry 21).
CHECK_FAIL is tested at issue after R212's tests, on each operand that is read in turn, with the operand's address as
TVAL, which is the model's choice (log entry 102). -/
def vector (s : State) (ins : Instr) (fmt : Bool) (args : List VArg) (more : List Word) (srcs : List Nat)
    (gather : Option (Nat × Nat × Nat)) : State :=
  let p := s.cur.pos
  let vl := bits s.cur.src.vl 12 0
  let seg := s.cur.src.lseg
  let indices (off : Nat) : List Nat := words32 vl (s.spadRead p (segBase seg + off) (4 * vl))
  let extra (offs : List Nat) : List Word :=
    match gather with
    | none => []
    | some (k, w, ix) =>
      if segLimit seg < offs.getD ix 0 + 4 * vl then []
      else
        (indices (offs.getD ix 0)).filterMap fun i =>
          if segLimit seg < offs.getD k 0 + w * (i + 1) then
            some ((args.getD k noArg).ea + BitVec.ofNat 64 (w * i))
          else none
  if fmt then s.trap .format 0
  else
    match s.resolveAll args more extra with
    | .error (.trap c v) => s.trap c v
    | .error (.go v) => s.migrate ins 0 [] v ((args.headD noArg).ea)
    | .error (.here _) => s
    | .ok addrs =>
      let idx := match gather with
        | some (_, _, ix) => words32 vl (s.spadRead p (addrs.getD ix 0) (4 * vl))
        | none => []
      let bad := firstSome (fun k =>
        if s.spadPoisoned p (addrs.getD k 0) ((args.getD k noArg).n) then some (args.getD k noArg).ea else none) srcs
      let bad := match bad, gather with
        | none, some (k, w, _) =>
          if srcs.contains k && idx.any fun i => s.spadPoisoned p (addrs.getD k 0 + w * i) w then
            some (args.getD k noArg).ea else none
        | b, _ => b
      match bad with
      | some a => s.trap .checkFail a
      | none =>
        let t := s.fresh1
        let after := (s.core p).buffer.map SbEntry.id
        let j : VJob :=
          { token := t.1, slot := s.cur.slot, ins := ins, regs := s.cur.src, addrs := addrs
            idx := idx, after := after, issued := s.time, start := if after.isEmpty then some s.time else none }
        (t.2.updCore p fun c => { c with vector := c.vector ++ [j] }).park ins 1 [] (.token t.1)

/-- A vector operand of VL elements of a format. -/
def varg (s : State) (r : Reg) (c : Nat) : VArg := ⟨s.g r, fmtBytes c, bytesOf c (bits s.cur.src.vl 12 0)⟩

/-- An operand of n bytes aligned to al. -/
def vargN (s : State) (r : Reg) (al n : Nat) : VArg := ⟨s.g r, al, n⟩

/-- VL at issue. -/
def vlen (s : State) : Nat := bits s.cur.src.vl 12 0

/-- A descriptor at issue. -/
def desc (s : State) (n : Fin 8) : Desc := Desc.ofWord (s.ts n)

end State

/-! ### Accepted formats (R215) -/

/-- FP64, FP32, BF16, FP16 and the integers. -/
def fmtArith (c : Nat) : Bool := isIntFmt c || (decide (8 ≤ c) && decide (c ≤ 0xB))
/-- FP32, BF16, FP16. -/
def fmtFn (c : Nat) : Bool := decide (9 ≤ c) && decide (c ≤ 0xB)
/-- Every code of R75 except E2M1 and E8M0. -/
def fmtByte (c : Nat) : Bool := isIntFmt c || (decide (8 ≤ c) && decide (c ≤ 0xD))
/-- Every code of R75. -/
def fmtAny (c : Nat) : Bool := isIntFmt c || decide (8 ≤ c)
/-- Every code of R75 except E8M0. -/
def fmtDst (c : Nat) : Bool := fmtAny c && c != 0xF
/-- FP64, FP32, BF16, FP16. -/
def fmtWide (c : Nat) : Bool := decide (8 ≤ c) && decide (c ≤ 0xB)

/-- Two sources and a destination of one format. -/
def vec2 (s : State) (ins : Instr) (ok : Bool) (rd ra rb : Reg) (c : Nat) : Res :=
  .next (s.vector ins (!ok) [s.varg rd c, s.varg ra c, s.varg rb c] [] [1, 2] none)

/-- One source and a destination of one format. -/
def vec1 (s : State) (ins : Instr) (ok : Bool) (rd ra : Reg) (c : Nat) : Res :=
  .next (s.vector ins (!ok) [s.varg rd c, s.varg ra c] [] [1] none)

def execVadd (rd ra rb : Reg) (r : Rnd) (e : BitVec 4) (s : State) : Res :=
  vec2 s (.vadd rd ra rb r e) (fmtArith e.toNat) rd ra rb e.toNat
def execVsub (rd ra rb : Reg) (r : Rnd) (e : BitVec 4) (s : State) : Res :=
  vec2 s (.vsub rd ra rb r e) (fmtArith e.toNat) rd ra rb e.toNat
def execVmul (rd ra rb : Reg) (r : Rnd) (e : BitVec 4) (s : State) : Res :=
  vec2 s (.vmul rd ra rb r e) (fmtArith e.toNat) rd ra rb e.toNat
def execVmin (rd ra rb : Reg) (r : Rnd) (e : BitVec 4) (s : State) : Res :=
  vec2 s (.vmin rd ra rb r e) (fmtArith e.toNat) rd ra rb e.toNat
def execVmax (rd ra rb : Reg) (r : Rnd) (e : BitVec 4) (s : State) : Res :=
  vec2 s (.vmax rd ra rb r e) (fmtArith e.toNat) rd ra rb e.toNat
def execVfma (rd ra rb rc : Reg) (r : Rnd) (e : BitVec 4) (s : State) : Res :=
  let c := e.toNat
  .next (s.vector (.vfma rd ra rb rc r e) (!fmtArith c)
    [s.varg rd c, s.varg ra c, s.varg rb c, s.varg rc c] [] [1, 2, 3] none)
/-- VSCL: gb is a value (R210). -/
def execVscl (rd ra rb : Reg) (r : Rnd) (e : BitVec 4) (s : State) : Res :=
  vec1 s (.vscl rd ra rb r e) (fmtArith e.toNat) rd ra e.toNat
def execVcpy (rd ra : Reg) (r : Rnd) (e : BitVec 4) (s : State) : Res :=
  vec1 s (.vcpy rd ra r e) (fmtDst e.toNat) rd ra e.toNat
def execVpfx (rd ra : Reg) (r : Rnd) (e : BitVec 4) (s : State) : Res :=
  vec1 s (.vpfx rd ra r e) (fmtArith e.toNat) rd ra e.toNat
/-- VIOTA: ga is a value (R210). -/
def execViota (rd ra : Reg) (r : Rnd) (e : BitVec 4) (s : State) : Res :=
  .next (s.vector (.viota rd ra r e) (!isIntFmt e.toNat) [s.varg rd e.toNat] [] [] none)
def execVcmp (rd ra rb : Reg) (op : VCmpOp) (r : Rnd) (e : BitVec 4) (s : State) : Res :=
  let c := e.toNat
  .next (s.vector (.vcmp rd ra rb op r e) (!fmtByte c) [s.vargN rd 1 s.vlen, s.varg ra c, s.varg rb c] []
    [1, 2] none)
def execVmsel (rd ra rb rc : Reg) (r : Rnd) (e : BitVec 4) (s : State) : Res :=
  let c := e.toNat
  .next (s.vector (.vmsel rd ra rb rc r e) (!fmtByte c)
    [s.varg rd c, s.varg ra c, s.varg rb c, s.vargN rc 1 s.vlen] [] [1, 2, 3] none)
/-- VCVT (R217). -/
def execVcvt (rd ra : Reg) (dst : BitVec 4) (r : Rnd) (src : BitVec 4) (s : State) : Res :=
  .next (s.vector (.vcvt rd ra dst r src) (!(fmtAny src.toNat && fmtDst dst.toNat))
    [s.varg rd dst.toNat, s.varg ra src.toNat] [] [1] none)
/-- VRED (R218): one result at rd. -/
def execVred (rd ra : Reg) (op : VRedOp) (r : Rnd) (e : BitVec 4) (s : State) : Res :=
  let c := e.toNat
  let ok := if op = .tmax then fmtFn c else fmtArith c
  let w := if op = .tmax then 8 else fmtBytes c
  .next (s.vector (.vred rd ra op r e) (!ok) [s.vargN rd w w, s.varg ra c] [] [1] none)
/-- VQNT (R220): its rounding field must be 0. -/
def execVqnt (rd ra rb : Reg) (r : Rnd) (e : BitVec 4) (s : State) : Res :=
  let q := s.desc 3
  let bad := !fmtWide e.toNat || !q.ok || q.skind == 0 || s.vlen % q.len != 0 || r != .dyn
  .next (s.vector (.vqnt rd ra rb r e) bad
    [s.varg rd q.fmt, s.varg ra e.toNat, s.vargN rb 4 (4 * (s.vlen / q.len))] [] [1] none)
/-- VDQ (R221). -/
def execVdq (rd ra rb : Reg) (r : Rnd) (e : BitVec 4) (s : State) : Res :=
  let q := s.desc 3
  let bad := !fmtWide e.toNat || !q.ok || q.skind == 0 || s.vlen % q.len != 0
  .next (s.vector (.vdq rd ra rb r e) bad
    [s.varg rd e.toNat, s.varg ra q.fmt, s.vargN rb 4 (4 * (s.vlen / q.len))] [] [1, 2] none)
/-- VBDOT (R222). -/
def execVbdot (rd ra rb : Reg) (pb : Bool) (r : Rnd) (s : State) : Res :=
  let q1 := s.desc 1
  let q2 := s.desc 2
  let vl := s.vlen
  let bad := !q1.ok || !q2.ok || q1.skind == 0 || q2.skind == 0 || q1.lblk != q2.lblk || vl % q1.len != 0
  let n := vl / q1.len
  let off (q : Desc) : Nat := scaleOff q.fmt vl
  .next (s.vector (.vbdot rd ra rb pb r) bad
    [s.vargN rd 4 (if pb then 4 + 4 * n else 4), s.vargN ra (fmtBytes q1.fmt) (off q1 + 4 * n),
      s.vargN rb (fmtBytes q2.fmt) (off q2 + 4 * n)]
    [s.g ra + BitVec.ofNat 64 (off q1), s.g rb + BitVec.ofNat 64 (off q2)] [1, 2] none)
/-- VTOPK (R223). -/
def execVtopk (rd ra : Reg) (k : Fin 8) (r : Rnd) (e : BitVec 4) (s : State) : Res :=
  .next (s.vector (.vtopk rd ra k r e) (!fmtFn e.toNat)
    [s.vargN rd 8 (8 * (k.val + 1)), s.varg ra e.toNat] [] [1] none)
/-- VMRG (R224). -/
def execVmrg (rd ra rb : Reg) (k : Fin 8) (r : Rnd) (e : BitVec 4) (s : State) : Res :=
  let n := 8 * (k.val + 1)
  .next (s.vector (.vmrg rd ra rb k r e) (!fmtFn e.toNat) [s.vargN rd 8 n, s.vargN ra 8 n, s.vargN rb 8 n] []
    [1, 2] none)
def execVfn (rd ra : Reg) (op : VFnOp) (r : Rnd) (e : BitVec 4) (s : State) : Res :=
  vec1 s (.vfn rd ra op r e) (fmtFn e.toNat) rd ra e.toNat
def execVdfn (rd ra rb : Reg) (op : VDFnOp) (r : Rnd) (e : BitVec 4) (s : State) : Res :=
  vec2 s (.vdfn rd ra rb op r e) (fmtFn e.toNat) rd ra rb e.toNat
/-- VGTH (R227): ra's elements are gathered. -/
def execVgth (rd ra rb : Reg) (r : Rnd) (e : BitVec 4) (s : State) : Res :=
  let c := e.toNat
  .next (s.vector (.vgth rd ra rb r e) (!fmtByte c)
    [s.varg rd c, s.vargN ra (fmtBytes c) 0, s.vargN rb 4 (4 * s.vlen)] [] [1, 2] (some (1, fmtBytes c, 2)))
/-- VSCT (R227): rd's elements are scattered. -/
def execVsct (rd ra rb : Reg) (addTo : Bool) (r : Rnd) (e : BitVec 4) (s : State) : Res :=
  let c := e.toNat
  let ok := if addTo then fmtArith c else fmtByte c
  .next (s.vector (.vsct rd ra rb addTo r e) (!ok)
    [s.vargN rd (fmtBytes c) 0, s.varg ra c, s.vargN rb 4 (4 * s.vlen)] []
    (if addTo then [0, 1, 2] else [1, 2]) (some (0, fmtBytes c, 2)))
/-- VSTAT (R228). -/
def execVstat (rd ra : Reg) (r : Rnd) (s : State) : Res :=
  .next (s.vector (.vstat rd ra r) false [s.vargN rd 4 32, s.vargN ra 4 (4 * s.vlen)] [] [1] none)

/-- SETVL (R209). -/
def execSetvl (rd ra : Reg) (s : State) : Res :=
  let n := Nat.min (s.g ra).toNat 4096
  let t := if n = 0 then s else s.updRegs fun x => { x with vl := BitVec.ofNat 64 n }
  .next (t.setG rd (BitVec.ofNat 64 n))

/-- VECTOR_COMPLETION (R214). -/
def execVectorCompletion (pos upTo : Nat) (s : State) : Res := .next (s.vectorProgress pos upTo)

end Sys2Proof.Machine
end

