-- ==== Sys2Proof/Machine/Matrix.lean ====
section
/-! DEFINITION. The matrix instructions, A-class majors 0x50 to 0x5A, the engine, the drain and the torus
(R19, R229-R253). -/

namespace Sys2Proof.Machine

/-! ### Tiles -/

/-- K per tile (R19, R233). -/
def kPerTile (c : Nat) : Nat :=
  match c with
  | 8 => 8
  | 9 => 16
  | 0xA | 0xB => 32
  | 0xE => 128
  | _ => 64

/-- The K group of an unscaled product (R236). -/
def kGroup (c : Nat) : Nat := match c with | 8 => 4 | 9 => 8 | _ => kPerTile c

/-- Multiplier cycles per tile pair (R19). -/
def tileCycles (c : Nat) : Nat := if c = 8 || c = 9 then 2 else 1

/-- The byte of the stored tile that holds byte b of row rr of the logical tile, and back (R233). -/
def swizzleByte (tag rr b : Nat) : Nat :=
  let sw := if tag = 0 then 0 else rr / 2 ^ (tag - 1) % 4
  16 * (b / 16 ^^^ sw) + b % 16

namespace Tile

/-- The element whose first half-byte is number h of the logical tile, of `nib` half-bytes. -/
def elem (t : Tile) (nib h : Nat) : Nat :=
  let b := h / 2
  let a := 64 * (b / 64) + swizzleByte t.tag (b / 64) (b % 64)
  let bytes := (t.data.drop a).take ((nib + 1) / 2)
  let v := ofBytes bytes
  if nib = 1 then (if h % 2 = 1 then v / 16 else v % 16) else v

/-- The codes of A(i, ·) (R233). -/
def rowA (t : Tile) (c : Nat) (ta : Bool) (i : Nat) : List Nat :=
  let nib := fmtBits c / 4
  let k := kPerTile c
  (List.range k).map fun x => t.elem nib (nib * (if ta then 16 * x + i else k * i + x))

/-- The codes of B(·, j) (R233). -/
def colB (t : Tile) (c : Nat) (tb : Bool) (j : Nat) : List Nat := t.rowA c tb j

/-- A scale word of the sidecar. -/
def scale (t : Tile) (n : Nat) : Nat := ((t.sidecar.getD []).getD n 0).toNat

end Tile

/-- Consecutive groups of l entries; the first argument is their number. -/
def groupsOf (l : Nat) : Nat → List (FVal × FVal) → List (List (FVal × FVal))
  | 0, _ => []
  | n + 1, xs => xs.take l :: groupsOf l n (xs.drop l)

/-- One element of an unscaled product (R236): the accumulator c in format f, and the operands. -/
def dotPlain (f l n : Nat) (c : FVal) (xs : List (FVal × FVal)) : FVal :=
  (groupsOf l n xs).foldl (fun acc g => elemValue f (roundTo f .rne false (acc.add .rne (exactDot g)))) c

/-- One element of a block-scaled product (R237): the scale pairs of the blocks in order. -/
def dotScaled (l : Nat) (scales : List (FVal × FVal)) (c : FVal) (xs : List (FVal × FVal)) : FVal :=
  ((groupsOf l scales.length xs).zip scales).foldl (fun acc g =>
    rnd32 .rne (acc.add .rne (scaledSum .rne (exactDot g.1) g.2.1 g.2.2))) c

namespace AccTile

/-- Word n of a tile. -/
def word (t : AccTile) (n : Nat) : BitVec 32 := (t.data.get n).getD 0

/-- A tile's words as sparse data. -/
def ofWords (ws : List (BitVec 32)) : AMap (BitVec 32) :=
  ws.zipIdx.filterMap fun x => if x.1 = 0 then none else some (x.2, x.1)

/-- The tile's 256 words. -/
def words (t : AccTile) : List (BitVec 32) := (List.range 256).map t.word

end AccTile

/-- The encoding of element (i, j) of an accumulator given as one tile, or as two in FP64 mode (R229). -/
def accElem (ts : List AccTile) (d : Bool) (i j : Nat) : Nat :=
  if d then
    let t := ts.getD (i / 8) {}
    let n := 2 * (16 * (i % 8) + j)
    (t.word n).toNat + (t.word (n + 1)).toNat * 2 ^ 32
  else ((ts.getD 0 {}).word (16 * i + j)).toNat

/-- The words of the tiles that hold a list of 256 encodings. -/
def accWords (d : Bool) (es : List Nat) : List (List (BitVec 32)) :=
  if d then
    let ws := es.flatMap fun e => [BitVec.ofNat 32 e, BitVec.ofNat 32 (e / 2 ^ 32)]
    [ws.take 256, ws.drop 256]
  else [es.map fun e => BitVec.ofNat 32 e]

namespace State

/-! ### Engines and windows -/

def engine (s : State) (k : Nat) : Engine := (s.cluster k).eng
def updEngine (s : State) (k : Nat) (f : Engine → Engine) : State :=
  s.updCluster k fun c => { c with eng := f c.eng }

def tileAt (s : State) (k n : Nat) : AccTile := ((s.engine k).tiles.get n).getD {}
def setTile (s : State) (k n : Nat) (t : AccTile) : State :=
  s.updEngine k fun e => { e with tiles := e.tiles.put n t }

/-- The tiles of a vcore that is created at a core: zero, EMPTY, owned by it (R229). -/
def newWindow (s : State) (pos v : Nat) : State :=
  (List.range 8).foldl (fun t i =>
    t.setTile (cluOf pos) (8 * (coreNum pos).val + i) { owner := v % 2 ^ 16 }) s

/-- May the die's engines run in this cycle (R361, R362)?  Which n of every 8 cycles CAP n leaves is not stated: the model
takes those with TIME mod 8 below n (log entry 94). -/
def engineMayRun (s : State) (d : Nat) : Bool :=
  match (s.die d).power with
  | .on => true
  | .cap n => decide (s.time % 8 < n)
  | _ => false

/-- A wake request (R252). -/
def wakeRequest (s : State) (k : Nat) : State :=
  s.updEngine k fun e =>
    { e with active := s.time, request := if e.awake || e.request.isSome then e.request else some s.time }

end State

/-! ### What a matrix instruction names -/

/-- The first tile of a core's window. -/
def windowOf (pos : Nat) : Nat := 8 * (coreNum pos).val

/-- The tiles an acc field names (R229); none in FP64 mode from 4 up. -/
def tilesOf (pos acc : Nat) (d : Bool) : List Nat :=
  if !d then [windowOf pos + acc]
  else if acc < 4 then [windowOf pos + 2 * acc, windowOf pos + 2 * acc + 1] else []

/-- A descriptor among a thread's shadow registers. -/
def tsDesc (r : Regs) (n : Fin 8) : Desc := Desc.ofWord (r.ts.get n)

/-- FP64 mode of a product, and of a drain (R229). -/
def dMode (r : Regs) : Bool := (tsDesc r 1).fmt == 8
def dDrain (r : Regs) : Bool := (tsDesc r 3).fmt == 8

/-- The tiles that a matrix instruction names. -/
def insTiles (pos : Nat) (r : Regs) (i : Instr) : List Nat :=
  match i with
  | .mma acc _ _ _ => tilesOf pos acc.val (dMode r)
  | .mmas acc _ _ _ => tilesOf pos acc.val false
  | .mmr acc _ => tilesOf pos acc.val (dMode r)
  | .mmg acc _ _ _ => tilesOf pos acc.val (dMode r)
  | .aclr acc => tilesOf pos acc.val false
  | .amovLd acc _ => tilesOf pos acc.val false
  | .amovSt acc _ => tilesOf pos acc.val false
  | .astat _ acc => tilesOf pos acc.val false
  | .drn acc _ _ _ _ _ _ _ _ => tilesOf pos acc.val (dDrain r)
  | _ => []

/-- Is MMR scaled: both descriptors have a scale kind (R242)? -/
def mmrScaled (r : Regs) : Bool := (tsDesc r 1).skind != 0 && (tsDesc r 2).skind != 0

namespace State

/-- KIND of a tile after the accepted instructions of the core that name it (R231). -/
def kindAfter (s : State) (pos n : Nat) : Kind :=
  let c := s.core pos
  let image (addrs : List Nat) : Kind :=
    match bits (BitVec.ofNat 64 (ofBytes (s.spadRead pos (addrs.getD 0 0 + 1024) 8))) 1 0 with
    | 0 => .empty
    | 1 => .plain
    | 2 => .scaled
    | _ => .d64
  let eff (k : Kind) (j : MJob) : Kind :=
    if !(insTiles pos j.regs j.ins).contains n then k
    else
      match j.ins with
      | .mma _ _ _ _ | .mmg _ _ _ _ => if dMode j.regs then .d64 else .plain
      | .mmr _ _ => if mmrScaled j.regs then .scaled else if dMode j.regs then .d64 else .plain
      | .mmas _ _ _ _ => .scaled
      | .aclr _ => .empty
      | .amovLd _ _ => image j.addrs
      | _ => k
  c.jobs.foldl eff ((c.moves.map (·.job)).foldl eff (s.tileAt (cluOf pos) n).kind)

/-- The number of the first named tile that another vcore owns (R230). -/
def ownerFault (s : State) (ins : Instr) : Option Nat :=
  (insTiles s.cur.pos s.cur.src ins).find? fun n =>
    (s.tileAt (cluOf s.cur.pos) n).owner != s.me.occ % 2 ^ 16

/-- Product formats that R235 refuses, but for the kinds. -/
def productBad (r : Regs) (scaled : Bool) : Bool :=
  let a := tsDesc r 1
  let b := tsDesc r 2
  let float (q : Desc) : Bool := q.ok && decide (8 ≤ q.fmt) && decide (q.fmt ≤ 0xE)
  let narrow (q : Desc) : Bool := isNarrow q.fmt
  let k := kPerTile a.fmt
  !float a || !float b || kPerTile a.fmt != kPerTile b.fmt ||
    (if scaled then
      a.skind == 0 || b.skind == 0 || !narrow a || !narrow b || a.lblk != b.lblk ||
        decide (4 * a.len < k) || decide (k < a.len)
     else a.skind != 0 || b.skind != 0)

/-- Kinds that R231 refuses. -/
def kindBad (s : State) (ins : Instr) (z : Bool) (allowed : List Kind) : Bool :=
  let ns := insTiles s.cur.pos s.cur.src ins
  ns.isEmpty || (!z && ns.any fun n => !allowed.contains (s.kindAfter s.cur.pos n))

/-- The kinds that an unscaled product accepts. -/
def plainKinds (s : State) : List Kind := if dMode s.cur.src then [.empty, .d64] else [.empty, .plain]

/-! ### Acceptance (R238) -/

/-- The first tag that differs from a descriptor's, as TVAL (R234). -/
def swizzleFault (s : State) (as bs : List Tile) : Option Word :=
  let sa := (tsDesc s.cur.src 1).swz
  let sb := (tsDesc s.cur.src 2).swz
  match as.find? fun t => t.tag != sa with
  | some t => some (BitVec.ofNat 64 (sa * 16 + t.tag))
  | none => (bs.find? fun t => t.tag != sb).map fun t => BitVec.ofNat 64 (256 + sb * 16 + t.tag)

/-- Does a core lack the resources of a matrix instruction (R238): a free entry of the job queue, unreserved
entries of the streams, and for MMR its rotation buffers, which no earlier MMR is to fill? -/
def lacks (c : Core) (needA needB : Nat) (rot : Bool) : Bool :=
  let rotBusy := c.rotA.isSome || c.rotB.isSome ||
    c.jobs.any fun j => match j.ins with | .mmr _ _ => true | _ => false
  decide (4 ≤ c.jobs.length) || decide (c.strA.length < c.resA + needA) ||
    decide (c.strB.length < c.resB + needB) || (rot && rotBusy)

/-- Step 4's sidecar test (R235) on the entries that are there of those the instruction would consume (log entry 23), and
steps 5 on of R238: hold where a resource is missing, until the resources exist; else reserve, test the reserved entries and
accept. -/
def accept (s : State) (ins : Instr) (needA needB : Nat) (scaled rot : Bool) (ends addrs : List Nat) :
    State :=
  let p := s.cur.pos
  let c := s.core p
  let as := (c.strA.drop c.resA).take needA
  let bs := (c.strB.drop c.resB).take needB
  if scaled && (as ++ bs).any fun t => t.sidecar.isNone then s.trap .format 0
  else if lacks c needA needB rot then (s.updMe fun x => { x with stalled := some (needA, needB, rot) }).hold
  else
      match s.swizzleFault as bs with
      | some v => s.trap .swizzleMismatch v
      | none =>
        if (as ++ bs).any fun t => t.poison then s.trap .checkFail 0
        else
          let t := s.fresh1
          let j : MJob :=
            { token := t.1, slot := s.cur.slot, ins := ins, regs := s.cur.src, occ := s.me.occ
              accepted := s.time, needA := needA, needB := needB, ends := ends, addrs := addrs }
          ((t.2.updCore p fun c =>
            { c with jobs := c.jobs ++ [j], resA := c.resA + needA, resB := c.resB + needB }).wakeRequest
              (cluOf p)).park ins 1 [] (.token t.1)

/-- A matrix instruction: ACC_OWNER, then the rest (R230). -/
def owned (s : State) (ins : Instr) (k : State) : State :=
  match s.ownerFault ins with
  | some n => s.trap .accOwner (BitVec.ofNat 64 n)
  | none => k

end State

/-! ### The products (R241-R243) -/

def execMma (acc : Fin 8) (tb ta z : Bool) (s : State) : Res :=
  let ins := Instr.mma acc tb ta z
  .next (s.owned ins
    (if State.productBad s.cur.src false || s.kindBad ins z s.plainKinds then s.trap .format 0
     else s.accept ins 1 1 false false [] []))

def execMmas (acc : Fin 8) (tb ta z : Bool) (s : State) : Res :=
  let ins := Instr.mmas acc tb ta z
  .next (s.owned ins
    (if State.productBad s.cur.src true || s.kindBad ins z [.empty, .scaled] then s.trap .format 0
     else s.accept ins 1 1 true false [] []))

def execMmr (acc : Fin 8) (z : Bool) (s : State) : Res :=
  let ins := Instr.mmr acc z
  let sc := mmrScaled s.cur.src
  .next (s.owned ins
    (if State.productBad s.cur.src sc || s.kindBad ins z (if sc then [.empty, .scaled] else s.plainKinds) then
       s.trap .format 0
     else s.accept ins 1 1 sc true [] []))

/-- MMG's operand (R243). -/
def mmgTr (w : Word) : Nat := bits w 63 48
def mmgRow0 (w : Word) : Nat := bits w 47 16
def mmgG (w : Word) : Nat := bits w 8 0

/-- Do the ends rise? -/
def rising : Nat → List Nat → Bool
  | _, [] => true
  | x, e :: t => decide (x ≤ e) && rising e t

/-- GROUP_OFFSETS (R243). -/
def offsetsBad (w : Word) (e : List Nat) : Bool :=
  bits w 15 9 != 0 || mmgG w == 0 || decide (256 < mmgG w) || mmgTr w == 0 || !rising 0 e ||
    decide (mmgTr w < e.getLastD 0)

/-- S of R243: the non-empty groups that hold a row of the entry, as first row and end. -/
def groupsAt (row0 : Nat) (e : List Nat) : List (Nat × Nat) :=
  ((0 :: e).zip e).filter fun g => decide (g.1 < g.2) && decide (g.1 < row0 + 16) && decide (row0 < g.2)

def execMmg (acc : Fin 8) (ra rb : Reg) (z : Bool) (s : State) : Res :=
  let ins := Instr.mmg acc ra rb z
  let a := s.g ra
  let w := s.g rb
  .next (s.owned ins
    (if State.productBad s.cur.src false || s.kindBad ins z s.plainKinds then s.trap .format 0
     else
       s.withAddr ins a 4 (4 * mmgG w) fun pa =>
         if s.spadPoisoned s.cur.pos pa (4 * mmgG w) then s.trap .checkFail a
         else
           let e := words32 (mmgG w) (s.spadRead s.cur.pos pa (4 * mmgG w))
           if offsetsBad w e then s.trap .groupOffsets a
           else s.accept ins 1 (groupsAt (mmgRow0 w) e).length false false e []))

/-! ### ACLR and AMOV (R244, R245) -/

def execAclr (acc : Fin 8) (s : State) : Res :=
  let ins := Instr.aclr acc
  .next (s.owned ins (s.accept ins 0 0 false false [] []))

/-- AMOV.LD (R245): in supervisor mode the owner is not tested. -/
def execAmovLd (acc : Fin 8) (ra : Reg) (s : State) : Res :=
  let ins := Instr.amovLd acc ra
  let a := s.g ra
  let go := s.withAddr ins a 8 1032 fun pa =>
    if bits (BitVec.ofNat 64 (ofBytes (s.spadRead s.cur.pos (pa + 1024) 8))) 63 2 ≠ 0 then s.trap .format a
    else if s.spadPoisoned s.cur.pos pa 1032 then s.trap .checkFail a
    else s.accept ins 0 0 false false [] [pa]
  .next (if s.sup then go else s.owned ins go)

def execAmovSt (acc : Fin 8) (ra : Reg) (s : State) : Res :=
  let ins := Instr.amovSt acc ra
  .next (s.owned ins (s.withAddr ins (s.g ra) 8 1032 fun pa => s.accept ins 0 0 false false [] [pa]))

/-! ### DRN (R246-R248) -/

/-- The format of the saved pre-activation (R246). -/
def savedFmt (q : Desc) : Nat := if q.skind = 0 then q.fmt else 9

/-- FORMAT of a drain (R246, R247), but for the kinds. -/
def drnBad (r : Regs) (stat q dx : Bool) (act : Act) : Bool :=
  let d := tsDesc r 3
  if !d.ok then true
  else if d.fmt = 8 then d.skind != 0 || stat || q || dx || act != .none
  else if q then
    d.skind == 0 || !(isNarrow d.fmt || d.fmt == 0) || !(d.len == 8 || d.len == 16)
  else d.skind != 0 || !(decide (9 ≤ d.fmt) && decide (d.fmt ≤ 0xE))

/-- DRN's address operands: destination, scale words, bias, saved pre-activation (R248). -/
def drnArgs (s : State) (ra : Reg) (q dx bias : Bool) (side : DrnSide) : List State.VArg :=
  let d := tsDesc s.cur.src 3
  let wf := if d.fmt = 8 then 8 else 4
  [⟨s.g ra, fmtBytes d.fmt, bytesOf d.fmt 256⟩] ++
    (if q then [⟨s.g side.sw, 4, 4 * (256 / d.len)⟩] else []) ++
    (if bias then [⟨s.g side.bias, wf, 16 * wf⟩] else []) ++
    (if dx then [⟨s.g side.dx, fmtBytes (savedFmt d), bytesOf (savedFmt d) 256⟩] else [])

/-- The position of an operand among DRN's addresses. -/
def drnIx (q bias : Bool) (which : Nat) : Nat :=
  match which with
  | 1 => 1
  | 2 => if q then 2 else 1
  | _ => 1 + q.toNat + bias.toNat

def execDrn (acc : Fin 8) (ra : Reg) (stat q dx bias scl : Bool) (act : Act) (side : DrnSide)
    (s : State) : Res :=
  let ins := Instr.drn acc ra stat q dx bias scl act side
  let kinds : List Kind := if dDrain s.cur.src then [.empty, .d64] else [.empty, .plain, .scaled]
  let args := drnArgs s ra q dx bias side
  .next (s.owned ins
    (if drnBad s.cur.src stat q dx act || s.kindBad ins false kinds then s.trap .format 0
     else
       match s.resolveAll args [] (fun _ => []) with
       | .error (.trap c v) => s.trap c v
       | .error (.go v) => s.migrate ins 0 [] v (s.g ra)
       | .error (.here _) => s
       | .ok addrs =>
         let reads := (if bias then [drnIx q bias 2] else []) ++ (if dx then [drnIx q bias 3] else [])
         match firstSome (fun k =>
             let v := args.getD k State.noArg
             if s.spadPoisoned s.cur.pos (addrs.getD k 0) v.n then some v.ea else none) reads with
         | some a => s.trap .checkFail a
         | none => s.accept ins 0 0 false false [] addrs))

/-! ### Queries (R249-R252) -/

/-- QPOP (R249). -/
def execQpop (q : Bool) (s : State) : Res :=
  .next (s.updCore s.cur.pos fun c =>
    if q then { c with strB := c.strB.eraseIdx c.resB } else { c with strA := c.strA.eraseIdx c.resA })

/-- QLVL (R250). -/
def qlvlWord (c : Core) (awake : Bool) : Word :=
  BitVec.ofNat 64
    (awake.toNat * 2 ^ 24 + c.rotB.isSome.toNat * 2 ^ 17 + c.rotA.isSome.toNat * 2 ^ 16 +
      (c.strB.length - c.resB) * 2 ^ 8 + (c.strA.length - c.resA))

def execQlvl (rd : Reg) (s : State) : Res :=
  .next (s.setG rd (qlvlWord (s.core s.cur.pos) (s.engine (cluOf s.cur.pos)).awake))

def Kind.code : Kind → Nat
  | .empty => 0
  | .plain => 1
  | .scaled => 2
  | .d64 => 3

/-- ASTAT's result (R251). -/
def astatWord (t : AccTile) : Word :=
  let es := t.words.map fun w => w.toNat / 2 ^ 23 % 256
  let nan := (es.filter fun e => e == 255).length
  let zeros := (t.words.filter fun w => w.toNat % 2 ^ 31 == 0).length
  let other := (t.words.filter fun w => w.toNat % 2 ^ 31 != 0).filterMap fun w =>
    let e := w.toNat / 2 ^ 23 % 256
    if e = 255 then none else some e
  BitVec.ofNat 64
    (t.kind.code * 2 ^ 48 + nan * 2 ^ 32 + zeros * 2 ^ 16 + other.foldl Nat.min 0xFF * 2 ^ 8 +
      other.foldl Nat.max 0)

/-- The running drain of a core on a tile. -/
def drainOn (s : State) (p n : Nat) : Option Nat :=
  match (s.engine (cluOf p)).drain with
  | some d =>
    if d.core == coreNum p && (insTiles p d.job.regs d.job.ins).contains n then some d.job.token else none
  | none => none

/-- ASTAT (R251): phase 1 waits for the earlier instructions on the tile, phase 3 for the drain that is the last of
them, which leaves the tile as it was read, and phase 2 for the fourth cycle after the read.  It is not queued (R238, log
entry 113). -/
def execAstat (rd : Reg) (acc : Fin 8) (s : State) : Res :=
  let ins := Instr.astat rd acc
  let p := s.cur.pos
  let n := windowOf p + acc.val
  .next
    (match s.cur.phase with
     | 0 =>
       s.owned ins
         (let c := s.core p
          let on (j : MJob) : Bool := (insTiles p j.regs j.ins).contains n
          let wait := (c.jobs.filter on).map (·.token) ++ ((c.moves.map (·.job)).filter on).map (·.token)
          let t := s.tileAt (cluOf p) n
          match wait, drainOn s p n with
          | [], some d => s.park ins 3 [astatWord t, BitVec.ofNat 64 t.ready, BitVec.ofNat 64 d] .poll
          | [], none =>
            if t.ready ≤ s.time then s.setG rd (astatWord t)
            else s.park ins 2 [astatWord t, BitVec.ofNat 64 t.ready] .poll
          | l, d => s.park ins 1 ((l ++ d.toList).map (BitVec.ofNat 64)) .poll)
     | 1 =>
       if s.cur.held.isEmpty then
         let t := s.tileAt (cluOf p) n
         s.park ins 2 [astatWord t, BitVec.ofNat 64 (max s.time t.ready)] .poll
       else s.park ins 1 s.cur.held .poll
     | 2 =>
       if (s.cur.held.getD 1 0).toNat + 4 ≤ s.time then s.setG rd (s.cur.held.getD 0 0)
       else s.park ins 2 s.cur.held .poll
     | k => s.park ins k s.cur.held .poll)

/-- MWAKE (R252). -/
def execMwake (s : State) : Res := .next (s.wakeRequest (cluOf s.cur.pos))

namespace State

/-! ### Consumption (R239) -/

/-- A waiting ASTAT for which only the running drain is left reads the tile. -/
def astatRead (s : State) (p : Nat) (q : Pend) : Pend :=
  match q.ins, q.phase with
  | .astat _ acc, 1 =>
    let n := windowOf p + acc.val
    let t := s.tileAt (cluOf p) n
    match q.held, drainOn s p n with
    | [], _ => { q with phase := 2, held := [astatWord t, BitVec.ofNat 64 (max s.time t.ready)] }
    | [w], some d =>
      if w.toNat = d then
        { q with phase := 3, held := [astatWord t, BitVec.ofNat 64 (max s.time t.ready), w] }
      else q
    | _, _ => q
  | _, _ => q

/-- A waiting ASTAT no longer waits for an instruction. -/
def astatOver (now token : Nat) (q : Pend) : Pend :=
  match q.ins, q.phase with
  | .astat _ _, 1 => { q with held := q.held.filter fun w => w.toNat != token }
  | .astat _ _, 3 =>
    if (q.held.getD 2 0).toNat = token then
      { q with phase := 2, held := [q.held.getD 0 0, BitVec.ofNat 64 (max now (q.held.getD 1 0).toNat)] }
    else q
  | _, _ => q

/-- The waiting ASTATs of a core read what they may. -/
def astatLook (s : State) (p : Nat) : State :=
  s.updCore p fun c => { c with slots := c.slots.map fun x => { x with pendA := x.pendA.map (s.astatRead p) } }

/-- A waiting ASTAT of the core no longer waits for this instruction; after its last one it reads the
tile. -/
def astatSettle (s : State) (p token : Nat) : State :=
  (s.updCore p fun c =>
    { c with slots := c.slots.map fun x => { x with pendA := x.pendA.map (astatOver s.time token) } }).astatLook p

/-- The new accumulator encodings of a product for the rows that `use` gives a B tile (R236, R237). -/
def product (r : Regs) (tiles : List AccTile) (a : Tile) (use : Nat → Option Tile) (ta tb scaled z : Bool) :
    List Nat :=
  let d := !scaled && dMode r
  let fa := (tsDesc r 1).fmt
  let fb := (tsDesc r 2).fmt
  let qa := tsDesc r 1
  let qb := tsDesc r 2
  let f := if d then 8 else 9
  let k := kPerTile fa
  let l := if scaled then qa.len else kGroup fa
  let n := k / l
  (List.range 16).flatMap fun i =>
    let row := (a.rowA fa ta i).map (elemValue fa)
    (List.range 16).map fun j =>
      let old := if z then 0 else accElem tiles d i j
      match use i with
      | none => old
      | some b =>
        let xs := row.zip ((b.colB fb tb j).map (elemValue fb))
        let c := elemValue f old
        if scaled then
          let sc := (List.range n).map fun x =>
            (scaleValue qa.skind (a.scale (n * i + x)), scaleValue qb.skind (b.scale (n * j + x)))
          f32.round .rne false (dotScaled l sc c xs)
        else roundTo f .rne false (dotPlain f l n c xs)

/-- Write an accumulator's encodings to its tiles. -/
def putAcc (s : State) (k : Nat) (ns : List Nat) (d : Bool) (kind : Kind) (es : List Nat) (ready : Nat) :
    State :=
  (ns.zip (accWords d es)).foldl (fun t x =>
    t.setTile k x.1 { t.tileAt k x.1 with kind := kind, data := AccTile.ofWords x.2, ready := ready }) s

/-- The gang-relative neighbour: position and torus links, west for A and north for B (R242). -/
def neighbour (s : State) (p occ : Nat) (isB : Bool) : Nat × Nat :=
  match (s.vcore occ).gang with
  | none => (p, 0)
  | some (_, b) =>
    let x := torusOf p % 8
    let y := torusOf p / 8
    let i := (x + 8 - b.x0) % 8
    let j := (y + 8 - b.y0) % 8
    let dst (i j : Nat) : Nat :=
      512 * b.die + 8 * ((b.x0 + i) % 8 + 8 * ((b.y0 + j) % 8)) + (coreNum p).val
    if isB then
      if b.h ≤ 1 then (p, 0) else if j = 0 then (dst i (b.h - 1), b.h - 1) else (dst i (j - 1), 1)
    else if b.w ≤ 1 then (p, 0)
    else if i = 0 then (dst (b.w - 1) j, b.w - 1) else (dst (i - 1) j, 1)

/-- Pop the reserved entries of a consumed instruction. -/
def popStreams (s : State) (p : Nat) (j : MJob) : State :=
  s.updCore p fun c =>
    { c with
      strA := c.strA.drop j.needA, resA := c.resA - j.needA
      strB := c.strB.drop j.needB, resB := c.resB - j.needB }

/-- The effect of a consumed product on accumulators and rotation buffers. -/
def consumeProduct (s : State) (p : Nat) (j : MJob) : State :=
  let k := cluOf p
  let c := s.core p
  let a := c.strA.headD { data := [] }
  let ns := insTiles p j.regs j.ins
  let tiles := ns.map (s.tileAt k)
  let fa := (tsDesc j.regs 1).fmt
  let ready := s.time + (if tileCycles fa = 2 then 7 else 6)
  let b := c.strB.headD { data := [] }
  let d := dMode j.regs
  let kind : Kind := if d then .d64 else .plain
  match j.ins with
  | .mma _ tb ta z =>
    s.putAcc k ns d kind (product j.regs tiles a (fun _ => some b) ta tb false z) ready
  | .mmas _ tb ta z =>
    s.putAcc k ns false .scaled (product j.regs tiles a (fun _ => some b) ta tb true z) ready
  | .mmr _ z =>
    let sc := mmrScaled j.regs
    let t := s.putAcc k ns (!sc && d) (if sc then .scaled else kind)
      (product j.regs tiles a (fun _ => some b) false false sc z) ready
    let na := s.neighbour p j.occ false
    let nb := s.neighbour p j.occ true
    t.updCore p fun c =>
      { c with
        rotA := some (a, s.time + 4 * na.2 + 2, na.1), rotB := some (b, s.time + 4 * nb.2 + 2, nb.1) }
  | .mmg _ _ rb z =>
    let row0 := mmgRow0 (if rb = 0 then 0 else j.regs.g.get rb)
    let gs := groupsAt row0 j.ends
    let use (i : Nat) : Option Tile :=
      firstSome (fun x : (Nat × Nat) × Nat =>
        if x.1.1 ≤ row0 + i && decide (row0 + i < x.1.2) then c.strB[x.2]? else none) gs.zipIdx
    s.putAcc k ns d kind (product j.regs tiles a use false false false z) ready
  | _ => s

/-- The cycles for which a consumed instruction occupies the multiplier (R239, R243); one for ACLR and AMOV, which is the
model's choice (log entry 118). -/
def occupancy (j : MJob) : Nat :=
  let c := tileCycles (tsDesc j.regs 1).fmt
  match j.ins with
  | .mma _ _ _ _ | .mmas _ _ _ _ | .mmr _ _ => c
  | .mmg _ _ _ _ => max 1 (j.needB * c)
  | _ => 1

/-- Is the engine able to start work in this cycle (R252, R361)? -/
def engineReady (s : State) (k : Nat) : Bool :=
  let e := s.engine k
  e.awake && decide (e.usable ≤ s.time) && s.engineMayRun (dieOf (8 * k))

/-- No move of the core is under way on a tile that a job names. -/
def movesClear (s : State) (p : Nat) (j : MJob) : Bool :=
  let ns := insTiles p j.regs j.ins
  (s.core p).moves.all fun m => (insTiles p m.job.regs m.job.ins).all fun n => !ns.contains n

/-- The cores of a cluster after the one served last. -/
def serveOrder (last : Fin 8) : List (Fin 8) := (List.range 8).map fun i => last + 1 + Fin.ofNat 8 i

/-- Is a job a drain? -/
def isDrn (j : MJob) : Bool :=
  match j.ins with
  | .drn _ _ _ _ _ _ _ _ _ => true
  | _ => false

/-- Do two jobs of a core name a common tile? -/
def sameTile (p : Nat) (i j : MJob) : Bool :=
  (insTiles p i.regs i.ins).any fun n => (insTiles p j.regs j.ins).contains n

/-- The job of a core whose turn at the multiplier it is, in order of acceptance: what follows a drain waits until that has
started (R239, R248, log entry 108). -/
def headJob (s : State) (p : Nat) : Option MJob :=
  match (s.core p).jobs with
  | j :: _ => if isDrn j then none else some j
  | [] => none

/-- The job that the engine consumes in this cycle. -/
def nextJob (s : State) (k : Nat) : Option (Fin 8 × MJob) :=
  if !s.engineReady k || decide (s.time < (s.engine k).free) then none
  else
    firstSome (fun i : Fin 8 =>
      let p := 8 * k + i.val
      match s.headJob p with
      | none => none
      | some j =>
        if (s.core p).sealed || decide (s.time < j.accepted + 2) || !s.movesClear p j then none
        else some (i, j)) (serveOrder (s.engine k).last)

/-- The 129 doublewords of a tile image (R245). -/
def tileImage (t : AccTile) : List Word :=
  ((List.range 128).map fun i => BitVec.ofNat 64 ((t.word (2 * i)).toNat + (t.word (2 * i + 1)).toNat * 2 ^ 32)) ++
    [BitVec.ofNat 64 t.kind.code]

/-- The engine consumes a job (R239). -/
def consume (s : State) (k : Nat) (i : Fin 8) (j : MJob) : State :=
  let p := 8 * k + i.val
  let t := (s.consumeProduct p j).popStreams p j
  let t := t.updCore p fun c => { c with jobs := c.jobs.filter fun x => x.token != j.token }
  let t := t.updEngine k fun e => { e with last := i, free := s.time + occupancy j, active := s.time }
  let n := (insTiles p j.regs j.ins).headD 0
  match j.ins with
  | .amovLd _ _ => t.updCore p fun c => { c with moves := c.moves ++ [{ job := j, begun := s.time }] }
  | .amovSt _ _ =>
    t.updCore p fun c => { c with moves := c.moves ++ [{ job := j, begun := s.time, buf := tileImage (s.tileAt k n) }] }
  | .aclr _ =>
    ((t.setTile k n { t.tileAt k n with kind := .empty, data := [], ready := max s.time (t.tileAt k n).ready }).endToken
      j.token id).astatSettle p j.token
  | _ => (t.endToken j.token id).astatSettle p j.token

/-! ### Accesses of AMOV (R245) -/

/-- The next access of a move; after the last one of a load the tile is written. -/
def moveAccess (s : State) (p : Nat) (m : Move) : State × Move :=
  let a := m.job.addrs.getD 0 0 + 8 * m.done
  let s := s.bankMark p m.job.slot.val
  match m.job.ins with
  | .amovSt _ _ =>
    (s.spadWrite p a (toBytes 8 (m.buf.getD m.done 0).toNat), { m with done := m.done + 1 })
  | _ =>
    (s, { m with done := m.done + 1, buf := m.buf ++ [BitVec.ofNat 64 (ofBytes (s.spadRead p a 8))] })

/-- Run the remaining accesses of a move, and end it (R245). -/
def moveEnd (s : State) (p : Nat) (m : Move) : State :=
  let r := (List.range (129 - m.done)).foldl (fun x _ => moveAccess x.1 p x.2) (s, m)
  let t := r.1.updCore p fun c => { c with moves := c.moves.filter fun x => x.job.token != m.job.token }
  let n := (insTiles p m.job.regs m.job.ins).headD 0
  let t := match m.job.ins with
    | .amovLd _ _ =>
      let ws := (r.2.buf.take 128).flatMap fun (w : Word) => [BitVec.ofNat 32 w.toNat, BitVec.ofNat 32 (w.toNat / 2 ^ 32)]
      let kind : Kind := match bits (r.2.buf.getD 128 0) 1 0 with
        | 0 => .empty
        | 1 => .plain
        | 2 => .scaled
        | _ => .d64
      let old := t.tileAt (cluOf p) n
      t.setTile (cluOf p) n
        { old with
          owner := if Tsw.s m.job.regs.tsw then m.job.occ % 2 ^ 16 else old.owner
          kind := kind, data := AccTile.ofWords ws, ready := s.time }
    | _ => t
  ((t.endToken m.job.token id).astatSettle p m.job.token).feSettle p

/-- May a move perform its next access: a store only once the earlier instructions on the tile have taken effect (R239,
R245)?  It may come at any time before +72, the last one too, which is the model's choice (log entry 110). -/
def moveGoes (s : State) (p : Nat) (m : Move) : Bool :=
  decide (m.done < 129) && s.bankTurn p m.job.slot &&
    match m.job.ins with
    | .amovSt _ _ => (insTiles p m.job.regs m.job.ins).all fun n => decide ((s.tileAt (cluOf p) n).ready ≤ s.time)
    | _ => true

/-- The moves of a cluster's cores. -/
def clusterMoves (s : State) (k : Nat) : List (Nat × Move) :=
  (List.range 8).flatMap fun i => (s.core (8 * k + i)).moves.map fun m => (8 * k + i, m)

/-- One access of one of the cluster's moves where the bank's order lets it in (R165), or the end of a move in its
last cycle. -/
def moveStep (s : State) (k : Nat) : State :=
  let ms := s.clusterMoves k
  match ms.find? fun x =>
      decide (x.2.begun + 72 ≤ s.time) && (s.bankDue x.1).all fun i => decide (x.2.job.slot ≤ i) with
  | some (p, m) => s.moveEnd p m
  | none =>
    match ms.filter fun x => s.moveGoes x.1 x.2 with
    | [] => s
    | x :: rest =>
      let n := s.pick (rest.length + 1)
      let y := (x :: rest).getD n.1 x
      let r := n.2.moveAccess y.1 y.2
      r.1.updCore y.1 fun c =>
        { c with moves := c.moves.map fun m => if m.job.token = y.2.job.token then r.2 else m }

/-! ### The drain (R246-R248) -/

/-- The job with which a drain can start in this cycle: no earlier instruction of the core on its tile is to take
effect still (R248, log entry 108).  CAP holds it back as it does a consumption (R361, log entry 94). -/
def nextDrain (s : State) (k : Nat) : Option (Fin 8 × MJob) :=
  if !s.engineReady k || (s.engine k).drain.isSome then none
  else
    firstSome (fun i : Fin 8 =>
      let p := 8 * k + i.val
      let js := (s.core p).jobs
      let free (j : MJob) : Bool :=
        isDrn j && !(js.takeWhile fun x => x.token != j.token).any (sameTile p j) &&
          !decide (s.time < j.accepted + 2) && s.movesClear p j &&
          !(insTiles p j.regs j.ins).any fun n => decide (s.time < (s.tileAt k n).ready)
      if (s.core p).sealed then none else (js.find? free).map fun j => (i, j)) (serveOrder (s.engine k).last)

/-- The activation's derivative as VDFN's operator (R246). -/
def actDeriv : Act → VDFnOp
  | .gelu => .dgelu
  | .silu => .dsilu
  | .sigm => .dsigm
  | .tanh => .dtanh
  | _ => .drelu

/-- The activation of step 4 (R246). -/
def actApply (a : Act) (v : FVal) : FVal :=
  match a with
  | .none => v
  | .relu => if v.isNan then .nan else if (FVal.ofInt 0).flt v then v else .fin false 0 0
  | .gelu => gelu .rne v
  | .silu => silu .rne v
  | .sigm => fn32 .sigm v
  | .tanh => fn32 .tanh v

/-- Steps 1 to 5 of R246 on one element. -/
def drainElem (r : Regs) (f : Nat) (scaled dx bias scl : Bool) (act : Act) (side : DrnSide) (v b x : FVal) :
    FVal :=
  let rd (y : FVal) : FVal := elemValue f (roundTo f .rne false y)
  let v := if scaled then rnd32 .rne (v.mul (tensorScale (r.ts.get 6))) else v
  let v := if scl then rd (v.mul (elemValue f (if side.scl = 0 then 0 else (r.g.get side.scl).toNat))) else v
  let v := if bias then rd (v.add .rne b) else v
  let v := if dx then v else actApply act v
  if dx then rnd32 .rne (v.mul (deriv (actDeriv act) x)) else v

/-- The writes of one output row (R247). -/
def rowWrites (q : Desc) (stat isQ : Bool) (dst sw i : Nat) (vs : List FVal) : List (VLoc × Nat) :=
  if !isQ then vs.zipIdx.map fun y => (eloc q.fmt dst (16 * i + y.2), roundTo q.fmt q.mode q.sat y.1)
  else
    let l := q.len
    (List.range (16 / l)).flatMap fun b =>
      let r := quantiseBlock q ((vs.drop (b * l)).take l)
      let w := if q.skind = 1 || stat then r.2 else r.2 % 256
      (r.1.zipIdx.map fun y => (eloc q.fmt dst (16 * i + b * l + y.2), y.1)) ++
        [(⟨sw + 4 * (i * 16 / l + b), 4, none⟩, w)]

/-- Whole-byte writes; the two nibbles of a byte that one row writes are written together. -/
def packWrites : List (VLoc × Nat) → List (Nat × List Byte)
  | (⟨a, _, some false⟩, x) :: (⟨_, _, some true⟩, y) :: t => (a, toBytes 1 (x % 16 + y % 16 * 16)) :: packWrites t
  | (⟨a, n, _⟩, x) :: t => (a, toBytes n x) :: packWrites t
  | [] => []

/-- The writes of row i of a drain: its side operands are read now. -/
def drainRow (s : State) (p : Nat) (j : MJob) (tiles : List AccTile) (i : Nat) : List (Nat × List Byte) :=
  match j.ins with
  | .drn _ _ stat q dx bias scl act side =>
    let d := tsDesc j.regs 3
    let f := if d.fmt = 8 then 8 else 9
    let scaled := (tiles.headD {}).kind == .scaled
    let at' (k : Nat) : Nat := j.addrs.getD k 0
    let vs := (List.range 16).map fun jj =>
      let v := elemValue f (accElem tiles (f == 8) i jj)
      let b := if bias then elemValue f (s.getLoc p (eloc f (at' (drnIx q bias 2)) jj)) else .nan
      let x := if dx then
          elemValue (savedFmt d) (s.getLoc p (eloc (savedFmt d) (at' (drnIx q bias 3)) (16 * i + jj)))
        else .nan
      drainElem j.regs f scaled dx bias scl act side v b x
    packWrites (rowWrites d stat q (at' 0) (at' 1) i vs)
  | _ => []

/-- The next access of the drain: a write of its row, or the reads of its next row. -/
def drainStep (s : State) (k : Nat) (d : Drain) : State × Drain :=
  let p := 8 * k + d.core.val
  match d.buf with
  | (a, bs) :: t => ((s.bankMark p d.job.slot.val).spadWrite p a bs, { d with buf := t })
  | [] =>
    if d.row < 16 then
      (s.bankMark p d.job.slot.val, { d with row := d.row + 1, buf := s.drainRow p d.job d.tiles d.row })
    else (s, d)

/-- Has a drain an access to perform before its end?  Its last write is performed in the last of its 24 cycles (R248). -/
def drainMore (d : Drain) : Bool := decide (d.row < 16) || decide (1 < d.buf.length)

/-- The drain starts, goes on, or ends 24 cycles after its start (R248). -/
def drainEvent (s : State) (k : Nat) : State :=
  match (s.engine k).drain with
  | none =>
    match s.nextDrain k with
    | none => s
    | some (i, j) =>
      let p := 8 * k + i.val
      ((s.updCore p fun c => { c with jobs := c.jobs.filter fun x => x.token != j.token }).updEngine k fun e =>
        let tiles := (insTiles p j.regs j.ins).map (s.tileAt k)
        { e with last := i, drain := some { core := i, job := j, tiles := tiles, start := s.time } }).astatLook p
  | some d =>
    if d.start + 24 ≤ s.time then
      let r := (List.range 600).foldl (fun x _ => drainStep x.1 k x.2) (s, d)
      let p := 8 * k + d.core.val
      (((r.1.updEngine k fun e => { e with drain := none, active := s.time }).endToken d.job.token id).astatSettle
        p d.job.token).feSettle p
    else if drainMore d then
      let r := s.drainStep k d
      r.1.updEngine k fun e => { e with drain := some r.2 }
    else s

/-- The engine is idle: no job is queued and no drain is in progress. -/
def engineIdle (s : State) (k : Nat) : Bool :=
  (s.engine k).drain.isNone && (List.range 8).all fun i => (s.core (8 * k + i)).jobs.isEmpty

/-- Is the engine to fall asleep in this cycle (R252)? -/
def sleepDue (s : State) (k : Nat) : Bool :=
  (s.engine k).awake && s.engineIdle k && decide ((s.engine k).active + 2 ^ 16 ≤ s.time)

/-- Is the engine to wake in this cycle (R252)? -/
def wakeDue (s : State) (k : Nat) : Bool :=
  let e := s.engine k
  !e.awake && s.time % 1024 == 64 * (k % 16) &&
    (match e.request with
     | some q => decide (q < s.time)
     | none => false)

/-- A rotated entry reaches its neighbour's stream, if it is time and there is room (R242). -/
def rotateForward (s : State) (p : Nat) (isB : Bool) : State :=
  let c := s.core p
  match (if isB then c.rotB else c.rotA) with
  | none => s
  | some (t, due, dst) =>
    let d := s.core dst
    if s.time < due || 16 ≤ (if isB then d.strB else d.strA).length then s
    else
      let u := s.updCore p fun c => if isB then { c with rotB := none } else { c with rotA := none }
      u.updCore dst fun c =>
        if isB then { c with strB := c.strB ++ [t] } else { c with strA := c.strA ++ [t] }

end State

/-- CONSUMPTION (R239): the engine consumes a job; otherwise an access of a consumed AMOV is performed
(R245). -/
def execConsumption (clu : Nat) (s : State) : Res :=
  .next (match s.nextJob clu with
    | some (i, j) => s.consume clu i j
    | none => s.moveStep clu)

/-- DRAIN_START (R248): the drain starts; then its accesses are performed. -/
def execDrainStart (clu : Nat) (s : State) : Res := .next (s.drainEvent clu)

/-- ENGINE_SLEEP (R252). -/
def execEngineSleep (clu : Nat) (s : State) : Res :=
  .next (if s.sleepDue clu then s.updEngine clu fun e => { e with awake := false, request := none } else s)

/-- ENGINE_WAKE (R252): the engine works from the 64th cycle on. -/
def execEngineWake (clu : Nat) (s : State) : Res :=
  .next (if s.wakeDue clu then
      s.updEngine clu fun e =>
        { e with awake := true, request := none, usable := s.time + 64, active := s.time }
    else s)

/-- ROTATION_BUFFER_FORWARD (R242). -/
def execRotationBufferForward (pos : Nat) (isB : Bool) (s : State) : Res := .next (s.rotateForward pos isB)

end Sys2Proof.Machine
end

