-- ==== Sys2Proof/Machine/Copy.lean ====
section
/-! DEFINITION. Mailboxes, copy jobs, waiting and completion, C-class majors 0x50 to 0x5B, and what the
copy hart does for the copy channels (R254-R269); the hart's choice of work is in Collect.lean. -/

namespace Sys2Proof.Machine

namespace State

/-- ILLEGAL with the bundle as TVAL (R67). -/
def illegal (s : State) : State := s.trap .illegal s.cur.bundle

/-! ### Mailboxes (R257) -/

/-- The request that a movement MBXR takes. -/
def takenSlot (c : Core) : Option (Fin 16) :=
  let full := workIds.filter fun j => (c.slots.get j).request.isSome
  match full.find? fun j => decide (15 ≤ (c.slots.get j).passed) with
  | some j => some j
  | none => full.head?

/-- Is a thread not yet ended (R270)? -/
def lives (s : State) (t : Tid) : Bool := (s.mapEntry t).gen == t.gen && (s.mapEntry t).state != .none

/-- The record of the request that a movement thread took from a slot number, or else another's (R257). -/
def askerOf (s : State) (p : Nat) (j : Fin 16) : Option Asker :=
  ((s.core p).askers.find? fun x => x.slot == j && x.taker == s.me.tid).or ((s.core p).askers.find? fun x => x.slot == j)

/-- A movement MBXR takes the request of a slot; that of a thread which has left it, or of one before a helper, has no
thread to reply to. -/
def takeRequest (s : State) (p : Nat) (j : Fin 16) : State :=
  let x := s.slotAt p j
  let own := x.busy && (match x.life with
    | .helper _ => false
    | _ => true)
  s.updCore p fun c =>
    { c with
      client := some x.asked
      askers := { slot := j, now := j, vc := x.asked, tid := if own then x.tid else noTid, taker := s.me.tid } ::
        c.askers.filter fun a => a.slot != j || (a.taker != s.me.tid && s.lives a.taker)
      slots := Vector.ofFn fun k : Fin 16 =>
        let y := c.slots.get k
        if k = j then { y with request := none, passed := 0 }
        else if y.request.isSome then { y with passed := y.passed + 1 } else y }

end State

/-- Worker MBXW (R257). -/
def execMbxw (ra : Reg) (s : State) : Res :=
  .next
    (if s.cur.slot = 15 then s.illegal
     else s.atHome (.mbxw ra) (s.g ra)
       (if s.me.request.isSome then s.park (.mbxw ra) 1 [] .poll
        else s.updMe fun x => { x with request := some (s.g ra), passed := 0, asked := x.occ }))

/-- Worker MBXR (R257). -/
def execMbxr (rd : Reg) (s : State) : Res :=
  .next
    (if s.cur.slot = 15 then s.illegal
     else s.atHome (.mbxr rd) 0
       (match s.me.reply with
        | none => s.park (.mbxr rd) 1 [] .poll
        | some w => (s.updMe fun x => { x with reply := none }).setG rd w))

/-- Movement MBXR (R257). -/
def execMbxrMovement (rd ra : Reg) (s : State) : Res :=
  .next
    (if s.cur.slot ≠ 15 then s.illegal
     else
       match State.takenSlot (s.core s.cur.pos) with
       | none => s.park (.mbxrMovement rd ra) 1 [] .poll
       | some j =>
         ((s.takeRequest s.cur.pos j).setG rd (BitVec.ofNat 64 j.val)).setG ra
           ((s.slotAt s.cur.pos j).request.getD 0))

/-- Movement MBXW (R257): a reply to a thread that has left the slot is discarded. -/
def execMbxwMovement (ra rb : Reg) (s : State) : Res :=
  let a := s.g ra
  let p := s.cur.pos
  let j : Fin 16 := Fin.ofNat 16 (bits a 3 0)
  .next
    (if s.cur.slot ≠ 15 then s.illegal
     else if bits a 63 4 ≠ 0 || j = 15 then s.trap .illegal a
     else
       match s.askerOf p j with
       | some x =>
         let y := s.slotAt p x.now
         if !y.busy || y.tid != x.tid then s
         else if y.reply.isSome then s.park (.mbxwMovement ra rb) 1 [] .poll
         else s.updSlot p x.now fun z => { z with reply := some (s.g rb) }
       | none =>
         if (s.slotAt p j).reply.isSome then s.park (.mbxwMovement ra rb) 1 [] .poll
         else s.updSlot p j fun z => { z with reply := some (s.g rb) })

/-! ### Requests (R258) -/

namespace Req4

/-- A request's four words. -/
abbrev Words := Vector Word 4

def sk (q : Words) : Nat := bits (q.get 2) 63 62
def dk (q : Words) : Nat := bits (q.get 2) 61 60
def len (q : Words) : Nat := bits (q.get 2) 31 0
def scv (q : Words) : Bool := bit (q.get 2) 59
def tag (q : Words) : Nat := bits (q.get 2) 58 56
def count (q : Words) : Nat := bits (q.get 2) 4 0
def idxa (q : Words) : Nat := bits (q.get 2) 49 32
def nrow (q : Words) : Nat := bits (q.get 2) 31 16
def rowb (q : Words) : Nat := bits (q.get 2) 15 0
def seq (q : Words) : Nat := bits (q.get 3) 63 32
def stgd (q : Words) : Nat := bits (q.get 3) 17 0

/-- A local endpoint with a bit of [63:18] set, or a reserved kind. -/
def endBad (kind : Nat) (w : Word) : Bool := decide (2 ≤ kind) || (kind == 0 && bits w 63 18 != 0)

/-- w3 of a request with or without .STG. -/
def stageBad (stg : Bool) (q : Words) : Bool :=
  if stg then bits (q.get 3) 31 18 != 0 || stgd q % 32 != 0 else q.get 3 != 0

/-- Malformed (R258). -/
def bad (kind : CopyKind) (stg : Bool) (q : Words) : Bool :=
  match kind with
  | .cpy => endBad (sk q) (q.get 0) || endBad (dk q) (q.get 1) || bits (q.get 2) 59 32 != 0 || stageBad stg q
  | .cpytA | .cpytB =>
    endBad (sk q) (q.get 0) || dk q != 0 || bits (q.get 2) 55 5 != 0 || count q == 0 ||
      decide (16 < count q) || decide (4 < tag q) || bits (q.get 1) 63 18 != 0 ||
      (if scv q then bits (q.get 1) 1 0 != 0 else q.get 1 != 0) || q.get 3 != 0
  | .cpyf => sk q != 0 || endBad (dk q) (q.get 1) || bits (q.get 2) 59 32 != 0 || stageBad stg q
  | .cpyg =>
    sk q != 1 || endBad (dk q) (q.get 1) || bits (q.get 2) 59 50 != 0 || nrow q == 0 || rowb q == 0 ||
      idxa q % 4 != 0 || stageBad stg q
  | .pfch | .evct => q.get 2 != 0 || q.get 3 != 0

end Req4

namespace State

/-! ### Submission (R259) -/

/-- The vcores on a core, in increasing order. -/
def vcoresAt (s : State) (p : Nat) : List Nat :=
  (s.vcores.filter fun v => (v.2.place == .placed || v.2.place == .folded) && v.2.pos == p).map (·.1)

/-- The client of a channel (R255). -/
def clientOf (s : State) (p : Nat) : Nat :=
  (s.core p).client.getD ((s.vcoresAt p).headD (s.slotAt p 15).occ)

/-- The four words at a scratchpad address. -/
def spadWords4 (s : State) (p a : Nat) : List Word := (List.range 4).map fun i => s.spad64 p (a + 8 * i)

def words4 (ws : List Word) : Req4.Words := Vector.ofFn fun i => ws.getD i.val 0

/-- Enqueue a job once the channel has a free entry; gd := its identifier. -/
def enqueueCopy (s : State) (ins : Instr) (kind : CopyKind) (stg : Bool) (rd : Reg) (ws : List Word) :
    State :=
  let p := s.cur.pos
  if 16 ≤ (s.core p).channel.length then s.park ins 2 ws .poll
  else
    let v := s.clientOf p
    let n := (s.vcore v).next
    let j : CopyJob := { kind := kind, stg := stg, q := words4 ws, id := n, client := v }
    ((s.updVcore v fun x => { x with next := n + 1 }).updCore p fun c =>
      { c with channel := c.channel ++ [j] }).setG rd (BitVec.ofNat 64 n)

/-- A submission (R259): checks, Release(.DEV), then the channel's queue. -/
def submitCopy (s : State) (ins : Instr) (kind : CopyKind) (stg : Bool) (rd ra : Reg) : State :=
  let a := s.g ra
  match s.cur.phase with
  | 0 =>
    if s.cur.slot ≠ 15 then s.illegal
    else if a.toNat % 32 ≠ 0 then s.trap .align a
    else
      match s.localRange a 32 with
      | none => s.trap .localRange a
      | some pa =>
        if s.spadPoisoned s.cur.pos pa 32 then s.trap .checkFail a
        else
          let ws := s.spadWords4 s.cur.pos pa
          if Req4.bad kind stg (words4 ws) then s.trap .illegal a
          else s.release .dev ins 1 ws fun t => t.enqueueCopy ins kind stg rd ws
  | 1 => (s.released .dev).enqueueCopy ins kind stg rd s.cur.held
  | _ => s.enqueueCopy ins kind stg rd s.cur.held

end State

def execCpy (rd ra : Reg) (stg : Bool) (s : State) : Res :=
  .next (s.submitCopy (.cpy rd ra stg) .cpy stg rd ra)
def execCpyt (rd ra : Reg) (toB : Bool) (s : State) : Res :=
  .next (s.submitCopy (.cpyt rd ra toB) (if toB then .cpytB else .cpytA) false rd ra)
def execCpyf (rd ra : Reg) (stg : Bool) (s : State) : Res :=
  .next (s.submitCopy (.cpyf rd ra stg) .cpyf stg rd ra)
def execCpyg (rd ra : Reg) (stg : Bool) (s : State) : Res :=
  .next (s.submitCopy (.cpyg rd ra stg) .cpyg stg rd ra)

/-- A helper's PFCH (R151): where its request is one of R258 and its target passes the tests of R180, a granule that is
not resident gives a residency fill request. -/
def State.prefetchHint (s : State) (a : Word) : State :=
  match s.localRange a 32 with
  | none => s
  | some pa =>
    let ws := s.spadWords4 s.cur.pos pa
    let ref := ws.getD 0 0
    let obj := State.objOf ref
    let o := s.cur.src.ortb
    if a.toNat % 32 ≠ 0 || s.spadPoisoned s.cur.pos pa 32 || Req4.bad .pfch false (State.words4 ws) || obj = 0 ||
        decide (2 ^ tableLog o ≤ obj) then s
    else
      match s.homeRecord obj with
      | none => s
      | some r =>
        let i := bits ref 39 0
        let s := s.recordRead (tableBase o) obj
        if !r.ok || (State.elemTests r ref Rec.permW none i).isSome then s
        else
          let t := s.elemRead r i
          if s.resident r (r.granule (r.offset i)) then t else t.askFill (tableBase o) obj (r.granule (r.offset i))

/-- PFCH (R259, R263); in a helper it is a hint, which a remote address ends (R151). -/
def execPfch (rd ra : Reg) (s : State) : Res :=
  .next (if s.cur.slot ≠ 15 && Tsw.h s.cur.src.tsw then
           if bit (s.g ra) 63 then s.trap .localRange (s.g ra) else (s.prefetchHint (s.g ra)).setG rd 0
         else s.submitCopy (.pfch rd ra) .pfch false rd ra)
def execEvct (rd ra : Reg) (s : State) : Res := .next (s.submitCopy (.evct rd ra) .evct false rd ra)

namespace State

/-! ### Endpoints (R258, R264) -/

/-- Where a byte of an endpoint is: in a scratchpad, at the home that a request goes to, or, for a pair of E2M1
elements in different places (R258), at two homes, each with whether its element is the upper half of its byte. -/
inductive Loc where
  | spad (p a : Nat)
  | mem (q : Req)
  | pair (lo hi : Req) (a b : Bool)
  | bad (c : Cause)
  /-- in a granule, by its table, object and number, that is not resident (R264) -/
  | absent (key : Nat × Nat × Nat)
  /-- at a guest address whose frame is not mapped (R173) -/
  | miss (gpa : Nat)
  /-- held by a move (R177); of a tile: no room in its stream (R261) -/
  | held
  /-- out of reach for now, for none of R256's reasons: the hart stays at the job -/
  | stay
  deriving DecidableEq, Repr

/-- Can the byte be accessed? -/
def Loc.ready (l : Loc) : Bool :=
  match l with
  | .spad _ _ | .mem _ | .pair _ _ _ _ => true
  | _ => false

/-- The record of an object for the hart of a core's cluster, in a vcore's table: cached or at its home
(R170); none on a second-stage miss or while no way is found (R385), and an invalid object gives an invalid record. -/
def hartRecord (s : State) (p v obj : Nat) : Option Rec :=
  let o := (s.vcore v).ortb
  let tb := tableBase o
  if obj = 0 || decide (2 ^ tableLog o ≤ obj) then some (Vector.replicate 8 0)
  else
    match (s.cluster (cluOf p)).records.find? fun x => x.tbase == tb && x.obj == obj with
    | some x => some x.r
    | none => s.fromHome p tb obj

/-- Why the hart has no record of an object. -/
def recordLoc (s : State) (v obj : Nat) : Loc :=
  let a := tableBase (s.vcore v).ortb + 64 * obj
  if (s.hpaOf a).isSome then .stay else .miss a

/-- The tests of R180 on element i, then where it is, as core p's cluster reaches it (R174, R177, R385). -/
def hartElem (s : State) (p : Nat) (r : Rec) (i : Nat) (perm : Rec → Bool) : Loc :=
  if !r.ok then .bad .objInvalid
  else
    match elemTests r 0 perm none i with
    | some (c, _) => .bad c
    | none =>
      let j := r.granule (r.offset i)
      if (s.rmapByte r j).isNone then .miss (r.rmap + j)
      else if !s.resident r j then .absent (0, 0, j)
      else if r.moving && r.wmark == j then .held
      else
        match s.hpaOf (elemAddr r i) with
        | some a =>
          if s.reaches p a then
            .mem { pos := hartPos (cluOf p), acc := .load false, gpa := elemAddr r i, hpa := a, n := fmtBytes r.fmt }
          else .stay
        | none => .miss (elemAddr r i)

/-- An element's place, as a request that the hart sends for it: during a move it goes by the record's home (R177); or
the granule that is absent. -/
def hartReq (s : State) (p tb obj : Nat) (r : Rec) (i : Nat) (perm : Rec → Bool) : Loc :=
  match s.hartElem p r i perm with
  | .mem q =>
    match s.hpaOf (tb + 64 * obj) with
    | some h =>
      let off := r.offset i
      .mem { q with key := (tb, obj), okey := r.okey, ref := BitVec.ofNat 64 (obj * 2 ^ 40 + i)
                    moving := if r.moving then some (h, off / 2, r.granule off) else none }
    | none => .miss (tb + 64 * obj)
  | .absent k => .absent (tb, obj, k.2.2)
  | x => x

/-- Byte k of the element that a request is for. -/
def reqByte (q : Req) (k : Nat) : Req :=
  { q with gpa := q.gpa + k, hpa := q.hpa + k, n := 1, moving := q.moving.map fun m => (m.1, m.2.1 + k, m.2.2) }

/-- Byte k of the elements from idx on; each element of an E2M1 pair at its own address (R172, R258). -/
def tensorByte (s : State) (p v : Nat) (ref : Word) (idx k : Nat) (perm : Rec → Bool) : Loc :=
  match s.hartRecord p v (objOf ref) with
  | none => s.recordLoc v (objOf ref)
  | some r =>
    let elem (i : Nat) : Loc := s.hartReq p (tableBase (s.vcore v).ortb) (objOf ref) r i perm
    if r.fmt = 0xE then
      let i := idx + 2 * k
      match elem i, elem (i + 1) with
      | .mem a, .mem b =>
        let x := r.offset i % 2 == 1
        let y := r.offset (i + 1) % 2 == 1
        if a.gpa = b.gpa && !x && y then .mem a else .pair a b x y
      | .mem _, x => x
      | x, _ => x
    else
      let w := fmtBytes r.fmt
      match elem (idx + k / w) with
      | .mem q => .mem (reqByte q (k % w))
      | x => x

/-- A byte at a local offset of a vcore's segment. -/
def localByte (s : State) (p v off : Nat) : Loc :=
  if segLimit (s.keptSeg v) ≤ off then .bad .localRange else .spad p (segBase (s.keptSeg v) + off)

/-- Byte k of an endpoint. -/
def endByte (s : State) (p v kind : Nat) (w : Word) (k : Nat) (perm : Rec → Bool) : Loc :=
  if kind = 0 then s.localByte p v (bits w 17 0 + k) else s.tensorByte p v w (bits w 39 0) k perm

/-- The identity under which the hart's buffer holds the writes of the running job of a core's channel. -/
def chanTid (p : Nat) : Tid := { vc := 2 ^ 36 + 1 + p }

/-- The identity under which it holds the writes of a rank's collective rounds. -/
def collTid (v : Nat) (i : Fin 8) : Tid := { vc := 2 ^ 37 + v, tnum := Fin.ofNat 16 i.val }

/-- What the hart's buffer holds for a guest byte: nothing, half of it, or the byte and its poison (R254). -/
def hartPending (s : State) (p gpa : Nat) : Option (Option (Byte × Bool)) :=
  (s.core p).buffer.foldl (fun acc e =>
    match e.op with
    | .obj q =>
      match q.acc with
      | .copied bs m po =>
        let a := s.curGpa q
        if a ≤ gpa && decide (gpa < a + bs.length) then
          some (if m = 0xFF then some (bs.getD (gpa - a) 0, po == some true) else none)
        else acc
      | _ => acc
    | _ => acc) none

/-- Is a request that has arrived before on its way at the line of an address (R185)? -/
def lineBusy (s : State) (h a : Nat) : Bool :=
  (s.home h).queue.any fun x =>
    x.2.line.isNone && !s.loadWaits x.2 && s.arrives h x.2 && s.lineOf x.2 == a / 64

/-- The record and the residency byte that an access of the hart has read are what they were read as (R192). -/
def hartSeen (s : State) (q : Req) : State :=
  match s.recordAt q.key.1 q.key.2 with
  | some r => (s.recordRead q.key.1 q.key.2).rmapRead r (r.granule (r.offset (bits q.ref 39 0)))
  | none => s

/-- A byte as the hart reads it, with its poison: none while a request before it, or half of it, is on its way. -/
def hartRead (s : State) (q : Req) : Option ((Byte × Bool) × State) :=
  match s.hartPending q.pos q.gpa with
  | some (some x) => some (x, s.hartSeen q)
  | some none => none
  | none =>
    if s.lineBusy (reqHome q) q.hpa then none
    else
      let r := (s.hartSeen q).memRead q.hpa 1
      some ((r.1.headD 0, s.poisoned q.hpa 1), r.2)

/-- One half of a byte. -/
def half (b : Byte) (hi : Bool) : Byte := if hi then b >>> 4 else b &&& 0xF

/-- The byte at a place, with its poison: none while it cannot be read. -/
def readLoc (s : State) (l : Loc) : Option ((Byte × Bool) × State) :=
  match l with
  | .spad p a =>
    if s.bankOpen p then some (((s.spadRead p a 1).headD 0, s.spadPoisoned p a 1), s.bankMark p 16) else none
  | .mem q => s.hartRead q
  | .pair lo hi a b =>
    match s.hartRead lo with
    | none => none
    | some (x, t) =>
      (t.hartRead hi).map fun y => ((half x.1 a ||| (half y.1.1 b <<< 4), x.2 || y.1.2), y.2)
  | _ => none

/-- Is there room in the hart's buffer for the write of a byte (R159, R254), or is the bank free (R165)? -/
def locOpen (s : State) (l : Loc) : Bool :=
  match l with
  | .spad p _ => s.bankOpen p
  | .mem q => decide ((s.core q.pos).buffer.length < 32)
  | .pair q _ _ _ => decide ((s.core q.pos).buffer.length < 31)
  | _ => false

/-- Poison the line of a scratchpad byte (R264), or clear its poison after a whole line has been written. -/
def markSpad (s : State) (p a : Nat) (b : Bool) : State :=
  s.updCore p fun c =>
    { c with spoiled := if b then insertNat c.spoiled (a / 64) else c.spoiled.filter fun x => x != a / 64 }

/-- The same of a byte of memory. -/
def markMem (s : State) (a : Nat) (b : Bool) : State :=
  { s with poison := if b then insertNat s.poison (a / 64) else s.poison.filter fun x => x != a / 64 }

/-- The hart writes a byte: into the scratchpad, or into its buffer (R254). -/
def writeLoc (s : State) (tid : Tid) (l : Loc) (b : Byte) (po : Option Bool) : State :=
  let push (t : State) (q : Req) (b m : Byte) : State :=
    (t.hartSeen q).pushEntry q.pos tid (.obj { q with acc := .copied [b] m po, n := 1 })
  match l with
  | .spad p a =>
    let t := (s.spadWrite p a [b]).bankMark p 16
    match po with
    | none => t
    | some x => t.markSpad p a x
  | .mem q => push s q b 0xFF
  | .pair lo hi x y =>
    let one (t : State) (q : Req) (b : Byte) (up : Bool) : State :=
      if up then push t q (b <<< 4) 0xF0 else push t q b 0x0F
    one (one s lo (b &&& 0xF) x) hi (b >>> 4) y
  | _ => s

/-- Has the hart of a core's cluster writes under an identity that are not performed, or not acknowledged by the host
(R264, R267)? -/
def hartOwes (s : State) (p : Nat) (tid : Tid) : Bool :=
  ((s.core (hartPos (cluOf p))).buffer.any fun e => e.tid == tid) ||
    s.net.any fun n => match n.2.load with
      | .hostAck t => t == tid
      | _ => false

/-- Is a place poisoned? -/
def locPoisoned (s : State) (l : Loc) : Bool :=
  let one (q : Req) : Bool := match s.hartPending q.pos q.gpa with
    | some (some x) => x.2
    | _ => s.poisoned q.hpa 1
  match l with
  | .spad p a => s.spadPoisoned p a 1
  | .mem q => one q
  | .pair lo hi _ _ => one lo || one hi
  | _ => false

/-- The address of a place that is one byte, in its space. -/
def locAddr (l : Loc) : Option Nat :=
  match l with
  | .spad _ a => some a
  | .mem q => some q.hpa
  | _ => none

/-! ### What a job copies (R260-R263) -/

/-- The bytes that a byte-sequence job writes. -/
def jobLen (j : CopyJob) : Nat :=
  match j.kind with
  | .cpyg => Req4.nrow j.q * Req4.rowb j.q
  | _ => Req4.len j.q

/-- The source of byte k of a CPY or CPYG. -/
def jobSource (s : State) (p : Nat) (j : CopyJob) (k : Nat) : Loc :=
  match j.kind with
  | .cpyg =>
    let r := k / Req4.rowb j.q
    let ia := Req4.idxa j.q + 4 * r
    match s.localByte p j.client (ia + 3) with
    | .spad p a =>
      match s.hartRecord p j.client (objOf (j.q.get 0)) with
      | none => s.recordLoc j.client (objOf (j.q.get 0))
      | some rec =>
        let ix := ofBytes (s.spadRead p (a - 3) 4)
        let per := if rec.fmt = 0xE then 2 * Req4.rowb j.q else Req4.rowb j.q / fmtBytes rec.fmt
        s.tensorByte p j.client (j.q.get 0) (bits (j.q.get 0) 39 0 + ix * per) (k % Req4.rowb j.q) Rec.permR
    | x => x
  | _ => s.endByte p j.client (Req4.sk j.q) (j.q.get 0) k Rec.permR

/-- The destination of byte k. -/
def jobDest (s : State) (p : Nat) (j : CopyJob) (k : Nat) : Loc :=
  s.endByte p j.client (Req4.dk j.q) (j.q.get 1) k Rec.permW

/-- A format condition of one tensor endpoint that is tested at the start (R264): the length that must be
whole elements, the index of an E2M1 endpoint. -/
def endFormat (s : State) (p v : Nat) (ref : Word) (len : Nat) : Bool :=
  match s.hartRecord p v (objOf ref) with
  | none => false
  | some r => r.ok && (len % fmtBytes r.fmt != 0 || (r.fmt == 0xE && bits ref 39 0 % 2 == 1))

/-- The format conditions of R264. -/
def jobFormat (s : State) (p : Nat) (j : CopyJob) : Bool :=
  let v := j.client
  let len := jobLen j
  let src := decide (Req4.sk j.q = 1) && s.endFormat p v (j.q.get 0) (if j.kind = .cpyg then Req4.rowb j.q else len)
  let dst := decide (Req4.dk j.q = 1) && s.endFormat p v (j.q.get 1) len
  match j.kind with
  | .cpy | .cpyg => src || dst
  | .cpyf => dst
  | .cpytA | .cpytB =>
    Req4.sk j.q == 1 &&
      (match s.hartRecord p v (objOf (j.q.get 0)) with
       | none => false
       | some r => r.ok && (!r.tiled || (r.fmt == 0xE && bits (j.q.get 0) 39 0 % 2 == 1)))
  | .pfch | .evct => j.q.get 1 != 0 && s.endFormat p v (j.q.get 1) 0

/-- The objects whose formats the start of a job tests (R264). -/
def jobObjs (j : CopyJob) : List Nat :=
  let a := if Req4.sk j.q = 1 then [objOf (j.q.get 0)] else []
  let b := if Req4.dk j.q = 1 then [objOf (j.q.get 1)] else []
  match j.kind with
  | .cpy | .cpyg => a ++ b
  | .cpyf => b
  | .cpytA | .cpytB => a
  | .pfch | .evct => if j.q.get 1 = 0 then [] else [objOf (j.q.get 1)]

/-- How a job goes on. -/
inductive Prog where
  /-- it waits at a place that is not ready -/
  | wait (l : Loc)
  | more (s : State) (j : CopyJob)
  | fail (s : State) (j : CopyJob) (c : Cause)
  deriving DecidableEq, Repr

/-- A job meets a place that is not ready: it fails, or waits. -/
def halts (s : State) (j : CopyJob) (l : Loc) : Prog :=
  match l with
  | .bad c => .fail s j c
  | _ => .wait l

/-- A CPYG reads its index words in the core's bank (R165, R262): none while others are to be served there. -/
def indexRead (s : State) (p : Nat) (j : CopyJob) : Option State :=
  if j.kind ≠ .cpyg then some s else if s.bankOpen p then some (s.bankMark p 16) else none

/-- Copy one byte (R260); its write to an object enters the hart's buffer (R254). -/
def copyByte (s : State) (p : Nat) (j : CopyJob) : Prog :=
  let k := j.done
  match s.indexRead p j with
  | none => .wait .stay
  | some s =>
  let src := if j.kind = .cpyf then none else some (s.jobSource p j k)
  let dst := s.jobDest p j k
  match (src.toList ++ [dst]).find? fun l => !l.ready with
  | some l => s.halts j l
  | none =>
    let r := match src with
      | some l => s.readLoc l
      | none => some ((BitVec.ofNat 8 ((j.q.get 0).toNat / 2 ^ (8 * (k % 8))), false), s)
    match r with
    | none => .wait .stay
    | some ((b, bad), t) =>
      if !t.locOpen dst then .wait .stay
      else
        -- the last byte of a line that this job has written whole from clean bytes
        let whole := (locAddr dst).any (fun a => a % 64 == 63) && decide (63 ≤ k) &&
          (List.range 64).all fun i =>
            (locAddr (s.jobDest p j (k - i))).map (· + i) == locAddr dst &&
              (j.kind == .cpyf || !(s.locPoisoned (s.jobSource p j (k - i))))
        let po := if bad then some true else if whole then some false else none
        .more (t.writeLoc (chanTid p) dst b po) { j with done := k + 1, status := if bad then 4 else j.status }

/-- Does some element of an object lie in tile number t (R261)? -/
def tileHolds : List (Nat × Nat) → Nat → Nat → Bool
  | [], inner, t => decide (t < inner)
  | (dim, str) :: rest, inner, t =>
    (List.range (if str = 0 then min dim 1 else min dim (t / str + 1))).any fun x =>
      tileHolds rest inner (t - x * str)

/-- The tile numbers of R172: outer dimensions with their strides, and the number of tiles within. -/
def tileExists (r : Rec) (t : Nat) : Bool :=
  let k := r.rank
  let e := 128 / r.nibbles
  tileHolds ((List.range (k - 2)).map fun d => (r.dim d, r.str d))
    ((r.dim (k - 2) + 15) / 16 * ((r.dim (k - 1) + e - 1) / e)) t

/-- Does a range of memory meet a write of the hart, or a request that has arrived before? -/
def rangeBusy (s : State) (p gpa hpa n : Nat) : Bool :=
  ((List.range n).any fun i => (s.hartPending (hartPos (cluOf p)) (gpa + i)).isSome) ||
    (List.range ((n + 63) / 64)).any fun i => s.lineBusy (homeOf (hpa + 64 * i)) (hpa + 64 * i)

/-- A tile of a CPYT source: bytes, tag and poison, and the state once it is read; or the reason why not. -/
def tileSource (s : State) (p : Nat) (j : CopyJob) : Except Loc (List Byte × Nat × Bool × State) :=
  let v := j.client
  let c := j.done
  if Req4.sk j.q = 0 then
    let off := bits (j.q.get 0) 17 0 + 1024 * c
    if bits (j.q.get 0) 5 0 ≠ 0 || decide (segLimit (s.keptSeg v) < off + 1024) then .error (.bad .localRange)
    else
      let a := segBase (s.keptSeg v) + off
      if !s.bankOpen p then .error .stay
      else .ok (s.spadRead p a 1024, Req4.tag j.q, s.spadPoisoned p a 1024, s.bankMark p 16)
  else
    match s.hartRecord p v (objOf (j.q.get 0)) with
    | none => .error (s.recordLoc v (objOf (j.q.get 0)))
    | some r =>
      let i := bits (j.q.get 0) 39 0
      if !r.ok then .error (.bad .objInvalid)
      else
        match elemTests r 0 Rec.permR none i with
        | some (e, _) => .error (.bad e)
        | none =>
          let x := r.coords i
          let e := 128 / r.nibbles
          let t := r.tileOf i + c
          if x.getD (r.rank - 2) 0 % 16 ≠ 0 || x.getD (r.rank - 1) 0 % e ≠ 0 || !tileExists r t then
            .error (.bad .outOfShape)
          else
            let g := t * 1024 / 2 ^ (16 + r.gran)
            if (s.rmapByte r g).isNone then .error (.miss (r.rmap + g))
            else if !s.resident r g then .error (.absent (tableBase (s.vcore v).ortb, objOf (j.q.get 0), g))
            else if r.moving && r.wmark == g then .error .held
            else
              let b := if r.moving && decide (r.wmark < g) then r.oldBase else r.base
              match s.hpaOf (b + 1024 * t) with
              | none => .error (.miss (b + 1024 * t))
              | some a =>
                if !s.reaches p a || s.rangeBusy p (b + 1024 * t) a 1024 then .error .stay
                else
                  let x := (s.rmapRead r g).memRead a 1024
                  .ok (x.1, r.swz, s.poisoned a 1024, x.2)

/-- The sidecar of tile c (R261). -/
def sidecarOf (s : State) (p : Nat) (j : CopyJob) : Except Loc (Option (List (BitVec 32)) × Bool) :=
  if !Req4.scv j.q then .ok (none, false)
  else
    let off := bits (j.q.get 1) 17 0 + 256 * j.done
    if segLimit (s.keptSeg j.client) < off + 256 then .error (.bad .localRange)
    else
      let a := segBase (s.keptSeg j.client) + off
      if !s.bankOpen p then .error .stay
      else .ok (some ((List.range 64).map fun i => BitVec.ofNat 32 (ofBytes (s.spadRead p (a + 4 * i) 4))),
        s.spadPoisoned p a 256)

/-- Push one tile (R261). -/
def copyTile (s : State) (p : Nat) (j : CopyJob) : Prog :=
  let isB := j.kind == .cpytB
  let c := s.core p
  match s.tileSource p j, s.sidecarOf p j with
  | .error l, _ => s.halts j l
  | _, .error l => s.halts j l
  | .ok (bs, tag, bad, u), .ok (sc, bad2) =>
    let u := if sc.isSome then u.bankMark p 16 else u
    if 16 ≤ (if isB then c.strB else c.strA).length then .wait .held
    else
      let t : Tile := { data := bs, tag := tag, sidecar := sc, poison := bad || bad2 }
      .more
        (u.updCore p fun c => if isB then { c with strB := c.strB ++ [t] } else { c with strA := c.strA ++ [t] })
        { j with done := j.done + 1, status := if bad || bad2 then 4 else j.status }

/-! ### Granules (R263) -/

/-- The granule a PFCH or EVCT names: the record, the granule, and the host address of its bitmap byte. -/
def granuleOf (s : State) (p : Nat) (j : CopyJob) : Except Loc (Rec × Nat × Nat) :=
  match s.hartRecord p j.client (objOf (j.q.get 0)) with
  | none => .error (s.recordLoc j.client (objOf (j.q.get 0)))
  | some r =>
    let i := bits (j.q.get 0) 39 0
    if !r.ok then .error (.bad .objInvalid)
    else
      match elemTests r 0 Rec.permW none i with
      | some (e, _) => .error (.bad e)
      | none =>
        let g := r.granule (r.offset i)
        match s.hpaOf (r.rmap + g) with
        | none => .error (.miss (r.rmap + g))
        | some a =>
          if r.moving && r.wmark == g then .error .held
          else if s.reaches p a then .ok (r, g, a)
          else .error .stay

/-- The size of the record's granules in bytes. -/
def granuleSize (r : Rec) : Nat := 2 ^ (16 + r.gran)

/-- The host address of byte k of a granule at its current base, as core p's cluster reaches it (R385). -/
def slotByte (s : State) (p : Nat) (r : Rec) (g k : Nat) : Except Loc Nat :=
  let gpa := (if r.moving && decide (r.wmark < g) then r.oldBase else r.base) + g * granuleSize r + k
  match s.hpaOf gpa with
  | some a => if s.reaches p a then .ok a else .error .stay
  | none => .error (.miss gpa)

/-- Byte k of the backing (R263). -/
def backByte (s : State) (p : Nat) (j : CopyJob) (k : Nat) (perm : Rec → Bool) : Loc :=
  s.tensorByte p j.client (j.q.get 1) (bits (j.q.get 1) 39 0) k perm

/-- The bytes of a backing, each with its poison, once they can all be read. -/
def backing (s : State) (p : Nat) (j : CopyJob) (n : Nat) : Option (List (Byte × Bool) × State) :=
  if j.q.get 1 = 0 then some (List.replicate n (0, false), s)
  else
    (List.range n).foldl (fun (x : Option (List (Byte × Bool) × State)) k =>
      match x with
      | none => none
      | some (l, t) => (t.readLoc (t.backByte p j k Rec.permR)).map fun y => (y.1 :: l, y.2)) (some ([], s)) |>.map
        fun x => (x.1.reverse, x.2)

/-- Fill a granule with bytes and set RES, as one update (R174). -/
def fillGranule (s : State) (p : Nat) (j : CopyJob) (r : Rec) (g ra : Nat) (bs : List (Byte × Bool)) :
    State × CopyJob :=
  let t := bs.zipIdx.foldl (fun (t : State) x =>
    match t.slotByte p r g x.2 with
    | .error _ => t
    | .ok a =>
      let u := t.memWrite a [x.1.1]
      if x.1.2 then u.markMem a true else if x.2 % 64 = 0 then u.markMem a false else u) s
  (t.memWrite ra [BitVec.ofNat 8 (128 + j.gen)],
    { j with done := granuleSize r, ended := true, status := if bs.any (·.2) then 4 else j.status })

/-- An access translated before an eviction that has not been performed (R263). -/
def granulePending (s : State) (key : Nat × Nat) : Bool :=
  (s.homes.any fun h => h.2.queue.any fun x => x.2.key == key && x.2.line.isNone) ||
  (s.cores.any fun c => c.2.buffer.any fun e => match e.op with
    | .obj q => q.key == key
    | _ => false)

/-- One 4 KiB part of a PFCH (R263).  The fill is made as one update at the end, and every byte of the backing passes
its tests then (R264). -/
def prefetch (s : State) (p : Nat) (j : CopyJob) : Prog :=
  match s.granuleOf p j with
  | .error l => s.halts j l
  | .ok (r, g, ra) =>
    let b := ((s.memRead ra 1).1.headD 0).toNat
    let s := (s.memRead ra 1).2
    let n := granuleSize r
    if !j.begun then
      if 128 ≤ b then .more s { j with begun := true, ended := true, status := 2 }
      else .more s { j with begun := true, gen := b % 128 }
    else
      let upto := min n (j.done + 4096)
      let from' := if upto < n then j.done else 0
      let tests := if j.q.get 1 = 0 then [] else (List.range (upto - from')).map fun i =>
        s.backByte p j (from' + i) Rec.permR
      match tests.find? fun l => !l.ready with
      | some l => s.halts { j with done := 0 } l
      | none =>
        if upto < n then .more s { j with done := upto }
        else
          match firstSome (fun k => match s.slotByte p r g k with
              | .error l => some l
              | .ok _ => none) (List.range n) with
          | some l => .wait l
          | none =>
            if b ≠ j.gen then .more s { j with done := 0, ended := true, status := 1 }
            else
              match s.backing p j n with
              | none => .wait .stay
              | some (bs, t) =>
                let x := t.fillGranule p j r g ra bs
                .more x.1 x.2

/-- One step of an EVCT (R263): clear RES and raise GEN, wait for the accesses before it, copy. -/
def evict (s : State) (p : Nat) (j : CopyJob) : Prog :=
  match s.granuleOf p j with
  | .error l => s.halts j l
  | .ok (r, g, ra) =>
    let b := ((s.memRead ra 1).1.headD 0).toNat
    let s := (s.memRead ra 1).2
    if !j.begun then
      if b < 128 then .more s { j with begun := true, ended := true, status := 5 }
      else
        .more (s.memWrite ra [BitVec.ofNat 8 ((b + 1) % 128)]) { j with begun := true }
    else if s.granulePending (tableBase (s.vcore j.client).ortb, objOf (j.q.get 0)) then .wait .stay
    else if j.q.get 1 = 0 then .more s { j with ended := true }
    else
      let k := j.done
      if granuleSize r ≤ k then .more s { j with ended := true }
      else
        let l := s.backByte p j k Rec.permW
        match s.slotByte p r g k with
        | .error w => .wait w
        | .ok a =>
          let x := s.memRead a 1
          let bad := s.poisoned a 1
          if !l.ready then s.halts j l
          else if !x.2.locOpen l then .wait .stay
          else
            .more (x.2.writeLoc (chanTid p) l (x.1.headD 0) (if bad then some true else none))
              { j with done := k + 1, status := if bad then 4 else j.status }

/-! ### How a job ends (R264, R304) -/

/-- The bytes that a job has copied: of a CPYT 1,024 for each tile; a PFCH copies none before its fill. -/
def jobBytes (j : CopyJob) : Nat :=
  match j.kind with
  | .cpytA | .cpytB => j.done * 1024
  | .pfch => 0
  | _ => j.done

/-- A job ends with status FAULT and a cause (R264). -/
def faultJob (j : CopyJob) (c : Cause) : CopyJob :=
  { j with begun := true, ended := true, status := 3, cause := c.code, done := jobBytes j }

/-- An access of the running job of a channel has been revoked (R304) or dropped (R358): FAULT, REVOKED. -/
def dropCopy (s : State) (p : Nat) : State :=
  match (s.core p).channel with
  | [] => s
  | j :: rest =>
    if !j.begun then s
    else
      let k := if j.ended then { j with status := 3, cause := Cause.revoked.code } else faultJob j .revoked
      s.updCore p fun c => { c with channel := k :: rest }

/-! ### Completion (R267) -/

/-- Record that transfer n of a vcore is complete, with its status; DONE advances (R255, R266). -/
def recordDone (s : State) (v n status cause bytes : Nat) : State :=
  s.updVcore v fun x =>
    let c := insertNat x.completed n
    -- DONE: the largest j such that every identifier up to j is complete
    let d := c.foldl (fun d k => if k = d + 1 then k else d) x.done
    { x with
      completed := c.filter fun k => decide (d < k)
      done := d
      history := ({ id := n, status := status, cause := cause, bytes := bytes } :: x.history).take 64 }

/-- The stage marking of a completed .STG job (R267): none while its tag does not meet the condition, or
others are to be served in the bank (R165);
otherwise the state, and the cause of a fault.  The marking writes the tag, and no full/empty bit changes (R153, log
entry 111). -/
def markStage (s : State) (p : Nat) (j : CopyJob) : Option (State × Option Cause) :=
  let off := Req4.stgd j.q
  let seq := Req4.seq j.q
  if segLimit (s.keptSeg j.client) < off + 32 then some (s, some .localRange)
  else
    let a := segBase (s.keptSeg j.client) + off
    if !s.bankOpen p then none
    else if s.stageBad p a seq then some (s.bankMark p 16, some .illegal)
    else if s.stageReady .f p a seq then some (((s.stageMark .f p a seq).stageSettle p).bankMark p 16, none)
    else none

/-- The completion of the channel's running job: its stage, its status, and the channel's next job; none
while the stage waits. -/
def completeJob (s : State) (p : Nat) (j : CopyJob) (status cause bytes : Nat) : Option State :=
  let fin (t : State) (st ca : Nat) : State :=
    (t.recordDone j.client j.id st ca bytes).updCore p fun c =>
      { c with channel := c.channel.filter fun x => !(x.id == j.id && x.client == j.client) }
  if j.stg then
    match s.markStage p j with
    | none => none
    | some (t, none) => some (fin t status cause)
    | some (t, some c) => some (fin t 3 c.code)
  else some (fin s status cause)

/-- Byte-sequence and tile jobs: how many units there are. -/
def jobUnits (j : CopyJob) : Nat :=
  match j.kind with
  | .cpytA | .cpytB => Req4.count j.q
  | _ => jobLen j

/-- One byte, tile or part of a channel's running job. -/
def jobStep (s : State) (p : Nat) (j : CopyJob) : Prog :=
  match j.kind with
  | .cpy | .cpyf | .cpyg => if jobUnits j ≤ j.done then .more s { j with begun := true } else s.copyByte p { j with begun := true }
  | .cpytA | .cpytB => s.copyTile p { j with begun := true }
  | .pfch => s.prefetch p j
  | .evct => s.evict p j

/-- Has a job come to a chunk boundary (R256)? -/
def atBoundary (j : CopyJob) : Bool :=
  j.ended || (match j.kind with
    | .cpytA | .cpytB => j.done % 4 == 0
    | _ => j.done % 4096 == 0)

/-- The running job of a channel does its next byte, tile or part; its start first tests its formats (R264). -/
def jobNext (s : State) (p : Nat) (j : CopyJob) : Prog :=
  if j.begun then s.jobStep p j
  else
    match (jobObjs j).find? fun o => (s.hartRecord p j.client o).isNone with
    | some o => .wait (s.recordLoc j.client o)
    | none => if s.jobFormat p j then .fail s { j with done := 0 } .format else s.jobStep p j

/-- What keeps an access of the hart away is reported once (R173, R264); none where there is nothing to report. -/
def askLoc (s : State) (l : Loc) : Option State :=
  match l with
  | .absent k => if s.fills.contains k then none else some (s.askFill k.1 k.2.1 k.2.2)
  | .miss a => if s.misses.contains (a / 2 ^ 16) then none else some (s.reportMiss a)
  | _ => none

/-- A channel's running job, changed. -/
def putJob (s : State) (p : Nat) (j : CopyJob) : State :=
  s.updCore p fun c => { c with channel := c.channel.map fun x =>
    if x.id = j.id && x.client = j.client then j else x }

/-- The hart runs the next byte, tile or part of a channel's running job (R256): none where it can make no progress,
else whether it is in the middle of a chunk.  A job that waits for a granule asks for it once (R264), and its
completion waits for its writes (R267). -/
def channelChunk (s : State) (p : Nat) : Option (State × Bool) :=
  match (s.core p).channel with
  | [] => none
  | j :: _ =>
    if j.ended then
      if s.hartOwes p (chanTid p) then none
      else (s.completeJob p j j.status j.cause j.done).map fun t => (t, false)
    else
      match s.jobNext p j with
      | .wait l => (s.askLoc l).map fun t =>
          (match l, j.kind with
           | .absent _, .pfch | .absent _, .evct => t
           | .absent _, _ => t.putJob p { j with begun := true }
           | _, _ => t, false)
      | .fail t k c => some (t.putJob p (faultJob k c), false)
      | .more t k =>
        let k := match k.kind with
          | .pfch | .evct => k
          | _ => if jobUnits k ≤ k.done then { k with ended := true, done := jobBytes k } else k
        some (t.putJob p k, !atBoundary k)

/-- Does the hart stay at a channel's running job, which waits for none of R256's reasons? -/
def channelStays (s : State) (p : Nat) : Bool :=
  match (s.core p).channel with
  | [] => false
  | j :: _ => !j.ended && s.jobNext p j == .wait .stay

/-- Spahan ends the running job of a channel, whose granule it does not fill, with status FAULT and cause
RESIDENCY (R264). -/
def abandonJob (s : State) (p : Nat) : State :=
  match (s.core p).channel with
  | [] => s
  | j :: _ =>
    if j.ended then s
    else
      match s.jobNext p j with
      | .wait (.absent key) => { s with fills := s.fills.filter fun x => x != key }.putJob p (faultJob j .residency)
      | _ => s

end State

/-! ### Waiting and status (R265, R266) -/

namespace State

/-- DONE of the thread's home vcore. -/
def myDone (s : State) : Nat := (s.vcore s.me.tid.vc).done

end State

/-- XWAIT (R266). -/
def execXwait (ra : Reg) (s : State) : Res :=
  .next (s.atHome (.xwait ra) (s.g ra)
    (if (s.g ra).toNat ≤ s.myDone then s else s.park (.xwait ra) 1 [] .poll))

/-- XWAIT.T (R266); the deadline is XWAIT_DEADLINE's. -/
def execXwaitT (rd ra rb : Reg) (s : State) : Res :=
  .next (s.atHome (.xwaitT rd ra rb) (s.g ra)
    (if (s.g ra).toNat ≤ s.myDone then s.setG rd 1 else s.park (.xwaitT rd ra rb) 1 [] .poll))

namespace State

/-- The XWAIT.T of a slot whose deadline has come in this cycle of the slot (R266). -/
def deadlineDue (s : State) (p : Nat) (j : Fin 16) : Option (Reg × Bool) :=
  let x := s.slotAt p j
  match x.pendC with
  | some q =>
    match q.ins with
    | .xwaitT rd ra rb =>
      let g (r : Reg) : Nat := if r = 0 then 0 else (x.latch.g.get r).toNat
      if q.phase = 1 && s.time % 16 == j.val && decide (g rb ≤ s.time) then
        some (rd, decide (g ra ≤ (s.vcore x.tid.vc).done)) else none
    | _ => none
  | none => none

end State

/-- XWAIT_DEADLINE (R266): a DONE that reaches the identifier in the same cycle gives 1. -/
def execXwaitDeadline (pos slot : Nat) (s : State) : Res :=
  let j := Fin.ofNat 16 slot
  .next
    (match s.deadlineDue pos j with
     | some (rd, ok) =>
       (s.endHalf pos j false).updSlot pos j fun x =>
         { x with regs := x.regs.setG rd (if ok then 1 else 0) }
     | none => s)

/-- XSTAT's result (R266): 0 while the transfer is not complete, its BYTES too (log entry 115). -/
def xstatWord (v : VCore) (n : Nat) : Word :=
  if v.done < n then 0
  else
    match v.history.find? fun x => x.id == n with
    | some x => BitVec.ofNat 64 (2 ^ 63 + min x.bytes (2 ^ 32 - 1) * 2 ^ 16 + x.cause * 2 ^ 8 + x.status)
    | none => BitVec.ofNat 64 (2 ^ 63 + 2 ^ 62)

def execXstat (rd ra : Reg) (s : State) : Res :=
  .next (s.setG rd (xstatWord (s.vcore s.me.tid.vc) (s.g ra).toNat))

/-- MBXD (R267): only on a copy hart, which holds it until the job's writes are performed and until the stage tag meets
its condition. -/
def execMbxd (ra rb : Reg) (s : State) : Res :=
  let a := s.g ra
  let p := cluOf s.cur.pos * 8 + bits a 2 0
  .next
    (if !s.cur.hart then s.illegal
     else
       match (s.core p).channel with
       | [] => s
       | j :: _ =>
         if j.id ≠ (s.g rb).toNat then s
         else if s.hartOwes p (State.chanTid p) then s.hold
         else (s.completeJob p j (bits a 15 8) (bits a 23 16) (bits a 63 32)).getD s.hold)

namespace State

/-- Does a cluster's hart run a job (R268)?  A collective job runs from its first look at an element of IN until its round
is complete at its rank, whose results the hart writes. -/
def hartBusy (s : State) (k : Nat) : Bool :=
  ((List.range 8).any fun i => match (s.core (8 * k + i)).channel with
    | j :: _ => j.begun
    | [] => false) ||
  ((s.cluster k).coll.any fun j => j.begun || decide (0 < j.chunk) || !j.buf.isEmpty) ||
  ((s.core (hartPos k)).buffer.any fun e => decide (2 ^ 37 ≤ e.tid.vc)) ||
  s.vcores.any fun v => isPlaced v.2 && cluOf v.2.pos == k && v.2.grp.toList.any fun g => g.rounds.any fun r =>
    r.desc.isSome && !r.complete && !r.cancelled && decide (0 < r.put + r.delivered)

end State

/-- KICK (R268). -/
def execKick (ra : Reg) (s : State) : Res :=
  let a := s.g ra
  let k := 64 * dieOf s.cur.pos + bits a 5 0
  let go (t : State) : State :=
    if t.hartBusy k then t.park (.kick ra) 2 [] .poll
    else t.updCluster k fun c => { c with microcode := State.objOf a }
  .next
    (if !s.sup then s.trap .priv 0
     else
       match s.cur.phase with
       | 0 =>
         if bits a 39 6 ≠ 0 then s.trap .illegal a
         else
           s.withRecord (State.objOf a) a fun r =>
             if r.rvk then s.trap .revoked a
             else if !r.permX then s.trap .objPerm a
             else s.release .clus (.kick ra) 1 [] go
       | 1 => go (s.released .clus)
       | _ => go s)

end Sys2Proof.Machine
end

