-- ==== Sys2Proof/Machine/Messages.lean ====
section
/-! DEFINITION. Continuations, messages, migration and posted remote stores, C-class majors 0x60 to 0x66,
and the events MESSAGE_DELIVERY to RST_ACKNOWLEDGEMENT and FORWARDING_ENTRY_EXPIRY (R270-R284, R286). -/

namespace Sys2Proof.Machine

namespace State

/-! ### Where an item goes (R278, R279) -/

/-- What the core at a position does with an item for a vcore. -/
inductive Hop where
  | here
  | next (p : Nat)
  | wait
  | exited
  deriving DecidableEq, Repr

/-- Is a core in no state to handle what arrives: sealed, or its die idle, off or halted (R278, R361)? -/
def coreDead (s : State) (p : Nat) : Bool := (s.core p).sealed || !s.dieRuns (dieOf p)

/-- The core at `p` handles an item for vcore `v` (R278): performed there, held, or sent on by the forwarding
entry, or to the home supervisor, which sends it by the placement table or holds it (R279). -/
def hop (s : State) (v p : Nat) : Hop :=
  let x := s.vcore v
  let f := (s.core p).fwd.find? fun f => f.vc == v
  let arrived : Hop := if s.coreDead p then .wait else .here
  let mine := isPlaced x && x.pos == p
  if !s.dieRuns (dieOf p) then .wait
  else
  match f with
  | some f => if f.hold then .wait else if mine then arrived else .next f.pos
  | none =>
    if mine then arrived
    else if p = homeSup v then
      (match x.place with
       | .exited => .exited
       | .unplaced => .wait
       | _ => .next x.pos)
    else .next (homeSup v)

/-- Does an item find a way to the position it is routed to (R385)? -/
def travels (s : State) (x : Item) : Bool := s.joined x.die (dieOf x.dst)

/-- An item is sent on. -/
def route (s : State) (id : Nat) (x : Item) (p : Nat) : State :=
  { s with net := s.net.put id { x with dst := p, die := dieOf x.dst } }

/-- An item becomes another item under the same number. -/
def become (s : State) (id : Nat) (x : Item) (l : Load) (p : Nat) : State :=
  { s with net := s.net.put id { x with load := l, dst := p, die := dieOf x.dst } }

def dropItem (s : State) (id : Nat) : State := { s with net := s.net.del id }

/-- A forwarding entry for a vcore at its old position; a full table drops its oldest (R278). -/
def addFwd (s : State) (p : Nat) (f : Fwd) : State :=
  s.updCore p fun c =>
    let l := c.fwd.filter fun x => x.vc != f.vc
    { c with fwd := (if 16 ≤ l.length then l.drop 1 else l) ++ [f] }

/-! ### Where a thread is (R270, R274) -/

/-- Where the registers of a thread are. -/
inductive Whereabouts where
  | slot (p : Nat) (j : Fin 16)
  | saved
  | moving
  /-- no thread has this identity -/
  | gone
  deriving DecidableEq, Repr

/-- The home's thread map says where a thread is. -/
def whereIs (s : State) (t : Tid) : Whereabouts :=
  let m := s.mapEntry t
  if m.gen ≠ t.gen then .gone
  else
    match m.state with
    | .none => .gone
    | .home j => .slot (s.vcore t.vc).pos j
    | .away p j => .slot p j
    | .inFlight => .moving
    | .yielded => .saved

/-- The core at `p` handles an item for a thread (R274): the item goes to the thread's home core, which holds it while
the thread is in flight, and sends it on to the core where the thread is away; a core that the thread has left sends it
back.  `exited`: no thread has this identity. -/
def threadHop (s : State) (t : Tid) (p : Nat) : Hop :=
  let m := s.mapEntry t
  match m.state with
  | .away q _ =>
    if m.gen == t.gen && q == p then (if s.coreDead p || s.frozen p then .wait else .here)
    else
      (match s.hop t.vc p with
       | .here => if m.gen = t.gen then .next q else .exited
       | h => h)
  | _ =>
    match s.hop t.vc p with
    | .here =>
      (match s.whereIs t with
       | .gone => .exited
       | .moving => .wait
       | _ => .here)
    | h => h

/-- An item for a thread takes one hop of its way, or arrives, or finds no thread. -/
def toThread (s : State) (id : Nat) (x : Item) (t : Tid) (arrive gone : State) : State :=
  if !s.travels x then s
  else
    match s.threadHop t x.dst with
    | .next p => s.route id x p
    | .wait => s
    | .exited => gone
    | .here => arrive

/-- Change the saved context of a yielded thread. -/
def updSaved (s : State) (t : Tid) (f : Slot → Slot) : State :=
  let m := s.mapEntry t
  s.setMap t { m with saved := m.saved.map f }

/-- Change a thread's context where it is: none while it is on its way, unchanged when it has ended. -/
def updThread (s : State) (t : Tid) (f : Slot → Slot) : Option State :=
  match s.whereIs t with
  | .gone => some s
  | .moving => none
  | .saved => some (s.updSaved t f)
  | .slot p j => some (s.updSlot p j f)

/-- A payload is written into a register and its mark is set; an AWAIT on it ends and clears it (R128,
R134, R274).  Where a CONT has named the register in this cycle, the mark stays clear (R128).  A trap that the thread's
bundle takes later gives the payload back with the other registers, marked also where the bundle's AWAIT has ended, since
that AWAIT then has no effect (R36). -/
def payload (now : Nat) (r : Reg) (w : Word) (x : Slot) : Slot :=
  let put (m : Bool) (y : Regs) : Regs := let z := y.setG r w; { z with tsw := Tsw.setMark z.tsw r m }
  let mark := x.cont != some (r, now)
  let write (m : Bool) : Slot := { x with regs := put m x.regs, undo := x.undo.map fun u => (put mark u.1, u.2) }
  if r = 0 then x
  else
    match x.pendC with
    | some q =>
      if q.wait = .await r then { write false with pendC := none, ready := max x.ready (now + 1) }
      else write mark
    | none => write mark

/-- Deliver a payload to a thread, and to the other thread of a redundant pair (R342). -/
def deliver (s : State) (t : Tid) (r : Reg) (w : Word) : Option State :=
  match s.whereIs t with
  | .slot p j =>
    let u := s.updSlot p j (payload s.time r w)
    match (s.slotAt p j).pair with
    | some k => some (u.updSlot p k (payload s.time r w))
    | none => some u
  | _ => s.updThread t (payload s.time r w)

/-- A message, transfer or window write of a thread is no longer unacknowledged (R193). -/
def acked (id : Nat) (x : Slot) : Slot := { x with unacked := x.unacked.filter fun k => k != id }

end State

/-! ### Continuation words (R271, R272) -/

/-- The fields of a continuation word. -/
def contTid (w : Word) : Tid :=
  { vc := bits w 35 0, tnum := Fin.ofNat 16 (bits w 43 40), gen := BitVec.ofNat 16 (bits w 63 48) }
def contReg (w : Word) : Reg := Fin.ofNat 16 (bits w 47 44)

/-- The continuation word that names register n of a thread. -/
def contWord (t : Tid) (n : Reg) : Word :=
  BitVec.ofNat 64 (t.gen.toNat * 2 ^ 48 + n.val * 2 ^ 44 + t.tnum.val * 2 ^ 40 + t.vc)

/-- CONT (R272): the cycle and the register are kept for a payload that arrives in the same cycle (R128). -/
def execCont (rd n : Reg) (s : State) : Res :=
  let w := contWord s.me.tid n
  let t := if n = 0 then s
    else (s.updRegs fun x => { x with tsw := Tsw.setMark x.tsw n false }).updMe fun x => { x with cont := some (n, s.time) }
  .next (if rd = 0 then t.updMe fun x => { x with bounce := n } else t.setG rd w)

/-! ### Sending (R273) -/

namespace State

/-- The message enters the network. -/
def sendMessage (s : State) (dest payload : Word) (wait : Option Nat) : State :=
  let x := s.me
  ((s.updMe fun y => { y with unacked := s.fresh :: y.unacked }).traffic x.occ (bits dest 35 0) 32).inject
    { load := .message dest payload x.tid wait, key := s.part.key, dst := s.aim s.cur.pos (bits dest 35 0)
      die := dieOf s.cur.pos }

/-- SEND and SENDW from issue to the release (R273). -/
def sendFrom (s : State) (ins : Instr) (dest : Word) (k : State → State) : State :=
  let sc := if pkgOf (bits dest 35 0) = s.pkg then Scope.dev else Scope.sys
  if s.cur.phase = 0 then
    if bits dest 39 36 ≠ 0 then s.trap .illegal dest
    else if !s.inPart (bits dest 35 0) then s.trap .undeliverable dest
    else s.release sc ins 1 [] k
  else k (s.released sc)

end State

/-- SEND (R273). -/
def execSend (ra rb : Reg) (s : State) : Res :=
  .next (s.sendFrom (.send ra rb) (s.g ra) fun t => t.sendMessage (s.g ra) (s.g rb) none)

/-- SENDW (R273): it parks until the delivery is acknowledged or the message returns. -/
def execSendw (ra rb : Reg) (s : State) : Res :=
  .next (s.sendFrom (.sendw ra rb) (s.g ra) fun t =>
    let k := t.fresh1
    (k.2.sendMessage (s.g ra) (s.g rb) (some k.1)).park (.sendw ra rb) 2 [] (.token k.1))

namespace State

/-- A message at the core where its target is (R274). -/
def messageHere (s : State) (id : Nat) (x : Item) (dest pay : Word) (src : Tid) (wait : Option Nat) : State :=
  let t := contTid dest
  match s.deliver t (contReg dest) pay with
  | none => s
  | some u => (u.traffic t.vc src.vc 32).become id x (.delivered src wait) (s.posOf src.vc)

/-- A delivery acknowledgement reaches its sender (R273). -/
def ackMessage (s : State) (id : Nat) (dst : Tid) (wait : Option Nat) : State :=
  match s.updThread dst (acked id) with
  | none => s
  | some t =>
    (match wait with
     | some k => t.endToken k fun r => r
     | none => t).dropItem id

/-- A message comes back to its sender (R275); a redundant pair's BOUNCE register is written in both (R342). -/
def bounce (s : State) (id : Nat) (dest : Word) (dst : Tid) (wait : Option Nat) : State :=
  match wait with
  | some k =>
    match (s.endToken k fun r => r).updThread dst fun x => acked id (withEvent s.time .undeliverable dest x) with
    | none => s
    | some t => t.dropItem id
  | none =>
    let b := ((s.context dst).map (·.bounce)).getD 0
    let told := if b = 0 then s.updThread dst (withEvent s.time .undeliverable dest) else s.deliver dst b dest
    match told.bind fun t => t.updThread dst (acked id) with
    | none => s
    | some t => t.dropItem id

end State

/-- The fill of a completion word reaches the core that holds its vcore (R143). -/
def State.fillHere (s : State) (id : Nat) (dest w : Word) : State :=
  match s.fillAt dest with
  | .discard => s.dropItem id
  | .wait => s
  | .word p a => (s.fill p a w).dropItem id

/-- MESSAGE_DELIVERY (R274, R278, R279): one hop, or what the core where the thread is does; the fill of a completion
word that could not be made at once goes the same way (R143). -/
def execMessageDelivery (id : Nat) (s : State) : Res :=
  .next
    (match s.net.get id with
     | some x =>
       match x.load with
       | .message dest pay src wait =>
         if pkgOf (bits dest 35 0) ≠ s.pkg then s
         else
           s.toThread id x (contTid dest) (s.messageHere id x dest pay src wait)
             (s.become id x (.returned dest src wait) (s.posOf src.vc))
       | .fill dest w =>
         if !s.travels x then s
         else
           match s.hop (bits dest 59 24) x.dst with
           | .next p => s.route id x p
           | .wait => s
           | .exited => s.dropItem id
           | .here => s.fillHere id dest w
       | _ => s
     | none => s)

/-- MESSAGE_ACKNOWLEDGEMENT (R273), by the route of R274; for a message to another package the acknowledgement comes from
there, and then takes that route. -/
def execMessageAcknowledgement (id : Nat) (s : State) : Res :=
  .next
    (match s.net.get id with
     | some x =>
       match x.load with
       | .delivered dst wait => s.toThread id x dst (s.ackMessage id dst wait) (s.dropItem id)
       | .message dest _ src wait =>
         if pkgOf (bits dest 35 0) = s.pkg then s else s.become id x (.delivered src wait) (s.posOf src.vc)
       | _ => s
     | none => s)

/-- MESSAGE_RETURN (R275), by the route of R274; a message to another package returns from there. -/
def execMessageReturn (id : Nat) (s : State) : Res :=
  .next
    (match s.net.get id with
     | some x =>
       match x.load with
       | .returned dest dst wait => s.toThread id x dst (s.bounce id dest dst wait) (s.dropItem id)
       | .message dest _ src wait =>
         if pkgOf (bits dest 35 0) = s.pkg then s else s.become id x (.returned dest src wait) (s.posOf src.vc)
       | _ => s
     | none => s)

/-! ### Migration (R280-R282) -/

/-- MIGR (R280). -/
def execMigr (ra : Reg) (s : State) : Res :=
  let a := s.g ra
  .next
    (if bits a 63 36 ≠ 0 then s.trap .illegal a
     else if pkgOf (bits a 35 0) ≠ s.pkg then s.trap .undeliverable a
     else if bits a 35 0 = s.me.occ then s
     else s.migrate (.migr ra) 0 [] (bits a 35 0) a)

/-- HOME (R280). -/
def execHome (s : State) : Res :=
  .next (s.atHome .home (BitVec.ofNat 64 s.me.tid.vc) s)

namespace State

/-- The vcore that a slot's thread can depart for now: its releases are over, no other half waits and the A half has
completed (R52); an A half that leaves takes a C half that leaves with it. -/
def departs (s : State) (p : Nat) (j : Fin 16) : Option Nat :=
  let x := s.slotAt p j
  if s.time < x.ready then none else
  let go (q : Pend) : Option Nat :=
    match q.wait with
    | .depart es ps v => if s.releaseOver p j es ps false then some v else none
    | _ => none
  match x.pendA, x.pendC with
  | some a, none => go a
  | none, some c => go c
  | some a, some c => if (go c).isSome then go a else none
  | none, none => none

/-- The half of an arriving thread is tried again in the thread's cycles. -/
def landed (q : Pend) : Pend :=
  match q.wait with
  | .depart _ _ _ => { q with wait := .poll }
  | _ => q

/-- Does a migration from a core to a vcore leave the core (R286)? -/
def leavesCore (s : State) (p v : Nat) : Bool :=
  let x := s.vcore v
  !((x.place == .placed || x.place == .folded) && x.pos == p)

/-- The thread departs for a vcore (R157, R198, R280, R286): its BANKM starts at 0 there.  An item that counts no
traffic names the vcore it goes to as the one it left. -/
def depart (s : State) (p : Nat) (j : Fin 16) (v : Nat) : State :=
  let x := s.slotAt p j
  let ctx := { x with
    regs := { x.regs with bankm := 0 }, undo := x.undo.map fun u => ({ u.1 with bankm := 0 }, u.2)
    pendA := x.pendA.map landed, pendC := x.pendC.map landed }
  let far := s.leavesCore p v
  let t := (s.setMap x.tid { s.mapEntry x.tid with state := .inFlight }).leaveSlot p j
  (if far then t.traffic x.occ v 160 else t).inject
    { load := .thread ctx v (if far then x.occ else v), key := s.part.key, dst := s.posOf v, die := dieOf p }

/-- A thread arrives at the core that holds the vcore it goes to (R27, R280); at a core that an exchange holds it
waits in the guest queue. -/
def arriveThread (s : State) (id : Nat) (ctx : Slot) (v left p : Nat) : State :=
  let q := (s.core p).guests
  if q.isEmpty && !s.frozen p then
    match s.reclaim p with
    | some (j, t) => (count (t.takeSlot p j ctx v true)).dropItem id
    | none => wait q
  else wait q
where
  count (t : State) : State := if left = v then t else t.traffic v left 160
  wait (q : List Slot) : State :=
    if 8 ≤ q.length then s
    else (count (s.updCore p fun c => { c with guests := c.guests ++ [{ ctx with occ := v }] })).dropItem id

end State

/-- MIGRATION_ARRIVAL (R278, R280). -/
def execMigrationArrival (id : Nat) (s : State) : Res :=
  .next
    (match s.net.get id with
     | some x =>
       match x.load with
       | .thread ctx v left =>
         if !s.travels x then s
         else
         match s.hop v x.dst with
         | .next p => s.route id x p
         | .here => s.arriveThread id ctx v left x.dst
         | _ => s
       | _ => s
     | none => s)

/-- MIGRATION_FAILURE (R282): the access is not performed, and the thread goes back to its home core. -/
def execMigrationFailure (id : Nat) (s : State) : Res :=
  .next
    (match s.net.get id with
     | some x =>
       match x.load with
       | .thread ctx v left =>
         if s.travels x && s.hop v x.dst = .exited && v != ctx.tid.vc then
           let y := State.withEvent s.time .undeliverable (BitVec.ofNat 64 v)
             { ctx with pendA := none, pendC := none }
           s.become id x (.thread y ctx.tid.vc left) (s.posOf ctx.tid.vc)
         else s
       | _ => s
     | none => s)

/-! ### Posted remote stores (R283, R284) -/

namespace State

/-- The lowest free journal entry. -/
def freeEntry (x : Slot) : Option (Fin 16) := (List.finRange 16).find? fun i => (x.journal.get i).isNone

/-- The store enters the buffer, or waits for room there. -/
def bufferRst (s : State) (ins : Instr) (e : Fin 16) (a : Word) (n : Nat) (v : Word) : State :=
  if s.bufferFull s.cur.pos then s.park ins 2 [BitVec.ofNat 64 e.val] .room
  else s.pushEntry s.cur.pos s.me.tid (.rst e a n v)

/-- RST takes a journal entry, numbered in the thread's order, or waits for one. -/
def journalRst (s : State) (ins : Instr) (a : Word) (z : Size) (v : Word) : State :=
  match freeEntry s.me with
  | none => s.park ins 1 [] .poll
  | some e =>
    let k := s.fresh1
    (k.2.updMe fun x =>
      { x with journal := vput x.journal e (some { addr := a, size := BitVec.ofNat 2 (Size.bytes z).log2, seq := k.1 }) }).bufferRst
        ins e a (Size.bytes z) v

end State

/-- RST (R283). -/
def execRst (ra rb : Reg) (z : Size) (s : State) : Res :=
  let a := s.g ra
  let n := Size.bytes z
  let ins := Instr.rst ra rb z
  .next
    (match s.cur.phase with
     | 0 =>
       if a.toNat % n ≠ 0 then s.trap .align a
       else if (remoteAddr a).isNone then s.trap .localRange a
       else if !s.inPart (bits a 59 24) then s.trap .undeliverable a
       else s.journalRst ins a z (s.g rb)
     | 1 => s.journalRst ins a z (s.g rb)
     | _ => s.bufferRst ins (Fin.ofNat 16 (s.cur.held.getD 0 0).toNat) a n (s.g rb))

namespace State

/-- A posted store at the owning core (R283): the limit of R156, then its store buffer. -/
def rstHere (s : State) (id : Nat) (x : Item) (src : Tid) (entry : Fin 16) (addr : Word) (n : Nat) (v : Word)
    (p : Nat) : State :=
  let w := bits addr 59 24
  let off := bits addr 17 0
  let back (t : State) (c : Option Cause) : State :=
    (t.traffic w src.vc 32).become id x (.rstAck src entry c) (s.posOf src.vc)
  if segLimit (s.keptSeg w) < off + n then back s (some .localRange)
  else if s.bufferFull p || !s.bankOpen p then s
  else
    let pa := segBase (s.keptSeg w) + off
    back (((s.spadWrite p pa (toBytes n v.toNat)).bankMark p 16).pushEntry p noTid (.scratch pa n)) none

/-- An acknowledgement frees a journal entry; a refusal marks it and raises REMOTE_REFUSED (R284). -/
def journalAck (now : Nat) (entry : Fin 16) (c : Option Cause) (x : Slot) : Slot :=
  match c with
  | none => { x with journal := vput x.journal entry none }
  | some c =>
    withEvent now .remoteRefused (BitVec.ofNat 64 entry.val)
      { x with journal := vput x.journal entry ((x.journal.get entry).map fun e => { e with cause := some c }) }

/-- The acknowledgement of a posted store reaches the sender. -/
def ackRst (s : State) (id : Nat) (dst : Tid) (entry : Fin 16) (c : Option Cause) : State :=
  match s.updThread dst (journalAck s.time entry c) with
  | none => s
  | some t => t.dropItem id

end State

/-- RST_ARRIVAL (R278, R283). -/
def execRstArrival (id : Nat) (s : State) : Res :=
  .next
    (match s.net.get id with
     | some x =>
       match x.load with
       | .rst src entry addr n v =>
         if pkgOf (bits addr 59 24) ≠ s.pkg || !s.travels x then s
         else
           match s.hop (bits addr 59 24) x.dst with
           | .next p => s.route id x p
           | .wait => s
           | .exited => s.become id x (.rstAck src entry (some .undeliverable)) (s.posOf src.vc)
           | .here => s.rstHere id x src entry addr n v x.dst
       | _ => s
     | none => s)

/-- RST_ACKNOWLEDGEMENT (R284), by the route of R274; for a store to another package it comes from there, and may be a
refusal (log entry 5). -/
def execRstAcknowledgement (id : Nat) (s : State) : Res :=
  .next
    (match s.net.get id with
     | some x =>
       match x.load with
       | .rstAck dst entry c => s.toThread id x dst (s.ackRst id dst entry c) (s.dropItem id)
       | .rst src entry addr _ _ =>
         if pkgOf (bits addr 59 24) = s.pkg then s
         else
           let c := s.pick 3
           c.2.become id x (.rstAck src entry ([none, some .localRange, some .undeliverable].getD c.1 none))
             (s.posOf src.vc)
       | _ => s
     | none => s)

/-- JRNL's status word (R284). -/
def journalStatus (e : JEntry) : Word :=
  match e.cause with
  | none => BitVec.ofNat 64 (2 ^ 63 + e.size.toNat)
  | some c => BitVec.ofNat 64 (2 ^ 63 + 2 ^ 62 + c.code * 2 ^ 8 + e.size.toNat)

/-- JRNL (R284).  What a free entry gives for its address and its size is not stated (log entry 11). -/
def execJrnl (rd ra : Reg) (s : State) : Res :=
  let a := s.g ra
  let e : Fin 16 := Fin.ofNat 16 (bits a 3 0)
  .next
    (if bits a 63 6 ≠ 0 then s.trap .illegal a
     else
       match s.me.journal.get e with
       | some j =>
         let t := s.setG rd (if bit a 4 then journalStatus j else j.addr)
         if bit a 5 && j.cause.isSome then t.updMe fun x => { x with journal := vput x.journal e none } else t
       | none =>
         let w := s.freeWord
         w.2.setG rd (if bit a 4 then w.1 &&& 3 else w.1))

/-- FORWARDING_ENTRY_EXPIRY (R278). -/
def execForwardingEntryExpiry (pos vcore : Nat) (s : State) : Res :=
  .next (s.updCore pos fun c =>
    { c with fwd := c.fwd.filter fun f => !(f.vc == vcore && !f.hold && decide (f.lapses ≤ s.time)) })

end Sys2Proof.Machine
end

