-- ==== Sys2Proof/Machine/Collect.lean ====
section
/-! DEFINITION. Groups and collectives, C-class majors 0x68 to 0x6E, the copy hart's choice of work, and the
events COPY_CHUNK, RESERVATION_GRANT, COMPLETION_NOTICE, ROUND_CANCEL, WINNOW_MERGE, COLLECTIVE_DELIVERY
and SHEAF_TABLE_WRITE (R290-R305).  The contributions of a group combine in `State.trees`. -/

namespace Sys2Proof.Machine

/-! ### Sheaf entries (R294) -/

namespace Sheaf

def field (e : Sheaf) (hi lo : Nat) : Nat := e.toNat / 2 ^ lo % 2 ^ (hi + 1 - lo)
def op (e : Sheaf) : Nat := field e 126 123
def vc (e : Sheaf) : Nat := field e 122 119
def parent (e : Sheaf) : Nat := field e 111 104
def gid (e : Sheaf) : Nat := field e 79 64
/-- A valid entry: a reserved OP makes it invalid. -/
def ok (e : Sheaf) : Bool := field e 127 127 == 1 && decide (op e < 8)

end Sheaf

namespace State

/-- The valid sheaf entry of a group on a die. -/
def sheafOf (s : State) (d gid : Nat) : Option Sheaf :=
  (s.die d).sheaf.find? fun e => Sheaf.ok e && Sheaf.gid e == gid

/-- The root die of a group; where the root is in another package, the lowest die here with an entry stands for it (log
entry 5). -/
def rootDie (s : State) (d gid : Nat) : Nat :=
  (((List.range 8).find? fun k => match s.sheafOf k gid with
    | some e => Sheaf.parent e == 0xFF
    | none => false).or ((List.range 8).find? fun k => (s.sheafOf k gid).isSome)).getD d

/-- Does a group's way from a die climb to the root through valid entries and dies that run (R294, R385)?  The ports
of other packages lead out of this one. -/
def climbs (s : State) (gid : Nat) : Nat → Nat → Bool
  | 0, _ => false
  | n + 1, d =>
    match s.sheafOf d gid with
    | none => false
    | some e =>
      match dieBehind d (Sheaf.parent e) with
      | some m => s.joined d m && s.dieRuns m && climbs s gid n m
      | none => true

/-! ### Group registers (R290, R291) -/

def grpAt (s : State) (v : Nat) (i : Fin 8) : Grp := (s.vcore v).grp.get i

def updGrp (s : State) (v : Nat) (i : Fin 8) (f : Grp → Grp) : State :=
  s.updVcore v fun x => { x with grp := vput x.grp i (f (x.grp.get i)) }

def updRound (s : State) (v : Nat) (i : Fin 8) (n : Nat) (f : Round → Round) : State :=
  s.updGrp v i fun g =>
    { g with rounds := g.rounds.map fun r => if r.n = n && !r.cancelled then f r else r }

/-- The running round of that number. -/
def roundAt (g : Grp) (n : Nat) : Option Round := g.rounds.find? fun r => r.n == n && !r.cancelled

/-- A started round that is not complete at every rank. -/
def openRound (g : Grp) : Bool := g.rounds.any fun r => !r.cancelled && decide (g.noticed ≤ r.n)

/-- The vcores of the package with a register bound to a group. -/
def members (s : State) (gid : Nat) : List (Nat × Fin 8) :=
  s.vcores.flatMap fun v =>
    ((List.finRange 8).filter fun i => (v.2.grp.get i).bound && (v.2.grp.get i).gid == gid).map fun i => (v.1, i)

/-- Has every member of a group bound a register in this package? -/
def allBound (s : State) (gid : Nat) : Bool :=
  match s.members gid with
  | [] => false
  | m :: rest => ((s.vcore m.1).grp.get m.2).nrank == rest.length + 1

/-- Continue with a bound register of the home vcore (R290). -/
def withGrp (s : State) (ins : Instr) (i : Fin 8) (tval : Word) (k : Grp → State) : State :=
  s.atHome ins tval
    (let g := s.grpAt s.me.tid.vc i
     if !g.bound then s.trap .illegal (BitVec.ofNat 64 i.val) else k g)

/-- Has the record of a window of the group been revoked (R304)? -/
def revoked (s : State) (gid : Nat) : Bool := (s.tree gid).revoked

/-- Steps 1 and 2 of R180 on the window object of a group, each of whose windows a revocation ends (R304). -/
def withWindow (s : State) (obj gid : Nat) (k : State) : State :=
  let ref : Word := BitVec.ofNat 64 (obj * 2 ^ 40)
  s.withRecord obj ref fun r => if r.rvk || s.revoked gid then s.trap .revoked ref else k

/-- CMC's parameters outside their table (R291). -/
def cmcBad (b : Word) : Bool :=
  !([0, 9, 0xA, 0xB].contains (bits b 63 60)) || bits b 59 56 != 0 || bits b 31 24 != 0 ||
    bits b 55 32 == 0 || decide (bits b 55 32 ≤ bits b 23 0)

end State

/-- CMC (R291). -/
def execCmc (g : Fin 8) (ra rb : Reg) (s : State) : Res :=
  let a := s.g ra
  let b := s.g rb
  let v := s.me.tid.vc
  .next (s.atHome (.cmc g ra rb) a
    (if State.openRound (s.grpAt v g) then s.trap .illegal (BitVec.ofNat 64 g.val)
     else if State.cmcBad b then s.trap .illegal b
     else
       s.withRecord (State.objOf a) a fun r =>
         if r.rvk then s.trap .revoked a
         else if !r.multi then s.trap .objPerm a
         else if s.revoked r.group then s.trap .revoked a
         else
           match s.sheafOf (dieOf s.cur.pos) r.group with
           | none => s.trap .undeliverable a
           | some e =>
             s.updGrp v g fun _ =>
               { bound := true, obj := State.objOf a, gid := r.group, op := Sheaf.op e, vc := Sheaf.vc e
                 rank := bits b 23 0, nrank := bits b 55 32, wfmt := bits b 63 60 }))

/-- GSEQ (R293). -/
def execGseq (rd : Reg) (g : Fin 8) (s : State) : Res :=
  .next (s.withGrp (.gseq rd g) g 0 fun x => s.setG rd (x.seq.setWidth 64))

/-! ### Combining (R294, R296, R298, R299) -/

/-- The format in which FADD adds (R298). -/
def sumFmt (c : Nat) : FFmt := if c = 8 then f64 else f32

namespace State

/-- Add values in any tree of additions, each rounded RNE (R294); a single value is not rounded. -/
def addTree (s : State) (f : FFmt) : Nat → List FVal → FVal × State
  | 0, l => (l.headD (.fin false 0 0), s)
  | _ + 1, [] => (.fin false 0 0, s)
  | _ + 1, [a] => (a, s)
  | _ + 1, [a, b] => (f.value (f.round .rne false (a.add .rne b)), s)
  | fuel + 1, l =>
    let i := s.pick l.length
    let x := l.getD i.1 .nan
    let rest := l.eraseIdx i.1
    let j := i.2.pick rest.length
    let y := rest.getD j.1 .nan
    addTree j.2 f fuel (f.value (f.round .rne false (x.add .rne y)) :: rest.eraseIdx j.1)

/-- FADD over encodings of format c, rounded once to c. -/
def faddAll (s : State) (c : Nat) (l : List Nat) : Nat × State :=
  let r := s.addTree (sumFmt c) l.length (l.map (elemValue c))
  (roundTo c .rne false r.1, r.2)

/-- OP over the encodings of one element of format c (R294, R298). -/
def combine (s : State) (op c : Nat) (l : List Nat) : Nat × State :=
  let w := fmtBits c
  match op with
  | 0 => (wrapInt w ((l.map (readInt c)).foldl (· + ·) 0), s)
  | 1 => (wrapInt w (clampInt c ((l.map (readInt c)).foldl (· + ·) 0)), s)
  | 2 => s.faddAll c l
  | 3 => (l.foldl (vminmax true c) (l.headD 0), s)
  | 4 => (l.foldl (vminmax false c) (l.headD 0), s)
  | 5 => (l.foldl (· &&& ·) (l.headD 0), s)
  | 6 => (l.foldl (· ||| ·) 0, s)
  | _ => (l.foldl (· ^^^ ·) 0, s)

/-- The combined elements of a chunk; where ranks give different numbers of elements the result is not
stated, and its elements are free. -/
def combineChunk (s : State) (op c : Nat) (parts : List Contrib) : List (Nat × Bool) × State :=
  let m := (parts.headD ⟨0, 0, [], none⟩).elems.length
  let same := parts.all fun p => p.elems.length == m
  (List.range m).foldl (fun (x : List (Nat × Bool) × State) j =>
    let es := parts.map fun p => p.elems.getD j (0, false)
    let r := if same then x.2.combine op c (es.map (·.1))
             else let w := x.2.freeWord; (w.1.toNat % 2 ^ fmtBits c, w.2)
    (x.1 ++ [(r.1, es.any (·.2))], r.2)) ([], s)

/-! ### The tree of a group (R292, R295, R302) -/

/-- Is a vcore still to cancel that round? -/
def cancelling (s : State) (gid v n : Nat) : Bool :=
  (s.tree gid).cancels.any fun c => c.left.contains v && decide (c.n ≤ n)

/-- Does a job combine its chunks on the way (R299)? -/
def combines (d : Option CollDesc) : Bool :=
  match d with
  | none => true
  | some d => d.op == .rs || d.op == .ar

/-- A contribution enters the tree; the last one of its chunk combines it. -/
def contribute (s : State) (g : Grp) (v n : Nat) (d : Option CollDesc) (c : Contrib) : State :=
  let t := s.tree g.gid
  if n < t.fin || s.cancelling g.gid v n then s
  else
    let r := (t.rounds.find? fun r => r.n == n).getD { n := n }
    if r.parts.any fun p => p.rank == c.rank && p.chunk == c.chunk then s
    else
      let parts := r.parts ++ [c]
      let mine := parts.filter fun p => p.chunk == c.chunk
      let fmt := match d with
        | none => if g.op = 2 then 8 else 4
        | some d => d.fmt
      let x := if mine.length = g.nrank && combines d && mine.all (fun p => p.marked.isNone) then
          let y := s.combineChunk g.op fmt mine
          (r.sums.put c.chunk y.1, y.2)
        else (r.sums, s)
      x.2.updTree g.gid fun t =>
        { t with rounds := { r with parts := parts, sums := x.1 } :: t.rounds.filter fun q => q.n != n }

/-- A rank has completed a round; once every rank has, the root sends the completion notice. -/
def roundComplete (s : State) (g : Grp) (n : Nat) : State :=
  s.updTree g.gid fun t =>
    let rs := t.rounds.map fun r => if r.n = n then { r with complete := insertNat r.complete g.rank } else r
    if n = t.fin && rs.any fun r => r.n == n && r.complete.length == g.nrank then
      { t with rounds := rs.filter fun r => r.n != n, fin := n + 1 }
    else { t with rounds := rs }

/-- May a rank's round begin to contribute (R292)? -/
def mayBegin (g : Grp) (n : Nat) : Bool := n == 0 || decide (n ≤ g.noticed)

/-- Elements of a chunk of IN, and the number of chunks (R299). -/
def chunkElems (d : CollDesc) : Nat := 4096 / fmtBytes d.fmt
def chunkCount (d : Option CollDesc) : Nat :=
  match d with
  | none => 1
  | some d =>
    if d.op = .bar || d.count = 0 then 1 else (d.count + chunkElems d - 1) / chunkElems d

/-- The elements of IN that chunk c covers: first and number. -/
def chunkSpan (d : CollDesc) (c : Nat) : Nat × Nat :=
  if d.op = .bar then (0, 0)
  else (c * chunkElems d, min d.count ((c + 1) * chunkElems d) - c * chunkElems d)

/-- The word of a GCOL round (R297). -/
def statusWord (r : Round) : Word := BitVec.ofNat 64 (r.n * 2 ^ 32 + r.cause * 2 ^ 8 + r.status)

/-- What GLD gives of a complete round (R297). -/
def roundWord (r : Round) : Word := if r.desc.isSome then statusWord r else r.result

/-- A rank's round is complete: the GLDs that wait for it end (R297). -/
def endReaders (s : State) (r : Round) : State :=
  r.readers.foldl (fun t k => t.endToken k.1 fun x => x.setG k.2 (roundWord r)) s

/-- Start a round of a register (R292).  Older rounds that are over are forgotten, but for the last one, which an abort
may still cancel (R302). -/
def startRound (s : State) (v : Nat) (i : Fin 8) (d : Option CollDesc) : State :=
  s.updGrp v i fun g =>
    { g with
      seq := g.seq + 1
      rounds := (g.rounds.filter fun r => !r.cancelled && decide (g.noticed ≤ r.n + 1)) ++
        [{ n := g.seq.toNat, desc := d }] }

/-- GST waits for its reservation. -/
def gstWait (s : State) (ins : Instr) (i : Fin 8) (n : Nat) (w : Word) : State :=
  let k := s.fresh1
  (k.2.updRound s.me.tid.vc i n fun r => { r with wait := some (k.1, w) }).park ins 2 [BitVec.ofNat 64 n]
    (.token k.1)

end State

/-- GST (R296). -/
def execGst (g : Fin 8) (ra : Reg) (s : State) : Res :=
  let ins := Instr.gst g ra
  .next
    (if s.cur.phase = 0 then
      s.withGrp ins g (s.g ra) fun x =>
        s.withWindow x.obj x.gid
          ((s.startRound s.me.tid.vc g none).release .sys ins 1 [x.seq.setWidth 64] fun t =>
            t.gstWait ins g x.seq.toNat (s.g ra))
     else (s.released .sys).gstWait ins g (s.cur.held.getD 0 0).toNat (s.g ra))

/-- GLD (R297) on the round this rank started last (log entry 12).  While it waits the round is there until it is
complete, or cancelled. -/
def execGld (rd : Reg) (g : Fin 8) (s : State) : Res :=
  let ins := Instr.gld rd g
  let v := s.me.tid.vc
  let aborted (n : Nat) : State := s.trap .collectiveAbort (BitVec.ofNat 64 n)
  .next
    (if s.cur.phase = 0 then
      s.withGrp ins g 0 fun x =>
        match x.rounds.getLast? with
        | none => s.setG rd 0
        | some r =>
          if r.cancelled then aborted r.n
          else if r.complete then s.setG rd (State.roundWord r)
          else
            let k := s.fresh1
            (k.2.updRound v g r.n fun r => { r with readers := r.readers ++ [(k.1, rd)] }).park ins 1
              [BitVec.ofNat 64 r.n] (.token k.1)
     else aborted (s.cur.held.getD 0 0).toNat)

namespace State

/-! ### Collective jobs (R298) -/

/-- The code of a collective operator in R298. -/
def descOf (op : CollOp) (ws : List Word) (b : Word) : CollDesc :=
  { op := op, fmt := bits (ws.getD 0 0) 63 60, count := bits (ws.getD 0 0) 39 0
    inn := bits (ws.getD 1 0) 39 0 + bits b 39 0, out := bits (ws.getD 2 0) 39 0 + bits b 39 0
    root := bits (ws.getD 3 0) 23 0 }

/-- The descriptor's ILLEGAL conditions. -/
def descBad (op : CollOp) (nrank : Nat) (ws : List Word) (b : Word) : Bool :=
  let count := bits (ws.getD 0 0) 39 0
  bits (ws.getD 0 0) 59 40 != 0 || bits (ws.getD 1 0) 63 40 != 0 || bits (ws.getD 2 0) 63 40 != 0 ||
    (if op = .bc then bits (ws.getD 3 0) 63 24 != 0 else ws.getD 3 0 != 0) || bits b 63 40 != 0 ||
    (op == .bar && count != 0) || (op == .rs && count % nrank != 0) ||
    (op == .bc && decide (nrank ≤ bits (ws.getD 3 0) 23 0))

/-- The formats that a job accepts. -/
def collFmtOk (op : CollOp) (grpOp c : Nat) : Bool :=
  let fp := decide (8 ≤ c) && decide (c ≤ 0xB)
  match op with
  | .bar => true
  | .ag | .bc => isIntFmt c || (decide (8 ≤ c) && decide (c ≤ 0xD))
  | .rs | .ar =>
    match grpOp with
    | 2 => fp
    | 3 | 4 => isIntFmt c || fp
    | _ => isIntFmt c

/-- Enqueue a round's job once the cluster's queue of its priority has a free entry; where the round has been
cancelled, there is no job (R302). -/
def enqueueColl (s : State) (ins : Instr) (i : Fin 8) (p : Fin 4) (n : Nat) : State :=
  let k := cluOf s.cur.pos
  if (roundAt (s.grpAt s.me.tid.vc i) n).isNone then s
  else if 16 ≤ ((s.cluster k).coll.filter fun j => j.prio == p).length then s.park ins 2 [BitVec.ofNat 64 n] .poll
  else
    let v := s.me.tid.vc
    s.updCluster k fun c =>
      { c with coll := c.coll ++ [{ vc := v, n := i, gid := (s.grpAt v i).gid, prio := p, round := n }] }

end State

/-- GCOL (R298). -/
def execGcol (g : Fin 8) (ra rb : Reg) (p : Fin 4) (op : CollOp) (s : State) : Res :=
  let a := s.g ra
  let b := s.g rb
  let ins := Instr.gcol g ra rb p op
  let n := (s.cur.held.getD 0 0).toNat
  .next
    (match s.cur.phase with
     | 0 =>
       s.atHome ins a
         (if s.cur.slot ≠ 15 then s.illegal
          else
            s.withGrp ins g a fun x =>
              if a.toNat % 32 ≠ 0 then s.trap .align a
              else
                match s.localRange a 32 with
                | none => s.trap .localRange a
                | some pa =>
                  if s.spadPoisoned s.cur.pos pa 32 then s.trap .checkFail a
                  else
                    let ws := s.spadWords4 s.cur.pos pa
                    let d := State.descOf op ws b
                    if State.descBad op x.nrank ws b then s.trap .illegal a
                    else if !State.collFmtOk op x.op d.fmt then s.trap .format 0
                    else
                      s.withWindow x.obj x.gid
                        ((s.startRound s.me.tid.vc g (some d)).release .sys ins 1 [x.seq.setWidth 64] fun t =>
                          t.enqueueColl ins g p x.seq.toNat))
     | 1 => (s.released .sys).enqueueColl ins g p n
     | _ => s.enqueueColl ins g p n)

namespace State

/-! ### Chunks of collective jobs (R299) -/

/-- Where a window element of a rank is by a record (R264, R299): the tests of R180 with the job's width. -/
def recordElem (s : State) (v : Nat) (g : Grp) (r : Rec) (fmt idx : Nat) (perm : Rec → Bool) : Loc :=
  if !r.ok then .bad .objInvalid
  else
    match elemTests r 0 perm (some (fmtBytes fmt)) idx with
    | some (c, _) => .bad c
    | none => s.hartReq (s.posOf v) (tableBase (s.vcore v).ortb) g.obj r idx perm

/-- Where a window element of a rank is. -/
def windowElem (s : State) (v : Nat) (g : Grp) (fmt idx : Nat) (perm : Rec → Bool) : Loc :=
  match s.hartRecord (s.posOf v) v g.obj with
  | none => s.recordLoc v g.obj
  | some r => s.recordElem v g r fmt idx perm

/-- Where an element of a cancelled round's OUT is, in a window that has been revoked too (R302, R304). -/
def cancelledElem (s : State) (v : Nat) (g : Grp) (fmt idx : Nat) : Loc :=
  match s.hartRecord (s.posOf v) v g.obj with
  | none => .stay
  | some r => s.recordElem v g (vput r 5 (setBits (r.get 5) 7 7 0)) fmt idx Rec.permW

/-- The bytes of an element as the hart reads them, with their poison: none while one cannot be read. -/
def hartBytes (s : State) (q : Req) : Nat → Option ((List Byte × Bool) × State)
  | 0 => some (([], false), s)
  | n + 1 =>
    match s.hartBytes q n with
    | none => none
    | some (x, t) => (t.hartRead (reqByte q n)).map fun y => ((x.1 ++ [y.1.1], x.2 || y.1.2), y.2)

/-- FAULT with a cause replaces OK and POISONED; POISONED replaces OK (R297, R299). -/
def faulted (c : Nat) (r : Round) : Round := if r.status = 3 then r else { r with status := 3, cause := c }
def spoilt (b : Bool) (r : Round) : Round := if b && r.status == 0 then { r with status := 4 } else r

/-- Change a collective job in its queue. -/
def updColl (s : State) (k : Nat) (j : CollJob) (f : CollJob → CollJob) : State :=
  s.updCluster k fun x => { x with coll := x.coll.map fun y => if y = j then f y else y }

/-- A failing element of IN at chunk c stops a rank's job (R299). -/
def stopJob (s : State) (j : CollJob) (c : Cause) : State :=
  s.updRound j.vc j.n j.round fun r => faulted c.code { r with stopped := some (c.code, j.chunk) }

/-- Does the traffic of a group between a vcore and the root find a way (R385)? -/
def treeJoins (s : State) (v gid : Nat) : Bool :=
  s.dieRuns (dieOf (s.posOf v)) && s.climbs gid 8 (dieOf (s.posOf v))

/-- The next element of a queued collective job, or its chunk's contribution; none where it holds no reservation or
waits.  The answer says whether the hart is in the middle of a chunk. -/
def collChunk (s : State) (k : Nat) (j : CollJob) : Option (State × Bool) :=
  let g := s.grpAt j.vc j.n
  match roundAt g j.round with
  | none => none
  | some r =>
    match r.desc with
    | none => none
    | some d =>
      let sp := chunkSpan d j.chunk
      if r.granted ≤ j.chunk || s.cancelling g.gid j.vc j.round then none
      else if r.stopped.isNone && j.buf.length < sp.2 then
        let i := d.inn + sp.1 + j.buf.length
        match s.windowElem j.vc g d.fmt i Rec.permR with
        | .bad c => some (s.stopJob j c, false)
        | .mem q =>
          (s.hartBytes q (fmtBytes d.fmt)).map fun y =>
            ((y.2.updRound j.vc j.n j.round (spoilt y.1.2)).updColl k j fun z =>
              { z with buf := z.buf ++ [(ofBytes y.1.1, y.1.2)], going := true, begun := true }, true)
        | l => (s.askLoc l).map fun t => (t.updColl k j fun z => { z with begun := true }, false)
      else if !s.treeJoins j.vc g.gid then none
      else
        let c : Contrib := match r.stopped with
          | some x => { rank := g.rank, chunk := j.chunk, marked := some x.1 }
          | none => { rank := g.rank, chunk := j.chunk, elems := j.buf }
        some
          ((s.contribute g j.vc j.round (some d) c).updCluster k fun x =>
            { x with
              coll :=
                if chunkCount (some d) ≤ j.chunk + 1 then x.coll.filter fun y => !(y == j)
                else x.coll.map fun y => if y = j then { j with chunk := j.chunk + 1, buf := [], going := false } else y },
            false)

/-- Does the hart stay at a collective job, whose next element it cannot read, or whose chunk it cannot send, for none of
R256's reasons (R300)? -/
def collStays (s : State) (j : CollJob) : Bool :=
  let g := s.grpAt j.vc j.n
  match roundAt g j.round with
  | none => false
  | some r =>
    match r.desc with
    | none => false
    | some d =>
      let sp := chunkSpan d j.chunk
      if r.granted ≤ j.chunk || s.cancelling g.gid j.vc j.round then false
      else if r.stopped.isSome || decide (sp.2 ≤ j.buf.length) then !s.treeJoins j.vc g.gid
      else
        match s.windowElem j.vc g d.fmt (d.inn + sp.1 + j.buf.length) Rec.permR with
        | .stay => true
        | .mem q => (s.hartBytes q (fmtBytes d.fmt)).isNone
        | _ => false

/-- What a hart that looks at some work does: it passes over it, or it stays there (none), or it does the next piece,
and may then be in the middle of a chunk. -/
abbrev Offer := Option (Option (State × Bool))

/-- A piece of work, or whether the hart stays. -/
def offer (x : Option (State × Bool)) (stays : Bool) : Offer :=
  match x with
  | some y => some (some y)
  | none => if stays then some none else none

/-- What the first of a list of collective jobs that the hart does not pass over offers; no other is in the middle of its
chunk then. -/
def collOffer (s : State) (k : Nat) (l : List CollJob) : Offer :=
  firstSome (fun j => offer (s.collChunk k j) (s.collStays j)) l

/-- The hart's work (R300): channel n, or 8 and the priority of a collective queue, whose oldest job that can run comes
first. -/
def hartOffer (s : State) (k u : Nat) : Offer :=
  if u < 8 then offer (s.channelChunk (8 * k + u)) (s.channelStays (8 * k + u))
  else s.collOffer k ((s.cluster k).coll.filter fun j => j.prio == Fin.ofNat 4 (u - 8))

/-- The work that the hart is in the middle of a chunk of. -/
def hartGoes (s : State) (k u : Nat) : Offer :=
  if u < 8 then s.hartOffer k u else s.collOffer k ((s.cluster k).coll.filter (·.going))

/-- The hart has done a piece of work: where it is in the middle of a chunk then, no other job is. -/
def hartDone (s : State) (k u : Nat) (x : State × Bool) : State :=
  let going (j : CollJob) : Bool := x.2 && decide (8 ≤ u) && !(s.cluster k).coll.contains j && j.going
  x.1.updCluster k fun y =>
    { y with
      running := if x.2 then some u else none, turn := if u < 9 then (u + 1) % 9 else y.turn
      coll := y.coll.map fun j => { j with going := going j } }

/-- The hart goes on in the middle of a chunk; at a boundary, or where that job waits for one of R256's reasons, it
chooses by priority, then by turn among the channels and .P0 (R300). -/
def hartChunk (s : State) (k : Nat) : Option State :=
  let c := s.cluster k
  let put (u : Nat) (o : Offer) : Option (Option State) := o.map fun x => x.map (s.hartDone k u)
  if !s.dieRuns (k / 64) then none
  else
    let mid := match c.running with
      | some u => put u (s.hartGoes k u)
      | none => none
    (mid.or (firstSome (fun u => put u (s.hartOffer k u))
      ([11, 10, 9] ++ (List.range 9).map fun i => (c.turn + i) % 9))).join

end State

/-- COPY_CHUNK (R256, R300): the hart does the next piece of its work. -/
def execCopyChunk (clu : Nat) (s : State) : Res := .next ((s.hartChunk clu).getD s)

namespace State

/-! ### Reservations and delivery (R295, R299, R301) -/

/-- The round of a register that is running: the first that is neither complete nor cancelled. -/
def running (g : Grp) : Option Round := g.rounds.find? fun r => !r.complete && !r.cancelled

/-- Is a rank's job of a round in its hart's queues? -/
def jobQueued (s : State) (v : Nat) (i : Fin 8) (n : Nat) : Bool :=
  s.clusters.any fun c => c.2.coll.any fun j => j.vc == v && j.n == i && j.round == n

/-- Grant a chunk reservation to a rank (R295); a scalar contribution is then injected (R296). -/
def grant (s : State) (v : Nat) (i : Fin 8) : Option State :=
  let g := s.grpAt v i
  match running g with
  | none => none
  | some r =>
    if !mayBegin g r.n || chunkCount r.desc ≤ r.granted || r.delivered + 2 ≤ r.granted ||
        s.cancelling g.gid v r.n then none
    else
      let t := s.updRound v i r.n fun r => { r with granted := r.granted + 1 }
      match r.desc, r.wait with
      | none, none => none
      | none, some (k, w) =>
        some (((t.updRound v i r.n fun r => { r with wait := none }).contribute g v r.n none
          { rank := g.rank, chunk := 0, elems := [(w.toNat, false)] }).endToken k fun x => x)
      | some _, _ => if s.jobQueued v i r.n then some t else none

/-- What a delivered chunk writes at a rank: element, value and poison; and the cause of a marked
contribution among those that its results include (R299). -/
def deliveries (g : Grp) (d : CollDesc) (c : Nat) (parts : List Contrib) (sum : List (Nat × Bool)) :
    List (Nat × Nat × Bool) × Option Nat :=
  let sp := chunkSpan d c
  let marked := firstSome Contrib.marked parts
  let put (off : Nat) (es : List (Nat × Bool)) : List (Nat × Nat × Bool) :=
    es.zipIdx.map fun e => (d.out + off + e.2, e.1)
  match d.op with
  | .bar => ([], none)
  | .ar => if marked.isSome then ([], marked) else (put sp.1 sum, none)
  | .rs =>
    let per := d.count / g.nrank
    let mine := (List.range sp.2).filter fun j => (sp.1 + j) / per == g.rank
    if mine.isEmpty then ([], none)
    else if marked.isSome then ([], marked)
    else
      (mine.map fun j => (d.out + (sp.1 + j) % per, sum.getD j (0, false)), none)
  | .ag => ((parts.filter fun p => p.marked.isNone).flatMap fun p => put (p.rank * d.count + sp.1) p.elems, marked)
  | .bc =>
    match parts.find? fun p => p.rank == d.root with
    | some p => if p.marked.isSome then ([], p.marked) else (put sp.1 p.elems, none)
    | none => ([], none)

/-- Does the write of a result complete a line that its delivery has written whole from clean elements (R359)? -/
def wholeLine (s : State) (v : Nat) (g : Grp) (fmt : Nat) (es : List (Nat × Nat × Bool)) (m : Nat) (q : Req) : Bool :=
  let n := fmtBytes fmt
  q.hpa % 64 + n == 64 && (List.range (64 / n)).all fun k =>
    match es[m - k]? with
    | some e => k ≤ m && !e.2.2 &&
        (match s.windowElem v g fmt e.1 Rec.permW with
         | .mem x => x.hpa + k * n == q.hpa
         | _ => false)
    | none => false

/-- An access of a rank's running round has been revoked (R304) or dropped (R358): FAULT, REVOKED. -/
def dropColl (s : State) (v : Nat) (i : Fin 8) : State :=
  match running (s.grpAt v i) with
  | none => s
  | some r =>
    s.updRound v i r.n fun r => faulted Cause.revoked.code { r with stopped := some (Cause.revoked.code, r.delivered) }

/-- The job or round whose write a copy hart's buffer held loses it. -/
def dropHart (s : State) (t : Tid) : State :=
  if 2 ^ 37 ≤ t.vc then s.dropColl (t.vc - 2 ^ 37) (Fin.ofNat 8 t.tnum.val)
  else if 2 ^ 36 < t.vc then s.dropCopy (t.vc - 2 ^ 36 - 1)
  else s

/-- Has the partition another package, whose ranks this one does not see? -/
def spread (s : State) : Bool := s.part.packages.any fun p => p != s.pkg

/-- The contributions of a chunk from ranks that no vcore of this package is bound to (R296, R299): free values, free
poison, and a free choice whether such a rank's IN has failed, with a free cause; one that has stopped stays so (log
entry 5). -/
def fillRemote (s : State) (g : Grp) (n c : Nat) (d : Option CollDesc) : State :=
  let here := (s.members g.gid).map fun m => (s.grpAt m.1 m.2).rank
  let m := match d with
    | none => 1
    | some d => (chunkSpan d c).2
  let before : List Contrib := (((s.tree g.gid).rounds.find? fun r => r.n == n).map (·.parts)).getD []
  ((List.range g.nrank).filter fun r => !here.contains r).foldl (fun t r =>
    let old := firstSome Contrib.marked (before.filter fun p => p.rank == r && decide (p.chunk < c))
    let b := t.coin
    let k := b.2.pick 6
    let cause : Cause := [Cause.outOfShape, .objPerm, .objInvalid, .residency, .revoked, .format].getD k.1 .objPerm
    let mark : Option Nat := if d.isNone then none else old.or (if b.1 then some cause.code else none)
    let t := k.2
    let es := (List.range m).foldl (fun (x : List (Nat × Bool) × State) _ =>
      let w := x.2.freeWord
      let size := match d with
        | none => 64
        | some d => fmtBits d.fmt
      let p := w.2.coin
      (x.1 ++ [(w.1.toNat % 2 ^ size, d.isSome && p.1)], p.2)) ([], t)
    es.2.contribute g (2 ^ 36) n d { rank := r, chunk := c, elems := if mark.isSome then [] else es.1, marked := mark }) s

/-- Has the tree what a rank's delivery of a chunk needs: every rank's part, and of .BC ROOT's (R299, R301)? -/
def partsHere (g : Grp) (d : Option CollDesc) (parts : List Contrib) : Bool :=
  let all := parts.length == g.nrank
  match d with
  | some d => if d.op = .bc then parts.any fun p => p.rank == d.root else all
  | none => all

/-- Deliver the next result of a rank's running round, or end its chunk (R299, R301).  The hart of the rank's cluster
writes the results (R254), and the round is complete once all its writes are performed and its job, which may still read
IN of a .BC, has left the queue. -/
def deliverChunk (s : State) (v : Nat) (i : Fin 8) : Option State :=
  let g := s.grpAt v i
  match running g with
  | none => none
  | some r =>
    let c := r.delivered
    match (s.tree g.gid).rounds.find? fun t => t.n == r.n with
    | none => none
    | some tr =>
      let parts := tr.parts.filter fun p => p.chunk == c
      if !partsHere g r.desc parts || r.granted ≤ c || s.cancelling g.gid v r.n then none
      else
        let sum := (tr.sums.get c).getD []
        let finish (f : Round → Round) : Option State :=
          let over' := decide (chunkCount r.desc ≤ c + 1)
          if over' && (s.hartOwes (s.posOf v) (collTid v i) || s.jobQueued v i r.n) then none
          else
            let g' (r : Round) : Round := f { r with delivered := c + 1, put := 0, complete := over' }
            let t := s.updRound v i r.n g'
            some (if over' then (t.roundComplete g r.n).endReaders (g' r) else t)
        match r.desc with
        | none => finish fun r => { r with result := BitVec.ofNat 64 (sum.headD (0, false)).1 }
        | some d =>
          let x := deliveries g d c parts sum
          let es := if r.barred || r.stopped.any fun k => decide (k.2 ≤ c) then [] else x.1
          match es[r.put]? with
          | none =>
            finish fun r => match x.2 with
              | some c => faulted c r
              | none => r
          | some e =>
            match s.windowElem v g d.fmt e.1 Rec.permW with
            | .bad w => some (s.updRound v i r.n fun r => faulted w.code { r with barred := true })
            | .mem q =>
              if !s.locOpen (.mem q) then none
              else
                let po := if e.2.2 then some true else if s.wholeLine v g d.fmt es r.put q then some false else none
                let w := Access.copied (toBytes (fmtBytes d.fmt) e.2.1) 0xFF po
                some ((s.pushEntry q.pos (collTid v i) (.obj { q with acc := w, n := fmtBytes d.fmt })).updRound v i r.n
                  fun r => spoilt e.2.2 { r with put := r.put + 1 })
            | l => s.askLoc l

/-- The registers of a vcore that are bound to a group whose root it reaches. -/
def boundTo (s : State) (v gid : Nat) : List (Fin 8) :=
  (List.finRange 8).filter fun i => (s.grpAt v i).bound && (s.grpAt v i).gid == gid && s.treeJoins v gid

/-- Spahan gives up the granule that a rank's running round waits for (R264, R299): of IN, or else of OUT. -/
def abandonColl (s : State) (v : Nat) (i : Fin 8) : State :=
  let g := s.grpAt v i
  let k := cluOf (s.posOf v)
  match running g with
  | none => s
  | some r =>
    match r.desc with
    | none => s
    | some d =>
      let job := (s.cluster k).coll.find? fun j => j.vc == v && j.n == i && j.round == r.n
      let absent (idx : Nat) (perm : Rec → Bool) : Bool :=
        match s.windowElem v g d.fmt idx perm with
        | .absent _ => true
        | _ => false
      let inn := job.any fun j => r.stopped.isNone && absent (d.inn + (chunkSpan d j.chunk).1 + j.buf.length) Rec.permR
      match job, inn with
      | some j, true => s.stopJob j .residency
      | _, _ =>
        let parts := ((s.tree g.gid).rounds.find? fun t => t.n == r.n).map fun t =>
          (t.parts.filter fun p => p.chunk == r.delivered, (t.sums.get r.delivered).getD [])
        match parts with
        | none => s
        | some (ps, sum) =>
          match (deliveries g d r.delivered ps sum).1[r.put]? with
          | some e =>
            if partsHere g r.desc ps && !r.barred && absent e.1 Rec.permW then
              s.updRound v i r.n fun r => faulted Cause.residency.code { r with barred := true }
            else s
          | none => s

end State

/-- RESERVATION_GRANT (R295). -/
def execReservationGrant (vc gid : Nat) (s : State) : Res :=
  .next ((firstSome (s.grant vc) (s.boundTo vc gid)).getD s)

/-- COLLECTIVE_DELIVERY (R299); where the partition spans packages, it may bring the parts of their
ranks. -/
def execCollectiveDelivery (vc gid : Nat) (s : State) : Res :=
  let go (t : State) : Option State := firstSome (t.deliverChunk vc) (s.boundTo vc gid)
  .next
    (match go s with
     | some t => t
     | none =>
       if !s.spread then s
       else
         (go ((s.boundTo vc gid).foldl (fun t i =>
           let g := t.grpAt vc i
           match State.running g with
           | some r => t.fillRemote g r.n r.delivered r.desc
           | none => t) s)).getD s)

namespace State

/-- A completion notice reaches a rank (R292). -/
def notice (s : State) (v : Nat) (i : Fin 8) : Option State :=
  let g := s.grpAt v i
  if g.noticed < (s.tree g.gid).fin && !s.cancelling g.gid v g.noticed &&
      g.rounds.any fun r => r.n == g.noticed && r.complete && !r.cancelled then
    some (s.updGrp v i fun g => { g with noticed := g.noticed + 1 })
  else none

/-- With ranks in other packages, the root's notice may come once every rank here is complete. -/
def rootFinish (s : State) (gid : Nat) : State :=
  let t := s.tree gid
  if s.spread && (s.members gid).all fun m =>
      (s.grpAt m.1 m.2).rounds.any fun r => r.n == t.fin && r.complete && !r.cancelled then
    s.updTree gid fun t => { t with rounds := t.rounds.filter fun r => r.n != t.fin, fin := t.fin + 1 }
  else s

end State

/-- COMPLETION_NOTICE (R292). -/
def execCompletionNotice (vc gid : Nat) (s : State) : Res :=
  let go (t : State) : Option State := firstSome (t.notice vc) (s.boundTo vc gid)
  .next ((go s).getD ((go (s.rootFinish gid)).getD s))

namespace State

/-! ### Abort (R302, R304) -/

/-- A cancel of round n and later reaches the root: it is sent down to every member; aborts at once apply
the smallest n once. -/
def cancelGroup (s : State) (gid n : Nat) (tokens : List Nat) : State :=
  let all := (s.members gid).map (·.1)
  s.updTree gid fun t =>
    let cut (t : Tree) (n : Nat) : Tree :=
      { t with rounds := t.rounds.filter fun r => decide (r.n < n), fin := min t.fin n }
    match t.cancels.find? fun c => c.left == all with
    | some c =>
      { cut t (min n c.n) with
        cancels := t.cancels.map fun d =>
          if d = c then { c with n := min n c.n, tokens := c.tokens ++ tokens } else d }
    | none => { cut t n with cancels := t.cancels ++ [{ n := n, left := all, tokens := tokens }] }

/-- The halves of a vcore's threads that wait on a cancelled round (R302): GST and GCOL complete, GLD traps. -/
def cancelHalves (s : State) (v : Nat) (i : Fin 8) (n : Nat) : State :=
  s.threads.foldl (fun t pj =>
    let x := t.slotAt pj.1 pj.2
    match x.pendC with
    | some q =>
      let m := (q.held.getD 0 0).toNat
      if x.tid.vc ≠ v || q.phase = 0 || m < n then t
      else
        match q.ins with
        | .gst g _ => if g = i then t.endHalf pj.1 pj.2 false else t
        | .gcol g _ _ _ _ => if g = i then t.endHalf pj.1 pj.2 false else t
        | .gld _ g =>
          if g = i then t.enterTrap pj.1 pj.2 .collectiveAbort false x.ipc (BitVec.ofNat 64 m) else t
        | _ => t
    | none => t) s

/-- The halves of movement threads that a fold has saved: a GST ends, and a GLD is tried again, and traps (R141). -/
def cancelSaved (s : State) (r : Round) : State :=
  let t := r.readers.foldl (fun t k => t.pollToken k.1) s
  match r.wait with
  | some (k, _) => t.endToken k fun x => x
  | none => t

/-- The bytes of OUT of a cancelled round may hold anything (log entry 8). -/
def spoilOut (s : State) (v : Nat) (g : Grp) (d : CollDesc) : State :=
  let m := match d.op with
    | .ar | .bc => d.count
    | .rs => d.count / g.nrank
    | .ag => d.count * g.nrank
    | .bar => 0
  let n := fmtBytes d.fmt
  (List.range m).foldl (fun t i =>
    match t.cancelledElem v g d.fmt (d.out + i) with
    | .mem q =>
      let bs := (List.range n).map fun k => Config.cancelled (t.tick + k)
      { t.memWrite q.hpa bs with tick := t.tick + n }
    | _ => t) s

/-- A cancel reaches a rank's register; OUT of each round that it cancels is open, of a round complete here too. -/
def cancelRank (s : State) (v : Nat) (i : Fin 8) (n : Nat) : State :=
  let g := s.grpAt v i
  let lost := g.rounds.filter fun r => !r.cancelled && decide (n ≤ r.n)
  let t := lost.foldl (fun t r => match r.desc with
    | some d => t.spoilOut v g d
    | none => t) s
  let u := (lost.foldl cancelSaved (t.cancelHalves v i n)).updGrp v i fun g =>
    { g with
      seq := if n < g.seq.toNat then BitVec.ofNat 32 n else g.seq
      noticed := min g.noticed n
      rounds := g.rounds.map fun r =>
        if n ≤ r.n then { r with cancelled := true, wait := none, readers := [] } else r }
  { u with clusters := u.clusters.map fun c =>
      (c.1, { c.2 with coll := c.2.coll.filter fun j => !(j.vc == v && j.n == i && decide (n ≤ j.round)) }) }

/-- The first cancel of a group that has a vcore to reach. -/
def cancelFor (s : State) (v gid : Nat) : Option Cancel :=
  (s.tree gid).cancels.find? fun c => c.left.contains v

/-- Every rank has acknowledged a cancel: the GABTs end. -/
def endCancel (s : State) (gid : Nat) (c : Cancel) : State :=
  c.tokens.foldl (fun t k => t.endToken k fun x => x)
    (s.updTree gid fun x => { x with cancels := x.cancels.filter fun d => d != c })

/-- Has a group ranks in other packages, as far as the package knows? -/
def rankAway (s : State) (gid : Nat) : Bool := s.spread && !s.allBound gid

/-- A vcore carries out a cancel and acknowledges; the last acknowledgement ends the GABTs, but those of ranks in other
packages are still to come. -/
def cancelMember (s : State) (v gid : Nat) : State :=
  match s.cancelFor v gid with
  | none => s
  | some c =>
    let mine := (List.finRange 8).filter fun i => (s.grpAt v i).bound && (s.grpAt v i).gid == gid
    let t := mine.foldl (fun t i => t.cancelRank v i c.n) s
    let left := c.left.filter fun w => w != v
    if left.isEmpty && !s.rankAway gid then t.endCancel gid c
    else t.updTree gid fun x =>
      { x with cancels := x.cancels.map fun d => if d = c then { c with left := left } else d }

/-- A cancel reaches a vcore that the root's way reaches (R385), once the writes of its rounds that the hart has made
are performed. -/
def cancelAt (s : State) (v gid : Nat) : State :=
  let mine := (List.finRange 8).filter fun i => (s.grpAt v i).bound && (s.grpAt v i).gid == gid
  if mine.isEmpty || (s.treeJoins v gid && !mine.any fun i => s.hartOwes (s.posOf v) (collTid v i)) then
    s.cancelMember v gid else s

end State

namespace State

/-- An abort reaches the root once the group's way climbs there (R385), and waits for the acknowledgements (R302). -/
def abort (s : State) (ins : Instr) (gid n : Nat) : State :=
  if !s.treeJoins s.me.tid.vc gid then s.park ins 2 [BitVec.ofNat 64 gid] .poll
  else
    let k := s.fresh1
    (k.2.cancelGroup gid n [k.1]).park ins 1 [] (.token k.1)

/-- What a group's ranks in other packages do to its cancels, at a free time (log entry 5): the acknowledgements that are
still due come, or a rank there aborts a round of which it does not hold the notice. -/
def cancelAway (s : State) (gid : Nat) : State :=
  if !s.rankAway gid then s
  else
    match (s.tree gid).cancels.find? fun c => c.left.isEmpty with
    | some c => s.endCancel gid c
    | none => let w := s.freeWord; w.2.cancelGroup gid ((s.tree gid).fin - 1 + w.1.toNat) []

end State

/-- GABT (R302). -/
def execGabt (g : Fin 8) (ra : Reg) (s : State) : Res :=
  let a := s.g ra
  .next
    (if s.cur.phase = 0 then
      s.withGrp (.gabt g ra) g a fun x =>
        if bits a 63 32 ≠ 0 then s.trap .illegal a
        else if x.seq.toNat ≤ a.toNat || decide (a.toNat < x.noticed) then s
        else s.abort (.gabt g ra) x.gid a.toNat
     else s.abort (.gabt g ra) (s.cur.held.getD 0 0).toNat a.toNat)

/-- ROUND_CANCEL (R302). -/
def execRoundCancel (vc gid : Nat) (s : State) : Res :=
  .next (if (s.cancelFor vc gid).isSome then s.cancelAt vc gid else s.cancelAway gid)

/-! ### Winnow (R305) -/

namespace State

/-- The list enters the network on the group's channel. -/
def sendList (s : State) (gid fmt nrank k : Nat) (ws : List Word) (off : Nat) (key : Word) : State :=
  let root := s.rootDie (dieOf s.cur.pos) gid
  s.inject
    { load := .klist gid key k fmt nrank ws off root, dst := 512 * root, die := dieOf s.cur.pos, key := s.part.key }

end State

/-- WNW (R305); `k` holds k − 1.  Across its release it keeps the group that it was issued for, and the list. -/
def execWnw (g : Fin 8) (ra rb : Reg) (k : Fin 8) (s : State) : Res :=
  let a := s.g ra
  let b := s.g rb
  let ins := Instr.wnw g ra rb k
  let n := k.val + 1
  .next
    (if s.cur.phase = 0 then
      s.withGrp ins g a fun x =>
        if x.wfmt = 0 then s.trap .illegal (BitVec.ofNat 64 g.val)
        else if a.toNat % 8 ≠ 0 then s.trap .align a
        else
          match s.localRange a (8 * n) with
          | none => s.trap .localRange a
          | some pa =>
            if bits b 39 36 ≠ 0 then s.trap .illegal b
            else
              s.withWindow x.obj x.gid
                (if s.spadPoisoned s.cur.pos pa (8 * n) then s.trap .checkFail a
                 else
                   let ws := (List.range n).map fun i => s.spad64 s.cur.pos (pa + 8 * i)
                   s.release .dev ins 1 ([x.gid, x.wfmt, x.nrank].map (BitVec.ofNat 64) ++ ws) fun t =>
                     t.sendList x.gid x.wfmt x.nrank n ws a.toNat b)
     else
       let h (i : Nat) : Nat := (s.cur.held.getD i 0).toNat
       (s.released .dev).sendList (h 0) (h 1) (h 2) n (s.cur.held.drop 3) a.toNat b)

namespace State

/-- The merged list of a key leaves the root for the continuation's home vcore; another package takes it
over. -/
def winnowDone (s : State) (d : Nat) (w : WSlot) : State :=
  let v := bits w.key 35 0
  if pkgOf v ≠ s.pkg then s
  else s.inject { load := .winnow w.key w.list w.off, dst := s.posOf v, die := d, key := s.part.key }

/-- A k-list is merged into its key's slot at the root's unit (R305); a 65th key waits. -/
def winnowMerge (s : State) (id gid : Nat) (key : Word) (k fmt nrank : Nat) (ws : List Word) (off d : Nat) :
    State :=
  let slots := (s.die d).winnow
  let put (w : WSlot) (rest : List WSlot) : State :=
    let t := s.dropItem id
    if w.lists < w.nrank then t.updDie d fun x => { x with winnow := rest ++ [w] }
    else (t.updDie d fun x => { x with winnow := rest }).winnowDone d w
  match slots.find? fun w => w.gid == gid && w.key == key with
  | some w =>
    put { w with lists := w.lists + 1, list := mergeLists w.fmt w.k w.list ws }
      (slots.filter fun x => !(x.gid == gid && x.key == key))
  | none =>
    if 64 ≤ slots.length then s
    else put { gid := gid, key := key, k := k, fmt := fmt, nrank := nrank, lists := 1, list := ws, off := off } slots

/-- A list that a rank of another package has sent is merged into slot j of a die's Winnow unit: its entries are free
(log entry 5). -/
def winnowRemote (s : State) (d j : Nat) : State :=
  match (s.die d).winnow[j]? with
  | none => s
  | some w =>
    if !s.spread || w.nrank ≤ (s.members w.gid).length + w.remote then s
    else
      let ws := (List.range w.k).foldl (fun (x : List Word × State) _ =>
        let y := x.2.freeWord
        (x.1 ++ [y.1], y.2)) ([], s)
      let x : WSlot :=
        { w with lists := w.lists + 1, remote := w.remote + 1, list := mergeLists w.fmt w.k w.list ws.1 }
      let t := ws.2.updDie d fun y =>
        { y with winnow := if x.lists < x.nrank then y.winnow.set j x else y.winnow.eraseIdx j }
      if x.lists < x.nrank then t else t.winnowDone d x

/-- The root's list and payload at the continuation's home vcore (R305): the list as posted stores, then the
best entry, or the filler where the list would lie outside the segment. -/
def winnowHere (s : State) (id : Nat) (key : Word) (ws : List Word) (off p : Nat) : State :=
  let v := bits key 35 0
  let n := 8 * ws.length
  let fits := decide (off + n ≤ segLimit (s.keptSeg v))
  if fits && (decide (32 < (s.core p).buffer.length + ws.length) || !s.bankOpen p) then s
  else
    let pay := if fits then ws.headD filler else filler
    match s.deliver (contTid key) (contReg key) pay with
    | none => s
    | some t =>
      let base := segBase (s.keptSeg v) + off
      (if fits then
        ws.zipIdx.foldl (fun t w =>
          ((t.spadWrite p (base + 8 * w.2) (toBytes 8 w.1.toNat)).bankMark p 16).pushEntry p noTid
            (.scratch (base + 8 * w.2) 8)) t
       else t).dropItem id

end State

/-- WINNOW_MERGE (R305): a list reaches the root, or the merged list goes one hop on or is delivered.  A number of
2 ^ 40 + 64 × die + slot stands for a list that another package's rank sends. -/
def execWinnowMerge (id : Nat) (s : State) : Res :=
  .next
    (match s.net.get id with
     | some x =>
       match x.load with
       | .klist gid key k fmt nrank ws off d => if s.travels x then s.winnowMerge id gid key k fmt nrank ws off d else s
       | .winnow key ws off =>
         if !s.travels x then s
         else
         match s.hop (bits key 35 0) x.dst with
         | .next p => s.route id x p
         | .wait => s
         | .exited => s.dropItem id
         | .here => s.winnowHere id key ws off x.dst
       | _ => s
     | none => if 2 ^ 40 ≤ id then s.winnowRemote ((id - 2 ^ 40) / 64) (id % 64) else s)

/-- A sheaf entry as its fields hold it: the reserved bits stay zero (R7, R294). -/
def Sheaf.masked (e : Sheaf) : Sheaf := e &&& ~~~(BitVec.ofNat 128 (0x7F * 2 ^ 112 + 0xFF * 2 ^ 96))

/-- SHEAF_TABLE_WRITE (R294): the entry of its group; the first valid one starts the group at round 0, and a later
one leaves its rounds as they are (log entry 41). -/
def execSheafTableWrite (die : Nat) (entry : BitVec 128) (s : State) : Res :=
  let e := Sheaf.masked entry
  let g := Sheaf.gid e
  let rest := (s.die die).sheaf.filter fun e => Sheaf.gid e != g
  let standing := (List.range 8).any fun d => (s.sheafOf d g).isSome
  let t : State := if Sheaf.ok e && !standing then { s with trees := s.trees.del g } else s
  .next
    (if !e.getLsbD 127 then s.updDie die fun d => { d with sheaf := rest }
     else if 1024 ≤ rest.length then s
     else t.updDie die fun d => { d with sheaf := rest ++ [e] })

end Sys2Proof.Machine
end

