-- ==== Sys2Proof/Machine/Swath.lean ====
section
/-! DEFINITION. Swath streams, recording and replay, C-class majors 0x70 to 0x77, and the events
RECORDED_TRANSFER_ARRIVAL and SWATH_ACKNOWLEDGEMENT (R306-R323). -/

namespace Sys2Proof.Machine

namespace State

/-! ### Streams and entries (R306-R309) -/

def strAt (s : State) (v : Nat) (i : Fin 4) : Stream := (s.vcore v).str.get i

def updStr (s : State) (v : Nat) (i : Fin 4) (f : Stream → Stream) : State :=
  s.updVcore v fun x => { x with str := vput x.str i (f (x.str.get i)) }

/-- The cluster port at which a core injects, and its port store as 256 × die + port (R308). -/
def clusterPort (pos : Nat) : Nat := 2 * torusOf pos + pos % 8 / 4
def portStore (pos : Nat) : Nat := 256 * dieOf pos + clusterPort pos

/-- Entries in use in a port store. -/
def portUse (s : State) (ps : Nat) : Nat :=
  (s.vcores.flatMap fun v => v.2.str.toList.flatMap fun x => x.entries.filter fun e => e.2.port == some ps).length

/-- Is a spill position of a stream busy? -/
def spillBusy (x : Stream) (p : Nat) : Bool := x.entries.any fun e => e.2.port.isNone && e.2.spill == p

/-- Entry fields (R309). -/
def swStatus (w0 : Word) : Nat := bits w0 39 36
def setStatus (w0 : Word) (n : Nat) : Word := setBits w0 39 36 n

/-- A saturating counter (R314). -/
def inc16 (c : BitVec 16) : BitVec 16 := if c = 0xFFFF then c else c + 1

/-- Some entry of the stream awaits acknowledgement. -/
def strAwaits (x : Stream) : Bool := x.entries.any fun e => e.2.awaiting

/-- DLO moves past the dropped sequences that follow it (R313). -/
def advanceDlo (x : Stream) : Nat → Stream
  | 0 => x
  | n + 1 =>
    if x.dlo.toNat < x.next.toNat && (x.entries.get x.dlo.toNat).isNone then
      advanceDlo { x with dlo := x.dlo + 1 } n else x

/-- Drop a list of sequences (R308, R313). -/
def dropSeqs (x : Stream) (p : Nat → Bool) : Stream :=
  let y := { x with entries := x.entries.filter fun e => !p e.1 }
  advanceDlo y (y.next.toNat + 1)

/-- Continue at home with a stream (R306). -/
def withStream (s : State) (ins : Instr) (i : Fin 4) (tval : Word) (k : Stream → State) : State :=
  s.atHome ins tval (k (s.strAt s.me.tid.vc i))

/-- An element that something waits for: its table, object and index, and where it is. -/
structure Blk where
  tb : Nat
  obj : Nat
  i : Nat
  loc : Loc
  deriving DecidableEq, Repr

/-- What keeps an element away is reported (R173, R175). -/
def askBlk (s : State) (b : Blk) : State := (s.askLoc b.loc).getD s

/-- The running half parks until an element is there: one whose granule is absent or whose frame is not mapped is
reported, and the half goes on as soon as it is there (R173, R175). -/
def parkAt (s : State) (ins : Instr) (phase : Nat) (held : List Word) (b : Blk) : State :=
  match b.loc with
  | .absent k => (s.askBlk b).park ins phase held (.granule k.1 k.2.1 k.2.2)
  | .miss a => (s.askBlk b).park ins phase held (.frame a)
  | _ => s.park ins phase held .poll

/-- The base of a vcore's own object table (R167). -/
def ownTable (s : State) (v : Nat) : Nat := tableBase (s.vcore v).ortb

/-- Element i of a record of a table, as a core's cluster reaches it (R174, R177, R385). -/
def elemBlk (s : State) (p tb obj : Nat) (r : Rec) (i : Nat) (perm : Rec → Bool) : Blk :=
  { tb := tb, obj := obj, i := i
    loc := match s.hartElem p r i perm with
      | .absent k => .absent (tb, obj, k.2.2)
      | l => l }

/-- The wait for a record whose frame is not mapped (R173). -/
def recordBlk (tb obj : Nat) : Blk :=
  { tb := tb, obj := obj, i := 0, loc := .miss (tb + 64 * obj) }

/-- The record of an object of a vcore's table, as its core reads it at its home (R167, R385), or what that waits for. -/
def recordOf (s : State) (v obj : Nat) : Except Blk Rec :=
  let tb := s.ownTable v
  match s.hpaOf (tb + 64 * obj), s.fromHome (s.posOf v) tb obj with
  | none, _ => .error (recordBlk tb obj)
  | _, none => .error { tb := tb, obj := obj, i := 0, loc := .stay }
  | _, some r => .ok r

/-- A vcore's core has read the record of an object at its home (R192). -/
def recordSeen (s : State) (v obj : Nat) : State := if obj = 0 then s else s.recordRead (s.ownTable v) obj

/-- The first of some elements that is not there, but for those that fail a test. -/
def firstAway (l : List Blk) : Option Blk := l.find? fun b => match b.loc with
  | .bad _ => false
  | x => !x.ready

/-- Word k of a spill position: element 4p + k of the spill object. -/
def spillBlk (s : State) (v obj p k : Nat) (perm : Rec → Bool) : Blk :=
  match s.recordOf v obj with
  | .error b => b
  | .ok r =>
    let b : Blk := { tb := s.ownTable v, obj := obj, i := 4 * p + k, loc := .stay }
    if !r.ok then { b with loc := .bad .objInvalid }
    else
      match elemTests r 0 perm (some 8) (4 * p + k : Nat) with
      | some (c, _) => { b with loc := .bad c }
      | none => s.elemBlk (s.posOf v) (s.ownTable v) obj r (4 * p + k) perm

/-- The residency bytes of a spill position have been read (R192). -/
def spillSeen (s : State) (v obj p : Nat) : State :=
  match s.recordOf v obj with
  | .ok r => (List.range 4).foldl (fun t k => t.elemRead r (4 * p + k)) s
  | .error _ => s

/-- Write an entry at its spill position (R308, R310): status 0 becomes 5; or the word that it waits for.  A word
that fails its test is not written. -/
def spillWrite (s : State) (v obj p : Nat) (w : Vector Word 4) : Except Blk State :=
  let w := vput w 0 (if swStatus (w.get 0) = 0 then setStatus (w.get 0) 5 else w.get 0)
  let s := s.recordSeen v obj
  let l := (List.finRange 4).map fun k => (s.spillBlk v obj p k.val Rec.permW, w.get k)
  match firstAway (l.map (·.1)) with
  | some b => .error b
  | none =>
    .ok (l.foldl (fun t x => match x.1.loc with
      | .mem q => t.memWrite q.hpa (toBytes 8 x.2.toNat)
      | _ => t) (s.spillSeen v obj p))

/-- Read an entry from its spill position, or the word that it waits for; a word that fails its test reads as
0. -/
def spillRead (s : State) (v obj p : Nat) : Except Blk (List Word × State) :=
  let s := s.recordSeen v obj
  let l := (List.range 4).map fun k => s.spillBlk v obj p k Rec.permR
  match firstAway l with
  | some b => .error b
  | none =>
    .ok (l.foldl (fun (x : List Word × State) b => match b.loc with
      | .mem q => let y := x.2.memRead q.hpa 8; (x.1 ++ [BitVec.ofNat 64 (ofBytes y.1)], y.2)
      | _ => (x.1 ++ [0], x.2)) ([], s.spillSeen v obj p))

/-! ### SWOPEN, SWCLOSE, SWDROP, SWQRY (R311-R314) -/

/-- The end of SWOPEN, once no RPLY runs (R311), with the SWQ of the slot that the thread is in (R307). -/
def openStream (s : State) (i : Fin 4) (a b : Word) : State :=
  let v := s.me.tid.vc
  let x := s.strAt v i
  let q := bits s.me.regs.swq 24 0
  let d : BitVec 32 := BitVec.ofNat 32 (bits b 31 0)
  if x.isOpen then
    if bits a 63 40 ≠ x.spill && x.entries.any fun e => e.2.port.isNone then s.trap .illegal a
    else if q < x.entries.length then s.trap .illegal s.me.regs.swq
    else s.updStr v i fun y => { y with quota := q, spill := bits a 63 40, gdesc := d, rcmp := false }
  else s.updStr v i fun _ => { isOpen := true, quota := q, spill := bits a 63 40, gdesc := d }

/-- GDESC's checks (R87, R311). -/
def gdescOk (b : Word) : Bool :=
  let d := Desc.ofWord b
  d.ok && decide (8 ≤ d.fmt) && decide (d.fmt ≤ 0xD) && d.swz == 0

end State

/-- SWOPEN (R311): gb[63:32] not zero traps, as R311 says of SWOPEN alone, though R86 speaks of [63:32] as ignored (log
entry 84). -/
def execSwopen (i : Fin 4) (ra rb : Reg) (s : State) : Res :=
  let a := s.g ra
  let b := s.g rb
  let ins := Instr.swopen i ra rb
  let last (x : Stream) : State :=
    if x.isOpen && x.busy then s.park ins 1 [] .poll else s.openStream i a b
  .next (s.withStream ins i a fun x =>
    if s.cur.phase ≠ 0 then last x
    else if bits a 39 0 ≠ 0 then s.trap .illegal a
    else if bits b 63 32 ≠ 0 then s.trap .illegal b
    else
      let fmt : State := if State.gdescOk b then last x else s.trap .format 0
      if a = 0 then fmt
      else
        s.withRecord (State.objOf a) a fun r =>
          if r.rvk then s.trap .revoked a
          else if !r.permR || !r.permW then s.trap .objPerm a
          else if r.fmt ≠ 4 || r.rank ≠ 1 || r.tiled || decide (r.dim 0 < 4) then s.trap .format 0
          else fmt)

/-- SWCLOSE (R312). -/
def execSwclose (i : Fin 4) (s : State) : Res :=
  .next (s.withStream (.swclose i) i 0 fun x =>
    if !x.isOpen then s
    else if x.busy || State.strAwaits x then s.park (.swclose i) 1 [] .poll
    else
      s.updStr s.me.tid.vc i fun y => { State.dropSeqs y (fun _ => true) with isOpen := false })

/-- SWDROP (R313). -/
def execSwdrop (i : Fin 4) (ra rb : Reg) (s : State) : Res :=
  let a := s.g ra
  let b := s.g rb
  let ins := Instr.swdrop i ra rb
  let f := bits a 31 0
  let c := bits b 31 0
  .next (s.withStream ins i a fun x =>
    if s.cur.phase = 0 && !x.isOpen then s.trap .illegal (BitVec.ofNat 64 i.val)
    else if bits a 63 32 ≠ 0 then s.trap .illegal a
    else if bits b 62 32 ≠ 0 then s.trap .illegal b
    else
      let mine (n : Nat) : Bool := decide (f ≤ n) && decide (n < f + c)
      if x.busy || x.entries.any fun e => mine e.1 && e.2.awaiting then s.park ins 1 [] .poll
      else
        s.updStr s.me.tid.vc i fun y =>
          { State.dropSeqs y mine with rcmp := y.rcmp || bit b 63 })

/-- The words of SWQRY (R314). -/
def swqryWord (x : Stream) (w : SwqWord) : Word :=
  match w with
  | .state =>
    BitVec.ofNat 64 (x.isOpen.toNat * 2 ^ 63 + x.rcmp.toNat * 2 ^ 62 + x.busy.toNat * 2 ^ 61 +
      x.entries.length * 2 ^ 32 + x.next.toNat)
  | .counts =>
    BitVec.ofNat 64 (x.orphan.toNat * 2 ^ 48 + x.rerouted.toNat * 2 ^ 32 + x.moved.toNat * 2 ^ 16 +
      x.undelivered.toNat)
  | .faults => BitVec.ofNat 64 (x.dlo.toNat * 2 ^ 32 + x.bad.toNat * 2 ^ 16 + x.twinf.toNat)

/-- SWQRY (R314). -/
def execSwqry (i : Fin 4) (rd : Reg) (w : SwqWord) (s : State) : Res :=
  .next (s.withStream (.swqry i rd w) i 0 fun x => s.setG rd (swqryWord x w))

namespace State

/-! ### Recording (R315-R317) -/

/-- What a recording instruction is: its kind (R309), its group register, its operands. -/
structure Rcd where
  kind : Nat
  grp : Option (Fin 8)
  a : Word
  b : Word
  deriving DecidableEq, Repr

/-- LEN of gb. -/
def Rcd.len (r : Rcd) : Nat := bits r.b 47 36

/-- A field shown 0 is set, or LEN = 0 (R315). -/
def Rcd.bad (r : Rcd) : Bool :=
  r.len == 0 || (r.kind != 3 && bits r.b 63 48 != 0) || (r.kind == 1 && bits r.b 35 0 != 0)

/-- CAP of the spill object now (R308, R317), 0 without one; none while its record cannot be read (R173, R385). -/
def spillCap (s : State) (v obj : Nat) : Option Nat :=
  if obj = 0 then some 0 else match s.recordOf v obj with
    | .ok r => some (r.dim 0 / 4)
    | .error _ => none

/-- The spill position of a sequence, where it has one that is free; none while CAP cannot be read. -/
def spillAt (s : State) (v : Nat) (x : Stream) (seq : Nat) : Option (Option Nat) :=
  (s.spillCap v x.spill).map fun cap =>
    if cap = 0 || spillBusy x (seq % cap) then none else some (seq % cap)

/-- Where a new entry of a stream goes (R308), otherwise the TVAL of SWATH_FULL (R317); none while that cannot be
told. -/
def entryPlace (s : State) (v : Nat) (i : Fin 4) (x : Stream) : Option (Except Word (Option Nat × Nat)) :=
  let full (why : Nat) : Word := BitVec.ofNat 64 (why * 2 ^ 63 + i.val * 2 ^ 32 + x.next.toNat)
  let ps := portStore (s.posOf v)
  if x.quota ≤ x.entries.length || x.next = 0xFFFFFFFF then some (.error (full 0))
  else if s.portUse ps < 2048 then some (.ok (some ps, 0))
  else
    (s.spillAt v x x.next.toNat).map fun y => match y with
      | none => .error (full 1)
      | some p => .ok (none, p)

/-- The vcores a transfer goes to: for FWM every bound member but the issuer. -/
def receivers (s : State) (r : Rcd) (v gid : Nat) : List Nat :=
  if r.kind = 1 then ((s.members gid).map (·.1)).filter fun w => w != v else [bits r.b 35 0]

/-- The new entry's words (R315). -/
def newEntry (x : Stream) (r : Rcd) (v route : Nat) : Vector Word 4 :=
  let dest := if r.kind = 1 then v else bits r.b 35 0
  #v[BitVec.ofNat 64 (route * 2 ^ 48 + r.kind * 2 ^ 44 + (Desc.ofWord (x.gdesc.setWidth 64)).fmt * 2 ^ 40 +
       r.kind * 2 ^ 32 + x.next.toNat),
     r.a, BitVec.ofNat 64 (r.len * 2 ^ 36 + dest), BitVec.allOnes 64]

/-- Create the entry (R315). -/
def record (s : State) (v : Nat) (i : Fin 4) (r : Rcd) (route : Nat) (tos : List Nat) (pl : Option Nat × Nat) :
    State :=
  s.updStr v i fun x =>
    let e : SwEntry :=
      { w := newEntry x r v route, port := pl.1, spill := pl.2
        ends := (v :: tos).map fun w => (w, s.posOf w) }
    { x with next := x.next + 1, entries := x.entries.put x.next.toNat e }

/-- The values of n elements of the span as the thread's loads read them, after those read before; and the element
that waits (R315). -/
def readSpan (s : State) (obj : Nat) (r : Rec) (i : Nat) : Nat → List Nat → List Nat × State × Option Blk
  | 0, l => (l, s, none)
  | n + 1, l =>
    let b := s.elemBlk s.cur.pos (tableBase s.cur.src.ortb) obj r (i + l.length) Rec.permR
    match b.loc with
    | .mem q =>
      let g := elemAddr r (i + l.length)
      let y := (s.elemRead r (i + l.length)).memRead q.hpa (fmtBytes r.fmt)
      let bs := y.1.zipIdx.map fun x => (y.2.forwarded y.2.cur.pos (g + x.2)).getD x.1
      readSpan y.2 obj r i n (l ++ [ofBytes bs])
    | _ => (l, s, some b)

/-- Once the span has been read, the transfer enters the network (R315, R319), under its record's key id (R357); until
then the thread holds what it has read, behind the sequence. -/
def sendSpan (s : State) (ins : Instr) (i : Fin 4) (r : Rcd) (seq : Option Nat) (gid : Nat) (rec : Rec) : State :=
  let v := s.me.tid.vc
  let idx := bits r.a 39 0
  let old := if s.cur.phase = 1 then (s.cur.held.drop 1).map (·.toNat) else []
  let x := s.readSpan (objOf r.a) rec idx (r.len - old.length) old
  match x.2.2 with
  | some b =>
    let m : Word := match seq with
      | some n => BitVec.ofNat 64 (n + 1)
      | none => 0
    x.2.1.parkAt ins 1 (m :: x.1.map (BitVec.ofNat 64)) b
  | none =>
    let t := x.2.1
    let n := t.fresh
    (t.updMe fun y => { y with unacked := n :: y.unacked }).inject
      { dst := if r.kind = 1 then s.cur.pos else s.aim s.cur.pos (bits r.b 35 0), die := dieOf s.cur.pos, key := rec.okey
        load := .transfer s.me.tid i seq (if r.kind = 1 then some gid else none) (objOf r.a) idx (fmtBytes rec.fmt) x.1 []
          (s.receivers r v gid) false }

/-- The transfer of a sequence came back (R318). -/
def cameBack (s : State) (v : Nat) (i : Fin 4) (seq : Option Nat) : State :=
  s.updStr v i fun x =>
    { x with
      undelivered := inc16 x.undelivered
      entries := match seq with
        | none => x.entries
        | some n => match x.entries.get n with
          | some e => x.entries.put n { e with awaiting := false, w := vput e.w 0 (setStatus (e.w.get 0) 1) }
          | none => x.entries }

/-- An acknowledged entry with a spill position is written there (R308), or what that waits for. -/
def spillEntry (s : State) (v : Nat) (i : Fin 4) (seq : Option Nat) : Except Blk State :=
  match seq with
  | none => .ok s
  | some n =>
    match (s.strAt v i).entries.get n with
    | none => .ok s
    | some e =>
      match e.port with
      | some _ => .ok s
      | none => s.spillWrite v (s.strAt v i).spill e.spill e.w

/-- A recording instruction (R315).  Phase 1 reads on; phase 2 has waited for the spill object's record (R317) and tests
again. -/
def recording (s : State) (ins : Instr) (i : Fin 4) (r : Rcd) : State :=
  s.withStream ins i r.a fun x =>
    let v := s.me.tid.vc
    let g := match r.grp with
      | some k => s.grpAt v k
      | none => {}
    let perm (y : Rec) : Bool := y.permR && y.rec1 && (r.grp.isNone || objOf r.a == g.obj)
    let idx := bits r.a 39 0
    if s.cur.phase ≠ 1 then
      if !x.isOpen || (r.grp.isSome && !g.bound) then s.trap .illegal (BitVec.ofNat 64 i.val)
      else if r.bad then s.trap .illegal r.b
      else
        s.withRecord (objOf r.a) r.a fun rec =>
          match elemTests rec r.a perm none idx, elemTests rec r.a perm none (idx + r.len - 1 : Nat) with
          | some (c, t), _ => s.trap c t
          | none, some (c, t) => s.trap c t
          | none, none =>
            if rec.fmt = 0xE then s.trap .format 0
            else if r.kind ≠ 1 && !s.inPart (bits r.b 35 0) then
              s.trap .undeliverable (BitVec.ofNat 64 (bits r.b 35 0))
            else if (List.range r.len).any fun k => s.elemPoisoned rec (idx + k) (fmtBytes rec.fmt) then
              s.trap .checkFail r.a
            else if x.rcmp then s.sendSpan ins i r none g.gid rec
            else
              let s := if s.portUse (portStore (s.posOf v)) < 2048 then s else s.recordSeen v x.spill
              match s.entryPlace v i x with
              | none => s.parkAt ins 2 [] (match s.recordOf v x.spill with
                | .error b => b
                | .ok _ => recordBlk (s.ownTable v) x.spill)
              | some (.error t) => s.trap .swathFull t
              | some (.ok pl) =>
                let route := if r.kind = 3 then bits r.b 63 48 else g.gid
                (s.record v i r route (s.receivers r v g.gid) pl).sendSpan ins i r (some x.next.toNat) g.gid rec
    else
      let m := (s.cur.held.getD 0 0).toNat
      let seq := if m = 0 then none else some (m - 1)
      match s.homeRecord (objOf r.a) with
      | none => s.parkAt ins 1 s.cur.held (recordBlk (tableBase s.cur.src.ortb) (objOf r.a))
      | some rec =>
        if !rec.rvk then s.sendSpan ins i r seq g.gid rec
        else match (s.cameBack v i seq).spillEntry v i seq with
          | .error b => s.parkAt ins 1 s.cur.held b
          | .ok t => t.revokeHalf r.a

end State

/-- FWM (R315). -/
def execFwm (i : Fin 4) (ra rb : Reg) (g : Fin 8) (s : State) : Res :=
  .next (s.recording (.fwm i ra rb g) i ⟨1, some g, s.g ra, s.g rb⟩)
/-- FWG (R315). -/
def execFwg (i : Fin 4) (ra rb : Reg) (g : Fin 8) (s : State) : Res :=
  .next (s.recording (.fwg i ra rb g) i ⟨2, some g, s.g ra, s.g rb⟩)
/-- FWA (R315). -/
def execFwa (i : Fin 4) (ra rb : Reg) (s : State) : Res :=
  .next (s.recording (.fwa i ra rb) i ⟨3, none, s.g ra, s.g rb⟩)

namespace State

/-! ### Arrival and acknowledgement (R315, R318) -/

/-- Is a store of a core to some bytes of memory not performed yet? -/
def storedAt (s : State) (p a n : Nat) : Bool :=
  (s.core p).buffer.any fun e => match e.op with
    | .obj q => (s.reqPlaces q).any fun b => overlap a n b q.n
    | _ => false

/-- Write a transfer's elements in a receiver's own table, false when it refuses by R180; or what it waits for.  They are
stores of the receiving core, performed in one step once none that it has made there before is left (R165, log entry
105). -/
def writeSpan (s : State) (w obj idx n : Nat) (es : List Nat) : Except Blk (State × Bool) :=
  if obj = 0 || decide (2 ^ tableLog (s.vcore w).ortb ≤ obj) then .ok (s, false)
  else
    match s.recordOf w obj with
    | .error b => .error b
    | .ok r =>
      let s := s.recordSeen w obj
      let test (k : Nat) : Bool := (elemTests r 0 Rec.permW (some n) (idx + k : Nat)).isNone
      if !r.ok || !((List.range es.length).all test) then .ok (s, false)
      else
        let l := es.zipIdx.map fun e => (s.elemBlk (s.posOf w) (s.ownTable w) obj r (idx + e.2) Rec.permW, e.1)
        match (l.map (·.1)).find? fun b => match b.loc with
          | .mem q => s.storedAt (s.posOf w) q.hpa n
          | _ => true with
        | some b => .error b
        | none =>
          .ok (l.foldl (fun t x => match x.1.loc with
            | .mem q => (t.elemRead r x.1.i).memWrite q.hpa (toBytes n x.2)
            | _ => t) s, true)

/-- A receiver is done with a transfer; the last one sends the acknowledgement or the return.  An FWM that has members
in other packages waits for them (R318). -/
def received (s : State) (id : Nat) (x : Item) (w : Nat) (refuse : Bool) (hops : List Nat) : State :=
  match x.load with
  | .transfer src i seq tree obj idx n es hs left refused =>
    let l := left.filter fun y => y != w
    if l.isEmpty && !tree.any s.rankAway then
      s.become id x (.transferAck src i seq (hs ++ hops) (refused || refuse)) (s.posOf src.vc)
    else s.become id x (.transfer src i seq tree obj idx n es hs l (refused || refuse)) x.dst
  | _ => s

/-- The arrival of a transfer at a receiver; one that goes to one vcore takes one hop of its way, which it
records (R310). -/
def transferArrives (s : State) (id : Nat) (x : Item) (w : Nat) : State :=
  match x.load with
  | .transfer src i seq tree obj idx n es hs left refused =>
    if !left.contains w || pkgOf w ≠ s.pkg then s
    else
      let put (c : List Nat) : State :=
        match s.writeSpan w obj idx n es with
        | .error b => s.askBlk b
        | .ok (t, ok) => t.received id x w (!ok) (if tree.isSome then [] else c ++ [clusterPort x.dst])
      match s.crossing x.die (dieOf x.dst), s.hop w (if tree.isSome then s.posOf w else x.dst) with
      | none, _ => s
      | some c, .next p => s.become id x (.transfer src i seq tree obj idx n es (hs ++ c.1) left refused) p
      | _, .wait => s
      | some c, .exited => s.received id x w true c.1
      | some c, .here => if tree.isSome && !s.joined (dieOf x.dst) (dieOf (s.posOf w)) then s else put c.1
  | _ => s

/-- HCNT and HOPS of the ports recorded (R309, R310): of more than seven crossings the first seven, then
the destination port. -/
def hopWords (hs : List Nat) : Nat × Word :=
  let l := if hs.length ≤ 8 then hs else hs.take 7 ++ [hs.getLastD 0]
  (l.length, BitVec.ofNat 64 ((List.range 8).foldl (fun w h => w + l.getD h 0xFF % 256 * 2 ^ (8 * h)) 0))

/-- The acknowledgement fills the entry, wherever it is held (R318). -/
def fillEntry (s : State) (v : Nat) (i : Fin 4) (seq : Option Nat) (hops : Nat × Word) : State :=
  match seq with
  | none => s
  | some n =>
    s.updStr v i fun x =>
      { x with
        entries := match x.entries.get n with
          | none => x.entries
          | some e =>
            x.entries.put n
              { e with
                awaiting := false
                w := vput (vput e.w 2 (setBits (e.w.get 2) 63 60 hops.1)) 3 hops.2 } }

/-- The acknowledgement or return reaches the issuing vcore. -/
def ackTransfer (s : State) (id : Nat) (dst : Tid) (i : Fin 4) (seq : Option Nat) (hops : Nat × Word)
    (back : Bool) : State :=
  match s.updThread dst (acked id) with
  | none => s
  | some t =>
    let u := if back then t.cameBack dst.vc i seq else t.fillEntry dst.vc i seq hops
    match u.spillEntry dst.vc i seq with
    | .error b => s.askBlk b
    | .ok w => w.dropItem id

end State

/-- RECORDED_TRANSFER_ARRIVAL (R315). -/
def execRecordedTransferArrival (id vc : Nat) (s : State) : Res :=
  .next (match s.net.get id with
    | some x => s.transferArrives id x vc
    | none => s)

/-- The hops that another package adds (R310, R384): the port at which its transfer leaves a die, and the
destination's cluster port. -/
def State.farHops (w : Word) : List Nat := [0xE0 + bits w 7 0 % 11, bits w 14 8]

/-- SWATH_ACKNOWLEDGEMENT (R318): one hop of its way to the issuing vcore, or its effect there.  Of a transfer to another package it comes from there, as a return or with hops that
this package does not see (log entry 5); an FWM that has no receiver here left is acknowledged. -/
def execSwathAcknowledgement (id : Nat) (s : State) : Res :=
  .next
    (match s.net.get id with
     | some x =>
       match x.load with
       | .transferAck dst i seq hs back =>
         if !s.travels x then s
         else
         match s.hop dst.vc x.dst with
         | .next p => s.route id x p
         | .wait => s
         | .exited => s.dropItem id
         | .here =>
         let tree := match seq with
           | some n => match (s.strAt dst.vc i).entries.get n with
             | some e => bits (e.w.get 0) 35 32 == 1
             | none => false
           | none => false
         s.ackTransfer id dst i seq (if tree then (0, BitVec.allOnes 64) else State.hopWords hs) back
       | .transfer src i seq tree _ _ _ _ hs left refused =>
         if tree.isSome && left.isEmpty then
           let c := if tree.any s.rankAway then s.coin else (false, s)
           c.2.ackTransfer id src i seq (0, BitVec.allOnes 64) (refused || c.1)
         else if tree.isSome || left.all fun w => pkgOf w == s.pkg then s
         else
           let c := s.coin
           let w := c.2.freeWord
           w.2.ackTransfer id src i seq (State.hopWords (hs ++ State.farHops w.1)) c.1
       | _ => s
     | none => s)

namespace State

/-! ### Replay (R320-R323) -/

/-- Twins of an object at a vcore (R322): the object's record, its twin's number and record, or the one that cannot be
read.  A number past the table names no record: an invalid one stands for it. -/
def twinAt (s : State) (v o : Nat) : Except Blk (Rec × Nat × Rec) :=
  let look (n : Nat) : Except Blk Rec :=
    if n = 0 || decide (2 ^ tableLog (s.vcore v).ortb ≤ n) then .ok (Vector.replicate 8 0) else s.recordOf v n
  match look o with
  | .error b => .error b
  | .ok r =>
    match look r.twin with
    | .error b => .error b
    | .ok t => .ok (r, r.twin, t)

/-- The two records have been read at their homes (R192). -/
def twinSeen (s : State) (v o : Nat) : State :=
  match s.twinAt v o with
  | .ok x => (s.recordSeen v o).recordSeen v x.2.1
  | .error _ => s

/-- R322's conditions on a twin at one end. -/
def twinOk (s : State) (v o : Nat) (x : Rec × Nat × Rec) (perm : Rec → Bool) (i0 len : Nat) : Bool :=
  let lim := 2 ^ tableLog (s.vcore v).ortb
  let r := x.1
  let t := x.2.2
  r.ok && o != 0 && decide (o < lim) && t.ok && x.2.1 != 0 && decide (x.2.1 < lim) && !t.rvk &&
    t.rank == r.rank && ((List.range 4).all fun d => t.dim d == r.dim d) && (t.fmt == 8 || t.fmt == 9) &&
    perm t && decide (i0 + len ≤ t.count)

/-- The gradient of a span of a vcore's twin, with its poison, or the element that waits. -/
def gradient (s : State) (v tobj : Nat) (t : Rec) (i0 len : Nat) : Except Blk (List (FVal × Bool) × State) :=
  let n := fmtBytes t.fmt
  let l := (List.range len).map fun k => s.elemBlk (s.posOf v) (s.ownTable v) tobj t (i0 + k) Rec.permR
  match l.find? fun b => match b.loc with
    | .mem _ => false
    | _ => true with
  | some b => .error b
  | none =>
    .ok (l.foldl (fun (x : List (FVal × Bool) × State) b => match b.loc with
      | .mem q =>
        let y := (x.2.elemRead t b.i).memRead q.hpa n
        (x.1 ++ [(elemValue t.fmt (ofBytes y.1), x.2.poisoned q.hpa n)], y.2)
      | _ => x) ([], s))

/-- Blocks of L values, the last one padded with zeros (R322). -/
def blocksOf (l : Nat) : Nat → List FVal → List (List FVal)
  | 0, _ => []
  | _ + 1, [] => []
  | n + 1, xs =>
    let b := xs.take l
    (b ++ List.replicate (l - b.length) (.fin false 0 0)) :: blocksOf l n (xs.drop l)

/-- The values carried for a gradient (R322). -/
def carried (gdesc : BitVec 32) (gfmt : Nat) (xs : List FVal) : List FVal :=
  let d := Desc.ofWord (gdesc.setWidth 64)
  if d.skind = 0 then
    xs.map fun x => elemValue gfmt (roundTo gfmt .rne (gfmt == 0xC || gfmt == 0xD) x)
  else
    let e : Desc := { d with w := d.w / 16 * 16 + gfmt }
    ((blocksOf e.len xs.length xs).flatMap fun b =>
      let q := quantiseBlock e b
      q.1.map fun c => (elemValue gfmt c).mul (scaleValue e.skind q.2)).take xs.length

/-- The dies that recorded crossings lead through, from the sender's die on (R323, R384). -/
def walk (d : Nat) : List Nat → List Nat
  | [] => [d]
  | p :: ps => match dieBehind d p with
    | some e => d :: walk e ps
    | none => [d]

/-- Travel through a list of dies: whether some link takes its alternate route; none while one waits. -/
def travel (s : State) : List Nat → Option Bool
  | d :: e :: t =>
    match s.crossing d e, s.travel (e :: t) with
    | some c, some b => some (c.2 || b)
    | _, _ => none
  | _ => some false

/-- The dies from a die up a group's sheaf tree. -/
def upTree (s : State) (gid : Nat) : Nat → Nat → List Nat
  | 0, d => [d]
  | n + 1, d =>
    match s.sheafOf d gid with
    | some e => match dieBehind d (Sheaf.parent e) with
      | some m => d :: upTree s gid n m
      | none => [d]
    | none => [d]

/-- The dies on a gradient's way back from a reader to S (R321, R323). -/
def wayBack (s : State) (kind gid : Nat) (w3 : Word) (hcnt recDie v r : Nat) : List Nat :=
  let here := dieOf (s.posOf v)
  let from' := dieOf (s.posOf r)
  match kind with
  | 1 => s.upTree gid 8 from' ++ [here]
  | 2 => [from', here]
  | _ =>
    let dies := (walk recDie ((List.range (hcnt - 1)).map fun h => bits w3 (8 * h + 7) (8 * h))).reverse
    if dies.length ≤ 1 then [from', here] else from' :: dies ++ [here]

/-- The vcores whose gradients an entry carries.  A member in another package stands as a vcore of that package. -/
def readersOf (s : State) (kind gid dest v : Nat) : List Nat :=
  let here := s.members gid
  let n := (here.map fun m => (s.grpAt m.1 m.2).nrank).foldl max 0
  let far := if s.spread then n - here.length else 0
  if kind = 1 then
    ((here.map (·.1)).filter fun w => w != v) ++ (List.range far).map fun k => (s.pkg + 1) * 2 ^ 16 + k
  else [dest]

/-- The outcomes of R323 in the order in which they apply. -/
def worst (l : List Nat) : Nat := ([4, 6, 2, 3].find? fun n => l.contains n).getD 0

/-- What R323 finds at the readers of other packages: free (log entry 5). -/
def farOutcomes (s : State) (rs : List Nat) : List (Nat × Nat) × State :=
  (rs.filter fun r => pkgOf r != s.pkg).foldl (fun (x : List (Nat × Nat) × State) r =>
    let y := x.2.pick 5
    (x.1 ++ [(r, [0, 2, 3, 4, 6].getD y.1 0)], y.2)) ([], s)

/-- One element of the addition on its way to its home at S's twin, or what it waits for. -/
def twinReq (s : State) (v key tobj i : Nat) (t : Rec) (x : FVal) : Except Blk Req :=
  let tb := tableBase (s.vcore v).ortb
  let off := t.offset i
  let j := t.granule off
  let wait (l : Loc) : Except Blk Req := .error { tb := tb, obj := tobj, i := i, loc := l }
  if (s.rmapByte t j).isNone then wait (.miss (t.rmap + j))
  else if !s.resident t j then wait (.absent (tb, tobj, j))
  else
    match s.hpaOf (elemAddr t i), s.hpaOf (tb + 64 * tobj) with
    | some a, some rh =>
      .ok
        { pos := s.posOf v, acc := .twinAdd t.fmt x, gpa := elemAddr t i, hpa := a, n := fmtBytes t.fmt
          key := (tb, tobj), okey := t.okey, token := key
          moving := if t.moving then some (rh, off / 2, j) else none }
    | none, _ => wait (.miss (elemAddr t i))
    | _, none => wait (.miss (tb + 64 * tobj))

/-- Sum the carried values of the readers, element by element (R322). -/
def sumCarried (s : State) (f : FFmt) (len : Nat) (vs : List (List (FVal × Bool))) :
    List (FVal × Bool) × State :=
  (List.range len).foldl (fun (x : List (FVal × Bool) × State) k =>
    let es := vs.map fun l => l.getD k (.fin false 0 0, false)
    let r := x.2.addTree f es.length (es.map (·.1))
    (x.1 ++ [(r.1, es.any (·.2))], r.2)) ([], s)

/-- The carried gradients of the readers that have not exited, or what one waits for.  Those of a reader
in another package are free values (log entry 5). -/
def carriedAll (s : State) (x : Stream) (gfmt o i0 len : Nat) (rs : List Nat) :
    Except Blk (List (List (FVal × Bool)) × State) :=
  rs.foldl (fun acc r =>
    match acc with
    | .error b => .error b
    | .ok (l, t) =>
      if pkgOf r ≠ t.pkg then
        let y := (List.range len).foldl (fun (y : List FVal × State) _ =>
          let w := y.2.freeWord
          (y.1 ++ [elemValue gfmt (w.1.toNat % 2 ^ fmtBits gfmt)], w.2)) ([], t)
        .ok (l ++ [y.1.map fun v => (v, false)], y.2)
      else
        match t.twinAt r o with
        | .error b => .error b
        | .ok tw =>
          match t.gradient r tw.2.1 tw.2.2 i0 len with
          | .error b => .error b
          | .ok (gs, u) =>
            .ok (l ++ [(carried x.gdesc gfmt (gs.map (·.1))).zip (gs.map (·.2))], u)) (.ok ([], s))

/-- The outcome of R323 but for what is added, or what an end or a way waits for. -/
def outcome (s : State) (v : Nat) (e : SwEntry) (kind gid : Nat) (w2 w3 : Word) (o i0 len : Nat)
    (rs : List Nat) : Except Blk Nat :=
  let recDie := dieOf ((e.ends.find? fun p => p.1 == v).getD (v, s.posOf v)).2
  let mine := rs.filter fun r => pkgOf r == s.pkg
  let live := mine.filter fun r => (s.vcore r).place != .exited
  let twins := live.map fun r => (r, s.twinAt r o)
  let ways := live.map fun r => s.travel (s.wayBack kind gid w3 (bits w2 63 60) recDie v r)
  let away : Option Blk := firstSome (fun t => match t.2 with
    | .error b => some b
    | .ok _ => none) twins
  match s.twinAt v o, away with
  | .error b, _ => .error b
  | _, some b => .error b
  | .ok own, none =>
    if ways.any (·.isNone) || live.any (fun r => (s.vcore r).place == .unplaced) then .error ⟨0, 0, 0, .stay⟩
    else
      let bad := !s.twinOk v o own Rec.permW i0 len || twins.any fun t => match t.2 with
        | .ok x => !s.twinOk t.1 o x Rec.permR i0 len
        | .error _ => false
      .ok (if live.length < mine.length then 4
        else if bad then 6
        else if ways.any fun w => w == some true then 2
        else if (v :: mine).any fun r => e.ends.any fun p => p.1 == r && p.2 != s.posOf r then 3
        else 0)

/-- Count an outcome (R314, R323). -/
def countOutcome (n : Nat) (x : Stream) : Stream :=
  match n with
  | 2 => { x with rerouted := inc16 x.rerouted }
  | 3 => { x with moved := inc16 x.moved }
  | 4 => { x with orphan := inc16 x.orphan }
  | 6 => { x with twinf := inc16 x.twinf }
  | _ => x

/-- Write an entry's outcome into its STATUS, in the port store or at its spill position, where 0 is
written as 5 (R310). -/
def putOutcome (s : State) (v : Nat) (i : Fin 4) (seq : Nat) (e : SwEntry) (ws : List Word) (n : Nat) :
    Except Blk State :=
  let t := s.updStr v i (countOutcome n)
  match e.port with
  | some _ =>
    .ok (t.updStr v i fun x =>
      { x with entries := x.entries.put seq { e with w := vput e.w 0 (setStatus (e.w.get 0) n) } })
  | none =>
    t.spillWrite v (s.strAt v i).spill e.spill
      #v[setStatus (ws.getD 0 0) n, ws.getD 1 0, ws.getD 2 0, ws.getD 3 0]

/-- An entry that replay counts as BAD (R320). -/
def entryBad (seq : Nat) (ws : List Word) : Bool :=
  let w0 := ws.getD 0 0
  let kind := bits w0 35 32
  bits w0 31 0 != seq || kind == 0 || decide (3 < kind) || bits w0 47 44 != kind ||
    decide (7 ≤ swStatus w0) || decide (8 < bits (ws.getD 2 0) 63 60) || bits (ws.getD 2 0) 59 36 == 0

/-- Does a reader's gradient count: has no outcome dropped it (R322, R323)? -/
def reads (s : State) (o i0 len : Nat) (far : List (Nat × Nat)) (r : Nat) : Bool :=
  if pkgOf r != s.pkg then !far.any fun y => y.1 == r && (y.2 == 4 || y.2 == 6)
  else
    (s.vcore r).place != .exited && match s.twinAt r o with
      | .ok y => s.twinOk r o y Rec.permR i0 len
      | .error _ => false

/-- The sum of the readers' gradients is on its way to the elements of the sender's twin (R321, R322). -/
def addGradients (s : State) (v key i0 : Nat) (tobj : Nat) (tw : Rec) (len : Nat) (vs : List (List (FVal × Bool))) :
    Except Blk State :=
  if vs.isEmpty then .ok s
  else
    let sum := s.sumCarried (if tw.fmt = 8 then f64 else f32) len vs
    sum.1.zipIdx.foldl (fun (t : Except Blk State) y =>
      match t, sum.2.twinReq v key tobj (i0 + y.2) tw y.1.1 with
      | .error b, _ => .error b
      | _, .error b => .error b
      | .ok t, .ok r =>
        let t := t.elemRead tw (i0 + y.2)
        .ok ((if y.1.2 then t.markMem r.hpa true else t).sendReq r)) (.ok sum.2)

/-- Replay one entry (R320, R321), or what it waits for. -/
def replayOne (s : State) (v : Nat) (i : Fin 4) (key seq : Nat) (ws : List Word) : Except Blk State :=
  let x := s.strAt v i
  match x.entries.get seq with
  | none => .ok s
  | some e =>
    if e.port.isNone && entryBad seq ws then .ok (s.updStr v i fun x => { x with bad := inc16 x.bad })
    else if swStatus (ws.getD 0 0) = 1 then .ok s
    else
      let w0 := ws.getD 0 0
      let w2 := ws.getD 2 0
      let kind := bits w0 35 32
      let gid := bits w0 63 48
      let gfmt := bits w0 43 40
      let o := objOf (ws.getD 1 0)
      let i0 := bits (ws.getD 1 0) 39 0
      let len := bits w2 59 36
      let rs := s.readersOf kind gid (bits w2 35 0) v
      let s := (v :: rs.filter fun r => pkgOf r == s.pkg).foldl (fun t r => t.twinSeen r o) s
      match s.outcome v e kind gid w2 (ws.getD 3 0) o i0 len rs with
      | .error b => .error b
      | .ok n =>
        let far := s.farOutcomes rs
        let n := worst (n :: far.1.map (·.2))
        match far.2.putOutcome v i seq e ws n, s.twinAt v o with
        | .error b, _ => .error b
        | _, .error b => .error b
        | .ok t, .ok own =>
          if n = 6 || !s.twinOk v o own Rec.permW i0 len then .ok t
          else
            match t.carriedAll x gfmt o i0 len (rs.filter (s.reads o i0 len far.1)) with
            | .error b => .error b
            | .ok (vs, u) => u.addGradients v key i0 own.2.1 own.2.2 len vs

/-- Are all additions of a replay performed? -/
def additionsDone (s : State) (key : Nat) : Bool :=
  !s.homes.any fun h => h.2.queue.any fun q => match q.2.acc with
    | .twinAdd _ _ => q.2.token == key
    | _ => false

/-- The words of the entries f to f + c − 1, or the word of a spilled one that cannot be read. -/
def entryWords (s : State) (v : Nat) (x : Stream) (f : Nat) : Nat → Except Blk (List Word × State)
  | 0 => .ok ([], s)
  | c + 1 =>
    match s.entryWords v x f c with
    | .error b => .error b
    | .ok (l, t) =>
      match x.entries.get (f + c) with
      | none => .ok (l ++ [0, 0, 0, 0], t)
      | some e =>
        if e.port.isSome then .ok (l ++ e.w.toList, t)
        else match t.spillRead v x.spill e.spill with
          | .error b => .error b
          | .ok (w, u) => .ok (l ++ w, u)

/-- Replay entries in order as far as they go, `d` of the c entries being done; and what the next one waits for. -/
def replayLoop (s : State) (v : Nat) (i : Fin 4) (key f c : Nat) (fwd : Bool) (ws : List Word) :
    Nat → Nat → State × Nat × Option Blk
  | 0, d => (s, d, none)
  | fuel + 1, d =>
    if c ≤ d then (s, d, none)
    else
      let k := if fwd then d else c - 1 - d
      match s.replayOne v i key (f + k) ((ws.drop (4 * k)).take 4) with
      | .error b => (s, d, some b)
      | .ok t => replayLoop t v i key f c fwd ws fuel (d + 1)

/-- The least dropped or unrecorded sequence of a range (R320). -/
def staleSeq (x : Stream) (f c : Nat) : Option Nat :=
  ((List.range c).find? fun k => (x.entries.get (f + k)).isNone).map fun k => f + k

/-- The end of a replay. -/
def replayEnd (s : State) (i : Fin 4) : State :=
  s.updStr s.me.tid.vc i fun x => { x with busy := false }

end State

/-- RPLY (R320).  Phase 1 waits for the stream, which is BUSY from then on; phase 5 reads its entries; phase 2 replays them, with the key of its additions, the
number done and the words read in `held`; phase 3 waits for the additions and phase 4 releases. -/
def execRply (i : Fin 4) (ra rb : Reg) (fwd : Bool) (s : State) : Res :=
  let a := s.g ra
  let b := s.g rb
  let ins := Instr.rply i ra rb fwd
  let f := bits a 31 0
  let c := bits b 31 0
  let v := s.me.tid.vc
  let finish (t : State) (key : Nat) : State :=
    if t.additionsDone key then t.release .sys ins 4 [] fun u => u.replayEnd i
    else t.park ins 3 [BitVec.ofNat 64 key] .poll
  let run (t : State) (key d : Nat) (ws : List Word) : State :=
    let r := t.replayLoop v i key f c fwd ws c d
    match r.2.2 with
    | none => finish r.1 key
    | some b => r.1.parkAt ins 2 (BitVec.ofNat 64 key :: BitVec.ofNat 64 r.2.1 :: ws) b
  let read (t : State) : State :=
    match t.entryWords v (t.strAt v i) f c with
    | .error b => t.parkAt ins 5 [0] b
    | .ok (ws, u) => let k := u.fresh1; run k.2 k.1 0 ws
  let start (t : State) : State :=
    let x := t.strAt v i
    if x.busy || x.entries.any fun e => decide (f ≤ e.1) && decide (e.1 < f + c) && e.2.awaiting then
      t.park ins 1 [] .poll
    else read (t.updStr v i fun x => { x with busy := true })
  .next
    (match s.cur.phase with
     | 0 =>
       s.withStream ins i a fun x =>
         if !x.isOpen then s.trap .illegal (BitVec.ofNat 64 i.val)
         else if bits a 63 32 ≠ 0 then s.trap .illegal a
         else if bits b 63 32 ≠ 0 then s.trap .illegal b
         else if c = 0 then s
         else
           match State.staleSeq x f c with
           | some n => s.trap .swathStale (BitVec.ofNat 64 (i.val * 2 ^ 32 + n))
           | none => start s
     | 1 => start s
     | 2 => run s (s.cur.held.getD 0 0).toNat (s.cur.held.getD 1 0).toNat (s.cur.held.drop 2)
     | 3 => finish s (s.cur.held.getD 0 0).toNat
     | 5 => read s
     | _ => (s.released .sys).replayEnd i)

end Sys2Proof.Machine
end

