-- ==== Sys2Proof/Machine/Placement.lean ====
section
/-! DEFINITION. Exchanges, moves and folds of vcores: PLC_SWAP, PLC_MIGX, PLC_FOLD (C-class major 0x7D), and
the events TEDDER_INSTANT and EXCHANGE (R240, R255, R277, R281, R285-R289, R303, R308). -/

namespace Sys2Proof.Machine

namespace State

/-! ### Who may move (R240, R255, R303, R308, R342) -/

/-- R240 and R255 at a core: streams, rotation buffers, job queue and channel are empty and no drain or
AMOV of the core is in progress. -/
def coreQuiet (s : State) (p : Nat) : Bool :=
  let c := s.core p
  c.strA.isEmpty && c.strB.isEmpty && c.rotA.isNone && c.rotB.isNone && c.jobs.isEmpty && c.moves.isEmpty &&
    c.channel.isEmpty &&
    (match (s.cluster (cluOf p)).eng.drain with
     | some d => d.core != coreNum p
     | none => true)

/-- A vcore takes part in no collective round or swath transfer that holds it in place (R303, R308). -/
def vcoreQuiet (s : State) (v : Nat) : Bool :=
  let x := s.vcore v
  !(x.grp.toList.any openRound) && !(s.clusters.any fun c => c.2.coll.any fun j => j.vc == v) &&
    !(x.str.toList.any fun y => y.busy || strAwaits y)

/-- A redundant pair of the core is together (R342). -/
def pairsTogether (s : State) (p : Nat) : Bool := slotIds.all fun j => (s.slotAt p j).ahead == 0

/-- A position that placement cannot use: retired or sealed (R25). -/
def unusable (s : State) (p : Nat) : Bool :=
  (s.core p).sealed || (s.die (dieOf p)).retired.contains (torusOf p)

/-- The PLACED vcore of a core. -/
def occupant (s : State) (p : Nat) : Option Nat :=
  (s.vcores.find? fun v => v.2.place == .placed && v.2.pos == p).map (·.1)

/-! ### Swath entries of a vcore that moves (R308) -/

/-- The held port-store entries of a vcore, as stream and sequence. -/
def portEntries (s : State) (v : Nat) : List (Fin 4 × Nat) :=
  (List.finRange 4).flatMap fun i =>
    ((s.strAt v i).entries.filter fun e => e.2.port.isSome).map fun e => (i, e.1)

/-- The entries of the other vcore of a swap, which leave a port store in the same exchange (R288 step 4). -/
def leaving (s : State) (other : Option Nat) (ps : Nat) : Nat :=
  match other with
  | some w => ((s.vcore w).str.toList.flatMap fun x => x.entries.filter fun e => e.2.port == some ps).length
  | none => 0

/-- Where an entry of a stream is to be held after its vcore has moved to another port store: there, else at its spill
position, else nowhere (R308); none while CAP cannot be read.  The entries of `other` leave that store in the same
exchange. -/
def movedTo (s : State) (v ps : Nat) (other : Option Nat) (x : Stream) (n : Nat) (e : SwEntry) : Option (Option SwEntry) :=
  if e.port = some ps then some (some e)
  else if s.portUse ps < 2048 + s.leaving other ps then some (some { e with port := some ps })
  else (s.spillAt v x n).map fun y => y.map fun p => { e with port := none, spill := p }

/-- The entry of a sequence is held so from now on, or is dropped. -/
def putEntry (s : State) (v : Nat) (i : Fin 4) (n : Nat) (e : Option SwEntry) : State :=
  match e with
  | some e => s.updStr v i fun x => { x with entries := x.entries.put n e }
  | none => s.updStr v i fun x => dropSeqs x fun m => m == n

/-- One of a vcore's port-store entries moves to a port store; none while it waits for its spill position (R173,
R175). -/
def moveEntry (s : State) (v ps : Nat) (other : Option Nat) (k : Fin 4 × Nat) : Option State :=
  let x := s.strAt v k.1
  match x.entries.get k.2 with
  | none => some s
  | some e =>
    match s.movedTo v ps other x k.2 e with
    | none => none
    | some y =>
      let t := (s.recordSeen v x.spill).putEntry v k.1 k.2 y
      match y with
      | some z =>
        if z.port.isSome then some t
        else match t.spillWrite v x.spill z.spill e.w with
          | .ok u => some u
          | .error _ => none
      | none => some t

/-- A vcore's port-store entries move to a port store; none while one of them waits. -/
def moveEntries (s : State) (v ps : Nat) (other : Option Nat) : Option State :=
  (s.portEntries v).foldl (fun t k => t.bind fun t => t.moveEntry v ps other k) (some s)

/-- Would the move of a vcore's entries to a port store drop none?  Where CAP cannot be read now, it might. -/
def entriesFit (s : State) (v ps : Nat) (other : Option Nat) : Bool :=
  ((s.portEntries v).foldl (fun (t : Option State) k =>
    t.bind fun t =>
      let x := t.strAt v k.1
      match x.entries.get k.2 with
      | none => some t
      | some e =>
        match t.movedTo v ps other x k.2 e with
        | some (some y) => some (t.putEntry v k.1 k.2 (some y))
        | _ => none) (some s)).isSome

/-- What keeps the spill positions of a vcore's port-store entries away is reported (R173, R175). -/
def askSpill (s : State) (v : Nat) : State :=
  (s.portEntries v).foldl (fun t k =>
    let x := t.strAt v k.1
    match t.spillCap v x.spill with
    | none => match t.recordOf v x.spill with
      | .error b => t.askBlk b
      | .ok _ => t
    | some cap => if cap = 0 then t else t.askBlk (t.spillBlk v x.spill (k.2 % cap) 0 Rec.permW)) s

/-! ### Moving what a vcore is (R281, R288, R289) -/

/-- Does a slot hold a thread of its own, not a helper? -/
def holdsThread (x : Slot) : Bool :=
  x.busy && (match x.life with
    | .helper _ => false
    | _ => true)

/-- The threads of a vcore leave a core's slots, and the requests that departed threads have left there (R257): each
with its slot number; helpers end (R152). -/
def takeOut (s : State) (p v : Nat) : List (Fin 16 × Slot) × State :=
  let mine := slotIds.filter fun j =>
    let x := s.slotAt p j
    if holdsThread x then x.occ == v else x.request.isSome && x.asked == v
  let t := mine.foldl (fun t j => t.endHelpers p j) s
  (mine.map fun j => (j, if holdsThread (s.slotAt p j) then s.slotAt p j else { vacated (s.slotAt p j) with occ := v }),
    mine.foldl (fun t j => t.updSlot p j fun x =>
      if holdsThread x then emptied x else { x with request := none, passed := 0 }) t)

/-- A half that waits on a scratchpad address follows its word by `d` bytes (R163). -/
def shiftPend (d : Int) (q : Pend) : Pend :=
  let move (a : Nat) : Nat := ((a : Int) + d).toNat
  match q.wait, q.ins with
  | .fe op dw r v after, _ => { q with wait := .fe op (move (8 * dw) / 8) r v after }
  | _, .stgp _ _ _ | _, .stgf _ _ | _, .stgw _ _ _ | _, .stge _ _ =>
    if q.phase = 0 then q
    else { q with held := BitVec.ofNat 64 (move (q.held.getD 0 0).toNat) :: q.held.drop 1 }
  | _, _ => q

/-- A thread's BANKM is 0 where it arrives (R194, R198). -/
def bankClear (x : Slot) : Slot :=
  { x with regs := { x.regs with bankm := 0 }, undo := x.undo.map fun u => ({ u.1 with bankm := 0 }, u.2) }

/-- A thread resumes in a slot of the core that its vcore now occupies (R155, R198); a trailing copy does not stand
in the thread map. -/
def resume (s : State) (p : Nat) (j : Fin 16) (x : Slot) (v : Nat) : State :=
  let x := bankClear x
  match x.life with
  | .trailing _ =>
    let m := s.mapEntry x.tid
    (s.takeSlot p j x v false).setMap x.tid m
  | _ => s.takeSlot p j x v false

/-- A request that a departed thread has left, in the mailbox of a slot: of slot j where that is free, else of the
lowest empty slot without a request, else of a thread without one (R257, log entry 106). -/
def putRequest (s : State) (p : Nat) (j : Fin 16) (r : Slot) : State :=
  let bare (k : Fin 16) : Bool := (s.slotAt p k).request.isNone
  let empty (k : Fin 16) : Bool := bare k && !(s.slotAt p k).busy
  match (([j].filter empty) ++ (workIds.filter empty) ++ (workIds.filter bare)).head? with
  | some k => s.updSlot p k fun z => { z with request := r.request, passed := r.passed, asked := r.asked }
  | none => s

/-- The threads that left a core take the slots that `dst` assigns, `d` bytes further in the scratchpad; then the requests
without their threads find their places: those that come with the vcore, and those that the taken slots held (R257). -/
def putIn (s : State) (p v : Nat) (xs : List (Fin 16 × Slot)) (dst : Fin 16 → Fin 16) (d : Int) : State :=
  let held := ((xs.filter fun x => x.2.busy).map fun x => (dst x.1, s.slotAt p (dst x.1))).filter fun y => y.2.request.isSome
  let left := ((xs.filter fun x => !x.2.busy).map fun x => (dst x.1, { x.2 with asked := v }))
  let t := (xs.filter fun x => x.2.busy).foldl (fun t x =>
    let y := { x.2 with
      pendC := x.2.pendC.map (shiftPend d), pendA := x.2.pendA.map (shiftPend d)
      pair := x.2.pair.map dst
      life := match x.2.life with
        | .trailing k => .trailing (dst k)
        | l => l }
    t.resume p (dst x.1) y v) s
  let t := held.foldl (fun t x =>
    if (t.slotAt p x.1).request.isNone then
      t.updSlot p x.1 fun z => { z with request := x.2.request, passed := x.2.passed, asked := x.2.asked }
    else t.putRequest p x.1 x.2) t
  left.foldl (fun t x => t.putRequest p x.1 x.2) t

/-- What a vcore's saved threads wait for follows its scratchpad words (R141, R163). -/
def shiftSaved (s : State) (v : Nat) (d : Int) : State :=
  s.updVcore v fun x =>
    { x with map := x.map.map fun m =>
        { m with saved := m.saved.map fun y =>
          { y with pendC := y.pendC.map (shiftPend d), pendA := y.pendA.map (shiftPend d) } } }

/-- Waits of a core that a move may have ended: full/empty words, stages, and BARW. -/
def settleCore (s : State) (p : Nat) : State :=
  let t := (s.feSettle p).stageSettle p
  t.updCore p fun c =>
    { c with slots := c.slots.map fun x =>
        match x.pendC with
        | some q => match q.wait with
          | .leaf w => if w = c.leaf.ph then x else endSlotHalf s.time false x
          | _ => x
        | none => x }

/-- Requests on their way from a core belong to the core that holds its occupant now. -/
def reroute (s : State) (f : Nat → Nat) : State :=
  { s with homes := s.homes.map fun h =>
      (h.1, { h.2 with queue := h.2.queue.map fun q => (q.1, { q.2 with pos := f q.2.pos }) }) }

/-- Exchange two windows, data and tags (R229). -/
def swapWindows (s : State) (a b : Nat) : State :=
  (List.range 8).foldl (fun t i =>
    let m := windowOf a + i
    let n := windowOf b + i
    let x := (s.cluster (cluOf a)).eng.tiles.get m
    let y := (s.cluster (cluOf b)).eng.tiles.get n
    (t.setTile (cluOf a) m (y.getD {})).setTile (cluOf b) n (x.getD {})) s

/-- The tiles of a vcore's window go with it to another core; another occupant's stay (R229, R289).  The old
ones are then zero, EMPTY and of owner 0, which is the model's choice (log entry 114). -/
def moveWindow (s : State) (v a b : Nat) : State :=
  (List.range 8).foldl (fun t i =>
    match (s.cluster (cluOf a)).eng.tiles.get (windowOf a + i) with
    | some x =>
      if x.owner = v % 2 ^ 16 then
        (t.setTile (cluOf a) (windowOf a + i) {}).setTile (cluOf b) (windowOf b + i) x
      else t
    | none => t) s

/-- Copy a segment with its full/empty bits and poison from one core's scratchpad to another's. -/
def copySegment (s : State) (p q base base' size : Nat) : State :=
  let c := s.core p
  let inSeg (b a : Nat) : Bool := decide (b ≤ a) && decide (a < b + size)
  s.updCore q fun x =>
    { x with
      spad := Memory.writeN x.spad base' (Memory.readN c.spad base size)
      full := ((c.full.filter fun d => inSeg base (8 * d)).map fun d => d - base / 8 + base' / 8).foldl insertNat
        (x.full.filter fun d => !inSeg base' (8 * d))
      spoiled := ((c.spoiled.filter fun l => inSeg base (64 * l)).map fun l => l - base / 64 + base' / 64).foldl
        insertNat (x.spoiled.filter fun l => !inSeg base' (64 * l)) }

/-- The CLUS field of one entry after a vcore has moved between two clusters of a die (R303).  Of a vcore that has not run
CMC the package does not know the groups: where one may account for the bit of the old cluster, a free choice says
whether it does (log entry 83). -/
def rewriteClus (s : State) (d v from' dst : Nat) (e : Sheaf) : Nat × State :=
  let gid := Sheaf.gid e
  let old := Sheaf.field e 63 0
  let mine (w : Nat) : Bool := (s.members gid).any fun m => m.1 == w
  let others := (s.vcores.filter fun w =>
    w.1 != v && (w.2.place == .placed || w.2.place == .folded) && dieOf w.2.pos == d && torusOf w.2.pos == from').map (·.1)
  let stays := others.any mine
  let unsure := !s.allBound gid && others.any fun w => !mine w
  let free (t : State) (b : Bool) : Bool × State := if b then t.coin else (false, t)
  -- is the moved vcore a member?
  let m : Bool × State :=
    if mine v then (true, s)
    else if s.allBound gid || !bit (BitVec.ofNat 64 old) from' then (false, s)
    else if stays || unsure then s.coin else (true, s)
  if !m.1 then (old, m.2)
  else
    let k := free m.2 (!stays && unsure)
    ((if stays || k.1 then old else old &&& (2 ^ 64 - 1 - 2 ^ from')) ||| 2 ^ dst, k.2)

/-- The CLUS fields of a die's entries after a vcore has moved between two of its clusters (R303). -/
def rewriteSheaf (s : State) (d v from' dst : Nat) : State :=
  let x := (s.die d).sheaf.foldl (fun (y : List Sheaf × State) e =>
    let c := y.2.rewriteClus d v from' dst e
    (y.1 ++ [BitVec.ofNat 128 (e.toNat / 2 ^ 64 * 2 ^ 64 + c.1)], c.2)) ([], s)
  x.2.updDie d fun y => { y with sheaf := x.1 }

/-- The placement entry of a vcore after its move, its forwarding entry at the old position out of hold, and
its swath entries, beside those of the vcore that a swap moves with it (R278, R288 steps 4 to 6, R308). -/
def placeAt (s : State) (v p q : Nat) (pl : Place) (segb : BitVec 10) (other : Option Nat) : State :=
  let t := s.updVcore v fun x => { x with place := pl, pos := q, res := 0, lock := false, segb := segb }
  let u := t.addFwd p { vc := v, pos := q, hold := false, lapses := s.time + 2 ^ 20 }
  let w := (u.moveEntries v (portStore q) other).getD u
  if dieOf p = dieOf q && cluOf p != cluOf q then w.rewriteSheaf (dieOf p) v (torusOf p) (torusOf q) else w

/-- End the PLC instruction that waits for a move. -/
def endPlc (s : State) (k : Option Nat) : State :=
  match k with
  | some k => s.endToken k fun x => x
  | none => s

/-- The exchange of the occupants of two positions (R288). -/
def doSwap (s : State) (a b : Nat) : State :=
  let u := s.occupant a
  let v := s.occupant b
  let xs := match u with | some v => s.takeOut a v | none => ([], s)
  let ys := match v with | some v => xs.2.takeOut b v | none => ([], xs.2)
  let ca := ys.2.core a
  let cb := ys.2.core b
  let give (c d : Core) : Core :=
    { c with
      spad := d.spad, full := d.full, spoiled := d.spoiled, guests := d.guests.map bankClear
      client := d.client, askers := d.askers, lvq := d.lvq }
  let t := ((ys.2.setCore a (give ca cb)).setCore b (give cb ca)).swapWindows a b
  let t := match u with | some w => t.placeAt w a b .placed (s.vcore w).segb v | none => t
  let t := match v with | some w => t.placeAt w b a .placed (s.vcore w).segb u | none => t
  let t := match u with | some w => t.putIn b w xs.1 id 0 | none => t
  let t := match v with | some w => t.putIn a w ys.1 id 0 | none => t
  let t := t.reroute fun p => if p = a then b else if p = b then a else p
  (((t.guestSettle a).guestSettle b).settleCore a).settleCore b

/-- Guests beyond the eight that a core's queue holds are on their way to it still (R27). -/
def guestOverflow (s : State) (q : Nat) : State :=
  let l := (s.core q).guests
  (l.drop 8).foldl (fun t g =>
    t.inject { load := .thread g g.occ g.occ, key := s.part.key, dst := q, die := dieOf q })
    (s.updCore q fun c => { c with guests := l.take 8 })

/-- Hand a vcore's guests and channel records over to another core, beside the records that the core keeps for the
requests its own movement thread has taken (R257).  A fold in place changes only the slots that its records name. -/
def handOver (s : State) (p q v : Nat) (dst : Fin 16 → Fin 16) : State :=
  let c := s.core p
  let mine := (c.askers.filter fun a => a.vc == v).map fun a => { a with now := dst a.now }
  let merge (l : List Asker) : List Asker :=
    (l.filter fun a => a.vc != v && !mine.any fun b => b.slot == a.slot && b.taker == a.taker) ++ mine
  if p = q then s.updCore p fun x => { x with askers := merge x.askers }
  else
    let pairs := slotIds.any fun j => (s.slotAt p j).pair.isSome
    ((s.updCore p fun x =>
      { x with
        guests := x.guests.filter fun g => g.occ != v
        askers := x.askers.filter fun a => a.vc != v
        client := if x.client = some v then none else x.client
        lvq := if pairs then x.lvq else none }).updCore q fun x =>
      { x with
        guests := x.guests ++ (c.guests.filter fun g => g.occ == v).map bankClear
        askers := merge x.askers
        lvq := if pairs then x.lvq else x.lvq.or c.lvq }).guestOverflow q

/-- PLC.MIGX's move to an empty core (R289): BASE becomes 0. -/
def doMove (s : State) (v q : Nat) : State :=
  let x := s.vcore v
  let p := x.pos
  let base := 256 * x.segb.toNat
  let xs := s.takeOut p v
  let t := xs.2.copySegment p q base 0 (256 * (x.segl.toNat + 1))
  let t := if x.place = .placed then t.moveWindow v p q else t
  let t := if (s.core p).client = some v then t.updCore q fun c => { c with client := some v } else t
  let t := (((t.handOver p q v id).placeAt v p q .placed 0 none).shiftSaved v (-(base : Int))).putIn q v xs.1 id (-(base : Int))
  let t := t.reroute fun r => if r = p then q else r
  (((t.guestSettle p).guestSettle q).settleCore p).settleCore q

/-- The order in which a fold assigns slots (R289): the vcore's own threads in TNUM order, then its guests by
slot number. -/
def foldOrder (v : Nat) (xs : List (Fin 16 × Slot)) : List (Fin 16) :=
  let work := xs.filter fun x => x.2.busy && x.1 != 15
  let own := (slotIds.flatMap fun n => work.filter fun x => x.2.tid.vc == v && x.2.tid.tnum == n).map (·.1)
  own ++ (work.filter fun x => x.2.tid.vc != v).map (·.1) ++ (xs.filter fun x => !x.2.busy).map (·.1)

/-- The movement thread of a folded vcore is saved as yielded, to resume in slot 15 (R141). -/
def saveMovement (s : State) (x : Slot) : State :=
  let n := s.fresh1
  let w : Vector Word 16 := vput (vput (Vector.replicate 16 0) 1 (BitVec.ofNat 64 x.tid.vc)) 0
    (BitVec.ofNat 64 (x.prio * 2 ^ 38 + 2 ^ 44))
  (n.2.updPart fun q =>
    { q with queue := q.queue.put n.1 { w := w, accepted := s.time, ready := some s.time, yielded := some x.tid, saved := true } }).setMap
    x.tid { s.mapEntry x.tid with state := .yielded, saved := some x }

/-- PLC.FOLD's move onto a core (R289). -/
def doFold (s : State) (v : Nat) (base : BitVec 10) (q : Nat) : State :=
  let x := s.vcore v
  let p := x.pos
  let old := 256 * x.segb.toNat
  let d : Int := 256 * (base.toNat : Int) - old
  let xs := s.takeOut p v
  let order := foldOrder v xs.1
  let room := workIds.filter fun j => !((xs.2.core q).slots.get j).busy
  let dst (j : Fin 16) : Fin 16 := if j = 15 then 15 else room.getD (order.idxOf j) j
  let keep15 := !((xs.2.core q).slots.get 15).busy
  let t := xs.2.copySegment p q old (256 * base.toNat) (256 * (x.segl.toNat + 1))
  let t := if (s.core p).client = some v && keep15 then t.updCore q fun c => { c with client := some v } else t
  let t := ((t.handOver p q v dst).placeAt v p q .folded base none).shiftSaved v d
  let t := t.putIn q v (xs.1.filter fun y => y.1 != 15 || keep15) dst d
  let t := if keep15 then t
    else (xs.1.filter fun y => y.1 == 15).foldl (fun t y =>
      t.saveMovement { bankClear y.2 with pendC := y.2.pendC.map (shiftPend d), pendA := y.2.pendA.map (shiftPend d) }) t
  let t := t.reroute fun r => if r = p && (s.vcoresAt p).length == 1 then q else r
  (((t.guestSettle p).guestSettle q).settleCore p).settleCore q

/-- Does no swath entry that an exchange moves wait for its spill position (R308)? -/
def entriesMay (s : State) (e : Exch) : Bool :=
  let may (v : Option Nat) (q : Nat) (other : Option Nat) : Bool := match v with
    | some v => (s.moveEntries v (portStore q) other).isSome
    | none => true
  match e with
  | .swap a b _ => may (s.occupant a) b (s.occupant b) && may (s.occupant b) a (s.occupant a)
  | .move v q _ | .fold v _ q _ => may (some v) q none

/-- Is an exchange ready for step 4 (R288): buffers drained, vector units and engines done, no half of the
two cores waiting for room in a buffer and no entry for its spill position, and the trailing threads have caught up
(R342); and the dies run (R361)? -/
def exchReady (s : State) (e : Exch) : Bool :=
  let c := s.exchCores e
  let drained (p : Nat) : Bool :=
    (s.core p).buffer.isEmpty && (s.core p).vector.isEmpty &&
      slotIds.all fun j =>
        let roomy (q : Option Pend) : Bool := match q with
          | some q => q.wait == .room
          | none => false
        !roomy (s.slotAt p j).pendC && !roomy (s.slotAt p j).pendA
  s.dieRuns (dieOf c.1) && s.dieRuns (dieOf c.2) && drained c.1 && drained c.2 && s.coreQuiet c.1 && s.entriesMay e && s.pairsTogether c.1 && s.pairsTogether c.2 &&
    (match e with
     | .fold _ _ _ _ => true
     | _ => s.coreQuiet c.2)

/-- Complete an exchange (R288 steps 4 to 6). -/
def exchange (s : State) (a b : Nat) : State :=
  match s.exchanges.find? fun e => s.exchCores e == (a, b) with
  | none => s
  | some e =>
    if !s.exchReady e then s
    else
      let t := { s with exchanges := s.exchanges.filter fun f => f != e }
      let u := match e with
        | .swap a b k => (t.doSwap a b).endPlc k
        | .move v q k => (t.doMove v q).endPlc k
        | .fold v base q k => (t.doFold v base q).endPlc k
      (u.goOn a).goOn b

/-- Begin an exchange or move (R288 steps 1 and 2): the entries take LOCK and the old positions forwarding
entries in the hold state. -/
def beginExch (s : State) (e : Exch) : State :=
  let c := s.exchCores e
  let lock (t : State) (v p q : Nat) : State :=
    ((t.askSpill v).updVcore v fun x => { x with lock := true }).addFwd p { vc := v, pos := q, hold := true, lapses := 0 }
  let t := { s with exchanges := s.exchanges ++ [e] }
  match e with
  | .swap a b _ =>
    let t := match s.occupant a with | some v => lock t v a b | none => t
    match s.occupant b with | some v => lock t v b a | none => t
  | .move v _ _ | .fold v _ _ _ => lock t v c.1 c.2

/-- May a vcore begin to move from its core: the core is in no other exchange and R240, R255, R303 and R308 hold, and
the die runs (R361)? -/
def mayMove (s : State) (p : Nat) (v : Option Nat) : Bool :=
  !s.frozen p && s.dieRuns (dieOf p) && s.coreQuiet p &&
    (match v with
     | some v => s.vcoreQuiet v
     | none => true)

/-- Begin the move of a PLC form, or wait until it may begin. -/
def plcStart (s : State) (ins : Instr) (ok : Bool) (e : Nat → Exch) : State :=
  if ok then
    let k := s.fresh1
    (k.2.beginExch (e k.1)).park ins 2 [] (.token k.1)
  else s.park ins 1 [] .poll

end State

/-- PLC.SWAP (R289).  ga is judged before gb, and equal positions or positions of different dies blame gb (log entry
117); a sealed position counts as a retired one (log entry 52). -/
def execPlcSwap (ra rb : Reg) (s : State) : Res :=
  let a := s.g ra
  let b := s.g rb
  let p := a.toNat
  let q := b.toNat
  let foldedAt (p : Nat) : Bool := s.vcores.any fun v => v.2.place == .folded && v.2.pos == p
  .next
    (if !s.sup then s.trap .priv 0
     else if bits a 63 12 ≠ 0 || s.unusable p || foldedAt p then s.trap .illegal a
     else if bits b 63 12 ≠ 0 || p = q || dieOf p ≠ dieOf q || s.unusable q || foldedAt q then
       s.trap .illegal b
     else
       s.plcStart (.plcSwap ra rb) (s.mayMove p (s.occupant p) && s.mayMove q (s.occupant q))
         fun k => .swap p q (some k))

/-- Is a vcore of this package PLACED or FOLDED (R289)? -/
def movable (s : State) (a : Word) : Bool :=
  let x := s.vcore a.toNat
  bits a 63 36 == 0 && pkgOf a.toNat == s.pkg && (x.place == .placed || x.place == .folded)

/-- PLC.MIGX (R289), ga judged before gb (log entry 117). -/
def execPlcMigx (ra rb : Reg) (s : State) : Res :=
  let a := s.g ra
  let b := s.g rb
  let v := a.toNat
  let q := b.toNat
  let empty := (s.vcoresAt q).isEmpty && slotIds.all fun j => !(s.slotAt q j).busy
  .next
    (if !s.sup then s.trap .priv 0
     else if !movable s a then s.trap .illegal a
     else if bits b 63 12 ≠ 0 || !empty || s.unusable q then s.trap .illegal b
     else
       s.plcStart (.plcMigx ra rb) (s.mayMove (s.posOf v) (some v) && !s.frozen q && s.dieRuns (dieOf q) && !(s.vcore v).lock)
         fun k => .move v q (some k))

/-- Does a segment of a vcore at BASE meet another occupant's at a core (R289)? -/
def segmentMeets (s : State) (v base q : Nat) : Bool :=
  let n := (s.vcore v).segl.toNat + 1
  (s.vcoresAt q).any fun w =>
    w != v && State.overlap base n (s.vcore w).segb.toNat ((s.vcore w).segl.toNat + 1)

/-- PLC.FOLD (R289), ga judged before gb; a tile that is not EMPTY blames ga (log entry 117). -/
def execPlcFold (ra rb : Reg) (s : State) : Res :=
  let a := s.g ra
  let b := s.g rb
  let v := a.toNat
  let q := bits b 11 0
  let base := bits b 25 16
  let p := s.posOf v
  let threads := workIds.filter fun j =>
    (s.slotAt p j).busy && (s.slotAt p j).occ == v &&
      (match (s.slotAt p j).life with | .helper _ => false | _ => true)
  let free := workIds.filter fun j => !(s.slotAt q j).busy
  let filled := (List.range 8).any fun i =>
    match (s.cluster (cluOf p)).eng.tiles.get (windowOf p + i) with
    | some t => t.owner == v % 2 ^ 16 && t.kind != .empty
    | none => false
  .next
    (if !s.sup then s.trap .priv 0
     else if !movable s a || filled then s.trap .illegal a
     else if bits b 63 26 ≠ 0 || bits b 15 12 ≠ 0 || decide (1024 < base + (s.vcore v).segl.toNat + 1) ||
         segmentMeets s v base q || decide (free.length < threads.length) || s.unusable q then s.trap .illegal b
     else
       s.plcStart (.plcFold ra rb) (s.mayMove p (some v) && (p == q || !s.frozen q) && s.dieRuns (dieOf q) && !(s.vcore v).lock)
         fun k => .fold v (BitVec.ofNat 10 base) q (some k))

/-- EXCHANGE (R288, R289). -/
def execExchange (posA posB : Nat) (s : State) : Res := .next (s.exchange posA posB)

namespace State

/-! ### The Tedder (R286, R287) -/

/-- The highest bit of a number, plus one. -/
def bitLength (n : Nat) : Nat := if n = 0 then 0 else n.log2 + 1

/-- The distance between two positions of the package (R22, R287). -/
def distance (p q : Nat) : Nat :=
  if cluOf p = cluOf q then 0
  else if dieOf p ≠ dieOf q then 16
  else bitLength (2 * torusOf p ^^^ 2 * torusOf q)

/-- The cost of a vcore at a position; `other` is the other member of the pair, if any, and where it then
is (R287). -/
def cost (s : State) (v p : Nat) (other : Option (Nat × Nat)) : Int :=
  (s.vcore v).partners.foldl (fun c x =>
    let far : Option Nat :=
      if pkgOf x.1 ≠ s.pkg then some 64
      else match other with
        | some (w, q) => if w = x.1 then some (distance p q) else place x.1
        | none => place x.1
    match far with
    | some d => c + x.2 * d
    | none => c) 0
where
  place (w : Nat) : Option Nat :=
    if w = v then some 0
    else if (s.vcore w).place = .placed then some (distance p (s.posOf w)) else none

/-- The gain of exchanging the occupants of two positions (R287): in every cost the other member of the pair stands
at its position after the swap. -/
def gain (s : State) (a b : Nat) : Int :=
  let u := s.occupant a
  let v := s.occupant b
  let c (x : Option Nat) (p : Nat) (o : Option (Nat × Nat)) : Int := match x with
    | some w => s.cost w p o
    | none => 0
  c u a (v.map fun w => (w, a)) + c v b (u.map fun w => (w, b)) - c u b (v.map fun w => (w, a)) - c v a (u.map fun w => (w, b))

/-- The torus neighbours of a position (R17). -/
def neighbours (t : Nat) : List Nat :=
  let x := t % 8
  let y := t / 8
  [(x + 7) % 8 + 8 * y, (x + 1) % 8 + 8 * y, x + 8 * ((y + 7) % 8), x + 8 * ((y + 1) % 8)]

/-- The candidate pairs of a die, each with its lower position first (R287). -/
def candidates (d : Nat) : List (Nat × Nat) :=
  (List.range 512).flatMap fun n =>
    let p := 512 * d + n
    let near := ((List.range 8).map fun k => 512 * d + n / 8 * 8 + k) ++
      ((neighbours (n / 8)).map fun c => 512 * d + 8 * c + n % 8)
    ((near.filter fun q => decide (p < q)).foldl insertNat []).map fun q => (p, q)

/-- May the Tedder move what stands at a position to another (R287, R308)? -/
def tedderSide (s : State) (p q : Nat) : Bool :=
  let inst := bits s.part.tedc 3 0
  !s.unusable p && !(s.vcores.any fun v => v.2.place == .folded && v.2.pos == p) &&
    (match (s.core p).swapped with
     | some k => decide (k + inst < s.instants + 1)
     | none => true) &&
    s.mayMove p (s.occupant p) &&
    (match s.occupant p with
     | some v =>
       decide (bits s.part.tedm 3 0 ≤ (s.vcore v).res) && (s.vcore v).gang.isNone && !(s.vcore v).lock &&
         s.entriesFit v (portStore q) (s.occupant q)
     | none => true)

/-- Is a pair eligible (R287)? -/
def eligible (s : State) (a b : Nat) : Bool :=
  decide ((bits s.part.tedg 31 0 : Int) ≤ s.gain a b) && s.tedderSide a b && s.tedderSide b a

/-- Choose pairs in decreasing gain, a tie by the lower position; which of two pairs with the same lower
position comes first is not stated. -/
def choosePairs (s : State) : Nat → List (Nat × Nat × Int) → List (Nat × Nat) × State
  | 0, _ => ([], s)
  | fuel + 1, l =>
    match l with
    | [] => ([], s)
    | _ =>
      let top := l.foldl (fun m x => max m x.2.2) (l.headD (0, 0, 0)).2.2
      let best := l.filter fun x => x.2.2 == top
      let low := best.foldl (fun m x => min m x.1) (best.headD (0, 0, 0)).1
      let tie := best.filter fun x => x.1 == low
      let n := s.pick tie.length
      let x := tie.getD n.1 (0, 0, 0)
      let rest := l.filter fun y => y.1 != x.1 && y.1 != x.2.1 && y.2.1 != x.1 && y.2.1 != x.2.1
      let r := choosePairs n.2 fuel rest
      ((x.1, x.2.1) :: r.1, r.2)

/-- Is a swap instant due (R285)? -/
def instantDue (s : State) : Bool :=
  let log := bits s.part.tedi 4 0
  log != 0 && !s.part.quiet && s.time % 2 ^ log == 0 && s.instant != s.time + 1

/-- A swap instant: choose and begin the exchanges, halve every count, raise RES (R286, R287). -/
def tedder (s : State) : State :=
  let r := (List.range 8).foldl (fun (x : List (Nat × Nat) × State) d =>
    let l := ((candidates d).filter fun c => s.eligible c.1 c.2).map fun c => (c.1, c.2, s.gain c.1 c.2)
    let y := x.2.choosePairs l.length l
    (x.1 ++ y.1, y.2)) ([], s)
  let n := s.instants + 1
  let swapped (v : VCore) : Bool := r.1.any fun c => c.1 == v.pos || c.2 == v.pos
  let t := { r.2 with
    instant := s.time + 1, instants := n
    vcores := r.2.vcores.map fun v =>
      (v.1, { v.2 with
        partners := v.2.partners.map fun x => (x.1, x.2 / 2)
        res := if v.2.place = .placed && !swapped v.2 then min 15 (v.2.res + 1) else v.2.res }) }
  r.1.foldl (fun t c =>
    let mark (t : State) (p : Nat) : State := t.updCore p fun x => { x with swapped := some n }
    (mark (mark t c.1) c.2).beginExch (.swap c.1 c.2 none)) t

end State

/-- TEDDER_INSTANT (R287). -/
def execTedderInstant (s : State) : Res := .next (if s.instantDue then s.tedder else s)

end Sys2Proof.Machine
end

