-- ==== Sys2Proof/Machine/Sched.lean ====
section
/-! DEFINITION. The dispatcher: DISPATCH, GANG_PLACEMENT and COMPACTION, and what Spahan does to create a vcore
(R27, R137-R141, R153, R155, R229, R270). -/

namespace Sys2Proof.Machine

namespace State

/-! ### Vcores (R153, R155, R229, R255, R290, R306) -/

/-- Is a core free of vcores and threads, and can placement use it?  A die whose clocks are stopped takes none (R361). -/
def coreFree (s : State) (p : Nat) : Bool :=
  !s.unusable p && s.dieRuns (dieOf p) && (s.vcoresAt p).isEmpty && !s.frozen p && (slotIds.all fun j => !(s.slotAt p j).busy) &&
    (s.core p).guests.isEmpty

/-- The free cores of a die. -/
def freeCores (s : State) (d : Nat) : List Nat := ((List.range 512).map fun n => 512 * d + n).filter s.coreFree

/-- What Spahan writes into a kept value of a vcore that it creates (R155): it leaves the old value, or writes one of its
own that the register admits (R167, R327); the n-th of its free choices (log entry 13). -/
def spahanWord (s : State) (n : Nat) (old : Word) (mask : Word) (ok : Word → Bool) : Word :=
  let w := Config.word (s.tick + 2 * n + 1) &&& mask
  if Config.bit (s.tick + 2 * n) && ok w then w else old

/-- The bits that TVEC and ORTB hold (R167, R327), and an LLOG in its range. -/
def tvecMask : Word := 0x3FFFFFFFF8
def ortbMask : Word := 0x07C0FFFFFFFFF000
def ortbOk (w : Word) : Bool := decide (1 ≤ tableLog w) && decide (tableLog w ≤ 24)

/-- Create a vcore on a free core: its scratchpad is zero but for its image, its tiles are EMPTY, Spahan writes its kept
TVEC and ORTB, and its record table is the partition's where it has none of its own (log entry 13).  Its thread
generations stay (R270). -/
def createVcore (s : State) (v p : Nat) (gang : Option (Nat × Block)) : State :=
  let x := s.vcore v
  let y : VCore :=
    { place := .placed, segl := x.segl, pos := p, ortb := s.spahanWord 1 (if x.ortb = 0 then s.part.ortb else x.ortb) ortbMask ortbOk
      tvec := s.spahanWord 0 x.tvec tvecMask fun _ => true, image := x.image, gang := gang
      map := x.map.map fun m => { gen := m.gen } }
  ((({ s with tick := s.tick + 4 } : State).updVcore v fun _ => y).updCore p fun c =>
    { c with
      spad := x.image.foldl (fun m b => if b.1 < 2 ^ 18 then Memory.write m b.1 b.2 else m) []
      full := [], spoiled := [], client := none, askers := [] }).newWindow p v

/-- The block of a gang some of whose vcores exist (R140). -/
def gangOf (s : State) (gid : Nat) : Option (Nat × Block) :=
  firstSome (fun v : Nat × VCore => v.2.gang.filter fun g => g.1 == gid) s.vcores

/-- Does a packet of the task queue still name a vcore, or any vcore of its gang? -/
def packetNames (q : Packet) (v : Nat) (x : VCore) : Bool :=
  (!Pkt.any q.w && Pkt.vcore q.w == v) ||
    (Pkt.any q.w && (match x.gang with
      | some g => g.1 == Pkt.gangId q.w
      | none => false))

/-- May a supervisor core write EXITED into a vcore's placement entry (R277)?  The spec does not say when it does: here
once nothing of the vcore is at work and no packet names it (log entry 104). -/
def mayExit (s : State) (v : Nat) : Bool :=
  let x := s.vcore v
  let p := x.pos
  isPlaced x && !x.lock && !s.frozen p && s.dieRuns (dieOf (homeSup v)) && (x.map.toList.all fun m => m.state == .none) &&
    s.vcoreQuiet v && s.coreQuiet p && (s.core p).buffer.isEmpty && (s.core p).guests.all (fun g => g.occ != v) &&
    (slotIds.all fun j => !(s.slotAt p j).busy || (s.slotAt p j).occ != v) &&
    (s.part.queue.all fun q => !packetNames q.2 v x) && (s.part.live.all fun q => Pkt.vcore q.2.w != v) &&
    s.part.graphs.all fun g => g.retired || Pkt.vcore g.w != v

/-- A supervisor core writes EXITED into a vcore's placement entry (R277). -/
def exitVcore (s : State) (v : Nat) : State :=
  s.updVcore v fun x => { x with place := .exited, pos := 0, res := 0, gang := none }

/-! ### Readiness and order (R137, R139) -/

/-- Is a dependence word full, as the dispatcher sees it?  A word in another package is seen as that
package tells (log entry 4); a word that is 0, which R136 lets a packet hold below NDEP, is never full, which is the
model's choice (log entry 81), as is that the word is looked up at its offset rounded down to 8 bytes, beyond its
vcore's segment too. -/
def depFull (s : State) (w : Word) : Bool × State :=
  match remoteAddr w with
  | none => (false, s)
  | some (v, off) =>
    if pkgOf v ≠ s.pkg then s.coin
    else
      let x := s.vcore v
      ((x.place == .placed || x.place == .folded) &&
        isFull (s.core x.pos) ((segBase (s.keptSeg v) + off) / 8), s)

/-- The dispatcher observes the dependence words of a packet: all full makes it ready. -/
def observe (s : State) (pid : Nat) (q : Packet) : State :=
  let r := (List.finRange 4).foldl (fun (x : Bool × State) i =>
    if i.val < Pkt.ndep q.w then
      let y := x.2.depFull (Pkt.dep q.w i)
      (x.1 && y.1, y.2)
    else x) (true, s)
  if r.1 then r.2.updPart fun p => { p with queue := p.queue.put pid { q with ready := some s.time } } else r.2

/-- Effective priority (R139). -/
def effPrio (s : State) (q : Packet) : Nat :=
  min 3 (Pkt.prio q.w + (s.time - q.ready.getD s.time) / 2 ^ 20)

/-- Does packet a come before packet b at a core: by effective priority, readiness, acceptance? -/
def before (s : State) (a b : Nat × Packet) : Bool :=
  let k (x : Nat × Packet) : Nat × Nat × Nat := (3 - s.effPrio x.2, x.2.ready.getD 0, x.1)
  let x := k a
  let y := k b
  decide (x.1 < y.1) || (x.1 == y.1 && (decide (x.2.1 < y.2.1) || (x.2.1 == y.2.1 && decide (x.2.2 < y.2.2))))

/-- Is a packet for a core first in its order there?  One that is first and can take no slot holds back the later ones,
which is the model's choice (log entry 97). -/
def firstAt (s : State) (pid : Nat) (q : Packet) (p : Nat) : Bool :=
  s.part.queue.all fun y => y.1 == pid || !s.packetFor y.2 p || s.before (pid, q) y

/-- Can a movement packet start its thread: is thread number 15 of its vcore NONE, or is it that thread's own entry
(R141, R270)? -/
def moveMay (s : State) (q : Packet) : Bool :=
  q.yielded.isSome || ((s.vcore (Pkt.vcore q.w)).map.get 15).state == .none

/-- The order of movement packets for a core; a movement thread that a fold has saved comes first (R141). -/
def firstMove (s : State) (pid : Nat) (q : Packet) (p : Nat) : Bool :=
  s.part.queue.all fun y =>
    y.1 == pid || y.2.ready.isNone || !Pkt.move y.2.w || s.posOf (Pkt.vcore y.2.w) != p || !s.moveMay y.2 ||
      (if q.saved && !y.2.saved then true
       else if !q.saved && y.2.saved then false
       else s.before (pid, q) y)

/-! ### Slots for tasks (R138, R139) -/

/-- The slot a new task of a vcore takes at its core: the lowest that is empty with its thread number NONE. -/
def taskSlot (s : State) (p v : Nat) : Option (Fin 16) :=
  let c := s.core p
  if dualWaits c || !c.guests.isEmpty then none
  else workIds.find? fun j => !(c.slots.get j).busy && ((s.vcore v).map.get j).state == .none

/-- A packet needs a slot of a core and none is empty: the run-ahead helper in the highest slot ends (R139). -/
def endHelper (s : State) (p : Nat) : Option State :=
  let c := s.core p
  if dualWaits c || !c.guests.isEmpty || (lowestEmpty c).isSome then none
  else (highestHelper c).map fun j => s.updSlot p j vacated

/-- The registers of a task at dispatch (R138); the slot's own are set as it takes the slot. -/
def taskRegs (q : Pkt.Words) (v : Nat) : Regs :=
  { pc := BitVec.ofNat 38 (Pkt.pc q).toNat
    ts := Vector.ofFn fun i : Fin 8 =>
      if i = 0 then BitVec.ofNat 64 (bits (Pkt.ts q 0) 63 36 * 2 ^ 36 + v) else Pkt.ts q i }

/-- A packet is dispatched to a slot: TGEN rises and the progress count rises (R138, R270, R343). -/
def startTask (s : State) (pid : Nat) (q : Packet) (p v : Nat) (j : Fin 16) : State :=
  let gen := ((s.vcore v).map.get j).gen + 1
  let tid : Tid := { vc := v, tnum := j, gen := gen }
  let ctx : Slot :=
    { life := if j = 15 then .movement else .task
      regs := taskRegs q.w v, tid := tid, occ := v, cpl := Pkt.cpl q.w, prio := Pkt.prio q.w, pid := pid }
  let t := (s.updSlot p j emptied).setMap tid { gen := gen }
  ((t.takeSlot p j ctx v true).updPart fun x =>
    { x with queue := x.queue.del pid, live := x.live.put pid q }).progressed

/-- A wait on the leaf that a thread has left is tried again at the leaf of the core it comes to (R147). -/
def releaf (q : Pend) : Pend :=
  match q.wait with
  | .leaf _ => { q with wait := .poll }
  | _ => q

/-- A yielded thread resumes in a slot with its whole context (R141, R144), its RMODE included: resuming is not
taken for a dispatch, which is the model's choice (log entry 76).  What it waits for is settled at its new core. -/
def resumeYielded (s : State) (pid : Nat) (t : Tid) (p : Nat) (j : Fin 16) : State :=
  let u := s.updPart fun x => { x with queue := x.queue.del pid }
  match (s.mapEntry t).saved with
  | none => u
  | some ctx =>
    (u.takeSlot p j { ctx with pendC := ctx.pendC.map releaf, pendA := ctx.pendA.map releaf } t.vc false).feSettle p

/-- Can the dispatcher reach a core now? -/
def reachable (s : State) (p : Nat) : Bool := !s.frozen p && !s.unusable p && s.dieRuns (dieOf p)

/-- Dispatch a ready packet at a core, if it is first there and has a slot. -/
def dispatchAt (s : State) (pid : Nat) (q : Packet) (p v : Nat) : Option State :=
  if !s.reachable p then none
  else if Pkt.move q.w then
    if (s.slotAt p 15).busy || !s.firstMove pid q p then none
    else match q.yielded with
      | some t => some (s.resumeYielded pid t p 15)
      | none =>
        if ((s.vcore v).map.get 15).state = .none then some (s.startTask pid q p v 15) else none
  else if !s.firstAt pid q p then none
  else match q.yielded with
    | some t => if !(s.core p).guests.isEmpty then none else (s.reclaim p).map fun r => r.2.resumeYielded pid t p r.1
    | none => ((s.taskSlot p v).map fun j => s.startTask pid q p v j).or (s.endHelper p)

/-- The cores of a placed gang with their vcores, in increasing position. -/
def gangCores (s : State) (gid : Nat) : List (Nat × Nat) :=
  (List.range 4096).filterMap fun p =>
    match s.occupant p with
    | some v => match (s.vcore v).gang with
      | some g => if g.1 = gid then some (p, v) else none
      | none => none
    | none => none

/-- A ready packet for a vcore of another package leaves for that package, whose dispatcher places it (R139, R142). -/
def leavePackage (s : State) (pid : Nat) (q : Packet) : State :=
  (s.updPart fun x => { x with queue := x.queue.del pid, live := x.live.put pid { q with far := true } }).progressed

/-- The task of a packet that has left for another package has retired there (R143): its completion word takes what that
package gives (log entry 5). -/
def farRetire (s : State) (pid : Nat) : State :=
  match s.part.live.get pid with
  | none => s
  | some q =>
    if !q.far then s
    else
      let n := s.freeWord
      let t := if Pkt.cpl q.w = 0 then n.2 else n.2.fillFrom none (Pkt.cpl q.w) n.1
      (t.updPart fun x => { x with live := x.live.del pid }).progressed.retireGraph pid

/-- A packet of the queue is observed, its vcore placed, or the packet dispatched (R137, R139). -/
def dispatch (s : State) (pid : Nat) : State :=
  match s.part.queue.get pid with
  | none => s.farRetire pid
  | some q =>
    if s.part.quiet then s
    else if q.ready.isNone then s.observe pid q
    else if Pkt.any q.w then
      if s.part.away.contains (Pkt.gangId q.w) then s.leavePackage pid q
      else (firstSome (fun c : Nat × Nat => s.dispatchAt pid q c.1 c.2) (s.gangCores (Pkt.gangId q.w))).getD s
    else if Pkt.gang q.w && !q.again then s
    else
      let v := Pkt.vcore q.w
      let x := s.vcore v
      if pkgOf v ≠ s.pkg then s.leavePackage pid q
      else match x.place with
        | .placed | .folded => if x.lock then s else (s.dispatchAt pid q x.pos v).getD s
        | .unplaced =>
          -- a supervisor core places the vcore on a free core
          let free := (List.range 8).flatMap s.freeCores
          if free.isEmpty then s
          else
            let n := s.pick free.length
            n.2.createVcore v (free.getD n.1 0)
              (if Pkt.gang q.w then s.gangOf (Pkt.gangId q.w) else x.gang)
        | .exited => s

/-! ### Gangs (R140) -/

/-- The member packets of a gang in the queue that wait for its placement. -/
def gangPackets (s : State) (gid : Nat) : List (Nat × Packet) :=
  s.part.queue.filter fun q =>
    Pkt.gang q.2.w && !Pkt.any q.2.w && Pkt.gangId q.2.w == gid && !q.2.again

/-- A whole ready gang: the packets in the order of MEMBER, and its shape. -/
def wholeGang (s : State) (gid : Nat) : Option (List (Nat × Packet) × Nat × Nat) :=
  let ps := s.gangPackets gid
  match ps with
  | [] => none
  | q :: _ =>
    let w := Pkt.gw q.2.w
    let h := Pkt.gh q.2.w
    let n := 8 * w * h
    let sorted := (List.range n).filterMap fun m => ps.find? fun x => Pkt.member x.2.w == m
    if ps.length = n && sorted.length = n && ps.all (fun x => x.2.ready.isSome && Pkt.gw x.2.w == w && Pkt.gh x.2.w == h)
    then some (sorted, w, h) else none

/-- The core positions of a block in member order. -/
def blockCores (b : Block) : List Nat :=
  (blockClusters b).flatMap fun c => (List.range 8).map fun k => 512 * b.die + 8 * c + k

/-- Place a whole gang on the first block whose cores hold no vcore, and dispatch its members.  A gang with a member
whose vcore is placed, folded or exited already, or whose members name vcores of several packages, is never placed, which
is the model's choice (log entry 82). -/
def placeGang (s : State) (gid : Nat) : Option State :=
  match s.wholeGang gid with
  | none => none
  | some (ps, w, h) =>
    if s.part.quiet || !(ps.all fun q =>
        (s.vcore (Pkt.vcore q.2.w)).place == .unplaced && pkgOf (Pkt.vcore q.2.w) == s.pkg) then none
    else
      match (blocks w h).find? fun b => (blockCores b).all s.coreFree with
      | none => none
      | some b =>
        some ((ps.zip (blockCores b)).foldl (fun t x =>
          let v := Pkt.vcore x.1.2.w
          (t.createVcore v x.2 (some (gid, b))).startTask x.1.1 x.1.2 x.2 v 0) s)

/-- A whole ready gang whose vcores another package holds leaves for that package, and packets for any core of it follow
(R139, R142). -/
def farGang (s : State) (gid : Nat) : Option State :=
  match s.wholeGang gid with
  | some (q :: ps, _, _) =>
    let k := pkgOf (Pkt.vcore q.2.w)
    if s.part.quiet || k = s.pkg || !(ps.all fun x => pkgOf (Pkt.vcore x.2.w) == k) then none
    else some (((q :: ps).foldl (fun t x => t.leavePackage x.1 x.2) s).updPart fun x =>
      { x with away := insertNat x.away gid })
  | _ => none

/-- Move one non-gang vcore out of the first block that can be emptied (R140), the first in the order in
which blocks are placed, which is the model's choice (log entry 116). -/
def compact (s : State) (gid : Nat) : State :=
  match s.wholeGang gid with
  | none => s
  | some (ps, w, h) =>
    let ready := ps.foldl (fun m q => max m (q.2.ready.getD 0)) 0
    if s.time < ready + 2 ^ 16 || s.part.quiet || (s.placeGang gid).isSome then s
    else
      let free := (List.range 8).flatMap s.freeCores
      let usable (b : Block) : Bool :=
        s.dieRuns b.die && (blockCores b).all fun p =>
          !s.unusable p && (s.vcoresAt p).all fun v => (s.vcore v).gang.isNone
      let move (b : Block) : Option (Nat × Nat) :=
        let out := free.filter fun p => !(blockCores b).contains p
        let vs := (blockCores b).flatMap fun p => (s.vcoresAt p).filter fun v =>
          s.mayMove p (some v) && !(s.vcore v).lock
        match vs, out with
        | v :: _, p :: _ => some (v, p)
        | _, _ => none
      match firstSome move ((blocks w h).filter usable) with
      | some (v, p) => s.beginExch (.move v p none)
      | none => s

end State

/-- DISPATCH (R137-R139, R141). -/
def execDispatch (pid : Nat) (s : State) : Res := .next (s.dispatch pid)

/-- GANG_PLACEMENT (R140). -/
def execGangPlacement (gang : Nat) (s : State) : Res := .next (((s.placeGang gang).or (s.farGang gang)).getD s)

/-- COMPACTION (R140). -/
def execCompaction (gang : Nat) (s : State) : Res := .next (s.compact gang)

end Sys2Proof.Machine
end

