-- ==== Sys2Proof/Machine/System.lean ====
section
/-! DEFINITION. System, trap and recovery instructions, C-class majors 0x78 to 0x7F with PLC_SEAL, and the events
ASYNC_EVENT_ENTRY, WATCHDOG, UNCORRECTABLE_ERROR, SPARE_CLUSTER_STEERING, TASK_END and PARTITION_RESET
(R24, R25, R304, R324-R350). -/

namespace Sys2Proof.Machine

/-! ### TRAP, TRET and the system registers (R326-R328, R334, R335) -/

/-- TRAP (R334). -/
def execTrap (code : BitVec 19) (s : State) : Res := .next (s.trap .syscall (code.setWidth 64))

namespace State

/-- Take the oldest event of a slot by R332, with TEPC at an address. -/
def takeEvent (s : State) (p : Nat) (j : Fin 16) (epc : BitVec 38) : State :=
  match (s.slotAt p j).events with
  | [] => s
  | e :: rest => (s.updSlot p j fun x => { x with events := rest }).enterTrap p j e.cause true epc e.tval

end State

/-- TRET (R335): the oldest event is entered at once where S is 0 again, with TEPC unchanged. -/
def execTret (s : State) : Res :=
  .next
    (if !s.sup then s.trap .priv 0
     else
       let t := s.updRegs Regs.leave
       if Tsw.s t.me.regs.tsw then t
       else t.takeEvent s.cur.pos s.cur.slot (BitVec.ofNat 38 (bits t.me.regs.tepc 37 0)))

/-- Is SWR to the register reserved to supervisor mode (R326)? -/
def sysPriv : SysReg → Bool
  | .vl | .rmode | .swq => false
  | _ => true

/-- Has the register an SWR form at all (R326)? -/
def sysWritable : SysReg → Bool
  | .bankm | .xdone _ | .time => false
  | _ => true

/-- Is a value free of reserved bits and inside the ranges of its fields (R80, R127, R154, R167, R208, R285,
R307, R327)? -/
def sysAccepts (r : SysReg) (w : Word) : Bool :=
  let log (lo hi : Nat) (n : Nat) : Bool := n == 0 || (decide (lo ≤ n) && decide (n ≤ hi))
  match r with
  | .tsw => !Tsw.reserved w
  | .tepc | .tvec => bits w 63 38 == 0 && bits w 2 0 == 0
  | .tcause => bits w 63 9 == 0 && !bit w 6
  | .tval | .tscr => true
  | .lseg =>
    bits w 63 27 == 0 && bits w 15 10 == 0 && bits w 26 16 != 0 && decide (bits w 26 16 ≤ 1024) &&
      decide (bits w 9 0 + bits w 26 16 ≤ 1024)
  | .vl => w != 0 && decide (w.toNat ≤ 4096)
  | .rmode => decide (w.toNat < 4)
  | .ortb =>
    bits w 63 59 == 0 && bits w 53 48 == 0 && bits w 11 0 == 0 && bits w 58 54 != 0 && decide (bits w 58 54 ≤ 24)
  | .swq => w != 0 && decide (w.toNat ≤ 2 ^ 24)
  | .codeo | .frec => decide (w.toNat < 2 ^ 24)
  | .tedi => bits w 63 5 == 0 && log 16 30 (bits w 4 0)
  | .tedg => decide (w.toNat < 2 ^ 32)
  | .tedm | .tedc => decide (w.toNat < 16)
  | .wdog => bits w 63 6 == 0 && log 20 40 (bits w 5 0)
  | .bankm | .xdone _ | .time => false

namespace State

/-- DONE as XDONEn shows it (R265). -/
def xdone (s : State) (n : Fin 8) : Word :=
  let vs := s.vcoresAt (8 * cluOf s.cur.pos + n.val)
  let v := s.me.tid.vc
  match vs with
  | [] => 0
  | w :: _ => BitVec.ofNat 64 (s.vcore (if vs.contains v then v else w)).done

/-- The value of a system register (R326). -/
def readSys (s : State) (r : SysReg) : Word :=
  let x := s.cur.src
  match r with
  | .tsw => x.tsw
  | .tepc => x.tepc
  | .tcause => x.tcause
  | .tval => x.tval
  | .tvec => x.tvec
  | .lseg => x.lseg
  | .vl => x.vl
  | .rmode => x.rmode
  | .bankm => x.bankm
  | .tscr => x.tscr
  | .ortb => x.ortb
  | .swq => x.swq
  | .codeo => s.part.codeo
  | .xdone n => s.xdone n
  | .tedi => s.part.tedi
  | .tedg => s.part.tedg
  | .tedm => s.part.tedm
  | .tedc => s.part.tedc
  | .time => BitVec.ofNat 64 s.time
  | .wdog => s.part.wdog
  | .frec => s.part.frec

/-- Write a system register with a value that it accepts (R326). -/
def writeSys (s : State) (r : SysReg) (w : Word) : State :=
  match r with
  | .tsw => s.updRegs fun x => { x with tsw := Tsw.write x.tsw w }
  | .tepc => s.updRegs fun x => { x with tepc := w }
  | .tcause => s.updRegs fun x => { x with tcause := w }
  | .tval => s.updRegs fun x => { x with tval := w }
  | .tvec => s.updRegs fun x => { x with tvec := w }
  | .lseg => s.updRegs fun x => { x with lseg := w }
  | .vl => s.updRegs fun x => { x with vl := w }
  | .rmode => s.updRegs fun x => { x with rmode := w }
  | .tscr => s.updRegs fun x => { x with tscr := w }
  | .ortb => s.updRegs fun x => { x with ortb := w }
  | .swq => s.updRegs fun x => { x with swq := w }
  | .codeo => s.updPart fun p => { p with codeo := w }
  | .tedi => s.updPart fun p => { p with tedi := w }
  | .tedg => s.updPart fun p => { p with tedg := w }
  | .tedm => s.updPart fun p => { p with tedm := w }
  | .tedc => s.updPart fun p => { p with tedc := w }
  | .wdog => s.updPart fun p => { p with wdog := w }
  | .frec => s.updPart fun p => { p with frec := w }
  | .bankm | .xdone _ | .time => s

end State

/-- SRD (R328). -/
def execSrd (rd : Reg) (sr : SysReg) (s : State) : Res :=
  .next (if sr = .tscr && !s.sup then s.trap .priv 0 else s.setG rd (s.readSys sr))

/-- SWR (R328). -/
def execSwr (rs : Reg) (sr : SysReg) (s : State) : Res :=
  let w := s.g rs
  .next
    (if !sysWritable sr then s.illegal
     else if sysPriv sr && !s.sup then s.trap .priv 0
     else if !sysAccepts sr w then s.trap .illegal w
     else s.writeSys sr w)

/-! ### Records (R304, R348-R350) -/

namespace State

/-- The oldest round of a group that is not complete everywhere (R302, R304). -/
def oldestOpen (s : State) (gid : Nat) : Option Nat :=
  ((s.members gid).flatMap fun m =>
    let g := s.grpAt m.1 m.2
    (g.rounds.filter fun r => !r.cancelled && decide ((s.tree gid).fin ≤ r.n)).map (·.n)).foldl
    (fun m n => match m with
      | none => some n
      | some k => some (min k n)) none

/-- Cancel every incomplete round of a group, as by GABT of the oldest. -/
def cancelOpen (s : State) (gid : Nat) : State :=
  match s.oldestOpen gid with
  | some n => s.cancelGroup gid n []
  | none => s

/-- Change the context of a thread in a guest queue or on its way. -/
def updOnWay (s : State) (t : Tid) (f : Slot → Slot) : State :=
  let g (x : Slot) : Slot := if x.tid = t then f x else x
  { s with
    cores := s.cores.map fun c => if c.2.guests.any (fun x => x.tid == t) then (c.1, { c.2 with guests := c.2.guests.map g }) else c
    net := s.net.map fun n => match n.2.load with
      | .thread x v l => (n.1, { n.2 with load := .thread (g x) v l })
      | _ => n }

/-- The thread of an access whose record is revoked takes REVOKED as an asynchronous cause (R304). -/
def revokedEvent (s : State) (t : Tid) (ref : Word) : State :=
  (s.updThread t (withEvent s.time .revoked ref)).getD (s.updOnWay t (withEvent s.time .revoked ref))

/-- A buffered access is dropped without effect; one of a copy job or a collective round ends that. -/
def revokeEntry (s : State) (p : Nat) (e : SbEntry) (q : Req) : State :=
  let t := ((s.revokedEvent e.tid q.ref).entriesDone [(p, e.id)]).dropHart e.tid
  match q.acc with
  | .atomic _ _ _ => t.endToken q.token fun x => x
  | _ => t

/-- A queued load is dropped without effect. -/
def revokeLoad (s : State) (q : Req) : State :=
  match q.acc with
  | .load _ =>
    match s.findToken q.token with
    | some (p, j, _) => (s.postEvent p j .revoked q.ref).endToken q.token fun x => x
    | none =>
      match s.findSaved q.token with
      | some (t, _, _) => (s.revokedEvent t q.ref).endToken q.token fun x => x
      | none => s
  | _ => s

/-- Every access translated through a record and not yet performed completes without effect (R304). -/
def revokeAccesses (s : State) (key : Nat × Nat) : State :=
  let mine (q : Req) : Bool := q.key == key && q.line.isNone
  let loads := s.homes.flatMap fun h => (h.2.queue.filter fun x => mine x.2).map (·.2)
  let t := { s with homes := s.homes.map fun h => (h.1, { h.2 with queue := h.2.queue.filter fun x => !mine x.2 }) }
  let u := loads.foldl (fun t q => t.revokeLoad q) t
  s.cores.foldl (fun t c =>
    c.2.buffer.foldl (fun t e =>
      match e.op with
      | .obj q => if q.key = key then t.revokeEntry c.1 e q else t
      | _ => t) t) u

/-- Revocation of a record: the accesses through it, and the rounds of its group where it is a window (R304). -/
def revoke (s : State) (key : Nat × Nat) (r : Rec) : State :=
  let t := s.revokeAccesses key
  if r.multi then (t.cancelOpen r.group).updTree r.group fun x => { x with revoked := true } else t

/-- Wait for every record cache of the package to drop a record and acknowledge (R176). -/
def awaitDrop (s : State) (ins : Instr) (tb obj : Nat) : State :=
  let k := s.fresh1
  ({ k.2 with acks := k.2.acks.put k.1 { tbase := tb, obj := obj, left := List.range 520 } }).park ins 3 []
    (.token k.1)

/-- ORW's tests at the home slice (R348). -/
def orwBad (r : Rec) (dw : Nat) (b : Word) : Bool :=
  (r.moving && dw != 5 && dw != 7) ||
    (dw == 7 && ((!r.moving && bit b 63) ||
      (bit b 63 && (decide (bits b 55 32 < r.wmark) || bits b 31 0 != r.oldb))))

/-- ORW after its release, in one step at the home slice. -/
def orwHome (s : State) (ins : Instr) (a b : Word) : State :=
  let tb := tableBase s.cur.src.ortb
  let obj := objOf a
  let dw := bits a 2 0
  match s.recordAt tb obj, s.hpaOf (tb + 64 * obj) with
  | some r, some h =>
    if orwBad r dw b then s.trap .illegal b
    else
      let t := s.memWrite (h + 8 * dw) (toBytes 8 b.toNat)
      match t.recordAt tb obj with
      | none => t
      | some r' =>
        let u := if r'.rvk && !r.rvk then t.revoke (tb, obj) r' else t
        if r'.moving then u else u.awaitDrop ins tb obj
  | _, _ => (s.reportMiss (tb + 64 * obj)).park ins 2 [] (.frame (tb + 64 * obj))

end State

/-- ORW (R348). -/
def execOrw (ra rb : Reg) (s : State) : Res :=
  let a := s.g ra
  let ins := Instr.orw ra rb
  .next
    (if !s.sup then s.trap .priv 0
     else
       match s.cur.phase with
       | 0 =>
         if bits a 39 3 ≠ 0 then s.trap .illegal a
         else s.release .dev ins 1 [] fun t => t.orwHome ins a (s.g rb)
       | 1 => (s.released .dev).orwHome ins a (s.g rb)
       | _ => s.orwHome ins a (s.g rb))

/-- ORINV (R349). -/
def execOrinv (ra : Reg) (s : State) : Res :=
  let a := s.g ra
  .next
    (if !s.sup then s.trap .priv 0
     else if bits a 39 0 ≠ 0 then s.trap .illegal a
     else s.awaitDrop (.orinv ra) (tableBase s.cur.src.ortb) (State.objOf a))

/-- ORMOV (R350). -/
def execOrmov (ra rb : Reg) (s : State) : Res :=
  let a := s.g ra
  let b := s.g rb
  let ins := Instr.ormov ra rb
  let obj := State.objOf a
  let tb := tableBase s.cur.src.ortb
  .next
    (if !s.sup then s.trap .priv 0
     else if bits a 39 0 ≠ 0 then s.trap .illegal a
     else if bits b 63 48 ≠ 0 then s.trap .illegal b
     else
       s.withRecord obj a fun _ =>
         match s.recordAt tb obj, s.hpaOf (tb + 64 * obj) with
         | some r, some h =>
           if r.moving || bits b 15 0 != r.base % 2 ^ 16 then s.trap .illegal a
           else
             let w0 := setBits (r.get 0) 47 0 b.toNat
             let w7 := BitVec.ofNat 64 (2 ^ 63 + r.base / 2 ^ 16)
             ((s.memWrite h (toBytes 8 w0.toNat)).memWrite (h + 56) (toBytes 8 w7.toNat)).awaitDrop ins tb obj
         | _, _ => s.hold)

/-! ### Sealing and restarting (R337, R338) -/

namespace State

/-- Every thread with its packet's number: in slots, guest queues, the network, and yielded. -/
def allThreads (s : State) : List (Tid × Nat) :=
  let isOwn (x : Slot) : Bool := match x.life with
    | .task | .movement => true
    | _ => false
  (s.threads.filterMap fun pj =>
    let x := s.slotAt pj.1 pj.2
    if isOwn x then some (x.tid, x.pid) else none) ++
  (s.cores.flatMap fun c => c.2.guests.map fun x => (x.tid, x.pid)) ++
  (s.net.filterMap fun n => match n.2.load with
    | .thread x _ _ => some (x.tid, x.pid)
    | _ => none) ++
  (s.vcores.flatMap fun v => v.2.map.toList.filterMap fun m => m.saved.map fun x => (x.tid, x.pid))

/-- The threads that a sealed core ends: those on it, and those of its vcores wherever they are. -/
def doomed (s : State) (p : Nat) (vs : List Nat) : List (Tid × Nat) :=
  let here (t : Tid) : Bool :=
    (slotIds.any fun j => (s.slotAt p j).busy && (s.slotAt p j).tid == t) ||
      (s.core p).guests.any fun x => x.tid == t
  s.allThreads.filter fun t => vs.contains t.1.vc || here t.1

/-- Remove threads from slots, guest queues, the network and the task queue. -/
def removeThreads (s : State) (ts : List Tid) : State :=
  let t := s.threads.foldl (fun t pj =>
    let x := t.slotAt pj.1 pj.2
    if x.busy && ts.contains x.tid then t.updSlot pj.1 pj.2 vacated else t) s
  let u := ts.foldl (fun t i => t.setMap i { t.mapEntry i with state := .none, saved := none }) t
  let gone (q : Packet) : Bool := match q.yielded with
    | some i => ts.contains i
    | none => false
  let w : State := { u with
    cores := u.cores.map fun c => (c.1, { c.2 with guests := c.2.guests.filter fun x => !ts.contains x.tid })
    net := u.net.filter fun n => match n.2.load with
      | .thread x _ _ => !ts.contains x.tid
      | _ => true
    part := { u.part with queue := u.part.queue.filter fun q => !gone q.2 } }
  w.cores.foldl (fun t c => if c.2.guests.isEmpty then t else t.guestSettle c.1) w

/-- Resubmit a dispatched packet (R338): it enters the queue again, and its dependence words are observed
again.  A gang member's packet goes to the vcore that it ran on, and not to a new placement of the gang. -/
def resubmit (s : State) (pid : Nat) : State :=
  match s.part.live.get pid with
  | none => s
  | some q =>
    let n := s.fresh1
    let e : Packet :=
      { q with accepted := s.time, yielded := none, saved := false, again := true, ready := if Pkt.ndep q.w = 0 then some s.time else none }
    n.2.updPart fun x =>
      { x with
        queue := x.queue.put n.1 { e with far := false }, live := x.live.del pid
        graphs := x.graphs.map fun g => if g.pid = pid then { g with pid := n.1 } else g }

/-- Re-create a vcore on a free core, or leave it UNPLACED (R338). -/
def recreate (s : State) (v : Nat) : State :=
  let x := s.vcore v
  let free := (List.range 8).flatMap s.freeCores
  if free.isEmpty then
    s.updVcore v fun _ =>
      { segl := x.segl, ortb := x.ortb, tvec := x.tvec, image := x.image, gang := x.gang
        map := x.map.map fun m => { gen := m.gen } }
  else
    let n := s.pick free.length
    n.2.createVcore v (free.getD n.1 0) x.gang

/-- A copy job of a sealed core is to complete with FAULT and CHECK_FAIL, once its writes are performed (R267, R337). -/
def sealedJob (j : CopyJob) : CopyJob :=
  { (if j.ended then j else faultJob j .checkFail) with stg := false, status := 3, cause := Cause.checkFail.code }

/-- Stop what a core does: buffer, engine work, vector unit, channel, and what it has on the way (R337 steps 1
to 4). -/
def stopCore (s : State) (p : Nat) : State :=
  let spoil (r : Option (Tile × Nat × Nat)) : Option (Tile × Nat × Nat) :=
    r.map fun x => ({ x.1 with poison := true }, x.2)
  let t := s.updCore p fun c =>
    { c with
      buffer := [], vector := [], jobs := [], moves := [], channel := c.channel.map sealedJob, strA := [], strB := []
      resA := 0, resB := 0, rotA := spoil c.rotA, rotB := spoil c.rotB, leaf := {}, lvq := none }
  let u := t.updCluster (cluOf p) fun k =>
    { k with eng := { k.eng with drain := k.eng.drain.filter fun d => d.core != coreNum p } }
  -- requests of the core that its homes have not performed; a merged one carries other cores' entries too
  { u with homes := u.homes.map fun h =>
      (h.1, { h.2 with queue := h.2.queue.filter fun q => q.2.pos != p || q.2.entries.any fun e => e.1 != p }) }

/-- The PLC instruction that waits for an exchange. -/
def exchToken (e : Exch) : Option Nat :=
  match e with
  | .swap _ _ k => k
  | .move _ _ k => k
  | .fold _ _ _ k => k

/-- An exchange that a sealed core was part of does not take place; guests of its other core go on. -/
def dropExchanges (s : State) (p : Nat) : State :=
  let mine := s.exchanges.filter fun e => (s.exchCores e).1 == p || (s.exchCores e).2 == p
  mine.foldl (fun t e =>
    let c := s.exchCores e
    let free (t : State) (q : Nat) : State :=
      (s.vcoresAt q).foldl (fun t v =>
        (t.updVcore v fun x => { x with lock := false }).updCore q fun k =>
          { k with fwd := k.fwd.filter fun f => !(f.vc == v && f.hold) }) t
    let u := (free (free t c.1) c.2).endPlc (exchToken e)
    let w : State := { u with exchanges := u.exchanges.filter fun f => f != e }
    (w.guestSettle (if c.1 = p then c.2 else c.1)).goOn (if c.1 = p then c.2 else c.1)) s

/-- The groups that some register of a vcore is bound to. -/
def groupsOf (s : State) (v : Nat) : List Nat :=
  ((s.vcore v).grp.toList.filter (·.bound)).map (·.gid)

/-- Seal a core (R337): it issues nothing more and what it does stops; its vcores are locked and what comes for them
waits at forwarding entries in the hold state; a supervisor core is notified. -/
def sealCore (s : State) (p : Nat) : State :=
  if (s.core p).sealed then s
  else
    let t := ((s.dropExchanges p).stopCore p).updCore p fun c => { c with sealed := true }
    let u := (s.vcoresAt p).foldl (fun t v =>
      (t.updVcore v fun x => { x with lock := true }).addFwd p { vc := v, pos := p, hold := true, lapses := 0 }) t
    { u with notified := insertNat u.notified p }

/-- Spahan restarts the vcores of a sealed core and the tasks that had a thread on it (R338). -/
def restartCore (s : State) (p : Nat) : State :=
  let s : State := { s with notified := s.notified.filter fun q => q != p }
  if !(s.core p).sealed then s else
  let vs := s.vcoresAt p
  let ts := s.doomed p vs
  let gids := vs.flatMap s.groupsOf
  let t := s.updCore p fun c => { c with guests := [], slots := c.slots.map emptied }
  let t := t.removeThreads (ts.map (·.1))
  let t := gids.foldl (fun t g => t.cancelOpen g) t
  let t := vs.foldl (fun t v => gids.foldl (fun t g => t.cancelMember v g) t) t
  let t := vs.foldl (fun t v =>
    let u := ((t.updVcore v fun x => { x with place := .unplaced, lock := false }).recreate v).updCore p fun c =>
      { c with fwd := c.fwd.filter fun f => f.vc != v }
    if (u.vcore v).place = .placed then
      u.addFwd p { vc := v, pos := u.posOf v, hold := false, lapses := s.time + 2 ^ 20 }
    else u) t
  ts.foldl (fun t x => (t.resubmit x.2).reportTask 4 x.1.vc) t

end State

/-- PLC.SEAL (R339). -/
def execPlcSeal (ra : Reg) (s : State) : Res :=
  let a := s.g ra
  let p := a.toNat
  .next
    (if !s.sup then s.trap .priv 0
     else if bits a 63 12 ≠ 0 || (s.die (dieOf p)).retired.contains (torusOf p) then s.trap .illegal a
     else s.sealCore p)

/-- UNCORRECTABLE_ERROR (R337). -/
def execUncorrectableError (pos : Nat) (s : State) : Res :=
  .next (if pos < 4096 && !(s.die (dieOf pos)).retired.contains (torusOf pos) then s.sealCore pos else s)

/-- SPARE_CLUSTER_STEERING (R24, R25): a cluster that holds a sealed core and no vcore is retired while a spare is
left for it, and then the spare takes its position.  With no spare left nothing is retired, which is the model's
reading (log entry 85). -/
def execSpareClusterSteering (die clu : Nat) (s : State) : Res :=
  let k := 64 * die + clu
  let ps := (List.range 8).map fun i => 8 * k + i
  let d := s.die die
  .next
    (if 8 ≤ die || decide (64 ≤ clu) then s
     else if d.retired.contains clu then
       let t := ps.foldl (fun t p => { t with cores := t.cores.del p }) s
       ({ t with clusters := t.clusters.del k, cores := t.cores.del (hartPos k) }).updDie die fun d =>
         { d with spares := d.spares + 1, retired := d.retired.filter fun c => c != clu }
     else if d.spares + d.retired.length < 4 && (ps.any fun p => (s.core p).sealed) &&
         ps.all fun p => (s.vcoresAt p).isEmpty && !s.frozen p then
       { s with notified := s.notified.filter fun p => !ps.contains p }.updDie die fun d =>
         { d with retired := insertNat d.retired clu }
     else s)

/-! ### Asynchronous events and tasks that Spahan ends (R333, R336) -/

namespace State

/-- Does a slot take its oldest event before its next bundle (R333)?  A bundle that has left the rotation to issue again
goes before it (R171, R238). -/
def asyncReady (s : State) (p : Nat) (j : Fin 16) : Bool :=
  let x := s.slotAt p j
  x.busy && !x.events.isEmpty && !Tsw.s x.regs.tsw && x.pendC.isNone && x.pendA.isNone && !x.quiet && x.ahead == 0 &&
    x.stalled.isNone && x.fetched.isEmpty &&
    (match x.life with
     | .task | .movement => true
     | _ => false)

end State

/-- ASYNC_EVENT_ENTRY (R333); a redundant pair takes it as one (R342). -/
def execAsyncEventEntry (pos slot : Nat) (s : State) : Res :=
  let j := Fin.ofNat 16 slot
  let x := s.slotAt pos j
  .next
    (if !s.asyncReady pos j then s
     else
       let t := s.takeEvent pos j x.regs.pc
       if x.pair.isSome then t.updCore pos fun c => { c with lvq := some x.regs.pc } else t)

namespace State

/-- Does a half wait for a granule (R175), of its own access or of a gradient that it reads (R321)? -/
def waitsGranule (q : Option Pend) : Bool :=
  match q with
  | some q => match q.wait with
    | .resident _ _ _ | .granule _ _ _ | .frame _ => true
    | _ => false
  | none => false

/-- Is a thread parked on RESIDENCY, of an access or of its next bundle (R175, R331)? -/
def waitsResidency (s : State) (x : Slot) : Bool :=
  waitsGranule x.pendC ||
    (x.pendC.isNone && x.pendA.isNone && (match s.fetchAt x.regs.pc with
      | .wait => true
      | _ => false))

end State

/-- TASK_END (R336): Spahan gives up the granule that a thread waits for, code 1; with code 0, which is no report's
code, the granule that the running copy job of the core waits for (R264); and with code 256 + v, of the running round of
the group register that `slot` names of the package's vcore v (R299).  The other ends of R336 are part of the steps that
cause them. -/
def execTaskEnd (pos slot code : Nat) (s : State) : Res :=
  let j := Fin.ofNat 16 slot
  let x := s.slotAt pos j
  let owns := match x.life with
    | .task | .movement => true
    | _ => false
  .next
    (if code = 1 && x.busy && owns && s.waitsResidency x then s.endTask pos j 1
     else if code = 0 then s.abandonJob pos
     else if 256 ≤ code then s.abandonColl (s.pkg * 2 ^ 16 + (code - 256)) (Fin.ofNat 8 slot)
     else s)

/-! ### Watchdog and partition reset (R343-R345, R347) -/

namespace State

/-- Does the partition hold a task (R343)? -/
def holdsTask (s : State) : Bool :=
  (s.part.live.any fun q => !Pkt.move q.2.w) ||
    s.part.queue.any fun q => q.2.ready.isSome && !(q.2.yielded.isSome && Pkt.move q.2.w)

/-- Does the watchdog fire (R343, R361)? -/
def watchdogDue (s : State) : Bool :=
  let log := bits s.part.wdog 5 0
  log != 0 && s.part.suspended.isNone && s.holdsTask && decide (s.part.moved + 2 ^ log ≤ s.time)

/-- The fence record's word has been read at its home (R192, R345). -/
def fenceSeen (s : State) : State :=
  let tb := tableBase s.part.ortb
  let obj := bits s.part.frec 23 0
  if obj = 0 then s
  else
    match s.recordAt tb obj with
    | none => s
    | some r =>
      match s.hpaOf (elemAddr r 0) with
      | some a => (s.recordRead tb obj).closeSat a 8
      | none => s.recordRead tb obj

/-- The epoch that the fence record holds (R345). -/
def fence (s : State) : Int :=
  if bits s.part.frec 23 0 = 0 then 0
  else
    match s.recordAt (tableBase s.part.ortb) (bits s.part.frec 23 0) with
    | none => 0
    | some r =>
      if !r.ok then 0
      else match s.gword (elemAddr r 0) with
        | some w => w.toInt
        | none => 0

/-- Empty the word that a packet's address names. -/
def emptyWord (s : State) (a : Word) : State :=
  match s.fillAt a with
  | .word p b => s.setFull p (b / 8) false
  | _ => s

/-- Empty the dependence and completion words of a packet. -/
def emptyWords (s : State) (q : Pkt.Words) : State :=
  ((List.finRange 4).foldl (fun t i => if i.val < Pkt.ndep q then t.emptyWord (Pkt.dep q i) else t) s).emptyWord
    (Pkt.cpl q)

/-- Replay from the fence record (R345).  A packet of a gang whose cores the reset has given back to its vcores goes to
its own vcore. -/
def replayGraphs (s : State) : State :=
  let s := s.fenceSeen
  let e := s.fence
  let after (g : GraphPacket) : Bool := decide (e < (g.epoch : Int))
  let gs := s.part.graphs
  let t := (gs.filter after).foldl (fun t g => t.emptyWords g.w) s
  gs.foldl (fun t g =>
    if after g then
      let n := t.fresh
      let back := Pkt.gang g.w && !Pkt.any g.w && (t.gangOf (Pkt.gangId g.w)).isSome
      (t.submit g.w g.epoch).updPart fun p =>
        { p with
          queue := p.queue.map fun q => if q.1 = n then (q.1, { q.2 with again := back }) else q
          graphs := p.graphs ++ [{ g with pid := n, retired := false }] }
    else t.updPart fun p => { p with graphs := p.graphs ++ [g] }) (t.updPart fun p => { p with graphs := [] })

/-- The groups that some vcore is bound to. -/
def allGroups (s : State) : List Nat :=
  (s.vcores.flatMap fun v => s.groupsOf v.1).foldl insertNat []

/-- A core after a partition reset (R344): its barrier leaf belongs to the position (R147), and the supervisor cores, which
carry the reset out, go on.  Its stream and rotation entries go with its buffered stores and queued jobs (log entry
54). -/
def resetCore (p : Nat) (c : Core) : Core :=
  if 4096 ≤ p && decide (p < 8192) then c
  else
    { sealed := c.sealed, fwd := c.fwd.filter fun f => !f.hold, icache := c.icache, swapped := c.swapped, leaf := c.leaf
      slots := c.slots.map emptied }

/-- A vcore before it is created again (R344): one that has exited may be placed again for a task that is replayed. -/
def resetVcore (x : VCore) : VCore :=
  if x.place = .unplaced then x
  else { x with place := .unplaced, map := x.map.map fun m => { gen := m.gen } }

/-- Partition reset (R344 steps 1 to 5).  A supervisor's PLC whose exchange is dropped completes. -/
def resetPartition (s : State) : State :=
  let t := s.allGroups.foldl (fun t g =>
    ((t.members g).map (·.1)).foldl (fun u v => u.cancelMember v g) (t.cancelOpen g)) s
  let t := t.exchanges.foldl (fun t e => t.endPlc (exchToken e)) t
  let sup (p : Nat) : Bool := decide (4096 ≤ p) && decide (p < 8192)
  let t : State := { t with
    cores := t.cores.map fun c => (c.1, resetCore c.1 c.2)
    clusters := t.clusters.map fun k =>
      (k.1, { k.2 with coll := [], eng := { k.2.eng with drain := none } })
    homes := t.homes.map fun h => (h.1, { h.2 with queue := h.2.queue.filter fun q => sup q.2.pos })
    net := t.net.filter fun n => match n.2.load with
      | .thread _ _ _ => false
      | _ => true
    exchanges := [], notified := []
    part := { t.part with queue := [], live := [], away := [], quiet := false, moved := t.time } }
  let stays (v : Nat × VCore) : Bool := v.2.place == .placed && !t.unusable v.2.pos
  let vs := t.vcores.filter stays
  let fs := t.vcores.filter fun v => v.2.place == .folded || (v.2.place == .placed && !stays v)
  let t : State := { t with vcores := t.vcores.map fun v => (v.1, resetVcore v.2) }
  let t := vs.foldl (fun t v => t.createVcore v.1 v.2.pos v.2.gang) t
  let t := fs.foldl (fun t v => t.recreate v.1) t
  t.reportTask 5 0

end State

/-- WATCHDOG (R343-R345). -/
def execWatchdog (s : State) : Res :=
  .next (if s.watchdogDue then s.resetPartition.replayGraphs else s)

/-- PARTITION_RESET (R347): Spahan resets the partition as in R344, without the replay; the next one is the replay by
R345.  Between the two Spahan copies the checkpoint back and writes its epoch to FREC, as any agent outside writes
memory (log entry 55). -/
def execPartitionReset (s : State) : Res :=
  .next
    (if s.part.rollback then s.replayGraphs.updPart fun p => { p with rollback := false }
     else s.resetPartition.updPart fun p => { p with rollback := true })

/-! ### Redundant threads (R341, R342) -/

namespace State

/-- The registers of a thread without what tells the two threads of a pair apart. -/
def common (r : Regs) : Regs := { r with tsw := Tsw.setT (Tsw.setD (Tsw.setSlot r.tsw 0) false) false }

/-- Do the two contexts of a pair agree? -/
def agree (s : State) (p : Nat) (j k : Fin 16) : Bool :=
  common (s.slotAt p j).regs == common (s.slotAt p k).regs

/-- The values of what the leading thread did once for both reach the trailing thread (R342). -/
def syncPair (s : State) (p : Nat) (j k : Fin 16) : State :=
  let r := (s.slotAt p j).regs
  (s.updSlot p k fun x =>
    { x with regs := { r with tsw := Tsw.setT (Tsw.setD (Tsw.setSlot r.tsw k.val) false) true }
             ready := s.time + 1 }).updCore p fun c => { c with lvq := none }

/-- Does a pair exist on a core? -/
def hasPair (c : Core) : Bool := slotIds.any fun j => (c.slots.get j).pair.isSome

/-- DUAL.ON with no other pair on the core: the copy takes a slot, or the thread waits for one. -/
def dualStart (s : State) : State :=
  let p := s.cur.pos
  let c := s.core p
  let slot := match lowestEmpty c with
    | some k => some k
    | none => highestHelper c
  match slot with
  | none => s.park .dualOn 1 [] .poll
  | some k =>
    let x := s.me
    let y := s.slotAt p k
    let copy : Slot :=
      { busy := true, request := y.request, passed := y.passed, asked := y.asked, life := .trailing s.cur.slot, tid := x.tid, occ := x.occ, pid := x.pid, prio := x.prio
        regs := { x.regs with tsw := Tsw.setT (Tsw.setSlot x.regs.tsw k.val) true }
        pair := some s.cur.slot, ready := s.time + 1 }
    ((s.setSlot p k copy).updMe fun y =>
      { y with pair := some k, ahead := 0, regs := { y.regs with tsw := Tsw.setD y.regs.tsw true } }).guestSettle p

end State

/-- DUAL.ON (R341). -/
def execDualOn (s : State) : Res :=
  .next
    (if s.cur.slot = 15 then s.illegal
     else if s.me.pair.isSome then s
     else s.atHome .dualOn 0
       (if State.hasPair (s.core s.cur.pos) then s.park .dualOn 1 [] .poll else s.dualStart))

/-- DUAL.OFF (R341): the leading thread ends the pair once the trailing thread has reached it. -/
def execDualOff (s : State) : Res :=
  let p := s.cur.pos
  .next
    (match s.me.life, s.me.pair with
     | .trailing _, _ => s
     | _, none => s
     | _, some k =>
       if s.me.ahead ≠ 0 then s.park .dualOff 1 [] .poll
       else if State.common s.cur.src != State.common (s.slotAt p k).regs then s.sealCore p
       else
         ((s.updMe fun y => { y with pair := none, regs := { y.regs with tsw := Tsw.setD y.regs.tsw false } }).updSlot
           p k State.vacated).guestSettle p)

/-! ### Quiescence (R346) -/

namespace State

/-- Mark every thread in slots 0 to 14, and every thread on its way to one, but the running one. -/
def quietAll (s : State) : State :=
  let mark (x : Slot) : Slot := match x.life with
    | .movement => x
    | _ => { x with quiet := true }
  let t : State := { s with
    cores := s.cores.map fun c =>
      (c.1, { c.2 with
        guests := c.2.guests.map mark
        slots := Vector.ofFn fun j : Fin 16 =>
          let x := c.2.slots.get j
          if !x.busy || (c.1 == s.cur.pos && j == s.cur.slot) then x else mark x })
    net := s.net.map fun n => match n.2.load with
      | .thread x v l => (n.1, { n.2 with load := .thread (mark x) v l })
      | _ => n
    vcores := s.vcores.map fun v =>
      (v.1, { v.2 with map := v.2.map.map fun m => { m with saved := m.saved.map mark } }) }
  t.updPart fun p => { p with quiet := true }

/-- Resume (R346): the threads, the dispatcher and the Tedder go on. -/
def resumeAll (s : State) : State :=
  let free (x : Slot) : Slot := if x.quiet then { x with quiet := false, ready := max x.ready (s.time + 1) } else x
  let t : State := { s with
    cores := s.cores.map fun c => (c.1, { c.2 with guests := c.2.guests.map free, slots := c.2.slots.map free })
    net := s.net.map fun n => match n.2.load with
      | .thread x v l => (n.1, { n.2 with load := .thread (free x) v l })
      | _ => n
    vcores := s.vcores.map fun v =>
      (v.1, { v.2 with map := v.2.map.map fun m => { m with saved := m.saved.map free } }) }
  t.updPart fun p => { p with quiet := false }

/-- The copy jobs that are queued now, as client and identifier in turn. -/
def queuedJobs (s : State) : List Word :=
  s.cores.flatMap fun c => c.2.channel.flatMap fun j => [BitVec.ofNat 64 j.client, BitVec.ofNat 64 j.id]

/-- Is one of these copy jobs still queued? -/
def jobsLeft (s : State) : List Word → Bool
  | v :: n :: rest =>
    (s.cores.any fun c => c.2.channel.any fun j => j.client == v.toNat && j.id == n.toNat) || s.jobsLeft rest
  | _ => false

/-- Have the store buffers drained, the engines, vector units and these copy jobs ended, and the transfers been
acknowledged? -/
def drained (s : State) (jobs : List Word) : Bool :=
  (s.cores.all fun c => c.2.buffer.isEmpty && c.2.jobs.isEmpty && c.2.moves.isEmpty && c.2.vector.isEmpty) &&
    (s.clusters.all fun k => k.2.eng.drain.isNone) && !s.jobsLeft jobs &&
    s.vcores.all fun v => v.2.str.toList.all fun x => !strAwaits x

/-- QSC waits for quiescence, then performs Release(.SYS). -/
def qscWait (s : State) (ra : Reg) (jobs : List Word) : State :=
  if s.drained jobs then s.release .sys (.qsc ra) 2 [] fun t => t else s.park (.qsc ra) 1 jobs .poll

end State

/-- QSC (R346). -/
def execQsc (ra : Reg) (s : State) : Res :=
  let a := s.g ra
  .next
    (if !s.sup then s.trap .priv 0
     else
       match s.cur.phase with
       | 0 =>
         if bits a 63 1 ≠ 0 then s.trap .illegal a
         else if !bit a 0 then s.resumeAll
         else if s.part.quiet then s
         else
           let t := s.quietAll
           (t.allGroups.foldl (fun t g => t.cancelOpen g) t).qscWait ra t.queuedJobs
       | 1 => s.qscWait ra s.cur.held
       | _ => s.released .sys)

end Sys2Proof.Machine
end

