-- ==== Sys2Proof/Machine/Outside.lean ====
section
/-! DEFINITION. The host's command queues, the links, keys, power and boot: the events of R351 to R363 and R385. -/

namespace Sys2Proof.Machine

namespace State

/-! ### Reports that concern no one owner (R354) -/

/-- Report to queue 0 of each host port; a queue that is not enabled has no ring to write to, and is passed over (log
entry 14). -/
def reportPorts (s : State) (kind code : Nat) (value : Nat) : State :=
  ([0, 64].filter fun q => (s.queue q).en).foldl (fun t q => t.reportTo q kind code 0 (BitVec.ofNat 64 value)) s

/-! ### Links and keys (R356-R358, R385) -/

/-- Good lanes of a port, numbered 256 × die + port. -/
def setLanes (s : State) (port n : Nat) : State :=
  s.updDie (port / 256) fun d => { d with lanes := d.lanes.put (port % 256) n }

def lanesOf (s : State) (port : Nat) : Nat := ((s.die (port / 256)).lanes.get (port % 256)).getD 8

/-- The other end of a port's link inside the package. -/
def otherEnd (port : Nat) : Option Nat :=
  (dieBehind (port / 256) (port % 256)).map fun e => 256 * e + portTo e (port / 256)

def keyAt (s : State) (port key : Nat) : KeyEntry :=
  ((s.die (port / 256)).keys.get (256 * (port % 256) + key)).getD {}

def setKey (s : State) (port key : Nat) (e : KeyEntry) : State :=
  s.updDie (port / 256) fun d => { d with keys := d.keys.put (256 * (port % 256) + key) e }

/-- The service processor writes an entry of a key table (R357, R358): a new key goes into the idle phase, and the
phase is switched; 2^256 and 2^256 + 1 stand for a write of the admitted bit. -/
def switchKey (s : State) (port key newKey : Nat) : State :=
  let e := s.keyAt port key
  let k : BitVec 256 := BitVec.ofNat 256 newKey
  s.setKey port key
    (if 2 ^ 256 ≤ newKey then { e with admitted := newKey % 2 == 1 }
     else if e.phase then { e with key0 := k, phase := false } else { e with key1 := k, phase := true })

/-! ### An item of a dropped frame (R358) -/

/-- An item of the network comes back as though its target had exited; an acknowledgement has no target and
stays.  A fill is discarded (R143), a merged list's payload too (R305), and a k-list that comes back has no effect at its
sender, which R358 names none for (log entry 86). -/
def returnItem (s : State) (id : Nat) (x : Item) : State :=
  match x.load with
  | .message dest _ src wait => s.become id x (.returned dest src wait) (s.posOf src.vc)
  | .thread ctx v left =>
    let y := withEvent s.time .undeliverable (BitVec.ofNat 64 v) { ctx with pendA := none, pendC := none }
    s.become id x (.thread y ctx.tid.vc left) (s.posOf ctx.tid.vc)
  | .rst src entry _ _ _ => s.become id x (.rstAck src entry (some .undeliverable)) (s.posOf src.vc)
  | .transfer src st seq _ _ _ _ _ hops _ _ => s.become id x (.transferAck src st seq hops true) (s.posOf src.vc)
  | .klist _ _ _ _ _ _ _ _ | .winnow _ _ _ | .fill _ _ => s.dropItem id
  | .returned _ _ _ | .delivered _ _ | .rstAck _ _ _ | .transferAck _ _ _ _ _ | .hostAck _ => s

/-- The request with a number and the home it is queued at. -/
def findReq (s : State) (id : Nat) : Option (Nat × Req) :=
  firstSome (fun h : Nat × Home => (h.2.queue.get id).map fun q => (h.1, q)) s.homes

/-- A dropped object access completes as revoked (R304). -/
def dropReq (s : State) (h id : Nat) (q : Req) : State :=
  let t := s.updHome h fun x => { x with queue := x.queue.del id }
  let u := t.revokeLoad q
  q.entries.foldl (fun t e =>
    match (t.core e.1).buffer.find? fun x => x.id == e.2 with
    | some x => t.revokeEntry e.1 x q
    | none => t) u

/-- One item of a dropped frame. -/
def dropOne (s : State) (id : Nat) : State :=
  if 2 ^ 65 ≤ id then s.dropColl ((id - 2 ^ 65) / 8) (Fin.ofNat 8 id)
  else if 2 ^ 64 ≤ id then s.dropCopy (id - 2 ^ 64)
  else
    match s.net.get id, s.findReq id with
    | some x, _ => s.returnItem id x
    | none, some (h, q) => s.dropReq h id q
    | none, none => s

/-- Is an item one of an owner's frames (R357)?  An access carries its record's OKEY, and so do the chunks of a copy
job or a round; what is not there carries no item. -/
def ofKey (s : State) (key id : Nat) : Bool :=
  let rec' (v : Nat) (w : Word) : Bool := match s.hartRecord (s.posOf v) v (objOf w) with
    | some r => r.okey == key
    | none => false
  if 2 ^ 65 ≤ id then
    let v := (id - 2 ^ 65) / 8
    rec' v (BitVec.ofNat 64 ((s.grpAt v (Fin.ofNat 8 id)).obj * 2 ^ 40))
  else if 2 ^ 64 ≤ id then
    match (s.core (id - 2 ^ 64)).channel with
    | j :: _ => rec' j.client (j.q.get 0) || rec' j.client (j.q.get 1)
    | [] => true
  else
    match s.net.get id, s.findReq id with
    | some x, _ => x.key == key
    | none, some (_, q) => q.okey == key
    | none, none => true

/-- The items of a frame, up to eight, in one number: the first below 2^128, each later one, raised by 1, in the next
128 bits.  An item is that of the network or a request by its number, 2^64 + p the copy job of core p's channel,
2^65 + 8 × v + n the round of group register n of vcore v. -/
def frameItems : Nat → Nat → List Nat
  | 0, _ => []
  | k + 1, n =>
    n % 2 ^ 128 :: (if n / 2 ^ 128 = 0 then [] else frameItems k (n / 2 ^ 128 - 1))

/-- Every item of a dropped frame comes back (R358). -/
def dropFrame (s : State) (id : Nat) : State := (frameItems 8 id).foldl dropOne s

end State

/-- FRAME_RECEIPT (R358): a bad tag or an old counter leaves the frame to be sent again; a key id that is not
admitted drops it; else the counter is accepted.  A frame holds items of one owner's key id (R357). -/
def execFrameReceipt (port key ctr : Nat) (tagOk : Bool) (id : Nat) (s : State) : Res :=
  let d := port / 256
  .next
    (if !tagOk || decide (ctr ≤ ((s.die d).counters.get (port % 256)).getD 0) ||
        !(State.frameItems 8 id).all (s.ofKey key) then s
     else
       let t := s.updDie d fun x => { x with counters := x.counters.put (port % 256) ctr }
       if (s.keyAt port key).admitted then t
       else
         let u := t.dropFrame id
         if key = s.part.key then u.reportPart 3 3 0 (BitVec.ofNat 64 port) else u)

/-- KEY_PHASE_SWITCH (R358): at both ends of the link. -/
def execKeyPhaseSwitch (port key newKey : Nat) (s : State) : Res :=
  let t := s.switchKey port key newKey
  .next (match State.otherEnd port with
    | some e => t.switchKey e key newKey
    | none => t)

/-- NARROWED (R356): the link retrains to 4, 2 or 1 lanes. -/
def execNarrowed (port lanes : Nat) (s : State) : Res :=
  .next (if [1, 2, 4].contains lanes && decide (lanes < s.lanesOf port) then
    (s.setLanes port lanes).reportPorts 3 1 port else s)

/-- DOWN (R356, R385). -/
def execDown (port : Nat) (s : State) : Res :=
  .next (if s.lanesOf port = 0 then s else (s.setLanes port 0).reportPorts 3 2 port)

/-- RETRAINED (R356). -/
def execRetrained (port lanes : Nat) (s : State) : Res :=
  .next (if [1, 2, 4, 8].contains lanes then (s.setLanes port lanes).reportPorts 3 4 port else s)

/-! ### Power and heat (R361, R362) -/

namespace State

/-- The watchdog is suspended while a die is not ON; the time for which it was does not count (R361). -/
def watchSuspend (s : State) : State :=
  let allOn := (List.range 8).all fun d => (s.die d).power == .on
  s.updPart fun p =>
    match p.suspended, allOn with
    | none, false => { p with suspended := some s.time }
    | some t, true => { p with suspended := none, moved := p.moved + (s.time - t) }
    | _, _ => p

/-- The power state that a code commands. -/
def powerOf (n : Nat) : Option Power :=
  if n = 0 then some .on
  else if n ≤ 7 then some (.cap n)
  else if n = 8 then some .idle
  else if n = 9 then some .off
  else none

/-- Does a die hold a vcore? -/
def dieHolds (s : State) (d : Nat) : Bool :=
  s.vcores.any fun v => (v.2.place == .placed || v.2.place == .folded) && dieOf v.2.pos == d

/-- May a die take a state (R361, R362)? -/
def powerOk (s : State) (d : Nat) (w : Power) : Bool :=
  match w with
  | .off => !s.dieHolds d
  | .on => true
  | _ => (s.die d).power != .halted

/-- A die's power is removed: its state is lost, and the contents of its HBM4E; a core stays sealed (R25). -/
def powerOff (s : State) (d : Nat) : State :=
  let mine (a : Nat) : Bool := decide (a < 2 ^ 47) && dieOfAddr a == d
  { s with
    cores := s.cores.filterMap fun c : Nat × Core =>
      if dieOf c.1 != d then some c else if c.2.sealed then some (c.1, { sealed := true }) else none
    clusters := s.clusters.filter fun k => k.1 / 64 != d
    homes := s.homes.filter fun h => h.1 / 192 != d || decide (1536 ≤ h.1)
    mem := s.mem.filter fun c => !mine c.1
    poison := s.poison.filter fun l => !mine (64 * l)
    dies := s.dies.put d { power := .off, spares := (s.die d).spares, retired := (s.die d).retired } }

/-- A die comes back from OFF: its supervisor cores run their firmware, and its ports have their key tables (R363). -/
def powerOn (s : State) (d : Nat) : State :=
  if (s.die d).power != .off then s
  else
    let mine := s.firmware.filter fun c : Nat × Core => dieOf c.1 == d
    { s with cores := mine.foldl (fun (m : AMap Core) (c : Nat × Core) => m.put c.1 c.2) s.cores }.updDie d fun x =>
      { x with keys := (s.linkKeys.get d).getD [] }

/-- The threads of a die go on (R124). -/
def dieGoesOn (s : State) (d : Nat) : State :=
  (s.cores.filter fun c : Nat × Core => dieOf c.1 == d).foldl (fun (t : State) (c : Nat × Core) => t.goOn c.1) s

/-- POWER of one die (R361): from a state in which it was stopped its threads go on. -/
def setPower (s : State) (d : Nat) (w : Power) : State :=
  (match w with
   | .off => s.powerOff d
   | _ =>
     let t := (s.powerOn d).updDie d fun x => { x with power := w }
     if s.dieRuns d then t else t.dieGoesOn d).watchSuspend

end State

/-- THERMAL (R362). -/
def execThermal (die : Nat) (s : State) : Res :=
  .next (if 8 ≤ die || (s.die die).power == .off || (s.die die).power == .halted then s
    else (s.setPower die .halted).reportPorts 4 die die)

/-! ### Power-up (R363) -/

/-- The step of R363 at which a FAIL value arises. -/
def failStep (fail image : Nat) : Nat :=
  match fail with
  | 1 | 2 => if image = 1 then 1 else if image = 2 then 2 else 3
  | 3 => 4
  | _ => 5

namespace State

/-- What the completion of a step of R363 leaves: the link keys, Spahan on the supervisor cores, the partition and
queue tables, and TIME at 0.  Steps 1, 4 and 5 leave nothing that the state holds. -/
def bootStep (s : State) (k : Nat) : State :=
  match k with
  | 2 => s.linkKeys.foldl (fun t d => t.updDie d.1 fun x => { x with keys := d.2 }) s
  | 3 => { s with cores := s.firmware.foldl (fun m c => m.put c.1 c.2) s.cores }
  | 6 => s.queueParts.foldl (fun t q => t.updQueue q.1 fun x => { x with part := q.2 }) { s with part := s.tables }
  | 7 => { s with time := 0, polled := 0, turn := 0, instant := 0 }
  | _ => s

end State

/-- POWER_UP (R363): the step that has begun completes and the next one begins, or it fails, and the dies are held in
reset.  From a failure the device
starts again at step 1.  The queue tables give each queue its partition (log entry 87). -/
def execPowerUp (failCode image : Nat) (s : State) : Res :=
  let k := s.boot.step
  .next
    (if s.boot.ready || decide (4 < failCode) then s
     else if s.boot.fail ≠ 0 then (if failCode = 0 then { s with boot := { step := 1 } } else s)
     else if failCode ≠ 0 then
       if k = failStep failCode image then
         { s with boot := { fail := failCode, image := if failCode ≤ 2 then image else 0, step := k }, cores := [] }
       else s
     else
       let t := s.bootStep k
       { t with boot := if k = 7 then { step := 7, ready := true } else { step := k + 1 } })

/-! ### Command queues (R351-R354) -/

namespace State

/-- The index of a queue. -/
def queueNo (port q : Nat) : Nat := 64 * port + q

/-- The device address of a command slot. -/
def slotAddr (x : HQueue) (n : Nat) : Nat :=
  let a := bits x.cbase 63 6 * 64 + 64 * n
  if bit x.cbase 5 then a else 2 ^ 47 + a % 2 ^ 47

/-- The record in the slot at HEAD: eight words. -/
def recordIn (s : State) (x : HQueue) : Vector Word 8 :=
  Vector.ofFn fun i : Fin 8 =>
    BitVec.ofNat 64 (ofBytes (Memory.readN (s.memSeen (slotAddr x x.head) 64) (slotAddr x x.head + 8 * i.val) 8))

/-- SEQ and CRC of a record (R352). -/
def cmdSeq (w : Vector Word 8) : Nat := bits (w.get 0) 63 32
def cmdCrc (w : Vector Word 8) : Bool :=
  let bs := w.toList.flatMap fun x => toBytes 8 x.toNat
  crcOver (2 ^ 32 - 1) (bs.take 60) ^^^ (2 ^ 32 - 1) == bits (w.get 7) 63 32
def cmdOp (w : Vector Word 8) : Nat := bits (w.get 0) 15 0

/-- Was the slot at HEAD made valid by a notify with relaxed ordering (R353)?  `notify` lists the notifies,
oldest first, as the slot after the last. -/
def relaxedAt (x : HQueue) : Bool :=
  match x.notify with
  | [] => false
  | n :: _ => n.2

/-- Forget the notifies whose slots have all been accepted. -/
def passNotify (x : HQueue) : HQueue := { x with notify := x.notify.dropWhile fun n => n.1 == x.head }

/-- A notify write of TAIL among those that have made the slots from a HEAD on valid: the slots past it are valid no longer,
and those that were valid before keep the notify that made them so (R353). -/
def pushNotify (head size : Nat) (l : List (Nat × Bool)) (n : Nat × Bool) : List (Nat × Bool) :=
  let d (k : Nat) : Nat := (k + size - head % size) % size
  if d n.1 = 0 then []
  else
    match l.find? fun m => decide (d n.1 ≤ d m.1) with
    | none => l ++ [n]
    | some m => (l.filter fun k => decide (d k.1 < d n.1)) ++ [(n.1, m.2)]

/-- The notifies that the slots from HEAD 0 on owe their validity to, as EN starts the queue (R351). -/
def startNotify (x : HQueue) : List (Nat × Bool) :=
  x.notify.foldl (pushNotify 0 (2 ^ x.clog)) []

/-- The queue stops with a report (R353). -/
def stall (s : State) (q code : Nat) (seq : Nat) : State :=
  (s.updQueue q fun x => { x with stalled := true, refetch := none }).reportTo q 1 code 0 (BitVec.ofNat 64 seq)

/-- Fetch the record at HEAD; `n` refetches have been made of it (R353). -/
def fetchSlot (s : State) (q n : Nat) : State :=
  let x := s.queue q
  let w := s.recordIn x
  let s := s.closeSat (slotAddr x x.head) 64
  if cmdSeq w = x.expected.toNat && cmdCrc w then
    s.updQueue q fun x =>
      passNotify { x with
        expected := x.expected + 1, head := (x.head + 1) % 2 ^ x.clog, command := some w, refetch := none }
  else if !relaxedAt x then s.stall q 1 (cmdSeq w)
  else if 8 ≤ n then s.stall q 2 (cmdSeq w)
  else s.updQueue q fun x => { x with refetch := some (n + 1, s.time + 600) }

/-- May the device fetch (R353, R354, R363)? -/
def mayFetch (s : State) (x : HQueue) : Bool :=
  s.boot.ready && x.en && !x.stalled && x.command.isNone && x.refetch.isNone && x.head != x.tail && !ringFull x

/-- Fetch the next record where the queue may. -/
def fetchNext (s : State) (q : Nat) : State := if s.mayFetch (s.queue q) then s.fetchSlot q 0 else s

/-- A command completes with a report, and the next one is fetched. -/
def endCommand (s : State) (q code : Nat) (w : Vector Word 8) : State :=
  ((s.updQueue q fun x => { x with command := none }).reportTo q 1 code 0 (BitVec.ofNat 64 (cmdSeq w))).fetchNext q

/-- Run the accepted record of a queue where its OP is one of these. -/
def withCommand (s : State) (q : Nat) (op : Nat → Bool) (k : Vector Word 8 → State) : State :=
  match (s.queue q).command with
  | none => s
  | some w => if op (cmdOp w) then k w else s

end State

/-- TAIL (R351, R353): after a write equal to HEAD no slot is valid.  What a queue that is not enabled has been told counts
from its start on. -/
def execTail (port q v : Nat) (relaxed : Bool) (s : State) : Res :=
  let n := State.queueNo port q
  .next ((s.updQueue n fun x =>
    let t := v % 2 ^ 32 % 2 ^ x.clog
    { x with
      tail := t
      notify := if x.en then State.pushNotify x.head (2 ^ x.clog) x.notify (t, relaxed)
        else x.notify ++ [(t, relaxed)] }).fetchNext n)

/-- COMMAND_REFETCH (R353). -/
def execCommandRefetch (port q : Nat) (s : State) : Res :=
  let n := State.queueNo port q
  .next
    (match (s.queue n).refetch with
     | none => s
     | some (k, due) =>
       if s.time < due || (s.queue n).stalled || !(s.queue n).en || State.ringFull (s.queue n) then s
       else (s.fetchSlot n k).fetchNext n)

/-- EN (R351): a write to the register that holds PART, CLOG and EN; before READY its EN is ignored (R363).  What a CLOG
outside 4 to 12 does is not stated (log entry 16). -/
def execEn (port q v : Nat) (s : State) : Res :=
  let n := State.queueNo port q
  let w : Word := BitVec.ofNat 64 v
  let g := s.pick 9
  let given := bits w 7 4
  let ok := decide (4 ≤ given) && decide (given ≤ 12)
  let t := if ok then s else g.2
  .next
    ((t.updQueue n fun x =>
      let y := { x with part := BitVec.ofNat 16 (bits w 31 16), clog := if ok then given else 4 + g.1 }
      if !s.boot.ready then y
      else if bit w 0 then
        { y with en := true, head := 0, expected := 1, refetch := none, notify := State.startNotify x }
      else { y with en := false }).fetchNext n)

/-- STALLED (R351, R353). -/
def execStalled (port q : Nat) (s : State) : Res :=
  let n := State.queueNo port q
  .next ((s.updQueue n fun x => { x with stalled := false }).fetchNext n)

/-- RHEAD (R351, R354). -/
def execRhead (port q v : Nat) (s : State) : Res :=
  let n := State.queueNo port q
  .next (((s.updQueue n fun x => { x with rhead := v % 2 ^ 32 }).flushReports n 65).fetchNext n)

/-- QUEUE_REGISTER_WRITE (R351): the ring addresses; the other registers have events of their own or are read
only. -/
def execQueueRegisterWrite (port q off v : Nat) (s : State) : Res :=
  let n := State.queueNo port q
  let w : Word := BitVec.ofNat 64 v
  .next
    (if off = 0 then s.updQueue n fun x => { x with cbase := setBits w 4 0 0 }
     else if off = 0x20 then
       let g := s.pick 9
       let given := bits w 3 0
       let ok := decide (4 ≤ given) && decide (given ≤ 12)
       (if ok then s else g.2).updQueue n fun x =>
         { x with rbase := setBits w 5 0 0, rlog := if ok then given else 4 + g.1 }
     else s)

namespace State

/-! ### SUBMIT (R136, R140, R352) -/

/-- A packet in host memory. -/
def hostPacket (s : State) (a : Nat) : Pkt.Words :=
  Vector.ofFn fun i : Fin 16 => BitVec.ofNat 64 (ofBytes (Memory.readN s.mem (a + 8 * i.val) 8))

/-- Is a packet of a host graph one that Spahan can load?  R136 says only that SPAWN checks a packet: that a SUBMIT with a
packet that breaks the constraints is refused as a whole, and that the packets are read where the address stands, aligned
or not, is the model's choice (log entry 95). -/
def loadable (s : State) (p : Pkt.Words) : Bool :=
  Pkt.ok p true && (Pkt.pc p).toNat % 8 == 0 && s.inPart (Pkt.vcore p)

/-- Load a host graph: the packets of an unplaceable gang are reported and left out. -/
def loadGraph (s : State) (ps : List Pkt.Words) (epoch : Nat) : State :=
  let badGangs := ((ps.filter fun p => Pkt.gang p && !Pkt.any p && s.gangUnplaceable p).map Pkt.gangId).foldl insertNat []
  let good := ps.filter fun p => !(Pkt.gang p && !Pkt.any p && badGangs.contains (Pkt.gangId p))
  let t := badGangs.foldl (fun t _ => t.reportTask 2 0) s
  good.foldl (fun t p =>
    let n := t.fresh
    (t.submit p epoch).updPart fun x => { x with graphs := x.graphs ++ [{ epoch := epoch, pid := n, w := p }] }) t

end State

/-- SUBMIT (R352).  A queue belongs to one partition (R351): what another partition than this one's makes of its
command is not in the package's state, and its report is free (log entry 88). -/
def execSubmit (port q : Nat) (s : State) : Res :=
  let n := State.queueNo port q
  .next (s.withCommand n (· == 1) fun w =>
    let a := 2 ^ 47 + bits (w.get 1) 46 0
    let count := (w.get 2).toNat
    let ps := (List.range count).map fun i => s.hostPacket (a + 128 * i)
    if (s.queue n).part ≠ s.part.num then
      let c := s.coin
      c.2.endCommand n (if c.1 then 0 else 4) w
    else if count = 0 || decide (2 ^ 20 < count) || !ps.all s.loadable then s.endCommand n 4 w
    else (s.loadGraph ps (w.get 3).toNat).endCommand n 0 w)

/-- POWER (R361): refused as a whole where one die of the mask may not take the state. -/
def execPower (port q : Nat) (s : State) : Res :=
  let n := State.queueNo port q
  .next (s.withCommand n (· == 2) fun w =>
    let ds := (List.range 8).filter fun d => bit (w.get 1) d
    match State.powerOf (w.get 2).toNat with
    | none => s.endCommand n 4 w
    | some x =>
      if ds.all fun d => s.powerOk d x then (ds.foldl (fun t d => t.setPower d x) s).endCommand n 0 w
      else s.endCommand n 4 w)

namespace State

/-- The key ids that a port admits. -/
def admittedKeys (s : State) (port : Nat) : List Nat := (List.range 256).filter fun k => (s.keyAt port k).admitted

/-- The ports that hold a key table (R357): Ifethal and die-to-die, 256 × die + port. -/
def keyPorts : List Nat := (List.range 8).flatMap fun d => (List.range 11).map fun i => 256 * d + 0xE0 + i

/-- What ATTEST signs (R360): the nonce, the identity record, the stepping, the images, the port tables. -/
def attestBody (s : State) (nonce : List Byte) : List Byte :=
  nonce ++ Config.identity ++ Config.stepping ++ Config.images ++
    keyPorts.flatMap fun p => Config.keyDigest (s.admittedKeys p)

end State

/-- ATTEST (R360): the report, then its two signatures (log entry 7). -/
def execAttest (port q : Nat) (s : State) : Res :=
  let n := State.queueNo port q
  .next (s.withCommand n (· == 3) fun w =>
    if 2 ^ 20 ≤ s.signed then s.endCommand n 4 w
    else
      let from' := 2 ^ 47 + bits (w.get 1) 46 0
      let dst := 2 ^ 47 + bits (w.get 2) 46 0
      let body := s.attestBody (Memory.readN s.mem from' 48)
      let t := s.memWrite dst (body ++ Config.signatures s.signed body)
      ({ t with signed := t.signed + 1 }).endCommand n 0 w)

/-- BAD_OP (R352). -/
def execBadOp (port q : Nat) (s : State) : Res :=
  let n := State.queueNo port q
  .next (s.withCommand n (fun op => op == 0 || decide (4 ≤ op)) fun w => s.endCommand n 3 w)

end Sys2Proof.Machine
end

