-- ==== Sys2Proof/Machine/Dispatch.lean ====
section
/-! DEFINITION. What each instruction and event does: one arm per constructor, each one call of its meaning. -/

namespace Sys2Proof.Machine

def exec (i : Instr) (s : State) : Host.Outcome State Fault Refusal :=
  match i with
  | .nopA => Sys2Proof.Machine.execNopA s
  | .add x0 x1 x2 x3 => Sys2Proof.Machine.execAdd x0 x1 x2 x3 s
  | .sub x0 x1 x2 x3 => Sys2Proof.Machine.execSub x0 x1 x2 x3 s
  | .mul x0 x1 x2 => Sys2Proof.Machine.execMul x0 x1 x2 s
  | .mulh x0 x1 x2 => Sys2Proof.Machine.execMulh x0 x1 x2 s
  | .mulhu x0 x1 x2 => Sys2Proof.Machine.execMulhu x0 x1 x2 s
  | .div x0 x1 x2 => Sys2Proof.Machine.execDiv x0 x1 x2 s
  | .divu x0 x1 x2 => Sys2Proof.Machine.execDivu x0 x1 x2 s
  | .rem x0 x1 x2 => Sys2Proof.Machine.execRem x0 x1 x2 s
  | .remu x0 x1 x2 => Sys2Proof.Machine.execRemu x0 x1 x2 s
  | .and x0 x1 x2 => Sys2Proof.Machine.execAnd x0 x1 x2 s
  | .or x0 x1 x2 => Sys2Proof.Machine.execOr x0 x1 x2 s
  | .xor x0 x1 x2 => Sys2Proof.Machine.execXor x0 x1 x2 s
  | .andn x0 x1 x2 => Sys2Proof.Machine.execAndn x0 x1 x2 s
  | .shl x0 x1 x2 => Sys2Proof.Machine.execShl x0 x1 x2 s
  | .shr x0 x1 x2 => Sys2Proof.Machine.execShr x0 x1 x2 s
  | .sar x0 x1 x2 => Sys2Proof.Machine.execSar x0 x1 x2 s
  | .rol x0 x1 x2 => Sys2Proof.Machine.execRol x0 x1 x2 s
  | .seq x0 x1 x2 => Sys2Proof.Machine.execSeq x0 x1 x2 s
  | .sne x0 x1 x2 => Sys2Proof.Machine.execSne x0 x1 x2 s
  | .slt x0 x1 x2 => Sys2Proof.Machine.execSlt x0 x1 x2 s
  | .sltu x0 x1 x2 => Sys2Proof.Machine.execSltu x0 x1 x2 s
  | .min x0 x1 x2 => Sys2Proof.Machine.execMin x0 x1 x2 s
  | .max x0 x1 x2 => Sys2Proof.Machine.execMax x0 x1 x2 s
  | .minu x0 x1 x2 => Sys2Proof.Machine.execMinu x0 x1 x2 s
  | .maxu x0 x1 x2 => Sys2Proof.Machine.execMaxu x0 x1 x2 s
  | .sel x0 x1 x2 x3 => Sys2Proof.Machine.execSel x0 x1 x2 x3 s
  | .clz x0 x1 => Sys2Proof.Machine.execClz x0 x1 s
  | .ctz x0 x1 => Sys2Proof.Machine.execCtz x0 x1 s
  | .popc x0 x1 => Sys2Proof.Machine.execPopc x0 x1 s
  | .bswap x0 x1 => Sys2Proof.Machine.execBswap x0 x1 s
  | .ext x0 x1 x2 x3 => Sys2Proof.Machine.execExt x0 x1 x2 x3 s
  | .exts x0 x1 x2 x3 => Sys2Proof.Machine.execExts x0 x1 x2 x3 s
  | .ins x0 x1 x2 x3 => Sys2Proof.Machine.execIns x0 x1 x2 x3 s
  | .mad x0 x1 x2 x3 => Sys2Proof.Machine.execMad x0 x1 x2 x3 s
  | .adds x0 x1 x2 x3 => Sys2Proof.Machine.execAdds x0 x1 x2 x3 s
  | .crcw x0 x1 x2 x3 => Sys2Proof.Machine.execCrcw x0 x1 x2 x3 s
  | .addi x0 x1 x2 => Sys2Proof.Machine.execAddi x0 x1 x2 s
  | .andi x0 x1 x2 => Sys2Proof.Machine.execAndi x0 x1 x2 s
  | .ori x0 x1 x2 => Sys2Proof.Machine.execOri x0 x1 x2 s
  | .xori x0 x1 x2 => Sys2Proof.Machine.execXori x0 x1 x2 s
  | .shli x0 x1 x2 => Sys2Proof.Machine.execShli x0 x1 x2 s
  | .shri x0 x1 x2 => Sys2Proof.Machine.execShri x0 x1 x2 s
  | .sari x0 x1 x2 => Sys2Proof.Machine.execSari x0 x1 x2 s
  | .seqi x0 x1 x2 => Sys2Proof.Machine.execSeqi x0 x1 x2 s
  | .slti x0 x1 x2 => Sys2Proof.Machine.execSlti x0 x1 x2 s
  | .sltiu x0 x1 x2 => Sys2Proof.Machine.execSltiu x0 x1 x2 s
  | .movi x0 x1 => Sys2Proof.Machine.execMovi x0 x1 s
  | .movx x0 x1 => Sys2Proof.Machine.execMovx x0 x1 s
  | .movhx x0 x1 => Sys2Proof.Machine.execMovhx x0 x1 s
  | .muli x0 x1 x2 => Sys2Proof.Machine.execMuli x0 x1 x2 s
  | .fadd x0 x1 x2 x3 x4 => Sys2Proof.Machine.execFadd x0 x1 x2 x3 x4 s
  | .fsub x0 x1 x2 x3 x4 => Sys2Proof.Machine.execFsub x0 x1 x2 x3 x4 s
  | .fmul x0 x1 x2 x3 x4 => Sys2Proof.Machine.execFmul x0 x1 x2 x3 x4 s
  | .ffma x0 x1 x2 x3 x4 x5 => Sys2Proof.Machine.execFfma x0 x1 x2 x3 x4 x5 s
  | .fdiv x0 x1 x2 x3 x4 => Sys2Proof.Machine.execFdiv x0 x1 x2 x3 x4 s
  | .fsqrt x0 x1 x2 x3 => Sys2Proof.Machine.execFsqrt x0 x1 x2 x3 s
  | .fmin x0 x1 x2 x3 => Sys2Proof.Machine.execFmin x0 x1 x2 x3 s
  | .fmax x0 x1 x2 x3 => Sys2Proof.Machine.execFmax x0 x1 x2 x3 s
  | .feq x0 x1 x2 x3 => Sys2Proof.Machine.execFeq x0 x1 x2 x3 s
  | .flt x0 x1 x2 x3 => Sys2Proof.Machine.execFlt x0 x1 x2 x3 s
  | .fle x0 x1 x2 x3 => Sys2Proof.Machine.execFle x0 x1 x2 x3 s
  | .funo x0 x1 x2 x3 => Sys2Proof.Machine.execFuno x0 x1 x2 x3 s
  | .ftle x0 x1 x2 x3 => Sys2Proof.Machine.execFtle x0 x1 x2 x3 s
  | .fcvt x0 x1 x2 x3 x4 x5 => Sys2Proof.Machine.execFcvt x0 x1 x2 x3 x4 x5 s
  | .fcvti x0 x1 x2 x3 x4 => Sys2Proof.Machine.execFcvti x0 x1 x2 x3 x4 s
  | .icvtf x0 x1 x2 x3 x4 => Sys2Proof.Machine.execIcvtf x0 x1 x2 x3 x4 s
  | .fcls x0 x1 x2 => Sys2Proof.Machine.execFcls x0 x1 x2 s
  | .ffn x0 x1 x2 x3 => Sys2Proof.Machine.execFfn x0 x1 x2 x3 s
  | .fsel x0 x1 x2 => Sys2Proof.Machine.execFsel x0 x1 x2 s
  | .vadd x0 x1 x2 x3 x4 => Sys2Proof.Machine.execVadd x0 x1 x2 x3 x4 s
  | .vsub x0 x1 x2 x3 x4 => Sys2Proof.Machine.execVsub x0 x1 x2 x3 x4 s
  | .vmul x0 x1 x2 x3 x4 => Sys2Proof.Machine.execVmul x0 x1 x2 x3 x4 s
  | .vfma x0 x1 x2 x3 x4 x5 => Sys2Proof.Machine.execVfma x0 x1 x2 x3 x4 x5 s
  | .vscl x0 x1 x2 x3 x4 => Sys2Proof.Machine.execVscl x0 x1 x2 x3 x4 s
  | .vmin x0 x1 x2 x3 x4 => Sys2Proof.Machine.execVmin x0 x1 x2 x3 x4 s
  | .vmax x0 x1 x2 x3 x4 => Sys2Proof.Machine.execVmax x0 x1 x2 x3 x4 s
  | .vcvt x0 x1 x2 x3 x4 => Sys2Proof.Machine.execVcvt x0 x1 x2 x3 x4 s
  | .vqnt x0 x1 x2 x3 x4 => Sys2Proof.Machine.execVqnt x0 x1 x2 x3 x4 s
  | .vdq x0 x1 x2 x3 x4 => Sys2Proof.Machine.execVdq x0 x1 x2 x3 x4 s
  | .vred x0 x1 x2 x3 x4 => Sys2Proof.Machine.execVred x0 x1 x2 x3 x4 s
  | .vbdot x0 x1 x2 x3 x4 => Sys2Proof.Machine.execVbdot x0 x1 x2 x3 x4 s
  | .vtopk x0 x1 x2 x3 x4 => Sys2Proof.Machine.execVtopk x0 x1 x2 x3 x4 s
  | .vmrg x0 x1 x2 x3 x4 x5 => Sys2Proof.Machine.execVmrg x0 x1 x2 x3 x4 x5 s
  | .vfn x0 x1 x2 x3 x4 => Sys2Proof.Machine.execVfn x0 x1 x2 x3 x4 s
  | .vdfn x0 x1 x2 x3 x4 x5 => Sys2Proof.Machine.execVdfn x0 x1 x2 x3 x4 x5 s
  | .vgth x0 x1 x2 x3 x4 => Sys2Proof.Machine.execVgth x0 x1 x2 x3 x4 s
  | .vsct x0 x1 x2 x3 x4 x5 => Sys2Proof.Machine.execVsct x0 x1 x2 x3 x4 x5 s
  | .vcmp x0 x1 x2 x3 x4 x5 => Sys2Proof.Machine.execVcmp x0 x1 x2 x3 x4 x5 s
  | .vmsel x0 x1 x2 x3 x4 x5 => Sys2Proof.Machine.execVmsel x0 x1 x2 x3 x4 x5 s
  | .viota x0 x1 x2 x3 => Sys2Proof.Machine.execViota x0 x1 x2 x3 s
  | .vpfx x0 x1 x2 x3 => Sys2Proof.Machine.execVpfx x0 x1 x2 x3 s
  | .vstat x0 x1 x2 => Sys2Proof.Machine.execVstat x0 x1 x2 s
  | .setvl x0 x1 => Sys2Proof.Machine.execSetvl x0 x1 s
  | .vcpy x0 x1 x2 x3 => Sys2Proof.Machine.execVcpy x0 x1 x2 x3 s
  | .mma x0 x1 x2 x3 => Sys2Proof.Machine.execMma x0 x1 x2 x3 s
  | .mmas x0 x1 x2 x3 => Sys2Proof.Machine.execMmas x0 x1 x2 x3 s
  | .mmr x0 x1 => Sys2Proof.Machine.execMmr x0 x1 s
  | .mmg x0 x1 x2 x3 => Sys2Proof.Machine.execMmg x0 x1 x2 x3 s
  | .aclr x0 => Sys2Proof.Machine.execAclr x0 s
  | .amovLd x0 x1 => Sys2Proof.Machine.execAmovLd x0 x1 s
  | .amovSt x0 x1 => Sys2Proof.Machine.execAmovSt x0 x1 s
  | .drn x0 x1 x2 x3 x4 x5 x6 x7 x8 => Sys2Proof.Machine.execDrn x0 x1 x2 x3 x4 x5 x6 x7 x8 s
  | .qpop x0 => Sys2Proof.Machine.execQpop x0 s
  | .qlvl x0 => Sys2Proof.Machine.execQlvl x0 s
  | .astat x0 x1 => Sys2Proof.Machine.execAstat x0 x1 s
  | .mwake => Sys2Proof.Machine.execMwake s
  | .nopC => Sys2Proof.Machine.execNopC s
  | .br x0 => Sys2Proof.Machine.execBr x0 s
  | .beq x0 x1 x2 => Sys2Proof.Machine.execBeq x0 x1 x2 s
  | .bne x0 x1 x2 => Sys2Proof.Machine.execBne x0 x1 x2 s
  | .blt x0 x1 x2 => Sys2Proof.Machine.execBlt x0 x1 x2 s
  | .bge x0 x1 x2 => Sys2Proof.Machine.execBge x0 x1 x2 s
  | .bltu x0 x1 x2 => Sys2Proof.Machine.execBltu x0 x1 x2 s
  | .bgeu x0 x1 x2 => Sys2Proof.Machine.execBgeu x0 x1 x2 s
  | .bz x0 x1 => Sys2Proof.Machine.execBz x0 x1 s
  | .bnz x0 x1 => Sys2Proof.Machine.execBnz x0 x1 s
  | .loop x0 x1 => Sys2Proof.Machine.execLoop x0 x1 s
  | .call x0 => Sys2Proof.Machine.execCall x0 s
  | .jr x0 x1 => Sys2Proof.Machine.execJr x0 x1 s
  | .callr x0 x1 => Sys2Proof.Machine.execCallr x0 x1 s
  | .brk x0 => Sys2Proof.Machine.execBrk x0 s
  | .await x0 => Sys2Proof.Machine.execAwait x0 s
  | .spawn x0 => Sys2Proof.Machine.execSpawn x0 s
  | .tdone => Sys2Proof.Machine.execTdone s
  | .tyld => Sys2Proof.Machine.execTyld s
  | .chset x0 x1 x2 => Sys2Proof.Machine.execChset x0 x1 x2 s
  | .chunk x0 x1 => Sys2Proof.Machine.execChunk x0 x1 s
  | .barc x0 => Sys2Proof.Machine.execBarc x0 s
  | .barr x0 => Sys2Proof.Machine.execBarr x0 s
  | .barw x0 => Sys2Proof.Machine.execBarw x0 s
  | .stgp x0 x1 x2 => Sys2Proof.Machine.execStgp x0 x1 x2 s
  | .stgf x0 x1 => Sys2Proof.Machine.execStgf x0 x1 s
  | .stgw x0 x1 x2 => Sys2Proof.Machine.execStgw x0 x1 x2 s
  | .stge x0 x1 => Sys2Proof.Machine.execStge x0 x1 s
  | .hspawn x0 => Sys2Proof.Machine.execHspawn x0 s
  | .hstop => Sys2Proof.Machine.execHstop s
  | .tsrd x0 x1 => Sys2Proof.Machine.execTsrd x0 x1 s
  | .ld x0 x1 x2 x3 x4 => Sys2Proof.Machine.execLd x0 x1 x2 x3 x4 s
  | .st x0 x1 x2 x3 => Sys2Proof.Machine.execSt x0 x1 x2 x3 s
  | .ldp x0 x1 x2 => Sys2Proof.Machine.execLdp x0 x1 x2 s
  | .stp x0 x1 x2 => Sys2Proof.Machine.execStp x0 x1 x2 s
  | .ldf x0 x1 x2 => Sys2Proof.Machine.execLdf x0 x1 x2 s
  | .ldw x0 x1 x2 => Sys2Proof.Machine.execLdw x0 x1 x2 s
  | .stf x0 x1 x2 => Sys2Proof.Machine.execStf x0 x1 x2 s
  | .sete x0 x1 => Sys2Proof.Machine.execSete x0 x1 s
  | .fest x0 x1 x2 => Sys2Proof.Machine.execFest x0 x1 x2 s
  | .old x0 x1 x2 x3 x4 => Sys2Proof.Machine.execOld x0 x1 x2 x3 x4 s
  | .ost x0 x1 x2 x3 => Sys2Proof.Machine.execOst x0 x1 x2 x3 s
  | .orq x0 x1 x2 => Sys2Proof.Machine.execOrq x0 x1 x2 s
  | .oprb x0 x1 => Sys2Proof.Machine.execOprb x0 x1 s
  | .oref x0 x1 x2 => Sys2Proof.Machine.execOref x0 x1 x2 s
  | .oldc x0 x1 x2 x3 x4 => Sys2Proof.Machine.execOldc x0 x1 x2 x3 x4 s
  | .aadd x0 x1 x2 x3 => Sys2Proof.Machine.execAadd x0 x1 x2 x3 s
  | .aincb x0 x1 x2 x3 => Sys2Proof.Machine.execAincb x0 x1 x2 x3 s
  | .amin x0 x1 x2 x3 x4 => Sys2Proof.Machine.execAmin x0 x1 x2 x3 x4 s
  | .amax x0 x1 x2 x3 x4 => Sys2Proof.Machine.execAmax x0 x1 x2 x3 x4 s
  | .aminu x0 x1 x2 x3 => Sys2Proof.Machine.execAminu x0 x1 x2 x3 s
  | .amaxu x0 x1 x2 x3 => Sys2Proof.Machine.execAmaxu x0 x1 x2 x3 s
  | .aand x0 x1 x2 x3 => Sys2Proof.Machine.execAand x0 x1 x2 x3 s
  | .aor x0 x1 x2 x3 => Sys2Proof.Machine.execAor x0 x1 x2 x3 s
  | .axor x0 x1 x2 x3 => Sys2Proof.Machine.execAxor x0 x1 x2 x3 s
  | .aswp x0 x1 x2 x3 => Sys2Proof.Machine.execAswp x0 x1 x2 x3 s
  | .acas x0 x1 x2 x3 => Sys2Proof.Machine.execAcas x0 x1 x2 x3 s
  | .red x0 x1 x2 x3 => Sys2Proof.Machine.execRed x0 x1 x2 x3 s
  | .ldc x0 x1 x2 x3 x4 => Sys2Proof.Machine.execLdc x0 x1 x2 x3 x4 s
  | .ldacq x0 x1 x2 x3 => Sys2Proof.Machine.execLdacq x0 x1 x2 x3 s
  | .strel x0 x1 x2 x3 => Sys2Proof.Machine.execStrel x0 x1 x2 x3 s
  | .fence x0 x1 => Sys2Proof.Machine.execFence x0 x1 s
  | .mbxw x0 => Sys2Proof.Machine.execMbxw x0 s
  | .mbxwMovement x0 x1 => Sys2Proof.Machine.execMbxwMovement x0 x1 s
  | .mbxr x0 => Sys2Proof.Machine.execMbxr x0 s
  | .mbxrMovement x0 x1 => Sys2Proof.Machine.execMbxrMovement x0 x1 s
  | .cpy x0 x1 x2 => Sys2Proof.Machine.execCpy x0 x1 x2 s
  | .cpyt x0 x1 x2 => Sys2Proof.Machine.execCpyt x0 x1 x2 s
  | .cpyf x0 x1 x2 => Sys2Proof.Machine.execCpyf x0 x1 x2 s
  | .cpyg x0 x1 x2 => Sys2Proof.Machine.execCpyg x0 x1 x2 s
  | .pfch x0 x1 => Sys2Proof.Machine.execPfch x0 x1 s
  | .evct x0 x1 => Sys2Proof.Machine.execEvct x0 x1 s
  | .xwait x0 => Sys2Proof.Machine.execXwait x0 s
  | .xwaitT x0 x1 x2 => Sys2Proof.Machine.execXwaitT x0 x1 x2 s
  | .xstat x0 x1 => Sys2Proof.Machine.execXstat x0 x1 s
  | .kick x0 => Sys2Proof.Machine.execKick x0 s
  | .mbxd x0 x1 => Sys2Proof.Machine.execMbxd x0 x1 s
  | .send x0 x1 => Sys2Proof.Machine.execSend x0 x1 s
  | .sendw x0 x1 => Sys2Proof.Machine.execSendw x0 x1 s
  | .cont x0 x1 => Sys2Proof.Machine.execCont x0 x1 s
  | .migr x0 => Sys2Proof.Machine.execMigr x0 s
  | .home => Sys2Proof.Machine.execHome s
  | .rst x0 x1 x2 => Sys2Proof.Machine.execRst x0 x1 x2 s
  | .jrnl x0 x1 => Sys2Proof.Machine.execJrnl x0 x1 s
  | .gst x0 x1 => Sys2Proof.Machine.execGst x0 x1 s
  | .gld x0 x1 => Sys2Proof.Machine.execGld x0 x1 s
  | .gseq x0 x1 => Sys2Proof.Machine.execGseq x0 x1 s
  | .gabt x0 x1 => Sys2Proof.Machine.execGabt x0 x1 s
  | .cmc x0 x1 x2 => Sys2Proof.Machine.execCmc x0 x1 x2 s
  | .gcol x0 x1 x2 x3 x4 => Sys2Proof.Machine.execGcol x0 x1 x2 x3 x4 s
  | .wnw x0 x1 x2 x3 => Sys2Proof.Machine.execWnw x0 x1 x2 x3 s
  | .swopen x0 x1 x2 => Sys2Proof.Machine.execSwopen x0 x1 x2 s
  | .swclose x0 => Sys2Proof.Machine.execSwclose x0 s
  | .fwm x0 x1 x2 x3 => Sys2Proof.Machine.execFwm x0 x1 x2 x3 s
  | .fwg x0 x1 x2 x3 => Sys2Proof.Machine.execFwg x0 x1 x2 x3 s
  | .fwa x0 x1 x2 => Sys2Proof.Machine.execFwa x0 x1 x2 s
  | .rply x0 x1 x2 x3 => Sys2Proof.Machine.execRply x0 x1 x2 x3 s
  | .swqry x0 x1 x2 => Sys2Proof.Machine.execSwqry x0 x1 x2 s
  | .swdrop x0 x1 x2 => Sys2Proof.Machine.execSwdrop x0 x1 x2 s
  | .trap x0 => Sys2Proof.Machine.execTrap x0 s
  | .tret => Sys2Proof.Machine.execTret s
  | .srd x0 x1 => Sys2Proof.Machine.execSrd x0 x1 s
  | .swr x0 x1 => Sys2Proof.Machine.execSwr x0 x1 s
  | .orw x0 x1 => Sys2Proof.Machine.execOrw x0 x1 s
  | .orinv x0 => Sys2Proof.Machine.execOrinv x0 s
  | .ormov x0 x1 => Sys2Proof.Machine.execOrmov x0 x1 s
  | .plcSwap x0 x1 => Sys2Proof.Machine.execPlcSwap x0 x1 s
  | .plcMigx x0 x1 => Sys2Proof.Machine.execPlcMigx x0 x1 s
  | .plcFold x0 x1 => Sys2Proof.Machine.execPlcFold x0 x1 s
  | .plcSeal x0 => Sys2Proof.Machine.execPlcSeal x0 s
  | .dualOn => Sys2Proof.Machine.execDualOn s
  | .dualOff => Sys2Proof.Machine.execDualOff s
  | .qsc x0 => Sys2Proof.Machine.execQsc x0 s
  | .asyncEventEntry x0 x1 => Sys2Proof.Machine.execAsyncEventEntry x0 x1 s
  | .icacheFill x0 x1 => Sys2Proof.Machine.execIcacheFill x0 x1 s
  | .recordFetch x0 x1 => Sys2Proof.Machine.execRecordFetch x0 x1 s
  | .storeBufferPerform x0 x1 => Sys2Proof.Machine.execStoreBufferPerform x0 x1 s
  | .homeSliceRequest x0 x1 => Sys2Proof.Machine.execHomeSliceRequest x0 x1 s
  | .l2MissFill x0 x1 => Sys2Proof.Machine.execL2MissFill x0 x1 s
  | .probeEcho x0 x1 x2 => Sys2Proof.Machine.execProbeEcho x0 x1 x2 s
  | .residencyFillRelease x0 x1 => Sys2Proof.Machine.execResidencyFillRelease x0 x1 s
  | .dispatch x0 => Sys2Proof.Machine.execDispatch x0 s
  | .gangPlacement x0 => Sys2Proof.Machine.execGangPlacement x0 s
  | .compaction x0 => Sys2Proof.Machine.execCompaction x0 s
  | .tedderInstant => Sys2Proof.Machine.execTedderInstant s
  | .exchange x0 x1 => Sys2Proof.Machine.execExchange x0 x1 s
  | .forwardingEntryExpiry x0 x1 => Sys2Proof.Machine.execForwardingEntryExpiry x0 x1 s
  | .messageDelivery x0 => Sys2Proof.Machine.execMessageDelivery x0 s
  | .messageReturn x0 => Sys2Proof.Machine.execMessageReturn x0 s
  | .migrationArrival x0 => Sys2Proof.Machine.execMigrationArrival x0 s
  | .migrationFailure x0 => Sys2Proof.Machine.execMigrationFailure x0 s
  | .rstArrival x0 => Sys2Proof.Machine.execRstArrival x0 s
  | .rstAcknowledgement x0 => Sys2Proof.Machine.execRstAcknowledgement x0 s
  | .engineSleep x0 => Sys2Proof.Machine.execEngineSleep x0 s
  | .engineWake x0 => Sys2Proof.Machine.execEngineWake x0 s
  | .consumption x0 => Sys2Proof.Machine.execConsumption x0 s
  | .drainStart x0 => Sys2Proof.Machine.execDrainStart x0 s
  | .rotationBufferForward x0 x1 => Sys2Proof.Machine.execRotationBufferForward x0 x1 s
  | .copyChunk x0 => Sys2Proof.Machine.execCopyChunk x0 s
  | .reservationGrant x0 x1 => Sys2Proof.Machine.execReservationGrant x0 x1 s
  | .completionNotice x0 x1 => Sys2Proof.Machine.execCompletionNotice x0 x1 s
  | .roundCancel x0 x1 => Sys2Proof.Machine.execRoundCancel x0 x1 s
  | .winnowMerge x0 => Sys2Proof.Machine.execWinnowMerge x0 s
  | .swathAcknowledgement x0 => Sys2Proof.Machine.execSwathAcknowledgement x0 s
  | .xwaitDeadline x0 x1 => Sys2Proof.Machine.execXwaitDeadline x0 x1 s
  | .watchdog => Sys2Proof.Machine.execWatchdog s
  | .uncorrectableError x0 => Sys2Proof.Machine.execUncorrectableError x0 s
  | .lineCheck x0 x1 => Sys2Proof.Machine.execLineCheck x0 x1 s
  | .frameReceipt x0 x1 x2 x3 x4 => Sys2Proof.Machine.execFrameReceipt x0 x1 x2 x3 x4 s
  | .keyPhaseSwitch x0 x1 x2 => Sys2Proof.Machine.execKeyPhaseSwitch x0 x1 x2 s
  | .narrowed x0 x1 => Sys2Proof.Machine.execNarrowed x0 x1 s
  | .down x0 => Sys2Proof.Machine.execDown x0 s
  | .retrained x0 x1 => Sys2Proof.Machine.execRetrained x0 x1 s
  | .thermal x0 => Sys2Proof.Machine.execThermal x0 s
  | .powerUp x0 x1 => Sys2Proof.Machine.execPowerUp x0 x1 s
  | .hostMemoryAccess x0 x1 x2 => Sys2Proof.Machine.execHostMemoryAccess x0 x1 x2 s
  | .tail x0 x1 x2 x3 => Sys2Proof.Machine.execTail x0 x1 x2 x3 s
  | .commandRefetch x0 x1 => Sys2Proof.Machine.execCommandRefetch x0 x1 s
  | .en x0 x1 x2 => Sys2Proof.Machine.execEn x0 x1 x2 s
  | .stalled x0 x1 => Sys2Proof.Machine.execStalled x0 x1 s
  | .rhead x0 x1 x2 => Sys2Proof.Machine.execRhead x0 x1 x2 s
  | .queueRegisterWrite x0 x1 x2 x3 => Sys2Proof.Machine.execQueueRegisterWrite x0 x1 x2 x3 s
  | .submit x0 x1 => Sys2Proof.Machine.execSubmit x0 x1 s
  | .power x0 x1 => Sys2Proof.Machine.execPower x0 x1 s
  | .attest x0 x1 => Sys2Proof.Machine.execAttest x0 x1 s
  | .badOp x0 x1 => Sys2Proof.Machine.execBadOp x0 x1 s
  | .spareClusterSteering x0 x1 => Sys2Proof.Machine.execSpareClusterSteering x0 x1 s
  | .secondStageMapping x0 x1 => Sys2Proof.Machine.execSecondStageMapping x0 x1 s
  | .recordCacheAcknowledgement x0 x1 => Sys2Proof.Machine.execRecordCacheAcknowledgement x0 x1 s
  | .hostWindowResponse x0 x1 => Sys2Proof.Machine.execHostWindowResponse x0 x1 s
  | .messageAcknowledgement x0 => Sys2Proof.Machine.execMessageAcknowledgement x0 s
  | .vectorCompletion x0 x1 => Sys2Proof.Machine.execVectorCompletion x0 x1 s
  | .collectiveDelivery x0 x1 => Sys2Proof.Machine.execCollectiveDelivery x0 x1 s
  | .recordedTransferArrival x0 x1 => Sys2Proof.Machine.execRecordedTransferArrival x0 x1 s
  | .sheafTableWrite x0 x1 => Sys2Proof.Machine.execSheafTableWrite x0 x1 s
  | .taskEnd x0 x1 x2 => Sys2Proof.Machine.execTaskEnd x0 x1 x2 s
  | .partitionReset => Sys2Proof.Machine.execPartitionReset s

end Sys2Proof.Machine
end

