-- ==== Sys2Proof/Machine/Issue.lean ====
section
/-! DEFINITION. How the machine goes on: issuing bundles and resuming halves (R35, R36, R121-R126, R151, R330,
R331, R342), what is due, and which events may come next (R6). -/

namespace Sys2Proof.Machine

/-- Continue after a next state. -/
def Res.andThen (r : Res) (k : State → Res) : Res :=
  match r with
  | .next s => k s
  | .fault f => .fault f
  | .refused f => .refused f

/-- An event that may happen: its meaning, with its operands. -/
abbrev Event := State → Res

/-- The major of an instruction, [29:23] of its word. -/
def majorOf (i : Instr) : Nat := i.body.getD 0 / 2 ^ 23

/-- May a run-ahead helper execute the instruction (R151)? -/
def helperMay (i : Instr) : Bool :=
  if i.isA then decide (majorOf i ≤ 0x2D)
  else match i with
    | .nopC | .br _ | .beq _ _ _ | .bne _ _ _ | .blt _ _ _ | .bge _ _ _ | .bltu _ _ _ | .bgeu _ _ _ | .bz _ _
    | .bnz _ _ | .loop _ _ | .call _ | .jr _ _ | .callr _ _ | .tsrd _ _ | .srd _ _ | .ld _ _ _ _ _ | .ldp _ _ _
    | .oprb _ _ | .pfch _ _ | .hstop => true
    | _ => false

/-- Is the system register one of the thread or its slot (R326)? -/
def ownReg (r : SysReg) : Bool :=
  match r with
  | .codeo | .xdone _ | .tedi | .tedg | .tedm | .tedc | .time | .wdog | .frec => false
  | _ => true

/-- Does an instruction touch nothing but its thread's registers, TSW and slot registers (R342)?  FSEL reads the
scratchpad. -/
def ownOnly (i : Instr) : Bool :=
  if i.isA then decide (majorOf i ≤ 0x2D) || decide (majorOf i = 0x46)
  else match i with
    | .nopC | .br _ | .beq _ _ _ | .bne _ _ _ | .blt _ _ _ | .bge _ _ _ | .bltu _ _ _ | .bgeu _ _ _ | .bz _ _
    | .bnz _ _ | .loop _ _ | .call _ | .jr _ _ | .callr _ _ | .brk _ | .trap _ | .tsrd _ _ => true
    | .srd _ r | .swr _ r => ownReg r
    | _ => false

/-- What the fetch at a thread's PC gives: nothing yet, a trap of the bundle, or the bundle, with it as the running
one (R67, R330, R331). -/
inductive Fetched where
  | wait (s : State)
  | trap (s : State) (c : Cause) (tval : Word)
  | bundle (s : State) (b : Bundle)

/-- The instructions of a bundle. -/
def Bundle.parts : Bundle → List Instr
  | .pair c a => [c, a]
  | .loneC c => [c]
  | .loneA a => [a]

namespace State

/-! ### Running a half and a bundle -/

/-- The running half is the C or A half of the bundle at a thread's PC, which latches the thread's registers. -/
def atIssue (s : State) (p : Nat) (j : Fin 16) (isA : Bool) (bundle : Word) : State :=
  let r := (s.slotAt p j).regs
  { s with cur := { pos := p, slot := j, ipc := r.pc, src := r, isA := isA, bundle := bundle } }

/-- The thread's PC goes on to the next bundle; a taken branch or a trap overwrites it (R129). -/
def nextBundle (s : State) : State := s.setPc (s.cur.ipc + 8)

/-- The bundle of the running half issues again from its address, with the records fetched for it. -/
def again (s : State) : State := s.setPc s.cur.ipc

/-- What a bundle leaves behind once it has passed its traps: the records fetched for it are dropped. -/
def passed (s : State) : State :=
  if s.me.fetched.isEmpty then s else s.updMe fun x => { x with fetched := [] }

/-- After a half at issue: it has trapped, it holds the bundle, or it goes on with `k` (R36, R171). -/
def unlessStopped (t : State) (k : Res) : Res :=
  match t.cur.out with
  | .trap => .next t.passed
  | .held => .next t.again
  | _ => k

/-- A bundle of one instruction. -/
def runLone (s : State) (i : Instr) : Res :=
  Res.andThen (exec i s.nextBundle) fun t => t.unlessStopped (.next t.passed)

/-- While a half of the bundle is out, its slot keeps the registers and BOUNCE from before the bundle, and the first
number that the bundle could give out (R36); not where another thread has taken the slot. -/
def keepUndo (t : State) (tid : Tid) (issued : Nat) (before : Regs × Reg) : State :=
  if t.me.tid = tid && (t.me.pendC.isSome || t.me.pendA.isSome) then
    t.updMe fun x => { x with undo := some before, issued := issued }
  else t

/-- A pair (R36): the traps of both halves are tested first, those of the C half first; then the A half's
result is written, and the C half takes effect. -/
def runPair (s : State) (c a : Instr) : Res :=
  let sC := s.nextBundle
  let sA : State := { sC with cur := { sC.cur with isA := true } }
  Res.andThen (exec c sC) fun t =>
    t.unlessStopped
      (Res.andThen (exec a sA) fun u =>
        u.unlessStopped
          (Res.andThen (exec c { u with cur := sC.cur }) fun v =>
            v.unlessStopped (.next (v.passed.keepUndo s.me.tid s.fresh (s.cur.src, s.me.bounce)))))

/-- A bundle takes effect; in a helper only what R151 lets it execute. -/
def runBundle (s : State) (b : Bundle) : Res :=
  let s := match b with
    | .loneA _ => { s with cur := { s.cur with isA := true } }
    | _ => s
  match s.me.life, (Bundle.parts b).all helperMay with
  | .helper _, false => .next (s.updMe vacated)
  | _, _ =>
    match b with
    | .pair c a => s.runPair c a
    | .loneC c => s.runLone c
    | .loneA a => s.runLone a

/-- A half that is out of the rotation goes on in its phase. -/
def resumeHalf (s : State) (p : Nat) (j : Fin 16) (isA : Bool) : Res :=
  let x := s.slotAt p j
  match (if isA then x.pendA else x.pendC) with
  | none => .next s
  | some q =>
    let t := s.updSlot p j fun y =>
      if isA then { y with pendA := none, stalled := none } else { y with pendC := none, stalled := none }
    let u : State :=
      { t with
        cur :=
          { pos := p, slot := j, ipc := x.ipc, src := x.latch, isA := isA, phase := q.phase, held := q.held
            bundle := x.bundle } }
    Res.andThen (exec q.ins u) fun v =>
      .next (match v.cur.out with
        | .held => v.updSlot p j fun y =>
          let again := some { q with wait := Wait.poll }
          if isA then { y with pendA := again } else { y with pendC := again }
        | _ => v)

/-- A half that an event has let go on, outside its thread's cycles: the thread issues from its next cycle on
(R124). -/
def wakeHalf (s : State) (p : Nat) (j : Fin 16) (isA : Bool) : Res :=
  (s.updSlot p j fun y => { y with ready := max y.ready (s.time + 1) }).resumeHalf p j isA

/-! ### Fetch and issue (R123, R126, R331) -/

/-- The record of the code object and the residency byte of the granule at a PC have been read (R192, R331). -/
def codeRead (s : State) (pc : BitVec 38) : State :=
  let obj := bits s.part.codeo 23 0
  let tb := tableBase s.part.ortb
  if obj == 0 || decide (2 ^ tableLog s.part.ortb ≤ obj) then s
  else
    let t := s.recordRead tb obj
    match t.recordAt tb obj with
    | none => t
    | some r =>
      if r.ok && !r.rvk && r.permX && decide (pc.toNat + 7 < r.dim 0) then t.rmapRead r (r.granule (r.offset pc.toNat))
      else t

/-- What keeps the fetch at a PC away is reported (R173, R175, R331), and the thread waits for it; a run-ahead helper
ends (R151). -/
def codeAbsent (s : State) (p : Nat) (j : Fin 16) (pc : BitVec 38) : State :=
  match (s.slotAt p j).life with
  | .helper _ => s.updSlot p j vacated
  | _ =>
    let obj := bits s.part.codeo 23 0
    let tb := tableBase s.part.ortb
    let t := match s.recordAt tb obj with
      | none => s.reportMiss (tb + 64 * obj)
      | some r => s.reportAbsent tb obj r pc.toNat [elemAddr r pc.toNat]
    t.updSlot p j fun x => { x with absent := true }

/-- The bundle at a thread's PC, once it is fetched and decoded (R67, R330, R331). -/
def fetchBundle (s : State) (p : Nat) (j : Fin 16) : Fetched :=
  let x := s.slotAt p j
  let pc := x.regs.pc
  let s := s.codeRead pc
  match s.fetchAt pc with
  | .fault c => .trap (s.atIssue p j false 0) c (pc.setWidth 64)
  | .wait => .wait (s.codeAbsent p j pc)
  | .bytes a =>
    if !(s.core p).icache.contains (pc.toNat / 64) then
      .wait (s.updSlot p j fun y => { y with fetch := some (pc.toNat / 64) })
    else
      let r := s.memRead a 8
      let w : Word := BitVec.ofNat 64 (ofBytes r.1)
      let t := r.2.atIssue p j false w
      match decodeBundle (bits w 31 0) (bits w 63 32) with
      | .error _ => .trap t .illegal w
      | .ok b => .bundle t b

/-- A thread of its own issues. -/
def issueAlone (s : State) (p : Nat) (j : Fin 16) : Res :=
  match s.fetchBundle p j with
  | .wait t => .next t
  | .trap t c v => .next (t.trap c v)
  | .bundle t b => t.runBundle b

/-- What a redundant pair does once for both its threads (R342): it waits for the trailing thread, is compared, and is
performed; a difference seals the core. -/
def runOnce (t : State) (p : Nat) (j k : Fin 16) (run : Res) : Res :=
  if (t.slotAt p j).ahead ≠ 0 then .next t
  else if !t.agree p j k then .next (t.sealCore p)
  else
    Res.andThen run fun u =>
      .next (if (u.slotAt p j).pair.isSome then u.updCore p fun c => { c with lvq := some t.cur.ipc } else u)

/-- The leading thread of a redundant pair (R342): it runs ahead in bundles that touch only its own registers;
anything else, a trap of the fetch too, is performed once.  Before an event that it has to take it waits for the
trailing thread, so that the event comes before its next bundle (R333). -/
def issueLeading (s : State) (p : Nat) (j k : Fin 16) : Res :=
  let s := if (s.core p).lvq.isSome then s.syncPair p j k else s
  let x := s.slotAt p j
  if x.ahead ≠ 0 && !x.events.isEmpty && !Tsw.s x.regs.tsw then .next s
  else
  match s.fetchBundle p j with
  | .wait t => .next t
  | .trap t c v => t.runOnce p j k (.next (t.trap c v))
  | .bundle t b =>
    let ahead := (s.slotAt p j).ahead
    if (Bundle.parts b).all ownOnly then
      if 64 ≤ ahead then .next t
      else Res.andThen (t.runBundle b) fun u => .next (u.updSlot p j fun x => { x with ahead := ahead + 1 })
    else t.runOnce p j k (t.runBundle b)

/-- The trailing thread (R342): it takes the values of a bundle performed once, or executes the next bundle that
the leading thread is ahead by; a trap of its fetch where the leading thread had none is a difference. -/
def issueTrailing (s : State) (p : Nat) (j k : Fin 16) : Res :=
  let x := s.slotAt p k
  if (s.core p).lvq.isSome then
    .next (if x.pendC.isNone && x.pendA.isNone then s.syncPair p k j else s)
  else if x.ahead = 0 then .next s
  else
    match s.fetchBundle p j with
    | .wait t => .next t
    | .trap t _ _ => .next (t.sealCore p)
    | .bundle t b =>
      Res.andThen (t.runBundle b) fun u => .next (u.updSlot p k fun y => { y with ahead := y.ahead - 1 })

/-- A bundle issues anew: what the last one has left beside the thread is over. -/
def anew (s : State) (p : Nat) (j : Fin 16) : State :=
  s.updSlot p j fun x => { x with undo := none, stalled := none }

/-- A thread in the rotation issues in its cycle (R122), unless it takes an asynchronous event first (R333); taking
the event uses the cycle up, which is the model's choice (log entry 90). -/
def issueNext (s : State) (p : Nat) (j : Fin 16) : Res :=
  let x := s.slotAt p j
  if s.asyncReady p j then execAsyncEventEntry p j.val s
  else
    let t := s.anew p j
    match x.life, x.pair with
    | .trailing k, _ => t.issueTrailing p j k
    | _, some k => t.issueLeading p j k
    | _, none => t.issueAlone p j

/-- Is a half of the slot tried again in its cycle? -/
def polls (q : Option Pend) : Bool :=
  match q with
  | some q => q.wait == .poll
  | none => false

/-- Do the resources exist that the bundle at a thread's PC has lacked (R238)? -/
def supplied (c : Core) (x : Slot) : Bool :=
  match x.stalled with
  | some (a, b, rot) => !lacks c a b rot
  | none => true

/-- May the thread in a slot of a core issue now? -/
def inRotation (s : State) (p : Nat) (x : Slot) : Bool :=
  x.busy && x.pendC.isNone && x.pendA.isNone && x.fetch.isNone && !x.absent && x.want.isNone && !x.quiet &&
    decide (x.ready ≤ s.time) && supplied (s.core p) x

/-- A slot in its own cycle issues (R122). -/
def slotCycle (s : State) (p : Nat) (j : Fin 16) : Res :=
  let t := s.out .done
  if t.inRotation p (t.slotAt p j) then t.issueNext p j else .next t

/-- Is the slot a trailing thread's that has not caught up, for which an exchange waits (R342)? -/
def catchesUp (s : State) (p : Nat) (j : Fin 16) : Bool :=
  match (s.slotAt p j).life with
  | .trailing k => (s.slotAt p k).ahead != 0
  | _ => false

/-- Is a core at work in this cycle, with its cycle's slot occupied? -/
def coreRuns (s : State) (p : Nat) : Bool :=
  (s.slotAt p (Fin.ofNat 16 s.time)).busy && !(s.core p).sealed && s.dieRuns (dieOf p) &&
    (!s.frozen p || s.catchesUp p (Fin.ofNat 16 s.time))

/-- Can a core issue in this cycle? -/
def coreActs (s : State) (p : Nat) : Bool :=
  s.coreRuns p && s.inRotation p (s.slotAt p (Fin.ofNat 16 s.time))

/-- Has the slot whose cycle it is, in a core, a half to try again, or a bundle that still lacks its resources (R238)? -/
def coreTries (s : State) (p : Nat) : Bool :=
  let x := s.slotAt p (Fin.ofNat 16 s.time)
  s.coreRuns p && x.want.isNone && decide (x.ready ≤ s.time) &&
    (if supplied (s.core p) x then polls x.pendA || polls x.pendC else x.pendA.isNone && x.pendC.isNone)

/-- The waiting halves of a slot are tried again, at the start of its own cycle: a condition that has ended before it
lets the thread issue in it (R124).  A bundle that lacks its resources then does not issue in the cycle. -/
def tryHalves (s : State) (p : Nat) (j : Fin 16) : Res :=
  let half (t : State) (isA : Bool) : Res :=
    let x := t.slotAt p j
    if x.busy && polls (if isA then x.pendA else x.pendC) then t.resumeHalf p j isA else .next t
  if !supplied (s.core p) (s.slotAt p j) then .next ((s.out .done).updSlot p j fun x => { x with ready := s.time + 1 })
  else Res.andThen (half (s.out .done) true) fun t => half t false

/-- The halves of the package that are tried again at the start of a cycle. -/
def pollDue (s : State) : Option Res :=
  (s.cores.find? fun c : Nat × Core => decide (s.polled ≤ c.1) && s.coreTries c.1).map fun c =>
    ({ s with polled := c.1 + 1 }).tryHalves c.1 (Fin.ofNat 16 s.time)

/-- The next core, in the order of positions, that can do something in this cycle. -/
def nextCore (s : State) : Option Nat :=
  (s.cores.find? fun c => decide (s.turn ≤ c.1) && s.coreActs c.1).map (·.1)

/-! ### What happens at once -/

/-- A barrier phase that has reached its leaves (R147). -/
def phaseDue (s : State) : Option State :=
  firstSome (fun k : Nat × Cluster =>
    match k.2.phases with
    | (t, ph) :: rest =>
      if t ≤ s.time && s.dieRuns (k.1 / 64) then some ((s.updCluster k.1 fun c => { c with phases := rest }).phaseArrives k.1 ph) else none
    | [] => none) s.clusters

/-- Is the element of a parked access resident and mapped, for an atomic through both bases of a moving record (R177),
or does its access end in another way (R173, R175, R304)?  An access that has not been tested yet needs its record
only.  One that something else keeps away than has been reported is tried again, and reports it. -/
def elemReady (s : State) (q : Pend) (tb obj i : Nat) : Bool :=
  match s.recordAt tb obj with
  | none => !s.missKnown (tb + 64 * obj)
  | some r =>
    let both := !q.ins.isA && decide (0x40 ≤ majorOf q.ins) && decide (majorOf q.ins ≤ 0x46)
    q.held.isEmpty || r.rvk ||
      !s.absenceKnown tb obj r i ((tb + 64 * obj) :: if both then elemBases r i else [elemAddr r i]) ||
      (s.resident r (r.granule (r.offset i)) && (s.hpaOf (elemAddr r i)).isSome &&
        (!both || (elemBases r i).all fun g => (s.hpaOf g).isSome))

/-- Can a half go on now: its release is over (R195), the store buffer has room (R159), or its element is resident
(R175)? -/
def halfReady (s : State) (p : Nat) (j : Fin 16) (q : Option Pend) : Bool :=
  match q with
  | none => false
  | some q =>
    match q.wait with
    | .release es ps sys => s.releaseOver p j es ps sys
    | .room => !s.bufferFull p
    | .resident tb obj i => s.elemReady q tb obj i
    | .granule tb obj k => !s.fills.contains (tb, obj, k) || ((s.recordAt tb obj).map fun r => s.resident r k).getD false
    | .frame a => (s.hpaOf a).isSome
    | _ => false

/-- Has what kept the fetch at a PC away gone (R175, R331)? -/
def codeReady (s : State) (pc : BitVec 38) : Bool :=
  match s.fetchAt pc with
  | .wait => false
  | _ => true

/-- Does something keep the fetch at a PC away that has not been reported (R173, R175)? -/
def codeUnreported (s : State) (pc : BitVec 38) : Bool :=
  let obj := bits s.part.codeo 23 0
  let tb := tableBase s.part.ortb
  !s.codeReady pc && (match s.recordAt tb obj with
    | none => !s.missKnown (tb + 64 * obj)
    | some r => !s.absenceKnown tb obj r pc.toNat [elemAddr r pc.toNat])

/-- The fetch that waited for its granule is performed: a line that the instruction cache does not hold is filled, and
the thread issues from its next cycle on (R124, R175). -/
def codeArrives (s : State) (p : Nat) (j : Fin 16) : State :=
  let l := (s.slotAt p j).regs.pc.toNat / 64
  let hit := (s.core p).icache.contains l || (match s.fetchAt (s.slotAt p j).regs.pc with
    | .fault _ => true
    | _ => false)
  s.updSlot p j fun x =>
    { x with absent := false, ready := max x.ready (s.time + 1), fetch := if hit then none else some l }

/-- What the threads of the package do as soon as what they wait for has ended: departures and halves.  Of stores that
wait for room in a buffer the one of the lowest slot enters first, and each takes its place among the accesses of the
cycle at the moment it enters: both are the model's choice (R159, R165, log entry 99). -/
def threadDue (s : State) : Option Res :=
  firstSome (fun pj : Nat × Fin 16 =>
    let p := pj.1
    let j := pj.2
    let x := s.slotAt p j
    if (s.core p).sealed || !s.dieRuns (dieOf p) then none
    else if s.halfReady p j x.pendA then some (s.wakeHalf p j true)
    else if s.halfReady p j x.pendC then some (s.wakeHalf p j false)
    else if x.absent && s.codeReady x.regs.pc then some (.next (s.codeArrives p j))
    else if x.absent && s.codeUnreported x.regs.pc then some (.next (s.codeAbsent p j x.regs.pc))
    else if s.frozen p then none
    else (s.departs p j).map fun v => .next (s.depart p j v)) s.threads

/-! ### What is due in a cycle -/

/-- The clusters with any state. -/
def clustersInUse (s : State) : List Nat :=
  (s.cores.foldl (fun l c => insertNat l (cluOf c.1)) (s.clusters.map fun k => k.1)).filter fun k => k < 512

/-- The next access due at a core's bank: of the lowest slot (R165). -/
def bankNext (s : State) (p : Nat) : Option Event :=
  match s.bankDue p with
  | [] => none
  | l =>
    let first (j : Fin 16) : Bool := l.all fun i => decide (j ≤ i)
    let c := s.core p
    if (match c.vector, vdue c with
        | v :: _, some d => decide (d ≤ s.time) && s.dieRuns (dieOf p) && first v.slot
        | _, _ => false) then some (execVectorCompletion p 0)
    else if c.moves.any fun m => decide (m.begun + 72 ≤ s.time) && first m.job.slot then some (execConsumption (cluOf p))
    else some (execDrainStart (cluOf p))

/-- The full/empty operations that can be performed at a core's bank now (R163, R165). -/
def feDue (s : State) (p : Nat) : Option Event :=
  if slotIds.any fun j => (s.feReady p j).isSome then some fun t => .next (t.feLoop p 16) else none

/-- What an engine has to do in this cycle (R239, R248, R252). -/
def engineDue (s : State) (k : Nat) : Option Event :=
  if !s.dieRuns (k / 64) then none
  else if s.wakeDue k then some (execEngineWake k)
  else if s.sleepDue k then some (execEngineSleep k)
  else
    match s.nextJob k, s.nextDrain k with
    | some j, some d =>
      -- the next queue in order is served first (R239)
      let at' (i : Fin 8) : Nat := (serveOrder (s.engine k).last).idxOf i
      if at' d.1 < at' j.1 then some (execDrainStart k) else some (execConsumption k)
    | some _, none => some (execConsumption k)
    | none, some _ => some (execDrainStart k)
    | none, none => none

/-- Is a rotated tile due at a stream with room (R242)? -/
def rotationDue (s : State) (p : Nat) (isB : Bool) : Bool :=
  let c := s.core p
  match (if isB then c.rotB else c.rotA) with
  | none => false
  | some (_, due, dst) =>
    let d := s.core dst
    decide (due ≤ s.time) && decide ((if isB then d.strB else d.strA).length < 16)

/-- What a core has to do at the end of this cycle (R242, R266, R278). -/
def coreDue (s : State) (p : Nat) : Option Event :=
  let c := s.core p
  if !s.dieRuns (dieOf p) then none
  else if s.rotationDue p false then some (execRotationBufferForward p false)
  else if s.rotationDue p true then some (execRotationBufferForward p true)
  else
    match slotIds.find? fun j => (s.deadlineDue p j).isSome with
    | some j => some (execXwaitDeadline p j.val)
    | none =>
      (c.fwd.find? fun f => !f.hold && decide (f.lapses ≤ s.time)).map fun f => execForwardingEntryExpiry p f.vc

/-- A queue's refetch that is due (R353). -/
def refetchDue (s : State) : Option Event :=
  firstSome (fun q : Nat × HQueue =>
    match q.2.refetch with
    | some (_, t) =>
      if t ≤ s.time && q.2.en && !q.2.stalled && !ringFull q.2 then some (execCommandRefetch (q.1 / 64) (q.1 % 64)) else none
    | none => none) s.queues

/-- The first of several, each looked for only where the ones before give nothing. -/
def orElse (a : Option Event) (b : Unit → Option Event) : Option Event :=
  match a with
  | some e => some e
  | none => b ()

/-- The first event that is due before TIME advances: at the banks in their order (R165), then the rest. -/
def due (s : State) : Option Event :=
  let ps := s.cores.map (·.1)
  orElse (firstSome s.bankNext ps) fun _ =>
    orElse (firstSome s.feDue ps) fun _ =>
      orElse (firstSome s.engineDue s.clustersInUse) fun _ =>
        orElse (firstSome s.coreDue ps) fun _ =>
          orElse s.refetchDue fun _ =>
            if s.instantDue then some execTedderInstant else if s.watchdogDue then some execWatchdog else none

/-! ### What may happen next (R6) -/

/-- May an access for a slot be performed at a core's bank now: the core has issued, and the bank's order lets it in
(R165)? -/
def bankAt (s : State) (p : Nat) (j : Fin 16) : Bool := decide (p < s.turn) && s.bankTurn p j

/-- Events of the store buffer, instruction cache and record fetches of a core, its probes, its vector unit. -/
def coreEvents (s : State) (p : Nat) (c : Core) : List Event :=
  (c.buffer.filterMap fun e =>
    if !e.sent && s.mayPerform p e (c.buffer.takeWhile fun x => x.id != e.id) then some (execStoreBufferPerform p e.id)
    else none) ++
  (slotIds.flatMap fun j =>
    let x := c.slots.get j
    let probesOf (q : Option Pend) : List Nat := match q with
      | some q => match q.wait with
        | .release _ ps _ => ps
        | .depart _ ps _ => ps
        | _ => []
      | none => []
    (if x.fetch.isSome then [execIcacheFill p j.val] else []) ++
      (if x.want.isSome then [execRecordFetch p j.val] else []) ++
      ((probesOf x.pendC ++ probesOf x.pendA).filter fun g => !s.probeBlocked p g).map fun g =>
        execProbeEcho p j.val g) ++
  (match c.vector with
   | [] => []
   | j :: _ => match vstart c j with
     | some t =>
       if t ≤ s.time && s.bankAt p j.slot && s.dieRuns (dieOf p) && (s.vaccess p j).isSome then
         [execVectorCompletion p 1] else []
     | none => [])

/-- Events of a home. -/
def homeEvents (s : State) (h : Nat) (x : Home) : List Event :=
  (x.queue.filterMap fun q =>
    if (q.2.line.isSome && s.arrives h q.2) || (s.mayServe h q.1 q.2 && !x.mshr.contains (s.lineOf q.2)) ||
        (decide (h < 1536) && s.arrives h q.2 && !(s.fuseWith h q.1 q.2).isEmpty) then
      some (if 1536 ≤ h then execHostWindowResponse (h - 1536) q.1 else execHomeSliceRequest h q.1)
    else none) ++ x.mshr.map fun l => execL2MissFill h l

/-- Events of an item in the network; what another package does comes from outside. -/
def itemEvents (s : State) (id : Nat) (x : Item) : List Event :=
  if !s.travels x then [] else
  match x.load with
  | .message dest _ _ _ => if pkgOf (bits dest 35 0) = s.pkg then [execMessageDelivery id] else []
  | .returned _ _ _ => [execMessageReturn id]
  | .delivered _ _ => [execMessageAcknowledgement id]
  | .thread _ v _ => if s.hop v x.dst = .exited then [execMigrationFailure id] else [execMigrationArrival id]
  | .rst _ _ addr _ _ => if pkgOf (bits addr 59 24) = s.pkg then [execRstArrival id] else []
  | .rstAck _ _ _ => [execRstAcknowledgement id]
  | .klist _ _ _ _ _ _ _ _ | .winnow _ _ _ => [execWinnowMerge id]
  | .fill _ _ => [execMessageDelivery id]
  | .transfer _ _ _ tree _ _ _ _ _ left _ =>
    if tree.isSome && left.isEmpty then [execSwathAcknowledgement id] else left.map fun v => execRecordedTransferArrival id v
  | .transferAck _ _ _ _ _ => [execSwathAcknowledgement id]
  | .hostAck _ => [execHostWindowResponse 0 id]

/-- Events of a cluster: the engine's accesses and the copy hart. -/
def clusterEvents (s : State) (k : Nat) : List Event :=
  (if (s.clusterMoves k).any fun m => decide (m.1 < s.turn) && s.moveGoes m.1 m.2 then [execConsumption k] else []) ++
  (match (s.engine k).drain with
   | some d =>
     if s.bankAt (8 * k + d.core.val) d.job.slot && drainMore d then [execDrainStart k] else []
   | none => []) ++
  (if (s.hartChunk k).isSome then [execCopyChunk k] else [])

/-- Events of a vcore's group registers. -/
def groupEvents (s : State) (v : Nat) (x : VCore) : List Event :=
  ((x.grp.toList.filter (·.bound)).map (·.gid)).flatMap fun g =>
    (if (firstSome (s.grant v) (s.boundTo v g)).isSome then [execReservationGrant v g] else []) ++
      (if (firstSome (s.deliverChunk v) (s.boundTo v g)).isSome then [execCollectiveDelivery v g] else []) ++
      (if (firstSome (s.notice v) (s.boundTo v g)).isSome then [execCompletionNotice v g] else [])

/-- Events of the dispatcher (R137, R139, R140), and the ends of the tasks that have left for another package. -/
def queueEvents (s : State) : List Event :=
  if s.part.quiet then []
  else
    ((s.part.live.filter fun q => q.2.far).map fun q => execDispatch q.1) ++
    s.part.queue.flatMap fun q =>
      let w := q.2.w
      if q.2.ready.isSome && Pkt.gang w && !Pkt.any w && !q.2.again then
        if Pkt.member w = 0 then [execGangPlacement (Pkt.gangId w), execCompaction (Pkt.gangId w)] else []
      else [execDispatch q.1]

/-- The command that a queue has accepted. -/
def commandEvents (n : Nat) (x : HQueue) : List Event :=
  match x.command with
  | none => []
  | some w =>
    let p := n / 64
    let q := n % 64
    match cmdOp w with
    | 1 => [execSubmit p q]
    | 2 => [execPower p q]
    | 3 => [execAttest p q]
    | _ => [execBadOp p q]

/-- The events inside the package that may come next. -/
def events (s : State) : List Event :=
  (s.cores.flatMap fun c => s.coreEvents c.1 c.2) ++
  (s.homes.flatMap fun h => s.homeEvents h.1 h.2) ++
  (s.net.flatMap fun n => s.itemEvents n.1 n.2) ++
  (s.clustersInUse.flatMap s.clusterEvents) ++
  (s.vcores.flatMap fun v => s.groupEvents v.1 v.2) ++
  s.queueEvents ++
  (s.trees.flatMap fun g => g.2.cancels.flatMap fun c => c.left.map fun v => execRoundCancel v g.1) ++
  (s.acks.flatMap fun a => (a.2.left.filter fun c => !s.accessPending c a.2).map fun c =>
    execRecordCacheAcknowledgement c a.1) ++
  (s.exchanges.filterMap fun e =>
    if s.exchReady e then some (execExchange (s.exchCores e).1 (s.exchCores e).2) else none) ++
  (s.queues.flatMap fun q => commandEvents q.1 q.2) ++
  ((s.notified.filter fun p => (s.core p).channel.isEmpty).map fun p t => .next (t.restartCore p)) ++
  (s.vcores.filter fun v => s.mayExit v.1).map fun v t => .next (t.exitVcore v.1)

/-- A cycle goes on: the next core acts, or what is due happens, or TIME advances. -/
def proceed (s : State) : Res :=
  match s.nextCore with
  | some p => ({ s with turn := p + 1 }).slotCycle p (Fin.ofNat 16 s.time)
  | none =>
    match s.due with
    | some e => e s
    | none => .next { s with time := s.time + 1, polled := 0, turn := 0 }

/-- Every core has tried its waiting halves, and where no core issues any more in this cycle, every core has. -/
def settled (s : State) : State :=
  { s with polled := allCores, turn := if s.nextCore.isNone then allCores else s.turn }

/-- May an outside event land now?  A host access to a die whose clocks are stopped waits, and what comes after it
(R361). -/
def lands (s : State) (i : Instr) : Bool :=
  match i with
  | .hostMemoryAccess hpa len _ => s.hostLands hpa len || !hpaOk hpa || !hpaOk (hpa + len - 1)
  | _ => true

/-- One of the events that may come next, the next outside event, or else the cycle goes on; which of them is
free (R6, log entry 3). -/
def chooseNext (s : State) : Res :=
  let s := s.settled
  let inner := s.events
  let all := inner ++ ((s.inputs.take 1).filter s.lands).map exec
  if all.isEmpty then s.proceed
  else
    let n := s.pick (all.length + 1)
    match all[n.1]? with
    | none => n.2.proceed
    | some e => e (if n.1 < inner.length then n.2 else { n.2 with inputs := s.inputs.drop 1 })

/-- One step of the package. -/
def advance (s : State) : Res :=
  match s.phaseDue with
  | some t => .next t
  | none =>
    match s.threadDue with
    | some r => r
    | none =>
      match s.pollDue with
      | some r => r
      | none => s.chooseNext

end State

end Sys2Proof.Machine
end

