-- ==== Sys2Proof/Machine/Step.lean ====
section
/-! DEFINITION. One step of the machine, and how the host places one instruction where it is fetched next. -/

namespace Sys2Proof.Machine

/-- One step (R6). -/
def step (s : State) : Host.Outcome State Fault Refusal := s.advance

namespace State

/-- The guest pages that `withFetchWord` uses: the record table with the residency bitmap, and the code. -/
def tableAt : Nat := 0x10000
def rmapAt : Nat := 0x11000
def codeAt : Nat := 0x20000

/-- The record of the code object: valid, UINT8, rank 1, LAYOUT 0, 2^32 − 1 bytes, executable, granules of
16 MiB. -/
def codeRecord : List Byte :=
  toBytes 8 (2 ^ 63 + 0x1 * 2 ^ 56 + codeAt) ++ toBytes 8 (2 ^ 32 - 1) ++ toBytes 8 0 ++ toBytes 8 1 ++ toBytes 8 0 ++
    toBytes 8 (8 * 2 ^ 12 + 2 ^ 2) ++ toBytes 8 rmapAt ++ toBytes 8 0

/-- The vcore in which the placed instruction runs: vcore 0 of the package. -/
def placedVcore (s : State) : Nat := s.pkg * 2 ^ 16

/-- The loads that stand before a first bundle (log entry 1): a booted package, a vcore placed at position 0 with
a thread in the slot whose cycle it is, and the code object with its record, residency and mapping. -/
def withThread (s : State) : State :=
  let j : Fin 16 := Fin.ofNat 16 s.time
  let v := s.placedVcore
  let o : Word := BitVec.ofNat 64 (1 * 2 ^ 54 + tableAt)
  let t : State :=
    { s with
      boot := { s.boot with ready := true }, polled := 0, turn := 0, inputs := []
      stage2 := (s.stage2.put 1 1).put 2 2
      mem := Memory.write (Memory.writeN s.mem (tableAt + 64) codeRecord) rmapAt 0x80
      part := { s.part with ortb := o, codeo := 1 } }
  let u := (t.updVcore v fun x => { x with place := .placed, lock := false, pos := 0, ortb := o }).updCore 0 fun c =>
    { c with sealed := false, icache := insertNat c.icache 0 }
  let tid : Tid := { vc := v, tnum := j, gen := ((u.vcore v).map.get j).gen }
  (u.takeSlot 0 j { tid := tid, occ := v } v true).updSlot 0 j fun x => { x with ready := s.time }

/-- The bytes of one table word's bundle. -/
def bundleBytes (nbits w : Nat) : List Byte :=
  toBytes 4 (tableWords nbits w).1 ++ toBytes 4 (tableWords nbits w).2

/-- The state with one instruction where it is fetched next. -/
def withFetchWord (s : State) (nbits w : Nat) : State :=
  let t := s.withThread
  { t with mem := Memory.writeN t.mem codeAt (bundleBytes nbits w) }

end State

end Sys2Proof.Machine
end

