-- ==== Sys2Proof/Safety.lean ====
section
/-! DEFINITION. What a safe run is, in the terms that claims use. -/

namespace Sys2Proof.Machine

/-- A step that goes on. -/
def State.goesOn (s : State) : Prop := ∃ t, step s = .next t

/-- A run of n steps without a fault or a refusal. -/
def State.runsSafely : Nat → State → Prop
  | 0, _ => True
  | n + 1, s => ∃ t, step s = .next t ∧ State.runsSafely n t

end Sys2Proof.Machine
end

