-- ==== Sys2Proof/Certificates/Slice0/Obligations.lean ====
section
/-! DEFINITION. The statements for the provers. -/

section

open Sys2Proof Sys2Proof.Machine

namespace Sys2Proof.Claim

/-- The instruction completes: it writes one register with a word of which P holds, and does nothing else. -/
def Gives (i : Instr) (s : State) (rd : Reg) (P : Word → Prop) : Prop :=
  ∃ w : Word, exec i s = .next (s.setG rd w) ∧ P w

/-- A truth value as a register holds it. -/
def truth (p : Prop) [Decidable p] : Word := if p then 1 else 0

/-- An instruction's body: its major, the three register fields and func (R53-R56). -/
def Encodes (i : Instr) (major rd ra rb func : Nat) : Prop :=
  i.body = some (major * 2 ^ 23 + rd * 2 ^ 19 + ra * 2 ^ 15 + rb * 2 ^ 11 + func)

/-- n steps of the reflected CRC-32C (R117). -/
def crcBits : Nat → BitVec 32 → BitVec 32
  | 0, c => c
  | n + 1, c => crcBits n (if c.getLsbD 0 then (c >>> 1) ^^^ 0x82F63B78 else c >>> 1)

/-- The low n bytes of a word folded in, lowest first (R117). -/
def crcBytes : Nat → BitVec 32 → Word → BitVec 32
  | 0, c, _ => c
  | n + 1, c, b => crcBytes n (crcBits 8 (c ^^^ (b.setWidth 8).setWidth 32)) (b >>> 8)

/-- The CRC-32C of bytes in order, with the preset and the final inversion of R352. -/
def crcOf (bs : List Byte) : BitVec 32 :=
  ~~~(bs.foldl (fun c b => crcBits 8 (c ^^^ b.setWidth 32)) (BitVec.allOnes 32))

/-- A store's frame: n bytes at a scratchpad address of the running core may change and one entry joins its store
buffer; no register of any thread, no other scratchpad byte of any core and no byte of memory changes. -/
def Stored (s t : State) (pa n : Nat) : Prop :=
  (∀ a, ¬(pa ≤ a ∧ a < pa + n) → Memory.read (t.core s.cur.pos).spad a = Memory.read (s.core s.cur.pos).spad a) ∧
  (∀ p, p ≠ s.cur.pos → t.core p = s.core p) ∧ (t.core s.cur.pos).slots = (s.core s.cur.pos).slots ∧
  (∃ e, (t.core s.cur.pos).buffer = (s.core s.cur.pos).buffer ++ [e] ∧ e.op = .scratch pa n) ∧ t.mem = s.mem

/-- A release of the running thread has nothing to wait for (R193, R195): its core's store buffer is empty, no
slice group is named in BANKM, and all that the thread sent has been acknowledged. -/
def NothingPending (s : State) : Prop :=
  (s.core s.cur.pos).buffer = [] ∧ s.me.regs.bankm = 0 ∧ s.me.unacked = [] ∧
    ∀ k : Fin 16, ∀ e, s.me.journal.get k = some e → e.cause.isSome = true

/-- The running thread has retired (R143): its slot is empty, and its trailing copy's (R342), its map entry NONE, its
packet no longer live, the progress count one higher; memory and every other slot of the core that was no helper of it
stay. -/
def Retired (s t : State) : Prop :=
  t.me.busy = false ∧ (∀ k, s.me.pair = some k → (t.slotAt s.cur.pos k).busy = false) ∧
    (t.mapEntry s.me.tid).state = .none ∧ t.part.live = s.part.live.del s.me.pid ∧
    t.part.progress = s.part.progress + 1 ∧ t.mem = s.mem ∧
    ∀ j : Fin 16, j ≠ s.cur.slot → s.me.pair ≠ some j → (s.slotAt s.cur.pos j).life ≠ .helper s.cur.slot →
      t.slotAt s.cur.pos j = s.slotAt s.cur.pos j

/-- No die has W × H placeable clusters in any block of a gang's shape (R140). -/
def NoBlock (s : State) (p : Pkt.Words) : Prop :=
  ∀ d < 8, ∀ x < 8, ∀ y < 8, ∃ i < Pkt.gw p, ∃ j < Pkt.gh p,
    s.clusterUsable d ((x + i) % 8 + 8 * ((y + j) % 8)) = false

/-- A ready movement packet waits for the running core, whose slot 15 holds a thread (R141, R144). -/
def MoveWaits (s : State) : Prop :=
  (s.slotAt s.cur.pos 15).busy = true ∧ ∃ q ∈ s.part.queue, s.moveFor q.2 s.cur.pos = true

/-- TYLD has something to yield to (R144): a guest or a ready packet waits for the running core and none of the slots
0 to 14 is empty; or the thread is in slot 15, which a movement packet waits for. -/
def WorkWaits (s : State) : Prop :=
  (((s.core s.cur.pos).guests ≠ [] ∨ (∃ q ∈ s.part.queue, s.packetFor q.2 s.cur.pos = true) ∨ MoveWaits s) ∧
    ∀ j : Fin 16, j ≠ 15 → (s.slotAt s.cur.pos j).busy = true) ∨
  (s.cur.slot = 15 ∧ MoveWaits s)

/-- The thread's BANKM is 0, in the registers from before its bundle too (R194). -/
def cleared (s : State) : State :=
  s.updMe fun x =>
    { x with regs := { x.regs with bankm := 0 }, undo := x.undo.map fun u => ({ u.1 with bankm := 0 }, u.2) }

/-- What a helper leaves in its slot (R152, R257, R326): the registers, and a mailbox request that nobody took yet. -/
def left (x : Slot) : Slot := { regs := x.regs, request := x.request, passed := x.passed, asked := x.asked }

/-- A stage operation has completed (R149): the thread waits no more and tag j holds a value; the other bytes of
the scratchpad, the other slots and memory stay. -/
def Staged (s t : State) (pa j tag : Nat) : Prop :=
  t.me.pendC = none ∧ ofBytes (t.spadRead s.cur.pos (pa + 8 + 3 * j) 3) = tag ∧
    (∀ a, ¬(pa + 8 + 3 * j ≤ a ∧ a < pa + 11 + 3 * j) →
      Memory.read (t.core s.cur.pos).spad a = Memory.read (s.core s.cur.pos).spad a) ∧
    (∀ i : Fin 16, i ≠ s.cur.slot → t.slotAt s.cur.pos i = s.slotAt s.cur.pos i) ∧ t.mem = s.mem

/-- An element access at index idx passes the tests of R180 through a record that is present and stands still,
no affinity moves the thread (R178), its granule is resident (R174), with no saturating accumulator open on its
residency byte (R192), and its element is at a host address. -/
def Reaches (s : State) (ref : Word) (idx : Int) (n : Nat) (perm : Rec → Bool) (r : Rec) (a : Nat) : Prop :=
  s.cur.phase = 0 ∧ s.look (bits ref 63 40) = .got r ∧ State.elemTests r ref perm (some n) idx = none ∧
    s.affinity r = none ∧ r.moving = false ∧ s.resident r (r.granule (r.offset idx.toNat)) = true ∧
    s.hpaOf (State.elemAddr r idx.toNat) = some a ∧
    (∀ b, s.hpaOf (r.rmap + r.granule (r.offset idx.toNat)) = some b →
      ∀ x ∈ (s.home (State.homeOf b)).sat, State.overlap x.1 x.2.1 b 1 = false) ∧
    ∃ h, s.hpaOf (tableBase s.cur.src.ortb + 64 * bits ref 63 40) = some h

/-- A load has left for its home (R181): its request of n bytes at a is in the home's queue, and the half waits
for the reply; no register, buffer or memory has changed. -/
def LoadSent (s t : State) (i : Instr) (a n : Nat) (rd : Reg) (sx comb : Bool) : Prop :=
  (∃ q, (t.home (State.homeOf a)).queue.get (s.fresh + 1) = some q ∧ q.hpa = a ∧ q.n = n ∧ q.rd = rd ∧ q.sx = sx ∧
    q.acc = .load comb ∧ q.pos = s.cur.pos ∧ q.token = s.fresh ∧ q.moving = none ∧ q.line = none) ∧
  t.me.pendC = some ⟨i, 2, [], .token s.fresh⟩ ∧ t.me.regs = s.me.regs ∧
  (t.core s.cur.pos).buffer = (s.core s.cur.pos).buffer ∧ t.mem = s.mem

/-- A store, RED or atomic has entered the store buffer (R159, R181): one entry of n bytes at a, at its end; no
other buffered entry and no byte of memory has changed. -/
def Buffered (s t : State) (a n : Nat) (acc : Access) : Prop :=
  (∃ e q, (t.core s.cur.pos).buffer = (s.core s.cur.pos).buffer ++ [e] ∧ e.op = .obj q ∧ e.sent = false ∧
    q.hpa = a ∧ q.n = n ∧ q.acc = acc ∧ q.pos = s.cur.pos ∧ q.moving = none) ∧
  t.mem = s.mem ∧ t.homes = s.homes ∧ t.me.regs.g = s.me.regs.g ∧ t.me.regs.tsw = s.me.regs.tsw ∧
  ∀ p, (t.core p).spad = (s.core p).spad

/-- No half of a core waits on a full/empty word. -/
def NoFullEmptyWait (s : State) (p : Nat) : Prop :=
  ∀ (j : Fin 16) (q : Pend), (s.slotAt p j).pendC = some q → ∀ o d r v l, q.wait ≠ .fe o d r v l

/-- No half of a core waits on a full/empty word, no barrier arrival of it waits for its buffer, and its vector
unit has no work: what leaves its buffer lets nothing else go on. -/
def Calm (s : State) (p : Nat) : Prop :=
  NoFullEmptyWait s p ∧ (s.core p).leaf.waiting = [] ∧ (s.core p).vector = []

/-- A request at host address a is the one that event i has its home perform now (R185, R186): nothing before it in
the queue holds it, no saturating accumulator is open, and no switch merges it with another.  Its home finds it
with no line being read; or the line it waits for, alone, arrives. -/
def Served (s : State) (i : Instr) (h id : Nat) (q : Req) (a : Nat) : Prop :=
  h < 1536 ∧ (s.home h).queue.get id = some q ∧ q.line = none ∧ q.moving = none ∧ s.curHpa q = a ∧
    s.mayServe h id q = true ∧ (∀ k, (s.home k).sat = []) ∧ s.fuseWith h id q = [] ∧
    ((i = .homeSliceRequest h id ∧ (s.home h).mshr = []) ∨
      (i = .l2MissFill h (s.lineOf q) ∧ (s.home h).mshr = [s.lineOf q] ∧ s.linked h (s.lineOf q) = [id]))

/-- The free choice of the slice is that the request misses: its line is being read, and nothing else changes. -/
def Misses (s t : State) (i : Instr) (h id : Nat) (q : Req) : Prop :=
  i = .homeSliceRequest h id ∧ Config.bit s.tick = true ∧
    t = { s.updHome h fun x => { x with mshr := [s.lineOf q] } with tick := s.tick + 1 }

/-- n bytes of memory at a hold a number, lowest byte first, and every other byte is as before. -/
def MemoryHolds (s t : State) (a n v : Nat) : Prop :=
  ofBytes (Memory.readN t.mem a n) = v % 2 ^ (8 * n) ∧
    ∀ b, ¬(a ≤ b ∧ b < a + n) → Memory.read t.mem b = Memory.read s.mem b

end Sys2Proof.Claim

open Sys2Proof.Claim

/-! ### Registers and the integer family (R101-R120) -/

/-- R107: DIV, DIVU, REM and REMU are major 0x04 with func 0 to 3; quotients truncate toward zero and a remainder has the
dividend's sign; a zero divisor gives all ones and the dividend; the one overflow gives the dividend and 0. -/
def Obligations.Division : Prop :=
  ∀ (s : State) (rd ra rb : Reg),
    Encodes (.div rd ra rb) 0x04 rd.val ra.val rb.val 0 ∧ Encodes (.divu rd ra rb) 0x04 rd.val ra.val rb.val 1 ∧
    Encodes (.rem rd ra rb) 0x04 rd.val ra.val rb.val 2 ∧ Encodes (.remu rd ra rb) 0x04 rd.val ra.val rb.val 3 ∧
    ∃ q r qu ru : Word,
      exec (.div rd ra rb) s = .next (s.setG rd q) ∧ exec (.rem rd ra rb) s = .next (s.setG rd r) ∧
      exec (.divu rd ra rb) s = .next (s.setG rd qu) ∧ exec (.remu rd ra rb) s = .next (s.setG rd ru) ∧
      (s.g rb = 0 → q = BitVec.allOnes 64 ∧ r = s.g ra ∧ qu = BitVec.allOnes 64 ∧ ru = s.g ra) ∧
      (s.g rb ≠ 0 →
        (s.g ra).toNat = qu.toNat * (s.g rb).toNat + ru.toNat ∧ ru.toNat < (s.g rb).toNat ∧
        ((s.g ra).toInt = -2 ^ 63 ∧ (s.g rb).toInt = -1 → q = s.g ra ∧ r = 0) ∧
        (¬((s.g ra).toInt = -2 ^ 63 ∧ (s.g rb).toInt = -1) →
          (s.g ra).toInt = q.toInt * (s.g rb).toInt + r.toInt ∧ r.toInt.natAbs < (s.g rb).toInt.natAbs ∧
          (r.toInt ≠ 0 → (r.toInt < 0 ↔ (s.g ra).toInt < 0))))

/-- R108-R110: bit i of each bitwise result and of each shift; a shift count is all of gb.
R113-R115: comparisons give 1 or 0, minima and maxima the operand they select, SEL the one that gc
selects. -/
def Obligations.LogicShiftsAndSelection : Prop :=
  (∀ (s : State) (rd ra rb : Reg) (imm : BitVec 15) (k : BitVec 6),
     exec (.and rd ra rb) s = .next (s.setG rd (s.g ra &&& s.g rb)) ∧
     exec (.or rd ra rb) s = .next (s.setG rd (s.g ra ||| s.g rb)) ∧
     exec (.xor rd ra rb) s = .next (s.setG rd (s.g ra ^^^ s.g rb)) ∧
     exec (.andn rd ra rb) s = .next (s.setG rd (s.g ra &&& ~~~(s.g rb))) ∧
     exec (.andi rd ra imm) s = .next (s.setG rd (s.g ra &&& imm.signExtend 64)) ∧
     exec (.ori rd ra imm) s = .next (s.setG rd (s.g ra ||| imm.zeroExtend 64)) ∧
     exec (.xori rd ra imm) s = .next (s.setG rd (s.g ra ^^^ imm.zeroExtend 64)) ∧
     Gives (.shl rd ra rb) s rd (fun w => ∀ i < 64, w.getLsbD i =
       (decide ((s.g rb).toNat ≤ i) && (s.g ra).getLsbD (i - (s.g rb).toNat))) ∧
     Gives (.shli rd ra k) s rd (fun w => ∀ i < 64, w.getLsbD i =
       (decide (k.toNat ≤ i) && (s.g ra).getLsbD (i - k.toNat))) ∧
     Gives (.shr rd ra rb) s rd (fun w => ∀ i < 64, w.getLsbD i = (s.g ra).getLsbD (i + (s.g rb).toNat)) ∧
     Gives (.shri rd ra k) s rd (fun w => ∀ i < 64, w.getLsbD i = (s.g ra).getLsbD (i + k.toNat)) ∧
     Gives (.sar rd ra rb) s rd
       (fun w => ∀ i < 64, w.getLsbD i = (s.g ra).getLsbD (min (i + (s.g rb).toNat) 63)) ∧
     Gives (.sari rd ra k) s rd (fun w => ∀ i < 64, w.getLsbD i = (s.g ra).getLsbD (min (i + k.toNat) 63)) ∧
     Gives (.rol rd ra rb) s rd (fun w => ∀ i < 64, w.getLsbD ((i + (s.g rb).toNat) % 64) = (s.g ra).getLsbD i) ∧
     Encodes (.and rd ra rb) 0x05 rd.val ra.val rb.val 0 ∧ Encodes (.or rd ra rb) 0x05 rd.val ra.val rb.val 1 ∧
     Encodes (.xor rd ra rb) 0x05 rd.val ra.val rb.val 2 ∧ Encodes (.andn rd ra rb) 0x05 rd.val ra.val rb.val 3 ∧
     Encodes (.andi rd ra imm) 0x11 rd.val ra.val 0 imm.toNat ∧ Encodes (.ori rd ra imm) 0x12 rd.val ra.val 0 imm.toNat ∧
     Encodes (.xori rd ra imm) 0x13 rd.val ra.val 0 imm.toNat ∧
     Encodes (.shl rd ra rb) 0x06 rd.val ra.val rb.val 0 ∧ Encodes (.shr rd ra rb) 0x06 rd.val ra.val rb.val 1 ∧
     Encodes (.sar rd ra rb) 0x06 rd.val ra.val rb.val 2 ∧ Encodes (.rol rd ra rb) 0x06 rd.val ra.val rb.val 3) ∧
  (∀ (s : State) (rd ra rb rc : Reg) (imm : BitVec 13),
     exec (.seq rd ra rb) s = .next (s.setG rd (truth (s.g ra = s.g rb))) ∧
     exec (.sne rd ra rb) s = .next (s.setG rd (truth (s.g ra ≠ s.g rb))) ∧
     exec (.slt rd ra rb) s = .next (s.setG rd (truth ((s.g ra).toInt < (s.g rb).toInt))) ∧
     exec (.sltu rd ra rb) s = .next (s.setG rd (truth ((s.g ra).toNat < (s.g rb).toNat))) ∧
     exec (.seqi rd ra imm) s = .next (s.setG rd (truth ((s.g ra).toInt = imm.toInt))) ∧
     exec (.slti rd ra imm) s = .next (s.setG rd (truth ((s.g ra).toInt < imm.toInt))) ∧
     exec (.sltiu rd ra imm) s = .next (s.setG rd (truth ((s.g ra).toNat < (imm.signExtend 64).toNat))) ∧
     Gives (.min rd ra rb) s rd (fun w => w.toInt = min (s.g ra).toInt (s.g rb).toInt) ∧
     Gives (.max rd ra rb) s rd (fun w => w.toInt = max (s.g ra).toInt (s.g rb).toInt) ∧
     Gives (.minu rd ra rb) s rd (fun w => w.toNat = min (s.g ra).toNat (s.g rb).toNat) ∧
     Gives (.maxu rd ra rb) s rd (fun w => w.toNat = max (s.g ra).toNat (s.g rb).toNat) ∧
     (s.g rc ≠ 0 → exec (.sel rd ra rb rc) s = .next (s.setG rd (s.g ra))) ∧
     (s.g rc = 0 → exec (.sel rd ra rb rc) s = .next (s.setG rd (s.g rb))) ∧
     Encodes (.min rd ra rb) 0x08 rd.val ra.val rb.val 0 ∧ Encodes (.max rd ra rb) 0x08 rd.val ra.val rb.val 1 ∧
     Encodes (.minu rd ra rb) 0x08 rd.val ra.val rb.val 2 ∧ Encodes (.maxu rd ra rb) 0x08 rd.val ra.val rb.val 3 ∧
     Encodes (.sel rd ra rb rc) 0x09 rd.val ra.val rb.val (rc.val * 2 ^ 7))

/-- R111: bit i of the fields that EXT and EXTS extract and that INS inserts.
R112: CLZ and CTZ count the zeros above the highest and below the lowest one, 64 in all for 0; POPC counts
the ones; BSWAP reverses the bytes.
R117: CRCW folds the low n bytes of gb, lowest first, into the running value in ga[31:0], by eight steps of
the reflected polynomial each. -/
def Obligations.FieldsCountsAndCrc : Prop :=
  (∀ (s : State) (rd ra : Reg) (pos wm1 : BitVec 6), pos.toNat + wm1.toNat < 64 →
     Gives (.ext rd ra pos wm1) s rd (fun w => ∀ i < 64, w.getLsbD i =
       (decide (i ≤ wm1.toNat) && (s.g ra).getLsbD (pos.toNat + i))) ∧
     Gives (.exts rd ra pos wm1) s rd (fun w => ∀ i < 64, w.getLsbD i =
       (s.g ra).getLsbD (pos.toNat + min i wm1.toNat)) ∧
     Gives (.ins rd ra pos wm1) s rd (fun w => ∀ i < 64, w.getLsbD i =
       if pos.toNat ≤ i ∧ i ≤ pos.toNat + wm1.toNat then (s.g ra).getLsbD (i - pos.toNat) else (s.g rd).getLsbD i)) ∧
  (∀ (s : State) (rd ra : Reg),
     Gives (.clz rd ra) s rd (fun w => w.toNat ≤ 64 ∧ (∀ i < w.toNat, (s.g ra).getLsbD (63 - i) = false) ∧
       (w.toNat < 64 → (s.g ra).getLsbD (63 - w.toNat) = true)) ∧
     Gives (.ctz rd ra) s rd (fun w => w.toNat ≤ 64 ∧ (∀ i < w.toNat, (s.g ra).getLsbD i = false) ∧
       (w.toNat < 64 → (s.g ra).getLsbD w.toNat = true)) ∧
     Gives (.popc rd ra) s rd (fun w => w.toNat = ((List.range 64).filter fun i => (s.g ra).getLsbD i).length) ∧
     Gives (.bswap rd ra) s rd (fun w => ∀ i < 64, w.getLsbD i = (s.g ra).getLsbD (56 - i / 8 * 8 + i % 8)) ∧
     Encodes (.clz rd ra) 0x0A rd.val ra.val 0 0 ∧ Encodes (.ctz rd ra) 0x0A rd.val ra.val 0 1 ∧
     Encodes (.popc rd ra) 0x0A rd.val ra.val 0 2 ∧ Encodes (.bswap rd ra) 0x0A rd.val ra.val 0 3) ∧
  (∀ (s : State) (rd ra rb : Reg) (z : Size) (n : Nat),
     (z, n) ∈ [(Size.b, 1), (.h, 2), (.w, 4), (.d, 8)] →
       exec (.crcw rd ra rb z) s = .next (s.setG rd ((crcBytes n ((s.g ra).setWidth 32) (s.g rb)).setWidth 64)) ∧
       ∃ c < 4, n = 2 ^ c ∧ Encodes (.crcw rd ra rb z) 0x0E rd.val ra.val rb.val c)

/-- R56 and R61: NOP of either class has no effect: the next state is the state.
R119 and R120: the moves of an immediate.
R105, R106, R116, R118: sums, differences and products, each with its wrapping or saturation. -/
def Obligations.MovesSumsAndProducts : Prop :=
  (∀ s : State, exec .nopA s = .next s ∧ exec .nopC s = .next s) ∧
  (∀ (s : State) (rd : Reg) (imm : BitVec 19) (x : BitVec 32),
     exec (.movi rd imm) s = .next (s.setG rd (imm.signExtend 64)) ∧
     exec (.movx rd x) s = .next (s.setG rd (x.signExtend 64)) ∧
     Gives (.movhx rd x) s rd (fun w => ∀ i < 64, w.getLsbD i =
       if i < 32 then (s.g rd).getLsbD i else x.getLsbD (i - 32))) ∧
  (∀ (s : State) (rd ra rb rc : Reg) (imm : BitVec 15),
     exec (.add rd ra rb .w) s = .next (s.setG rd (s.g ra + s.g rb)) ∧
     Gives (.add rd ra rb .ss) s rd (fun w =>
       w.toInt = max (-2 ^ 63) (min (2 ^ 63 - 1) ((s.g ra).toInt + (s.g rb).toInt))) ∧
     Gives (.add rd ra rb .su) s rd (fun w =>
       w.toNat = min ((s.g ra).toNat + (s.g rb).toNat) (2 ^ 64 - 1)) ∧
     exec (.sub rd ra rb .w) s = .next (s.setG rd (s.g ra - s.g rb)) ∧
     Gives (.sub rd ra rb .ss) s rd (fun w =>
       w.toInt = max (-2 ^ 63) (min (2 ^ 63 - 1) ((s.g ra).toInt - (s.g rb).toInt))) ∧
     Gives (.sub rd ra rb .su) s rd (fun w =>
       (w.toNat : Int) = max 0 ((s.g ra).toNat - (s.g rb).toNat : Int)) ∧
     exec (.mul rd ra rb) s = .next (s.setG rd (s.g ra * s.g rb)) ∧
     Gives (.mulh rd ra rb) s rd (fun w =>
       w.toInt * 2 ^ 64 ≤ (s.g ra).toInt * (s.g rb).toInt ∧
       (s.g ra).toInt * (s.g rb).toInt < (w.toInt + 1) * 2 ^ 64) ∧
     Gives (.mulhu rd ra rb) s rd (fun w =>
       w.toNat * 2 ^ 64 ≤ (s.g ra).toNat * (s.g rb).toNat ∧
       (s.g ra).toNat * (s.g rb).toNat < (w.toNat + 1) * 2 ^ 64) ∧
     exec (.mad rd ra rb rc) s = .next (s.setG rd (s.g ra * s.g rb + s.g rc)) ∧
     exec (.addi rd ra imm) s = .next (s.setG rd (s.g ra + imm.signExtend 64)) ∧
     exec (.muli rd ra imm) s = .next (s.setG rd (s.g ra * imm.signExtend 64)) ∧
     (∀ (sh : ShAmt) (n : Nat), (sh, n) ∈ [(ShAmt.s0, 0), (.s1, 1), (.s2, 2), (.s3, 3), (.s4, 4)] →
       exec (.adds rd ra rb sh) s = .next (s.setG rd (s.g ra + s.g rb * BitVec.ofNat 64 (2 ^ n)))))

/-! ### Scalar floating point (R79-R100) -/

/-- R94: the six arithmetic instructions round the exact result once, in FP64 or FP32, under the instruction's
own mode or that of RMODE, with no saturation.
R82: a NaN operand of any of the six gives the canonical quiet NaN of the format, and so do the invalid
cases of R94: the difference of like infinities, 0 times an infinity, in FFMA too and there also an infinite product and
an infinity of the other sign, 0 ÷ 0, the quotient of infinities and the root of a negative number. -/
def Obligations.FloatArithmetic : Prop :=
  (∀ (s : State) (rd ra rb rc : Reg) (r : Rnd) (f : FpSel) (F : FFmt) (m : Mode) (a b c : FVal),
     (f, F) ∈ [(FpSel.d, f64), (.s, f32)] →
     (r, m) ∈ [(Rnd.dyn, Mode.ofCode (bits s.cur.src.rmode 1 0)), (.rne, .rne), (.rtz, .rtz), (.rup, .rup),
       (.rdn, .rdn)] →
     a = F.value (s.g ra).toNat → b = F.value (s.g rb).toNat → c = F.value (s.g rc).toNat →
       exec (.fadd rd ra rb r f) s = .next (s.setG rd (BitVec.ofNat 64 (F.round m false (a.add m b)))) ∧
       exec (.fsub rd ra rb r f) s = .next (s.setG rd (BitVec.ofNat 64 (F.round m false (a.add m b.neg)))) ∧
       exec (.fmul rd ra rb r f) s = .next (s.setG rd (BitVec.ofNat 64 (F.round m false (a.mul b)))) ∧
       exec (.ffma rd ra rb rc r f) s = .next (s.setG rd (BitVec.ofNat 64 (F.round m false ((a.mul b).add m c)))) ∧
       exec (.fdiv rd ra rb r f) s = .next (s.setG rd (BitVec.ofNat 64 (F.round m false (a.div b)))) ∧
       exec (.fsqrt rd ra r f) s = .next (s.setG rd (BitVec.ofNat 64 (F.round m false a.sqrt)))) ∧
  (∀ (s : State) (rd ra rb rc : Reg) (r : Rnd) (f : FpSel) (F : FFmt) (q : Word) (a b c : FVal),
     (f, F, q) ∈ [(FpSel.d, f64, (0x7FF8000000000000 : Word)), (.s, f32, 0x7FC00000)] →
     a = F.value (s.g ra).toNat → b = F.value (s.g rb).toNat → c = F.value (s.g rc).toNat →
       (a = .nan ∨ b = .nan →
         exec (.fadd rd ra rb r f) s = .next (s.setG rd q) ∧ exec (.fsub rd ra rb r f) s = .next (s.setG rd q) ∧
         exec (.fmul rd ra rb r f) s = .next (s.setG rd q) ∧ exec (.fdiv rd ra rb r f) s = .next (s.setG rd q) ∧
         exec (.ffma rd ra rb rc r f) s = .next (s.setG rd q) ∧
         exec (.fmin rd ra rb f) s = .next (s.setG rd q) ∧ exec (.fmax rd ra rb f) s = .next (s.setG rd q)) ∧
       (a = .nan ∨ a = .inf true ∨ (∃ m e, a = .fin true m e ∧ m ≠ 0) →
         exec (.fsqrt rd ra r f) s = .next (s.setG rd q)) ∧
       ((∃ t, a = .inf t ∧ b = .inf (!t)) → exec (.fadd rd ra rb r f) s = .next (s.setG rd q)) ∧
       ((∃ t, a = .inf t ∧ b = .inf t) → exec (.fsub rd ra rb r f) s = .next (s.setG rd q)) ∧
       ((∃ t u e, a = .inf t ∧ b = .fin u 0 e) ∨ (∃ t u e, a = .fin u 0 e ∧ b = .inf t) →
         exec (.fmul rd ra rb r f) s = .next (s.setG rd q) ∧
         exec (.ffma rd ra rb rc r f) s = .next (s.setG rd q)) ∧
       (c = .nan ∨ (∃ t, a.mul b = .inf t ∧ c = .inf (!t)) →
         exec (.ffma rd ra rb rc r f) s = .next (s.setG rd q)) ∧
       ((∃ t u, a = .inf t ∧ b = .inf u) ∨ (∃ t u d e, a = .fin t 0 d ∧ b = .fin u 0 e) →
         exec (.fdiv rd ra rb r f) s = .next (s.setG rd q)))

/-- R79 and R81: Round of any exact value to FP64 or FP32 is an encoding of that width, so a register has zeros
above it; and every encoding that is not a NaN is its own value's Round, under every mode. -/
def Obligations.RoundingGivesEncodings : Prop :=
  ∀ (m : Mode) (F : FFmt) (n : Nat), (F, n) ∈ [(f64, 64), (f32, 32)] →
    (∀ v : FVal, F.round m false v < 2 ^ n) ∧
    (∀ b < 2 ^ n, F.value b ≠ .nan → F.round m false (F.value b) = b)

/-- R95: comparisons, with any NaN unordered; the total order is that of R85; the class mask has one bit, in
[9:0]; FMIN and FMAX give one of their operands, −0 below +0.
R96-R98: conversions.  FCVT rounds the value of its source format into its destination, narrow destinations
saturating unless .NS; in one format it returns its operand, but for a NaN; it traps FORMAT for any other pair; FCVTI
and ICVTF accept the integer formats 0 to 4 and trap FORMAT for the others; FCVTI gives 0 for a NaN, the ends of
the range for infinities, and of a finite value the rounded integer, clamped to the nearer end. -/
def Obligations.FloatComparisonsAndConversions : Prop :=
  (∀ (s : State) (rd ra rb : Reg) (f : FpSel) (F : FFmt) (n : Nat) (a b : FVal) (x y : Nat),
     (f, F, n) ∈ [(FpSel.d, f64, 64), (.s, f32, 32)] →
     x = (s.g ra).toNat % 2 ^ n → y = (s.g rb).toNat % 2 ^ n → a = F.value x → b = F.value y →
       exec (.feq rd ra rb f) s = .next (s.setG rd (truth (a ≠ .nan ∧ b ≠ .nan ∧ a.cmp b = .eq))) ∧
       exec (.flt rd ra rb f) s = .next (s.setG rd (truth (a ≠ .nan ∧ b ≠ .nan ∧ a.cmp b = .lt))) ∧
       exec (.fle rd ra rb f) s = .next (s.setG rd (truth (a ≠ .nan ∧ b ≠ .nan ∧ a.cmp b ≠ .gt))) ∧
       exec (.funo rd ra rb f) s = .next (s.setG rd (truth (a = .nan ∨ b = .nan))) ∧
       exec (.ftle rd ra rb f) s = .next (s.setG rd (truth (totalKey n x ≤ totalKey n y))) ∧
       Gives (.fcls rd ra f) s rd (fun w => ∃ k < 10, w.toNat = 2 ^ k ∧
         (k = 0 ↔ a = .inf true) ∧ (k = 7 ↔ a = .inf false) ∧ (k = 8 ∨ k = 9 ↔ a = .nan) ∧
         (k = 3 ↔ ∃ e, a = .fin true 0 e) ∧ (k = 4 ↔ ∃ e, a = .fin false 0 e) ∧
         (k = 2 ∨ k = 5 ↔ ∃ t m e, a = .fin t m e ∧ 0 < m ∧ m < 2 ^ F.p) ∧
         (k ∈ [0, 1, 2, 3] → x / 2 ^ (n - 1) = 1) ∧ (k ∈ [4, 5, 6, 7] → x / 2 ^ (n - 1) = 0) ∧
         (k = 9 → x / 2 ^ (F.p - 1) % 2 = 1) ∧ (k = 8 → x / 2 ^ (F.p - 1) % 2 = 0)) ∧
       (a ≠ .nan → b ≠ .nan →
         Gives (.fmin rd ra rb f) s rd (fun w => w.toNat ∈ [x, y] ∧
           totalKey n w.toNat = min (totalKey n x) (totalKey n y)) ∧
         Gives (.fmax rd ra rb f) s rd (fun w => w.toNat ∈ [x, y] ∧
           totalKey n w.toNat = max (totalKey n x) (totalKey n y)))) ∧
  (∀ (s : State) (rd ra : Reg) (dst src int : BitVec 4) (ns : Bool) (r : Rnd) (f : FpSel) (F : FFmt),
     (f, F) ∈ [(FpSel.d, f64), (.s, f32)] →
       (8 ≤ dst.toNat → dst.toNat ≤ 14 → 8 ≤ src.toNat → (ns = true → dst.toNat = 13) →
         dst ≠ src ∨ elemValue src.toNat ((s.g ra).toNat % 2 ^ fmtBits src.toNat) = .nan →
         exec (.fcvt rd ra dst src ns r) s =
           .next (s.setG rd (BitVec.ofNat 64 (roundTo dst.toNat (s.mode r) (decide (12 ≤ dst.toNat) && !ns)
             (elemValue src.toNat ((s.g ra).toNat % 2 ^ fmtBits src.toNat)))))) ∧
       (8 ≤ dst.toNat → dst.toNat ≤ 14 → (ns = true → dst.toNat = 13) →
         elemValue dst.toNat ((s.g ra).toNat % 2 ^ fmtBits dst.toNat) ≠ .nan →
         exec (.fcvt rd ra dst dst ns r) s =
           .next (s.setG rd (BitVec.ofNat 64 ((s.g ra).toNat % 2 ^ fmtBits dst.toNat)))) ∧
       (¬(8 ≤ dst.toNat ∧ dst.toNat ≤ 14 ∧ 8 ≤ src.toNat ∧ (ns = true → dst.toNat = 13)) →
         exec (.fcvt rd ra dst src ns r) s = .next (s.trap .format 0)) ∧
       (int.toNat ≤ 4 →
         Gives (.fcvti rd ra int r f) s rd (fun w =>
           (intRange int.toNat).1 ≤ w.toInt ∧ w.toInt ≤ (intRange int.toNat).2 ∧
           (F.value (s.g ra).toNat = .nan → w = 0) ∧
           (F.value (s.g ra).toNat = .inf false → w.toInt = (intRange int.toNat).2) ∧
           (F.value (s.g ra).toNat = .inf true → w.toInt = (intRange int.toNat).1) ∧
           (∀ neg m e, F.value (s.g ra).toNat = .fin neg m e →
             w.toInt = max (intRange int.toNat).1 (min (intRange int.toNat).2 (roundInt (s.mode r) neg m e)))) ∧
         exec (.icvtf rd ra int r f) s =
           .next (s.setG rd (BitVec.ofNat 64 (F.round (s.mode r) false
             (FVal.ofInt (readInt int.toNat (s.g ra).toNat)))))) ∧
       (4 < int.toNat →
         exec (.fcvti rd ra int r f) s = .next (s.trap .format 0) ∧
         exec (.icvtf rd ra int r f) s = .next (s.trap .format 0)))

/-! ### Control (R129-R134) -/

/-- R101: a write of a general register changes that register of the running thread and nothing else, and a
write of g0 changes nothing.
R101: as a source g0 reads 0, and any other register reads what the thread had latched at issue.
R129: a write of the PC changes the PC of the running thread and nothing else. -/
def Obligations.GeneralRegisters : Prop :=
  (∀ (s : State) (rd : Reg) (w : Word),
     (rd ≠ 0 → (s.setG rd w).me.regs.g.get rd = w) ∧
     (∀ r : Reg, r ≠ rd → (s.setG rd w).me.regs.g.get r = s.me.regs.g.get r) ∧
     (s.setG 0 w).me = s.me ∧
     (s.setG rd w).me = { s.me with regs := { s.me.regs with g := (s.setG rd w).me.regs.g } } ∧
     (∀ (p : Nat) (j : Fin 16), ¬(p = s.cur.pos ∧ j = s.cur.slot) → (s.setG rd w).slotAt p j = s.slotAt p j) ∧
     (∀ p : Nat, p ≠ s.cur.pos → (s.setG rd w).core p = s.core p) ∧
     (s.setG rd w).core s.cur.pos = { s.core s.cur.pos with slots := ((s.setG rd w).core s.cur.pos).slots } ∧
     s.setG rd w = { s with cores := (s.setG rd w).cores }) ∧
  (∀ (s : State) (r : Reg), s.g 0 = 0 ∧ (r ≠ 0 → s.g r = s.cur.src.g.get r)) ∧
  (∀ (s : State) (pc : BitVec 38),
     (s.setPc pc).me = { s.me with regs := { s.me.regs with pc := pc } } ∧
     (∀ (p : Nat) (j : Fin 16), ¬(p = s.cur.pos ∧ j = s.cur.slot) → (s.setPc pc).slotAt p j = s.slotAt p j) ∧
     (s.setPc pc).core s.cur.pos = { s.core s.cur.pos with slots := ((s.setPc pc).core s.cur.pos).slots } ∧
     (∀ p : Nat, p ≠ s.cur.pos → (s.setPc pc).core p = s.core p) ∧
     s.setPc pc = { s with cores := (s.setPc pc).cores })

/-- R130: a branch goes to its own address plus 8 times its offset, modulo 2^38, where its condition holds, and
otherwise leaves the PC, which stands at the next bundle (R129).
R131 and R132: LOOP decrements and branches while the result is not zero; CALL and CALLR link in g15; JR and
CALLR go to ga + 8 × off where that is a multiple of 8 from 0 to 2^38 − 8, and otherwise trap ALIGN with it.
R134: AWAIT of a marked register clears the mark and goes on; of g0 it has no effect; of an unmarked
register the thread leaves the rotation until the payload comes. -/
def Obligations.ControlFlow : Prop :=
  (∀ (s : State) (ra rb : Reg) (off : BitVec 12) (far : BitVec 15) (taken long : State),
     taken = s.setPc (s.cur.ipc + 8 * off.signExtend 38) → long = s.setPc (s.cur.ipc + 8 * far.signExtend 38) →
       exec (.br far) s = .next long ∧
       exec (.beq ra rb off) s = .next (if s.g ra = s.g rb then taken else s) ∧
       exec (.bne ra rb off) s = .next (if s.g ra = s.g rb then s else taken) ∧
       exec (.blt ra rb off) s = .next (if (s.g ra).toInt < (s.g rb).toInt then taken else s) ∧
       exec (.bge ra rb off) s = .next (if (s.g rb).toInt ≤ (s.g ra).toInt then taken else s) ∧
       exec (.bltu ra rb off) s = .next (if (s.g ra).toNat < (s.g rb).toNat then taken else s) ∧
       exec (.bgeu ra rb off) s = .next (if (s.g rb).toNat ≤ (s.g ra).toNat then taken else s) ∧
       exec (.bz ra far) s = .next (if s.g ra = 0 then long else s) ∧
       exec (.bnz ra far) s = .next (if s.g ra = 0 then s else long)) ∧
  (∀ (s : State) (ra : Reg) (off : BitVec 15) (t : Int) (link : Word),
     t = (s.g ra).toNat + 8 * off.toInt → link = BitVec.ofNat 64 ((s.cur.ipc.toNat + 8) % 2 ^ 38) →
       exec (.loop ra off) s = .next
         (if s.g ra = 1 then s.setG ra 0
          else (s.setG ra (s.g ra - 1)).setPc (s.cur.ipc + 8 * off.signExtend 38)) ∧
       exec (.call off) s = .next ((s.setG 15 link).setPc (s.cur.ipc + 8 * off.signExtend 38)) ∧
       (0 ≤ t → t ≤ 2 ^ 38 - 8 → t % 8 = 0 →
         exec (.jr ra off) s = .next (s.setPc (BitVec.ofNat 38 t.toNat)) ∧
         exec (.callr ra off) s = .next ((s.setG 15 link).setPc (BitVec.ofNat 38 t.toNat))) ∧
       (¬(0 ≤ t ∧ t ≤ 2 ^ 38 - 8 ∧ t % 8 = 0) →
         exec (.jr ra off) s = .next (s.trap .align (BitVec.ofInt 64 t)) ∧
         exec (.callr ra off) s = .next (s.trap .align (BitVec.ofInt 64 t)))) ∧
  (∀ (s : State) (rd : Reg),
     exec (.await 0) s = .next s ∧
     (rd ≠ 0 → s.me.regs.tsw.getLsbD (10 + rd.val) = true →
       ∃ t, exec (.await rd) s = .next t ∧
         (∀ i, t.me.regs.tsw.getLsbD i = (s.me.regs.tsw.getLsbD i && decide (i ≠ 10 + rd.val))) ∧
         t.me = { s.me with regs := { s.me.regs with tsw := t.me.regs.tsw } }) ∧
     (rd ≠ 0 → s.me.regs.tsw.getLsbD (10 + rd.val) = false →
       ∃ t, exec (.await rd) s = .next t ∧ t.cur.out = .parked ∧ t.me.regs = s.me.regs ∧
         (s.cur.isA = false → t.me.pendC = some ⟨.await rd, 1, [], .await rd⟩)))

/-! ### Traps and the system registers (R324-R335) -/

/-- R332: taking a trap of a task's thread: TEPC is the bundle's address, TCAUSE the cause's code, TVAL the value; PS
takes S, S is 1, the other bits of TSW stay; the PC is TVEC's handler; no general register that the bundle found
changes, and none of what a half of it has written stays (R36), but where the limit fails in a C half after its
migration (R157); no byte of memory changes, and no other slot but that an ASTAT of the core, which waits for a job that
the trap takes back, waits for that job no longer (R251).
R151: a trap in a helper only ends the helper: its slot is empty, its registers keep their contents, and so does a
request that another thread has left there (R257).
R133 and R334: BRK traps BREAK and TRAP traps SYSCALL, each with its code in TVAL and its cause's code in
TCAUSE, and S set.
R335: TRET in supervisor mode: S takes PS, PS is 0, the PC is TEPC's; with an event waiting and S 0 again the
oldest event is entered at once, TEPC unchanged, its cause marked asynchronous. -/
def Obligations.TrapEntryAndReturn : Prop :=
  (∀ (s : State) (c : Cause) (v : Word) (u : Regs),
     (¬(c = .localRange ∧ s.cur.isA = false) → u = match s.me.undo with
       | some x => x.1
       | none => s.me.regs) →
     (c = .localRange → s.cur.isA = false → u = s.me.regs) →
     (∀ k, s.me.life ≠ .helper k) →
     (∀ k, s.fetchAt (u.tvec.setWidth 38) ≠ .fault k) →
       (s.trap c v).me.regs =
         { u with
           tepc := s.cur.ipc.setWidth 64, tcause := BitVec.ofNat 64 c.code, tval := v
           pc := u.tvec.setWidth 38, tsw := (s.trap c v).me.regs.tsw } ∧
       (∀ i, (s.trap c v).me.regs.tsw.getLsbD i =
         if i = 4 then true else if i = 5 then u.tsw.getLsbD 4 else u.tsw.getLsbD i) ∧
       (s.trap c v).me.pendC = none ∧ (s.trap c v).me.pendA = none ∧ (s.trap c v).cur.out = .trap ∧
       (∀ (p : Nat) (j : Fin 16), p ≠ s.cur.pos → (s.trap c v).slotAt p j = s.slotAt p j) ∧
       (∀ j : Fin 16, j ≠ s.cur.slot →
         (s.trap c v).slotAt s.cur.pos j =
           { s.slotAt s.cur.pos j with pendA := ((s.trap c v).slotAt s.cur.pos j).pendA } ∧
         (((s.trap c v).slotAt s.cur.pos j).pendA = (s.slotAt s.cur.pos j).pendA ∨
           ∃ rd ra l m w, (s.slotAt s.cur.pos j).pendA = some ⟨.astat rd ra, 1, l, w⟩ ∧ m.Sublist l ∧
             ((s.trap c v).slotAt s.cur.pos j).pendA = some ⟨.astat rd ra, 1, m, w⟩)) ∧
       (s.trap c v).mem = s.mem ∧ ∀ p, ((s.trap c v).core p).spad = (s.core p).spad) ∧
  (∀ (s : State) (c : Cause) (v : Word) (k : Fin 16), s.me.life = .helper k →
     (s.trap c v).me =
       { regs := s.me.regs, request := s.me.request, passed := s.me.passed, asked := s.me.asked } ∧
     (∀ (p : Nat) (j : Fin 16), ¬(p = s.cur.pos ∧ j = s.cur.slot) → (s.trap c v).slotAt p j = s.slotAt p j) ∧
     (s.trap c v).mem = s.mem) ∧
  (∀ (s : State) (code : BitVec 19) (u : Regs),
     (u = match s.me.undo with
       | some x => x.1
       | none => s.me.regs) →
     (∀ k, s.me.life ≠ .helper k) →
     (∀ k, s.fetchAt (u.tvec.setWidth 38) ≠ .fault k) →
       (∃ t, exec (.brk code) s = .next t ∧ t = s.trap .brk (code.zeroExtend 64) ∧ t.me.regs.tcause = 0x18 ∧
         t.me.regs.tval = code.zeroExtend 64 ∧ t.me.regs.tepc = s.cur.ipc.zeroExtend 64 ∧
         t.me.regs.tsw.getLsbD 4 = true ∧ t.me.regs.pc = u.tvec.setWidth 38) ∧
       (∃ t, exec (.trap code) s = .next t ∧ t = s.trap .syscall (code.zeroExtend 64) ∧ t.me.regs.tcause = 0x17 ∧
         t.me.regs.tval = code.zeroExtend 64 ∧ t.me.regs.tepc = s.cur.ipc.zeroExtend 64 ∧
         t.me.regs.tsw.getLsbD 4 = true ∧ t.me.regs.pc = u.tvec.setWidth 38)) ∧
  (∀ (s : State), s.sup = true →
     (∃ t, (s.me.events = [] ∨ s.me.regs.tsw.getLsbD 5 = true → exec .tret s = .next t) ∧
       t.me = { s.me with regs := { s.me.regs with pc := s.me.regs.tepc.setWidth 38, tsw := t.me.regs.tsw } } ∧
       (∀ i, t.me.regs.tsw.getLsbD i =
         if i = 4 then s.me.regs.tsw.getLsbD 5 else if i = 5 then false else s.me.regs.tsw.getLsbD i)) ∧
     (∀ (e : AsyncEv) (rest : List AsyncEv), s.me.events = e :: rest → s.me.regs.tsw.getLsbD 5 = false →
       (∀ k, s.me.life ≠ .helper k) → (∀ k, s.fetchAt (s.me.regs.tvec.setWidth 38) ≠ .fault k) →
       s.me.regs.tepc.toNat < 2 ^ 38 →
       ∃ t, exec .tret s = .next t ∧ t.me.regs.tepc = s.me.regs.tepc ∧ t.me.events = rest ∧
         t.me.regs.tcause.toNat % 2 ^ 6 = e.cause.code ∧ t.me.regs.tcause.getLsbD 7 = true ∧
         t.me.regs.tval = e.tval ∧ t.me.regs.pc = s.me.regs.tvec.setWidth 38 ∧
         t.me.regs.tsw.getLsbD 4 = true ∧ t.me.regs.tsw.getLsbD 5 = false))

/-- The values that a system register accepts, by the rule that maps it: R127, R327, R154, R208, R80, R167, R307,
R285. -/
def Sys2Proof.Claim.Legal (w : Word) : SysReg → Prop
  | .tsw => w.toNat < 2 ^ 26 ∧ w.getLsbD 10 = false
  | .tepc | .tvec => w.toNat < 2 ^ 38 ∧ w.toNat % 8 = 0
  | .tcause => w.toNat < 2 ^ 9 ∧ w.getLsbD 6 = false
  | .tval | .tscr => True
  | .lseg => ∃ base limit : Nat, w.toNat = base + limit * 2 ^ 16 ∧ base < 1024 ∧ 0 < limit ∧ base + limit ≤ 1024
  | .vl => w ≠ 0 ∧ w.toNat ≤ 4096
  | .rmode => w.toNat < 4
  | .ortb => ∃ base log : Nat, w.toNat = base * 2 ^ 12 + log * 2 ^ 54 ∧ base < 2 ^ 36 ∧ 0 < log ∧ log ≤ 24
  | .swq => w ≠ 0 ∧ w.toNat ≤ 2 ^ 24
  | .codeo | .frec => w.toNat < 2 ^ 24
  | .tedi => w = 0 ∨ (16 ≤ w.toNat ∧ w.toNat ≤ 30)
  | .tedg => w.toNat < 2 ^ 32
  | .tedm | .tedc => w.toNat < 16
  | .wdog => w = 0 ∨ (20 ≤ w.toNat ∧ w.toNat ≤ 40)
  | .bankm | .time | .xdone _ => False

/-- The instructions that R326 and the rules of each reserve to supervisor mode, with their operands. -/
def Sys2Proof.Claim.privileged (ra rb : Reg) : List Instr :=
  [.tret, .orw ra rb, .orinv ra, .ormov ra rb, .plcSwap ra rb, .plcMigx ra rb, .plcFold ra rb, .plcSeal ra, .qsc ra,
    .kick ra]

/-- R326 and R328, with R80, R127, R154, R167, R208, R285, R307 and R327: SWR of a value that the register
accepts changes that register and nothing else; of TSW only AWM, PS and S; a register without an SWR form and
a value with a bad field trap ILLEGAL, and in user mode every register but VL, RMODE and SWQ traps PRIV.
R324: in user mode a privileged instruction traps PRIV with TVAL 0 and has none of its effect, whatever its
operands and whatever state it finds. -/
def Obligations.SystemRegisterWrites : Prop :=
  (∀ (s : State) (rs : Reg) (w : Word), w = s.g rs →
     (∀ sr, (sr = .bankm ∨ sr = .time ∨ (∃ n, sr = .xdone n)) →
       exec (.swr rs sr) s = .next (s.trap .illegal s.cur.bundle)) ∧
     (∀ sr, s.sup = false →
       sr ∈ [SysReg.tsw, .tepc, .tcause, .tval, .tvec, .lseg, .tscr, .ortb, .codeo, .tedi, .tedg, .tedm, .tedc,
         .wdog, .frec] → exec (.swr rs sr) s = .next (s.trap .priv 0)) ∧
     (∀ sr, sr ≠ .bankm → sr ≠ .time → (∀ n, sr ≠ .xdone n) → sr ∈ [SysReg.vl, .rmode, .swq] ∨ s.sup = true →
       ¬Legal w sr → exec (.swr rs sr) s = .next (s.trap .illegal w)) ∧
     (Legal w .vl → exec (.swr rs .vl) s = .next (s.updRegs fun x => { x with vl := w })) ∧
     (Legal w .rmode → exec (.swr rs .rmode) s = .next (s.updRegs fun x => { x with rmode := w })) ∧
     (Legal w .swq → exec (.swr rs .swq) s = .next (s.updRegs fun x => { x with swq := w })) ∧
     (s.sup = true →
       (Legal w .tsw →
         ∃ t, exec (.swr rs .tsw) s = .next t ∧ t = s.updRegs (fun x => { x with tsw := t.me.regs.tsw }) ∧
           ∀ i, t.me.regs.tsw.getLsbD i =
             if i = 4 ∨ i = 5 ∨ (11 ≤ i ∧ i ≤ 25) then w.getLsbD i else s.me.regs.tsw.getLsbD i) ∧
       (Legal w .tepc → exec (.swr rs .tepc) s = .next (s.updRegs fun x => { x with tepc := w })) ∧
       (Legal w .tcause → exec (.swr rs .tcause) s = .next (s.updRegs fun x => { x with tcause := w })) ∧
       (Legal w .tvec → exec (.swr rs .tvec) s = .next (s.updRegs fun x => { x with tvec := w })) ∧
       exec (.swr rs .tval) s = .next (s.updRegs fun x => { x with tval := w }) ∧
       exec (.swr rs .tscr) s = .next (s.updRegs fun x => { x with tscr := w }) ∧
       (Legal w .lseg → exec (.swr rs .lseg) s = .next (s.updRegs fun x => { x with lseg := w })) ∧
       (Legal w .ortb → exec (.swr rs .ortb) s = .next (s.updRegs fun x => { x with ortb := w })) ∧
       (Legal w .codeo → exec (.swr rs .codeo) s = .next (s.updPart fun x => { x with codeo := w })) ∧
       (Legal w .frec → exec (.swr rs .frec) s = .next (s.updPart fun x => { x with frec := w })) ∧
       (Legal w .tedi → exec (.swr rs .tedi) s = .next (s.updPart fun x => { x with tedi := w })) ∧
       (Legal w .tedg → exec (.swr rs .tedg) s = .next (s.updPart fun x => { x with tedg := w })) ∧
       (Legal w .tedm → exec (.swr rs .tedm) s = .next (s.updPart fun x => { x with tedm := w })) ∧
       (Legal w .tedc → exec (.swr rs .tedc) s = .next (s.updPart fun x => { x with tedc := w })) ∧
       (Legal w .wdog → exec (.swr rs .wdog) s = .next (s.updPart fun x => { x with wdog := w })))) ∧
  (∀ (s : State) (ra rb : Reg) (i : Instr), s.sup = false → i ∈ privileged ra rb →
     exec i s = .next (s.trap .priv 0))

/-! ### The scratchpad (R153-R165) -/

/-- R156 and R160: a plain load of n bytes at the address ga + offset that leads to the occupied vcore's segment,
in lines that are not poisoned, reads the bytes in the core's total order, lowest first, extends them and
writes one register (LDP two), and changes nothing else.
R156: the address ga + offset of a plain load or store, LDP and STP among them, that is not a multiple of the size
traps ALIGN with it; one that no rule of R46 reads, be it local or remote, or whose bytes leave the occupied vcore's
segment, traps LOCAL_RANGE with it. -/
def Obligations.LocalLoads : Prop :=
  (∀ (s : State) (rd base : Reg) (sx : Bool) (off : BitVec 12) (pa : Nat),
     (∀ (z : Size) (n : Nat), (z, n) ∈ [(Size.b, 1), (.h, 2), (.w, 4), (.d, 8)] →
       s.resolve (s.g base + off.signExtend 64) n n = .here pa → s.spadPoisoned s.cur.pos pa n = false →
         Gives (.ld rd base sx z off) s rd (fun w => ∀ i < 64, w.getLsbD i =
           if i < 8 * n then (Memory.read (s.core s.cur.pos).spad (pa + i / 8)).getLsbD (i % 8)
           else sx && (Memory.read (s.core s.cur.pos).spad (pa + n - 1)).getLsbD 7)) ∧
     (s.resolve (s.g base + off.signExtend 64) 16 16 = .here pa → s.spadPoisoned s.cur.pos pa 16 = false →
       rd.val % 2 = 0 →
         ∃ lo hi : Word, exec (.ldp rd base off) s = .next ((s.setG rd lo).setG (rd + 1) hi) ∧
           ∀ i < 64,
             lo.getLsbD i = (Memory.read (s.core s.cur.pos).spad (pa + i / 8)).getLsbD (i % 8) ∧
             hi.getLsbD i = (Memory.read (s.core s.cur.pos).spad (pa + 8 + i / 8)).getLsbD (i % 8))) ∧
  (∀ (s : State) (rd base : Reg) (sx : Bool) (off : BitVec 12) (n : Nat) (i : Instr) (ea : Word),
     (i, n) ∈ [(Instr.ld rd base sx .b off, 1), (.ld rd base sx .h off, 2), (.ld rd base sx .w off, 4),
       (.ld rd base sx .d off, 8), (.st rd base .b off, 1), (.st rd base .h off, 2), (.st rd base .w off, 4),
       (.st rd base .d off, 8), (.ldp rd base off, 16), (.stp rd base off, 16)] →
     ea = s.g base + off.signExtend 64 → s.cur.phase = 0 →
       (ea.toNat % n ≠ 0 → exec i s = .next (s.trap .align ea)) ∧
       (ea.toNat % n = 0 → ea.getLsbD 63 = false → 2 ^ 18 ≤ ea.toNat → exec i s = .next (s.trap .localRange ea)) ∧
       (ea.toNat % n = 0 → ea.getLsbD 63 = true →
         ea.toNat / 2 ^ 60 % 8 ≠ 0 ∨ ea.toNat / 2 ^ 18 % 64 ≠ 0 → exec i s = .next (s.trap .localRange ea)) ∧
       (ea.toNat % n = 0 → ea.toNat < 2 ^ 18 → s.localVcore = s.me.occ → segLimit s.cur.src.lseg < ea.toNat + n →
         exec i s = .next (s.trap .localRange ea)))

/-- R159, R160 and R165: a plain store whose address resolves and whose core's buffer has room writes the low n
bytes of its register (STP of two registers) at the address, lowest first, in the core's total order, and adds
one entry at the buffer's end; no register, no other byte and no byte of memory changes. -/
def Obligations.LocalStores : Prop :=
  ∀ (s : State) (rs base : Reg) (off : BitVec 12) (pa : Nat),
    Memory.wf (s.core s.cur.pos).spad = true → s.cur.phase = 0 → (s.core s.cur.pos).buffer.length < 32 →
      (∀ (z : Size) (n : Nat), (z, n) ∈ [(Size.b, 1), (.h, 2), (.w, 4), (.d, 8)] →
        s.resolve (s.g base + off.signExtend 64) n n = .here pa →
          ∃ t, exec (.st rs base z off) s = .next t ∧ Claim.Stored s t pa n ∧
            ∀ i < n, Memory.read (t.core s.cur.pos).spad (pa + i) = (s.g rs).extractLsb' (8 * i) 8) ∧
      (s.resolve (s.g base + off.signExtend 64) 16 16 = .here pa →
        ∃ t, exec (.stp rs base off) s = .next t ∧ Claim.Stored s t pa 16 ∧
          ∀ i < 8,
            Memory.read (t.core s.cur.pos).spad (pa + i) = (s.g rs).extractLsb' (8 * i) 8 ∧
            Memory.read (t.core s.cur.pos).spad (pa + 8 + i) = (s.g (rs + 1)).extractLsb' (8 * i) 8)

/-- R161 and R162: a full/empty operation on a doubleword whose condition holds, with no earlier store of the core
buffered, no other half of the core waiting and its turn come at the bank (R165), completes at once: LDF takes the
word and empties it, LDW takes it, STF writes it and sets it full, SETE empties it, FEST reads whether it is full.
R161: with the word empty, LDF and LDW leave the rotation and wait for it; with the word full, so does STF;
nothing is read, written, emptied or filled meanwhile. -/
def Obligations.FullEmptyWords : Prop :=
  (∀ (s : State) (rd base : Reg) (off : BitVec 12) (pa : Nat) (ea : Word),
     ea = s.g base + off.signExtend 64 → s.resolve ea 8 8 = .here pa → pa % 8 = 0 → s.cur.isA = false →
     (s.core s.cur.pos).buffer = [] → (s.core s.cur.pos).spoiled = [] →
     s.cur.pos < s.turn → s.bankTurn s.cur.pos s.cur.slot = true →
     Memory.wf (s.core s.cur.pos).spad = true →
     (∀ j : Fin 16, j ≠ s.cur.slot → (s.slotAt s.cur.pos j).pendC = none) →
       ((s.core s.cur.pos).full.contains (pa / 8) = true →
         (∃ t, exec (.ldf rd base off) s = .next t ∧ t.me.pendC = none ∧
           (rd ≠ 0 → t.me.regs.g.get rd = s.spadWord s.cur.pos (pa / 8)) ∧
           (∀ r, r ≠ rd → t.me.regs.g.get r = s.me.regs.g.get r) ∧
           (t.core s.cur.pos).full.contains (pa / 8) = false ∧
           (t.core s.cur.pos).spad = (s.core s.cur.pos).spad ∧ t.mem = s.mem) ∧
         (∃ t, exec (.ldw rd base off) s = .next t ∧ t.me.pendC = none ∧
           (rd ≠ 0 → t.me.regs.g.get rd = s.spadWord s.cur.pos (pa / 8)) ∧
           (t.core s.cur.pos).full = (s.core s.cur.pos).full ∧
           (t.core s.cur.pos).spad = (s.core s.cur.pos).spad ∧ t.mem = s.mem)) ∧
       ((s.core s.cur.pos).full.contains (pa / 8) = false →
         ∃ t, exec (.stf rd base off) s = .next t ∧ t.me.pendC = none ∧ t.me.regs = s.me.regs ∧
           (t.core s.cur.pos).full.contains (pa / 8) = true ∧ t.mem = s.mem ∧
           (∀ i < 8, Memory.read (t.core s.cur.pos).spad (pa + i) = (s.g rd).extractLsb' (8 * i) 8) ∧
           (∀ a, ¬(pa ≤ a ∧ a < pa + 8) →
             Memory.read (t.core s.cur.pos).spad a = Memory.read (s.core s.cur.pos).spad a)) ∧
       (∃ t, exec (.sete base off) s = .next t ∧ t.me.pendC = none ∧ t.me.regs = s.me.regs ∧
         (t.core s.cur.pos).full.contains (pa / 8) = false ∧
         (t.core s.cur.pos).spad = (s.core s.cur.pos).spad ∧ t.mem = s.mem) ∧
       (∃ t, exec (.fest rd base off) s = .next t ∧ t.me.pendC = none ∧
         (rd ≠ 0 → t.me.regs.g.get rd = truth ((s.core s.cur.pos).full.contains (pa / 8) = true)) ∧
         (t.core s.cur.pos).full = (s.core s.cur.pos).full ∧
         (t.core s.cur.pos).spad = (s.core s.cur.pos).spad ∧ t.mem = s.mem)) ∧
  (∀ (s : State) (rd base : Reg) (off : BitVec 12) (pa : Nat) (ea : Word) (i : Instr) (full : Bool),
     (i, full) ∈ [(Instr.ldf rd base off, false), (.ldw rd base off, false), (.stf rd base off, true)] →
     ea = s.g base + off.signExtend 64 → s.resolve ea 8 8 = .here pa → s.cur.isA = false →
     (s.core s.cur.pos).spoiled = [] → (s.core s.cur.pos).full.contains (pa / 8) = full →
     (∀ j : Fin 16, j ≠ s.cur.slot → (s.slotAt s.cur.pos j).pendC = none) →
       ∃ t, exec i s = .next t ∧ (∃ q, t.me.pendC = some q ∧ q.ins = i) ∧ t.me.regs = s.me.regs ∧
         (t.core s.cur.pos).full = (s.core s.cur.pos).full ∧ (t.core s.cur.pos).spad = (s.core s.cur.pos).spad ∧
         t.mem = s.mem)

/-- R99 and R92: FFN rounds its function once; a NaN gives the canonical NaN, and the special values are as the
table of R92 gives them, LOG2 and RSQ of a negative number NaN too.  RCP is the rounded quotient; any function is what
both ends of the model's interval around its exact value round to, where they round alike (log entry 6).
R100: FSEL over N packed scale words of an address that resolves: the BF16 descriptor where some word's
exponent byte is 0xFF, else E5M2's or E4M3's by the two thresholds; a bad parameter word traps FORMAT. -/
def Obligations.FunctionsAndFormatChoice : Prop :=
  (∀ (s : State) (rd ra : Reg) (op : FnOp) (r : Rnd) (x : FVal), x = f32.value ((s.g ra).toNat % 2 ^ 32) →
     Gives (.ffn rd ra op r) s rd (fun w =>
       (x = .nan → w = 0x7FC00000) ∧
       (x = .inf false → w = match op with
         | .exp2 => 0x7F800000 | .log2 => 0x7F800000 | .rcp => 0 | .rsq => 0 | .tanh => 0x3F800000
         | .sigm => 0x3F800000) ∧
       (x = .inf true → w = match op with
         | .exp2 => 0 | .log2 => 0x7FC00000 | .rcp => 0x80000000 | .rsq => 0x7FC00000 | .tanh => 0xBF800000
         | .sigm => 0) ∧
       (∀ t e, x = .fin t 0 e → w = match op with
         | .exp2 => 0x3F800000 | .log2 => 0xFF800000
         | .rcp => if t then 0xFF800000 else 0x7F800000
         | .rsq => if t then 0xFF800000 else 0x7F800000
         | .tanh => if t then 0x80000000 else 0
         | .sigm => 0x3F000000) ∧
       (∀ t k e, x = .fin t k e → k ≠ 0 →
         (t = true → op = .log2 ∨ op = .rsq → w = 0x7FC00000) ∧
         (op = .rcp → w = BitVec.ofNat 64 (f32.round (s.mode r) false ((FVal.fin false 1 0).div x))) ∧
         (¬(t = true ∧ (op = .log2 ∨ op = .rsq)) → ∀ i : FVal × FVal, i = (fnOf op).interval t k e →
           f32.round (s.mode r) false i.1 = f32.round (s.mode r) false i.2 →
           w = BitVec.ofNat 64 (f32.round (s.mode r) false i.1))) ∧
       (op = .log2 → (s.g ra).setWidth 32 = (0x3F800000 : BitVec 32) → w = 0))) ∧
  (∀ (s : State) (rd ra rb : Reg) (pa n lb tz ts : Nat) (ws : List Nat),
     (s.g rb).toNat = ts + tz * 2 ^ 8 + n * 2 ^ 16 + lb * 2 ^ 28 → ts < 2 ^ 8 → tz < 2 ^ 8 → n < 2 ^ 12 → lb < 16 →
       ((lb < 3 ∨ 12 < lb) → exec (.fsel rd ra rb) s = .next (s.trap .format 0)) ∧
       (3 ≤ lb → lb ≤ 12 → (s.g ra).getLsbD 63 = false → s.resolve (s.g ra) 4 (4 * n) = .here pa →
         s.spadPoisoned s.cur.pos pa (4 * n) = false → ws.length = n →
         (∀ i < n, ws.getD i 0 = ofBytes (s.spadRead s.cur.pos (pa + 4 * i) 4)) →
           ∃ t, exec (.fsel rd ra rb) s = .next t ∧
             (rd ≠ 0 → t.me.regs.g.get rd =
               if ∃ w ∈ ws, w / 2 ^ 8 % 256 = 255 then 0x4000A
               else if ts < (ws.map fun w => w / 2 ^ 16 % 256).sum ∨ tz < (ws.map fun w => w / 2 ^ 24 % 256).sum
               then BitVec.ofNat 64 (0x4002D + lb * 2 ^ 8)
               else BitVec.ofNat 64 (0x4002C + lb * 2 ^ 8)) ∧
             (∀ r, r ≠ rd → t.me.regs.g.get r = s.me.regs.g.get r) ∧ t.mem = s.mem ∧
             (t.core s.cur.pos).spad = (s.core s.cur.pos).spad))

/-! ### Tasks, counters, barriers, stages and helpers (R136-R152) -/

/-- R142: SPAWN of a well-formed packet of ready operands, a gang's too, with nothing for its release to wait for and
room in the task queue: the packet's sixteen doublewords enter the partition's task queue, accepted now, ready at once
without dependence words; the queue's other packets, memory and the general registers stay.  The same once the release
has ended.  A full queue holds the thread; what fills it is free (log entry 77).
R142: the tests of SPAWN on its address and on the packet, in their order.
R143: TDONE of a task, with nothing for its release to wait for or once that has ended, the other half of its
bundle over and no guest waiting: with no completion word the slot empties, the thread's map entry is NONE, the packet
is no longer live and the progress count rises; with one in the segment of a placed vcore, ts0 is in it and it is
full; with one that leads nowhere (log entry 78 for a word that is misaligned or beyond its segment) the fill is
discarded, and with one on another die, or whose vcore cannot take it yet, the fill goes into the network: the task retires
all the same.
In a helper TDONE ends the helper (R152).
R144: TYLD has no effect while no work waits for the core's slots; that a free slot among 0 to 14 is one that work
can take, and that a thread in slot 15 yields to a movement packet alone while there is one, is the model's reading
(log entry 79).  Else, the other half of its bundle over, the thread of the core's own vcore becomes a dispatcher
entry of its vcore with its priority, its whole context saved in its map entry (a thread of slot 15 as a movement
packet, log entry 49); a guest joins the tail of the core's guest queue, and where no helper gives it another, the
head takes its slot. -/
def Obligations.TasksComeAndGo : Prop :=
  (∀ (s : State) (ra : Reg) (pa : Nat) (p : Pkt.Words),
     (s.cur.phase = 0 → (s.g ra).getLsbD 63 = false ∧ s.resolve (s.g ra) 128 128 = .here pa ∧
       s.spadPoisoned s.cur.pos pa 128 = false ∧
       (∀ i : Fin 16, p.get i = BitVec.ofNat 64 (ofBytes (s.spadRead s.cur.pos (pa + 8 * i.val) 8))) ∧
       Pkt.ok p s.sup = true ∧ (Pkt.pc p).toNat % 8 = 0 ∧ s.inPart (Pkt.vcore p) = true ∧
       (Pkt.gang p = true → Pkt.member p < 8 * Pkt.gw p * Pkt.gh p ∧ ¬NoBlock s p) ∧ NothingPending s) →
     (s.cur.phase ≠ 0 → s.cur.held = p.toList) →
       (s.part.queue.length < Config.queueRoom + 1 →
         ∃ t, exec (.spawn ra) s = .next t ∧
           t.part.queue.get s.fresh = some
             { w := p, accepted := s.time, ready := if Pkt.ndep p = 0 then some s.time else none } ∧
           (∀ k, k ≠ s.fresh → t.part.queue.get k = s.part.queue.get k) ∧
           t.me.regs = { s.me.regs with bankm := 0 } ∧ t.mem = s.mem ∧
           (∀ q, (t.core q).spad = (s.core q).spad)) ∧
       (Config.queueRoom + 1 ≤ s.part.queue.length →
         ∃ t, exec (.spawn ra) s = .next t ∧ t.cur.out = .parked ∧ t.part = s.part)) ∧
  (∀ (s : State) (ra : Reg) (pa : Nat) (p : Pkt.Words), s.cur.phase = 0 →
     ((s.g ra).toNat % 128 ≠ 0 → exec (.spawn ra) s = .next (s.trap .align (s.g ra))) ∧
     ((s.g ra).toNat % 128 = 0 → (s.g ra).getLsbD 63 = true →
       exec (.spawn ra) s = .next (s.trap .localRange (s.g ra))) ∧
     ((s.g ra).getLsbD 63 = false → s.resolve (s.g ra) 128 128 = .here pa →
       s.spadPoisoned s.cur.pos pa 128 = false →
       (∀ i : Fin 16, p.get i = BitVec.ofNat 64 (ofBytes (s.spadRead s.cur.pos (pa + 8 * i.val) 8))) →
         (Pkt.ok p s.sup = false → exec (.spawn ra) s = .next (s.trap .illegal (s.g ra))) ∧
         (Pkt.ok p s.sup = true →
           ((Pkt.pc p).toNat % 8 ≠ 0 → exec (.spawn ra) s = .next (s.trap .align (Pkt.pc p))) ∧
           ((Pkt.pc p).toNat % 8 = 0 →
             (pkgOf (Pkt.vcore p) ≠ s.pkg → pkgOf (Pkt.vcore p) ∉ s.part.packages →
               exec (.spawn ra) s = .next (s.trap .undeliverable (p.get 1))) ∧
             (pkgOf (Pkt.vcore p) = s.pkg ∨ pkgOf (Pkt.vcore p) ∈ s.part.packages → Pkt.gang p = true →
               8 * Pkt.gw p * Pkt.gh p ≤ Pkt.member p ∨ NoBlock s p →
               exec (.spawn ra) s = .next (s.trap .gangUnplaceable 0)))))) ∧
  (∀ (s : State),
     ((∀ k, s.me.life ≠ .helper k) → (s.cur.phase = 0 → NothingPending s) → s.me.pendA = none →
       (s.core s.cur.pos).guests = [] → Memory.wf (s.core s.cur.pos).spad = true →
       (∀ g ∈ s.part.graphs, g.pid ≠ s.me.pid) →
       (∀ j : Fin 16, (s.slotAt s.cur.pos j).pendC = none) →
         (s.me.cpl = 0 → ∃ t, exec .tdone s = .next t ∧ Claim.Retired s t) ∧
         (s.me.cpl ≠ 0 →
           (∀ a : Nat, a % 8 = 0 → s.fillAt s.me.cpl = .word s.cur.pos a →
             ∃ t, exec .tdone s = .next t ∧ Claim.Retired s t ∧
               (t.core s.cur.pos).full.contains (a / 8) = true ∧
               ∀ i < 8, Memory.read (t.core s.cur.pos).spad (a + i) = (s.cur.src.ts.get 0).extractLsb' (8 * i) 8) ∧
           (∀ p a, s.fillAt s.me.cpl = .word p a → dieOf p ≠ dieOf s.cur.pos →
             ∃ t x, exec .tdone s = .next t ∧ Claim.Retired s t ∧ t.net.get s.fresh = some x ∧
               x.load = .fill s.me.cpl (s.cur.src.ts.get 0) ∧ x.dst = p) ∧
           (s.fillAt s.me.cpl = .discard →
             ∃ t, exec .tdone s = .next t ∧ Claim.Retired s t ∧ t.net = s.net) ∧
           (s.fillAt s.me.cpl = .wait →
             ∃ t x, exec .tdone s = .next t ∧ Claim.Retired s t ∧ t.net.get s.fresh = some x ∧
               x.load = .fill s.me.cpl (s.cur.src.ts.get 0)))) ∧
     (∀ k, s.me.life = .helper k → ∃ t, exec .tdone s = .next t ∧ t.me = Claim.left s.me ∧ t.mem = s.mem)) ∧
  (∀ (s : State),
     (¬WorkWaits s → exec .tyld s = .next s) ∧
     (WorkWaits s → s.me.pendA = none →
       (s.cur.src.tsw.getLsbD 9 = false →
         ∃ t q, exec .tyld s = .next t ∧ t.part.queue.get s.fresh = some q ∧ q.yielded = some s.me.tid ∧
           q.accepted = s.time ∧ q.ready = some s.time ∧
           Pkt.vcore q.w = s.me.tid.vc % 2 ^ 36 ∧ Pkt.prio q.w = s.me.prio % 4 ∧
           (s.me.prio < 4 → Pkt.move q.w = decide (s.cur.slot = 15)) ∧
           (t.mapEntry s.me.tid).state = .yielded ∧ (t.mapEntry s.me.tid).saved = some s.me ∧ t.mem = s.mem) ∧
       (s.cur.src.tsw.getLsbD 9 = true → ∀ g rest, (s.core s.cur.pos).guests = g :: rest → s.cur.slot ≠ 15 →
         s.frozen s.cur.pos = false →
         (∀ j : Fin 16, j ≠ 15 → (s.slotAt s.cur.pos j).busy = true) →
         (∀ j k : Fin 16, (s.slotAt s.cur.pos j).life ≠ .helper k) → (∀ k, g.life ≠ .helper k) →
         (∀ (j : Fin 16) (q : Pend), (s.slotAt s.cur.pos j).pendC = some q → q.ins ≠ .dualOn) →
           ∃ t, exec .tyld s = .next t ∧ (t.core s.cur.pos).guests = rest ++ [s.me] ∧
             t.me.busy = true ∧ t.me.tid = g.tid ∧ t.me.occ = g.occ ∧
             (∀ j : Fin 16, j ≠ s.cur.slot → t.slotAt s.cur.pos j = s.slotAt s.cur.pos j) ∧ t.mem = s.mem)))

/-- R326 and R328: SRD writes the register's value as latched at issue; TSCR only in supervisor mode, and in user
mode it traps PRIV.  SRD has no other effect.
R145: TSRD writes the shadow register of a tile core's thread; on a supervisor core, whose threads are no tile
tasks, it writes 0. -/
def Obligations.RegisterReadsOfTheSystem : Prop :=
  (∀ (s : State) (rd : Reg) (sr : SysReg),
     (sr = .tscr → s.sup = false → exec (.srd rd sr) s = .next (s.trap .priv 0)) ∧
     (sr ≠ .tscr ∨ s.sup = true →
       Gives (.srd rd sr) s rd (fun w => match sr with
         | .tsw => w = s.cur.src.tsw | .tepc => w = s.cur.src.tepc | .tcause => w = s.cur.src.tcause
         | .tval => w = s.cur.src.tval | .tvec => w = s.cur.src.tvec | .lseg => w = s.cur.src.lseg
         | .vl => w = s.cur.src.vl | .rmode => w = s.cur.src.rmode | .bankm => w = s.cur.src.bankm
         | .tscr => w = s.cur.src.tscr | .ortb => w = s.cur.src.ortb | .swq => w = s.cur.src.swq
         | .codeo => w = s.part.codeo
         | .xdone n => ∀ v, s.vcoresAt (8 * cluOf s.cur.pos + n.val) = [v] →
             w = BitVec.ofNat 64 (s.vcore v).done
         | .tedi => w = s.part.tedi | .tedg => w = s.part.tedg | .tedm => w = s.part.tedm
         | .tedc => w = s.part.tedc | .time => w = BitVec.ofNat 64 s.time | .wdog => w = s.part.wdog
         | .frec => w = s.part.frec))) ∧
  (∀ (s : State) (rd : Reg) (n : Fin 8),
     (s.cur.pos < 4096 → exec (.tsrd rd n) s = .next (s.setG rd (s.cur.src.ts.get n))) ∧
     (4096 ≤ s.cur.pos → exec (.tsrd rd n) s = .next (s.setG rd 0)))

/-- R146: CHSET sets a cluster counter from its operands, 0 standing for 1 in P and MIN; CHUNK takes the next
min(remaining, max(MIN, ceil(remaining ÷ 2P))) of it.
R147: BARC configures the core's leaf and the cluster's mask and clears the arrivals; BARR returns the
leaf's phase and counts, and the E-th arrival with nothing buffered reaches the root.  There the core of the mask that is
the last to arrive, be the mask one core or several, advances the phase, which is present 6 cycles later, and takes one
arrival off each core of the mask; another core's counts, for the next phase where the core has reported already; that of a
core outside the mask changes nothing there.  BARW goes on while the leaf's phase differs. -/
def Obligations.CountersAndBarriers : Prop :=
  (∀ (s : State) (rd ra rb : Reg) (n : Fin 8) (k : Nat) (c : Counter),
     k = cluOf s.cur.pos → c = (s.cluster k).ctr.get n →
       (∃ t, exec (.chset n ra rb) s = .next t ∧
         ((t.cluster k).ctr.get n).next = 0 ∧
         ((t.cluster k).ctr.get n).remaining.toNat = (s.g ra).toNat % 2 ^ 32 ∧
         ((t.cluster k).ctr.get n).p.toNat =
           (if (s.g rb).toNat % 2 ^ 16 = 0 then 1 else (s.g rb).toNat % 2 ^ 16) ∧
         ((t.cluster k).ctr.get n).minimum.toNat =
           (if (s.g rb).toNat / 2 ^ 16 % 2 ^ 32 = 0 then 1 else (s.g rb).toNat / 2 ^ 16 % 2 ^ 32) ∧
         (∀ m, m ≠ n → (t.cluster k).ctr.get m = (s.cluster k).ctr.get m) ∧ t.cores = s.cores ∧ t.mem = s.mem) ∧
       (0 < c.p.toNat →
         ∃ t size, exec (.chunk rd n) s = .next t ∧
           size = min c.remaining.toNat
             (max c.minimum.toNat ((c.remaining.toNat + (2 * c.p.toNat - 1)) / (2 * c.p.toNat))) ∧
           (rd ≠ 0 → (t.me.regs.g.get rd).toNat = size * 2 ^ 32 + c.next.toNat) ∧
           ((t.cluster k).ctr.get n).remaining.toNat + size = c.remaining.toNat ∧
           ((t.cluster k).ctr.get n).next.toNat = (c.next.toNat + size) % 2 ^ 32 ∧
           (∀ r, r ≠ rd → t.me.regs.g.get r = s.me.regs.g.get r) ∧ t.mem = s.mem)) ∧
  (∀ (s : State) (rd ra : Reg) (p k : Nat), p = s.cur.pos → k = cluOf p →
     (∃ t, exec (.barc ra) s = .next t ∧
       (t.core p).leaf.e = (s.g ra).toNat % 16 ∧ (t.core p).leaf.count = 0 ∧ (t.core p).leaf.waiting = [] ∧
       (t.core p).leaf.ph = (s.core p).leaf.ph ∧ (t.cluster k).mask.toNat = (s.g ra).toNat / 2 ^ 8 % 2 ^ 8 ∧
       (∀ i, (t.cluster k).arrivals.get i = 0) ∧ (t.core p).slots = (s.core p).slots ∧ t.mem = s.mem) ∧
     ((s.core p).leaf.e = 0 → exec (.barr rd) s = .next (s.setG rd ((s.core p).leaf.ph.setWidth 64))) ∧
     ((s.core p).leaf.count + 1 < (s.core p).leaf.e →
       ∃ t, exec (.barr rd) s = .next t ∧ (rd ≠ 0 → t.me.regs.g.get rd = (s.core p).leaf.ph.setWidth 64) ∧
         (t.core p).leaf = { (s.core p).leaf with count := (s.core p).leaf.count + 1 } ∧ t.mem = s.mem) ∧
     ((s.core p).leaf.e ≠ 0 → (s.core p).leaf.e ≤ (s.core p).leaf.count + 1 → (s.core p).buffer = [] →
       (s.core p).leaf.waiting = [] → (s.cluster k).mask.getLsbD (p % 8) = true →
       (∀ i : Fin 8, i ≠ coreNum p → (s.cluster k).mask.getLsbD i.val = true → 0 < (s.cluster k).arrivals.get i) →
         ∃ t, exec (.barr rd) s = .next t ∧ (rd ≠ 0 → t.me.regs.g.get rd = (s.core p).leaf.ph.setWidth 64) ∧
           (t.core p).leaf.count = 0 ∧ (t.cluster k).ph = (s.cluster k).ph + 1 ∧
           (t.cluster k).phases = (s.cluster k).phases ++ [(s.time + 6, (s.cluster k).ph + 1)] ∧
           (∀ i : Fin 8, (s.cluster k).mask.getLsbD i.val = true →
             (t.cluster k).arrivals.get i = (s.cluster k).arrivals.get i - if i = coreNum p then 0 else 1) ∧
           t.mem = s.mem) ∧
     ((s.core p).leaf.e ≠ 0 → (s.core p).leaf.e ≤ (s.core p).leaf.count + 1 → (s.core p).buffer = [] →
       (s.core p).leaf.waiting = [] → (s.cluster k).mask.getLsbD (p % 8) = false →
         ∃ t, exec (.barr rd) s = .next t ∧ (rd ≠ 0 → t.me.regs.g.get rd = (s.core p).leaf.ph.setWidth 64) ∧
           (t.core p).leaf.count = 0 ∧ t.cluster k = s.cluster k ∧ t.mem = s.mem) ∧
     ((s.core p).leaf.e ≠ 0 → (s.core p).leaf.e ≤ (s.core p).leaf.count + 1 → (s.core p).buffer = [] →
       (s.core p).leaf.waiting = [] → (s.cluster k).mask.getLsbD (p % 8) = true →
       (∃ i : Fin 8, i ≠ coreNum p ∧ (s.cluster k).mask.getLsbD i.val = true ∧ (s.cluster k).arrivals.get i = 0) →
         ∃ t, exec (.barr rd) s = .next t ∧ (rd ≠ 0 → t.me.regs.g.get rd = (s.core p).leaf.ph.setWidth 64) ∧
           (t.core p).leaf.count = 0 ∧ (t.cluster k).ph = (s.cluster k).ph ∧
           (t.cluster k).phases = (s.cluster k).phases ∧
           (∀ i, (t.cluster k).arrivals.get i = (s.cluster k).arrivals.get i + if i = coreNum p then 1 else 0) ∧
           t.mem = s.mem) ∧
     ((s.core p).leaf.ph.toNat ≠ (s.g ra).toNat % 2 ^ 16 → exec (.barw ra) s = .next s) ∧
     ((s.core p).leaf.ph.toNat = (s.g ra).toNat % 2 ^ 16 →
       ∃ t, exec (.barw ra) s = .next t ∧ t.cur.out = .parked ∧ t.me.regs = s.me.regs))

/-- R149: on a well-formed descriptor of N slots whose tag for the sequence number meets the operation's
condition, and with no other half of the core waiting, a stage instruction completes at once: STGP takes a free
slot and STGF marks it filled, STGW finds it filled and STGE frees it for the next round; STGP and STGW give the
slot's address.
R150 and R152: HSPAWN with an empty slot among 0 to 14, no helper yet and no guest bit starts a helper in the
lowest one, at its own address plus 8 × offset, with the thread's general and shadow registers; without one it has no effect;
HSTOP ends the thread's helpers, and in a helper the helper itself. -/
def Obligations.StagesAndHelpers : Prop :=
  (∀ (s : State) (rd ra rb : Reg) (pa n seq j q tag : Nat) (d : Word),
     s.cur.phase = 0 → s.cur.isA = false → s.resolve (s.g ra) 32 32 = .here pa → d = s.spad64 s.cur.pos pa →
     n = stageN d → 0 < n → n ≤ 8 → 0 < stageSize d → bits d 63 52 = 0 → bits d 31 18 = 0 →
     stageSlot0 d + 64 * stageSize d * n ≤ segLimit s.cur.src.lseg →
     seq = (s.g rb).toNat % 2 ^ 32 → j = seq % n → q = seq / n % 2 ^ 22 →
     tag = ofBytes (s.spadRead s.cur.pos (pa + 8 + 3 * j) 3) →
     Memory.wf (s.core s.cur.pos).spad = true →
     (∀ i : Fin 16, i ≠ s.cur.slot → (s.slotAt s.cur.pos i).pendC = none) →
       (tag = q → ∃ t, exec (.stgp rd ra rb) s = .next t ∧ Claim.Staged s t pa j (2 ^ 22 + q) ∧
         (rd ≠ 0 → t.me.regs.g.get rd = BitVec.ofNat 64 (stageSlot0 d + 64 * stageSize d * j))) ∧
       (tag = q ∨ tag = 2 ^ 22 + q →
         ∃ t, exec (.stgf ra rb) s = .next t ∧ Claim.Staged s t pa j (2 * 2 ^ 22 + q) ∧ t.me.regs = s.me.regs) ∧
       (tag = 2 * 2 ^ 22 + q → ∃ t, exec (.stgw rd ra rb) s = .next t ∧ Claim.Staged s t pa j tag ∧
         (rd ≠ 0 → t.me.regs.g.get rd = BitVec.ofNat 64 (stageSlot0 d + 64 * stageSize d * j))) ∧
       (tag = 2 * 2 ^ 22 + q →
         ∃ t, exec (.stge ra rb) s = .next t ∧ Claim.Staged s t pa j ((q + 1) % 2 ^ 22) ∧
           t.me.regs = s.me.regs)) ∧
  (∀ (s : State) (off : BitVec 15),
     (∀ j : Fin 16, (∀ i : Fin 16, ¬((s.slotAt s.cur.pos i).busy = true ∧
         (s.slotAt s.cur.pos i).life = .helper s.cur.slot)) → s.cur.src.tsw.getLsbD 9 = false →
       State.lowestEmpty (s.core s.cur.pos) = some j → j ≠ s.cur.slot →
         ∃ t, exec (.hspawn off) s = .next t ∧ (t.slotAt s.cur.pos j).busy = true ∧
           (t.slotAt s.cur.pos j).life = .helper s.cur.slot ∧ (t.slotAt s.cur.pos j).regs.g = s.cur.src.g ∧
           (t.slotAt s.cur.pos j).regs.ts = s.cur.src.ts ∧
           (t.slotAt s.cur.pos j).regs.pc = s.cur.ipc + 8 * off.signExtend 38 ∧
           (t.slotAt s.cur.pos j).regs.tsw.getLsbD 8 = true ∧
           (∀ i, i ≠ j → t.slotAt s.cur.pos i = s.slotAt s.cur.pos i) ∧ t.mem = s.mem) ∧
     (State.lowestEmpty (s.core s.cur.pos) = none ∨ s.cur.src.tsw.getLsbD 9 = true ∨
       (∃ i : Fin 16, (s.slotAt s.cur.pos i).busy = true ∧ (s.slotAt s.cur.pos i).life = .helper s.cur.slot) →
         exec (.hspawn off) s = .next s) ∧
     ((∀ k, s.me.life ≠ .helper k) →
       ∃ t, exec .hstop s = .next t ∧
         ∀ j : Fin 16, t.slotAt s.cur.pos j =
           if (s.slotAt s.cur.pos j).busy = true ∧ (s.slotAt s.cur.pos j).life = .helper s.cur.slot
           then Claim.left (s.slotAt s.cur.pos j) else s.slotAt s.cur.pos j) ∧
     (∀ k, s.me.life = .helper k → ∃ t, exec .hstop s = .next t ∧ t.me = Claim.left s.me))

/-! ### Objects and atomics (R166-R207) -/

/-- R181, R190, R202 and R203: an element load that passes its tests on lines that are not poisoned sends its
request to the home of the element; OLDC and LDC may share a reply (with nothing buffered and outside the
host window). -/
def Obligations.ElementLoads : Prop :=
  ∀ (s : State) (rd ra : Reg) (sx : Bool) (off : BitVec 12) (sc : Scope) (r : Rec) (a : Nat) (z : Size) (n : Nat),
    (z, n) ∈ [(Size.b, 1), (.h, 2), (.w, 4), (.d, 8)] → s.cur.isA = false → s.poisoned a n = false →
      (Reaches s (s.g ra) ((bits (s.g ra) 39 0 : Int) + off.toInt) n Rec.permR r a →
        (∃ t, exec (.old rd ra sx z off) s = .next t ∧ LoadSent s t (.old rd ra sx z off) a n rd sx false) ∧
        ((s.core s.cur.pos).buffer = [] → State.inWindow a = false →
          ∃ t, exec (.oldc rd ra sx z off) s = .next t ∧ LoadSent s t (.oldc rd ra sx z off) a n rd sx true)) ∧
      (off.toInt % n = 0 → Reaches s (s.g ra) ((bits (s.g ra) 39 0 : Int) + off.toInt / n) n Rec.permR r a →
        (s.core s.cur.pos).buffer = [] → State.inWindow a = false →
          ∃ t, exec (.ldc rd ra sx z off) s = .next t ∧ LoadSent s t (.ldc rd ra sx z off) a n rd sx true) ∧
      (n = 8 → off.toInt % 8 = 0 →
        Reaches s (s.g ra) ((bits (s.g ra) 39 0 : Int) + off.toInt / 8) 8 Rec.permR r a →
          ∃ t, exec (.ldacq rd ra sc off) s = .next t ∧ LoadSent s t (.ldacq rd ra sc off) a 8 rd false false)

/-- R200: the returning atomics, with the operation that each names; .T selects the total order. -/
def Sys2Proof.Claim.atomics (rd ra rb : Reg) (z : ASize) : List (Instr × AtomOp) :=
  [(.aadd rd ra rb z, .add), (.aincb rd ra rb z, .incb), (.amin rd ra rb false z, .min),
    (.amin rd ra rb true z, .tmin), (.amax rd ra rb false z, .max), (.amax rd ra rb true z, .tmax),
    (.aminu rd ra rb z, .minu), (.amaxu rd ra rb z, .maxu), (.aand rd ra rb z, .and), (.aor rd ra rb z, .or),
    (.axor rd ra rb z, .xor), (.aswp rd ra rb z, .swap), (.acas rd ra rb z, .cas)]

/-- R180: the tests of an element access in their order: OBJ_INVALID, REVOKED, OBJ_PERM, FORMAT, OUT_OF_SHAPE,
with the reference in TVAL, but for the last two the reference with the exact index.
R182-R184: ORQ reads a field of the record, OREF forms a reference to another element of the object and traps
OUT_OF_SHAPE outside it with the exact index in TVAL, OPRB reports a granule: its number, generation, RVK, affinity,
move and residency, and traps OUT_OF_SHAPE outside the object. -/
def Obligations.ElementTestsAndQueries : Prop :=
  (∀ (s : State) (rd ra : Reg) (sx : Bool) (off : BitVec 12) (z : Size) (n : Nat) (r : Rec) (idx : Int) (v : Word),
     (z, n) ∈ [(Size.b, 1), (.h, 2), (.w, 4), (.d, 8)] → s.cur.phase = 0 →
     idx = (bits (s.g ra) 39 0 : Int) + off.toInt →
     v = BitVec.ofInt 64 ((bits (s.g ra) 63 40 : Int) * 2 ^ 40 + idx % 2 ^ 40) →
       (s.look (bits (s.g ra) 63 40) = .invalid →
         exec (.old rd ra sx z off) s = .next (s.trap .objInvalid (s.g ra)) ∧
         exec (.ost rd ra z off) s = .next (s.trap .objInvalid (s.g ra))) ∧
       (s.look (bits (s.g ra) 63 40) = .got r →
         (r.rvk = true → exec (.old rd ra sx z off) s = .next (s.trap .revoked (s.g ra)) ∧
           exec (.ost rd ra z off) s = .next (s.trap .revoked (s.g ra))) ∧
         (r.rvk = false →
           (r.permR = false → exec (.old rd ra sx z off) s = .next (s.trap .objPerm (s.g ra))) ∧
           (r.permW = false → exec (.ost rd ra z off) s = .next (s.trap .objPerm (s.g ra))) ∧
           (r.permR = true → r.permW = true →
             (r.fmt = 0xE ∨ fmtBytes r.fmt ≠ n → exec (.old rd ra sx z off) s = .next (s.trap .format v) ∧
               exec (.ost rd ra z off) s = .next (s.trap .format v)) ∧
             (r.fmt ≠ 0xE → fmtBytes r.fmt = n → idx < 0 ∨ (r.count : Int) ≤ idx →
               exec (.old rd ra sx z off) s = .next (s.trap .outOfShape v) ∧
               exec (.ost rd ra z off) s = .next (s.trap .outOfShape v)))))) ∧
  (∀ (s : State) (rd ra rb : Reg) (f : BitVec 4) (r : Rec) (b : Byte),
     s.look (bits (s.g ra) 63 40) = .got r →
       Gives (.orq rd ra f) s rd (fun w =>
         (f = 0 → w.toNat = r.base) ∧ (f = 1 → w.toNat = r.rank) ∧ (f = 10 → w.toNat = r.fmt) ∧
         (∀ d : Fin 4, f.toNat = 2 + d.val → w.toNat = r.dim d.val) ∧
         (∀ d : Fin 4, f.toNat = 6 + d.val → w.toNat = r.str d.val) ∧
         (f = 11 → w.toNat = r.tiled.toNat * 8 + r.swz) ∧ (f = 12 → w.toNat = bits (r.get 5) 15 0) ∧
         (f = 13 → w.toNat = r.twin) ∧ (f = 14 → w = r.get 6) ∧ (f = 15 → w = r.get 7)) ∧
       (∀ idx : Int, idx = (bits (s.g ra) 39 0 : Int) + (s.g rb).toInt →
         (0 ≤ idx → idx < r.count → idx < 2 ^ 40 →
           Gives (.oref rd ra rb) s rd (fun w => bits w 63 40 = bits (s.g ra) 63 40 ∧ (bits w 39 0 : Int) = idx)) ∧
         (idx < 0 ∨ (r.count : Int) ≤ idx →
           exec (.oref rd ra rb) s = .next (s.trap .outOfShape
             (BitVec.ofInt 64 ((bits (s.g ra) 63 40 : Int) * 2 ^ 40 + idx % 2 ^ 40))))) ∧
       (s.cur.phase = 0 → r.count ≤ bits (s.g ra) 39 0 →
         exec (.oprb rd ra) s = .next (s.trap .outOfShape (s.g ra))) ∧
       (s.cur.phase = 0 → bits (s.g ra) 39 0 < r.count →
         ∃ t, exec (.oprb rd ra) s = .next t ∧ t.cur.out = .parked ∧ t.me.regs = s.me.regs) ∧
       (s.cur.phase = 1 → s.homeRecord (bits (s.g ra) 63 40) = some r →
         s.rmapByte r (r.granule (r.offset (bits (s.g ra) 39 0))) = some b → (∀ h, (s.home h).sat = []) →
           ∃ t w, exec (.oprb rd ra) s = .next t ∧
             (Config.bit s.tick = false → t.cur.out = .parked ∧ t.me.regs = s.me.regs) ∧
             (Config.bit s.tick = true → t = { s with tick := s.tick + 1 }.setG rd w) ∧
             w.getLsbD 0 = b.getLsbD 7 ∧ w.getLsbD 1 = r.moving ∧
             w.getLsbD 2 = (r.moving && decide (r.granule (r.offset (bits (s.g ra) 39 0)) = r.wmark)) ∧
             w.getLsbD 3 = (s.affinity r).isSome ∧ bits w 7 4 = 0 ∧ w.getLsbD 8 = r.rvk ∧
             bits w 15 9 = b.toNat % 128 ∧
             bits w 39 16 = r.granule (r.offset (bits (s.g ra) 39 0)) % 2 ^ 24 ∧ bits w 63 40 = 0))

/-- R181, R201 and R203: an element store, a RED and a releasing store that pass their tests, with room in the
buffer (and, for STREL, nothing for its release to wait for), enter the buffer with the low bytes or the value
of their register.
R203 and R204: an acquire fence has no effect of its own; a release or full fence with nothing to wait for
completes at once, and clears BANKM at device and system scope (in what a late trap of the bundle gives back too). -/
def Obligations.ElementStoresAndFences : Prop :=
  (∀ (s : State) (rs ra rb : Reg) (off : BitVec 12) (sc : Scope) (r : Rec) (a : Nat),
     (s.core s.cur.pos).buffer.length < 32 →
       (∀ (z : Size) (n : Nat), (z, n) ∈ [(Size.b, 1), (.h, 2), (.w, 4), (.d, 8)] →
         Reaches s (s.g ra) ((bits (s.g ra) 39 0 : Int) + off.toInt) n Rec.permW r a →
           ∃ t, exec (.ost rs ra z off) s = .next t ∧
             Buffered s t a n (.store ((List.range n).map fun i => (s.g rs).extractLsb' (8 * i) 8)) ∧
             (State.inWindow a = false → t.me.regs.bankm = s.me.regs.bankm ||| (1 <<< (a / 2 ^ 16 % 64)))) ∧
       (∀ (op : RedOp) (z : ASize) (n : Nat), (z, n) ∈ [(ASize.d, 8), (.w, 4)] →
         Reaches s (s.g ra) (bits (s.g ra) 39 0 : Int) n Rec.permA r a → State.inWindow a = false →
         s.poisoned a n = false → (op = .fadd → r.fmt = if n = 8 then 8 else 9) →
           ∃ t, exec (.red ra rb op z) s = .next t ∧ Buffered s t a n (.red op (s.g rb))) ∧
       (NothingPending s → off.toInt % 8 = 0 →
         Reaches s (s.g ra) ((bits (s.g ra) 39 0 : Int) + off.toInt / 8) 8 Rec.permW r a →
           ∃ t, exec (.strel rs ra sc off) s = .next t ∧
             Buffered s t a 8 (.store ((List.range 8).map fun i => (s.g rs).extractLsb' (8 * i) 8)))) ∧
  (∀ (s : State) (sc : Scope) (k : FenceK),
     exec (.fence sc .acq) s = .next s ∧
     (k ≠ .acq → s.cur.phase = 0 → NothingPending s →
       exec (.fence sc k) s = .next (if sc = .dev ∨ sc = .sys then cleared s else s)))

/-! ### Homes, caches and memory (R159, R171-R177, R185-R195, R355, R359) -/

/-- R159 and R185: the store buffer performs an entry that is not behind another: a scratchpad store leaves the
buffer; an element store, RED or atomic goes to its home, behind all that is there, and stays in the buffer as
sent; a posted store leaves the buffer for the network.
R181, R185, R186 and R188: a home performs a request that it serves as one step, or lets it miss, and performs one
that has missed when its line comes: a load's register takes the
extended bytes and its thread returns; a store's bytes are in memory; an atomic's register takes the old value
and memory the new one; a RED's memory takes its new value; no other byte of memory changes.
R189, R190 and R192: RED .SADDs add exactly in the accumulator of their word, which the first one opens with the word's
signed value; memory stays until a load, which delivers the saturated sum and receives it.  A switch may merge a RED .FADD
with another of the same bytes, which then goes on as one with the rounded sum, or both go on; merging the other
combining requests leaves what performing them one by one leaves, and is no event of its own.  A combinable read receives
its line at the home, or the line of an older one that still waits for its reply, and its reply brings its bytes to its
register. -/
def Obligations.BufferAndHomes : Prop :=
  (∀ (s : State) (p id : Nat) (e : SbEntry) (rest : List SbEntry),
     (s.core p).buffer = e :: rest → e.id = id → e.sent = false → s.mayPerform p e [] = true → Calm s p →
     (∀ x ∈ rest, x.id ≠ id) →
       (∀ a n, e.op = .scratch a n →
         ∃ t, exec (.storeBufferPerform p id) s = .next t ∧ (t.core p).buffer = rest ∧
           (t.core p).slots = (s.core p).slots ∧ (t.core p).spad = (s.core p).spad ∧ t.mem = s.mem) ∧
       (∀ q, e.op = .obj q →
         ∃ t, exec (.storeBufferPerform p id) s = .next t ∧
           (t.home (State.reqHome q)).queue.get s.fresh = some { q with entries := [(p, id)] } ∧
           (t.core p).buffer = { e with sent := true } :: rest ∧ (t.core p).slots = (s.core p).slots ∧
           t.mem = s.mem) ∧
       (∀ j addr n v, e.op = .rst j addr n v →
         ∃ t x, exec (.storeBufferPerform p id) s = .next t ∧ t.net.get s.fresh = some x ∧
           x.load = .rst e.tid j addr n v ∧ (t.core p).buffer = rest ∧ t.mem = s.mem)) ∧
  (∀ (s : State) (i : Instr) (h id : Nat) (q : Req) (a p : Nat) (j : Fin 16),
     Served s i h id q a → Memory.wf s.mem = true → s.poisoned a q.n = false →
       (q.acc = .load false → s.findToken q.token = some (p, j, false) → (s.core q.pos).buffer = [] →
         0 < q.n → q.n ≤ 8 →
         ∃ t, exec i s = .next t ∧ (Misses s t i h id q ∨ t.mem = s.mem ∧
           (t.home h).queue = (s.home h).queue.del id ∧ (t.slotAt p j).pendC = none ∧
           (q.rd ≠ 0 → ∀ i < 64, ((t.slotAt p j).regs.g.get q.rd).getLsbD i =
             if i < 8 * q.n then (Memory.read s.mem (a + i / 8)).getLsbD (i % 8)
             else q.sx && (Memory.read s.mem (a + q.n - 1)).getLsbD 7) ∧
           (∀ r, r ≠ q.rd → (t.slotAt p j).regs.g.get r = (s.slotAt p j).regs.g.get r))) ∧
       (∀ bs e, q.acc = .store bs → bs.length = q.n → q.entries = [(p, e)] → Calm s p → a / 2 ^ 47 % 2 = 0 →
         ∃ t, exec i s = .next t ∧ (Misses s t i h id q ∨ MemoryHolds s t a q.n (ofBytes bs) ∧
           (t.home h).queue = (s.home h).queue.del id ∧
           (t.core p).buffer = (s.core p).buffer.filter (fun x => x.id ≠ e) ∧
           (t.core p).slots = (s.core p).slots)) ∧
       (∀ op v x e, q.acc = .atomic op v x → q.entries = [(p, e)] → q.n ∈ [4, 8] → Calm s p →
         s.findToken q.token = some (p, j, false) →
         ∃ t, exec i s = .next t ∧ (Misses s t i h id q ∨
           MemoryHolds s t a q.n (atomNew op q.n (ofBytes (Memory.readN s.mem a q.n)) (v.toNat % 2 ^ (8 * q.n))
             (x.toNat % 2 ^ (8 * q.n))) ∧
           (q.rd ≠ 0 →
             (t.slotAt p j).regs.g.get q.rd = BitVec.ofNat 64 (ofBytes (Memory.readN s.mem a q.n))) ∧
           (t.slotAt p j).pendC = none ∧ (t.home h).queue = (s.home h).queue.del id)) ∧
       (∀ op v e, q.acc = .red op v → op ≠ .sadd → q.entries = [(p, e)] → q.n ∈ [4, 8] → Calm s p →
         ∃ t, exec i s = .next t ∧ (Misses s t i h id q ∨
           MemoryHolds s t a q.n
             (redNew op q.n (ofBytes (Memory.readN s.mem a q.n)) (v.toNat % 2 ^ (8 * q.n))) ∧
           (t.home h).queue = (s.home h).queue.del id ∧ (t.core p).slots = (s.core p).slots))) ∧
  (∀ (s : State) (h id : Nat) (q : Req) (a n p : Nat) (j : Fin 16),
     h < 1536 → (s.home h).queue.get id = some q → s.curHpa q = a → q.n = n → Memory.wf s.mem = true →
     s.poisoned a n = false →
       (q.line = none → q.moving = none → State.homeOf a = h → n ∈ [4, 8] → a % n = 0 → s.mayServe h id q = true →
         a / 64 ∉ (s.home h).mshr → (∀ k, k ≠ h → (s.home k).sat = []) →
         (∀ v e, q.acc = .red .sadd v → q.entries = [(p, e)] → Calm s p →
           ((s.home h).sat = [] →
             ∃ t, exec (.homeSliceRequest h id) s = .next t ∧
               (t = { s.updHome h fun x => { x with mshr := a / 64 :: x.mshr } with tick := s.tick + 1 } ∨
                 (64 ≤ (s.home h).mshr.length ∧ t = { s with tick := s.tick + 1 }) ∨
                 (t.home h).sat = [(a, n, (BitVec.ofNat (8 * n) (ofBytes (Memory.readN s.mem a n))).toInt +
                   (v.setWidth (8 * n)).toInt)] ∧
                 t.mem = s.mem ∧ (t.home h).queue = (s.home h).queue.del id ∧
                 (t.core p).buffer = (s.core p).buffer.filter (fun x => x.id ≠ e))) ∧
           (∀ x, (s.home h).sat = [(a, n, x)] →
             ∃ t, exec (.homeSliceRequest h id) s = .next t ∧
               (t.home h).sat = [(a, n, x + (v.setWidth (8 * n)).toInt)] ∧
               t.mem = s.mem ∧ (t.home h).queue = (s.home h).queue.del id ∧
               (t.core p).buffer = (s.core p).buffer.filter (fun x => x.id ≠ e))) ∧
         (∀ x, q.acc = .load false → (s.home h).sat = [(a, n, x)] → s.findToken q.token = some (p, j, false) →
           (s.core q.pos).buffer = [] →
             ∃ t, exec (.homeSliceRequest h id) s = .next t ∧ (t.home h).sat = [] ∧
               (BitVec.ofNat (8 * n) (ofBytes (Memory.readN t.mem a n))).toInt =
                 max (-(2 : Int) ^ (8 * n - 1)) (min (2 ^ (8 * n - 1) - 1) x) ∧
               (∀ b, ¬(a ≤ b ∧ b < a + n) → Memory.read t.mem b = Memory.read s.mem b) ∧
               (q.rd ≠ 0 → ((t.slotAt p j).regs.g.get q.rd).setWidth (8 * n) =
                 BitVec.ofNat (8 * n) (ofBytes (Memory.readN t.mem a n))) ∧
               (t.slotAt p j).pendC = none ∧ (t.home h).queue = (s.home h).queue.del id)) ∧
       (q.line = none → q.moving = none → State.homeOf a = h → s.arrives h q = true →
         ∀ v e f F, q.acc = .red .fadd v → q.entries = [(p, e)] → s.fuseWith h id q ≠ [] →
           (f, F) ∈ [(4, f32), (8, f64)] → f = n →
             ∃ t, exec (.homeSliceRequest h id) s = .next t ∧
               (Config.bit s.tick = true →
                 ∃ i r w y, (i, r, w) ∈ s.fuseWith h id q ∧ i ≠ id ∧ (i, r) ∈ (s.home h).queue ∧
                   r.acc = .red .fadd w ∧ s.curHpa r = a ∧ r.n = n ∧ (t.home h).queue.get i = none ∧
                   (t.home h).queue.get id = some y ∧ y.entries = q.entries ++ r.entries ∧
                   y.acc = .red .fadd (BitVec.ofNat 64 (F.round .rne false
                     ((F.value (v.toNat % 2 ^ (8 * n))).add .rne (F.value (w.toNat % 2 ^ (8 * n)))))) ∧
                   t.mem = s.mem ∧ t.cores = s.cores) ∧
               (s.mayServe h id q = true → a / 64 ∉ (s.home h).mshr → Calm s p → (∀ k, (s.home k).sat = []) →
                 a % 64 + n ≤ 64 → Config.bit s.tick = false → Config.bit (s.tick + 1) = false →
                   MemoryHolds s t a n (F.round .rne false
                     ((F.value (ofBytes (Memory.readN s.mem a n))).add .rne (F.value (v.toNat % 2 ^ (8 * n))))) ∧
                   (t.home h).queue = (s.home h).queue.del id)) ∧
       (q.acc = .load true → a % 64 + n ≤ 64 → q.moving = none → (s.core q.pos).buffer = [] →
         (q.line = none → s.mergeFrom h id q = none → s.mayServe h id q = true → a / 64 ∉ (s.home h).mshr →
           (∀ k, (s.home k).sat = []) →
             ∃ t, exec (.homeSliceRequest h id) s = .next t ∧ t.mem = s.mem ∧ t.cores = s.cores ∧
               (Config.bit s.tick = false → ∃ y, (t.home h).queue.get id = some y ∧
                 y.line = some (Memory.readN s.mem (a / 64 * 64) 64) ∧ y.got = Memory.readN s.mem a n)) ∧
         (∀ l, s.mergeFrom h id q = some l → s.arrives h q = true →
           (∃ i r, i < id ∧ (i, r) ∈ (s.home h).queue ∧ r.line = some l ∧ s.curHpa r / 64 = a / 64) ∧
             ∃ t, exec (.homeSliceRequest h id) s = .next t ∧
               (Config.bit s.tick = true → t.mem = s.mem ∧ t.cores = s.cores ∧
                 ∃ y, (t.home h).queue.get id = some y ∧ y.line = some l ∧
                   ∀ i < n, y.got.getD i 0 = l.getD (a % 64 + i) 0)) ∧
         (∀ l, q.line = some l → s.arrives h q = true → s.findToken q.token = some (p, j, false) →
           q.got.length = n → 0 < n → n ≤ 8 →
             ∃ t, exec (.homeSliceRequest h id) s = .next t ∧ t.mem = s.mem ∧
               (t.home h).queue = (s.home h).queue.del id ∧ (t.slotAt p j).pendC = none ∧
               (q.rd ≠ 0 → ∀ i < 64, ((t.slotAt p j).regs.g.get q.rd).getLsbD i =
                 if i < 8 * n then (q.got.getD (i / 8) 0).getLsbD (i % 8)
                 else q.sx && (q.got.getD (n - 1) 0).getLsbD 7))))

/-- R199 and R200: a returning atomic that passes its tests enters the buffer with gb and, for ACAS, gd as read at
issue, and its half waits for the reply; one whose element lies in the host window traps OBJ_PERM.
R191 and R200: what each atomic leaves of two n-byte words; minima and maxima are signed, unsigned or by the
total order of R85. -/
def Obligations.Atomics : Prop :=
  (∀ (s : State) (rd ra rb : Reg) (z : ASize) (n : Nat) (i : Instr) (op : AtomOp) (r : Rec) (a : Nat),
     (z, n) ∈ [(ASize.d, 8), (.w, 4)] → (i, op) ∈ atomics rd ra rb z → s.cur.isA = false →
     Reaches s (s.g ra) (bits (s.g ra) 39 0 : Int) n Rec.permA r a →
       (State.inWindow a = false → (s.core s.cur.pos).buffer.length < 32 → s.poisoned a n = false →
         ∃ t, exec i s = .next t ∧ Buffered s t a n (.atomic op (s.g rb) (s.g rd)) ∧
           t.me.pendC = some ⟨i, 2, [], .token s.fresh⟩) ∧
       (State.inWindow a = true → exec i s = .next (s.trap .objPerm (s.g ra)))) ∧
  (∀ (n o v x : Nat) (O V : BitVec (8 * n)),
     n ∈ [4, 8] → o < 2 ^ (8 * n) → v < 2 ^ (8 * n) → x < 2 ^ (8 * n) → O = BitVec.ofNat (8 * n) o →
     V = BitVec.ofNat (8 * n) v →
       atomNew .add n o v x = (O + V).toNat ∧ atomNew .incb n o v x = (if o < v then o + 1 else o) ∧
       (BitVec.ofNat (8 * n) (atomNew .min n o v x)).toInt = min O.toInt V.toInt ∧
       (BitVec.ofNat (8 * n) (atomNew .max n o v x)).toInt = max O.toInt V.toInt ∧
       atomNew .minu n o v x = min o v ∧ atomNew .maxu n o v x = max o v ∧
       totalKey (8 * n) (atomNew .tmin n o v x) = min (totalKey (8 * n) o) (totalKey (8 * n) v) ∧
       totalKey (8 * n) (atomNew .tmax n o v x) = max (totalKey (8 * n) o) (totalKey (8 * n) v) ∧
       atomNew .and n o v x = (O &&& V).toNat ∧ atomNew .or n o v x = (O ||| V).toNat ∧
       atomNew .xor n o v x = (O ^^^ V).toNat ∧ atomNew .swap n o v x = v ∧
       atomNew .cas n o v x = (if o = x then v else o) ∧
       redNew .add n o v = (O + V).toNat ∧ (BitVec.ofNat (8 * n) (redNew .min n o v)).toInt = min O.toInt V.toInt ∧
       (BitVec.ofNat (8 * n) (redNew .max n o v)).toInt = max O.toInt V.toInt ∧
       (BitVec.ofNat (8 * n) (redNew .sadd n o v)).toInt =
         max (-2 ^ (8 * n - 1)) (min (2 ^ (8 * n - 1) - 1) (O.toInt + V.toInt)))

/-- R123, R171, R186 and R195: a missing code line arrives, in a cache of 256 lines (the model's choice, log entry 75), and
the thread may issue from the next cycle; a wanted
record arrives and is kept for the bundle that issues again; a line of a home arrives and its miss register is
free; a slice group echoes a probe, which the release waits for no more.
R173-R176: a granule that is not resident takes its bytes and RES is set in its bitmap byte, GEN kept; a
missing mapping is installed, its miss no longer reported, and one that stands is kept (a frame that does not exist is a
fault, the model's choice, log entry 74); any acknowledgement of a record cache, a cluster's or a die's,
removes the record from that cache, and the last one ends the wait. -/
def Obligations.FillsFetchesAndMappings : Prop :=
  (∀ (s : State) (p : Nat) (j : Fin 16),
     (∀ l, (s.slotAt p j).fetch = some l → s.lineReaches p (s.slotAt p j).regs.pc = true →
       ∃ t, exec (.icacheFill p j.val) s = .next t ∧ (t.core p).icache.contains l = true ∧
         (t.core p).icache.length ≤ 256 ∧ (t.slotAt p j).fetch = none ∧
         (t.slotAt p j).ready = max (s.slotAt p j).ready (s.time + 1) ∧
         (t.slotAt p j).regs = (s.slotAt p j).regs ∧ t.mem = s.mem) ∧
     (∀ tb o r, (s.slotAt p j).want = some (tb, o) →
       (s.die (dieOf p)).records.find? (fun x => x.tbase == tb && x.obj == o) = none →
       s.fromHome p tb o = some r → (∀ k, (s.home k).sat = []) →
         ∃ t, exec (.recordFetch p j.val) s = .next t ∧ (t.slotAt p j).want = none ∧
           (t.slotAt p j).fetched = (s.slotAt p j).fetched ++ [(tb, o, r)] ∧
           (t.slotAt p j).regs = (s.slotAt p j).regs ∧ t.mem = s.mem) ∧
     (∀ h l, (s.home h).mshr.contains l = true → s.linked h l = [] → (h < 1536 → s.dieRuns (h / 192) = true) →
       ∃ t, exec (.l2MissFill h l) s = .next t ∧ (t.home h).mshr.contains l = false ∧
         (t.home h).queue = (s.home h).queue ∧ t.mem = s.mem ∧ t.cores = s.cores) ∧
     (∀ g q es ps sys, s.probeBlocked p g = false → s.joined (dieOf p) (g / 64) = true → s.dieRuns (g / 64) = true →
       (s.slotAt p j).pendC = some q → q.wait = .release es ps sys →
         ∃ t, exec (.probeEcho p j.val g) s = .next t ∧
           (t.slotAt p j).pendC = some { q with wait := .release es (ps.filter fun x => x != g) sys } ∧
           (t.slotAt p j).regs = (s.slotAt p j).regs ∧ t.mem = s.mem)) ∧
  (∀ (s : State) (b g f h cache key : Nat) (data : List Host.Cell) (w : AckWait) (p : Nat) (j : Fin 16),
     ((∀ k, (s.home k).sat = []) → Memory.wf s.mem = true → (Memory.read s.mem b).toNat < 128 →
       (data.map fun d => d.1).Nodup → b ∉ data.map (fun d => d.1) →
       ∃ t, exec (.residencyFillRelease b data) s = .next t ∧
         (Memory.read t.mem b).toNat = (Memory.read s.mem b).toNat + 128 ∧
         (∀ d ∈ data, Memory.read t.mem d.1 = d.2) ∧
         (∀ a, a ≠ b → a ∉ data.map (fun d => d.1) → Memory.read t.mem a = Memory.read s.mem a) ∧
         (∀ x ∈ t.fills, t.fillByte x ≠ some b) ∧ t.cores = s.cores) ∧
     (g < 2 ^ 32 → State.hpaOk (f * 2 ^ 16) = true → s.stage2.get g = none →
       ∃ t, exec (.secondStageMapping g f) s = .next t ∧ t.stage2.get g = some f ∧ g ∉ t.misses ∧
         (∀ k, k ≠ g → t.stage2.get k = s.stage2.get k) ∧ t.mem = s.mem ∧ t.cores = s.cores) ∧
     (g < 2 ^ 32 → State.hpaOk (f * 2 ^ 16) = true → s.stage2.get g = some h →
       exec (.secondStageMapping g f) s = .next s) ∧
     (2 ^ 32 ≤ g ∨ State.hpaOk (f * 2 ^ 16) = false →
       exec (.secondStageMapping g f) s = .fault .noSuchAddress) ∧
     (s.acks.get key = some w → w.left.contains cache = true → s.accessPending cache w = false →
       s.cacheJoins cache w = true →
         ∃ t, exec (.recordCacheAcknowledgement cache key) s = .next t ∧
           (if cache < 512 then (t.cluster cache).records else (t.die (cache - 512)).records).find?
             (fun x => x.tbase == w.tbase && x.obj == w.obj) = none ∧ t.mem = s.mem ∧
           (w.left.filter (fun c => c != cache) ≠ [] →
             (t.acks.get key).map (fun x => x.left) = some (w.left.filter fun c => c != cache) ∧
             ∀ q k, (s.slotAt q k).quiet = false → t.slotAt q k = s.slotAt q k) ∧
           (w.left.filter (fun c => c != cache) = [] → t.acks.get key = none ∧
             (s.findToken key = some (p, j, false) → (t.slotAt p j).pendC = none ∧
               (t.slotAt p j).regs = (s.slotAt p j).regs))))

/-- R187, R355 and R361: the window agent performs the host's accesses to memory and the core's loads of the window, and
a write's acknowledgement ends its wait; the host's write to a device address changes exactly its bytes, its read, with
no accumulator open, changes nothing, and an access to a die whose clocks are stopped has no effect until it runs, and an address that does not exist faults (the
model's choices, log entry 74).
R359: a line arrives with its CRC-32C over its bytes and the six bytes of its address: where the check agrees, the
line's failures are forgotten, and with no bit turned nothing else changes; where it does not, the failure counts, and
the fourth in a row, here with no host queue to report to, poisons the line; no byte changes then. -/
def Obligations.HostAccessesAndChecks : Prop :=
  (∀ (s : State) (port id hpa len : Nat) (bs : List Byte) (q : Req) (p : Nat) (j : Fin 16) (x : Item) (tid : Tid),
     (0 < len → len = bs.length → State.hpaOk hpa = true → State.hpaOk (hpa + len - 1) = true →
       (∀ k, (s.home k).sat = []) → Memory.wf s.mem = true → s.hostLands hpa len = true →
         ∃ t, exec (.hostMemoryAccess hpa len (some bs)) s = .next t ∧ MemoryHolds s t hpa len (ofBytes bs) ∧
           t.cores = s.cores) ∧
     (State.hpaOk hpa = true → State.hpaOk (hpa + len - 1) = true → (∀ k, (s.home k).sat = []) →
       exec (.hostMemoryAccess hpa len none) s = .next s) ∧
     (∀ w d, hpa / 2 ^ 47 % 2 = 0 → hpa / 2 ^ 40 % 8 = d → State.hpaOk hpa = true → State.hpaOk (hpa + len - 1) = true →
       s.dieRuns d = false → exec (.hostMemoryAccess hpa len w) s = .next s) ∧
     (State.hpaOk hpa = false ∨ State.hpaOk (hpa + len - 1) = false → ∀ w,
       exec (.hostMemoryAccess hpa len w) s = .fault .noSuchAddress) ∧
     ((s.home (1536 + port)).queue.get id = some q → s.mayServe (1536 + port) id q = true → q.acc = .load false →
       (∀ k, (s.home k).sat = []) → s.poisoned (s.curHpa q) q.n = false → (s.core q.pos).buffer = [] →
       s.findToken q.token = some (p, j, false) → 0 < q.n → q.n ≤ 8 →
         ∃ t, exec (.hostWindowResponse port id) s = .next t ∧ t.mem = s.mem ∧ (t.slotAt p j).pendC = none ∧
           (q.rd ≠ 0 → ∀ i < 64, ((t.slotAt p j).regs.g.get q.rd).getLsbD i =
             if i < 8 * q.n then (Memory.read s.mem (s.curHpa q + i / 8)).getLsbD (i % 8)
             else q.sx && (Memory.read s.mem (s.curHpa q + q.n - 1)).getLsbD 7) ∧
           (∀ r, r ≠ q.rd → (t.slotAt p j).regs.g.get r = (s.slotAt p j).regs.g.get r)) ∧
     ((s.home (1536 + port)).queue.get id = none → s.net.get id = some x → x.load = .hostAck tid →
       s.findThread tid = some (p, j) →
         ∃ t, exec (.hostWindowResponse port id) s = .next t ∧ t.net = s.net.del id ∧
           (t.slotAt p j).unacked = (s.slotAt p j).unacked.filter (fun k => k != id) ∧
           (t.slotAt p j).regs = (s.slotAt p j).regs ∧ t.mem = s.mem)) ∧
  (∀ (s : State) (hpa bad n a : Nat) (bs got addr : List Byte) (x : BitVec 32), State.hpaOk hpa = true →
     a = hpa / 64 * 64 → bs = Memory.readN s.mem a 64 → got.length = 64 → addr = toBytes 6 a →
     bad = ofBytes ((bs.zip got).map fun y => y.1 ^^^ y.2) + x.toNat * 2 ^ 512 →
       (∃ t, exec (.lineCheck hpa 0) s = .next t ∧ t = { s with checks := s.checks.del (hpa / 64) }) ∧
       (crcOf (got ++ addr) = crcOf (bs ++ addr) ^^^ x →
         ∃ t, exec (.lineCheck hpa bad) s = .next t ∧ t.checks = s.checks.del (hpa / 64)) ∧
       (crcOf (got ++ addr) ≠ crcOf (bs ++ addr) ^^^ x →
         ((s.checks.get (hpa / 64)).getD 0 = n → n < 3 →
           ∃ t, exec (.lineCheck hpa bad) s = .next t ∧ t.checks.get (hpa / 64) = some (n + 1) ∧ t.mem = s.mem ∧
             t.poison = s.poison) ∧
         (3 ≤ (s.checks.get (hpa / 64)).getD 0 → s.partQueues = [] →
           ∃ t, exec (.lineCheck hpa bad) s = .next t ∧ t.checks.get (hpa / 64) = none ∧
             t.poison.contains (hpa / 64) = true ∧
             (∀ l, l ≠ hpa / 64 → t.poison.contains l = s.poison.contains l) ∧ t.mem = s.mem)))

/-! ### Messages, migration and posted stores (R270-R286) -/

/-- R271 and R272: CONT with a destination register forms the continuation word of register n of the thread:
vcore, thread number, n and generation; with destination g0 it sets BOUNCE to n; either way n's await mark is
clear.
R273: a message to a vcore of the partition with nothing for its release to wait for enters the network with
its payload, unacknowledged, and the thread of SEND goes on while that of SENDW waits; bits [39:36] set trap
ILLEGAL and a vcore outside the partition UNDELIVERABLE. -/
def Obligations.MessagesLeave : Prop :=
  (∀ (s : State) (rd n : Reg), s.me.tid.vc < 2 ^ 36 →
     ∃ t, exec (.cont rd n) s = .next t ∧
       (rd ≠ 0 → ∃ w : Word, t.me.regs.g.get rd = w ∧ bits w 35 0 = s.me.tid.vc ∧ bits w 39 36 = 0 ∧
         bits w 43 40 = s.me.tid.tnum.val ∧ bits w 47 44 = n.val ∧ bits w 63 48 = s.me.tid.gen.toNat ∧
         t.me.bounce = s.me.bounce) ∧
       (rd = 0 → t.me.bounce = n ∧ t.me.regs.g = s.me.regs.g) ∧
       (∀ r, r ≠ rd → t.me.regs.g.get r = s.me.regs.g.get r) ∧
       (∀ i, t.me.regs.tsw.getLsbD i = (s.me.regs.tsw.getLsbD i && decide (n = 0 ∨ i ≠ 10 + n.val))) ∧ t.mem = s.mem) ∧
  (∀ (s : State) (ra rb : Reg), s.cur.phase = 0 → s.cur.isA = false →
     (bits (s.g ra) 39 36 = 0 → s.inPart (bits (s.g ra) 35 0) = true → NothingPending s →
       (∃ t x, exec (.send ra rb) s = .next t ∧ t.net.get s.fresh = some x ∧
         x.load = .message (s.g ra) (s.g rb) s.me.tid none ∧ t.me.unacked = [s.fresh] ∧
         t.me.regs.g = s.me.regs.g ∧ t.me.pendC = s.me.pendC ∧ t.mem = s.mem) ∧
       (∃ t x, exec (.sendw ra rb) s = .next t ∧ t.net.get (s.fresh + 1) = some x ∧
         x.load = .message (s.g ra) (s.g rb) s.me.tid (some s.fresh) ∧ t.me.regs.g = s.me.regs.g ∧
         t.me.pendC = some ⟨.sendw ra rb, 2, [], .token s.fresh⟩ ∧ t.mem = s.mem)) ∧
     (bits (s.g ra) 39 36 ≠ 0 →
       exec (.send ra rb) s = .next (s.trap .illegal (s.g ra)) ∧
       exec (.sendw ra rb) s = .next (s.trap .illegal (s.g ra))) ∧
     (bits (s.g ra) 39 36 = 0 → s.inPart (bits (s.g ra) 35 0) = false →
       exec (.send ra rb) s = .next (s.trap .undeliverable (s.g ra)) ∧
       exec (.sendw ra rb) s = .next (s.trap .undeliverable (s.g ra))))

/-- R128, R273-R275, R278: a message of SEND or SENDW, its acknowledgement and its return take their way to a thread hop by
hop, and wait at a core that holds them (that one step is one hop is the model's choice, log entry 37).  A message at its
thread's core writes the named register, g0 keeping its value, and sets its mark, but for one that a CONT has named in this
cycle, or ends the AWAIT that waits for it, and becomes an acknowledgement, SENDW's too; one whose thread has
ended becomes a return; the acknowledgement ends SENDW's wait; a return reaches the register that BOUNCE names, with its
await mark, or raises UNDELIVERABLE where BOUNCE is 0, and ends SENDW's wait with it. -/
def Obligations.MessagesArrive : Prop :=
  ∀ (s : State) (id : Nat) (x : Item) (d pay : Word) (src : Tid) (p : Nat) (j : Fin 16),
    s.net.get id = some x → s.travels x = true → pkgOf (bits d 35 0) = s.pkg →
      (∀ (i : Instr) (t : Tid) (q : Nat),
        (i = .messageDelivery id ∧ (∃ w, x.load = .message d pay src w) ∧ t = contTid d) ∨
          (i = .messageAcknowledgement id ∧ (∃ w, x.load = .delivered src w) ∧ t = src) ∨
          (i = .messageReturn id ∧ (∃ w, x.load = .returned d src w) ∧ t = src) →
          (s.threadHop t x.dst = .next q →
            exec i s = .next { s with net := s.net.put id { x with dst := q, die := dieOf x.dst } }) ∧
          (s.threadHop t x.dst = .wait → exec i s = .next s)) ∧
      (∀ w, x.load = .message d pay src w → s.threadHop (contTid d) x.dst = .here →
        s.whereIs (contTid d) = .slot p j → (s.slotAt p j).pair = none → contReg d ≠ 0 →
          ∃ t y, exec (.messageDelivery id) s = .next t ∧ (t.slotAt p j).regs.g.get (contReg d) = pay ∧
            (∀ r, r ≠ contReg d → (t.slotAt p j).regs.g.get r = (s.slotAt p j).regs.g.get r) ∧
            (∀ q, (s.slotAt p j).pendC = some q → q.wait = .await (contReg d) →
              (t.slotAt p j).pendC = none ∧
                (t.slotAt p j).regs.tsw.getLsbD (10 + (contReg d).val) = false) ∧
            ((s.slotAt p j).pendC = none →
              (t.slotAt p j).regs.tsw.getLsbD (10 + (contReg d).val) =
                decide ((s.slotAt p j).cont ≠ some (contReg d, s.time))) ∧
            t.net.get id = some y ∧ y.load = .delivered src w ∧ t.mem = s.mem) ∧
      (∀ w, x.load = .message d pay src w → s.threadHop (contTid d) x.dst = .here →
        s.whereIs (contTid d) = .slot p j → (s.slotAt p j).pair = none → contReg d = 0 →
          ∃ t y, exec (.messageDelivery id) s = .next t ∧ t.slotAt p j = s.slotAt p j ∧
            t.net.get id = some y ∧ y.load = .delivered src w ∧ t.mem = s.mem) ∧
      (∀ w, x.load = .message d pay src w → s.threadHop (contTid d) x.dst = .exited →
        ∃ t y, exec (.messageDelivery id) s = .next t ∧ t.net.get id = some y ∧
          y.load = .returned d src w ∧ t.cores = s.cores ∧ t.mem = s.mem) ∧
      (x.load = .delivered src none → s.threadHop src x.dst = .here → s.whereIs src = .slot p j →
        ∃ t, exec (.messageAcknowledgement id) s = .next t ∧ t.net = s.net.del id ∧
          (t.slotAt p j).unacked = (s.slotAt p j).unacked.filter (fun k => k != id) ∧
          (t.slotAt p j).regs = (s.slotAt p j).regs ∧ t.mem = s.mem) ∧
      (∀ k q, x.load = .delivered src (some k) → s.threadHop src x.dst = .here → s.whereIs src = .slot p j →
        s.findToken k = some (p, j, false) → (s.slotAt p j).pendC = some q → q.wait = .token k →
          ∃ t, exec (.messageAcknowledgement id) s = .next t ∧ t.net = s.net.del id ∧ (t.slotAt p j).pendC = none ∧
            (t.slotAt p j).ready = max (s.slotAt p j).ready (s.time + 1) ∧
            (t.slotAt p j).unacked = (s.slotAt p j).unacked.filter (fun k => k != id) ∧
            (t.slotAt p j).regs = (s.slotAt p j).regs ∧ t.mem = s.mem) ∧
      (x.load = .returned d src none → s.threadHop src x.dst = .here → s.whereIs src = .slot p j →
        (s.slotAt p j).bounce ≠ 0 →
        ∃ t, exec (.messageReturn id) s = .next t ∧ t.net = s.net.del id ∧
          (t.slotAt p j).regs.g.get (s.slotAt p j).bounce = d ∧
          ((s.slotAt p j).pendC = none → (s.slotAt p j).pair = none →
            (t.slotAt p j).regs.tsw.getLsbD (10 + (s.slotAt p j).bounce.val) =
              decide ((s.slotAt p j).cont ≠ some ((s.slotAt p j).bounce, s.time))) ∧ t.mem = s.mem) ∧
      (x.load = .returned d src none → s.threadHop src x.dst = .here → s.whereIs src = .slot p j →
        (s.slotAt p j).bounce = 0 → (s.slotAt p j).events = [] →
        ∃ t, exec (.messageReturn id) s = .next t ∧ t.net = s.net.del id ∧
          (t.slotAt p j).events = [⟨.undeliverable, d⟩] ∧ (t.slotAt p j).regs.g = (s.slotAt p j).regs.g ∧
          t.mem = s.mem) ∧
      (∀ k q, x.load = .returned d src (some k) → s.threadHop src x.dst = .here → s.whereIs src = .slot p j →
        s.findToken k = some (p, j, false) → (s.slotAt p j).pendC = some q → q.wait = .token k →
        (s.slotAt p j).events = [] →
          ∃ t, exec (.messageReturn id) s = .next t ∧ t.net = s.net.del id ∧ (t.slotAt p j).pendC = none ∧
            (t.slotAt p j).events = [⟨.undeliverable, d⟩] ∧ (t.slotAt p j).regs.g = (s.slotAt p j).regs.g ∧
            t.mem = s.mem)

/-- R157, R259, R280, R324, R325 and R342: MIGR and HOME to another vcore of the package leave: the half waits for every
store of its core's buffer, those of the other threads too, which R157 and R195 do not name one by one (log entry 107),
and for its probes; HOME at home and MIGR to the occupied vcore have no effect; in
slot 15, in supervisor mode or in a redundant pair they trap LOCAL_RANGE.  MIGR of a word with a bit above the vcore set
traps ILLEGAL, and to another package UNDELIVERABLE.
R27, R80, R155, R208, R278, R280, R282 and R307: an arriving thread with no guest queued takes the lowest empty
slot, with its general and shadow registers and its BANKM, the vcore's segment and record table, VL 32, RMODE 0, SWQ
2048 and the guest bit by whether it is at home; for an exited vcore it goes home with UNDELIVERABLE. -/
def Obligations.Migration : Prop :=
  (∀ (s : State) (ra : Reg) (v : Nat), v = bits (s.g ra) 35 0 → s.cur.isA = false →
     (bits (s.g ra) 63 36 ≠ 0 → exec (.migr ra) s = .next (s.trap .illegal (s.g ra))) ∧
     (bits (s.g ra) 63 36 = 0 →
       (v / 2 ^ 16 ≠ s.pkg → exec (.migr ra) s = .next (s.trap .undeliverable (s.g ra))) ∧
       (v / 2 ^ 16 = s.pkg →
         (v = s.me.occ → exec (.migr ra) s = .next s) ∧
         (v ≠ s.me.occ →
           (s.cur.slot = 15 ∨ s.sup = true ∨ s.me.pair.isSome = true →
             exec (.migr ra) s = .next (s.trap .localRange (s.g ra))) ∧
           (s.cur.slot ≠ 15 → s.sup = false → s.me.pair = none → (∀ k, s.me.life ≠ .helper k) →
             ∃ t es ps, exec (.migr ra) s = .next t ∧ t.me.pendC = some ⟨.migr ra, 0, [], .depart es ps v⟩ ∧
               (∀ e ∈ (s.core s.cur.pos).buffer, e.id ∈ es) ∧ t.me.regs = s.me.regs ∧
               t.mem = s.mem)))) ∧
     (s.me.occ = s.me.tid.vc → exec .home s = .next s) ∧
     (s.me.occ ≠ s.me.tid.vc →
       (s.cur.slot = 15 ∨ s.sup = true ∨ s.me.pair.isSome = true →
         exec .home s = .next (s.trap .localRange (BitVec.ofNat 64 s.me.tid.vc))) ∧
       (s.me.tid.vc / 2 ^ 16 = s.pkg → s.cur.slot ≠ 15 → s.sup = false →
         s.me.pair = none → (∀ k, s.me.life ≠ .helper k) →
           ∃ t es ps, exec .home s = .next t ∧ t.me.pendC = some ⟨.home, 0, [], .depart es ps s.me.tid.vc⟩ ∧
             (∀ e ∈ (s.core s.cur.pos).buffer, e.id ∈ es) ∧ t.me.regs = s.me.regs ∧ t.mem = s.mem))) ∧
  (∀ (s : State) (id : Nat) (x : Item) (ctx : Slot) (v l : Nat) (j : Fin 16),
     s.net.get id = some x → x.load = .thread ctx v l → s.travels x = true →
       (s.hop v x.dst = .here → (s.core x.dst).guests = [] → s.frozen x.dst = false → State.dualWaits (s.core x.dst) = false →
         State.lowestEmpty (s.core x.dst) = some j →
           ∃ t, exec (.migrationArrival id) s = .next t ∧ (t.slotAt x.dst j).busy = true ∧
             (t.slotAt x.dst j).tid = ctx.tid ∧ (t.slotAt x.dst j).occ = v ∧
             (t.slotAt x.dst j).regs.g = ctx.regs.g ∧ (t.slotAt x.dst j).regs.ts = ctx.regs.ts ∧
             (t.slotAt x.dst j).regs.pc = ctx.regs.pc ∧ (t.slotAt x.dst j).regs.vl = 32 ∧
             (t.slotAt x.dst j).regs.rmode = 0 ∧ (t.slotAt x.dst j).regs.swq = 2048 ∧
             (t.slotAt x.dst j).regs.bankm = ctx.regs.bankm ∧ (t.slotAt x.dst j).regs.ortb = (s.vcore v).ortb ∧
             (t.slotAt x.dst j).regs.tvec = (s.vcore v).tvec ∧
             (t.slotAt x.dst j).regs.tsw.getLsbD 9 = decide (v ≠ ctx.tid.vc) ∧
             (t.slotAt x.dst j).ready = max ctx.ready (s.time + 1) ∧ t.net = s.net.del id ∧ t.mem = s.mem) ∧
       (s.hop v x.dst = .exited → v ≠ ctx.tid.vc → ctx.events = [] →
         ∃ t y z, exec (.migrationFailure id) s = .next t ∧ t.net.get id = some y ∧
           y.load = .thread z ctx.tid.vc l ∧ z.events = [⟨.undeliverable, BitVec.ofNat 64 v⟩] ∧ z.pendC = none ∧
           z.regs = ctx.regs ∧ t.cores = s.cores ∧ t.mem = s.mem))

/-- R283 and R284: RST to a vcore of the partition takes the lowest free journal entry and enters the buffer;
at the owning core it writes its bytes in the occupied segment and is acknowledged, or is refused LOCAL_RANGE
beyond the limit; an acknowledgement frees the entry, a refusal marks it and raises REMOTE_REFUSED; JRNL reads
the entry and frees one that is refused when asked.
R278: a forwarding entry lapses when its time has come and its hold is over; the others stay. -/
def Obligations.PostedStores : Prop :=
  (∀ (s : State) (ra rb rd : Reg) (z : Size) (n : Nat) (e : Fin 16) (id : Nat) (x : Item) (src : Tid) (w : Word)
     (je : JEntry) (p : Nat) (j : Fin 16) (c : Cause),
     (z, n) ∈ [(Size.b, 1), (.h, 2), (.w, 4), (.d, 8)] →
       (s.cur.phase = 0 → (s.g ra).toNat % n = 0 → (remoteAddr (s.g ra)).isSome = true →
         s.inPart (bits (s.g ra) 59 24) = true → State.freeEntry s.me = some e →
         (s.core s.cur.pos).buffer.length < 32 →
           ∃ t b, exec (.rst ra rb z) s = .next t ∧ (t.core s.cur.pos).buffer = (s.core s.cur.pos).buffer ++ [b] ∧
             b.op = .rst e (s.g ra) n (s.g rb) ∧ b.tid = s.me.tid ∧
             (t.me.journal.get e).map (fun y => (y.addr, y.cause)) = some (s.g ra, none) ∧
             (∀ i, i ≠ e → t.me.journal.get i = s.me.journal.get i) ∧ t.me.regs = s.me.regs ∧ t.mem = s.mem) ∧
       ((s.g ra).toNat % n ≠ 0 → s.cur.phase = 0 → exec (.rst ra rb z) s = .next (s.trap .align (s.g ra))) ∧
       (s.net.get id = some x → s.travels x = true → x.load = .rst src e w n (s.g rb) →
         pkgOf (bits w 59 24) = s.pkg → s.hop (bits w 59 24) x.dst = .here →
         (segLimit (s.keptSeg (bits w 59 24)) < bits w 17 0 + n →
           ∃ t y, exec (.rstArrival id) s = .next t ∧ t.net.get id = some y ∧
             y.load = .rstAck src e (some .localRange) ∧ t.cores = s.cores ∧ t.mem = s.mem) ∧
         (bits w 17 0 + n ≤ segLimit (s.keptSeg (bits w 59 24)) → (s.core x.dst).buffer.length < 32 →
           s.bankOpen x.dst = true → Memory.wf (s.core x.dst).spad = true →
           ∃ t y, exec (.rstArrival id) s = .next t ∧ t.net.get id = some y ∧ y.load = .rstAck src e none ∧
             (∀ i < n, Memory.read (t.core x.dst).spad
                 (segBase (s.keptSeg (bits w 59 24)) + bits w 17 0 + i) = (s.g rb).extractLsb' (8 * i) 8) ∧
             (∀ a, ¬(segBase (s.keptSeg (bits w 59 24)) + bits w 17 0 ≤ a ∧
                 a < segBase (s.keptSeg (bits w 59 24)) + bits w 17 0 + n) →
               Memory.read (t.core x.dst).spad a = Memory.read (s.core x.dst).spad a) ∧ t.mem = s.mem)) ∧
       (s.net.get id = some x → s.travels x = true → s.threadHop src x.dst = .here → s.whereIs src = .slot p j →
         (x.load = .rstAck src e none →
           ∃ t, exec (.rstAcknowledgement id) s = .next t ∧ (t.slotAt p j).journal.get e = none ∧
             t.net = s.net.del id ∧ (t.slotAt p j).regs = (s.slotAt p j).regs) ∧
         (x.load = .rstAck src e (some c) → (s.slotAt p j).journal.get e = some je →
           (s.slotAt p j).events = [] → (s.slotAt p j).pendC = none →
           ∃ t, exec (.rstAcknowledgement id) s = .next t ∧
             (t.slotAt p j).journal.get e = some { je with cause := some c } ∧
             (t.slotAt p j).events = [⟨.remoteRefused, BitVec.ofNat 64 e.val⟩])) ∧
       (bits (s.g ra) 63 6 = 0 → e.val = bits (s.g ra) 3 0 → s.me.journal.get e = some je →
         ∃ t, exec (.jrnl rd ra) s = .next t ∧
           (rd ≠ 0 → bit (s.g ra) 4 = false → t.me.regs.g.get rd = je.addr) ∧
           (rd ≠ 0 → bit (s.g ra) 4 = true → (t.me.regs.g.get rd).getLsbD 63 = true ∧
             (t.me.regs.g.get rd).getLsbD 62 = je.cause.isSome ∧
             (∀ c, je.cause = some c → bits (t.me.regs.g.get rd) 15 8 = c.code)) ∧
           t.me.journal.get e = if bit (s.g ra) 5 = true ∧ je.cause.isSome = true then none else some je)) ∧
  (∀ (s : State) (p v : Nat),
     ∃ t, exec (.forwardingEntryExpiry p v) s = .next t ∧
       (∀ f, f ∈ (t.core p).fwd ↔
         f ∈ (s.core p).fwd ∧ ¬(f.vc = v ∧ f.hold = false ∧ f.lapses ≤ s.time)) ∧
       (t.core p).slots = (s.core p).slots ∧ t.mem = s.mem ∧ t.net = s.net)

/-! ### The vector unit (R208-R228) -/

/-- The vector instructions whose operands are vectors, blocks or lists, with the condition on their formats and
descriptors (R215-R228), their operands (R210), the addresses of their scale words and the operands read. -/
def Sys2Proof.Claim.vectorForms (s : State) (rd ra rb rc : Reg) (r : Rnd) (e : BitVec 4) (vl : Nat) :
    List (Instr × Prop × List State.VArg × List Word × List Nat) :=
  let v (x : Reg) : State.VArg := ⟨s.g x, fmtBytes e.toNat, bytesOf e.toNat vl⟩
  let arith := e.toNat ≤ 4 ∨ (8 ≤ e.toNat ∧ e.toNat ≤ 11)
  let single := 9 ≤ e.toNat ∧ e.toNat ≤ 11
  let byte := e.toNat ≤ 4 ∨ (8 ≤ e.toNat ∧ e.toNat ≤ 13)
  [(.vadd rd ra rb r e, arith, [v rd, v ra, v rb], [], [1, 2]),
    (.vsub rd ra rb r e, arith, [v rd, v ra, v rb], [], [1, 2]),
    (.vmul rd ra rb r e, arith, [v rd, v ra, v rb], [], [1, 2]),
    (.vmin rd ra rb r e, arith, [v rd, v ra, v rb], [], [1, 2]),
    (.vmax rd ra rb r e, arith, [v rd, v ra, v rb], [], [1, 2]),
    (.vfma rd ra rb rc r e, arith, [v rd, v ra, v rb, v rc], [], [1, 2, 3]),
    (.vscl rd ra rb r e, arith, [v rd, v ra], [], [1]),
    (.vpfx rd ra r e, arith, [v rd, v ra], [], [1]),
    (.vcpy rd ra r e, e.toNat ≤ 4 ∨ (8 ≤ e.toNat ∧ e.toNat ≤ 14), [v rd, v ra], [], [1]),
    (.viota rd ra r e, e.toNat ≤ 4, [v rd], [], []),
    (.vmsel rd ra rb rc r e, byte, [v rd, v ra, v rb, ⟨s.g rc, 1, vl⟩], [], [1, 2, 3]),
    (.vred rd ra .sum r e, arith, [⟨s.g rd, fmtBytes e.toNat, fmtBytes e.toNat⟩, v ra], [], [1]),
    (.vred rd ra .max r e, arith, [⟨s.g rd, fmtBytes e.toNat, fmtBytes e.toNat⟩, v ra], [], [1]),
    (.vred rd ra .min r e, arith, [⟨s.g rd, fmtBytes e.toNat, fmtBytes e.toNat⟩, v ra], [], [1]),
    (.vred rd ra .tmax r e, single, [⟨s.g rd, 8, 8⟩, v ra], [], [1]),
    (.vstat rd ra r, True, [⟨s.g rd, 4, 32⟩, ⟨s.g ra, 4, 4 * vl⟩], [], [1])] ++
  [VCmpOp.eq, .ne, .lt, .le].map (fun op =>
    (.vcmp rd ra rb op r e, byte, [⟨s.g rd, 1, vl⟩, v ra, v rb], [], [1, 2])) ++
  [VFnOp.exp2, .log2, .rcp, .rsq, .tanh, .sigm, .gelu, .silu].map (fun op =>
    (.vfn rd ra op r e, single, [v rd, v ra], [], [1])) ++
  [VDFnOp.drelu, .dgelu, .dsilu, .dsigm, .dtanh].map (fun op =>
    (.vdfn rd ra rb op r e, single, [v rd, v ra, v rb], [], [1, 2])) ++
  (List.finRange 8).flatMap (fun k =>
    [(.vtopk rd ra k r e, single, [⟨s.g rd, 8, 8 * (k.val + 1)⟩, v ra], [], [1]),
      (.vmrg rd ra rb k r e, single,
        [⟨s.g rd, 8, 8 * (k.val + 1)⟩, ⟨s.g ra, 8, 8 * (k.val + 1)⟩, ⟨s.g rb, 8, 8 * (k.val + 1)⟩], [], [1, 2])])

/-- A vector instruction has entered its core's unit (R213, R214): one job, last in the queue, with the registers
at issue and the resolved addresses; the A half waits for it; no register, byte or other job has changed. -/
def Sys2Proof.Claim.Queued (s t : State) (i : Instr) (addrs : List Nat) : Prop :=
  (∃ j, (t.core s.cur.pos).vector = (s.core s.cur.pos).vector ++ [j] ∧ j.ins = i ∧ j.addrs = addrs ∧
    j.regs = s.cur.src ∧ j.issued = s.time ∧ j.token = s.fresh ∧ j.grp = 0 ∧ j.done = 0 ∧ j.buf = []) ∧
  t.me.pendA = some ⟨i, 1, [], .token s.fresh⟩ ∧ t.me.regs = s.me.regs ∧
  (∀ p, (t.core p).spad = (s.core p).spad) ∧ t.mem = s.mem

/-- The operand at which a test of R212 fails makes the instruction trap: the first misaligned operand, of operands and
scale words, ALIGN; else the first of a form that R156 refuses LOCAL_RANGE; else the first that names another vcore
than the first operand LOCAL_RANGE; else, at the occupied vcore, the lowest address beyond its segment LOCAL_RANGE;
else the first read operand with a byte in a poisoned line CHECK_FAIL (R359).  The order among misaligned operands (log entry
101) and the time and TVAL of CHECK_FAIL (log entry 102) are the model's choices. -/
def Sys2Proof.Claim.OperandsTested (s : State) (i : Instr) (args : List State.VArg) (more : List Word)
    (srcs addrs : List Nat) : Prop :=
  (∀ a, (args ++ more.map fun x => (⟨x, 4, 0⟩ : State.VArg)).find?
      (fun a => decide (a.ea.toNat % a.al ≠ 0)) = some a →
    exec i s = .next (s.trap .align a.ea)) ∧
  ((∀ a ∈ args, a.ea.toNat % a.al = 0) → (∀ a ∈ more, a.toNat % 4 = 0) →
    (∀ a, args.find? (fun a => (s.addrForm a.ea).isNone) = some a →
      exec i s = .next (s.trap .localRange a.ea)) ∧
    ∀ f : State.VArg → Nat × Nat, (∀ a ∈ args, s.addrForm a.ea = some (f a)) →
      (∀ a, args.find? (fun a => (f a).1 != (f (args.headD State.noArg)).1) = some a →
        exec i s = .next (s.trap .localRange a.ea)) ∧
      ((∀ a ∈ args, (f a).1 = s.me.occ) → ∀ lim, lim = segLimit s.cur.src.lseg → ∀ far : List Word,
        far = (args.filter fun a => decide (0 < a.n ∧ lim < (f a).2 + a.n)).map
          (fun a => a.ea + BitVec.ofNat 64 (max lim (f a).2 - (f a).2)) →
        ∀ v ∈ far, (∀ w ∈ far, v.toNat ≤ w.toNat) → exec i s = .next (s.trap .localRange v))) ∧
  (s.resolveAll args more (fun _ => []) = .ok addrs → ∀ k,
    srcs.find? (fun k => s.spadPoisoned s.cur.pos (addrs.getD k 0) ((args.getD k State.noArg).n)) = some k →
      exec i s = .next (s.trap .checkFail (args.getD k State.noArg).ea))

/-- R208-R215: a vector instruction of an accepted format whose operands all lie in the segment of the occupied
vcore, in lines that are not poisoned, enters the vector unit; of another format it traps FORMAT, and then the tests of
R212 on its operands follow in their order.  That of several misaligned operands the first of rd, ra, rb, rc and the scale
words is reported (log entry 101), and that a poisoned line traps CHECK_FAIL at issue with the operand's own address as TVAL
(log entry 102), are the model's choices.
R217, R220-R222 and R227: the same of VCVT, VQNT, VDQ and VBDOT, whose formats come from descriptors too, and
of VGTH and VSCT, whose indexed elements must lie in the segment: the lowest that does not is the TVAL of LOCAL_RANGE
(that the indices are read at issue is the model's reading, log entry 21);
and R209: SETVL writes min(ga, 4096) to rd, and to VL unless it is 0. -/
def Obligations.VectorInstructionsIssue : Prop :=
  (∀ (s : State) (rd ra rb rc : Reg) (r : Rnd) (e : BitVec 4) (i : Instr) (ok : Prop) (args : List State.VArg)
     (more : List Word) (srcs addrs : List Nat),
     (i, ok, args, more, srcs) ∈ vectorForms s rd ra rb rc r e (bits s.cur.src.vl 12 0) → s.cur.isA = true →
       (¬ok → exec i s = .next (s.trap .format 0)) ∧
       (ok → OperandsTested s i args more srcs addrs) ∧
       (ok → s.resolveAll args more (fun _ => []) = .ok addrs →
         (∀ k ∈ srcs, s.spadPoisoned s.cur.pos (addrs.getD k 0) ((args.getD k State.noArg).n) = false) →
           ∃ t, exec i s = .next t ∧ Queued s t i addrs)) ∧
  (∀ (s : State) (rd ra rb : Reg) (r : Rnd) (e dst : BitVec 4) (pb addTo : Bool) (vl n w ix el : Nat)
     (addrs idx : List Nat) (q q1 q2 : Desc),
     vl = bits s.cur.src.vl 12 0 → s.cur.isA = true →
     q = Desc.ofWord (s.cur.src.ts.get 3) → q1 = Desc.ofWord (s.cur.src.ts.get 1) →
     q2 = Desc.ofWord (s.cur.src.ts.get 2) →
     let v (x : Reg) (c : Nat) : State.VArg := ⟨s.g x, fmtBytes c, bytesOf c vl⟩
     let scales : State.VArg := ⟨s.g rb, 4, 4 * (vl / q.len)⟩
     let block (x : Reg) (d : Desc) : State.VArg := ⟨s.g x, fmtBytes d.fmt, (bytesOf d.fmt vl + 3) / 4 * 4 + 4 * n⟩
     let words : List Word := [s.g ra + BitVec.ofNat 64 ((bytesOf q1.fmt vl + 3) / 4 * 4),
       s.g rb + BitVec.ofNat 64 ((bytesOf q2.fmt vl + 3) / 4 * 4)]
     let issues (i : Instr) (ok : Prop) (args : List State.VArg) (more : List Word) (srcs : List Nat) : Prop :=
       (¬ok → exec i s = .next (s.trap .format 0)) ∧ (ok → OperandsTested s i args more srcs addrs) ∧
       (ok → (s.core s.cur.pos).spoiled = [] → s.resolveAll args more (fun _ => []) = .ok addrs →
         ∃ t, exec i s = .next t ∧ Queued s t i addrs)
     let quant : Prop := 8 ≤ e.toNat ∧ e.toNat ≤ 11 ∧ q.ok = true ∧ q.skind ≠ 0 ∧ vl % q.len = 0
     let byte : Prop := e.toNat ≤ 4 ∨ (8 ≤ e.toNat ∧ e.toNat ≤ 13)
     let arith : Prop := e.toNat ≤ 4 ∨ (8 ≤ e.toNat ∧ e.toNat ≤ 11)
     issues (.vcvt rd ra dst r e)
       ((e.toNat ≤ 4 ∨ 8 ≤ e.toNat) ∧ (dst.toNat ≤ 4 ∨ (8 ≤ dst.toNat ∧ dst.toNat ≤ 14)))
       [v rd dst.toNat, v ra e.toNat] [] [1] ∧
     issues (.vqnt rd ra rb .dyn e) quant [v rd q.fmt, v ra e.toNat, scales] [] [1] ∧
     (r ≠ .dyn → exec (.vqnt rd ra rb r e) s = .next (s.trap .format 0)) ∧
     issues (.vdq rd ra rb r e) quant [v rd e.toNat, v ra q.fmt, scales] [] [1, 2] ∧
     (n = vl / q1.len → issues (.vbdot rd ra rb pb r)
       (q1.ok = true ∧ q2.ok = true ∧ q1.skind ≠ 0 ∧ q2.skind ≠ 0 ∧ q1.lblk = q2.lblk ∧ vl % q1.len = 0)
       [⟨s.g rd, 4, if pb then 4 + 4 * n else 4⟩, block ra q1, block rb q2] words [1, 2]) ∧
     (¬byte → exec (.vgth rd ra rb r e) s = .next (s.trap .format 0) ∧
       exec (.vsct rd ra rb false r e) s = .next (s.trap .format 0)) ∧
     (¬arith → exec (.vsct rd ra rb true r e) s = .next (s.trap .format 0)) ∧
     (byte → w = fmtBytes e.toNat → s.resolve (s.g rb) 4 (4 * vl) = .here ix → idx.length = vl →
       (∀ k < vl, idx.getD k 0 = ofBytes (s.spadRead s.cur.pos (ix + 4 * k) 4)) →
       (s.resolve (s.g rd) w (w * vl) = .here (addrs.getD 0 0) → s.resolve (s.g ra) w 0 = .here el →
         ((s.core s.cur.pos).spoiled = [] → (∀ k ∈ idx, s.resolve (s.g ra) w (w * (k + 1)) = .here el) →
           ∃ t, exec (.vgth rd ra rb r e) s = .next t ∧ Queued s t (.vgth rd ra rb r e) [addrs.getD 0 0, el, ix]) ∧
         (∀ far : List Word, far = (idx.filter fun k => s.resolve (s.g ra) w (w * (k + 1)) != .here el).map
             (fun k => s.g ra + BitVec.ofNat 64 (w * k)) → ∀ x ∈ far, (∀ y ∈ far, x.toNat ≤ y.toNat) →
           exec (.vgth rd ra rb r e) s = .next (s.trap .localRange x))) ∧
       ((addTo = true → arith) → s.resolve (s.g ra) w (w * vl) = .here (addrs.getD 1 0) →
         s.resolve (s.g rd) w 0 = .here el →
         ((s.core s.cur.pos).spoiled = [] → (∀ k ∈ idx, s.resolve (s.g rd) w (w * (k + 1)) = .here el) →
           ∃ t, exec (.vsct rd ra rb addTo r e) s = .next t ∧
             Queued s t (.vsct rd ra rb addTo r e) [el, addrs.getD 1 0, ix]) ∧
         (∀ far : List Word, far = (idx.filter fun k => s.resolve (s.g rd) w (w * (k + 1)) != .here el).map
             (fun k => s.g rd + BitVec.ofNat 64 (w * k)) → ∀ x ∈ far, (∀ y ∈ far, x.toNat ≤ y.toNat) →
           exec (.vsct rd ra rb addTo r e) s = .next (s.trap .localRange x)))) ∧
     (s.g ra = 0 → exec (.setvl rd ra) s = .next (s.setG rd 0)) ∧
     (s.g ra ≠ 0 → exec (.setvl rd ra) s = .next
       ((s.updRegs fun x => { x with vl := BitVec.ofNat 64 (min (s.g ra).toNat 4096) }).setG rd
         (BitVec.ofNat 64 (min (s.g ra).toNat 4096)))))

/-- What the groups of a vector instruction do one after another, each reading all its sources before it writes
(R213). -/
def Sys2Proof.Claim.performed (pl : VPlan) (p : Nat) : Nat → Nat → List Nat → State → State
  | 0, _, _, s => s
  | n + 1, g, carry, s =>
    let w := pl.writes g (carry ++ (pl.reads g).map (s.getLoc p))
    performed pl p n (g + 1) w.2 (w.1.foldl (fun t x => t.putLoc p x.1 x.2) s)

/-- The head of a core's vector unit is a job that has begun no access, and its completion cycle has come
(R214). -/
def Sys2Proof.Claim.VectorDue (s : State) (p : Nat) (j : VJob) (rest : List VJob) (due : Nat) (i : Fin 16) : Prop :=
  (s.core p).vector = j :: rest ∧ (∃ w, j.start = some w ∧
    due = max (max j.issued w) (s.core p).vlast + 4 + vcycles j.ins j.regs) ∧ due ≤ s.time ∧
  j.grp = 0 ∧ j.done = 0 ∧ j.buf = [] ∧ bits j.regs.vl 12 0 ≤ 4096 ∧
  s.findToken j.token = some (p, i, true) ∧ NoFullEmptyWait s p

/-- R213 and R214: in its completion cycle the instruction at the unit's head has performed its groups in order;
it leaves the unit and its thread returns; no register, no other core's scratchpad and no byte of memory
changes. -/
def Obligations.VectorUnitCompletes : Prop :=
  ∀ (s : State) (p n : Nat) (j : VJob) (rest : List VJob) (due : Nat) (i : Fin 16),
    VectorDue s p j rest due i →
      ∃ t, exec (.vectorCompletion p n) s = .next t ∧ (t.core p).vector = rest ∧ (t.core p).vlast = due ∧
        (t.core p).spad = ((performed j.plan p j.plan.groups 0 [] s).core p).spad ∧
        (t.slotAt p i).pendA = none ∧ (t.slotAt p i).ready = max (s.slotAt p i).ready (s.time + 1) ∧
        (t.slotAt p i).regs = (s.slotAt p i).regs ∧
        (∀ q, q ≠ p → (t.core q).spad = (s.core q).spad) ∧ t.mem = s.mem

/-- The element-wise instructions on elements of whole bytes (R215-R217, R219, R225, R226): destination format,
sources as format and address, and the value of element k. -/
def Sys2Proof.Claim.elementWise (rd ra rb rc : Reg) (r : Rnd) (e dst : BitVec 4) (m : Mode) (b : Word)
    (at' : Nat → Nat) : List (Instr × Nat × List (Nat × Nat) × (Nat → List Nat → Nat)) :=
  let c := e.toNat
  let u (f : Nat → Nat) (_ : Nat) (v : List Nat) : Nat := f (v.getD 0 0)
  let o (f : Nat → Nat → Nat) (_ : Nat) (v : List Nat) : Nat := f (v.getD 0 0) (v.getD 1 0)
  let two := [(c, at' 1), (c, at' 2)]
  [(.vadd rd ra rb r e, c, two, o (vaddOp c m)), (.vsub rd ra rb r e, c, two, o (vsubOp c m)),
    (.vmul rd ra rb r e, c, two, o (vmulOp c m)),
    (.vmin rd ra rb r e, c, two, o (vminmax false c)), (.vmax rd ra rb r e, c, two, o (vminmax true c)),
    (.vfma rd ra rb rc r e, c, two ++ [(c, at' 3)], fun _ v => vfmaOp c m (v.getD 0 0) (v.getD 1 0) (v.getD 2 0)),
    (.vscl rd ra rb r e, c, [(c, at' 1)], u fun x => vsclOp c m x b),
    (.vcpy rd ra r e, c, [(c, at' 1)], u id),
    (.vcvt rd ra dst r e, dst.toNat, [(c, at' 1)], u (vcvtOp dst.toNat c m)),
    (.vmsel rd ra rb rc r e, c, two ++ [(1, at' 3)],
      fun _ v => if v.getD 2 0 ≠ 0 then v.getD 0 0 else v.getD 1 0),
    (.viota rd rb r e, c, [], fun k _ => (b.toNat + k) % 2 ^ fmtBits c)] ++
  [VCmpOp.eq, .ne, .lt, .le].map (fun op =>
    (.vcmp rd ra rb op r e, 1, two, o fun x y => if vcmpOp op c x y then 1 else 0)) ++
  [VFnOp.exp2, .log2, .rcp, .rsq, .tanh, .sigm, .gelu, .silu].map (fun op =>
    (.vfn rd ra op r e, c, [(c, at' 1)], u (vfnOp op c m))) ++
  [VDFnOp.drelu, .dgelu, .dsilu, .dsigm, .dtanh].map (fun op =>
    (.vdfn rd ra rb op r e, c, two, o (vdfnOp op c m)))

/-- R213 and R215: an element-wise instruction whose destination meets none of its sources leaves in every
element the instruction's function of the source elements of the same number, and every other byte of the
scratchpad as it was. -/
def Obligations.VectorElements : Prop :=
  ∀ (s : State) (p n : Nat) (j : VJob) (rest : List VJob) (due vl c : Nat) (i : Fin 16) (rd ra rb rc : Reg)
    (r : Rnd) (e dst : BitVec 4) (srcs : List (Nat × Nat)) (f : Nat → List Nat → Nat) (b : Word),
    VectorDue s p j rest due i → vl = bits j.regs.vl 12 0 →
    Memory.wf (s.core p).spad = true → e.toNat ≠ 14 → dst.toNat ≠ 14 → (b = if rb = 0 then 0 else j.regs.g.get rb) →
    (j.ins, c, srcs, f) ∈ elementWise rd ra rb rc r e dst (modeOf r j.regs.rmode) b (fun k => j.addrs.getD k 0) →
    (∀ x ∈ srcs, ∀ k < vl, ∀ l < vl,
      State.overlap (x.2 + fmtBytes x.1 * k) (fmtBytes x.1) (j.addrs.getD 0 0 + fmtBytes c * l) (fmtBytes c) = false) →
      ∃ t, exec (.vectorCompletion p n) s = .next t ∧
        (∀ k < vl, ofBytes (t.spadRead p (j.addrs.getD 0 0 + fmtBytes c * k) (fmtBytes c)) =
          f k (srcs.map fun x => ofBytes (s.spadRead p (x.2 + fmtBytes x.1 * k) (fmtBytes x.1))) %
            2 ^ (8 * fmtBytes c)) ∧
        (∀ a, ¬(j.addrs.getD 0 0 ≤ a ∧ a < j.addrs.getD 0 0 + fmtBytes c * vl) →
          Memory.read (t.core p).spad a = Memory.read (s.core p).spad a)

/-! ### The matrix engine (R229-R252) -/

/-- A matrix instruction has been accepted (R238): one job, last in its core's queue, with the entries it needs
reserved; the A half waits for it; no tile, stream, register or byte has changed. -/
def Sys2Proof.Claim.Accepted (s t : State) (i : Instr) (needA needB : Nat) (ends addrs : List Nat) : Prop :=
  (∃ j, (t.core s.cur.pos).jobs = (s.core s.cur.pos).jobs ++ [j] ∧ j.ins = i ∧ j.regs = s.cur.src ∧
    j.accepted = s.time ∧ j.token = s.fresh ∧ j.needA = needA ∧ j.needB = needB ∧ j.ends = ends ∧ j.addrs = addrs) ∧
  (t.core s.cur.pos).resA = (s.core s.cur.pos).resA + needA ∧
  (t.core s.cur.pos).resB = (s.core s.cur.pos).resB + needB ∧
  t.me.pendA = some ⟨i, 1, [], .token s.fresh⟩ ∧ t.me.regs = s.me.regs ∧
  (∀ p, (t.core p).strA = (s.core p).strA ∧ (t.core p).strB = (s.core p).strB ∧ (t.core p).spad = (s.core p).spad) ∧
  (∀ k n, t.tileAt k n = s.tileAt k n) ∧ t.mem = s.mem

/-- The next n entries of a stream that are not reserved have a tag and no poison. -/
def Sys2Proof.Claim.Tagged (str : List Tile) (res n tag : Nat) : Prop :=
  ∀ x ∈ (str.drop res).take n, x.tag = tag ∧ x.poison = false

/-- The next entries of both streams that are not reserved carry scale words. -/
def Sys2Proof.Claim.Scaled (c : Core) : Prop :=
  ∀ x ∈ (c.strA.drop c.resA).take 1 ++ (c.strB.drop c.resB).take 1, x.sidecar ≠ none

/-- The resources of a matrix instruction exist (R238): a free entry of the job queue, unreserved stream entries, and
for MMR the rotation buffers, which no earlier MMR is to fill (log entry 22). -/
def Sys2Proof.Claim.Resources (c : Core) (needA needB : Nat) (rot : Bool) : Prop :=
  c.jobs.length < 4 ∧ c.resA + needA ≤ c.strA.length ∧ c.resB + needB ≤ c.strB.length ∧
    (rot = true → c.rotA = none ∧ c.rotB = none ∧ ∀ j ∈ c.jobs, ∀ m y, j.ins ≠ .mmr m y)

/-- A matrix instruction that has passed its tests is accepted where its resources exist and its stream entries are
right; where a resource is lacking, and no entry that is there fails FORMAT, its thread stands still, until the resources
exist, and nothing has changed. -/
def Sys2Proof.Claim.Enters (s : State) (i : Instr) (needA needB : Nat) (rot : Bool) (ends addrs : List Nat)
    (right : Prop) (stays : Prop := True) : Prop :=
  (Resources (s.core s.cur.pos) needA needB rot → right →
    ∃ t, exec i s = .next t ∧ Accepted s t i needA needB ends addrs) ∧
  (¬Resources (s.core s.cur.pos) needA needB rot → stays →
    ∃ t, exec i s = .next t ∧ t.cur.out = .held ∧ t.me.stalled = some (needA, needB, rot) ∧
      t.me.regs = s.me.regs ∧ t.me.pendA = s.me.pendA ∧ (t.core s.cur.pos).jobs = (s.core s.cur.pos).jobs ∧
      (t.core s.cur.pos).resA = (s.core s.cur.pos).resA ∧ (t.core s.cur.pos).resB = (s.core s.cur.pos).resB ∧
      (∀ p, (t.core p).strA = (s.core p).strA ∧ (t.core p).strB = (s.core p).strB ∧
        (t.core p).spad = (s.core p).spad) ∧ (∀ k n, t.tileAt k n = s.tileAt k n) ∧ t.mem = s.mem)

/-- Every tile that the instruction names belongs to the vcore that the thread occupies (R230). -/
def Sys2Proof.Claim.Owned (s : State) (i : Instr) : Prop :=
  insTiles s.cur.pos s.cur.src i ≠ [] ∧ ∀ n ∈ insTiles s.cur.pos s.cur.src i,
    (s.tileAt (cluOf s.cur.pos) n).owner = s.me.occ % 2 ^ 16

/-- Every tile that the instruction names has, after what is queued before it, an allowed kind, or .Z clears it
(R231). -/
def Sys2Proof.Claim.Kinds (s : State) (i : Instr) (z : Bool) (ks : List Kind) : Prop :=
  z = true ∨ ∀ n ∈ insTiles s.cur.pos s.cur.src i, s.kindAfter s.cur.pos n ∈ ks

/-- R229-R231, R234, R235, R238 and R241-R245: a matrix instruction on tiles that the occupied vcore owns, with formats
and kinds that its rules accept, is accepted where a job entry is free, its stream entries are there with the
descriptors' tags and, for MMR, the rotation buffers are free; where the job queue is full, a stream entry is lacking or
a rotation buffer is taken it is not accepted, and the thread stands still until the resources that it names exist.
A scaled product whose next entries that are there lack scale words traps FORMAT, its resources complete or not.  That a
second MMR waits for the first (log entry 22) and that the scale words are tested on those entries (log entry 23) are the
model's readings.  With a tile that another vcore owns it traps ACC_OWNER with the tile's number. -/
def Obligations.MatrixInstructionsAccepted : Prop :=
  ∀ (s : State) (acc : Fin 8) (tb ta z : Bool) (ra rb : Reg) (c : Core) (da db : Desc) (pa g : Nat) (ends : List Nat)
    (plain : List Kind) (tags : Prop),
    c = s.core s.cur.pos → da = Desc.ofWord (s.cur.src.ts.get 1) → db = Desc.ofWord (s.cur.src.ts.get 2) →
    plain = [.empty, if da.fmt = 8 then .d64 else .plain] → s.cur.isA = true → c.spoiled = [] →
    g = bits (s.g rb) 8 0 → tags = (Tagged c.strA c.resA 1 da.swz ∧ Tagged c.strB c.resB 1 db.swz) →
      (State.productBad s.cur.src false = false → Owned s (.mma acc tb ta z) → Kinds s (.mma acc tb ta z) z plain →
        Enters s (.mma acc tb ta z) 1 1 false [] [] tags) ∧
      (State.productBad s.cur.src true = false → Owned s (.mmas acc tb ta z) →
        Kinds s (.mmas acc tb ta z) z [.empty, .scaled] →
        Enters s (.mmas acc tb ta z) 1 1 false [] [] (tags ∧ Claim.Scaled c) (Claim.Scaled c) ∧
        (¬Claim.Scaled c → exec (.mmas acc tb ta z) s = .next (s.trap .format 0))) ∧
      (State.productBad s.cur.src false = false → Owned s (.mmr acc z) → Kinds s (.mmr acc z) z plain →
        Enters s (.mmr acc z) 1 1 true [] [] tags) ∧
      (da.skind ≠ 0 → db.skind ≠ 0 → State.productBad s.cur.src true = false → Owned s (.mmr acc z) →
        Kinds s (.mmr acc z) z [.empty, .scaled] →
        Enters s (.mmr acc z) 1 1 true [] [] (tags ∧ Claim.Scaled c) (Claim.Scaled c) ∧
        (¬Claim.Scaled c → exec (.mmr acc z) s = .next (s.trap .format 0))) ∧
      (State.productBad s.cur.src false = false → Owned s (.mmg acc ra rb z) → Kinds s (.mmg acc ra rb z) z plain →
        s.resolve (s.g ra) 4 (4 * g) = .here pa → ends.length = g → 0 < g → g ≤ 256 →
        (∀ k < g, ends.getD k 0 = ofBytes (s.spadRead s.cur.pos (pa + 4 * k) 4)) →
        ends.Pairwise (· ≤ ·) → bits (s.g rb) 15 9 = 0 → 0 < bits (s.g rb) 63 48 →
        ends.getLastD 0 ≤ bits (s.g rb) 63 48 →
          Enters s (.mmg acc ra rb z) 1 (groupsAt (bits (s.g rb) 47 16) ends).length false ends []
            (Tagged c.strA c.resA 1 da.swz ∧
              Tagged c.strB c.resB (groupsAt (bits (s.g rb) 47 16) ends).length db.swz)) ∧
      (Owned s (.aclr acc) → Enters s (.aclr acc) 0 0 false [] [] True) ∧
      (Owned s (.amovSt acc ra) → s.resolve (s.g ra) 8 1032 = .here pa →
        Enters s (.amovSt acc ra) 0 0 false [] [pa] True) ∧
      (Owned s (.amovLd acc ra) ∨ s.sup = true → s.resolve (s.g ra) 8 1032 = .here pa →
        ofBytes (s.spadRead s.cur.pos (pa + 1024) 8) < 4 →
        Enters s (.amovLd acc ra) 0 0 false [] [pa] True) ∧
      (∀ (stat q dx bias scl : Bool) (act : Act) (side : DrnSide) (i : Instr) (addrs : List Nat),
        i = .drn acc ra stat q dx bias scl act side → Owned s i → drnBad s.cur.src stat q dx act = false →
        Kinds s i false
          (if (Desc.ofWord (s.cur.src.ts.get 3)).fmt = 8 then [.empty, .d64] else [.empty, .plain, .scaled]) →
        s.resolveAll (drnArgs s ra q dx bias side) [] (fun _ => []) = .ok addrs →
          Enters s i 0 0 false [] addrs True) ∧
      (∀ i n, i ∈ [Instr.mma acc tb ta z, .mmas acc tb ta z, .mmr acc z, .mmg acc ra rb z, .aclr acc,
          .amovSt acc ra] ∨ (i = .amovLd acc ra ∧ s.sup = false) ∨
          (∃ stat q dx bias scl act side, i = .drn acc ra stat q dx bias scl act side) →
        (insTiles s.cur.pos s.cur.src i).find?
          (fun n => (s.tileAt (cluOf s.cur.pos) n).owner != s.me.occ % 2 ^ 16) = some n →
            exec i s = .next (s.trap .accOwner (BitVec.ofNat 64 n)))

/-- Element (i, j) after an unscaled product of the entries a and b (R236): from its old encoding, each K group's
exact sum is added with one rounding, in increasing k. -/
def Sys2Proof.Claim.productElement (r : Regs) (a b : Tile) (ta tb : Bool) (old i j : Nat) : Nat :=
  let fa := (Desc.ofWord (r.ts.get 1)).fmt
  let fb := (Desc.ofWord (r.ts.get 2)).fmt
  let f := if fa = 8 then 8 else 9
  let l := kGroup fa
  let xs := ((a.rowA fa ta i).map (elemValue fa)).zip ((b.rowA fb tb j).map (elemValue fb))
  roundTo f .rne false ((List.range (kPerTile fa / l)).foldl (fun c g =>
    elemValue f (roundTo f .rne false (c.add .rne (exactDot ((xs.drop (g * l)).take l))))) (elemValue f old))

/-- Element (i, j) after a block-scaled product (R237): each block's exact sum times its exact scale product is
rounded, and added with one more rounding. -/
def Sys2Proof.Claim.scaledElement (r : Regs) (a b : Tile) (ta tb : Bool) (old i j : Nat) : Nat :=
  let qa := Desc.ofWord (r.ts.get 1)
  let qb := Desc.ofWord (r.ts.get 2)
  let l := qa.len
  let n := kPerTile qa.fmt / l
  let xs := ((a.rowA qa.fmt ta i).map (elemValue qa.fmt)).zip ((b.rowA qb.fmt tb j).map (elemValue qb.fmt))
  f32.round .rne false ((List.range n).foldl (fun c g =>
    rnd32 .rne (c.add .rne (scaledSum .rne (exactDot ((xs.drop (g * l)).take l))
      (scaleValue qa.skind (a.scale (n * i + g))) (scaleValue qb.skind (b.scale (n * j + g)))))) (elemValue 9 old))

/-- Element (x, y) of the accumulator that begins at tile n: of one tile, or in FP64 mode of two (R229). -/
def Sys2Proof.Claim.accElement (s : State) (k n : Nat) (d : Bool) (x y : Nat) : Nat :=
  if d then
    ((s.tileAt k (n + x / 8)).word (32 * (x % 8) + 2 * y)).toNat +
      ((s.tileAt k (n + x / 8)).word (32 * (x % 8) + 2 * y + 1)).toNat * 2 ^ 32
  else ((s.tileAt k n).word (16 * x + y)).toNat

/-- An engine has consumed a job of core p (R239): its entries have left the streams and its queue, its thread returns, the
tiles ns have a kind, with their owners as before, and no other tile and no byte has changed. -/
def Sys2Proof.Claim.Consumed (s t : State) (k p : Nat) (j : MJob) (sl : Fin 16) (ns : List Nat) (kind : Kind)
    (as bs : List Tile) : Prop :=
  (t.core p).jobs = ((s.core p).jobs.filter fun x => x.token != j.token) ∧ (t.core p).strA = as ∧ (t.core p).strB = bs ∧
    (∀ m ∈ ns, (t.tileAt k m).kind = kind ∧ (t.tileAt k m).owner = (s.tileAt k m).owner) ∧
    (∀ m, m ∉ ns → t.tileAt k m = s.tileAt k m) ∧ (t.slotAt p sl).pendA = none ∧
    (t.core p).spad = (s.core p).spad ∧ t.mem = s.mem

/-- R236, R237, R239, R241-R244: the engine consumes a job: its entries leave the streams and its queue, its thread
returns, its accumulator, of one tile or in FP64 mode of two, holds the product's encodings and has its kind, in MMG each
row with the B entry of its group, and the rows of no group unchanged; the entries of MMR, scaled or not, go to the
rotation buffers (outside a gang back to the core itself, 2 cycles later); ACLR's tile is zero and EMPTY; no byte
changes. -/
def Obligations.EngineConsumes : Prop :=
  ∀ (s : State) (k p n : Nat) (i : Fin 8) (j : MJob) (a b : Tile) (as bs gs : List Tile) (acc : Fin 8)
    (ra rb : Reg) (ta tb z d : Bool) (ns : List Nat) (old : Nat → Nat → Nat) (sl : Fin 16),
    s.nextJob k = some (i, j) → k < 512 → p = 8 * k + i.val → s.findToken j.token = some (p, sl, true) →
    d = decide ((Desc.ofWord (j.regs.ts.get 1)).fmt = 8) → (d = true → acc.val < 4) →
    n = 8 * i.val + (if d then 2 * acc.val else acc.val) → ns = (if d then [n, n + 1] else [n]) →
    old = (fun x y => if z then 0 else accElement s k n d x y) →
      (∀ m, j.ins = .aclr acc → m = 8 * i.val + acc.val → j.needA = 0 → j.needB = 0 →
        ∃ t, exec (.consumption k) s = .next t ∧
          Consumed s t k p j sl [m] .empty (s.core p).strA (s.core p).strB ∧ ∀ w, (t.tileAt k m).word w = 0) ∧
      ((s.core p).strA = a :: as → (s.core p).strB = b :: bs → j.needA = 1 → j.needB = 1 →
        (j.ins = .mma acc tb ta z → ∃ t, exec (.consumption k) s = .next t ∧
          Consumed s t k p j sl ns (if d then .d64 else .plain) as bs ∧
          ∀ x < 16, ∀ y < 16, accElement t k n d x y = productElement j.regs a b ta tb (old x y) x y) ∧
        (j.ins = .mmas acc tb ta z → d = false → ∃ t, exec (.consumption k) s = .next t ∧
          Consumed s t k p j sl ns .scaled as bs ∧
          ∀ x < 16, ∀ y < 16, accElement t k n d x y = scaledElement j.regs a b ta tb (old x y) x y) ∧
        (j.ins = .mmr acc z → (s.vcore j.occ).gang = none → (mmrScaled j.regs = true → d = false) →
          ∃ t, exec (.consumption k) s = .next t ∧
            Consumed s t k p j sl ns (if mmrScaled j.regs then .scaled else if d then .d64 else .plain) as bs ∧
            (t.core p).rotA = some (a, s.time + 2, p) ∧ (t.core p).rotB = some (b, s.time + 2, p) ∧
            ∀ x < 16, ∀ y < 16, accElement t k n d x y =
              if mmrScaled j.regs then scaledElement j.regs a b false false (old x y) x y
              else productElement j.regs a b false false (old x y) x y)) ∧
      (∀ row0, j.ins = .mmg acc ra rb z → row0 = bits (if rb = 0 then 0 else j.regs.g.get rb) 47 16 →
        (s.core p).strA = a :: as → (s.core p).strB = gs ++ bs → j.needA = 1 → j.needB = gs.length →
        (groupsAt row0 j.ends).length = gs.length → j.ends.Pairwise (· ≤ ·) →
          ∃ t, exec (.consumption k) s = .next t ∧
            Consumed s t k p j sl ns (if d then .d64 else .plain) as bs ∧
            ∀ x < 16, ∀ y < 16,
              (∀ (g lo hi : Nat) (q : Tile), (groupsAt row0 j.ends)[g]? = some (lo, hi) → gs[g]? = some q →
                lo ≤ row0 + x → row0 + x < hi →
                  accElement t k n d x y = productElement j.regs a q false false (old x y) x y) ∧
              ((∀ g ∈ groupsAt row0 j.ends, ¬(g.1 ≤ row0 + x ∧ row0 + x < g.2)) →
                accElement t k n d x y = old x y))

/-- R245-R248: a consumed AMOV.ST that has come to its 72nd cycle, with no access due for a lower slot, has written
the 129 doublewords of its image and its thread returns; a consumed AMOV.LD has left in its tile the 256 words and the kind
of its image, and where the thread was in supervisor mode its vcore as the owner; that the accesses that are left run in
that cycle is the model's reading (log entry 110); a drain starts with the tiles as they stand, then reads a row
and performs its writes one by one, an FP32 row without modifiers being its elements rounded by R247; 24 cycles after
its start it performs its last write and ends, and its thread returns.  That a drain works on the tiles as they are at
its start, reads a row in one step and writes in single steps is the model's reading (log entry 24). -/
def Obligations.DrainsAndMoves : Prop :=
  ∀ (s : State) (k p : Nat) (i : Fin 8) (j : MJob) (js : List MJob) (sl : Fin 16) (m : Move) (d : Drain),
    p = 8 * k + i.val → k < 512 → NoFullEmptyWait s p → Memory.wf (s.core p).spad = true →
      (∀ acc ra pa, s.nextJob k = none → (s.core p).moves = [m] →
        (∀ x : Fin 8, x ≠ i → (s.core (8 * k + x.val)).moves = []) → (∀ x ∈ s.bankDue p, m.job.slot ≤ x) →
        m.job.ins = .amovSt acc ra → m.job.addrs = [pa] → m.done = 0 → m.buf.length = 129 → m.begun + 72 ≤ s.time →
        s.findToken m.job.token = some (p, sl, true) →
          ∃ t, exec (.consumption k) s = .next t ∧ (t.core p).moves = [] ∧ (t.slotAt p sl).pendA = none ∧
            (∀ w < 129, t.spadRead p (pa + 8 * w) 8 = toBytes 8 (m.buf.getD w 0).toNat) ∧
            (∀ a, ¬(pa ≤ a ∧ a < pa + 1032) → Memory.read (t.core p).spad a = Memory.read (s.core p).spad a) ∧
            (∀ n, t.tileAt k n = s.tileAt k n) ∧ t.mem = s.mem) ∧
      (∀ acc ra pa n, s.nextJob k = none → (s.core p).moves = [m] →
        (∀ x : Fin 8, x ≠ i → (s.core (8 * k + x.val)).moves = []) → (∀ x ∈ s.bankDue p, m.job.slot ≤ x) →
        m.job.ins = .amovLd acc ra → m.job.addrs = [pa] → m.done = 0 → m.buf = [] → m.begun + 72 ≤ s.time →
        n = 8 * i.val + acc.val → s.findToken m.job.token = some (p, sl, true) →
          ∃ t, exec (.consumption k) s = .next t ∧ (t.core p).moves = [] ∧ (t.slotAt p sl).pendA = none ∧
            (∀ w < 256, ((t.tileAt k n).word w).toNat = ofBytes (s.spadRead p (pa + 4 * w) 4)) ∧
            (t.tileAt k n).kind.code = ofBytes (s.spadRead p (pa + 1024) 8) % 4 ∧
            (t.tileAt k n).owner = (if Tsw.s m.job.regs.tsw then m.job.occ % 2 ^ 16 else (s.tileAt k n).owner) ∧
            (∀ x, x ≠ n → t.tileAt k x = s.tileAt k x) ∧ (t.core p).spad = (s.core p).spad ∧ t.mem = s.mem) ∧
      ((s.engine k).drain = none → s.nextDrain k = some (i, j) →
        js = ((s.core p).jobs.filter fun x => x.token != j.token) →
        ∃ t, exec (.drainStart k) s = .next t ∧ (t.core p).jobs = js ∧
          (t.engine k).drain = some
            { core := i, job := j, tiles := (insTiles p j.regs j.ins).map (s.tileAt k), start := s.time } ∧
          (∀ n, t.tileAt k n = s.tileAt k n) ∧ (t.core p).spad = (s.core p).spad ∧ t.mem = s.mem) ∧
      ((s.engine k).drain = some d → d.core = i →
        (s.time < d.start + 24 → ∀ a bs w, d.buf = (a, bs) :: w → d.row < 16 ∨ w ≠ [] →
          ∃ t, exec (.drainStart k) s = .next t ∧ (t.engine k).drain = some { d with buf := w } ∧
            (∀ x < bs.length, Memory.read (t.core p).spad (a + x) = bs.getD x 0) ∧
            (∀ x, ¬(a ≤ x ∧ x < a + bs.length) → Memory.read (t.core p).spad x = Memory.read (s.core p).spad x) ∧
            (∀ n, t.tileAt k n = s.tileAt k n)) ∧
        (s.time < d.start + 24 → d.buf = [] → d.row < 16 →
          ∀ (acc : Fin 8) (ra : Reg) (side : DrnSide) (q : Desc) (tile : AccTile),
            d.job.ins = .drn acc ra false false false false false .none side →
            q = Desc.ofWord (d.job.regs.ts.get 3) → q.fmt = 9 → d.tiles = [tile] → tile.kind = .plain →
              ∃ t, exec (.drainStart k) s = .next t ∧ (t.core p).spad = (s.core p).spad ∧
                (t.engine k).drain = some { d with
                  row := d.row + 1
                  buf := (List.range 16).map fun x => (d.job.addrs.getD 0 0 + 4 * (16 * d.row + x),
                    toBytes 4 (roundTo 9 q.mode q.sat (elemValue 9 (tile.word (16 * d.row + x)).toNat))) }) ∧
        (s.time < d.start + 24 → ∀ w, d.row = 16 → d.buf = [w] → exec (.drainStart k) s = .next s) ∧
        (d.start + 24 ≤ s.time → ∀ a bs, d.row = 16 → d.buf = [(a, bs)] →
          s.findToken d.job.token = some (p, sl, true) →
          ∃ t, exec (.drainStart k) s = .next t ∧ (t.engine k).drain = none ∧ (t.slotAt p sl).pendA = none ∧
            (t.slotAt p sl).ready = max (s.slotAt p sl).ready (s.time + 1) ∧
            (∀ x < bs.length, Memory.read (t.core p).spad (a + x) = bs.getD x 0) ∧
            (∀ x, ¬(a ≤ x ∧ x < a + bs.length) → Memory.read (t.core p).spad x = Memory.read (s.core p).spad x) ∧
            (∀ n, t.tileAt k n = s.tileAt k n)))

/-- ASTAT's word on a tile (R251). -/
def Sys2Proof.Claim.TileStatus (y : AccTile) (w : Word) : Prop :=
  bits w 49 48 = y.kind.code ∧
    bits w 40 32 = ((List.range 256).filter fun n => (y.word n).toNat / 2 ^ 23 % 256 = 255).length ∧
    bits w 24 16 = ((List.range 256).filter fun n => (y.word n).toNat % 2 ^ 31 = 0).length ∧
    ∀ n < 256, (y.word n).toNat % 2 ^ 31 ≠ 0 → (y.word n).toNat / 2 ^ 23 % 256 ≠ 255 →
      bits w 15 8 ≤ (y.word n).toNat / 2 ^ 23 % 256 ∧ (y.word n).toNat / 2 ^ 23 % 256 ≤ bits w 7 0

/-- R242 and R249-R252: QPOP discards the head entry that is not reserved; QLVL and ASTAT report the core's streams
and a tile, ASTAT behind a running drain the tile as the drain took it, in the fourth cycle after the drain; MWAKE
makes a wake request; an engine falls asleep after 2^16 idle cycles and wakes in its wave's cycle; a rotated entry
goes to the tail of its target stream when its time has come and there is room. -/
def Obligations.StreamsTilesAndSleep : Prop :=
  ∀ (s : State) (rd : Reg) (acc : Fin 8) (p k : Nat) (c : Core) (x : Tile), p = s.cur.pos → c = s.core p → k = cluOf p →
    (∃ t, exec (.qpop false) s = .next t ∧ (t.core p).strA = c.strA.eraseIdx c.resA ∧
      (t.core p).strB = c.strB ∧ (t.core p).slots = c.slots ∧ t.mem = s.mem) ∧
    (∃ t, exec (.qpop true) s = .next t ∧ (t.core p).strB = c.strB.eraseIdx c.resB ∧
      (t.core p).strA = c.strA ∧ (t.core p).slots = c.slots ∧ t.mem = s.mem) ∧
    (c.strA.length ≤ 16 → c.strB.length ≤ 16 → Gives (.qlvl rd) s rd (fun w =>
      bits w 4 0 = c.strA.length - c.resA ∧ bits w 12 8 = c.strB.length - c.resB ∧
      w.getLsbD 16 = c.rotA.isSome ∧ w.getLsbD 17 = c.rotB.isSome ∧ w.getLsbD 24 = (s.engine k).awake ∧
      bits w 63 25 = 0)) ∧
    (∀ y : AccTile, y = s.tileAt k (8 * (p % 8) + acc.val) → y.owner = s.me.occ % 2 ^ 16 → s.cur.phase = 0 →
      c.jobs = [] → c.moves = [] →
        ((s.engine k).drain = none → y.ready ≤ s.time → Gives (.astat rd acc) s rd (TileStatus y)) ∧
        (∀ d, (s.engine k).drain = some d → d.core = coreNum p →
          8 * (p % 8) + acc.val ∈ insTiles p d.job.regs d.job.ins → s.cur.isA = true →
            ∃ t w, exec (.astat rd acc) s = .next t ∧ TileStatus y w ∧ t.me.pendA = some
              ⟨.astat rd acc, 3, [w, BitVec.ofNat 64 y.ready, BitVec.ofNat 64 d.job.token], .poll⟩ ∧
              t.me.regs = s.me.regs ∧ t.mem = s.mem)) ∧
    (∀ w u : Word, s.cur.phase = 2 → s.cur.held = [w, u] → u.toNat + 4 ≤ s.time →
      exec (.astat rd acc) s = .next (s.setG rd w)) ∧
    (∃ t, exec .mwake s = .next t ∧ (t.engine k).active = s.time ∧
      ((s.engine k).awake = false → (s.engine k).request = none → (t.engine k).request = some s.time) ∧
      t.cores = s.cores ∧ t.mem = s.mem) ∧
    ((s.engine k).awake = true → (s.engine k).drain = none → (∀ i : Fin 8, (s.core (8 * k + i.val)).jobs = []) →
      (s.engine k).active + 2 ^ 16 ≤ s.time →
        ∃ t, exec (.engineSleep k) s = .next t ∧ (t.engine k).awake = false ∧
          (t.engine k).tiles = (s.engine k).tiles ∧ t.cores = s.cores ∧ t.mem = s.mem) ∧
    (∀ q, (s.engine k).awake = false → (s.engine k).request = some q → q < s.time →
      s.time % 1024 = 64 * (k % 16) →
        ∃ t, exec (.engineWake k) s = .next t ∧ (t.engine k).awake = true ∧ (t.engine k).usable = s.time + 64 ∧
          (t.engine k).tiles = (s.engine k).tiles ∧ t.cores = s.cores ∧ t.mem = s.mem) ∧
    (∀ due q, c.rotA = some (x, due, q) → due ≤ s.time → (s.core q).strA.length < 16 →
      ∃ t, exec (.rotationBufferForward p false) s = .next t ∧ (t.core p).rotA = none ∧
        (t.core q).strA = (s.core q).strA ++ [x] ∧ (t.core q).strB = (s.core q).strB ∧ t.mem = s.mem)

/-! ### Mailboxes and the copy unit (R254-R268) -/

/-- The submissions of copy jobs, with their kind and .STG (R259). -/
def Sys2Proof.Claim.submissions (rd ra : Reg) (stg : Bool) : List (Instr × CopyKind × Bool) :=
  [(.cpy rd ra stg, .cpy, stg), (.cpyt rd ra false, .cpytA, false), (.cpyt rd ra true, .cpytB, false),
    (.cpyf rd ra stg, .cpyf, stg), (.cpyg rd ra stg, .cpyg, stg), (.pfch rd ra, .pfch, false),
    (.evct rd ra, .evct, false)]

/-- R257: a worker's MBXW fills its request word, its MBXR takes its reply, each waiting while it cannot; the
movement thread's MBXR takes a request of the lowest slot that has one, if none has been passed over 15 times, and its MBXW
fills the reply word of the thread that asked, or of the slot where no asker is on record (the model's choice, log entry
70), and has no effect where the thread that asked has left; elsewhere each traps ILLEGAL.
R255, R258 and R259: a submission of a well-formed request in slot 15, with nothing for its release to wait
for and a free queue entry, copies the four words into a job at the channel's end with the client's next
identifier, which rd takes; a misaligned address traps ALIGN, a malformed request ILLEGAL, and outside slot 15
the six trap ILLEGAL, but for PFCH in a helper, which gives 0 and asks for the granule that is not resident
(R151); with no free entry, the running job counting among the 16 (the model's reading, log entry 69), it parks after its
release. -/
def Obligations.MailboxesAndCopies : Prop :=
  (∀ (s : State) (rd ra rb : Reg) (p v : Nat) (w : Word) (j k : Fin 16) (tid u : Tid), p = s.cur.pos →
     (s.cur.slot ≠ 15 → s.me.occ = s.me.tid.vc →
       (s.me.request = none →
         exec (.mbxw ra) s = .next (s.updMe fun x =>
           { x with request := some (s.g ra), passed := 0, asked := s.me.occ })) ∧
       (s.me.request ≠ none → ∃ t, exec (.mbxw ra) s = .next t ∧ t.cur.out = .parked ∧ t.me.request = s.me.request) ∧
       (s.me.reply = some w →
         exec (.mbxr rd) s = .next ((s.updMe fun x => { x with reply := none }).setG rd w)) ∧
       (s.me.reply = none → ∃ t, exec (.mbxr rd) s = .next t ∧ t.cur.out = .parked ∧ t.me.regs = s.me.regs)) ∧
     (s.cur.slot = 15 → exec (.mbxw ra) s = .next (s.trap .illegal s.cur.bundle) ∧
       exec (.mbxr rd) s = .next (s.trap .illegal s.cur.bundle)) ∧
     (s.cur.slot ≠ 15 → exec (.mbxrMovement rd ra) s = .next (s.trap .illegal s.cur.bundle) ∧
       exec (.mbxwMovement ra rb) s = .next (s.trap .illegal s.cur.bundle)) ∧
     (s.cur.slot = 15 → j ≠ 15 → (s.slotAt p j).request = some w → (∀ k < j, (s.slotAt p k).request = none) →
       (∀ k : Fin 16, (s.slotAt p k).passed < 15) → rd ≠ 0 → ra ≠ 0 → rd ≠ ra →
         ∃ t, exec (.mbxrMovement rd ra) s = .next t ∧ t.me.regs.g.get rd = BitVec.ofNat 64 j.val ∧
           t.me.regs.g.get ra = w ∧ (t.slotAt p j).request = none ∧ (t.core p).client = some (s.slotAt p j).asked ∧
           (∀ k : Fin 16, k ≠ j → (t.slotAt p k).request = (s.slotAt p k).request ∧ (t.slotAt p k).passed =
             (s.slotAt p k).passed + if (s.slotAt p k).request.isSome then 1 else 0) ∧ t.mem = s.mem) ∧
     (s.cur.slot = 15 → (∀ k : Fin 16, k ≠ 15 → (s.slotAt p k).request = none) →
       ∃ t, exec (.mbxrMovement rd ra) s = .next t ∧ t.cur.out = .parked ∧ t.me.regs = s.me.regs) ∧
     (s.cur.slot = 15 → j ≠ 15 → s.g ra = BitVec.ofNat 64 j.val → (s.slotAt p j).reply = none →
       ((s.core p).askers = [] ∨ ((s.core p).askers = [⟨j, j, v, (s.slotAt p j).tid, u⟩] ∧
         (s.slotAt p j).busy = true)) →
         exec (.mbxwMovement ra rb) s = .next (s.updSlot p j fun x => { x with reply := some (s.g rb) })) ∧
     (s.cur.slot = 15 → j ≠ 15 → s.g ra = BitVec.ofNat 64 j.val → (s.core p).askers = [⟨j, k, v, tid, u⟩] →
       (s.slotAt p k).busy = false ∨ (s.slotAt p k).tid ≠ tid →
         exec (.mbxwMovement ra rb) s = .next s)) ∧
  (∀ (s : State) (rd ra : Reg) (stg : Bool) (i : Instr) (kind : CopyKind) (st : Bool) (p pa v : Nat)
     (q : Req4.Words),
     (i, kind, st) ∈ submissions rd ra stg → p = s.cur.pos → v = s.clientOf p → s.cur.phase = 0 →
       (s.cur.slot = 15 → (s.g ra).toNat % 32 ≠ 0 → exec i s = .next (s.trap .align (s.g ra))) ∧
       (s.cur.slot = 15 → (s.g ra).toNat % 32 = 0 → s.localRange (s.g ra) 32 = none →
         exec i s = .next (s.trap .localRange (s.g ra))) ∧
       (s.cur.slot ≠ 15 → s.cur.src.tsw.getLsbD 8 = false → exec i s = .next (s.trap .illegal s.cur.bundle)) ∧
       (s.cur.slot ≠ 15 → s.cur.src.tsw.getLsbD 8 = true →
         ((s.g ra).getLsbD 63 = true → exec (.pfch rd ra) s = .next (s.trap .localRange (s.g ra))) ∧
         ((s.g ra).getLsbD 63 = false → s.localRange (s.g ra) 32 = none →
           exec (.pfch rd ra) s = .next (s.setG rd 0)) ∧
         (∀ r o x, (s.g ra).getLsbD 63 = false → (s.g ra).toNat % 32 = 0 → s.localRange (s.g ra) 32 = some pa →
           s.spadPoisoned p pa 32 = false →
           (∀ k : Fin 4, q.get k = BitVec.ofNat 64 (ofBytes (s.spadRead p (pa + 8 * k.val) 8))) →
           Req4.bad .pfch false q = false → o = bits (q.get 0) 63 40 → o ≠ 0 → o < 2 ^ tableLog s.cur.src.ortb →
           s.recordAt (tableBase s.cur.src.ortb) o = some r → r.ok = true → x = bits (q.get 0) 39 0 →
           State.elemTests r (q.get 0) Rec.permW none x = none →
             (s.resident r (r.granule (r.offset x)) = true → exec (.pfch rd ra) s = .next (s.setG rd 0)) ∧
             (s.resident r (r.granule (r.offset x)) = false → ∃ t : State,
               exec (.pfch rd ra) s = .next (t.setG rd 0) ∧
               (tableBase s.cur.src.ortb, o, r.granule (r.offset x)) ∈ t.fills ∧ t = { s with fills := t.fills }))) ∧
       (s.cur.slot = 15 → (s.g ra).toNat % 32 = 0 → s.localRange (s.g ra) 32 = some pa →
         s.spadPoisoned p pa 32 = false →
         (∀ k : Fin 4, q.get k = BitVec.ofNat 64 (ofBytes (s.spadRead p (pa + 8 * k.val) 8))) →
           (Req4.bad kind st q = true → exec i s = .next (s.trap .illegal (s.g ra))) ∧
           (Req4.bad kind st q = false → NothingPending s → (s.core p).channel.length < 16 →
             ∃ t j, exec i s = .next t ∧ (t.core p).channel = (s.core p).channel ++ [j] ∧ j.kind = kind ∧ j.stg = st ∧
               j.q = q ∧ j.id = (s.vcore v).next ∧ j.client = v ∧ j.done = 0 ∧ j.ended = false ∧
               (t.vcore v).next = (s.vcore v).next + 1 ∧
               (rd ≠ 0 → t.me.regs.g.get rd = BitVec.ofNat 64 (s.vcore v).next) ∧
               (∀ r, r ≠ rd → t.me.regs.g.get r = s.me.regs.g.get r) ∧ (t.core p).spad = (s.core p).spad ∧
               t.mem = s.mem) ∧
           (Req4.bad kind st q = false → NothingPending s → 16 ≤ (s.core p).channel.length →
             ∃ t, exec i s = .next t ∧ t.cur.out = .parked ∧ (t.core p).channel = (s.core p).channel ∧
               t.me.regs.g = s.me.regs.g ∧ t.mem = s.mem)))

/-- The copy hart of core p's cluster has one job, in p's channel, and its die runs; the core's bank is free and
nothing in its scratchpad is poisoned (R165, R256). -/
def Sys2Proof.Claim.OneJob (s : State) (p : Nat) (j : CopyJob) : Prop :=
  (s.core p).channel = [j] ∧ p < 4096 ∧ s.dieRuns (dieOf p) = true ∧
    (∀ q, q / 8 = p / 8 → q ≠ p → (s.core q).channel = []) ∧ (s.cluster (p / 8)).coll = [] ∧
    s.bankOpen p = true ∧ (s.core p).spoiled = [] ∧ Memory.wf (s.core p).spad = true

/-- A step of the job has done one more unit, the last of which ends it with its count of bytes. -/
def Sys2Proof.Claim.OneMore (s t : State) (p units bytes : Nat) (j : CopyJob) : Prop :=
  ∃ k, (t.core p).channel = [k] ∧ k.id = j.id ∧ k.client = j.client ∧ k.q = j.q ∧ k.begun = true ∧
    k.ended = decide (j.done + 1 = units) ∧ k.done = (if j.done + 1 = units then bytes else j.done + 1) ∧
    k.status = j.status ∧ (t.core p).slots = (s.core p).slots

/-- The target of a PFCH or EVCT of core p has passed its tests (R180, R264): it lies in granule g of record r, whose
residency byte, at the host address ra, is within reach; and no accumulator is open. -/
def Sys2Proof.Claim.Target (s : State) (p : Nat) (j : CopyJob) (r : Rec) (g ra : Nat) : Prop :=
  s.hartRecord p j.client (bits (j.q.get 0) 63 40) = some r ∧ r.ok = true ∧
    State.elemTests r 0 Rec.permW none (bits (j.q.get 0) 39 0) = none ∧
    g = r.granule (r.offset (bits (j.q.get 0) 39 0)) ∧ r.moving = false ∧ s.hpaOf (r.rmap + g) = some ra ∧
    s.reaches p ra = true ∧ ∀ h, (s.home h).sat = []

/-- What a fill writes to byte k of its granule: 0 where the job names no backing; else the backing's byte, which is within
reach, with no request before it on its way, and not poisoned. -/
def Sys2Proof.Claim.Backing (s : State) (p : Nat) (j : CopyJob) (k : Nat) (b : Byte) : Prop :=
  (j.q.get 1 = 0 ∧ b = 0) ∨
    (j.q.get 1 ≠ 0 ∧ ∃ q, s.backByte p j k Rec.permR = .mem q ∧ s.hartPending q.pos q.gpa = none ∧
      s.lineBusy (State.reqHome q) q.hpa = false ∧ s.poisoned q.hpa 1 = false ∧ b = Memory.read s.mem q.hpa)

/-- R256 and R260-R262: the hart runs a job byte by byte: a fill writes byte k mod 8 of its pattern to byte k, a copy the
source's byte k, read from the scratchpad or at its home; a byte of an object enters the hart's buffer; a local byte
beyond the client's segment ends the job with FAULT; a push of a local tile puts its 1,024 bytes at the stream's tail with
the request's tag; no other byte changes.  An ended job that owes no write completes: its status is recorded, DONE
advances, and it leaves the channel.  That a step of the hart is one byte of a fill or copy and one tile of a push is
the model's choice (log entry 33).
R174, R262, R263 and R267: CPYG takes byte k of its rows from the element that the row's index names; PFCH ends with
RESIDENT at a resident granule, else keeps GEN, goes through the backing in parts of 4 KiB (the model's choice, log entry
33) and then fills the granule with the backing's bytes or zeros and sets RES, or, where RES or GEN has changed, changes
nothing and ends with FILL_STALE; EVCT ends with NOT_RESIDENT at a granule that is not resident, else clears RES and raises
GEN, and once the accesses before it are performed copies the granule byte by byte into the backing through the hart's
buffer, or discards it; a job with .STG completes once its tag meets STGF's condition, and marks the tag FULL; with a
descriptor that is malformed or lies beyond the client's segment it completes with FAULT and marks none. -/
def Obligations.CopyRuns : Prop :=
  (∀ (s : State) (p n k base lim : Nat) (j : CopyJob) (q : Req), OneJob s p j → k = j.done →
     base = segBase (s.keptSeg j.client) → lim = segLimit (s.keptSeg j.client) →
       (j.ended = false → Req4.len j.q = n → k < n → j.kind = .cpyf ∨ j.kind = .cpy →
         (Req4.dk j.q = 0 → bits (j.q.get 1) 17 0 + k < lim → ∀ b : Byte,
           ((j.kind = .cpyf ∧ b = (j.q.get 0).extractLsb' (8 * (k % 8)) 8) ∨
             (j.kind = .cpy ∧ Req4.sk j.q = 0 ∧ bits (j.q.get 0) 17 0 + k < lim ∧
               b = Memory.read (s.core p).spad (base + bits (j.q.get 0) 17 0 + k)) ∨
             (j.kind = .cpy ∧ j.begun = true ∧ Req4.sk j.q = 1 ∧ s.jobSource p j k = .mem q ∧
               s.hartPending q.pos q.gpa = none ∧ s.lineBusy (State.reqHome q) q.hpa = false ∧
               (∀ h, (s.home h).sat = []) ∧ s.poisoned q.hpa 1 = false ∧ b = Memory.read s.mem q.hpa)) →
           ∃ t, exec (.copyChunk (p / 8)) s = .next t ∧ OneMore s t p n n j ∧
             Memory.read (t.core p).spad (base + bits (j.q.get 1) 17 0 + k) = b ∧
             (∀ a, a ≠ base + bits (j.q.get 1) 17 0 + k →
               Memory.read (t.core p).spad a = Memory.read (s.core p).spad a) ∧ t.mem = s.mem) ∧
         (Req4.dk j.q = 0 → lim ≤ bits (j.q.get 1) 17 0 + k → Req4.sk j.q = 0 →
           ∃ t x, exec (.copyChunk (p / 8)) s = .next t ∧ (t.core p).channel = [x] ∧ x.ended = true ∧ x.status = 3 ∧
             x.cause = Cause.localRange.code ∧ x.done = k ∧ (t.core p).spad = (s.core p).spad ∧ t.mem = s.mem) ∧
         (j.kind = .cpyf → j.begun = true → Req4.dk j.q = 1 → s.jobDest p j k = .mem q →
           (s.core q.pos).buffer.length < 32 → (∀ h, (s.home h).sat = []) →
           ∃ t e po, exec (.copyChunk (p / 8)) s = .next t ∧ OneMore s t p n n j ∧
             (t.core q.pos).buffer = (s.core q.pos).buffer ++ [e] ∧ po ≠ some true ∧
             e.op = .obj { q with acc := .copied [(j.q.get 0).extractLsb' (8 * (k % 8)) 8] 0xFF po, n := 1 } ∧
             (t.core p).spad = (s.core p).spad ∧ t.mem = s.mem)) ∧
       (j.ended = false → j.kind = .cpytA ∨ j.kind = .cpytB → Req4.sk j.q = 0 → Req4.count j.q = n → k < n →
         Req4.scv j.q = false → bits (j.q.get 0) 5 0 = 0 → bits (j.q.get 0) 17 0 + 1024 * k + 1024 ≤ lim →
         ∀ str : Core → List Tile, str = (if j.kind = .cpytA then Core.strA else Core.strB) →
         (str (s.core p)).length < 16 →
         ∃ t x, exec (.copyChunk (p / 8)) s = .next t ∧ str (t.core p) = str (s.core p) ++ [x] ∧
           x.data = s.spadRead p (base + bits (j.q.get 0) 17 0 + 1024 * k) 1024 ∧ x.tag = Req4.tag j.q ∧
           x.poison = false ∧ x.sidecar = none ∧ OneMore s t p n (1024 * n) j ∧
           (if j.kind = .cpytA then (t.core p).strB = (s.core p).strB else (t.core p).strA = (s.core p).strA) ∧
           (t.core p).spad = (s.core p).spad ∧ t.mem = s.mem) ∧
       (j.ended = true → j.stg = false → s.hartOwes p (State.chanTid p) = false →
         (s.vcore j.client).completed = [] → (s.vcore j.client).done + 1 = j.id →
         ∃ t, exec (.copyChunk (p / 8)) s = .next t ∧ (t.core p).channel = [] ∧ (t.vcore j.client).done = j.id ∧
           (t.vcore j.client).history.head? = some ⟨j.id, j.status, j.cause, j.done⟩ ∧
           (t.core p).spad = (s.core p).spad ∧ t.mem = s.mem)) ∧
  (∀ (s : State) (p n k base lim : Nat) (j : CopyJob) (q : Req), OneJob s p j → k = j.done →
     base = segBase (s.keptSeg j.client) → lim = segLimit (s.keptSeg j.client) →
       (∀ (r : Rec) (rowb ia ix e : Nat), j.kind = .cpyg → j.ended = false → j.begun = true → Req4.dk j.q = 0 →
         rowb = bits (j.q.get 2) 15 0 → n = bits (j.q.get 2) 31 16 * rowb → k < n →
         ia = bits (j.q.get 2) 49 32 + 4 * (k / rowb) → ia + 4 ≤ lim → bits (j.q.get 1) 17 0 + k < lim →
         ix = ofBytes (s.spadRead p (base + ia) 4) →
         s.hartRecord p j.client (bits (j.q.get 0) 63 40) = some r → r.fmt ≠ 0xE →
         e = bits (j.q.get 0) 39 0 + ix * (rowb / fmtBytes r.fmt) + k % rowb / fmtBytes r.fmt →
         s.hartReq p (tableBase (s.vcore j.client).ortb) (bits (j.q.get 0) 63 40) r e Rec.permR = .mem q →
         ∀ x, x = State.reqByte q (k % rowb % fmtBytes r.fmt) → s.hartPending x.pos x.gpa = none →
           s.lineBusy (State.reqHome x) x.hpa = false → (∀ h, (s.home h).sat = []) → s.poisoned x.hpa 1 = false →
             ∃ t, exec (.copyChunk (p / 8)) s = .next t ∧ OneMore s t p n n j ∧
               Memory.read (t.core p).spad (base + bits (j.q.get 1) 17 0 + k) = Memory.read s.mem x.hpa ∧
               (∀ a, a ≠ base + bits (j.q.get 1) 17 0 + k →
                 Memory.read (t.core p).spad a = Memory.read (s.core p).spad a) ∧ t.mem = s.mem) ∧
       (∀ (r : Rec) (g ra b size gpa : Nat) (f : Nat → Nat) (src : Nat → Byte), j.ended = false → Target s p j r g ra →
         b = (Memory.read s.mem ra).toNat → size = 2 ^ (16 + r.gran) → gpa = r.base + g * size →
         (j.kind = .pfch → j.begun = false →
           (j.q.get 1 = 0 ∨ s.jobFormat p j = false ∧
             (s.hartRecord p j.client (bits (j.q.get 1) 63 40)).isSome = true) →
           ∃ t x, exec (.copyChunk (p / 8)) s = .next t ∧ (t.core p).channel = [x] ∧ t.mem = s.mem ∧ x.begun = true ∧
             (128 ≤ b → x.ended = true ∧ x.status = 2) ∧ (b < 128 → x = { j with begun := true, gen := b })) ∧
         (j.kind = .pfch → j.begun = true → k + 4096 < size → (∀ i < 4096, Backing s p j (k + i) (src i)) →
           ∃ t, exec (.copyChunk (p / 8)) s = .next t ∧ (t.core p).channel = [{ j with done := k + 4096 }] ∧
             t.mem = s.mem) ∧
         (j.kind = .pfch → j.begun = true → size ≤ k + 4096 → (∀ i < size, Backing s p j i (src i)) →
           (∀ i < size, s.hpaOf (gpa + i) = some (f i) ∧ s.reaches p (f i) = true ∧ f i ≠ ra) →
           (∀ i < size, ∀ i' < size, f i = f i' → i = i') → Memory.wf s.mem = true →
             ∃ t x, exec (.copyChunk (p / 8)) s = .next t ∧ (t.core p).channel = [x] ∧ x.ended = true ∧
               (b ≠ j.gen → x.status = 1 ∧ t.mem = s.mem) ∧
               (b = j.gen → x.status = j.status ∧ x.done = size ∧
                 (∀ i < size, Memory.read t.mem (f i) = src i) ∧ Memory.read t.mem ra = BitVec.ofNat 8 (128 + b) ∧
                 ∀ a, a ≠ ra → (∀ i < size, a ≠ f i) → Memory.read t.mem a = Memory.read s.mem a)) ∧
         (j.kind = .evct → j.begun = false → Memory.wf s.mem = true →
           (j.q.get 1 = 0 ∨ s.jobFormat p j = false ∧
             (s.hartRecord p j.client (bits (j.q.get 1) 63 40)).isSome = true) →
           ∃ t x, exec (.copyChunk (p / 8)) s = .next t ∧ (t.core p).channel = [x] ∧ x.begun = true ∧
             (b < 128 → x.ended = true ∧ x.status = 5 ∧ t.mem = s.mem) ∧
             (128 ≤ b → x = { j with begun := true } ∧ MemoryHolds s t ra 1 ((b + 1) % 128))) ∧
         (j.kind = .evct → j.begun = true →
           s.granulePending (tableBase (s.vcore j.client).ortb, bits (j.q.get 0) 63 40) = false →
             (j.q.get 1 = 0 ∨ size ≤ k →
               ∃ t, exec (.copyChunk (p / 8)) s = .next t ∧ (t.core p).channel = [{ j with ended := true }] ∧
                 t.mem = s.mem) ∧
             (∀ a, j.q.get 1 ≠ 0 → k < size → s.hpaOf (gpa + k) = some a → s.reaches p a = true →
               s.poisoned a 1 = false → s.backByte p j k Rec.permW = .mem q → (s.core q.pos).buffer.length < 32 →
               ∃ t y, exec (.copyChunk (p / 8)) s = .next t ∧ (t.core p).channel = [{ j with done := k + 1 }] ∧
                 (t.core q.pos).buffer = (s.core q.pos).buffer ++ [y] ∧
                 y.op = .obj { q with acc := .copied [Memory.read s.mem a] 0xFF none, n := 1 } ∧
                 t.mem = s.mem))) ∧
       (∀ (a seq m i rnd tag : Nat) (d : Word), j.ended = true → j.stg = true →
         s.hartOwes p (State.chanTid p) = false → (s.vcore j.client).completed = [] →
         (s.vcore j.client).done + 1 = j.id → (∀ i : Fin 16, (s.slotAt p i).pendC = none) →
         a = base + bits (j.q.get 3) 17 0 → seq = bits (j.q.get 3) 63 32 → d = s.spad64 p a → m = stageN d →
         i = seq % m → rnd = seq / m % 2 ^ 22 → tag = ofBytes (s.spadRead p (a + 8 + 3 * i) 3) →
           (bits (j.q.get 3) 17 0 + 32 ≤ lim → 0 < m → m ≤ 8 → 0 < stageSize d → bits d 63 52 = 0 →
             bits d 31 18 = 0 → tag = rnd ∨ tag = 2 ^ 22 + rnd →
             ∃ t, exec (.copyChunk (p / 8)) s = .next t ∧ (t.core p).channel = [] ∧
               (t.vcore j.client).done = j.id ∧
               (t.vcore j.client).history.head? = some ⟨j.id, j.status, j.cause, j.done⟩ ∧
               ofBytes (t.spadRead p (a + 8 + 3 * i) 3) = 2 * 2 ^ 22 + rnd ∧
               (∀ x, ¬(a + 8 + 3 * i ≤ x ∧ x < a + 11 + 3 * i) →
                 Memory.read (t.core p).spad x = Memory.read (s.core p).spad x) ∧ t.mem = s.mem) ∧
           (∀ c : Cause, (lim < bits (j.q.get 3) 17 0 + 32 ∧ c = .localRange) ∨
               (bits (j.q.get 3) 17 0 + 32 ≤ lim ∧ c = .illegal ∧ (m = 0 ∨ 8 < m ∨ stageSize d = 0 ∨
                 bits d 63 52 ≠ 0 ∨ bits d 31 18 ≠ 0 ∨ tag / 2 ^ 22 = 3)) →
             ∃ t, exec (.copyChunk (p / 8)) s = .next t ∧ (t.core p).channel = [] ∧
               (t.vcore j.client).done = j.id ∧
               (t.vcore j.client).history.head? = some ⟨j.id, 3, c.code, j.done⟩ ∧
               (t.core p).spad = (s.core p).spad ∧ t.mem = s.mem)))

/-- R255, R266-R268: MBXD on a copy hart waits while the job's writes are not performed, and completes the running job:
its status is recorded, and DONE is the largest identifier up to which all are complete; XWAIT goes on, and XWAIT.T writes 1, once DONE has reached the
identifier, or writes 0 when its slot's cycle has passed the deadline; XSTAT reports a transfer, and 0 for one that is not
complete, its BYTES too, which is the model's choice (log entry 115); KICK gives an idle hart a
microcode object. -/
def Obligations.CompletionAndWaiting : Prop :=
  ∀ (s : State) (rd ra rb : Reg) (p n : Nat) (j : CopyJob) (js : List CopyJob) (sl : Fin 16) (q : Pend) (x : XStat)
    (r : Rec),
    (s.cur.hart = false → exec (.mbxd ra rb) s = .next (s.trap .illegal s.cur.bundle)) ∧
    (s.cur.hart = true → p = cluOf s.cur.pos * 8 + bits (s.g ra) 2 0 → (s.core p).channel = j :: js →
      j.id = (s.g rb).toNat → s.hartOwes p (State.chanTid p) = true →
        ∃ t, exec (.mbxd ra rb) s = .next t ∧ t.cur.out = .held ∧ t.vcores = s.vcores ∧
          (t.core p).channel = (s.core p).channel ∧ t.mem = s.mem) ∧
    (s.cur.hart = true → p = cluOf s.cur.pos * 8 + bits (s.g ra) 2 0 → (s.core p).channel = j :: js → j.stg = false →
      s.hartOwes p (State.chanTid p) = false → j.id = (s.g rb).toNat → (∀ y ∈ js, y.id ≠ j.id) → (s.vcore j.client).completed = [] →
      (s.vcore j.client).done + 1 = j.id →
        ∃ t, exec (.mbxd ra rb) s = .next t ∧ (t.core p).channel = js ∧ (t.vcore j.client).done = j.id ∧
          (t.vcore j.client).history.head? =
            some ⟨j.id, bits (s.g ra) 15 8, bits (s.g ra) 23 16, bits (s.g ra) 63 32⟩ ∧ t.mem = s.mem) ∧
    (s.me.occ = s.me.tid.vc →
      ((s.g ra).toNat ≤ (s.vcore s.me.tid.vc).done → exec (.xwait ra) s = .next s ∧
        exec (.xwaitT rd ra rb) s = .next (s.setG rd 1)) ∧
      ((s.vcore s.me.tid.vc).done < (s.g ra).toNat →
        (∃ t, exec (.xwait ra) s = .next t ∧ t.cur.out = .parked ∧ t.me.regs = s.me.regs) ∧
        ∃ t, exec (.xwaitT rd ra rb) s = .next t ∧ t.cur.out = .parked ∧ t.me.regs = s.me.regs)) ∧
    ((s.slotAt p sl).pendC = some q → q.ins = .xwaitT rd ra rb → q.phase = 1 → rd ≠ 0 → ra ≠ 0 → rb ≠ 0 →
      s.time % 16 = sl.val → ((s.slotAt p sl).latch.g.get rb).toNat ≤ s.time →
        ∃ t, exec (.xwaitDeadline p sl.val) s = .next t ∧ (t.slotAt p sl).pendC = none ∧
          (t.slotAt p sl).regs.g.get rd =
            (if ((s.slotAt p sl).latch.g.get ra).toNat ≤ (s.vcore (s.slotAt p sl).tid.vc).done then 1 else 0) ∧
          (∀ k, k ≠ rd → (t.slotAt p sl).regs.g.get k = (s.slotAt p sl).regs.g.get k) ∧ t.mem = s.mem) ∧
    (n = (s.g ra).toNat →
      ((s.vcore s.me.tid.vc).done < n → exec (.xstat rd ra) s = .next (s.setG rd 0)) ∧
      (n ≤ (s.vcore s.me.tid.vc).done → (s.vcore s.me.tid.vc).history.head? = some x → x.id = n → x.status < 256 →
        x.cause < 256 → Gives (.xstat rd ra) s rd (fun w => w.getLsbD 63 = true ∧ w.getLsbD 62 = false ∧
          bits w 47 16 = min x.bytes (2 ^ 32 - 1) ∧ bits w 15 8 = x.cause ∧ bits w 7 0 = x.status))) ∧
    (s.sup = true → s.cur.phase = 0 → bits (s.g ra) 39 6 = 0 → s.look (bits (s.g ra) 63 40) = .got r → r.rvk = false →
      r.permX = true → NothingPending s → s.hartBusy (64 * dieOf s.cur.pos + bits (s.g ra) 5 0) = false →
        ∃ t, exec (.kick ra) s = .next t ∧
          (t.cluster (64 * dieOf s.cur.pos + bits (s.g ra) 5 0)).microcode = bits (s.g ra) 63 40 ∧
          t.cores = s.cores ∧ t.mem = s.mem)

/-! ### Groups and collectives (R290-R305) -/

/-- The thread is at home, register g of its vcore is bound, the record of the window object is present and not revoked
(R180 steps 1 and 2, R290), and no window of the group has been (R304). -/
def Sys2Proof.Claim.Bound (s : State) (g : Fin 8) (x : Grp) (r : Rec) : Prop :=
  s.me.occ = s.me.tid.vc ∧ x = (s.vcore s.me.tid.vc).grp.get g ∧ x.bound = true ∧ x.obj < 2 ^ 24 ∧
    s.look x.obj = .got r ∧ r.rvk = false ∧ s.revoked x.gid = false

/-- The round that has been started (R292): the register's SEQ one higher, the round last in its list. -/
def Sys2Proof.Claim.Started (s t : State) (g : Fin 8) (x : Grp) (d : Option CollDesc) (w : Option (Nat × Word)) : Prop :=
  ((t.vcore s.me.tid.vc).grp.get g).seq = x.seq + 1 ∧
    (∃ rest, ((t.vcore s.me.tid.vc).grp.get g).rounds = rest ++ [{ n := x.seq.toNat, desc := d, wait := w }]) ∧
    (∀ i, i ≠ g → (t.vcore s.me.tid.vc).grp.get i = (s.vcore s.me.tid.vc).grp.get i) ∧ t.mem = s.mem

/-- R290-R293, R296-R298, R302 and R305: what each collective instruction does where its tests pass and its release has
nothing to wait for; on an unbound register each but CMC traps ILLEGAL with the register's number; once a window of
the group has been revoked, CMC, GST, GCOL and WNW trap REVOKED (R304).  That GLD reports the round started last also
after an abort has set SEQ back is the model's reading (log entry 12).  GABT waits while no way leads to the root. -/
def Obligations.CollectiveInstructions : Prop :=
  ∀ (s : State) (g : Fin 8) (rd ra rb : Reg) (x : Grp) (r : Rec) (e : Sheaf) (rn : Round) (op : CollOp) (pr : Fin 4) (k : Fin 8)
    (pa : Nat) (d : CollDesc) (ws : List Word),
    s.cur.phase = 0 → s.cur.isA = false →
      (s.me.occ = s.me.tid.vc → State.openRound ((s.vcore s.me.tid.vc).grp.get g) = false →
        bits (s.g rb) 63 60 ∈ [0, 9, 10, 11] → bits (s.g rb) 59 56 = 0 → bits (s.g rb) 31 24 = 0 →
        bits (s.g rb) 23 0 < bits (s.g rb) 55 32 → s.look (bits (s.g ra) 63 40) = .got r → r.rvk = false →
        (r.multi = false → exec (.cmc g ra rb) s = .next (s.trap .objPerm (s.g ra))) ∧
        (r.multi = true → s.revoked r.group = true → exec (.cmc g ra rb) s = .next (s.trap .revoked (s.g ra))) ∧
        (r.multi = true → s.revoked r.group = false → s.sheafOf (dieOf s.cur.pos) r.group = some e →
          ∃ t, exec (.cmc g ra rb) s = .next t ∧
            (t.vcore s.me.tid.vc).grp.get g =
              { bound := true, obj := bits (s.g ra) 63 40, gid := r.group, op := Sheaf.op e, vc := Sheaf.vc e
                rank := bits (s.g rb) 23 0, nrank := bits (s.g rb) 55 32, wfmt := bits (s.g rb) 63 60 } ∧
            (∀ i, i ≠ g → (t.vcore s.me.tid.vc).grp.get i = (s.vcore s.me.tid.vc).grp.get i) ∧
            t.cores = s.cores ∧ t.mem = s.mem)) ∧
      (Bound s g x r →
        exec (.gseq rd g) s = .next (s.setG rd (x.seq.setWidth 64)) ∧
        (NothingPending s → (∀ y ∈ x.rounds, y.n ≠ x.seq.toNat) →
          ∃ t, exec (.gst g ra) s = .next t ∧ Started s t g x none (some (s.fresh, s.g ra)) ∧
            t.me.pendC = some ⟨.gst g ra, 2, [BitVec.ofNat 64 x.seq.toNat], .token s.fresh⟩) ∧
        (x.rounds = [] → exec (.gld rd g) s = .next (s.setG rd 0)) ∧
        (x.rounds.getLast? = some rn →
          (rn.cancelled = true →
            exec (.gld rd g) s = .next (s.trap .collectiveAbort (BitVec.ofNat 64 rn.n))) ∧
          (rn.cancelled = false → rn.complete = true → rn.desc = none →
            exec (.gld rd g) s = .next (s.setG rd rn.result)) ∧
          (rn.cancelled = false → rn.complete = true → rn.desc ≠ none → rn.n < 2 ^ 32 → rn.cause < 256 →
            rn.status < 256 → Gives (.gld rd g) s rd (fun w =>
              bits w 63 32 = rn.n ∧ bits w 31 16 = 0 ∧ bits w 15 8 = rn.cause ∧ bits w 7 0 = rn.status)) ∧
          (rn.cancelled = false → rn.complete = false →
            ∃ t, exec (.gld rd g) s = .next t ∧ t.me.regs = s.me.regs ∧
              t.me.pendC = some ⟨.gld rd g, 1, [BitVec.ofNat 64 rn.n], .token s.fresh⟩)) ∧
        (bits (s.g ra) 63 32 = 0 → x.seq.toNat ≤ (s.g ra).toNat ∨ (s.g ra).toNat < x.noticed →
          exec (.gabt g ra) s = .next s) ∧
        (bits (s.g ra) 63 32 = 0 → (s.g ra).toNat < x.seq.toNat → x.noticed ≤ (s.g ra).toNat →
          (s.treeJoins s.me.tid.vc x.gid = false → ∃ t, exec (.gabt g ra) s = .next t ∧ t.cur.out = .parked ∧
            t.me.pendC = some ⟨.gabt g ra, 2, [BitVec.ofNat 64 x.gid], .poll⟩ ∧ t.trees = s.trees ∧ t.mem = s.mem) ∧
          (s.treeJoins s.me.tid.vc x.gid = true → (s.tree x.gid).cancels = [] →
          ∃ t, exec (.gabt g ra) s = .next t ∧ t.me.pendC = some ⟨.gabt g ra, 1, [], .token s.fresh⟩ ∧
            (t.tree x.gid).cancels = [⟨(s.g ra).toNat, (s.members x.gid).map (·.1), [s.fresh]⟩] ∧ t.mem = s.mem)) ∧
        (s.cur.slot = 15 → (s.g ra).toNat % 32 = 0 → s.localRange (s.g ra) 32 = some pa →
          s.spadPoisoned s.cur.pos pa 32 = false → ws.length = 4 →
          (∀ i < 4, ws.getD i 0 = BitVec.ofNat 64 (ofBytes (s.spadRead s.cur.pos (pa + 8 * i) 8))) →
          State.descBad op x.nrank ws (s.g rb) = false → d = State.descOf op ws (s.g rb) →
          State.collFmtOk op x.op d.fmt = true → NothingPending s →
          ((s.cluster (cluOf s.cur.pos)).coll.filter fun j => j.prio == pr).length < 16 →
            ∃ t, exec (.gcol g ra rb pr op) s = .next t ∧ Started s t g x (some d) none ∧
              (t.cluster (cluOf s.cur.pos)).coll = (s.cluster (cluOf s.cur.pos)).coll ++
                [{ vc := s.me.tid.vc, n := g, gid := x.gid, prio := pr, round := x.seq.toNat }]) ∧
        (x.wfmt ≠ 0 → (s.g ra).toNat % 8 = 0 → s.localRange (s.g ra) (8 * (k.val + 1)) = some pa →
          bits (s.g rb) 39 36 = 0 → s.spadPoisoned s.cur.pos pa (8 * (k.val + 1)) = false → NothingPending s →
            ∃ t y root off fmt, exec (.wnw g ra rb k) s = .next t ∧ t.net.get s.fresh = some y ∧
              y.load = .klist x.gid (s.g rb) (k.val + 1) fmt x.nrank
                ((List.range (k.val + 1)).map fun i => BitVec.ofNat 64 (ofBytes (s.spadRead s.cur.pos (pa + 8 * i) 8)))
                off root ∧ off = (s.g ra).toNat ∧ fmt = x.wfmt ∧ (∀ p, t.core p = s.core p) ∧ t.mem = s.mem)) ∧
      (∀ i, i ∈ [Instr.gseq rd g, .gst g ra, .gld rd g, .gabt g ra, .wnw g ra rb k] → s.me.occ = s.me.tid.vc →
        ((s.vcore s.me.tid.vc).grp.get g).bound = false →
          exec i s = .next (s.trap .illegal (BitVec.ofNat 64 g.val))) ∧
      (s.me.occ = s.me.tid.vc → s.cur.slot = 15 → ((s.vcore s.me.tid.vc).grp.get g).bound = false →
        exec (.gcol g ra rb pr op) s = .next (s.trap .illegal (BitVec.ofNat 64 g.val))) ∧
      (s.me.occ = s.me.tid.vc → x = (s.vcore s.me.tid.vc).grp.get g → x.bound = true → x.obj < 2 ^ 24 →
        s.look x.obj = .got r → s.revoked x.gid = true →
          exec (.gst g ra) s = .next (s.trap .revoked (BitVec.ofNat 64 (x.obj * 2 ^ 40))) ∧
          (x.wfmt ≠ 0 → (s.g ra).toNat % 8 = 0 → s.localRange (s.g ra) (8 * (k.val + 1)) = some pa →
            bits (s.g rb) 39 36 = 0 →
              exec (.wnw g ra rb k) s = .next (s.trap .revoked (BitVec.ofNat 64 (x.obj * 2 ^ 40)))) ∧
          (s.cur.slot = 15 → (s.g ra).toNat % 32 = 0 → s.localRange (s.g ra) 32 = some pa →
            s.spadPoisoned s.cur.pos pa 32 = false → ws.length = 4 →
            (∀ i < 4, ws.getD i 0 = BitVec.ofNat 64 (ofBytes (s.spadRead s.cur.pos (pa + 8 * i) 8))) →
            State.descBad op x.nrank ws (s.g rb) = false →
            State.collFmtOk op x.op (State.descOf op ws (s.g rb)).fmt = true →
              exec (.gcol g ra rb pr op) s = .next (s.trap .revoked (BitVec.ofNat 64 (x.obj * 2 ^ 40)))))

/-- Register i of vcore v is the one of its registers that is bound to group gid, whose root it reaches; r is its
running round, with no cancel on its way. -/
def Sys2Proof.Claim.Running (s : State) (v gid : Nat) (i : Fin 8) (g : Grp) (r : Round) : Prop :=
  g = (s.vcore v).grp.get i ∧ s.boundTo v gid = [i] ∧ g.gid = gid ∧ g.rounds = [r] ∧ r.complete = false ∧
    r.cancelled = false ∧ (s.tree gid).cancels = []

/-- R292, R294, R295, R299 and R302: a granted scalar contribution enters its group's tree and ends the wait of its
GST, and the last rank's completes the chunk with OP over all ranks, here the wrapped sum; a delivery gives the rank
the result, completes its round and ends the GLD that waits for it; a notice lets the next round begin; a cancel
reaches a rank, which takes its rounds back and acknowledges.
R292, R294, R302 and R305: a completion notice, a cancel's arrival, a merge of lists at a Winnow unit and a write of
the sheaf table, which leaves the rounds under way as they are (the model's reading, log entry 41). -/
def Obligations.CollectiveEvents : Prop :=
  (∀ (s : State) (v gid n tok : Nat) (w : Word) (i : Fin 8) (g : Grp) (r : Round) (tr : TreeRound) (p : Nat) (j : Fin 16),
     Running s v gid i g r → r.n = n → r.desc = none →
       (r.wait = some (tok, w) → r.granted = 0 → r.delivered = 0 → n = g.noticed → (s.tree gid).fin ≤ n →
         s.findToken tok = some (p, j, false) →
         (s.tree gid).rounds = [tr] → tr.n = n → tr.sums = [] → (∀ x ∈ tr.parts, x.rank ≠ g.rank ∧ x.chunk = 0 ∧ x.marked = none ∧
           x.elems.length = 1) →
           ∃ t y, exec (.reservationGrant v gid) s = .next t ∧ (t.tree gid).rounds = [y] ∧ y.n = n ∧
             y.parts = tr.parts ++ [{ rank := g.rank, chunk := 0, elems := [(w.toNat, false)] }] ∧
             (tr.parts.length + 1 < g.nrank → y.sums = []) ∧
             (tr.parts.length + 1 = g.nrank → g.op = 0 → ∃ b, y.sums = [(0, [(b, (tr.parts.any fun x => (x.elems.headD (0, false)).2))])] ∧
               b = ((tr.parts.map fun x => (x.elems.headD (0, false)).1).sum + w.toNat) % 2 ^ 64) ∧
             (t.slotAt p j).pendC = none ∧ (t.slotAt p j).regs = (s.slotAt p j).regs ∧ t.mem = s.mem) ∧
       (∀ b z, r.granted = 1 → r.delivered = 0 → (s.tree gid).rounds = [tr] → tr.n = n → tr.sums = [(0, [(b, z)])] →
         tr.parts.length = g.nrank → (∀ x ∈ tr.parts, x.chunk = 0) →
         s.hartOwes (s.posOf v) (State.collTid v i) = false → s.jobQueued v i n = false →
           ∃ t, exec (.collectiveDelivery v gid) s = .next t ∧
             ((t.vcore v).grp.get i).rounds =
               [{ r with delivered := 1, put := 0, complete := true, result := BitVec.ofNat 64 b }] ∧
             (tr.complete = [] → 1 < g.nrank → ∃ y, (t.tree gid).rounds = [y] ∧ y.complete = [g.rank] ∧ y.n = n) ∧
             (g.nrank = 1 → tr.complete = [] → (s.tree gid).fin = n →
               (t.tree gid).fin = n + 1 ∧ (t.tree gid).rounds = []) ∧
             (r.readers = [] → t.cores = s.cores) ∧
             (∀ k rd, r.readers = [(k, rd)] → s.findToken k = some (p, j, false) → rd ≠ 0 →
               (t.slotAt p j).pendC = none ∧ (t.slotAt p j).regs.g.get rd = BitVec.ofNat 64 b ∧
                 ∀ y, y ≠ rd → (t.slotAt p j).regs.g.get y = (s.slotAt p j).regs.g.get y) ∧ t.mem = s.mem)) ∧
  (∀ (s : State) (v gid id die : Nat) (i : Fin 8) (g : Grp) (r : Round) (c : Cancel) (x : Item) (key : Word)
     (k fmt nrank off : Nat) (ws : List Word) (sl : WSlot) (e : BitVec 128),
     (g = (s.vcore v).grp.get i → s.boundTo v gid = [i] → g.gid = gid → r ∈ g.rounds → r.n = g.noticed → r.complete = true →
       r.cancelled = false → g.noticed < (s.tree gid).fin → (s.tree gid).cancels = [] →
         ∃ t, exec (.completionNotice v gid) s = .next t ∧
           (t.vcore v).grp.get i = { g with noticed := g.noticed + 1 } ∧ t.cores = s.cores ∧ t.mem = s.mem) ∧
     (g = (s.vcore v).grp.get i → s.boundTo v gid = [i] → (s.tree gid).cancels = [c] → c.left = [v] → c.tokens = [] →
       s.rankAway gid = false →
       (∀ y ∈ g.rounds, y.desc = none) → s.threads = [] → s.hartOwes (s.posOf v) (State.collTid v i) = false →
         ∃ t, exec (.roundCancel v gid) s = .next t ∧ (t.tree gid).cancels = [] ∧
           ((t.vcore v).grp.get i).seq.toNat = min g.seq.toNat c.n ∧
           (∀ y ∈ ((t.vcore v).grp.get i).rounds, c.n ≤ y.n → y.cancelled = true) ∧ t.mem = s.mem) ∧
     (s.net.get id = some x → x.load = .klist gid key k fmt nrank ws off die → s.travels x = true →
       ((s.die die).winnow = [] → 1 < nrank →
         ∃ t, exec (.winnowMerge id) s = .next t ∧ t.net = s.net.del id ∧
           (t.die die).winnow = [⟨gid, key, k, fmt, nrank, 1, 0, ws, off⟩] ∧ t.cores = s.cores ∧ t.mem = s.mem) ∧
       ((s.die die).winnow = [sl] → sl.gid = gid → sl.key = key → sl.lists + 1 = sl.nrank → pkgOf (bits key 35 0) = s.pkg →
         ∃ t y, exec (.winnowMerge id) s = .next t ∧ (t.die die).winnow = [] ∧ t.net.get s.fresh = some y ∧
           y.load = .winnow key (mergeLists sl.fmt sl.k sl.list ws) sl.off ∧ t.cores = s.cores ∧ t.mem = s.mem)) ∧
     ((e.getLsbD 127 = true → (s.die die).sheaf.length < 1024 →
       ∃ t m, exec (.sheafTableWrite die e) s = .next t ∧ m ∈ (t.die die).sheaf ∧
         (∀ b < 128, m.getLsbD b = (e.getLsbD b && !(decide (96 ≤ b ∧ b ≤ 103) || decide (112 ≤ b ∧ b ≤ 118)))) ∧
         (∀ y, Sheaf.gid y ≠ Sheaf.gid e → (y ∈ (t.die die).sheaf ↔ y ∈ (s.die die).sheaf)) ∧
         (∀ y ∈ (t.die die).sheaf, Sheaf.gid y = Sheaf.gid e → y = m) ∧
         ((∃ d < 8, (s.sheafOf d (Sheaf.gid e)).isSome = true) → t.trees = s.trees) ∧ t.cores = s.cores ∧
         t.mem = s.mem) ∧
     (e.getLsbD 127 = false →
       ∃ t, exec (.sheafTableWrite die e) s = .next t ∧
         (∀ y, y ∈ (t.die die).sheaf ↔ y ∈ (s.die die).sheaf ∧ Sheaf.gid y ≠ Sheaf.gid e) ∧ t.cores = s.cores)))

/-! ### Swath streams (R306-R323) -/

/-- R311-R314: at home, SWOPEN of a closed stream without a spill object opens it empty with its quota and descriptor,
SWDROP drops the entries of its range that await nothing, SWCLOSE of an open stream that awaits nothing drops all and
closes it, and SWQRY reports the stream; SWDROP on a closed stream traps ILLEGAL with its number, and SWOPEN with a
descriptor word whose [63:32] are not zero with that word (R311). -/
def Obligations.SwathStreams : Prop :=
  ∀ (s : State) (i : Fin 4) (rd ra rb : Reg) (v : Nat) (x : Stream),
    s.cur.phase = 0 → v = s.me.tid.vc → s.me.occ = v → x = (s.vcore v).str.get i →
      (x.isOpen = false → s.g ra = 0 → bits (s.g rb) 63 32 = 0 → State.gdescOk (s.g rb) = true →
        ∃ t, exec (.swopen i ra rb) s = .next t ∧
          (t.vcore v).str.get i =
            { isOpen := true, quota := bits s.me.regs.swq 24 0, gdesc := BitVec.ofNat 32 (bits (s.g rb) 31 0) } ∧
          (∀ k, k ≠ i → (t.vcore v).str.get k = (s.vcore v).str.get k) ∧ t.cores = s.cores ∧ t.mem = s.mem) ∧
      (bits (s.g ra) 39 0 = 0 → bits (s.g rb) 63 32 ≠ 0 →
        exec (.swopen i ra rb) s = .next (s.trap .illegal (s.g rb))) ∧
      (x.isOpen = false → exec (.swclose i) s = .next s ∧
        exec (.swdrop i ra rb) s = .next (s.trap .illegal (BitVec.ofNat 64 i.val))) ∧
      (x.isOpen = true → x.busy = false → (∀ e ∈ x.entries, e.2.awaiting = false) →
        (∃ t, exec (.swclose i) s = .next t ∧ ((t.vcore v).str.get i).isOpen = false ∧
          ((t.vcore v).str.get i).entries = [] ∧ ((t.vcore v).str.get i).next = x.next ∧
          (∀ k, k ≠ i → (t.vcore v).str.get k = (s.vcore v).str.get k) ∧ t.cores = s.cores ∧ t.mem = s.mem) ∧
        (bits (s.g ra) 63 32 = 0 → bits (s.g rb) 62 32 = 0 →
          ∃ t, exec (.swdrop i ra rb) s = .next t ∧
            ((t.vcore v).str.get i).entries = x.entries.filter (fun e =>
              !(decide (bits (s.g ra) 31 0 ≤ e.1) && decide (e.1 < bits (s.g ra) 31 0 + bits (s.g rb) 31 0))) ∧
            ((t.vcore v).str.get i).rcmp = (x.rcmp || (s.g rb).getLsbD 63) ∧
            ((t.vcore v).str.get i).next = x.next ∧
            (∀ k, k ≠ i → (t.vcore v).str.get k = (s.vcore v).str.get k) ∧ t.cores = s.cores ∧ t.mem = s.mem)) ∧
      (x.entries.length < 2 ^ 29 → Gives (.swqry i rd .state) s rd (fun w => w.getLsbD 63 = x.isOpen ∧ w.getLsbD 62 = x.rcmp ∧
        w.getLsbD 61 = x.busy ∧ bits w 60 32 = x.entries.length ∧ bits w 31 0 = x.next.toNat)) ∧
      Gives (.swqry i rd .counts) s rd (fun w => bits w 63 48 = x.orphan.toNat ∧ bits w 47 32 = x.rerouted.toNat ∧
        bits w 31 16 = x.moved.toNat ∧ bits w 15 0 = x.undelivered.toNat) ∧
      Gives (.swqry i rd .faults) s rd (fun w => bits w 63 32 = x.dlo.toNat ∧ bits w 31 16 = x.bad.toNat ∧
        bits w 15 0 = x.twinf.toNat)

/-- The recording instructions with their kinds, group registers, routes and receivers (R309, R315). -/
def Sys2Proof.Claim.recordings (s : State) (i : Fin 4) (ra rb : Reg) (g : Fin 8) :
    List (Instr × Nat × Nat × Bool × List Nat) :=
  let x := (s.vcore s.me.tid.vc).grp.get g
  [(.fwm i ra rb g, 1, x.gid, true, ((s.members x.gid).map (·.1)).filter fun w => w != s.me.tid.vc),
    (.fwg i ra rb g, 2, x.gid, true, [bits (s.g rb) 35 0]),
    (.fwa i ra rb, 3, bits (s.g rb) 63 48, false, [bits (s.g rb) 35 0])]

/-- R315-R317: a recording instruction on an open stream with room, whose span's ends pass their tests and whose elements are
all present and clean, creates the entry of the next sequence, awaiting acknowledgement, and sends the
elements' bytes as the memory holds them, under the record's key id (R357); with the quota reached it traps SWATH_FULL. -/
def Obligations.SwathRecording : Prop :=
  ∀ (s : State) (i : Fin 4) (ra rb : Reg) (g : Fin 8) (ins : Instr) (kind route : Nat) (grp : Bool) (to' : List Nat)
    (v idx len n : Nat) (x : Stream) (r : Rec) (at' : Nat → Req),
    (ins, kind, route, grp, to') ∈ recordings s i ra rb g → s.cur.phase = 0 → v = s.me.tid.vc → s.me.occ = v →
    x = (s.vcore v).str.get i → x.isOpen = true → x.rcmp = false →
    (grp = true → ((s.vcore v).grp.get g).bound = true ∧ bits (s.g ra) 63 40 = ((s.vcore v).grp.get g).obj) →
    v < 2 ^ 36 → len = bits (s.g rb) 47 36 → len ≠ 0 → (kind ≠ 3 → bits (s.g rb) 63 48 = 0) → (kind = 1 → bits (s.g rb) 35 0 = 0) →
    idx = bits (s.g ra) 39 0 → s.look (bits (s.g ra) 63 40) = .got r → r.rvk = false → r.permR = true → r.rec1 = true →
    r.fmt ≠ 14 → idx + len ≤ r.count → (kind ≠ 1 → s.inPart (bits (s.g rb) 35 0) = true) → n = fmtBytes r.fmt →
    (∀ k < len, s.elemPoisoned r (idx + k) n = false) →
      (x.quota ≤ x.entries.length → exec ins s =
        .next (s.trap .swathFull (BitVec.ofNat 64 (i.val * 2 ^ 32 + x.next.toNat)))) ∧
      (x.entries.length < x.quota → x.next ≠ 0xFFFFFFFF → s.portUse (State.portStore (s.posOf v)) < 2048 →
        (∀ k < len, s.hartElem s.cur.pos r (idx + k) Rec.permR = .mem (at' k)) → (s.core s.cur.pos).buffer = [] →
        (∀ h, (s.home h).sat = []) →
          ∃ t e y, exec ins s = .next t ∧ ((t.vcore v).str.get i).next = x.next + 1 ∧
            ((t.vcore v).str.get i).entries.get x.next.toNat = some e ∧ e.awaiting = true ∧ e.port.isSome = true ∧
            bits (e.w.get 0) 31 0 = x.next.toNat ∧ bits (e.w.get 0) 35 32 = kind ∧ bits (e.w.get 0) 39 36 = 0 ∧
            (route < 2 ^ 16 → bits (e.w.get 0) 63 48 = route) ∧ e.w.get 1 = s.g ra ∧
            bits (e.w.get 2) 59 36 = len ∧ t.net.get s.fresh = some y ∧
            y.load = .transfer s.me.tid i (some x.next.toNat) (if kind = 1 then some ((s.vcore v).grp.get g).gid else none) (bits (s.g ra) 63 40) idx n
              ((List.range len).map fun k => ofBytes (Memory.readN s.mem (at' k).hpa n)) [] to' false ∧ y.key = r.okey ∧
            t.me.unacked = s.fresh :: s.me.unacked ∧ t.me.regs = s.me.regs ∧ t.mem = s.mem)

/-- R310, R315 and R318: a transfer to one vcore records the ports of the links it crosses on each hop.  At its receiver's
core, once no store to its elements is left in that core's buffer (log entry 105), it writes its elements where the
receiver's own record and tests allow and becomes an acknowledgement with the port of its arrival, else a return; an acknowledgement ends the entry's wait and records the
hops; an FWM with no receiver left, and no member in another package, is acknowledged without hops; a return sets the
entry's status to UNDELIVERED and counts it.
R320-R323: RPLY of nothing has no effect; of a sequence that is not held it traps SWATH_STALE with the stream and
sequence; of one delivered entry to one vcore whose twins answer it sends, for the entry's element, the gradient at
the receiver's twin, rounded once to the gradient format, to be added to the element of the sender's own twin. -/
def Obligations.SwathTransfersAndReplay : Prop :=
  (∀ (s : State) (id w p obj idx n : Nat) (x : Item) (src : Tid) (i : Fin 4) (seq : Nat) (es hs : List Nat) (r : Rec)
     (at' : Nat → Req) (j : Fin 16) (e : SwEntry) (ports : List Nat) (alt : Bool),
     s.net.get id = some x →
       (x.load = .transfer src i (some seq) none obj idx n es hs [w] false → pkgOf w = s.pkg →
         s.crossing x.die (dieOf x.dst) = some (ports, alt) →
         (∀ q, s.hop w x.dst = .next q → ∃ t y, exec (.recordedTransferArrival id w) s = .next t ∧
           t.net.get id = some y ∧ y.dst = q ∧ y.die = dieOf x.dst ∧
           y.load = .transfer src i (some seq) none obj idx n es (hs ++ ports) [w] false ∧ t.mem = s.mem) ∧
         (s.hop w x.dst = .exited → ∃ t y, exec (.recordedTransferArrival id w) s = .next t ∧
           t.net.get id = some y ∧ y.load = .transferAck src i (some seq) (hs ++ ports) true ∧ t.mem = s.mem)) ∧
       (x.load = .transfer src i (some seq) none obj idx n es hs [w] false → pkgOf w = s.pkg →
         s.crossing x.die (dieOf x.dst) = some (ports, alt) →
         s.hop w x.dst = .here → s.recordOf w obj = .ok r → r.ok = true → obj ≠ 0 →
         obj < 2 ^ tableLog (s.vcore w).ortb →
         (r.permW = true → r.rvk = false → r.fmt ≠ 14 → fmtBytes r.fmt = n → idx + es.length ≤ r.count →
           (∀ k < es.length, s.hartElem (s.posOf w) r (idx + k) Rec.permW = .mem (at' k) ∧
             s.storedAt (s.posOf w) (at' k).hpa n = false) →
           (∀ k < es.length, ∀ l < es.length, k ≠ l → State.overlap (at' k).hpa n (at' l).hpa n = false) →
           (∀ h, (s.home h).sat = []) → Memory.wf s.mem = true →
           ∃ t y, exec (.recordedTransferArrival id w) s = .next t ∧
             (∀ k < es.length, ofBytes (Memory.readN t.mem (at' k).hpa n) = es.getD k 0 % 2 ^ (8 * n)) ∧
             (∀ a, (∀ k < es.length, ¬((at' k).hpa ≤ a ∧ a < (at' k).hpa + n)) →
               Memory.read t.mem a = Memory.read s.mem a) ∧
             t.net.get id = some y ∧
             y.load = .transferAck src i (some seq) (hs ++ (ports ++ [State.clusterPort x.dst])) false ∧
             t.cores = s.cores) ∧
         (r.permW = false → es ≠ [] →
           ∃ t y, exec (.recordedTransferArrival id w) s = .next t ∧ t.net.get id = some y ∧
             (∃ hs', y.load = .transferAck src i (some seq) hs' true) ∧ t.mem = s.mem ∧ t.cores = s.cores)) ∧
       (s.travels x = true → s.whereIs src = .slot p j →
         ((s.vcore src.vc).str.get i).entries.get seq = some e → e.port.isSome = true →
         (x.load = .transferAck src i (some seq) hs false → s.hop src.vc x.dst = .here → bits (e.w.get 0) 35 32 ≠ 1 → hs.length ≤ 8 →
           (∀ h ∈ hs, h < 256) →
           ∃ t y, exec (.swathAcknowledgement id) s = .next t ∧ t.net = s.net.del id ∧
             (t.slotAt p j).unacked = (s.slotAt p j).unacked.filter (fun k => k != id) ∧
             ((t.vcore src.vc).str.get i).entries.get seq = some y ∧ y.awaiting = false ∧
             bits (y.w.get 2) 63 60 = hs.length ∧
             (∀ k < 8, bits (y.w.get 3) (8 * k + 7) (8 * k) = hs.getD k 255) ∧ t.mem = s.mem) ∧
         (∀ gid, x.load = .transfer src i (some seq) (some gid) obj idx n es hs [] false → s.rankAway gid = false →
           ∃ t y, exec (.swathAcknowledgement id) s = .next t ∧ t.net = s.net.del id ∧
             (t.slotAt p j).unacked = (s.slotAt p j).unacked.filter (fun k => k != id) ∧
             ((t.vcore src.vc).str.get i).entries.get seq = some y ∧ y.awaiting = false ∧
             bits (y.w.get 2) 63 60 = 0 ∧ y.w.get 3 = BitVec.allOnes 64 ∧ t.mem = s.mem) ∧
         (x.load = .transferAck src i (some seq) hs true → s.hop src.vc x.dst = .here →
           ∃ t y, exec (.swathAcknowledgement id) s = .next t ∧ t.net = s.net.del id ∧
             ((t.vcore src.vc).str.get i).entries.get seq = some y ∧ y.awaiting = false ∧ bits (y.w.get 0) 39 36 = 1 ∧
             ((t.vcore src.vc).str.get i).undelivered =
               (if ((s.vcore src.vc).str.get i).undelivered = 0xFFFF then 0xFFFF
                else ((s.vcore src.vc).str.get i).undelivered + 1) ∧ t.mem = s.mem))) ∧
  (∀ (s : State) (i : Fin 4) (ra rb : Reg) (fwd : Bool) (v f d o i0 gfmt : Nat) (x : Stream) (e : SwEntry)
     (own tw : Rec × Nat × Rec) (q ad : Req),
     s.cur.phase = 0 → s.cur.isA = false → v = s.me.tid.vc → s.me.occ = v → x = (s.vcore v).str.get i → f = (s.g ra).toNat →
       (x.isOpen = false → exec (.rply i ra rb fwd) s = .next (s.trap .illegal (BitVec.ofNat 64 i.val))) ∧
       (x.isOpen = true → f < 2 ^ 32 →
         (s.g rb = 0 → exec (.rply i ra rb fwd) s = .next s) ∧
         (s.g rb = 1 → x.entries.get f = none →
           exec (.rply i ra rb fwd) s = .next (s.trap .swathStale (BitVec.ofNat 64 (i.val * 2 ^ 32 + f)))) ∧
         (s.g rb = 1 → x.busy = false → x.entries = [(f, e)] → e.port.isSome = true → e.awaiting = false →
           bits (e.w.get 0) 39 36 ≠ 1 → bits (e.w.get 0) 35 32 = 3 → gfmt = bits (e.w.get 0) 43 40 →
           o = bits (e.w.get 1) 63 40 → i0 = bits (e.w.get 1) 39 0 → bits (e.w.get 2) 59 36 = 1 →
           d = bits (e.w.get 2) 35 0 → pkgOf d = s.pkg → (s.vcore d).place ≠ .exited →
           s.outcome v e 3 (bits (e.w.get 0) 63 48) (e.w.get 2) (e.w.get 3) o i0 1 [d] = .ok 0 →
           s.twinAt v o = .ok own → s.twinAt d o = .ok tw → s.twinOk v o own Rec.permW i0 1 = true →
           s.twinOk d o tw Rec.permR i0 1 = true → s.hartElem (s.posOf d) tw.2.2 i0 Rec.permR = .mem ad →
           s.poisoned ad.hpa (fmtBytes tw.2.2.fmt) = false → (∀ h, (s.home h).sat = []) →
           (Desc.ofWord (x.gdesc.setWidth 64)).skind = 0 →
           s.twinReq v s.fresh own.2.1 i0 own.2.2
             (elemValue gfmt (roundTo gfmt .rne (gfmt == 12 || gfmt == 13)
               (elemValue tw.2.2.fmt (ofBytes (Memory.readN s.mem ad.hpa (fmtBytes tw.2.2.fmt)))))) = .ok q →
             ∃ t, exec (.rply i ra rb fwd) s = .next t ∧
               (t.home (State.reqHome q)).queue.get (s.fresh + 1) = some q ∧
               (∃ y, q.acc = .twinAdd own.2.2.fmt y) ∧
               t.me.pendC = some ⟨.rply i ra rb fwd, 3, [BitVec.ofNat 64 s.fresh], .poll⟩ ∧
               ((t.vcore v).str.get i).busy = true ∧ t.me.regs = s.me.regs ∧ t.mem = s.mem)))

/-! ### System instructions (R339, R341, R342, R346, R348-R350, R289) -/

/-- The thread waits until every record cache of the package has dropped an object's record and acknowledged: 512 clusters
and eight dies (R176); its general registers, the other cores and the homes stay. -/
def Sys2Proof.Claim.Dropping (s t : State) (i : Instr) (obj : Nat) : Prop :=
  t.acks.get s.fresh = some ⟨tableBase s.cur.src.ortb, obj, List.range 520⟩ ∧
    t.me.pendC = some ⟨i, 3, [], .token s.fresh⟩ ∧ t.me.regs.g = s.me.regs.g ∧ t.me.regs.tsw = s.me.regs.tsw ∧
    (∀ p, p ≠ s.cur.pos → t.core p = s.core p) ∧ t.homes = s.homes

/-- R348-R350: ORW, its release over, writes gb into the doubleword of the record, tested as the record stands at its
home; ORMOV makes the record MOVING with the new base, the old base kept and the watermark 0; ORINV and both
others then wait for every record cache; bad operands and a failed test trap ILLEGAL and write nothing. -/
def Obligations.RecordInstructions : Prop :=
  ∀ (s : State) (ra rb : Reg) (a b : Word) (tb obj dw h : Nat) (r r0 : Rec),
    a = s.g ra → b = s.g rb → tb = tableBase s.cur.src.ortb → obj = bits a 63 40 → dw = bits a 2 0 → s.sup = true →
    s.cur.phase = 0 → s.cur.isA = false →
      (bits a 39 3 ≠ 0 → exec (.orw ra rb) s = .next (s.trap .illegal a)) ∧
      (bits a 39 0 ≠ 0 → exec (.orinv ra) s = .next (s.trap .illegal a) ∧
        exec (.ormov ra rb) s = .next (s.trap .illegal a)) ∧
      (bits a 39 0 = 0 → bits b 63 48 ≠ 0 → exec (.ormov ra rb) s = .next (s.trap .illegal b)) ∧
      (bits a 39 0 = 0 → bits b 63 48 = 0 → s.look obj = .invalid →
        exec (.ormov ra rb) s = .next (s.trap .objInvalid a)) ∧
      (bits a 39 0 = 0 → ∃ t, exec (.orinv ra) s = .next t ∧ Dropping s t (.orinv ra) obj ∧ t.mem = s.mem) ∧
      (s.recordAt tb obj = some r → s.hpaOf (tb + 64 * obj) = some h → Memory.wf s.mem = true →
        (∀ k, (s.home k).sat = []) →
        (bits a 39 3 = 0 → (s.core s.cur.pos).buffer = [] → s.me.regs.bankm = 0 →
          ((r.moving = true ∧ dw ≠ 5 ∧ dw ≠ 7) ∨ (dw = 7 ∧ b.getLsbD 63 = true ∧
              (r.moving = false ∨ bits b 55 32 < r.wmark ∨ bits b 31 0 ≠ r.oldb)) →
            exec (.orw ra rb) s = .next ((cleared s).trap .illegal b)) ∧
          ((r.moving = true → dw = 5 ∨ dw = 7) → (dw = 7 → b.getLsbD 63 = true →
              r.moving = true ∧ r.wmark ≤ bits b 55 32 ∧ bits b 31 0 = r.oldb) →
            (dw = 5 → b.getLsbD 7 = true → r.rvk = true ∨ (b.getLsbD 4 = false ∧
              (∀ x ∈ s.homes, x.2.queue = []) ∧ ∀ c ∈ s.cores, c.2.buffer = [])) →
            ∃ t, exec (.orw ra rb) s = .next t ∧ MemoryHolds s t (h + 8 * dw) 8 b.toNat ∧
              ((dw = 7 ∧ b.getLsbD 63 = true) ∨ (dw ≠ 7 ∧ r.moving = true) →
                t.me.pendC = s.me.pendC ∧ t.me.regs.g = s.me.regs.g) ∧
              ((dw = 7 ∧ b.getLsbD 63 = false) ∨ (dw ≠ 7 ∧ r.moving = false) → Dropping s t (.orw ra rb) obj))) ∧
        (bits a 39 0 = 0 → bits b 63 48 = 0 → s.look obj = .got r0 →
          (r.moving = true ∨ bits b 15 0 ≠ r.base % 2 ^ 16 →
            exec (.ormov ra rb) s = .next (s.trap .illegal a)) ∧
          (r.moving = false → bits b 15 0 = r.base % 2 ^ 16 →
            ∃ t r', exec (.ormov ra rb) s = .next t ∧ t.recordAt tb obj = some r' ∧ r'.base = b.toNat ∧
              r'.moving = true ∧ r'.wmark = 0 ∧ r'.oldb = r.base / 2 ^ 16 ∧ r'.oldBase = r.base ∧
              bits (r'.get 0) 63 48 = bits (r.get 0) 63 48 ∧ (∀ k, k ≠ 0 → k ≠ 7 → r'.get k = r.get k) ∧
              (∀ x, ¬(h ≤ x ∧ x < h + 8) → ¬(h + 56 ≤ x ∧ x < h + 64) →
                Memory.read t.mem x = Memory.read s.mem x) ∧
              Dropping s t (.ormov ra rb) obj)))

/-- A PLC form has begun an exchange or move (R288 steps 1 and 2): it is under way, and the thread waits for its end;
no memory, register, tile or scratchpad has changed. -/
def Sys2Proof.Claim.Begun (s t : State) (i : Instr) (e : Exch) : Prop :=
  t.exchanges = s.exchanges ++ [e] ∧ t.me.pendC = some ⟨i, 2, [], .token s.fresh⟩ ∧ t.me.regs = s.me.regs ∧
    (∀ k n, t.tileAt k n = s.tileAt k n) ∧ (∀ p, (t.core p).spad = (s.core p).spad) ∧ t.mem = s.mem

/-- The vcore's placement entry has taken LOCK and its position a forwarding entry in the hold state. -/
def Sys2Proof.Claim.Locked (t : State) (v p q : Nat) : Prop :=
  (t.vcore v).lock = true ∧ (t.vcore v).pos = p ∧ ∃ f ∈ (t.core p).fwd, f.vc = v ∧ f.pos = q ∧ f.hold = true

/-- A PLC form that may not begin yet waits without effect. -/
def Sys2Proof.Claim.Waits (s : State) (i : Instr) : Prop :=
  ∃ t, exec i s = .next t ∧ t.me.pendC = some ⟨i, 1, [], .poll⟩ ∧ t.exchanges = s.exchanges ∧ t.me.regs = s.me.regs ∧
    t.vcores = s.vcores ∧ t.mem = s.mem

/-- A FOLDED vcore occupies the position. -/
def Sys2Proof.Claim.FoldedAt (s : State) (p : Nat) : Prop := ∃ x ∈ s.vcores, x.2.place = .folded ∧ x.2.pos = p

/-- The slots 0 to 14 of a core that are empty. -/
def Sys2Proof.Claim.Free (s : State) (q : Nat) : List (Fin 16) :=
  (List.finRange 16).filter fun j => j != 15 && !(s.slotAt q j).busy

/-- The slots 0 to 14 of a core that hold a thread of a vcore, a guest of it too, and no helper. -/
def Sys2Proof.Claim.Held15 (s : State) (p v : Nat) : List (Fin 16) :=
  (List.finRange 16).filter fun j => j != 15 && (s.slotAt p j).busy && (s.slotAt p j).occ == v &&
    (List.finRange 16).all fun k => (s.slotAt p j).life != .helper k

/-- A segment of n units of 256 bytes at base meets that of another occupant of a core than v. -/
def Sys2Proof.Claim.Meets (s : State) (v base n q : Nat) : Prop :=
  ∃ w ∈ s.vcoresAt q, w ≠ v ∧ base < (s.vcore w).segb.toNat + (s.vcore w).segl.toNat + 1 ∧
    (s.vcore w).segb.toNat < base + n

/-- R337, R339, R341, R342 and R346: PLC.SEAL of a position, DUAL.ON, DUAL.OFF and QSC.  PLC.SEAL stops the core, locks its
vcores with entries in the hold state, and notifies a supervisor core; DUAL.ON copies the thread into the lowest
empty slot and sets D and T; DUAL.OFF empties that slot where the contexts agree, and else seals the core as an
uncorrectable error does; QSC quiesces every other thread but movement threads once all has drained, and
resumes them, to issue from the next cycle on; operands with bits that must be zero trap ILLEGAL.  What sealing does in this
one step, and that queued copy jobs then stand at CHECK_FAIL and complete before the notice is served, is the model's reading
(log entry 52), as is that the comparison of a pair leaves out SLOT, D and T (log entry 58). -/
def Obligations.SealingPairsAndQuiescence : Prop :=
  ∀ (s : State) (ra : Reg) (a : Word) (p : Nat) (k : Fin 16), a = s.g ra → p = s.cur.pos →
    (s.sup = true →
      (bits a 63 12 ≠ 0 ∨ torusOf a.toNat ∈ (s.die (dieOf a.toNat)).retired →
        exec (.plcSeal ra) s = .next (s.trap .illegal a)) ∧
      (a.toNat < 4096 → torusOf a.toNat ∉ (s.die (dieOf a.toNat)).retired →
        exec (.plcSeal ra) s = exec (.uncorrectableError a.toNat) s ∧
        ((s.core a.toNat).sealed = true → exec (.plcSeal ra) s = .next s) ∧
        ((s.core a.toNat).sealed = false → s.exchanges = [] →
          ∃ t, exec (.plcSeal ra) s = .next t ∧ (t.core a.toNat).sealed = true ∧ a.toNat ∈ t.notified ∧
            (t.core a.toNat).channel.length = (s.core a.toNat).channel.length ∧
            (∀ m ∈ (t.core a.toNat).channel, m.ended = true ∧ m.status = 3 ∧ m.cause = Cause.checkFail.code) ∧
            (t.core a.toNat).buffer = [] ∧ (t.core a.toNat).jobs = [] ∧ (t.core a.toNat).vector = [] ∧
            (t.core a.toNat).strA = [] ∧ (t.core a.toNat).strB = [] ∧
            (t.core a.toNat).spad = (s.core a.toNat).spad ∧ (t.core a.toNat).slots = (s.core a.toNat).slots ∧
            (∀ q, q ≠ a.toNat → t.core q = s.core q) ∧ t.mem = s.mem ∧
            (s.vcoresAt a.toNat = [] → t.vcores = s.vcores) ∧
            (∀ v, s.vcoresAt a.toNat = [v] → (t.vcore v).lock = true ∧
              ∃ f ∈ (t.core a.toNat).fwd, f.vc = v ∧ f.pos = a.toNat ∧ f.hold = true))) ∧
      (s.cur.phase = 0 →
        (bits a 63 1 ≠ 0 → exec (.qsc ra) s = .next (s.trap .illegal a)) ∧
        (a = 1 → s.part.quiet = true → exec (.qsc ra) s = .next s) ∧
        (a = 0 → ∃ t, exec (.qsc ra) s = .next t ∧ t.part.quiet = false ∧
          (∀ q j, (s.slotAt q j).quiet = false → t.slotAt q j = s.slotAt q j) ∧
          (∀ q j, (s.slotAt q j).quiet = true → t.slotAt q j =
            { s.slotAt q j with quiet := false, ready := max (s.slotAt q j).ready (s.time + 1) }) ∧ t.mem = s.mem) ∧
        (a = 1 → s.part.quiet = false → (∀ x ∈ s.vcores, ∀ i : Fin 8, (x.2.grp.get i).bound = false) →
          ((∀ c ∈ s.cores, c.2.buffer = [] ∧ c.2.jobs = [] ∧ c.2.moves = [] ∧ c.2.vector = [] ∧ c.2.channel = []) →
            (∀ c ∈ s.clusters, c.2.eng.drain = none) → (∀ x ∈ s.vcores, ∀ i : Fin 4, (x.2.str.get i).entries = []) →
            NothingPending s →
            ∃ t, exec (.qsc ra) s = .next t ∧ t.part.quiet = true ∧ t.me.quiet = s.me.quiet ∧
              t.me.regs = s.me.regs ∧ t.mem = s.mem ∧
              (∀ q j, q ≠ p ∨ j ≠ s.cur.slot → (s.slotAt q j).busy = true → (s.slotAt q j).life = .task →
                t.slotAt q j = { s.slotAt q j with quiet := true }) ∧
              (∀ q j, q ≠ p ∨ j ≠ s.cur.slot → (s.slotAt q j).life = .movement → t.slotAt q j = s.slotAt q j)) ∧
          ((s.core p).buffer ≠ [] → s.cur.isA = false →
            ∃ t, exec (.qsc ra) s = .next t ∧ t.part.quiet = true ∧ t.cur.out = .parked ∧ t.mem = s.mem)))) ∧
    (s.cur.slot = 15 → exec .dualOn s = .next (s.trap .illegal s.cur.bundle)) ∧
    (s.cur.slot ≠ 15 → s.me.pair ≠ none → exec .dualOn s = .next s) ∧
    (s.me.pair = none → (∀ j, s.me.life ≠ .trailing j) → exec .dualOff s = .next s) ∧
    (s.cur.slot ≠ 15 → s.me.pair = none → s.me.occ = s.me.tid.vc → s.cur.isA = false →
      ((∃ j, (s.slotAt p j).pair ≠ none) →
        ∃ t, exec .dualOn s = .next t ∧ t.me.pendC = some ⟨.dualOn, 1, [], .poll⟩ ∧ t.me.regs = s.me.regs) ∧
      ((∀ j, (s.slotAt p j).pair = none) → k ≠ 15 → (s.slotAt p k).busy = false → k ≠ s.cur.slot →
        (∀ j < k, (s.slotAt p j).busy = true) → (s.core p).guests = [] →
        ∃ t, exec .dualOn s = .next t ∧ t.me.pair = some k ∧ t.me.regs.g = s.me.regs.g ∧
          t.me.regs.tsw.getLsbD 6 = true ∧ (∀ n, n ≠ 6 → t.me.regs.tsw.getLsbD n = s.me.regs.tsw.getLsbD n) ∧
          (t.slotAt p k).busy = true ∧ (t.slotAt p k).life = .trailing s.cur.slot ∧
          (t.slotAt p k).regs.g = s.me.regs.g ∧ (t.slotAt p k).regs.pc = s.me.regs.pc ∧
          (t.slotAt p k).regs.tsw.getLsbD 7 = true ∧ bits (t.slotAt p k).regs.tsw 3 0 = k.val ∧
          (∀ j, j ≠ k → j ≠ s.cur.slot → t.slotAt p j = s.slotAt p j) ∧ t.mem = s.mem)) ∧
    ((∀ j, s.me.life ≠ .trailing j) → s.me.pair = some k → k ≠ s.cur.slot →
      (s.me.ahead ≠ 0 → ∃ t, exec .dualOff s = .next t ∧ t.cur.out = .parked ∧ t.me.regs = s.me.regs) ∧
      (s.me.ahead = 0 → State.common s.cur.src = State.common (s.slotAt p k).regs → (s.core p).guests = [] →
        ∃ t, exec .dualOff s = .next t ∧ t.me.pair = none ∧ t.me.regs.tsw.getLsbD 6 = false ∧
          t.me.regs.g = s.me.regs.g ∧ (t.slotAt p k).busy = false ∧
          (∀ j, j ≠ k → j ≠ s.cur.slot → t.slotAt p j = s.slotAt p j) ∧ t.mem = s.mem) ∧
      (s.me.ahead = 0 → State.common s.cur.src ≠ State.common (s.slotAt p k).regs → p < 4096 →
        torusOf p ∉ (s.die (dieOf p)).retired → exec .dualOff s = exec (.uncorrectableError p) s))

/-! ### The dispatcher and the Tedder (R137-R141, R285-R289) -/

/-- A core holds exactly the thread of slot j: no other slot is busy, no half waits, no guest is queued. -/
def Sys2Proof.Claim.OnlySlot (s : State) (p : Nat) (j : Fin 16) : Prop :=
  (∀ k : Fin 16, k ≠ j → (s.slotAt p k).busy = false) ∧ (∀ k : Fin 16, (s.slotAt p k).pendC = none) ∧
    (∀ k : Fin 16, (s.slotAt p k).pendA = none) ∧ (s.core p).guests = []

/-- R289: PLC.SWAP of two usable positions of one die whose occupants are PLACED, PLC.MIGX of a vcore to an empty core and
PLC.FOLD of a vcore with no filled tile to a core with room begin their exchange or move where the cores stand still
(R240, R255, R303), with LOCK and the hold entries of R288, and else wait; operands outside the table of R289, or that name
a retired position, trap ILLEGAL.  That a vcore that is neither PLACED nor FOLDED is such an operand (log entry 46), that a
sealed position is one too, as a target of .FOLD as well (log entry 52), that ga is judged before gb, that equal positions and
positions of two dies blame gb, and that a filled tile blames ga (log entry 117) are the model's choices.
R288: an exchange that is not ready does not take place; a ready one of two positions of one die, where u has one
thread, in slot j, and v none, exchanges placement entries, scratchpads with their full/empty bits, and tiles;
u's thread goes on in slot j of the other core; both entries have RES 0 and no LOCK. -/
def Obligations.PlacementAndExchange : Prop :=
  (∀ (s : State) (ra rb : Reg) (a b : Word) (p q v u base n : Nat),
     a = s.g ra → b = s.g rb → s.sup = true → s.cur.isA = false →
       (p = bits a 11 0 → q = bits b 11 0 →
         (bits a 63 12 ≠ 0 ∨ s.unusable p = true ∨ FoldedAt s p →
           exec (.plcSwap ra rb) s = .next (s.trap .illegal a)) ∧
         (bits a 63 12 = 0 → s.unusable p = false → ¬FoldedAt s p →
           (bits b 63 12 ≠ 0 ∨ p = q ∨ dieOf p ≠ dieOf q ∨ s.unusable q = true ∨ FoldedAt s q →
             exec (.plcSwap ra rb) s = .next (s.trap .illegal b)) ∧
           (bits b 63 12 = 0 → p ≠ q → dieOf p = dieOf q → s.unusable q = false → ¬FoldedAt s q →
             (s.mayMove p (s.occupant p) = false ∨ s.mayMove q (s.occupant q) = false → Waits s (.plcSwap ra rb)) ∧
             (s.mayMove p (s.occupant p) = true → s.mayMove q (s.occupant q) = true →
               ∃ t, exec (.plcSwap ra rb) s = .next t ∧ Begun s t (.plcSwap ra rb) (.swap p q (some s.fresh)) ∧
                 (s.occupant p = some u → s.occupant q = some v → (s.vcore u).pos = p → (s.vcore v).pos = q →
                   Locked t u p q ∧ Locked t v q p))))) ∧
       (v = bits a 35 0 → (bits a 63 36 ≠ 0 ∨ pkgOf v ≠ s.pkg ∨ ((s.vcore v).place ≠ .placed ∧ (s.vcore v).place ≠ .folded)) →
         exec (.plcMigx ra rb) s = .next (s.trap .illegal a) ∧ exec (.plcFold ra rb) s = .next (s.trap .illegal a)) ∧
       (v = a.toNat → v < 2 ^ 36 → pkgOf v = s.pkg → ((s.vcore v).place = .placed ∨ (s.vcore v).place = .folded) →
         p = (s.vcore v).pos → q = bits b 11 0 →
         (bits b 63 12 ≠ 0 ∨ s.vcoresAt q ≠ [] ∨ (∃ j, (s.slotAt q j).busy = true) ∨ s.unusable q = true →
           exec (.plcMigx ra rb) s = .next (s.trap .illegal b)) ∧
         (s.vcoresAt q = [] → bits b 63 12 = 0 → (∀ j, (s.slotAt q j).busy = false) → s.unusable q = false →
           (s.mayMove p (some v) = false → Waits s (.plcMigx ra rb)) ∧
           (s.mayMove p (some v) = true → s.frozen q = false → s.dieRuns (dieOf q) = true → (s.vcore v).lock = false →
             ∃ t, exec (.plcMigx ra rb) s = .next t ∧ Begun s t (.plcMigx ra rb) (.move v q (some s.fresh)) ∧
               Locked t v p q)) ∧
         ((∃ i < 8, (s.tileAt (cluOf p) (8 * (p % 8) + i)).kind ≠ .empty ∧
             (s.tileAt (cluOf p) (8 * (p % 8) + i)).owner = v % 2 ^ 16) →
           exec (.plcFold ra rb) s = .next (s.trap .illegal a)) ∧
         (base = bits b 25 16 → n = (s.vcore v).segl.toNat + 1 →
           (∀ i < 8, (s.tileAt (cluOf p) (8 * (p % 8) + i)).kind = .empty) →
           (bits b 63 26 ≠ 0 ∨ bits b 15 12 ≠ 0 ∨ 1024 < base + n ∨ s.unusable q = true ∨ Meets s v base n q ∨
               (Free s q).length < (Held15 s p v).length →
             exec (.plcFold ra rb) s = .next (s.trap .illegal b)) ∧
           (bits b 63 26 = 0 → bits b 15 12 = 0 → base + n ≤ 1024 → s.unusable q = false → ¬Meets s v base n q →
             (Held15 s p v).length ≤ (Free s q).length →
             (s.mayMove p (some v) = false → Waits s (.plcFold ra rb)) ∧
             (s.mayMove p (some v) = true → s.frozen q = false → s.dieRuns (dieOf q) = true → (s.vcore v).lock = false →
               ∃ t, exec (.plcFold ra rb) s = .next t ∧
                 Begun s t (.plcFold ra rb) (.fold v (BitVec.ofNat 10 base) q (some s.fresh)) ∧ Locked t v p q))))) ∧
  (∀ (s : State) (p q u v : Nat) (j : Fin 16) (e : Exch) (x : Slot),
     (s.exchanges = [e] → s.exchReady e = false → exec (.exchange p q) s = .next s) ∧
     ((∀ e ∈ s.exchanges, s.exchCores e ≠ (p, q)) → exec (.exchange p q) s = .next s) ∧
     (e = .swap p q none → s.exchanges = [e] → s.exchReady e = true → p ≠ q → dieOf p = dieOf q →
       s.occupant p = some u → s.occupant q = some v → u ≠ v → (s.vcore u).pos = p → (s.vcore v).pos = q →
       OnlySlot s p j → OnlySlot s q j → (s.slotAt q j).busy = false → x = s.slotAt p j → x.busy = true → x.life = .task →
       x.occ = u → x.tid.vc = u → x.pair = none →
       (∀ i : Fin 8, ((s.vcore u).grp.get i).bound = false ∧ ((s.vcore v).grp.get i).bound = false) →
       (∀ i : Fin 4, ((s.vcore u).str.get i).entries = [] ∧ ((s.vcore v).str.get i).entries = []) →
         ∃ t, exec (.exchange p q) s = .next t ∧ t.exchanges = [] ∧
           (t.vcore u).pos = q ∧ (t.vcore v).pos = p ∧ (t.vcore u).res = 0 ∧ (t.vcore v).res = 0 ∧
           (t.vcore u).lock = false ∧ (t.vcore v).lock = false ∧
           (t.core p).spad = (s.core q).spad ∧ (t.core q).spad = (s.core p).spad ∧
           (t.core p).full = (s.core q).full ∧ (t.core q).full = (s.core p).full ∧
           (∀ i < 8, t.tileAt (cluOf p) (windowOf p + i) = s.tileAt (cluOf q) (windowOf q + i) ∧
             t.tileAt (cluOf q) (windowOf q + i) = s.tileAt (cluOf p) (windowOf p + i)) ∧
           (t.slotAt p j).busy = false ∧ (t.slotAt q j).busy = true ∧ (t.slotAt q j).tid = x.tid ∧
           (t.slotAt q j).regs.g = x.regs.g ∧ (t.slotAt q j).regs.pc = x.regs.pc ∧
           (t.mapEntry x.tid).state = .home j ∧ t.mem = s.mem))

/-- The die of a gang's block runs, and the block's cores are usable and hold no gang member. -/
def Sys2Proof.Claim.canEmpty (s : State) (b : Block) : Bool :=
  s.dieRuns b.die && (State.blockCores b).all fun p => !s.unusable p && (s.vcoresAt p).all fun v => (s.vcore v).gang.isNone

/-- R137-R139 and R270: the dispatcher finds a packet with one dependence word ready exactly when the word is full; a
ready packet for a placed vcore, alone in the queue and with no guest waiting, starts in the lowest slot that is empty
with its thread number NONE, with the state of R138 and the next TGEN; nothing is dispatched in quiescence.  That a
supervisor core puts an UNPLACED vcore of a ready packet on a free core is the model's reading of R139 (log entry 48), and
that a dependence word counts at its offset rounded down to 8 bytes, aligned or not and within LIMIT or not, is the model's
choice (log entry 81).
R140: a gang that is not whole is not placed; a whole one whose vcores are distinct and UNPLACED is placed on the
first block of free cores, each member its core's vcore, at once; 2^16 cycles after it is ready, with no such block, a
non-gang vcore of the first block that can be emptied begins to move to a free core outside it, and not before.  Which block
is emptied first is the model's choice (log entry 116). -/
def Obligations.DispatchAndGangs : Prop :=
  (∀ (s : State) (pid : Nat) (q : Packet) (v p : Nat) (j : Fin 16) (d off : Nat),
     s.part.queue = [(pid, q)] → v = Pkt.vcore q.w → p = (s.vcore v).pos →
       (s.part.quiet = true → exec (.dispatch pid) s = .next s) ∧
       (s.part.quiet = false → q.ready = none → Pkt.ndep q.w = 1 → remoteAddr (Pkt.dep q.w 0) = some (d, off) →
         pkgOf d = s.pkg → (s.vcore d).place = .placed →
         (State.isFull (s.core (s.vcore d).pos) ((segBase (s.keptSeg d) + off) / 8) = false →
           exec (.dispatch pid) s = .next s) ∧
         (State.isFull (s.core (s.vcore d).pos) ((segBase (s.keptSeg d) + off) / 8) = true →
           exec (.dispatch pid) s =
             .next { s with part := { s.part with queue := [(pid, { q with ready := some s.time })] } })) ∧
       (s.part.quiet = false → q.ready.isSome = true → q.yielded = none → Pkt.gang q.w = false → Pkt.any q.w = false →
         pkgOf v = s.pkg →
         ((s.vcore v).place = .placed → (s.vcore v).lock = false → s.reachable p = true →
           (Pkt.move q.w = false ∧ j ≠ 15 ∧ (∀ k < j, (s.slotAt p k).busy = true) ∧
             State.dualWaits (s.core p) = false ∧ (s.core p).guests = []) ∨ (Pkt.move q.w = true ∧ j = 15) →
           (s.slotAt p j).busy = false → ((s.vcore v).map.get j).state = .none →
           ∃ t x, exec (.dispatch pid) s = .next t ∧ x = t.slotAt p j ∧ x.busy = true ∧
             x.life = (if j = 15 then .movement else .task) ∧ x.occ = v ∧ x.tid.vc = v ∧ x.tid.tnum = j ∧
             x.tid.gen = ((s.vcore v).map.get j).gen + 1 ∧ x.cpl = q.w.get 7 ∧ x.pid = pid ∧
             x.regs.pc.toNat = bits (q.w.get 0) 37 0 ∧ (∀ r, x.regs.g.get r = 0) ∧
             x.regs.tsw = BitVec.ofNat 64 j.val ∧ x.regs.vl = 32 ∧ x.regs.rmode = 0 ∧ x.regs.swq = 2048 ∧
             (∀ k : Fin 8, k ≠ 0 → x.regs.ts.get k = Pkt.ts q.w k) ∧
             bits (x.regs.ts.get 0) 63 36 = bits (q.w.get 8) 63 36 ∧ bits (x.regs.ts.get 0) 35 0 = v ∧
             (t.vcore v).map.get j = { state := .home j, gen := ((s.vcore v).map.get j).gen + 1 } ∧
             t.part.queue = [] ∧ t.part.live.get pid = some q ∧ t.part.progress = s.part.progress + 1 ∧
             (∀ k, k ≠ j → t.slotAt p k = s.slotAt p k) ∧ t.mem = s.mem) ∧
         ((s.vcore v).place = .placed → (s.vcore v).lock = true → exec (.dispatch pid) s = .next s) ∧
         ((s.vcore v).place = .unplaced →
           (∀ n < 4096, s.coreFree n = false) → exec (.dispatch pid) s = .next s) ∧
         ((s.vcore v).place = .unplaced → (∃ n < 4096, s.coreFree n = true) →
           ∃ t, exec (.dispatch pid) s = .next t ∧ (t.vcore v).place = .placed ∧
             s.coreFree (t.vcore v).pos = true ∧ t.part = s.part ∧ t.mem = s.mem))) ∧
  (∀ (s : State) (gid : Nat) (ps : List (Nat × Packet)) (w h : Nat) (b : Block) (p u : Nat),
     (s.wholeGang gid = none →
       exec (.gangPlacement gid) s = .next s ∧ exec (.compaction gid) s = .next s) ∧
     (s.wholeGang gid = some (ps, w, h) → s.part.quiet = false →
       (∀ x ∈ ps, (s.vcore (Pkt.vcore x.2.w)).place = .unplaced ∧ pkgOf (Pkt.vcore x.2.w) = s.pkg) →
       (ps.map fun x => Pkt.vcore x.2.w).Nodup →
         ((State.blocks w h).find? (fun b => (State.blockCores b).all s.coreFree) = some b →
           ∃ t, exec (.gangPlacement gid) s = .next t ∧
             (∀ x ∈ ps.zip (State.blockCores b), (t.vcore (Pkt.vcore x.1.2.w)).place = .placed ∧
               (t.vcore (Pkt.vcore x.1.2.w)).pos = x.2 ∧ (t.vcore (Pkt.vcore x.1.2.w)).gang = some (gid, b)) ∧
             t.part.progress = s.part.progress + (ps.zip (State.blockCores b)).length ∧ t.mem = s.mem) ∧
         ((State.blocks w h).find? (fun b => (State.blockCores b).all s.coreFree) = none →
           exec (.gangPlacement gid) s = .next s ∧
           ((∃ x ∈ ps, s.time < x.2.ready.getD 0 + 2 ^ 16) → exec (.compaction gid) s = .next s) ∧
           ((∀ x ∈ ps, x.2.ready.getD 0 + 2 ^ 16 ≤ s.time) → 2 ^ 16 ≤ s.time →
             (State.blocks w h).find? (canEmpty s) = some b → p ∈ State.blockCores b → u ∈ s.vcoresAt p →
             s.mayMove p (some u) = true → (s.vcore u).lock = false →
             (∃ n < 4096, s.coreFree n = true ∧ n ∉ State.blockCores b) →
               ∃ t n m, exec (.compaction gid) s = .next t ∧ t.exchanges = s.exchanges ++ [.move n m none] ∧
                 (s.vcore n).gang = none ∧ s.coreFree m = true ∧ m ∉ State.blockCores b ∧
                 (∃ k ∈ State.blockCores b, n ∈ s.vcoresAt k) ∧ t.mem = s.mem))))

/-- R285-R287: no instant comes while TEDI.LOG is 0, in quiescence, or between multiples of 2^LOG.  At an instant the
pair of the greatest gain among a die's eligible pairs begins its exchange; every count of every partner
table is halved; with no pair chosen every PLACED vcore's RES rises by 1, up to 15, and nothing moves.
R287: the distance of two positions of the package: 0 in a cluster, the fold height of their cluster ports on a
die (R22), 16 across dies; in a pair's gain each member's partner in the pair counts at its position after the swap;
and an eligible pair gains at least GAIN, with both occupants' RES at least INST. -/
def Obligations.TedderInstants : Prop :=
  (∀ (s : State),
     (bits s.part.tedi 4 0 = 0 ∨ s.part.quiet = true ∨ s.time % 2 ^ bits s.part.tedi 4 0 ≠ 0 →
       exec .tedderInstant s = .next s) ∧
     (s.instantDue = true →
       ∃ t, exec .tedderInstant s = .next t ∧ t.instants = s.instants + 1 ∧ t.instant = s.time + 1 ∧ t.mem = s.mem ∧
         (∀ v x, s.vcores.get v = some x → (t.vcore v).partners = x.partners.map fun y => (y.1, y.2 / 2)) ∧
         (∀ d < 8, ∀ c ∈ State.candidates d, s.eligible c.1 c.2 = true →
           ∃ c' ∈ State.candidates d, s.eligible c'.1 c'.2 = true ∧ s.gain c.1 c.2 ≤ s.gain c'.1 c'.2 ∧
             .swap c'.1 c'.2 none ∈ t.exchanges) ∧
         ((∀ d < 8, ∀ c ∈ State.candidates d, s.eligible c.1 c.2 = false) →
           t.exchanges = s.exchanges ∧ t.cores = s.cores ∧
           ∀ v x, s.vcores.get v = some x →
             (t.vcore v).res = (if x.place = .placed then min 15 (x.res + 1) else x.res) ∧
             (t.vcore v).pos = x.pos ∧ (t.vcore v).lock = x.lock))) ∧
  ((∀ p q, cluOf p = cluOf q → State.distance p q = 0) ∧
   (∀ p q, dieOf p ≠ dieOf q → State.distance p q = 16) ∧
   (∀ p q n, dieOf p = dieOf q → torusOf p ≠ torusOf q →
     (State.distance p q = n ↔ 2 ^ (n - 1) ≤ (2 * torusOf p ^^^ 2 * torusOf q) ∧
       (2 * torusOf p ^^^ 2 * torusOf q) < 2 ^ n ∧ 0 < n)) ∧
   (∀ (s : State) (a b u v n : Nat), s.occupant a = some u → s.occupant b = some v → u ≠ v → pkgOf v = s.pkg →
     (s.vcore u).partners = [(v, n)] → (s.vcore v).partners = [] → s.gain a b = -(n * State.distance b a : Int)) ∧
   ∀ (s : State) (a b u : Nat), s.eligible a b = true →
     (bits s.part.tedg 31 0 : Int) ≤ s.gain a b ∧ s.unusable a = false ∧ s.unusable b = false ∧
     (s.occupant a = some u ∨ s.occupant b = some u →
       bits s.part.tedm 3 0 ≤ (s.vcore u).res ∧ (s.vcore u).gang = none) ∧
     s.coreQuiet a = true ∧ s.coreQuiet b = true)

/-! ### Events, seals, resets (R24, R25, R333, R336-R338, R343-R347) -/

/-- R332 and R333: with S = 0 and nothing outstanding, and no bundle that has left the rotation to issue again, a
thread takes its oldest event: TEPC is its PC, TCAUSE the cause with ASYNC and LOST, TVAL the event's, PS takes S, S
is 1 and the PC TVEC.HPC; with S = 1 or no event, or such a bundle, nothing happens.
R24, R25, R278, R337 and R338: an uncorrectable error seals its core: its buffer, jobs and streams are empty, its
vcore is locked and has a forwarding entry in the hold state, and a supervisor core is notified; a sealed core seals
no more.  When Spahan restarts what ran there, its slots are empty and the vcore is created anew on a free core, with
a forwarding entry at the sealed one, or is UNPLACED where none is free.  A cluster with a sealed core and no vcore is
retired while a spare is left for it, and the spare's fresh state then takes its position; with no spare left it stays
as it is.  That sealing does all this in one step, with a lock and a hold entry that the restart replaces, and that
the restart is a step of its own, restartCore, rest on log entry 52, what happens with no spare on log entry 85: both
are the model's choices.
R336: where Spahan gives up the granule that a task waits for, the task ends with code 1: its slot is empty, its map
entry NONE and its packet no longer live; its completion word is not filled, and no other slot and no byte of
memory changes but the report's.  That an end with code 1 is Spahan's own event, at a time of its choosing, and what
counts as a wait for a granule are the model's reading (log entries 51 and 57). -/
def Obligations.EventsSealsAndAbandonedTasks : Prop :=
  (∀ (s : State) (p : Nat) (j : Fin 16) (x : Slot) (e : AsyncEv) (rest : List AsyncEv), x = s.slotAt p j →
     (x.regs.tsw.getLsbD 4 = true ∨ x.events = [] ∨ x.stalled ≠ none → exec (.asyncEventEntry p j.val) s = .next s) ∧
     (x.busy = true → (x.life = .task ∨ x.life = .movement) → x.events = e :: rest → x.regs.tsw.getLsbD 4 = false →
       x.pendC = none → x.pendA = none → x.quiet = false → x.pair = none → x.ahead = 0 →
       x.stalled = none → x.fetched = [] →
       (∀ c, s.fetchAt (BitVec.ofNat 38 (bits x.regs.tvec 37 0)) ≠ .fault c) →
         ∃ t y, exec (.asyncEventEntry p j.val) s = .next t ∧ y = t.slotAt p j ∧ y.events = rest ∧
           y.regs.tepc.toNat = x.regs.pc.toNat ∧ y.regs.tval = e.tval ∧
           y.regs.tcause.toNat = (if x.lost then 2 ^ 8 else 0) + 2 ^ 7 + e.cause.code ∧
           y.regs.tsw.getLsbD 4 = true ∧ y.regs.tsw.getLsbD 5 = false ∧
           (∀ i, i ≠ 4 → i ≠ 5 → y.regs.tsw.getLsbD i = x.regs.tsw.getLsbD i) ∧
           y.regs.pc.toNat = bits x.regs.tvec 37 0 ∧ y.regs.g = x.regs.g ∧ y.lost = false ∧ y.busy = true ∧
           (∀ k, k ≠ j → t.slotAt p k = s.slotAt p k) ∧ (t.core p).buffer = (s.core p).buffer ∧
           (∀ k, k ≠ p → t.core k = s.core k) ∧ t.mem = s.mem)) ∧
  (∀ (s : State) (p v die clu k : Nat),
     ((s.core p).sealed = true → exec (.uncorrectableError p) s = .next s) ∧
     (p < 4096 → torusOf p ∉ (s.die (dieOf p)).retired → (s.core p).sealed = false → s.exchanges = [] →
       (s.core p).channel = [] → s.vcoresAt p = [v] →
         ∃ t, exec (.uncorrectableError p) s = .next t ∧ (t.core p).sealed = true ∧ (t.core p).buffer = [] ∧
           (t.core p).jobs = [] ∧ (t.core p).vector = [] ∧ (t.core p).strA = [] ∧ (t.core p).strB = [] ∧
           (t.core p).slots = (s.core p).slots ∧ (∀ q, q ≠ p → t.core q = s.core q) ∧ p ∈ t.notified ∧
           (t.vcore v).lock = true ∧ (t.vcore v).place = (s.vcore v).place ∧
           (∃ f ∈ (t.core p).fwd, f.vc = v ∧ f.pos = p ∧ f.hold = true) ∧ t.mem = s.mem) ∧
     ((s.core p).sealed = true → s.vcoresAt p = [v] → (s.vcore v).pos = p →
       s.vcores.Pairwise (fun a b => a.1 < b.1) → s.doomed p [v] = [] → (∀ c ∈ s.cores, c.2.guests = []) →
       (∀ i : Fin 8, ((s.vcore v).grp.get i).bound = false) →
         ∃ t, t = s.restartCore p ∧ p ∉ t.notified ∧ (t.core p).sealed = true ∧
           (∀ j, (t.slotAt p j).busy = false) ∧ t.mem = s.mem ∧ (t.vcore v).segl = (s.vcore v).segl ∧
           (∀ j, ((t.vcore v).map.get j).gen = ((s.vcore v).map.get j).gen) ∧ (t.vcore v).lock = false ∧
           ((∀ n < 4096, s.coreFree n = false) → (t.vcore v).place = .unplaced) ∧
           ((∃ n < 4096, s.coreFree n = true) → (t.vcore v).place = .placed ∧ s.coreFree (t.vcore v).pos = true ∧
             ∃ f ∈ (t.core p).fwd, f.vc = v ∧ f.pos = (t.vcore v).pos ∧ f.hold = false)) ∧
     (die < 8 → clu < 64 → k = 64 * die + clu →
       (clu ∉ (s.die die).retired → (∀ i < 8, (s.core (8 * k + i)).sealed = false) ∨
         (∃ i < 8, s.vcoresAt (8 * k + i) ≠ []) ∨ 4 ≤ (s.die die).spares + (s.die die).retired.length →
           exec (.spareClusterSteering die clu) s = .next s) ∧
       (clu ∉ (s.die die).retired → (∃ i < 8, (s.core (8 * k + i)).sealed = true) →
         (∀ i < 8, s.vcoresAt (8 * k + i) = []) → s.exchanges = [] →
         (s.die die).spares + (s.die die).retired.length < 4 →
           ∃ t, exec (.spareClusterSteering die clu) s = .next t ∧ clu ∈ (t.die die).retired ∧
             (∀ c ∈ (s.die die).retired, c ∈ (t.die die).retired) ∧ (t.die die).spares = (s.die die).spares ∧
             t.cores = s.cores ∧ t.mem = s.mem) ∧
       (clu ∈ (s.die die).retired → s.cores.Pairwise (fun a b => a.1 < b.1) →
         s.clusters.Pairwise (fun a b => a.1 < b.1) →
           ∃ t, exec (.spareClusterSteering die clu) s = .next t ∧ (∀ i < 8, t.core (8 * k + i) = {}) ∧
             t.cluster k = {} ∧ (t.die die).spares = (s.die die).spares + 1 ∧
             (∀ c, c ∈ (t.die die).retired ↔ c ∈ (s.die die).retired ∧ c ≠ clu) ∧
             (∀ q, q / 8 ≠ k → q ≠ hartPos k → t.core q = s.core q) ∧ t.vcores = s.vcores ∧ t.mem = s.mem))) ∧
  (∀ (s : State) (p : Nat) (j : Fin 16) (x : Slot), x = s.slotAt p j →
     (s.waitsResidency x = false → exec (.taskEnd p j.val 1) s = .next s) ∧
     (x.busy = true → x.life = .task → x.pair = none → s.waitsResidency x = true → (s.core p).guests = [] →
       (∀ k, (s.slotAt p k).life ≠ .helper j) → s.partQueues = [] →
         ∃ t, exec (.taskEnd p j.val 1) s = .next t ∧ (t.slotAt p j).busy = false ∧
           (t.slotAt p j).regs = x.regs ∧ (t.mapEntry x.tid).state = .none ∧
           (t.mapEntry x.tid).gen = (s.mapEntry x.tid).gen ∧ t.part.live = s.part.live.del x.pid ∧
           (∀ q k, q ≠ p ∨ k ≠ j → t.slotAt q k = s.slotAt q k) ∧ (t.core p).full = (s.core p).full ∧
           (t.core p).spad = (s.core p).spad ∧ t.mem = s.mem))

/-- R343-R345 and R347: the watchdog fires exactly where WDOG.LOG is not 0, no die is suspended, the partition holds
a task, and its progress count has stood for 2^LOG cycles; a reset empties every slot, buffer, job queue and home queue but
those of the supervisor cores, and the task queue, creates each PLACED vcore anew at its position where that is usable, keeps
memory, the barrier leaves and the partition's registers (where vcores go and what of a supervisor core stays are the model's
choices, log entries 54 and 55); the watchdog's reset then submits again the packets of the epochs after the fence, a
gang's to the vcores that stand again.  A partition reset does this in two steps, the checkpoint being copied back between
them (log entry 55). -/
def Obligations.WatchdogAndReset : Prop :=
  ∀ (s : State) (g : GraphPacket),
    (¬(bits s.part.wdog 5 0 ≠ 0 ∧ s.part.suspended = none ∧ s.holdsTask = true ∧
        s.part.moved + 2 ^ bits s.part.wdog 5 0 ≤ s.time) → exec .watchdog s = .next s) ∧
    ((∀ x ∈ s.vcores, ∀ i : Fin 8, (x.2.grp.get i).bound = false) → s.partQueues = [] →
      s.vcores.Pairwise (fun a b => a.1 < b.1) → s.part.rollback = false →
        (∃ t, exec .partitionReset s = .next t ∧
          (∀ p, p < 4096 ∨ 8192 ≤ p → (t.core p).buffer = [] ∧ (t.core p).jobs = [] ∧ (t.core p).vector = [] ∧
            (t.core p).channel = [] ∧ (t.core p).leaf = (s.core p).leaf ∧ ∀ j, (t.slotAt p j).busy = false) ∧
          (s.exchanges = [] → (∀ x ∈ s.vcores, x.2.pos < 4096) → ∀ p, 4096 ≤ p → p < 8192 → t.core p = s.core p) ∧
          (∀ h, ∀ x ∈ (t.home h).queue, 4096 ≤ x.2.pos ∧ x.2.pos < 8192) ∧ t.part.queue = [] ∧ t.part.live = [] ∧ t.part.quiet = false ∧
          t.part.rollback = true ∧ t.part.graphs = s.part.graphs ∧
          t.part.wdog = s.part.wdog ∧ t.part.frec = s.part.frec ∧ t.part.progress = s.part.progress ∧
          (∀ v x, s.vcores.get v = some x → x.place = .placed → s.unusable x.pos = false →
            (t.vcore v).place = .placed ∧ (t.vcore v).pos = x.pos ∧
            ∀ j, ((t.vcore v).map.get j).state = .none ∧ ((t.vcore v).map.get j).gen = (x.map.get j).gen) ∧
          t.mem = s.mem) ∧
        (s.watchdogDue = true → s.part.graphs = [] →
          bits s.part.frec 23 0 = 0 ∨ (∀ h, (s.home h).sat = []) → ∃ t, exec .watchdog s = .next t ∧
          exec .partitionReset s = .next (t.updPart fun p => { p with rollback := true })) ∧
        (s.watchdogDue = true → s.part.graphs = [g] → bits s.part.frec 23 0 = 0 → 0 < g.epoch → Pkt.ndep g.w = 0 →
          Pkt.cpl g.w = 0 →
          ∃ t n b, exec .watchdog s = .next t ∧
            t.part.queue = [(n, { w := g.w, accepted := s.time, ready := some s.time, epoch := g.epoch, again := b })] ∧
            (Pkt.gang g.w = false → b = false) ∧ t.part.graphs = [{ g with pid := n, retired := false }] ∧ t.mem = s.mem)) ∧
    (s.part.rollback = true → s.part.queue = [] → bits s.part.frec 23 0 = 0 → s.part.graphs = [g] →
      ∃ t, exec .partitionReset s = .next t ∧ t.part.rollback = false ∧ t.mem = s.mem ∧
        (g.epoch = 0 → t.part.queue = [] ∧ t.part.graphs = [g]) ∧
        (0 < g.epoch → Pkt.ndep g.w = 0 → Pkt.cpl g.w = 0 → ∃ n b,
          t.part.queue = [(n, { w := g.w, accepted := s.time, ready := some s.time, epoch := g.epoch, again := b })] ∧
          (Pkt.gang g.w = true → Pkt.any g.w = false → (b = true ↔ (s.gangOf (Pkt.gangId g.w)).isSome = true)) ∧
          (Pkt.gang g.w = false → b = false) ∧ t.part.graphs = [{ g with pid := n, retired := false }]))

/-! ### Links, keys, power, boot and the host's queues (R351-R363, R385) -/

/-- A queue is enabled, its report ring is full and it has room to hold another report (R354). -/
def Sys2Proof.Claim.RingFull (s : State) (q : Nat) : Prop :=
  (s.queue q).en = true ∧ State.ringFull (s.queue q) = true ∧ (s.queue q).reports.length < 64

/-- A queue with a full ring holds one report more, with the next RSEQ. -/
def Sys2Proof.Claim.Held (s t : State) (q kind code vc value : Nat) : Prop :=
  (t.queue q).reports = (s.queue q).reports ++
      [#v[BitVec.ofNat 64 (((s.queue q).rseq + 1).toNat * 2 ^ 32 + kind * 2 ^ 24 + code * 2 ^ 16), BitVec.ofNat 64 vc,
        BitVec.ofNat 64 value]] ∧
    (t.queue q).rseq = (s.queue q).rseq + 1

/-- The host address of the next report of a queue (R351, R354). -/
def Sys2Proof.Claim.reportAt (s : State) (q : Nat) : Nat :=
  2 ^ 47 + (bits (s.queue q).rbase 46 6 * 64 + 32 * (s.queue q).rtail) % 2 ^ 47

/-- A report has been written at the place of the next, with the next RSEQ and TIME, RTAIL has gone on, and the MSI-X
vector has been written. -/
def Sys2Proof.Claim.Wrote (s t : State) (q kind code vc value : Nat) : Prop :=
  ofBytes (Memory.readN t.mem (reportAt s q) 8) = ((s.queue q).rseq + 1).toNat * 2 ^ 32 + kind * 2 ^ 24 + code * 2 ^ 16 ∧
    ofBytes (Memory.readN t.mem (reportAt s q + 8) 8) = vc ∧
    ofBytes (Memory.readN t.mem (reportAt s q + 16) 8) = value ∧
    ofBytes (Memory.readN t.mem (reportAt s q + 24) 8) = s.time % 2 ^ 64 ∧
    (t.queue q).rtail = ((s.queue q).rtail + 1) % 2 ^ (s.queue q).rlog ∧ (t.queue q).rseq = (s.queue q).rseq + 1 ∧
    (t.queue q).msix = (s.queue q).msix + 1

/-- Bytes outside the place of the next report are as before. -/
def Sys2Proof.Claim.OnlyReport (s t : State) (q : Nat) : Prop :=
  ∀ a, ¬(reportAt s q ≤ a ∧ a < reportAt s q + 32) → Memory.read t.mem a = Memory.read s.mem a

/-- Every item of a frame is a message on its way under the frame's key id. -/
def Sys2Proof.Claim.Messages (s : State) (key id : Nat) : Prop :=
  ∀ i ∈ State.frameItems 8 id, i < 2 ^ 64 ∧ ∃ x d p o w, s.net.get i = some x ∧ x.key = key ∧ x.load = .message d p o w

/-- Every message of a dropped frame is on its way back to its sender (R358). -/
def Sys2Proof.Claim.Returned (s t : State) (id : Nat) : Prop :=
  ∀ i ∈ State.frameItems 8 id, ∀ x d p o w, s.net.get i = some x → x.load = .message d p o w →
    ∃ y, t.net.get i = some y ∧ y.load = .returned d o w ∧ y.dst = s.posOf o.vc

/-- R356-R358, R361-R363 and R385: NARROWED, DOWN and RETRAINED set the good lanes of a port and are reported to queue
0 of each host port, as is a die that THERMAL halts, but not to a queue that is not enabled (the model's choice, log
entry 14); a DOWN link is bypassed by the lowest die with both links up; a frame with a bad tag or an old counter
changes nothing, one of an admitted key advances the counter, and every message in a dropped one returns; a key switch
writes the idle phase and flips it at both ends, and the service processor writes the admitted bit.  The steps of
power-up follow one another: 2 loads the link keys, 3 starts the supervisor cores, 6 loads the partition and queue
tables, and 7 makes the device ready with TIME at 0; a step may fail with the values of R363, which leaves no core
running, and a failed device starts again at step 1.  What a receipt and a retraining comprise, how power-up goes on
after a failure, and what the supervisor cores hold, are the model's readings and choices (log entries 62, 63 and 91). -/
def Obligations.LinksPowerAndBoot : Prop :=
  ∀ (s : State) (port lanes die key newKey ctr id fail image d e m o k : Nat),
    (s.lanesOf port = 0 → exec (.down port) s = .next s) ∧
    (s.lanesOf port ≤ lanes → exec (.narrowed port lanes) s = .next s) ∧
    (RingFull s 0 → RingFull s 64 →
      (lanes = 1 ∨ lanes = 2 ∨ lanes = 4 → lanes < s.lanesOf port →
        ∃ t, exec (.narrowed port lanes) s = .next t ∧ t.lanesOf port = lanes ∧ Held s t 0 3 1 0 port ∧
          Held s t 64 3 1 0 port ∧ t.cores = s.cores ∧ t.net = s.net ∧ t.mem = s.mem) ∧
      (s.lanesOf port ≠ 0 →
        ∃ t, exec (.down port) s = .next t ∧ t.lanesOf port = 0 ∧ Held s t 0 3 2 0 port ∧
          Held s t 64 3 2 0 port ∧ t.cores = s.cores ∧ t.net = s.net ∧ t.mem = s.mem) ∧
      (lanes = 1 ∨ lanes = 2 ∨ lanes = 4 ∨ lanes = 8 →
        ∃ t, exec (.retrained port lanes) s = .next t ∧ t.lanesOf port = lanes ∧ Held s t 0 3 4 0 port ∧
          Held s t 64 3 4 0 port ∧ t.cores = s.cores ∧ t.net = s.net ∧ t.mem = s.mem) ∧
      (die < 8 → (s.die die).power ≠ .off → (s.die die).power ≠ .halted →
        ∃ t, exec (.thermal die) s = .next t ∧ (t.die die).power = .halted ∧ Held s t 0 4 die 0 die ∧
          (∀ k, k ≠ die → t.die k = s.die k) ∧
          (s.part.suspended = none → t.part.suspended = some s.time) ∧ t.cores = s.cores ∧ t.mem = s.mem)) ∧
    ((s.queue 0).en = false → (s.queue 64).en = false → lanes = 1 ∨ lanes = 2 ∨ lanes = 4 ∨ lanes = 8 →
      ∃ t, exec (.retrained port lanes) s = .next t ∧ t.lanesOf port = lanes ∧ t.queues = s.queues ∧ t.mem = s.mem) ∧
    ((s.die die).power = .off ∨ (s.die die).power = .halted → exec (.thermal die) s = .next s) ∧
    (d ≠ e → s.linkUp d e = true → s.crossing d e = some ([State.portTo d e], false)) ∧
    (d ≠ e → s.linkUp d e = false → m < 8 → m ≠ d → m ≠ e → s.linkUp d m = true → s.linkUp m e = true →
      (∀ k < m, k ≠ d → k ≠ e → s.linkUp d k = false ∨ s.linkUp k e = false) →
      s.crossing d e = some ([State.portTo d m, State.portTo m e], true)) ∧
    (d ≠ e → s.linkUp d e = false → (∀ k < 8, k ≠ d → k ≠ e → s.linkUp d k = false ∨ s.linkUp k e = false) →
      s.crossing d e = none) ∧
    (ctr ≤ ((s.die (port / 256)).counters.get (port % 256)).getD 0 →
      exec (.frameReceipt port key ctr true id) s = .next s) ∧
    exec (.frameReceipt port key ctr false id) s = .next s ∧
    (((s.die (port / 256)).counters.get (port % 256)).getD 0 < ctr →
      ((s.keyAt port key).admitted = true → (∀ i ∈ State.frameItems 8 id, s.ofKey key i = true) →
        ∃ t, exec (.frameReceipt port key ctr true id) s = .next t ∧
          (t.die (port / 256)).counters.get (port % 256) = some ctr ∧ t.net = s.net ∧ t.homes = s.homes ∧
          t.cores = s.cores ∧ t.mem = s.mem) ∧
      ((s.keyAt port key).admitted = false → Messages s key id →
        (key ≠ s.part.key →
          ∃ t, exec (.frameReceipt port key ctr true id) s = .next t ∧ Returned s t id ∧
            (t.die (port / 256)).counters.get (port % 256) = some ctr ∧ t.queues = s.queues ∧ t.cores = s.cores ∧
            t.mem = s.mem) ∧
        (key = s.part.key → s.partQueues = [o] → RingFull s o →
          ∃ t, exec (.frameReceipt port key ctr true id) s = .next t ∧ Returned s t id ∧
            Held s t o 3 3 0 port ∧ t.cores = s.cores ∧ t.mem = s.mem))) ∧
    (k = port ∨ State.otherEnd port = some k →
      (newKey < 2 ^ 256 → ∃ t, exec (.keyPhaseSwitch port key newKey) s = .next t ∧
        (t.keyAt k key).phase = !(s.keyAt k key).phase ∧ (t.keyAt k key).admitted = (s.keyAt k key).admitted ∧
        ((s.keyAt k key).phase = true → (t.keyAt k key).key0 = BitVec.ofNat 256 newKey ∧
          (t.keyAt k key).key1 = (s.keyAt k key).key1) ∧
        ((s.keyAt k key).phase = false → (t.keyAt k key).key1 = BitVec.ofNat 256 newKey ∧
          (t.keyAt k key).key0 = (s.keyAt k key).key0) ∧ t.net = s.net ∧ t.cores = s.cores ∧ t.mem = s.mem) ∧
      (∀ b : Bool, newKey = 2 ^ 256 + b.toNat → ∃ t, exec (.keyPhaseSwitch port key newKey) s = .next t ∧
        t.keyAt k key = { s.keyAt k key with admitted := b } ∧ t.net = s.net ∧ t.cores = s.cores ∧ t.mem = s.mem)) ∧
    (s.boot.ready = true → exec (.powerUp fail image) s = .next s) ∧
    (s.boot.ready = false → s.boot.fail ≠ 0 →
      exec (.powerUp 0 image) s = .next { s with boot := { step := 1 } } ∧
      (fail ≠ 0 → exec (.powerUp fail image) s = .next s)) ∧
    (s.boot.ready = false → s.boot.fail = 0 → k = s.boot.step →
      (k ≠ 7 → ∃ t, exec (.powerUp 0 image) s = .next t ∧ t.boot = { step := k + 1 } ∧ t.time = s.time ∧
        t.mem = s.mem ∧ (k ≠ 2 → t.dies = s.dies) ∧ (k ≠ 3 → t.cores = s.cores) ∧
        (k ≠ 6 → t.part = s.part ∧ t.queues = s.queues) ∧ (k = 6 → t.part = s.tables) ∧
        (∀ x ks, k = 2 → s.linkKeys = [(x, ks)] → (t.die x).keys = ks) ∧
        (∀ x c, k = 3 → s.firmware = [(x, c)] → t.core x = c ∧ ∀ y, y ≠ x → t.core y = s.core y) ∧
        (∀ x n, k = 6 → s.queueParts = [(x, n)] → (t.queue x).part = n)) ∧
      (k = 7 → ∃ t, exec (.powerUp 0 image) s = .next t ∧ t.boot = { step := 7, ready := true } ∧ t.time = 0 ∧
        t.part = s.part ∧ t.cores = s.cores ∧ t.mem = s.mem) ∧
      (fail ≤ 2 → 1 ≤ fail → k = (if image = 1 then 1 else if image = 2 then 2 else 3) →
        exec (.powerUp fail image) s = .next { s with boot := { fail := fail, image := image, step := k }, cores := [] }) ∧
      (fail = 3 → k = 4 → exec (.powerUp fail image) s = .next { s with boot := { fail := 3, step := 4 }, cores := [] }) ∧
      (fail = 4 → k = 5 → exec (.powerUp fail image) s = .next { s with boot := { fail := 4, step := 5 }, cores := [] }))

/-- The CRC of bytes 0 to 59 of a command record (R117, R352). -/
def Sys2Proof.Claim.recordCrc (w : Vector Word 8) : BitVec 32 :=
  ~~~crcBytes 4 (([0, 1, 2, 3, 4, 5, 6] : List (Fin 8)).foldl (fun c i => crcBytes 8 c (w.get i)) 0xFFFFFFFF) (w.get 7)

/-- A record that the device accepts: its SEQ is the one expected, and its CRC matches (R353). -/
def Sys2Proof.Claim.Acceptable (x : HQueue) (w : Vector Word 8) : Prop :=
  bits (w.get 0) 63 32 = x.expected.toNat ∧ bits (w.get 7) 63 32 = (recordCrc w).toNat

/-- The record at HEAD has been accepted: it is the queue's command, and E and HEAD have gone on. -/
def Sys2Proof.Claim.Accepts (s t : State) (n : Nat) (w : Vector Word 8) : Prop :=
  (t.queue n).command = some w ∧ (t.queue n).expected = (s.queue n).expected + 1 ∧
    (t.queue n).head = ((s.queue n).head + 1) % 2 ^ (s.queue n).clog ∧ (t.queue n).stalled = false ∧
    (t.queue n).refetch = none ∧ t.mem = s.mem

/-- R351, R353 and R354: TAIL sets the notify register; on an enabled queue a write equal to HEAD makes no slot valid, a
write back takes the slots past it out and leaves those below it the notify that made them valid, and a write on makes
the slots past the last one valid by its own; such a queue then fetches the record at HEAD: it accepts one whose SEQ and CRC match; another stalls the queue with
BAD_RECORD, or, after a relaxed notify, is fetched again 600 cycles later, up to eight times, and then stalls it with
HOST_ORDER; EN writes PART and CLOG, and enables a queue with HEAD 0 and E 1 once the device is ready; STALLED
resumes; RHEAD makes room for the reports held; the ring registers take what is written. -/
def Obligations.QueueRegisters : Prop :=
  ∀ (s : State) (port q n v k due : Nat) (rel : Bool) (x : HQueue) (w : Vector Word 8) (r : Vector Word 3),
    n = 64 * port + q → x = s.queue n →
      (x.en = false → v < 2 ^ 32 → exec (.tail port q v rel) s = .next (s.updQueue n fun x =>
        { x with
          tail := v % 2 ^ x.clog
          notify := x.notify ++ [(v % 2 ^ x.clog, rel)] })) ∧
      (x.en = true → x.head < 2 ^ x.clog → v < 2 ^ 32 →
        (v % 2 ^ x.clog = x.head → exec (.tail port q v rel) s = .next (s.updQueue n fun x =>
          { x with tail := x.head, notify := [] })) ∧
        (x.stalled = true → x.head = 0 → x.notify = [(k, !rel)] → k < 2 ^ x.clog → v % 2 ^ x.clog ≠ 0 →
          exec (.tail port q v rel) s = .next (s.updQueue n fun x =>
            { x with
              tail := v % 2 ^ x.clog
              notify := if v % 2 ^ x.clog ≤ k then [(v % 2 ^ x.clog, !rel)]
                else [(k, !rel), (v % 2 ^ x.clog, rel)] }))) ∧
      ((∀ i : Fin 8, w.get i = BitVec.ofNat 64 (ofBytes (Memory.readN s.mem (State.slotAddr x x.head + 8 * i.val) 8))) →
        s.boot.ready = true → x.en = true → x.stalled = false → x.command = none → x.reports = [] →
        State.ringFull x = false → Memory.wf s.mem = true → (∀ h, (s.home h).sat = []) →
        (x.refetch = none → x.notify = [] → x.head < 2 ^ x.clog → v < 2 ^ 32 → v % 2 ^ x.clog ≠ x.head →
          (Acceptable x w → ∃ t, exec (.tail port q v rel) s = .next t ∧ Accepts s t n w ∧
            (t.queue n).tail = v % 2 ^ x.clog) ∧
          (¬Acceptable x w → rel = false → ∃ t, exec (.tail port q v rel) s = .next t ∧
            (t.queue n).stalled = true ∧ (t.queue n).command = none ∧ (t.queue n).head = x.head ∧
            Wrote s t n 1 1 0 (bits (w.get 0) 63 32) ∧ OnlyReport s t n) ∧
          (¬Acceptable x w → rel = true → ∃ t, exec (.tail port q v rel) s = .next t ∧
            (t.queue n).refetch = some (1, s.time + 600) ∧ (t.queue n).head = x.head ∧
            (t.queue n).expected = x.expected ∧ (t.queue n).command = none ∧ t.mem = s.mem)) ∧
        (x.refetch = some (k, due) →
          (s.time < due → exec (.commandRefetch port q) s = .next s) ∧
          (due ≤ s.time →
            (Acceptable x w → ∃ t, exec (.commandRefetch port q) s = .next t ∧ Accepts s t n w) ∧
            (¬Acceptable x w → x.notify = [(v, true)] → k < 8 →
              ∃ t, exec (.commandRefetch port q) s = .next t ∧
                (t.queue n).refetch = some (k + 1, s.time + 600) ∧ (t.queue n).command = none ∧ t.mem = s.mem) ∧
            (¬Acceptable x w → x.notify = [(v, true)] → 8 ≤ k →
              ∃ t, exec (.commandRefetch port q) s = .next t ∧ (t.queue n).stalled = true ∧
                (t.queue n).refetch = none ∧ Wrote s t n 1 2 0 (bits (w.get 0) 63 32) ∧ OnlyReport s t n)))) ∧
      (s.boot.ready = false → v < 2 ^ 64 → 4 ≤ v / 16 % 16 → v / 16 % 16 ≤ 12 →
        exec (.en port q v) s = .next (s.updQueue n fun x =>
          { x with clog := v / 16 % 16, part := BitVec.ofNat 16 (v / 2 ^ 16) })) ∧
      (s.boot.ready = true → v < 2 ^ 64 → 4 ≤ v / 16 % 16 → v / 16 % 16 ≤ 12 →
        (v % 2 = 1 → x.tail = 0 → x.notify = [] ∨ x.notify.getLast? = some (0, rel) → exec (.en port q v) s = .next (s.updQueue n fun x =>
          { x with en := true, head := 0, expected := 1, refetch := none, clog := v / 16 % 16
                   part := BitVec.ofNat 16 (v / 2 ^ 16), notify := [] })) ∧
        (v % 2 = 0 → exec (.en port q v) s = .next (s.updQueue n fun x =>
          { x with en := false, clog := v / 16 % 16, part := BitVec.ofNat 16 (v / 2 ^ 16) }))) ∧
      (x.head = x.tail → exec (.stalled port q) s = .next (s.updQueue n fun x => { x with stalled := false })) ∧
      (x.head = x.tail → x.reports = [r] → v < 2 ^ 32 → (x.rtail + 1) % 2 ^ x.rlog ≠ v % 2 ^ x.rlog →
        Memory.wf s.mem = true →
        ∃ t, exec (.rhead port q v) s = .next t ∧ (t.queue n).rhead = v ∧ (t.queue n).reports = [] ∧
          (∀ i : Fin 3, ofBytes (Memory.readN t.mem (reportAt s n + 8 * i.val) 8) = (r.get i).toNat) ∧
          ofBytes (Memory.readN t.mem (reportAt s n + 24) 8) = s.time % 2 ^ 64 ∧
          (t.queue n).rtail = (x.rtail + 1) % 2 ^ x.rlog ∧ (t.queue n).msix = x.msix + 1 ∧ OnlyReport s t n) ∧
      (v < 2 ^ 64 →
        exec (.queueRegisterWrite port q 0 v) s = .next (s.updQueue n fun x =>
          { x with cbase := BitVec.ofNat 64 (v / 32 * 32) }) ∧
        (4 ≤ v % 16 → v % 16 ≤ 12 → exec (.queueRegisterWrite port q 0x20 v) s = .next (s.updQueue n fun x =>
          { x with rbase := BitVec.ofNat 64 (v / 64 * 64), rlog := v % 16 })) ∧
        exec (.queueRegisterWrite port q 0x30 v) s = .next s)

/-- The cores of die d are as before but that their threads may issue no earlier (R124); every other core is as before. -/
def Sys2Proof.Claim.GoesOn (s t : State) (d : Nat) : Prop :=
  (∀ p, dieOf p ≠ d → t.core p = s.core p) ∧
    ∀ p, t.core p = { s.core p with slots := (t.core p).slots } ∧ ∀ j, (s.slotAt p j).ready ≤ (t.slotAt p j).ready ∧
      t.slotAt p j = { s.slotAt p j with ready := (t.slotAt p j).ready }

/-- R352, R354, R360 and R361: an accepted command completes with a COMMAND report that holds its SEQ: SUBMIT of a
loadable packet enters it in the task queue and in the graph of its epoch; POWER sets the state of each die of its
mask, OFF only of a die without a vcore, whose sealed cores stay sealed, and from OFF with the die's key tables;
ATTEST writes the nonce, the identity, the stepping, the images and the digests of the key tables, and counts a
signature, up to 2^20; a reserved OP reports BAD_OP, and what is refused REFUSED.  The layout of an attestation report
(log entry 7), a POWER taking effect on all its dies or none (log entry 60), what OFF loses (log entry 61), the free
report of a SUBMIT on another partition's queue (log entry 88) and a SUBMIT refused as a whole (log entry 95) are the
model's choices. -/
def Obligations.HostCommands : Prop :=
  ∀ (s : State) (port q n seq d code : Nat) (x : HQueue) (w : Vector Word 8) (p : Pkt.Words),
    n = 64 * port + q → x = s.queue n → x.command = some w → x.reports = [] → State.ringFull x = false →
    x.head = x.tail → Memory.wf s.mem = true → seq = bits (w.get 0) 63 32 → (∀ h, (s.home h).sat = []) →
      (bits (w.get 0) 15 0 = 0 ∨ 4 ≤ bits (w.get 0) 15 0 →
        ∃ t, exec (.badOp port q) s = .next t ∧ (t.queue n).command = none ∧ Wrote s t n 1 3 0 seq ∧
          OnlyReport s t n ∧ t.part = s.part) ∧
      (bits (w.get 0) 15 0 = 1 →
        (x.part ≠ s.part.num → ∃ t c, exec (.submit port q) s = .next t ∧ (t.queue n).command = none ∧
          (c = 0 ∨ c = 4) ∧ Wrote s t n 1 c 0 seq ∧ OnlyReport s t n ∧ t.part = s.part) ∧
        (x.part = s.part.num → w.get 2 = 0 ∨ 2 ^ 20 < (w.get 2).toNat →
          ∃ t, exec (.submit port q) s = .next t ∧ (t.queue n).command = none ∧ Wrote s t n 1 4 0 seq ∧
            OnlyReport s t n ∧ t.part = s.part) ∧
        (x.part = s.part.num → w.get 2 = 1 → (∀ i : Fin 16, p.get i =
            BitVec.ofNat 64 (ofBytes (Memory.readN s.mem (2 ^ 47 + bits (w.get 1) 46 0 + 8 * i.val) 8))) →
          Pkt.ok p true = true → (Pkt.pc p).toNat % 8 = 0 → Pkt.gang p = false → s.inPart (Pkt.vcore p) = true →
          ∃ t, exec (.submit port q) s = .next t ∧ (t.queue n).command = none ∧ Wrote s t n 1 0 0 seq ∧
            OnlyReport s t n ∧ t.part.queue.get s.fresh = some
              { w := p, accepted := s.time, ready := if Pkt.ndep p = 0 then some s.time else none
                epoch := (w.get 3).toNat } ∧
            (∀ k, k ≠ s.fresh → t.part.queue.get k = s.part.queue.get k) ∧
            t.part.graphs = s.part.graphs ++ [{ epoch := (w.get 3).toNat, pid := s.fresh, w := p }])) ∧
      (bits (w.get 0) 15 0 = 2 → d < 8 → w.get 1 = BitVec.ofNat 64 (2 ^ d) → code = (w.get 2).toNat →
        (9 < code ∨ (code = 9 ∧ s.dieHolds d = true) ∨ (0 < code ∧ code < 9 ∧ (s.die d).power = .halted) →
          ∃ t, exec (.power port q) s = .next t ∧ (t.queue n).command = none ∧ Wrote s t n 1 4 0 seq ∧
            OnlyReport s t n ∧ t.dies = s.dies) ∧
        (code = 0 ∨ (code ≤ 8 ∧ (s.die d).power ≠ .halted) →
          ∃ t, exec (.power port q) s = .next t ∧ (t.queue n).command = none ∧ Wrote s t n 1 0 0 seq ∧
            OnlyReport s t n ∧ (∀ k, k ≠ d → t.die k = s.die k) ∧
            (t.die d).power = (if code = 0 then .on else if code = 8 then .idle else .cap code) ∧
            ((s.die d).power ≠ .off → t.die d = { s.die d with power := (t.die d).power }) ∧
            (s.dieRuns d = true → t.cores = s.cores) ∧
            ((s.die d).power ≠ .off → GoesOn s t d) ∧
            ((s.die d).power = .off → (t.die d).keys = (s.linkKeys.get d).getD [] ∧
              ((∀ c ∈ s.firmware, dieOf c.1 ≠ d) → GoesOn s t d))) ∧
        (code = 9 → s.dieHolds d = false → s.cores.Pairwise (fun a b => a.1 < b.1) →
          ∃ t, exec (.power port q) s = .next t ∧ (t.queue n).command = none ∧ Wrote s t n 1 0 0 seq ∧
            (t.die d).power = .off ∧ (t.die d).spares = (s.die d).spares ∧ (t.die d).retired = (s.die d).retired ∧
            (∀ k, dieOf k = d → t.core k = { sealed := (s.core k).sealed }) ∧
            (∀ k, dieOf k ≠ d → t.core k = s.core k))) ∧
      (bits (w.get 0) 15 0 = 3 →
        (2 ^ 20 ≤ s.signed → ∃ t, exec (.attest port q) s = .next t ∧ (t.queue n).command = none ∧
          Wrote s t n 1 4 0 seq ∧ OnlyReport s t n ∧ t.signed = s.signed) ∧
        (s.signed < 2 ^ 20 → reportAt s n + 32 ≤ 2 ^ 47 + bits (w.get 2) 46 0 →
          ∃ t, exec (.attest port q) s = .next t ∧ (t.queue n).command = none ∧ Wrote s t n 1 0 0 seq ∧
            t.signed = s.signed + 1 ∧ ∀ body : List Byte,
              body = (List.range 48).map (fun i => Memory.read s.mem (2 ^ 47 + bits (w.get 1) 46 0 + i)) ++
                Config.identity ++ Config.stepping ++ Config.images ++
                State.keyPorts.flatMap (fun k => Config.keyDigest ((List.range 256).filter fun i =>
                  (s.keyAt k i).admitted)) →
              ∀ i < body.length, Memory.read t.mem (2 ^ 47 + bits (w.get 2) 46 0 + i) = body.getD i 0))

/-! ### The machine as a whole (R35, R36, R50-R67, R122, R126, R129, R137, R285, R327, R363) -/

/-- Nothing but the thread in slot j of core p acts in this step: no barrier phase, half, retry, event or input is due,
and it is that core's turn in the slot's cycle (R122); the thread is in rotation, alone and no helper, no event is to be
taken, and its bundle's eight bytes, at host address a, are in the instruction cache (R123, R331), with no open
accumulator at any home (R192). -/
def Sys2Proof.Claim.Issues (s : State) (p : Nat) (j : Fin 16) (a : Nat) : Prop :=
  s.phaseDue.isNone = true ∧ s.threadDue.isNone = true ∧ s.pollDue.isNone = true ∧ s.settled.events = [] ∧ s.inputs = [] ∧
    s.nextCore = some p ∧ j = Fin.ofNat 16 s.time ∧ s.inRotation p (s.slotAt p j) = true ∧ s.asyncReady p j = false ∧
    ((s.slotAt p j).life = .task ∨ (s.slotAt p j).life = .movement) ∧ (s.slotAt p j).pair = none ∧ s.fetchAt (s.slotAt p j).regs.pc = .bytes a ∧
    (s.core p).icache.contains ((s.slotAt p j).regs.pc.toNat / 64) = true ∧ ∀ h, (s.home h).sat = []

/-- The state in which the bundle w of the thread in slot j of core p is issued: its sources as the registers stand
(R35), and nothing left of the bundle before. -/
def Sys2Proof.Claim.fetchedIn (s : State) (p : Nat) (j : Fin 16) (isA : Bool) (w : Word) : State :=
  let r := (s.slotAt p j).regs
  { s.anew p j with
    polled := allCores, turn := p + 1
    cur := { pos := p, slot := j, ipc := r.pc, src := r, isA := isA, bundle := w } }

/-- The state in which a half of that bundle runs: the PC has gone on to the next bundle (R129). -/
def Sys2Proof.Claim.atBundle (s : State) (p : Nat) (j : Fin 16) (isA : Bool) (w : Word) : State :=
  (fetchedIn s p j isA w).updSlot p j fun x => { x with regs := { x.regs with pc := (s.slotAt p j).regs.pc + 8 } }

/-- What a half that has run to t makes of the step: with a trap the step ends there, a half that is held issues again, and
otherwise the rest follows (R36). -/
def Sys2Proof.Claim.Stops (s t : State) (rest : Prop) : Prop :=
  (t.cur.out = .trap → step s = .next t.passed) ∧ (t.cur.out = .held → step s = .next (t.setPc t.cur.ipc)) ∧
    (t.cur.out = .done ∨ t.cur.out = .parked → rest)

/-- R35, R36, R50, R67, R122, R126 and R129: a step in which a thread issues runs exactly the bundle that its eight
bytes decode to: a lone instruction runs from the state with the PC gone on, and a half that traps or parks is what
the step leaves, one that is held issues again; of a pair whose C half does not trap, the A half runs and then the C
half takes effect, and while a half is out the thread keeps its registers from before the bundle; a bundle that does
not decode traps ILLEGAL with the bundle as fetched.  The records fetched for the bundle are dropped. -/
def Obligations.StepRunsTheBundle : Prop :=
  ∀ (s : State) (p : Nat) (j : Fin 16) (a : Nat) (w : Word) (c i : Instr) (t u v : State) (e : DecodeError),
    Issues s p j a → w = BitVec.ofNat 64 (ofBytes (Memory.readN s.mem a 8)) →
      (decodeBundle (bits w 31 0) (bits w 63 32) = .error e → step s = .next ((fetchedIn s p j false w).trap .illegal w)) ∧
      (decodeBundle (bits w 31 0) (bits w 63 32) = .ok (.loneC i) → exec i (atBundle s p j false w) = .next t →
        Stops s t (step s = .next t.passed)) ∧
      (decodeBundle (bits w 31 0) (bits w 63 32) = .ok (.loneA i) → exec i (atBundle s p j true w) = .next t →
        Stops s t (step s = .next t.passed)) ∧
      (decodeBundle (bits w 31 0) (bits w 63 32) = .ok (.pair c i) → exec c (atBundle s p j false w) = .next t →
        Stops s t (exec i (atBundle s p j true w) = .next u →
          Stops s u (exec c { u with cur := (atBundle s p j false w).cur } = .next v →
            Stops s v (step s = .next (v.passed.keepUndo (s.slotAt p j).tid s.fresh
                ((s.slotAt p j).regs, (s.slotAt p j).bounce))))))

/-- R50 to R66: words that the spec writes out decode to the instructions it gives them for: one or more of every
family of the opcode maps. -/
def Obligations.DecodeWords : Prop :=
  ∀ x ∈ ([(0x04C80000, .await 9), (0x02407FFF, .loop 8 0x7FFF), (0x08018000, .spawn 3), (0x0C2D5800, .stgp 5 10 11),
      (0x10193028, .ld 3 2 false .d 0x028), (0x12283200, .ldf 5 0 0x200), (0x18191005, .old 3 2 false .h 5),
      (0x2111A009, .amin 2 3 4 true .w), (0x23033809, .red 6 7 .sadd .w), (0x2500000F, .fence .dev .full),
      (0x28890001, .mbxrMovement 1 2), (0x29990001, .cpyt 3 2 true), (0x30862000, .sendw 12 4), (0x31830000, .migr 6),
      (0x32833803, .rst 6 7 .d), (0x368A281B, .gcol 1 4 5 3 .bc), (0x3A844801, .rply 0 8 9 true), (0x3C800000, .tret),
      (0x3D980004, .swr 3 .tvec), (0x3E811801, .plcMigx 2 3), (0x409A2801, .add 3 4 5 .ss),
      (0x45918416, .ext 2 3 8 11), (0x4B2FFFFF, .movi 5 0x7FFFF), (0x501A2803, .fadd 3 4 5 .rne .s),
      (0x56938041, .ffn 2 7 .tanh .dyn), (0x581A2809, .vadd 3 4 5 .dyn 9), (0x5DB3820A, .vtopk 6 7 4 .dyn 0xA),
      (0x68200005, .mma 2 true false true), (0x6C990000, .astat 3 2)] : List (Nat × Instr)),
    decodeTableWord 32 x.1 = some x.2

/-- R50 to R59, with R75-R104: for every well-formed instruction of the A class, the decoder reads back from its
encoding, as a lone bundle, the instruction with every operand. -/
def Obligations.ARoundTrip : Prop :=
  ∀ (i : Instr) (w0 w1 : Nat), i.wellFormed = true → i.isA = true → encode i = some (w0, w1) →
    decodeBundle w0 w1 = .ok (.loneA i) ∧ w0 < 2 ^ 32 ∧ w1 < 2 ^ 32

/-- R50 to R55 and R60 to R66: for every well-formed instruction of the C class, the decoder reads back from its
encoding, as a lone bundle, the instruction with every operand. -/
def Obligations.CRoundTrip : Prop :=
  ∀ (i : Instr) (w0 w1 : Nat), i.wellFormed = true → i.isA = false → encode i = some (w0, w1) →
    decodeBundle w0 w1 = .ok (.loneC i) ∧ w0 < 2 ^ 32 ∧ w1 = 0

/-- R127, R153, R229, R252, R285, R327, R351 and R363: right after reset the device is not ready and BOOTST is 0, no
thread exists, TSW, TEPC, TCAUSE and TIME are 0 and VL is 32, every scratchpad byte is 0 and every word empty, every tile
is EMPTY and every engine asleep, TEDI, TEDG, TEDM, TEDC and WDOG have their reset values, and every queue
is disabled with CLOG and RLOG 4; memory lists nothing, and its canonical form holds.  That memory and the scratchpads read
as 0 and no word is full (log entry 10), and that the general registers and the other fields of a slot that no task has had
are 0 or as R127 and R138 have them for a task (log entry 64), are the model's choices, which the spec does not state of the
machine at reset. -/
def Obligations.ResetState : Prop :=
  ∀ (p k n : Nat) (j : Fin 16) (r : Reg),
    State.reset.boot = { fail := 0, image := 0, step := 0, ready := false } ∧
    (State.reset.slotAt p j).busy = false ∧ (State.reset.slotAt p j).regs.tsw = 0 ∧
    (State.reset.slotAt p j).regs.tepc = 0 ∧ (State.reset.slotAt p j).regs.tcause = 0 ∧
    (State.reset.slotAt p j).regs.vl = 32 ∧ (State.reset.slotAt p j).regs.g.get r = 0 ∧ State.reset.time = 0 ∧
    Memory.read (State.reset.core p).spad n = 0 ∧ State.isFull (State.reset.core p) n = false ∧
    (State.reset.core p).buffer = [] ∧ (State.reset.tileAt k n).kind = .empty ∧
    (State.reset.cluster k).eng.awake = false ∧ State.reset.part.tedi = 22 ∧ State.reset.part.tedg = 0x10000 ∧
    State.reset.part.tedm = 2 ∧ State.reset.part.tedc = 4 ∧ State.reset.part.wdog = 32 ∧ State.reset.part.frec = 0 ∧
    (State.reset.queue n).en = false ∧ (State.reset.queue n).clog = 4 ∧ (State.reset.queue n).rlog = 4 ∧
    State.reset.mem = [] ∧ Memory.wf State.reset.mem = true

end
end

