-- ==== Sys2Proof/Laws/Maps.lean ====
section
/-! SUPPORT. The laws of sparse tables and of byte memories: reading after a write, what a write leaves alone, and
that every memory operation keeps the canonical form. -/

namespace Sys2Proof

namespace AMap

variable {α : Type}

@[simp] theorem get_nil (k : Nat) : AMap.get ([] : AMap α) k = none := rfl

/-- The entry just put is read. -/
@[simp] theorem get_put (m : AMap α) (k : Nat) (a : α) : (AMap.put m k a).get k = some a := by
  induction m with
  | nil => simp [AMap.put, AMap.get]
  | cons x t ih =>
    obtain ⟨j, b⟩ := x
    simp only [AMap.put]
    split
    · simp [AMap.get]
    · split
      · simp [AMap.get]
      · rename_i h
        simp [AMap.get, h, ih]

/-- Putting an entry leaves the entries of other keys. -/
theorem get_put_ne (m : AMap α) {k j : Nat} (a : α) (h : j ≠ k) : (AMap.put m k a).get j = m.get j := by
  induction m with
  | nil => simp [AMap.put, AMap.get, Ne.symm h]
  | cons x t ih =>
    obtain ⟨i, b⟩ := x
    simp only [AMap.put]
    split
    · simp [AMap.get, Ne.symm h]
    · split
      · rename_i e
        subst e
        simp [AMap.get, Ne.symm h]
      · simp [AMap.get, ih]

/-- Removing the entry of a key leaves the entries of other keys. -/
theorem get_del_ne (m : AMap α) {k j : Nat} (h : j ≠ k) : (AMap.del m k).get j = m.get j := by
  induction m with
  | nil => rfl
  | cons x t ih =>
    obtain ⟨i, b⟩ := x
    simp only [AMap.del]
    split
    · rename_i e
      subst e
      simp [AMap.get, Ne.symm h]
    · simp [AMap.get, ih]

/-- The keys rise strictly. -/
def Rising (m : AMap α) : Prop := List.Pairwise (fun a b => a.1 < b.1) m

theorem rising_nil : Rising ([] : AMap α) := List.Pairwise.nil

/-- A key below every key of a table is not in it. -/
theorem get_eq_none {m : AMap α} {k : Nat} (h : ∀ x ∈ m, k < x.1) : AMap.get m k = none := by
  induction m with
  | nil => rfl
  | cons x t ih =>
    obtain ⟨j, b⟩ := x
    have hj : k < j := h (j, b) (by simp)
    simp only [AMap.get, if_neg (Nat.ne_of_gt hj)]
    exact ih fun y hy => h y (by simp [hy])

/-- In a rising table the entry removed is gone. -/
theorem get_del {m : AMap α} (h : Rising m) (k : Nat) : (AMap.del m k).get k = none := by
  induction m with
  | nil => rfl
  | cons x t ih =>
    obtain ⟨j, b⟩ := x
    have ht := List.pairwise_cons.mp h
    simp only [AMap.del]
    split
    · rename_i e
      subst e
      exact get_eq_none ht.1
    · rename_i e
      simp [AMap.get, e, ih ht.2]

theorem mem_put {m : AMap α} {k : Nat} {a : α} {x : Nat × α} (h : x ∈ AMap.put m k a) : x = (k, a) ∨ x ∈ m := by
  induction m with
  | nil => simpa [AMap.put] using h
  | cons y t ih =>
    obtain ⟨j, b⟩ := y
    simp only [AMap.put] at h
    split at h
    · simpa using h
    · split at h
      · rcases List.mem_cons.mp h with h | h
        · exact .inl h
        · exact .inr (by simp [h])
      · rcases List.mem_cons.mp h with h | h
        · exact .inr (by simp [h])
        · rcases ih h with h | h
          · exact .inl h
          · exact .inr (by simp [h])

theorem mem_del {m : AMap α} {k : Nat} {x : Nat × α} (h : x ∈ AMap.del m k) : x ∈ m := by
  induction m with
  | nil => exact h
  | cons y t ih =>
    obtain ⟨j, b⟩ := y
    simp only [AMap.del] at h
    split at h
    · simp [h]
    · rcases List.mem_cons.mp h with h | h
      · simp [h]
      · simp [ih h]

/-- Putting an entry keeps the order of keys. -/
theorem rising_put {m : AMap α} (h : Rising m) (k : Nat) (a : α) : Rising (AMap.put m k a) := by
  induction m with
  | nil => simp [AMap.put, Rising]
  | cons x t ih =>
    obtain ⟨j, b⟩ := x
    have ht := List.pairwise_cons.mp h
    simp only [AMap.put]
    split
    · rename_i hk
      refine List.pairwise_cons.mpr ⟨fun y hy => ?_, h⟩
      rcases List.mem_cons.mp hy with rfl | hy
      · exact hk
      · exact Nat.lt_trans hk (ht.1 y hy)
    · split
      · rename_i e
        subst e
        exact List.pairwise_cons.mpr ⟨ht.1, ht.2⟩
      · refine List.pairwise_cons.mpr ⟨fun y hy => ?_, ih ht.2⟩
        rcases mem_put hy with rfl | hy
        · show j < k
          omega
        · exact ht.1 y hy

/-- Removing an entry keeps the order of keys. -/
theorem rising_del {m : AMap α} (h : Rising m) (k : Nat) : Rising (AMap.del m k) := by
  induction m with
  | nil => exact h
  | cons x t ih =>
    obtain ⟨j, b⟩ := x
    have ht := List.pairwise_cons.mp h
    simp only [AMap.del]
    split
    · exact ht.2
    · exact List.pairwise_cons.mpr ⟨fun y hy => ht.1 y (mem_del hy), ih ht.2⟩

end AMap

namespace Machine.Memory

/-- The canonical form says that the addresses rise strictly and no byte listed is 0. -/
theorem wf_iff (m : List Host.Cell) : wf m = true ↔ AMap.Rising m ∧ ∀ x ∈ m, x.2 ≠ 0 := by
  induction m with
  | nil => simp [wf, AMap.Rising]
  | cons x t ih =>
    obtain ⟨j, b⟩ := x
    cases t with
    | nil => simp [wf, AMap.Rising]
    | cons y u =>
      obtain ⟨k, c⟩ := y
      simp only [wf, Bool.and_eq_true, bne_iff_ne, decide_eq_true_eq, ih, AMap.Rising, List.pairwise_cons,
        List.forall_mem_cons]
      constructor
      · rintro ⟨⟨hb, hjk⟩, ⟨hk, hu⟩, hc, hr⟩
        exact ⟨⟨⟨hjk, fun a ha => Nat.lt_trans hjk (hk a ha)⟩, hk, hu⟩, hb, hc, hr⟩
      · rintro ⟨⟨⟨hjk, _⟩, hk, hu⟩, hb, hc, hr⟩
        exact ⟨⟨hb, hjk⟩, ⟨hk, hu⟩, hc, hr⟩

theorem read_eq_get (m : List Host.Cell) (a : Nat) : read m a = (AMap.get m a).getD 0 := by
  induction m with
  | nil => rfl
  | cons x t ih =>
    obtain ⟨j, b⟩ := x
    simp only [read, AMap.get]
    split <;> simp [ih]

/-- Writing a byte keeps the canonical form. -/
theorem wf_write {m : List Host.Cell} (h : wf m = true) (a : Nat) (b : Byte) : wf (write m a b) = true := by
  rw [wf_iff] at h ⊢
  unfold write
  split
  · exact ⟨AMap.rising_del h.1 a, fun x hx => h.2 x (AMap.mem_del hx)⟩
  · rename_i hb
    refine ⟨AMap.rising_put h.1 a b, fun x hx => ?_⟩
    rcases AMap.mem_put hx with rfl | hx
    · exact hb
    · exact h.2 x hx

/-- Writing bytes keeps the canonical form. -/
theorem wf_writeN {m : List Host.Cell} (h : wf m = true) (a : Nat) (bs : List Byte) :
    wf (writeN m a bs) = true := by
  induction bs generalizing m a with
  | nil => exact h
  | cons b bs ih => exact ih (wf_write h a b) (a + 1)

/-- The byte just written is read. -/
theorem read_write {m : List Host.Cell} (h : wf m = true) (a : Nat) (b : Byte) : read (write m a b) a = b := by
  rw [read_eq_get]
  unfold write
  split
  · rename_i hb
    rw [AMap.get_del ((wf_iff m).mp h).1, hb]
    rfl
  · rw [AMap.get_put]
    rfl

/-- Writing a byte leaves every other byte. -/
theorem read_write_ne (m : List Host.Cell) {a c : Nat} (b : Byte) (h : c ≠ a) : read (write m a b) c = read m c := by
  rw [read_eq_get, read_eq_get]
  unfold write
  split
  · rw [AMap.get_del_ne m h]
  · rw [AMap.get_put_ne m b h]

/-- Writing bytes leaves every byte outside them. -/
theorem read_writeN_ne (m : List Host.Cell) (a c : Nat) (bs : List Byte) (h : c < a ∨ a + bs.length ≤ c) :
    read (writeN m a bs) c = read m c := by
  induction bs generalizing m a with
  | nil => rfl
  | cons b bs ih =>
    simp only [List.length_cons] at h
    simp only [writeN]
    rw [ih (write m a b) (a + 1) (by omega), read_write_ne m b (by omega)]

/-- The bytes just written are read. -/
theorem readN_writeN {m : List Host.Cell} (h : wf m = true) (a : Nat) (bs : List Byte) :
    readN (writeN m a bs) a bs.length = bs := by
  induction bs generalizing m a with
  | nil => rfl
  | cons b bs ih =>
    simp only [writeN, List.length_cons, readN]
    rw [ih (wf_write h a b) (a + 1), read_writeN_ne _ _ _ _ (Or.inl (Nat.lt_succ_self a)), read_write h]

/-- Reset's memory has the canonical form. -/
theorem wf_reset : wf State.reset.mem = true := rfl

end Machine.Memory

end Sys2Proof
end

