-- ==== Sys2Proof/Laws/State.lean ====
section
/-! SUPPORT. The laws of the state's updates: what each leaves alone, field by field, and what its own part then
reads as. -/

namespace Sys2Proof.Machine

namespace State

variable (s : State)

/-! `setCore` changes `cores` only. -/

@[simp] theorem setCore_time (p : Nat) (c : Core) : (s.setCore p c).time = s.time := rfl
@[simp] theorem setCore_polled (p : Nat) (c : Core) : (s.setCore p c).polled = s.polled := rfl
@[simp] theorem setCore_turn (p : Nat) (c : Core) : (s.setCore p c).turn = s.turn := rfl
@[simp] theorem setCore_cur (p : Nat) (c : Core) : (s.setCore p c).cur = s.cur := rfl
@[simp] theorem setCore_clusters (p : Nat) (c : Core) : (s.setCore p c).clusters = s.clusters := rfl
@[simp] theorem setCore_dies (p : Nat) (c : Core) : (s.setCore p c).dies = s.dies := rfl
@[simp] theorem setCore_vcores (p : Nat) (c : Core) : (s.setCore p c).vcores = s.vcores := rfl
@[simp] theorem setCore_homes (p : Nat) (c : Core) : (s.setCore p c).homes = s.homes := rfl
@[simp] theorem setCore_mem (p : Nat) (c : Core) : (s.setCore p c).mem = s.mem := rfl
@[simp] theorem setCore_poison (p : Nat) (c : Core) : (s.setCore p c).poison = s.poison := rfl
@[simp] theorem setCore_checks (p : Nat) (c : Core) : (s.setCore p c).checks = s.checks := rfl
@[simp] theorem setCore_stage2 (p : Nat) (c : Core) : (s.setCore p c).stage2 = s.stage2 := rfl
@[simp] theorem setCore_part (p : Nat) (c : Core) : (s.setCore p c).part = s.part := rfl
@[simp] theorem setCore_tables (p : Nat) (c : Core) : (s.setCore p c).tables = s.tables := rfl
@[simp] theorem setCore_firmware (p : Nat) (c : Core) : (s.setCore p c).firmware = s.firmware := rfl
@[simp] theorem setCore_linkKeys (p : Nat) (c : Core) : (s.setCore p c).linkKeys = s.linkKeys := rfl
@[simp] theorem setCore_queueParts (p : Nat) (c : Core) : (s.setCore p c).queueParts = s.queueParts := rfl
@[simp] theorem setCore_notified (p : Nat) (c : Core) : (s.setCore p c).notified = s.notified := rfl
@[simp] theorem setCore_fills (p : Nat) (c : Core) : (s.setCore p c).fills = s.fills := rfl
@[simp] theorem setCore_misses (p : Nat) (c : Core) : (s.setCore p c).misses = s.misses := rfl
@[simp] theorem setCore_net (p : Nat) (c : Core) : (s.setCore p c).net = s.net := rfl
@[simp] theorem setCore_trees (p : Nat) (c : Core) : (s.setCore p c).trees = s.trees := rfl
@[simp] theorem setCore_acks (p : Nat) (c : Core) : (s.setCore p c).acks = s.acks := rfl
@[simp] theorem setCore_exchanges (p : Nat) (c : Core) : (s.setCore p c).exchanges = s.exchanges := rfl
@[simp] theorem setCore_instant (p : Nat) (c : Core) : (s.setCore p c).instant = s.instant := rfl
@[simp] theorem setCore_instants (p : Nat) (c : Core) : (s.setCore p c).instants = s.instants := rfl
@[simp] theorem setCore_boot (p : Nat) (c : Core) : (s.setCore p c).boot = s.boot := rfl
@[simp] theorem setCore_queues (p : Nat) (c : Core) : (s.setCore p c).queues = s.queues := rfl
@[simp] theorem setCore_signed (p : Nat) (c : Core) : (s.setCore p c).signed = s.signed := rfl
@[simp] theorem setCore_pkg (p : Nat) (c : Core) : (s.setCore p c).pkg = s.pkg := rfl
@[simp] theorem setCore_inputs (p : Nat) (c : Core) : (s.setCore p c).inputs = s.inputs := rfl
@[simp] theorem setCore_tick (p : Nat) (c : Core) : (s.setCore p c).tick = s.tick := rfl
@[simp] theorem setCore_fresh (p : Nat) (c : Core) : (s.setCore p c).fresh = s.fresh := rfl
@[simp] theorem setCore_cluster (p : Nat) (c : Core) (i : Nat) : (s.setCore p c).cluster i = s.cluster i := rfl
@[simp] theorem setCore_die (p : Nat) (c : Core) (i : Nat) : (s.setCore p c).die i = s.die i := rfl
@[simp] theorem setCore_vcore (p : Nat) (c : Core) (i : Nat) : (s.setCore p c).vcore i = s.vcore i := rfl
@[simp] theorem setCore_home (p : Nat) (c : Core) (i : Nat) : (s.setCore p c).home i = s.home i := rfl
@[simp] theorem setCore_tree (p : Nat) (c : Core) (i : Nat) : (s.setCore p c).tree i = s.tree i := rfl
@[simp] theorem setCore_queue (p : Nat) (c : Core) (i : Nat) : (s.setCore p c).queue i = s.queue i := rfl

/-! `updCore` changes `cores` only. -/

@[simp] theorem updCore_time (p : Nat) (f : Core → Core) : (s.updCore p f).time = s.time := rfl
@[simp] theorem updCore_polled (p : Nat) (f : Core → Core) : (s.updCore p f).polled = s.polled := rfl
@[simp] theorem updCore_turn (p : Nat) (f : Core → Core) : (s.updCore p f).turn = s.turn := rfl
@[simp] theorem updCore_cur (p : Nat) (f : Core → Core) : (s.updCore p f).cur = s.cur := rfl
@[simp] theorem updCore_clusters (p : Nat) (f : Core → Core) : (s.updCore p f).clusters = s.clusters := rfl
@[simp] theorem updCore_dies (p : Nat) (f : Core → Core) : (s.updCore p f).dies = s.dies := rfl
@[simp] theorem updCore_vcores (p : Nat) (f : Core → Core) : (s.updCore p f).vcores = s.vcores := rfl
@[simp] theorem updCore_homes (p : Nat) (f : Core → Core) : (s.updCore p f).homes = s.homes := rfl
@[simp] theorem updCore_mem (p : Nat) (f : Core → Core) : (s.updCore p f).mem = s.mem := rfl
@[simp] theorem updCore_poison (p : Nat) (f : Core → Core) : (s.updCore p f).poison = s.poison := rfl
@[simp] theorem updCore_checks (p : Nat) (f : Core → Core) : (s.updCore p f).checks = s.checks := rfl
@[simp] theorem updCore_stage2 (p : Nat) (f : Core → Core) : (s.updCore p f).stage2 = s.stage2 := rfl
@[simp] theorem updCore_part (p : Nat) (f : Core → Core) : (s.updCore p f).part = s.part := rfl
@[simp] theorem updCore_tables (p : Nat) (f : Core → Core) : (s.updCore p f).tables = s.tables := rfl
@[simp] theorem updCore_firmware (p : Nat) (f : Core → Core) : (s.updCore p f).firmware = s.firmware := rfl
@[simp] theorem updCore_linkKeys (p : Nat) (f : Core → Core) : (s.updCore p f).linkKeys = s.linkKeys := rfl
@[simp] theorem updCore_queueParts (p : Nat) (f : Core → Core) : (s.updCore p f).queueParts = s.queueParts := rfl
@[simp] theorem updCore_notified (p : Nat) (f : Core → Core) : (s.updCore p f).notified = s.notified := rfl
@[simp] theorem updCore_fills (p : Nat) (f : Core → Core) : (s.updCore p f).fills = s.fills := rfl
@[simp] theorem updCore_misses (p : Nat) (f : Core → Core) : (s.updCore p f).misses = s.misses := rfl
@[simp] theorem updCore_net (p : Nat) (f : Core → Core) : (s.updCore p f).net = s.net := rfl
@[simp] theorem updCore_trees (p : Nat) (f : Core → Core) : (s.updCore p f).trees = s.trees := rfl
@[simp] theorem updCore_acks (p : Nat) (f : Core → Core) : (s.updCore p f).acks = s.acks := rfl
@[simp] theorem updCore_exchanges (p : Nat) (f : Core → Core) : (s.updCore p f).exchanges = s.exchanges := rfl
@[simp] theorem updCore_instant (p : Nat) (f : Core → Core) : (s.updCore p f).instant = s.instant := rfl
@[simp] theorem updCore_instants (p : Nat) (f : Core → Core) : (s.updCore p f).instants = s.instants := rfl
@[simp] theorem updCore_boot (p : Nat) (f : Core → Core) : (s.updCore p f).boot = s.boot := rfl
@[simp] theorem updCore_queues (p : Nat) (f : Core → Core) : (s.updCore p f).queues = s.queues := rfl
@[simp] theorem updCore_signed (p : Nat) (f : Core → Core) : (s.updCore p f).signed = s.signed := rfl
@[simp] theorem updCore_pkg (p : Nat) (f : Core → Core) : (s.updCore p f).pkg = s.pkg := rfl
@[simp] theorem updCore_inputs (p : Nat) (f : Core → Core) : (s.updCore p f).inputs = s.inputs := rfl
@[simp] theorem updCore_tick (p : Nat) (f : Core → Core) : (s.updCore p f).tick = s.tick := rfl
@[simp] theorem updCore_fresh (p : Nat) (f : Core → Core) : (s.updCore p f).fresh = s.fresh := rfl
@[simp] theorem updCore_cluster (p : Nat) (f : Core → Core) (i : Nat) : (s.updCore p f).cluster i = s.cluster i := rfl
@[simp] theorem updCore_die (p : Nat) (f : Core → Core) (i : Nat) : (s.updCore p f).die i = s.die i := rfl
@[simp] theorem updCore_vcore (p : Nat) (f : Core → Core) (i : Nat) : (s.updCore p f).vcore i = s.vcore i := rfl
@[simp] theorem updCore_home (p : Nat) (f : Core → Core) (i : Nat) : (s.updCore p f).home i = s.home i := rfl
@[simp] theorem updCore_tree (p : Nat) (f : Core → Core) (i : Nat) : (s.updCore p f).tree i = s.tree i := rfl
@[simp] theorem updCore_queue (p : Nat) (f : Core → Core) (i : Nat) : (s.updCore p f).queue i = s.queue i := rfl

/-! `updCluster` changes `clusters` only. -/

@[simp] theorem updCluster_time (k : Nat) (f : Cluster → Cluster) : (s.updCluster k f).time = s.time := rfl
@[simp] theorem updCluster_polled (k : Nat) (f : Cluster → Cluster) : (s.updCluster k f).polled = s.polled := rfl
@[simp] theorem updCluster_turn (k : Nat) (f : Cluster → Cluster) : (s.updCluster k f).turn = s.turn := rfl
@[simp] theorem updCluster_cur (k : Nat) (f : Cluster → Cluster) : (s.updCluster k f).cur = s.cur := rfl
@[simp] theorem updCluster_cores (k : Nat) (f : Cluster → Cluster) : (s.updCluster k f).cores = s.cores := rfl
@[simp] theorem updCluster_dies (k : Nat) (f : Cluster → Cluster) : (s.updCluster k f).dies = s.dies := rfl
@[simp] theorem updCluster_vcores (k : Nat) (f : Cluster → Cluster) : (s.updCluster k f).vcores = s.vcores := rfl
@[simp] theorem updCluster_homes (k : Nat) (f : Cluster → Cluster) : (s.updCluster k f).homes = s.homes := rfl
@[simp] theorem updCluster_mem (k : Nat) (f : Cluster → Cluster) : (s.updCluster k f).mem = s.mem := rfl
@[simp] theorem updCluster_poison (k : Nat) (f : Cluster → Cluster) : (s.updCluster k f).poison = s.poison := rfl
@[simp] theorem updCluster_checks (k : Nat) (f : Cluster → Cluster) : (s.updCluster k f).checks = s.checks := rfl
@[simp] theorem updCluster_stage2 (k : Nat) (f : Cluster → Cluster) : (s.updCluster k f).stage2 = s.stage2 := rfl
@[simp] theorem updCluster_part (k : Nat) (f : Cluster → Cluster) : (s.updCluster k f).part = s.part := rfl
@[simp] theorem updCluster_tables (k : Nat) (f : Cluster → Cluster) : (s.updCluster k f).tables = s.tables := rfl
@[simp] theorem updCluster_firmware (k : Nat) (f : Cluster → Cluster) : (s.updCluster k f).firmware = s.firmware := rfl
@[simp] theorem updCluster_linkKeys (k : Nat) (f : Cluster → Cluster) : (s.updCluster k f).linkKeys = s.linkKeys := rfl
@[simp] theorem updCluster_queueParts (k : Nat) (f : Cluster → Cluster) : (s.updCluster k f).queueParts = s.queueParts := rfl
@[simp] theorem updCluster_notified (k : Nat) (f : Cluster → Cluster) : (s.updCluster k f).notified = s.notified := rfl
@[simp] theorem updCluster_fills (k : Nat) (f : Cluster → Cluster) : (s.updCluster k f).fills = s.fills := rfl
@[simp] theorem updCluster_misses (k : Nat) (f : Cluster → Cluster) : (s.updCluster k f).misses = s.misses := rfl
@[simp] theorem updCluster_net (k : Nat) (f : Cluster → Cluster) : (s.updCluster k f).net = s.net := rfl
@[simp] theorem updCluster_trees (k : Nat) (f : Cluster → Cluster) : (s.updCluster k f).trees = s.trees := rfl
@[simp] theorem updCluster_acks (k : Nat) (f : Cluster → Cluster) : (s.updCluster k f).acks = s.acks := rfl
@[simp] theorem updCluster_exchanges (k : Nat) (f : Cluster → Cluster) : (s.updCluster k f).exchanges = s.exchanges := rfl
@[simp] theorem updCluster_instant (k : Nat) (f : Cluster → Cluster) : (s.updCluster k f).instant = s.instant := rfl
@[simp] theorem updCluster_instants (k : Nat) (f : Cluster → Cluster) : (s.updCluster k f).instants = s.instants := rfl
@[simp] theorem updCluster_boot (k : Nat) (f : Cluster → Cluster) : (s.updCluster k f).boot = s.boot := rfl
@[simp] theorem updCluster_queues (k : Nat) (f : Cluster → Cluster) : (s.updCluster k f).queues = s.queues := rfl
@[simp] theorem updCluster_signed (k : Nat) (f : Cluster → Cluster) : (s.updCluster k f).signed = s.signed := rfl
@[simp] theorem updCluster_pkg (k : Nat) (f : Cluster → Cluster) : (s.updCluster k f).pkg = s.pkg := rfl
@[simp] theorem updCluster_inputs (k : Nat) (f : Cluster → Cluster) : (s.updCluster k f).inputs = s.inputs := rfl
@[simp] theorem updCluster_tick (k : Nat) (f : Cluster → Cluster) : (s.updCluster k f).tick = s.tick := rfl
@[simp] theorem updCluster_fresh (k : Nat) (f : Cluster → Cluster) : (s.updCluster k f).fresh = s.fresh := rfl
@[simp] theorem updCluster_core (k : Nat) (f : Cluster → Cluster) (i : Nat) : (s.updCluster k f).core i = s.core i := rfl
@[simp] theorem updCluster_die (k : Nat) (f : Cluster → Cluster) (i : Nat) : (s.updCluster k f).die i = s.die i := rfl
@[simp] theorem updCluster_vcore (k : Nat) (f : Cluster → Cluster) (i : Nat) : (s.updCluster k f).vcore i = s.vcore i := rfl
@[simp] theorem updCluster_home (k : Nat) (f : Cluster → Cluster) (i : Nat) : (s.updCluster k f).home i = s.home i := rfl
@[simp] theorem updCluster_tree (k : Nat) (f : Cluster → Cluster) (i : Nat) : (s.updCluster k f).tree i = s.tree i := rfl
@[simp] theorem updCluster_queue (k : Nat) (f : Cluster → Cluster) (i : Nat) : (s.updCluster k f).queue i = s.queue i := rfl

/-! `updDie` changes `dies` only. -/

@[simp] theorem updDie_time (d : Nat) (f : Die → Die) : (s.updDie d f).time = s.time := rfl
@[simp] theorem updDie_polled (d : Nat) (f : Die → Die) : (s.updDie d f).polled = s.polled := rfl
@[simp] theorem updDie_turn (d : Nat) (f : Die → Die) : (s.updDie d f).turn = s.turn := rfl
@[simp] theorem updDie_cur (d : Nat) (f : Die → Die) : (s.updDie d f).cur = s.cur := rfl
@[simp] theorem updDie_cores (d : Nat) (f : Die → Die) : (s.updDie d f).cores = s.cores := rfl
@[simp] theorem updDie_clusters (d : Nat) (f : Die → Die) : (s.updDie d f).clusters = s.clusters := rfl
@[simp] theorem updDie_vcores (d : Nat) (f : Die → Die) : (s.updDie d f).vcores = s.vcores := rfl
@[simp] theorem updDie_homes (d : Nat) (f : Die → Die) : (s.updDie d f).homes = s.homes := rfl
@[simp] theorem updDie_mem (d : Nat) (f : Die → Die) : (s.updDie d f).mem = s.mem := rfl
@[simp] theorem updDie_poison (d : Nat) (f : Die → Die) : (s.updDie d f).poison = s.poison := rfl
@[simp] theorem updDie_checks (d : Nat) (f : Die → Die) : (s.updDie d f).checks = s.checks := rfl
@[simp] theorem updDie_stage2 (d : Nat) (f : Die → Die) : (s.updDie d f).stage2 = s.stage2 := rfl
@[simp] theorem updDie_part (d : Nat) (f : Die → Die) : (s.updDie d f).part = s.part := rfl
@[simp] theorem updDie_tables (d : Nat) (f : Die → Die) : (s.updDie d f).tables = s.tables := rfl
@[simp] theorem updDie_firmware (d : Nat) (f : Die → Die) : (s.updDie d f).firmware = s.firmware := rfl
@[simp] theorem updDie_linkKeys (d : Nat) (f : Die → Die) : (s.updDie d f).linkKeys = s.linkKeys := rfl
@[simp] theorem updDie_queueParts (d : Nat) (f : Die → Die) : (s.updDie d f).queueParts = s.queueParts := rfl
@[simp] theorem updDie_notified (d : Nat) (f : Die → Die) : (s.updDie d f).notified = s.notified := rfl
@[simp] theorem updDie_fills (d : Nat) (f : Die → Die) : (s.updDie d f).fills = s.fills := rfl
@[simp] theorem updDie_misses (d : Nat) (f : Die → Die) : (s.updDie d f).misses = s.misses := rfl
@[simp] theorem updDie_net (d : Nat) (f : Die → Die) : (s.updDie d f).net = s.net := rfl
@[simp] theorem updDie_trees (d : Nat) (f : Die → Die) : (s.updDie d f).trees = s.trees := rfl
@[simp] theorem updDie_acks (d : Nat) (f : Die → Die) : (s.updDie d f).acks = s.acks := rfl
@[simp] theorem updDie_exchanges (d : Nat) (f : Die → Die) : (s.updDie d f).exchanges = s.exchanges := rfl
@[simp] theorem updDie_instant (d : Nat) (f : Die → Die) : (s.updDie d f).instant = s.instant := rfl
@[simp] theorem updDie_instants (d : Nat) (f : Die → Die) : (s.updDie d f).instants = s.instants := rfl
@[simp] theorem updDie_boot (d : Nat) (f : Die → Die) : (s.updDie d f).boot = s.boot := rfl
@[simp] theorem updDie_queues (d : Nat) (f : Die → Die) : (s.updDie d f).queues = s.queues := rfl
@[simp] theorem updDie_signed (d : Nat) (f : Die → Die) : (s.updDie d f).signed = s.signed := rfl
@[simp] theorem updDie_pkg (d : Nat) (f : Die → Die) : (s.updDie d f).pkg = s.pkg := rfl
@[simp] theorem updDie_inputs (d : Nat) (f : Die → Die) : (s.updDie d f).inputs = s.inputs := rfl
@[simp] theorem updDie_tick (d : Nat) (f : Die → Die) : (s.updDie d f).tick = s.tick := rfl
@[simp] theorem updDie_fresh (d : Nat) (f : Die → Die) : (s.updDie d f).fresh = s.fresh := rfl
@[simp] theorem updDie_core (d : Nat) (f : Die → Die) (i : Nat) : (s.updDie d f).core i = s.core i := rfl
@[simp] theorem updDie_cluster (d : Nat) (f : Die → Die) (i : Nat) : (s.updDie d f).cluster i = s.cluster i := rfl
@[simp] theorem updDie_vcore (d : Nat) (f : Die → Die) (i : Nat) : (s.updDie d f).vcore i = s.vcore i := rfl
@[simp] theorem updDie_home (d : Nat) (f : Die → Die) (i : Nat) : (s.updDie d f).home i = s.home i := rfl
@[simp] theorem updDie_tree (d : Nat) (f : Die → Die) (i : Nat) : (s.updDie d f).tree i = s.tree i := rfl
@[simp] theorem updDie_queue (d : Nat) (f : Die → Die) (i : Nat) : (s.updDie d f).queue i = s.queue i := rfl

/-! `updVcore` changes `vcores` only. -/

@[simp] theorem updVcore_time (v : Nat) (f : VCore → VCore) : (s.updVcore v f).time = s.time := rfl
@[simp] theorem updVcore_polled (v : Nat) (f : VCore → VCore) : (s.updVcore v f).polled = s.polled := rfl
@[simp] theorem updVcore_turn (v : Nat) (f : VCore → VCore) : (s.updVcore v f).turn = s.turn := rfl
@[simp] theorem updVcore_cur (v : Nat) (f : VCore → VCore) : (s.updVcore v f).cur = s.cur := rfl
@[simp] theorem updVcore_cores (v : Nat) (f : VCore → VCore) : (s.updVcore v f).cores = s.cores := rfl
@[simp] theorem updVcore_clusters (v : Nat) (f : VCore → VCore) : (s.updVcore v f).clusters = s.clusters := rfl
@[simp] theorem updVcore_dies (v : Nat) (f : VCore → VCore) : (s.updVcore v f).dies = s.dies := rfl
@[simp] theorem updVcore_homes (v : Nat) (f : VCore → VCore) : (s.updVcore v f).homes = s.homes := rfl
@[simp] theorem updVcore_mem (v : Nat) (f : VCore → VCore) : (s.updVcore v f).mem = s.mem := rfl
@[simp] theorem updVcore_poison (v : Nat) (f : VCore → VCore) : (s.updVcore v f).poison = s.poison := rfl
@[simp] theorem updVcore_checks (v : Nat) (f : VCore → VCore) : (s.updVcore v f).checks = s.checks := rfl
@[simp] theorem updVcore_stage2 (v : Nat) (f : VCore → VCore) : (s.updVcore v f).stage2 = s.stage2 := rfl
@[simp] theorem updVcore_part (v : Nat) (f : VCore → VCore) : (s.updVcore v f).part = s.part := rfl
@[simp] theorem updVcore_tables (v : Nat) (f : VCore → VCore) : (s.updVcore v f).tables = s.tables := rfl
@[simp] theorem updVcore_firmware (v : Nat) (f : VCore → VCore) : (s.updVcore v f).firmware = s.firmware := rfl
@[simp] theorem updVcore_linkKeys (v : Nat) (f : VCore → VCore) : (s.updVcore v f).linkKeys = s.linkKeys := rfl
@[simp] theorem updVcore_queueParts (v : Nat) (f : VCore → VCore) : (s.updVcore v f).queueParts = s.queueParts := rfl
@[simp] theorem updVcore_notified (v : Nat) (f : VCore → VCore) : (s.updVcore v f).notified = s.notified := rfl
@[simp] theorem updVcore_fills (v : Nat) (f : VCore → VCore) : (s.updVcore v f).fills = s.fills := rfl
@[simp] theorem updVcore_misses (v : Nat) (f : VCore → VCore) : (s.updVcore v f).misses = s.misses := rfl
@[simp] theorem updVcore_net (v : Nat) (f : VCore → VCore) : (s.updVcore v f).net = s.net := rfl
@[simp] theorem updVcore_trees (v : Nat) (f : VCore → VCore) : (s.updVcore v f).trees = s.trees := rfl
@[simp] theorem updVcore_acks (v : Nat) (f : VCore → VCore) : (s.updVcore v f).acks = s.acks := rfl
@[simp] theorem updVcore_exchanges (v : Nat) (f : VCore → VCore) : (s.updVcore v f).exchanges = s.exchanges := rfl
@[simp] theorem updVcore_instant (v : Nat) (f : VCore → VCore) : (s.updVcore v f).instant = s.instant := rfl
@[simp] theorem updVcore_instants (v : Nat) (f : VCore → VCore) : (s.updVcore v f).instants = s.instants := rfl
@[simp] theorem updVcore_boot (v : Nat) (f : VCore → VCore) : (s.updVcore v f).boot = s.boot := rfl
@[simp] theorem updVcore_queues (v : Nat) (f : VCore → VCore) : (s.updVcore v f).queues = s.queues := rfl
@[simp] theorem updVcore_signed (v : Nat) (f : VCore → VCore) : (s.updVcore v f).signed = s.signed := rfl
@[simp] theorem updVcore_pkg (v : Nat) (f : VCore → VCore) : (s.updVcore v f).pkg = s.pkg := rfl
@[simp] theorem updVcore_inputs (v : Nat) (f : VCore → VCore) : (s.updVcore v f).inputs = s.inputs := rfl
@[simp] theorem updVcore_tick (v : Nat) (f : VCore → VCore) : (s.updVcore v f).tick = s.tick := rfl
@[simp] theorem updVcore_fresh (v : Nat) (f : VCore → VCore) : (s.updVcore v f).fresh = s.fresh := rfl
@[simp] theorem updVcore_core (v : Nat) (f : VCore → VCore) (i : Nat) : (s.updVcore v f).core i = s.core i := rfl
@[simp] theorem updVcore_cluster (v : Nat) (f : VCore → VCore) (i : Nat) : (s.updVcore v f).cluster i = s.cluster i := rfl
@[simp] theorem updVcore_die (v : Nat) (f : VCore → VCore) (i : Nat) : (s.updVcore v f).die i = s.die i := rfl
@[simp] theorem updVcore_home (v : Nat) (f : VCore → VCore) (i : Nat) : (s.updVcore v f).home i = s.home i := rfl
@[simp] theorem updVcore_tree (v : Nat) (f : VCore → VCore) (i : Nat) : (s.updVcore v f).tree i = s.tree i := rfl
@[simp] theorem updVcore_queue (v : Nat) (f : VCore → VCore) (i : Nat) : (s.updVcore v f).queue i = s.queue i := rfl

/-! `updHome` changes `homes` only. -/

@[simp] theorem updHome_time (h : Nat) (f : Home → Home) : (s.updHome h f).time = s.time := rfl
@[simp] theorem updHome_polled (h : Nat) (f : Home → Home) : (s.updHome h f).polled = s.polled := rfl
@[simp] theorem updHome_turn (h : Nat) (f : Home → Home) : (s.updHome h f).turn = s.turn := rfl
@[simp] theorem updHome_cur (h : Nat) (f : Home → Home) : (s.updHome h f).cur = s.cur := rfl
@[simp] theorem updHome_cores (h : Nat) (f : Home → Home) : (s.updHome h f).cores = s.cores := rfl
@[simp] theorem updHome_clusters (h : Nat) (f : Home → Home) : (s.updHome h f).clusters = s.clusters := rfl
@[simp] theorem updHome_dies (h : Nat) (f : Home → Home) : (s.updHome h f).dies = s.dies := rfl
@[simp] theorem updHome_vcores (h : Nat) (f : Home → Home) : (s.updHome h f).vcores = s.vcores := rfl
@[simp] theorem updHome_mem (h : Nat) (f : Home → Home) : (s.updHome h f).mem = s.mem := rfl
@[simp] theorem updHome_poison (h : Nat) (f : Home → Home) : (s.updHome h f).poison = s.poison := rfl
@[simp] theorem updHome_checks (h : Nat) (f : Home → Home) : (s.updHome h f).checks = s.checks := rfl
@[simp] theorem updHome_stage2 (h : Nat) (f : Home → Home) : (s.updHome h f).stage2 = s.stage2 := rfl
@[simp] theorem updHome_part (h : Nat) (f : Home → Home) : (s.updHome h f).part = s.part := rfl
@[simp] theorem updHome_tables (h : Nat) (f : Home → Home) : (s.updHome h f).tables = s.tables := rfl
@[simp] theorem updHome_firmware (h : Nat) (f : Home → Home) : (s.updHome h f).firmware = s.firmware := rfl
@[simp] theorem updHome_linkKeys (h : Nat) (f : Home → Home) : (s.updHome h f).linkKeys = s.linkKeys := rfl
@[simp] theorem updHome_queueParts (h : Nat) (f : Home → Home) : (s.updHome h f).queueParts = s.queueParts := rfl
@[simp] theorem updHome_notified (h : Nat) (f : Home → Home) : (s.updHome h f).notified = s.notified := rfl
@[simp] theorem updHome_fills (h : Nat) (f : Home → Home) : (s.updHome h f).fills = s.fills := rfl
@[simp] theorem updHome_misses (h : Nat) (f : Home → Home) : (s.updHome h f).misses = s.misses := rfl
@[simp] theorem updHome_net (h : Nat) (f : Home → Home) : (s.updHome h f).net = s.net := rfl
@[simp] theorem updHome_trees (h : Nat) (f : Home → Home) : (s.updHome h f).trees = s.trees := rfl
@[simp] theorem updHome_acks (h : Nat) (f : Home → Home) : (s.updHome h f).acks = s.acks := rfl
@[simp] theorem updHome_exchanges (h : Nat) (f : Home → Home) : (s.updHome h f).exchanges = s.exchanges := rfl
@[simp] theorem updHome_instant (h : Nat) (f : Home → Home) : (s.updHome h f).instant = s.instant := rfl
@[simp] theorem updHome_instants (h : Nat) (f : Home → Home) : (s.updHome h f).instants = s.instants := rfl
@[simp] theorem updHome_boot (h : Nat) (f : Home → Home) : (s.updHome h f).boot = s.boot := rfl
@[simp] theorem updHome_queues (h : Nat) (f : Home → Home) : (s.updHome h f).queues = s.queues := rfl
@[simp] theorem updHome_signed (h : Nat) (f : Home → Home) : (s.updHome h f).signed = s.signed := rfl
@[simp] theorem updHome_pkg (h : Nat) (f : Home → Home) : (s.updHome h f).pkg = s.pkg := rfl
@[simp] theorem updHome_inputs (h : Nat) (f : Home → Home) : (s.updHome h f).inputs = s.inputs := rfl
@[simp] theorem updHome_tick (h : Nat) (f : Home → Home) : (s.updHome h f).tick = s.tick := rfl
@[simp] theorem updHome_fresh (h : Nat) (f : Home → Home) : (s.updHome h f).fresh = s.fresh := rfl
@[simp] theorem updHome_core (h : Nat) (f : Home → Home) (i : Nat) : (s.updHome h f).core i = s.core i := rfl
@[simp] theorem updHome_cluster (h : Nat) (f : Home → Home) (i : Nat) : (s.updHome h f).cluster i = s.cluster i := rfl
@[simp] theorem updHome_die (h : Nat) (f : Home → Home) (i : Nat) : (s.updHome h f).die i = s.die i := rfl
@[simp] theorem updHome_vcore (h : Nat) (f : Home → Home) (i : Nat) : (s.updHome h f).vcore i = s.vcore i := rfl
@[simp] theorem updHome_tree (h : Nat) (f : Home → Home) (i : Nat) : (s.updHome h f).tree i = s.tree i := rfl
@[simp] theorem updHome_queue (h : Nat) (f : Home → Home) (i : Nat) : (s.updHome h f).queue i = s.queue i := rfl

/-! `updTree` changes `trees` only. -/

@[simp] theorem updTree_time (g : Nat) (f : Tree → Tree) : (s.updTree g f).time = s.time := rfl
@[simp] theorem updTree_polled (g : Nat) (f : Tree → Tree) : (s.updTree g f).polled = s.polled := rfl
@[simp] theorem updTree_turn (g : Nat) (f : Tree → Tree) : (s.updTree g f).turn = s.turn := rfl
@[simp] theorem updTree_cur (g : Nat) (f : Tree → Tree) : (s.updTree g f).cur = s.cur := rfl
@[simp] theorem updTree_cores (g : Nat) (f : Tree → Tree) : (s.updTree g f).cores = s.cores := rfl
@[simp] theorem updTree_clusters (g : Nat) (f : Tree → Tree) : (s.updTree g f).clusters = s.clusters := rfl
@[simp] theorem updTree_dies (g : Nat) (f : Tree → Tree) : (s.updTree g f).dies = s.dies := rfl
@[simp] theorem updTree_vcores (g : Nat) (f : Tree → Tree) : (s.updTree g f).vcores = s.vcores := rfl
@[simp] theorem updTree_homes (g : Nat) (f : Tree → Tree) : (s.updTree g f).homes = s.homes := rfl
@[simp] theorem updTree_mem (g : Nat) (f : Tree → Tree) : (s.updTree g f).mem = s.mem := rfl
@[simp] theorem updTree_poison (g : Nat) (f : Tree → Tree) : (s.updTree g f).poison = s.poison := rfl
@[simp] theorem updTree_checks (g : Nat) (f : Tree → Tree) : (s.updTree g f).checks = s.checks := rfl
@[simp] theorem updTree_stage2 (g : Nat) (f : Tree → Tree) : (s.updTree g f).stage2 = s.stage2 := rfl
@[simp] theorem updTree_part (g : Nat) (f : Tree → Tree) : (s.updTree g f).part = s.part := rfl
@[simp] theorem updTree_tables (g : Nat) (f : Tree → Tree) : (s.updTree g f).tables = s.tables := rfl
@[simp] theorem updTree_firmware (g : Nat) (f : Tree → Tree) : (s.updTree g f).firmware = s.firmware := rfl
@[simp] theorem updTree_linkKeys (g : Nat) (f : Tree → Tree) : (s.updTree g f).linkKeys = s.linkKeys := rfl
@[simp] theorem updTree_queueParts (g : Nat) (f : Tree → Tree) : (s.updTree g f).queueParts = s.queueParts := rfl
@[simp] theorem updTree_notified (g : Nat) (f : Tree → Tree) : (s.updTree g f).notified = s.notified := rfl
@[simp] theorem updTree_fills (g : Nat) (f : Tree → Tree) : (s.updTree g f).fills = s.fills := rfl
@[simp] theorem updTree_misses (g : Nat) (f : Tree → Tree) : (s.updTree g f).misses = s.misses := rfl
@[simp] theorem updTree_net (g : Nat) (f : Tree → Tree) : (s.updTree g f).net = s.net := rfl
@[simp] theorem updTree_acks (g : Nat) (f : Tree → Tree) : (s.updTree g f).acks = s.acks := rfl
@[simp] theorem updTree_exchanges (g : Nat) (f : Tree → Tree) : (s.updTree g f).exchanges = s.exchanges := rfl
@[simp] theorem updTree_instant (g : Nat) (f : Tree → Tree) : (s.updTree g f).instant = s.instant := rfl
@[simp] theorem updTree_instants (g : Nat) (f : Tree → Tree) : (s.updTree g f).instants = s.instants := rfl
@[simp] theorem updTree_boot (g : Nat) (f : Tree → Tree) : (s.updTree g f).boot = s.boot := rfl
@[simp] theorem updTree_queues (g : Nat) (f : Tree → Tree) : (s.updTree g f).queues = s.queues := rfl
@[simp] theorem updTree_signed (g : Nat) (f : Tree → Tree) : (s.updTree g f).signed = s.signed := rfl
@[simp] theorem updTree_pkg (g : Nat) (f : Tree → Tree) : (s.updTree g f).pkg = s.pkg := rfl
@[simp] theorem updTree_inputs (g : Nat) (f : Tree → Tree) : (s.updTree g f).inputs = s.inputs := rfl
@[simp] theorem updTree_tick (g : Nat) (f : Tree → Tree) : (s.updTree g f).tick = s.tick := rfl
@[simp] theorem updTree_fresh (g : Nat) (f : Tree → Tree) : (s.updTree g f).fresh = s.fresh := rfl
@[simp] theorem updTree_core (g : Nat) (f : Tree → Tree) (i : Nat) : (s.updTree g f).core i = s.core i := rfl
@[simp] theorem updTree_cluster (g : Nat) (f : Tree → Tree) (i : Nat) : (s.updTree g f).cluster i = s.cluster i := rfl
@[simp] theorem updTree_die (g : Nat) (f : Tree → Tree) (i : Nat) : (s.updTree g f).die i = s.die i := rfl
@[simp] theorem updTree_vcore (g : Nat) (f : Tree → Tree) (i : Nat) : (s.updTree g f).vcore i = s.vcore i := rfl
@[simp] theorem updTree_home (g : Nat) (f : Tree → Tree) (i : Nat) : (s.updTree g f).home i = s.home i := rfl
@[simp] theorem updTree_queue (g : Nat) (f : Tree → Tree) (i : Nat) : (s.updTree g f).queue i = s.queue i := rfl

/-! `updQueue` changes `queues` only. -/

@[simp] theorem updQueue_time (q : Nat) (f : HQueue → HQueue) : (s.updQueue q f).time = s.time := rfl
@[simp] theorem updQueue_polled (q : Nat) (f : HQueue → HQueue) : (s.updQueue q f).polled = s.polled := rfl
@[simp] theorem updQueue_turn (q : Nat) (f : HQueue → HQueue) : (s.updQueue q f).turn = s.turn := rfl
@[simp] theorem updQueue_cur (q : Nat) (f : HQueue → HQueue) : (s.updQueue q f).cur = s.cur := rfl
@[simp] theorem updQueue_cores (q : Nat) (f : HQueue → HQueue) : (s.updQueue q f).cores = s.cores := rfl
@[simp] theorem updQueue_clusters (q : Nat) (f : HQueue → HQueue) : (s.updQueue q f).clusters = s.clusters := rfl
@[simp] theorem updQueue_dies (q : Nat) (f : HQueue → HQueue) : (s.updQueue q f).dies = s.dies := rfl
@[simp] theorem updQueue_vcores (q : Nat) (f : HQueue → HQueue) : (s.updQueue q f).vcores = s.vcores := rfl
@[simp] theorem updQueue_homes (q : Nat) (f : HQueue → HQueue) : (s.updQueue q f).homes = s.homes := rfl
@[simp] theorem updQueue_mem (q : Nat) (f : HQueue → HQueue) : (s.updQueue q f).mem = s.mem := rfl
@[simp] theorem updQueue_poison (q : Nat) (f : HQueue → HQueue) : (s.updQueue q f).poison = s.poison := rfl
@[simp] theorem updQueue_checks (q : Nat) (f : HQueue → HQueue) : (s.updQueue q f).checks = s.checks := rfl
@[simp] theorem updQueue_stage2 (q : Nat) (f : HQueue → HQueue) : (s.updQueue q f).stage2 = s.stage2 := rfl
@[simp] theorem updQueue_part (q : Nat) (f : HQueue → HQueue) : (s.updQueue q f).part = s.part := rfl
@[simp] theorem updQueue_tables (q : Nat) (f : HQueue → HQueue) : (s.updQueue q f).tables = s.tables := rfl
@[simp] theorem updQueue_firmware (q : Nat) (f : HQueue → HQueue) : (s.updQueue q f).firmware = s.firmware := rfl
@[simp] theorem updQueue_linkKeys (q : Nat) (f : HQueue → HQueue) : (s.updQueue q f).linkKeys = s.linkKeys := rfl
@[simp] theorem updQueue_queueParts (q : Nat) (f : HQueue → HQueue) : (s.updQueue q f).queueParts = s.queueParts := rfl
@[simp] theorem updQueue_notified (q : Nat) (f : HQueue → HQueue) : (s.updQueue q f).notified = s.notified := rfl
@[simp] theorem updQueue_fills (q : Nat) (f : HQueue → HQueue) : (s.updQueue q f).fills = s.fills := rfl
@[simp] theorem updQueue_misses (q : Nat) (f : HQueue → HQueue) : (s.updQueue q f).misses = s.misses := rfl
@[simp] theorem updQueue_net (q : Nat) (f : HQueue → HQueue) : (s.updQueue q f).net = s.net := rfl
@[simp] theorem updQueue_trees (q : Nat) (f : HQueue → HQueue) : (s.updQueue q f).trees = s.trees := rfl
@[simp] theorem updQueue_acks (q : Nat) (f : HQueue → HQueue) : (s.updQueue q f).acks = s.acks := rfl
@[simp] theorem updQueue_exchanges (q : Nat) (f : HQueue → HQueue) : (s.updQueue q f).exchanges = s.exchanges := rfl
@[simp] theorem updQueue_instant (q : Nat) (f : HQueue → HQueue) : (s.updQueue q f).instant = s.instant := rfl
@[simp] theorem updQueue_instants (q : Nat) (f : HQueue → HQueue) : (s.updQueue q f).instants = s.instants := rfl
@[simp] theorem updQueue_boot (q : Nat) (f : HQueue → HQueue) : (s.updQueue q f).boot = s.boot := rfl
@[simp] theorem updQueue_signed (q : Nat) (f : HQueue → HQueue) : (s.updQueue q f).signed = s.signed := rfl
@[simp] theorem updQueue_pkg (q : Nat) (f : HQueue → HQueue) : (s.updQueue q f).pkg = s.pkg := rfl
@[simp] theorem updQueue_inputs (q : Nat) (f : HQueue → HQueue) : (s.updQueue q f).inputs = s.inputs := rfl
@[simp] theorem updQueue_tick (q : Nat) (f : HQueue → HQueue) : (s.updQueue q f).tick = s.tick := rfl
@[simp] theorem updQueue_fresh (q : Nat) (f : HQueue → HQueue) : (s.updQueue q f).fresh = s.fresh := rfl
@[simp] theorem updQueue_core (q : Nat) (f : HQueue → HQueue) (i : Nat) : (s.updQueue q f).core i = s.core i := rfl
@[simp] theorem updQueue_cluster (q : Nat) (f : HQueue → HQueue) (i : Nat) : (s.updQueue q f).cluster i = s.cluster i := rfl
@[simp] theorem updQueue_die (q : Nat) (f : HQueue → HQueue) (i : Nat) : (s.updQueue q f).die i = s.die i := rfl
@[simp] theorem updQueue_vcore (q : Nat) (f : HQueue → HQueue) (i : Nat) : (s.updQueue q f).vcore i = s.vcore i := rfl
@[simp] theorem updQueue_home (q : Nat) (f : HQueue → HQueue) (i : Nat) : (s.updQueue q f).home i = s.home i := rfl
@[simp] theorem updQueue_tree (q : Nat) (f : HQueue → HQueue) (i : Nat) : (s.updQueue q f).tree i = s.tree i := rfl

/-! `updPart` changes `part` only. -/

@[simp] theorem updPart_time (f : Part → Part) : (s.updPart f).time = s.time := rfl
@[simp] theorem updPart_polled (f : Part → Part) : (s.updPart f).polled = s.polled := rfl
@[simp] theorem updPart_turn (f : Part → Part) : (s.updPart f).turn = s.turn := rfl
@[simp] theorem updPart_cur (f : Part → Part) : (s.updPart f).cur = s.cur := rfl
@[simp] theorem updPart_cores (f : Part → Part) : (s.updPart f).cores = s.cores := rfl
@[simp] theorem updPart_clusters (f : Part → Part) : (s.updPart f).clusters = s.clusters := rfl
@[simp] theorem updPart_dies (f : Part → Part) : (s.updPart f).dies = s.dies := rfl
@[simp] theorem updPart_vcores (f : Part → Part) : (s.updPart f).vcores = s.vcores := rfl
@[simp] theorem updPart_homes (f : Part → Part) : (s.updPart f).homes = s.homes := rfl
@[simp] theorem updPart_mem (f : Part → Part) : (s.updPart f).mem = s.mem := rfl
@[simp] theorem updPart_poison (f : Part → Part) : (s.updPart f).poison = s.poison := rfl
@[simp] theorem updPart_checks (f : Part → Part) : (s.updPart f).checks = s.checks := rfl
@[simp] theorem updPart_stage2 (f : Part → Part) : (s.updPart f).stage2 = s.stage2 := rfl
@[simp] theorem updPart_tables (f : Part → Part) : (s.updPart f).tables = s.tables := rfl
@[simp] theorem updPart_firmware (f : Part → Part) : (s.updPart f).firmware = s.firmware := rfl
@[simp] theorem updPart_linkKeys (f : Part → Part) : (s.updPart f).linkKeys = s.linkKeys := rfl
@[simp] theorem updPart_queueParts (f : Part → Part) : (s.updPart f).queueParts = s.queueParts := rfl
@[simp] theorem updPart_notified (f : Part → Part) : (s.updPart f).notified = s.notified := rfl
@[simp] theorem updPart_fills (f : Part → Part) : (s.updPart f).fills = s.fills := rfl
@[simp] theorem updPart_misses (f : Part → Part) : (s.updPart f).misses = s.misses := rfl
@[simp] theorem updPart_net (f : Part → Part) : (s.updPart f).net = s.net := rfl
@[simp] theorem updPart_trees (f : Part → Part) : (s.updPart f).trees = s.trees := rfl
@[simp] theorem updPart_acks (f : Part → Part) : (s.updPart f).acks = s.acks := rfl
@[simp] theorem updPart_exchanges (f : Part → Part) : (s.updPart f).exchanges = s.exchanges := rfl
@[simp] theorem updPart_instant (f : Part → Part) : (s.updPart f).instant = s.instant := rfl
@[simp] theorem updPart_instants (f : Part → Part) : (s.updPart f).instants = s.instants := rfl
@[simp] theorem updPart_boot (f : Part → Part) : (s.updPart f).boot = s.boot := rfl
@[simp] theorem updPart_queues (f : Part → Part) : (s.updPart f).queues = s.queues := rfl
@[simp] theorem updPart_signed (f : Part → Part) : (s.updPart f).signed = s.signed := rfl
@[simp] theorem updPart_pkg (f : Part → Part) : (s.updPart f).pkg = s.pkg := rfl
@[simp] theorem updPart_inputs (f : Part → Part) : (s.updPart f).inputs = s.inputs := rfl
@[simp] theorem updPart_tick (f : Part → Part) : (s.updPart f).tick = s.tick := rfl
@[simp] theorem updPart_fresh (f : Part → Part) : (s.updPart f).fresh = s.fresh := rfl
@[simp] theorem updPart_core (f : Part → Part) (i : Nat) : (s.updPart f).core i = s.core i := rfl
@[simp] theorem updPart_cluster (f : Part → Part) (i : Nat) : (s.updPart f).cluster i = s.cluster i := rfl
@[simp] theorem updPart_die (f : Part → Part) (i : Nat) : (s.updPart f).die i = s.die i := rfl
@[simp] theorem updPart_vcore (f : Part → Part) (i : Nat) : (s.updPart f).vcore i = s.vcore i := rfl
@[simp] theorem updPart_home (f : Part → Part) (i : Nat) : (s.updPart f).home i = s.home i := rfl
@[simp] theorem updPart_tree (f : Part → Part) (i : Nat) : (s.updPart f).tree i = s.tree i := rfl
@[simp] theorem updPart_queue (f : Part → Part) (i : Nat) : (s.updPart f).queue i = s.queue i := rfl

/-! `setSlot` changes `cores` only. -/

@[simp] theorem setSlot_time (p : Nat) (j : Fin 16) (x : Slot) : (s.setSlot p j x).time = s.time := rfl
@[simp] theorem setSlot_polled (p : Nat) (j : Fin 16) (x : Slot) : (s.setSlot p j x).polled = s.polled := rfl
@[simp] theorem setSlot_turn (p : Nat) (j : Fin 16) (x : Slot) : (s.setSlot p j x).turn = s.turn := rfl
@[simp] theorem setSlot_cur (p : Nat) (j : Fin 16) (x : Slot) : (s.setSlot p j x).cur = s.cur := rfl
@[simp] theorem setSlot_clusters (p : Nat) (j : Fin 16) (x : Slot) : (s.setSlot p j x).clusters = s.clusters := rfl
@[simp] theorem setSlot_dies (p : Nat) (j : Fin 16) (x : Slot) : (s.setSlot p j x).dies = s.dies := rfl
@[simp] theorem setSlot_vcores (p : Nat) (j : Fin 16) (x : Slot) : (s.setSlot p j x).vcores = s.vcores := rfl
@[simp] theorem setSlot_homes (p : Nat) (j : Fin 16) (x : Slot) : (s.setSlot p j x).homes = s.homes := rfl
@[simp] theorem setSlot_mem (p : Nat) (j : Fin 16) (x : Slot) : (s.setSlot p j x).mem = s.mem := rfl
@[simp] theorem setSlot_poison (p : Nat) (j : Fin 16) (x : Slot) : (s.setSlot p j x).poison = s.poison := rfl
@[simp] theorem setSlot_checks (p : Nat) (j : Fin 16) (x : Slot) : (s.setSlot p j x).checks = s.checks := rfl
@[simp] theorem setSlot_stage2 (p : Nat) (j : Fin 16) (x : Slot) : (s.setSlot p j x).stage2 = s.stage2 := rfl
@[simp] theorem setSlot_part (p : Nat) (j : Fin 16) (x : Slot) : (s.setSlot p j x).part = s.part := rfl
@[simp] theorem setSlot_tables (p : Nat) (j : Fin 16) (x : Slot) : (s.setSlot p j x).tables = s.tables := rfl
@[simp] theorem setSlot_firmware (p : Nat) (j : Fin 16) (x : Slot) : (s.setSlot p j x).firmware = s.firmware := rfl
@[simp] theorem setSlot_linkKeys (p : Nat) (j : Fin 16) (x : Slot) : (s.setSlot p j x).linkKeys = s.linkKeys := rfl
@[simp] theorem setSlot_queueParts (p : Nat) (j : Fin 16) (x : Slot) : (s.setSlot p j x).queueParts = s.queueParts := rfl
@[simp] theorem setSlot_notified (p : Nat) (j : Fin 16) (x : Slot) : (s.setSlot p j x).notified = s.notified := rfl
@[simp] theorem setSlot_fills (p : Nat) (j : Fin 16) (x : Slot) : (s.setSlot p j x).fills = s.fills := rfl
@[simp] theorem setSlot_misses (p : Nat) (j : Fin 16) (x : Slot) : (s.setSlot p j x).misses = s.misses := rfl
@[simp] theorem setSlot_net (p : Nat) (j : Fin 16) (x : Slot) : (s.setSlot p j x).net = s.net := rfl
@[simp] theorem setSlot_trees (p : Nat) (j : Fin 16) (x : Slot) : (s.setSlot p j x).trees = s.trees := rfl
@[simp] theorem setSlot_acks (p : Nat) (j : Fin 16) (x : Slot) : (s.setSlot p j x).acks = s.acks := rfl
@[simp] theorem setSlot_exchanges (p : Nat) (j : Fin 16) (x : Slot) : (s.setSlot p j x).exchanges = s.exchanges := rfl
@[simp] theorem setSlot_instant (p : Nat) (j : Fin 16) (x : Slot) : (s.setSlot p j x).instant = s.instant := rfl
@[simp] theorem setSlot_instants (p : Nat) (j : Fin 16) (x : Slot) : (s.setSlot p j x).instants = s.instants := rfl
@[simp] theorem setSlot_boot (p : Nat) (j : Fin 16) (x : Slot) : (s.setSlot p j x).boot = s.boot := rfl
@[simp] theorem setSlot_queues (p : Nat) (j : Fin 16) (x : Slot) : (s.setSlot p j x).queues = s.queues := rfl
@[simp] theorem setSlot_signed (p : Nat) (j : Fin 16) (x : Slot) : (s.setSlot p j x).signed = s.signed := rfl
@[simp] theorem setSlot_pkg (p : Nat) (j : Fin 16) (x : Slot) : (s.setSlot p j x).pkg = s.pkg := rfl
@[simp] theorem setSlot_inputs (p : Nat) (j : Fin 16) (x : Slot) : (s.setSlot p j x).inputs = s.inputs := rfl
@[simp] theorem setSlot_tick (p : Nat) (j : Fin 16) (x : Slot) : (s.setSlot p j x).tick = s.tick := rfl
@[simp] theorem setSlot_fresh (p : Nat) (j : Fin 16) (x : Slot) : (s.setSlot p j x).fresh = s.fresh := rfl
@[simp] theorem setSlot_cluster (p : Nat) (j : Fin 16) (x : Slot) (i : Nat) : (s.setSlot p j x).cluster i = s.cluster i := rfl
@[simp] theorem setSlot_die (p : Nat) (j : Fin 16) (x : Slot) (i : Nat) : (s.setSlot p j x).die i = s.die i := rfl
@[simp] theorem setSlot_vcore (p : Nat) (j : Fin 16) (x : Slot) (i : Nat) : (s.setSlot p j x).vcore i = s.vcore i := rfl
@[simp] theorem setSlot_home (p : Nat) (j : Fin 16) (x : Slot) (i : Nat) : (s.setSlot p j x).home i = s.home i := rfl
@[simp] theorem setSlot_tree (p : Nat) (j : Fin 16) (x : Slot) (i : Nat) : (s.setSlot p j x).tree i = s.tree i := rfl
@[simp] theorem setSlot_queue (p : Nat) (j : Fin 16) (x : Slot) (i : Nat) : (s.setSlot p j x).queue i = s.queue i := rfl

/-! `updSlot` changes `cores` only. -/

@[simp] theorem updSlot_time (p : Nat) (j : Fin 16) (f : Slot → Slot) : (s.updSlot p j f).time = s.time := rfl
@[simp] theorem updSlot_polled (p : Nat) (j : Fin 16) (f : Slot → Slot) : (s.updSlot p j f).polled = s.polled := rfl
@[simp] theorem updSlot_turn (p : Nat) (j : Fin 16) (f : Slot → Slot) : (s.updSlot p j f).turn = s.turn := rfl
@[simp] theorem updSlot_cur (p : Nat) (j : Fin 16) (f : Slot → Slot) : (s.updSlot p j f).cur = s.cur := rfl
@[simp] theorem updSlot_clusters (p : Nat) (j : Fin 16) (f : Slot → Slot) : (s.updSlot p j f).clusters = s.clusters := rfl
@[simp] theorem updSlot_dies (p : Nat) (j : Fin 16) (f : Slot → Slot) : (s.updSlot p j f).dies = s.dies := rfl
@[simp] theorem updSlot_vcores (p : Nat) (j : Fin 16) (f : Slot → Slot) : (s.updSlot p j f).vcores = s.vcores := rfl
@[simp] theorem updSlot_homes (p : Nat) (j : Fin 16) (f : Slot → Slot) : (s.updSlot p j f).homes = s.homes := rfl
@[simp] theorem updSlot_mem (p : Nat) (j : Fin 16) (f : Slot → Slot) : (s.updSlot p j f).mem = s.mem := rfl
@[simp] theorem updSlot_poison (p : Nat) (j : Fin 16) (f : Slot → Slot) : (s.updSlot p j f).poison = s.poison := rfl
@[simp] theorem updSlot_checks (p : Nat) (j : Fin 16) (f : Slot → Slot) : (s.updSlot p j f).checks = s.checks := rfl
@[simp] theorem updSlot_stage2 (p : Nat) (j : Fin 16) (f : Slot → Slot) : (s.updSlot p j f).stage2 = s.stage2 := rfl
@[simp] theorem updSlot_part (p : Nat) (j : Fin 16) (f : Slot → Slot) : (s.updSlot p j f).part = s.part := rfl
@[simp] theorem updSlot_tables (p : Nat) (j : Fin 16) (f : Slot → Slot) : (s.updSlot p j f).tables = s.tables := rfl
@[simp] theorem updSlot_firmware (p : Nat) (j : Fin 16) (f : Slot → Slot) : (s.updSlot p j f).firmware = s.firmware := rfl
@[simp] theorem updSlot_linkKeys (p : Nat) (j : Fin 16) (f : Slot → Slot) : (s.updSlot p j f).linkKeys = s.linkKeys := rfl
@[simp] theorem updSlot_queueParts (p : Nat) (j : Fin 16) (f : Slot → Slot) : (s.updSlot p j f).queueParts = s.queueParts := rfl
@[simp] theorem updSlot_notified (p : Nat) (j : Fin 16) (f : Slot → Slot) : (s.updSlot p j f).notified = s.notified := rfl
@[simp] theorem updSlot_fills (p : Nat) (j : Fin 16) (f : Slot → Slot) : (s.updSlot p j f).fills = s.fills := rfl
@[simp] theorem updSlot_misses (p : Nat) (j : Fin 16) (f : Slot → Slot) : (s.updSlot p j f).misses = s.misses := rfl
@[simp] theorem updSlot_net (p : Nat) (j : Fin 16) (f : Slot → Slot) : (s.updSlot p j f).net = s.net := rfl
@[simp] theorem updSlot_trees (p : Nat) (j : Fin 16) (f : Slot → Slot) : (s.updSlot p j f).trees = s.trees := rfl
@[simp] theorem updSlot_acks (p : Nat) (j : Fin 16) (f : Slot → Slot) : (s.updSlot p j f).acks = s.acks := rfl
@[simp] theorem updSlot_exchanges (p : Nat) (j : Fin 16) (f : Slot → Slot) : (s.updSlot p j f).exchanges = s.exchanges := rfl
@[simp] theorem updSlot_instant (p : Nat) (j : Fin 16) (f : Slot → Slot) : (s.updSlot p j f).instant = s.instant := rfl
@[simp] theorem updSlot_instants (p : Nat) (j : Fin 16) (f : Slot → Slot) : (s.updSlot p j f).instants = s.instants := rfl
@[simp] theorem updSlot_boot (p : Nat) (j : Fin 16) (f : Slot → Slot) : (s.updSlot p j f).boot = s.boot := rfl
@[simp] theorem updSlot_queues (p : Nat) (j : Fin 16) (f : Slot → Slot) : (s.updSlot p j f).queues = s.queues := rfl
@[simp] theorem updSlot_signed (p : Nat) (j : Fin 16) (f : Slot → Slot) : (s.updSlot p j f).signed = s.signed := rfl
@[simp] theorem updSlot_pkg (p : Nat) (j : Fin 16) (f : Slot → Slot) : (s.updSlot p j f).pkg = s.pkg := rfl
@[simp] theorem updSlot_inputs (p : Nat) (j : Fin 16) (f : Slot → Slot) : (s.updSlot p j f).inputs = s.inputs := rfl
@[simp] theorem updSlot_tick (p : Nat) (j : Fin 16) (f : Slot → Slot) : (s.updSlot p j f).tick = s.tick := rfl
@[simp] theorem updSlot_fresh (p : Nat) (j : Fin 16) (f : Slot → Slot) : (s.updSlot p j f).fresh = s.fresh := rfl
@[simp] theorem updSlot_cluster (p : Nat) (j : Fin 16) (f : Slot → Slot) (i : Nat) : (s.updSlot p j f).cluster i = s.cluster i := rfl
@[simp] theorem updSlot_die (p : Nat) (j : Fin 16) (f : Slot → Slot) (i : Nat) : (s.updSlot p j f).die i = s.die i := rfl
@[simp] theorem updSlot_vcore (p : Nat) (j : Fin 16) (f : Slot → Slot) (i : Nat) : (s.updSlot p j f).vcore i = s.vcore i := rfl
@[simp] theorem updSlot_home (p : Nat) (j : Fin 16) (f : Slot → Slot) (i : Nat) : (s.updSlot p j f).home i = s.home i := rfl
@[simp] theorem updSlot_tree (p : Nat) (j : Fin 16) (f : Slot → Slot) (i : Nat) : (s.updSlot p j f).tree i = s.tree i := rfl
@[simp] theorem updSlot_queue (p : Nat) (j : Fin 16) (f : Slot → Slot) (i : Nat) : (s.updSlot p j f).queue i = s.queue i := rfl

/-! `updMe` changes `cores` only. -/

@[simp] theorem updMe_time (f : Slot → Slot) : (s.updMe f).time = s.time := rfl
@[simp] theorem updMe_polled (f : Slot → Slot) : (s.updMe f).polled = s.polled := rfl
@[simp] theorem updMe_turn (f : Slot → Slot) : (s.updMe f).turn = s.turn := rfl
@[simp] theorem updMe_cur (f : Slot → Slot) : (s.updMe f).cur = s.cur := rfl
@[simp] theorem updMe_clusters (f : Slot → Slot) : (s.updMe f).clusters = s.clusters := rfl
@[simp] theorem updMe_dies (f : Slot → Slot) : (s.updMe f).dies = s.dies := rfl
@[simp] theorem updMe_vcores (f : Slot → Slot) : (s.updMe f).vcores = s.vcores := rfl
@[simp] theorem updMe_homes (f : Slot → Slot) : (s.updMe f).homes = s.homes := rfl
@[simp] theorem updMe_mem (f : Slot → Slot) : (s.updMe f).mem = s.mem := rfl
@[simp] theorem updMe_poison (f : Slot → Slot) : (s.updMe f).poison = s.poison := rfl
@[simp] theorem updMe_checks (f : Slot → Slot) : (s.updMe f).checks = s.checks := rfl
@[simp] theorem updMe_stage2 (f : Slot → Slot) : (s.updMe f).stage2 = s.stage2 := rfl
@[simp] theorem updMe_part (f : Slot → Slot) : (s.updMe f).part = s.part := rfl
@[simp] theorem updMe_tables (f : Slot → Slot) : (s.updMe f).tables = s.tables := rfl
@[simp] theorem updMe_firmware (f : Slot → Slot) : (s.updMe f).firmware = s.firmware := rfl
@[simp] theorem updMe_linkKeys (f : Slot → Slot) : (s.updMe f).linkKeys = s.linkKeys := rfl
@[simp] theorem updMe_queueParts (f : Slot → Slot) : (s.updMe f).queueParts = s.queueParts := rfl
@[simp] theorem updMe_notified (f : Slot → Slot) : (s.updMe f).notified = s.notified := rfl
@[simp] theorem updMe_fills (f : Slot → Slot) : (s.updMe f).fills = s.fills := rfl
@[simp] theorem updMe_misses (f : Slot → Slot) : (s.updMe f).misses = s.misses := rfl
@[simp] theorem updMe_net (f : Slot → Slot) : (s.updMe f).net = s.net := rfl
@[simp] theorem updMe_trees (f : Slot → Slot) : (s.updMe f).trees = s.trees := rfl
@[simp] theorem updMe_acks (f : Slot → Slot) : (s.updMe f).acks = s.acks := rfl
@[simp] theorem updMe_exchanges (f : Slot → Slot) : (s.updMe f).exchanges = s.exchanges := rfl
@[simp] theorem updMe_instant (f : Slot → Slot) : (s.updMe f).instant = s.instant := rfl
@[simp] theorem updMe_instants (f : Slot → Slot) : (s.updMe f).instants = s.instants := rfl
@[simp] theorem updMe_boot (f : Slot → Slot) : (s.updMe f).boot = s.boot := rfl
@[simp] theorem updMe_queues (f : Slot → Slot) : (s.updMe f).queues = s.queues := rfl
@[simp] theorem updMe_signed (f : Slot → Slot) : (s.updMe f).signed = s.signed := rfl
@[simp] theorem updMe_pkg (f : Slot → Slot) : (s.updMe f).pkg = s.pkg := rfl
@[simp] theorem updMe_inputs (f : Slot → Slot) : (s.updMe f).inputs = s.inputs := rfl
@[simp] theorem updMe_tick (f : Slot → Slot) : (s.updMe f).tick = s.tick := rfl
@[simp] theorem updMe_fresh (f : Slot → Slot) : (s.updMe f).fresh = s.fresh := rfl
@[simp] theorem updMe_cluster (f : Slot → Slot) (i : Nat) : (s.updMe f).cluster i = s.cluster i := rfl
@[simp] theorem updMe_die (f : Slot → Slot) (i : Nat) : (s.updMe f).die i = s.die i := rfl
@[simp] theorem updMe_vcore (f : Slot → Slot) (i : Nat) : (s.updMe f).vcore i = s.vcore i := rfl
@[simp] theorem updMe_home (f : Slot → Slot) (i : Nat) : (s.updMe f).home i = s.home i := rfl
@[simp] theorem updMe_tree (f : Slot → Slot) (i : Nat) : (s.updMe f).tree i = s.tree i := rfl
@[simp] theorem updMe_queue (f : Slot → Slot) (i : Nat) : (s.updMe f).queue i = s.queue i := rfl

/-! `updRegs` changes `cores` only. -/

@[simp] theorem updRegs_time (f : Regs → Regs) : (s.updRegs f).time = s.time := rfl
@[simp] theorem updRegs_polled (f : Regs → Regs) : (s.updRegs f).polled = s.polled := rfl
@[simp] theorem updRegs_turn (f : Regs → Regs) : (s.updRegs f).turn = s.turn := rfl
@[simp] theorem updRegs_cur (f : Regs → Regs) : (s.updRegs f).cur = s.cur := rfl
@[simp] theorem updRegs_clusters (f : Regs → Regs) : (s.updRegs f).clusters = s.clusters := rfl
@[simp] theorem updRegs_dies (f : Regs → Regs) : (s.updRegs f).dies = s.dies := rfl
@[simp] theorem updRegs_vcores (f : Regs → Regs) : (s.updRegs f).vcores = s.vcores := rfl
@[simp] theorem updRegs_homes (f : Regs → Regs) : (s.updRegs f).homes = s.homes := rfl
@[simp] theorem updRegs_mem (f : Regs → Regs) : (s.updRegs f).mem = s.mem := rfl
@[simp] theorem updRegs_poison (f : Regs → Regs) : (s.updRegs f).poison = s.poison := rfl
@[simp] theorem updRegs_checks (f : Regs → Regs) : (s.updRegs f).checks = s.checks := rfl
@[simp] theorem updRegs_stage2 (f : Regs → Regs) : (s.updRegs f).stage2 = s.stage2 := rfl
@[simp] theorem updRegs_part (f : Regs → Regs) : (s.updRegs f).part = s.part := rfl
@[simp] theorem updRegs_tables (f : Regs → Regs) : (s.updRegs f).tables = s.tables := rfl
@[simp] theorem updRegs_firmware (f : Regs → Regs) : (s.updRegs f).firmware = s.firmware := rfl
@[simp] theorem updRegs_linkKeys (f : Regs → Regs) : (s.updRegs f).linkKeys = s.linkKeys := rfl
@[simp] theorem updRegs_queueParts (f : Regs → Regs) : (s.updRegs f).queueParts = s.queueParts := rfl
@[simp] theorem updRegs_notified (f : Regs → Regs) : (s.updRegs f).notified = s.notified := rfl
@[simp] theorem updRegs_fills (f : Regs → Regs) : (s.updRegs f).fills = s.fills := rfl
@[simp] theorem updRegs_misses (f : Regs → Regs) : (s.updRegs f).misses = s.misses := rfl
@[simp] theorem updRegs_net (f : Regs → Regs) : (s.updRegs f).net = s.net := rfl
@[simp] theorem updRegs_trees (f : Regs → Regs) : (s.updRegs f).trees = s.trees := rfl
@[simp] theorem updRegs_acks (f : Regs → Regs) : (s.updRegs f).acks = s.acks := rfl
@[simp] theorem updRegs_exchanges (f : Regs → Regs) : (s.updRegs f).exchanges = s.exchanges := rfl
@[simp] theorem updRegs_instant (f : Regs → Regs) : (s.updRegs f).instant = s.instant := rfl
@[simp] theorem updRegs_instants (f : Regs → Regs) : (s.updRegs f).instants = s.instants := rfl
@[simp] theorem updRegs_boot (f : Regs → Regs) : (s.updRegs f).boot = s.boot := rfl
@[simp] theorem updRegs_queues (f : Regs → Regs) : (s.updRegs f).queues = s.queues := rfl
@[simp] theorem updRegs_signed (f : Regs → Regs) : (s.updRegs f).signed = s.signed := rfl
@[simp] theorem updRegs_pkg (f : Regs → Regs) : (s.updRegs f).pkg = s.pkg := rfl
@[simp] theorem updRegs_inputs (f : Regs → Regs) : (s.updRegs f).inputs = s.inputs := rfl
@[simp] theorem updRegs_tick (f : Regs → Regs) : (s.updRegs f).tick = s.tick := rfl
@[simp] theorem updRegs_fresh (f : Regs → Regs) : (s.updRegs f).fresh = s.fresh := rfl
@[simp] theorem updRegs_cluster (f : Regs → Regs) (i : Nat) : (s.updRegs f).cluster i = s.cluster i := rfl
@[simp] theorem updRegs_die (f : Regs → Regs) (i : Nat) : (s.updRegs f).die i = s.die i := rfl
@[simp] theorem updRegs_vcore (f : Regs → Regs) (i : Nat) : (s.updRegs f).vcore i = s.vcore i := rfl
@[simp] theorem updRegs_home (f : Regs → Regs) (i : Nat) : (s.updRegs f).home i = s.home i := rfl
@[simp] theorem updRegs_tree (f : Regs → Regs) (i : Nat) : (s.updRegs f).tree i = s.tree i := rfl
@[simp] theorem updRegs_queue (f : Regs → Regs) (i : Nat) : (s.updRegs f).queue i = s.queue i := rfl

/-! `setG` changes `cores` only. -/

@[simp] theorem setG_time (r : Reg) (w : Word) : (s.setG r w).time = s.time := rfl
@[simp] theorem setG_polled (r : Reg) (w : Word) : (s.setG r w).polled = s.polled := rfl
@[simp] theorem setG_turn (r : Reg) (w : Word) : (s.setG r w).turn = s.turn := rfl
@[simp] theorem setG_cur (r : Reg) (w : Word) : (s.setG r w).cur = s.cur := rfl
@[simp] theorem setG_clusters (r : Reg) (w : Word) : (s.setG r w).clusters = s.clusters := rfl
@[simp] theorem setG_dies (r : Reg) (w : Word) : (s.setG r w).dies = s.dies := rfl
@[simp] theorem setG_vcores (r : Reg) (w : Word) : (s.setG r w).vcores = s.vcores := rfl
@[simp] theorem setG_homes (r : Reg) (w : Word) : (s.setG r w).homes = s.homes := rfl
@[simp] theorem setG_mem (r : Reg) (w : Word) : (s.setG r w).mem = s.mem := rfl
@[simp] theorem setG_poison (r : Reg) (w : Word) : (s.setG r w).poison = s.poison := rfl
@[simp] theorem setG_checks (r : Reg) (w : Word) : (s.setG r w).checks = s.checks := rfl
@[simp] theorem setG_stage2 (r : Reg) (w : Word) : (s.setG r w).stage2 = s.stage2 := rfl
@[simp] theorem setG_part (r : Reg) (w : Word) : (s.setG r w).part = s.part := rfl
@[simp] theorem setG_tables (r : Reg) (w : Word) : (s.setG r w).tables = s.tables := rfl
@[simp] theorem setG_firmware (r : Reg) (w : Word) : (s.setG r w).firmware = s.firmware := rfl
@[simp] theorem setG_linkKeys (r : Reg) (w : Word) : (s.setG r w).linkKeys = s.linkKeys := rfl
@[simp] theorem setG_queueParts (r : Reg) (w : Word) : (s.setG r w).queueParts = s.queueParts := rfl
@[simp] theorem setG_notified (r : Reg) (w : Word) : (s.setG r w).notified = s.notified := rfl
@[simp] theorem setG_fills (r : Reg) (w : Word) : (s.setG r w).fills = s.fills := rfl
@[simp] theorem setG_misses (r : Reg) (w : Word) : (s.setG r w).misses = s.misses := rfl
@[simp] theorem setG_net (r : Reg) (w : Word) : (s.setG r w).net = s.net := rfl
@[simp] theorem setG_trees (r : Reg) (w : Word) : (s.setG r w).trees = s.trees := rfl
@[simp] theorem setG_acks (r : Reg) (w : Word) : (s.setG r w).acks = s.acks := rfl
@[simp] theorem setG_exchanges (r : Reg) (w : Word) : (s.setG r w).exchanges = s.exchanges := rfl
@[simp] theorem setG_instant (r : Reg) (w : Word) : (s.setG r w).instant = s.instant := rfl
@[simp] theorem setG_instants (r : Reg) (w : Word) : (s.setG r w).instants = s.instants := rfl
@[simp] theorem setG_boot (r : Reg) (w : Word) : (s.setG r w).boot = s.boot := rfl
@[simp] theorem setG_queues (r : Reg) (w : Word) : (s.setG r w).queues = s.queues := rfl
@[simp] theorem setG_signed (r : Reg) (w : Word) : (s.setG r w).signed = s.signed := rfl
@[simp] theorem setG_pkg (r : Reg) (w : Word) : (s.setG r w).pkg = s.pkg := rfl
@[simp] theorem setG_inputs (r : Reg) (w : Word) : (s.setG r w).inputs = s.inputs := rfl
@[simp] theorem setG_tick (r : Reg) (w : Word) : (s.setG r w).tick = s.tick := rfl
@[simp] theorem setG_fresh (r : Reg) (w : Word) : (s.setG r w).fresh = s.fresh := rfl
@[simp] theorem setG_cluster (r : Reg) (w : Word) (i : Nat) : (s.setG r w).cluster i = s.cluster i := rfl
@[simp] theorem setG_die (r : Reg) (w : Word) (i : Nat) : (s.setG r w).die i = s.die i := rfl
@[simp] theorem setG_vcore (r : Reg) (w : Word) (i : Nat) : (s.setG r w).vcore i = s.vcore i := rfl
@[simp] theorem setG_home (r : Reg) (w : Word) (i : Nat) : (s.setG r w).home i = s.home i := rfl
@[simp] theorem setG_tree (r : Reg) (w : Word) (i : Nat) : (s.setG r w).tree i = s.tree i := rfl
@[simp] theorem setG_queue (r : Reg) (w : Word) (i : Nat) : (s.setG r w).queue i = s.queue i := rfl

/-! `setPc` changes `cores` only. -/

@[simp] theorem setPc_time (pc : BitVec 38) : (s.setPc pc).time = s.time := rfl
@[simp] theorem setPc_polled (pc : BitVec 38) : (s.setPc pc).polled = s.polled := rfl
@[simp] theorem setPc_turn (pc : BitVec 38) : (s.setPc pc).turn = s.turn := rfl
@[simp] theorem setPc_cur (pc : BitVec 38) : (s.setPc pc).cur = s.cur := rfl
@[simp] theorem setPc_clusters (pc : BitVec 38) : (s.setPc pc).clusters = s.clusters := rfl
@[simp] theorem setPc_dies (pc : BitVec 38) : (s.setPc pc).dies = s.dies := rfl
@[simp] theorem setPc_vcores (pc : BitVec 38) : (s.setPc pc).vcores = s.vcores := rfl
@[simp] theorem setPc_homes (pc : BitVec 38) : (s.setPc pc).homes = s.homes := rfl
@[simp] theorem setPc_mem (pc : BitVec 38) : (s.setPc pc).mem = s.mem := rfl
@[simp] theorem setPc_poison (pc : BitVec 38) : (s.setPc pc).poison = s.poison := rfl
@[simp] theorem setPc_checks (pc : BitVec 38) : (s.setPc pc).checks = s.checks := rfl
@[simp] theorem setPc_stage2 (pc : BitVec 38) : (s.setPc pc).stage2 = s.stage2 := rfl
@[simp] theorem setPc_part (pc : BitVec 38) : (s.setPc pc).part = s.part := rfl
@[simp] theorem setPc_tables (pc : BitVec 38) : (s.setPc pc).tables = s.tables := rfl
@[simp] theorem setPc_firmware (pc : BitVec 38) : (s.setPc pc).firmware = s.firmware := rfl
@[simp] theorem setPc_linkKeys (pc : BitVec 38) : (s.setPc pc).linkKeys = s.linkKeys := rfl
@[simp] theorem setPc_queueParts (pc : BitVec 38) : (s.setPc pc).queueParts = s.queueParts := rfl
@[simp] theorem setPc_notified (pc : BitVec 38) : (s.setPc pc).notified = s.notified := rfl
@[simp] theorem setPc_fills (pc : BitVec 38) : (s.setPc pc).fills = s.fills := rfl
@[simp] theorem setPc_misses (pc : BitVec 38) : (s.setPc pc).misses = s.misses := rfl
@[simp] theorem setPc_net (pc : BitVec 38) : (s.setPc pc).net = s.net := rfl
@[simp] theorem setPc_trees (pc : BitVec 38) : (s.setPc pc).trees = s.trees := rfl
@[simp] theorem setPc_acks (pc : BitVec 38) : (s.setPc pc).acks = s.acks := rfl
@[simp] theorem setPc_exchanges (pc : BitVec 38) : (s.setPc pc).exchanges = s.exchanges := rfl
@[simp] theorem setPc_instant (pc : BitVec 38) : (s.setPc pc).instant = s.instant := rfl
@[simp] theorem setPc_instants (pc : BitVec 38) : (s.setPc pc).instants = s.instants := rfl
@[simp] theorem setPc_boot (pc : BitVec 38) : (s.setPc pc).boot = s.boot := rfl
@[simp] theorem setPc_queues (pc : BitVec 38) : (s.setPc pc).queues = s.queues := rfl
@[simp] theorem setPc_signed (pc : BitVec 38) : (s.setPc pc).signed = s.signed := rfl
@[simp] theorem setPc_pkg (pc : BitVec 38) : (s.setPc pc).pkg = s.pkg := rfl
@[simp] theorem setPc_inputs (pc : BitVec 38) : (s.setPc pc).inputs = s.inputs := rfl
@[simp] theorem setPc_tick (pc : BitVec 38) : (s.setPc pc).tick = s.tick := rfl
@[simp] theorem setPc_fresh (pc : BitVec 38) : (s.setPc pc).fresh = s.fresh := rfl
@[simp] theorem setPc_cluster (pc : BitVec 38) (i : Nat) : (s.setPc pc).cluster i = s.cluster i := rfl
@[simp] theorem setPc_die (pc : BitVec 38) (i : Nat) : (s.setPc pc).die i = s.die i := rfl
@[simp] theorem setPc_vcore (pc : BitVec 38) (i : Nat) : (s.setPc pc).vcore i = s.vcore i := rfl
@[simp] theorem setPc_home (pc : BitVec 38) (i : Nat) : (s.setPc pc).home i = s.home i := rfl
@[simp] theorem setPc_tree (pc : BitVec 38) (i : Nat) : (s.setPc pc).tree i = s.tree i := rfl
@[simp] theorem setPc_queue (pc : BitVec 38) (i : Nat) : (s.setPc pc).queue i = s.queue i := rfl

/-! `out` changes `cur` only. -/

@[simp] theorem out_time (o : Out) : (s.out o).time = s.time := rfl
@[simp] theorem out_polled (o : Out) : (s.out o).polled = s.polled := rfl
@[simp] theorem out_turn (o : Out) : (s.out o).turn = s.turn := rfl
@[simp] theorem out_cores (o : Out) : (s.out o).cores = s.cores := rfl
@[simp] theorem out_clusters (o : Out) : (s.out o).clusters = s.clusters := rfl
@[simp] theorem out_dies (o : Out) : (s.out o).dies = s.dies := rfl
@[simp] theorem out_vcores (o : Out) : (s.out o).vcores = s.vcores := rfl
@[simp] theorem out_homes (o : Out) : (s.out o).homes = s.homes := rfl
@[simp] theorem out_mem (o : Out) : (s.out o).mem = s.mem := rfl
@[simp] theorem out_poison (o : Out) : (s.out o).poison = s.poison := rfl
@[simp] theorem out_checks (o : Out) : (s.out o).checks = s.checks := rfl
@[simp] theorem out_stage2 (o : Out) : (s.out o).stage2 = s.stage2 := rfl
@[simp] theorem out_part (o : Out) : (s.out o).part = s.part := rfl
@[simp] theorem out_tables (o : Out) : (s.out o).tables = s.tables := rfl
@[simp] theorem out_firmware (o : Out) : (s.out o).firmware = s.firmware := rfl
@[simp] theorem out_linkKeys (o : Out) : (s.out o).linkKeys = s.linkKeys := rfl
@[simp] theorem out_queueParts (o : Out) : (s.out o).queueParts = s.queueParts := rfl
@[simp] theorem out_notified (o : Out) : (s.out o).notified = s.notified := rfl
@[simp] theorem out_fills (o : Out) : (s.out o).fills = s.fills := rfl
@[simp] theorem out_misses (o : Out) : (s.out o).misses = s.misses := rfl
@[simp] theorem out_net (o : Out) : (s.out o).net = s.net := rfl
@[simp] theorem out_trees (o : Out) : (s.out o).trees = s.trees := rfl
@[simp] theorem out_acks (o : Out) : (s.out o).acks = s.acks := rfl
@[simp] theorem out_exchanges (o : Out) : (s.out o).exchanges = s.exchanges := rfl
@[simp] theorem out_instant (o : Out) : (s.out o).instant = s.instant := rfl
@[simp] theorem out_instants (o : Out) : (s.out o).instants = s.instants := rfl
@[simp] theorem out_boot (o : Out) : (s.out o).boot = s.boot := rfl
@[simp] theorem out_queues (o : Out) : (s.out o).queues = s.queues := rfl
@[simp] theorem out_signed (o : Out) : (s.out o).signed = s.signed := rfl
@[simp] theorem out_pkg (o : Out) : (s.out o).pkg = s.pkg := rfl
@[simp] theorem out_inputs (o : Out) : (s.out o).inputs = s.inputs := rfl
@[simp] theorem out_tick (o : Out) : (s.out o).tick = s.tick := rfl
@[simp] theorem out_fresh (o : Out) : (s.out o).fresh = s.fresh := rfl
@[simp] theorem out_core (o : Out) (i : Nat) : (s.out o).core i = s.core i := rfl
@[simp] theorem out_cluster (o : Out) (i : Nat) : (s.out o).cluster i = s.cluster i := rfl
@[simp] theorem out_die (o : Out) (i : Nat) : (s.out o).die i = s.die i := rfl
@[simp] theorem out_vcore (o : Out) (i : Nat) : (s.out o).vcore i = s.vcore i := rfl
@[simp] theorem out_home (o : Out) (i : Nat) : (s.out o).home i = s.home i := rfl
@[simp] theorem out_tree (o : Out) (i : Nat) : (s.out o).tree i = s.tree i := rfl
@[simp] theorem out_queue (o : Out) (i : Nat) : (s.out o).queue i = s.queue i := rfl

/-! What the updated part reads as, and the other parts of its kind. -/

@[simp] theorem updCore_core_self (i : Nat) (f : Core → Core) : (s.updCore i f).core i = f (s.core i) := by
  simp [updCore, core, setCore]

theorem updCore_core_ne {i j : Nat} (f : Core → Core) (h : j ≠ i) : (s.updCore i f).core j = s.core j := by
  simp [updCore, core, setCore, AMap.get_put_ne _ _ h]

@[simp] theorem updCluster_cluster_self (i : Nat) (f : Cluster → Cluster) : (s.updCluster i f).cluster i = f (s.cluster i) := by
  simp [updCluster, cluster]

theorem updCluster_cluster_ne {i j : Nat} (f : Cluster → Cluster) (h : j ≠ i) : (s.updCluster i f).cluster j = s.cluster j := by
  simp [updCluster, cluster, AMap.get_put_ne _ _ h]

@[simp] theorem updDie_die_self (i : Nat) (f : Die → Die) : (s.updDie i f).die i = f (s.die i) := by
  simp [updDie, die]

theorem updDie_die_ne {i j : Nat} (f : Die → Die) (h : j ≠ i) : (s.updDie i f).die j = s.die j := by
  simp [updDie, die, AMap.get_put_ne _ _ h]

@[simp] theorem updVcore_vcore_self (i : Nat) (f : VCore → VCore) : (s.updVcore i f).vcore i = f (s.vcore i) := by
  simp [updVcore, vcore]

theorem updVcore_vcore_ne {i j : Nat} (f : VCore → VCore) (h : j ≠ i) : (s.updVcore i f).vcore j = s.vcore j := by
  simp [updVcore, vcore, AMap.get_put_ne _ _ h]

@[simp] theorem updHome_home_self (i : Nat) (f : Home → Home) : (s.updHome i f).home i = f (s.home i) := by
  simp [updHome, home]

theorem updHome_home_ne {i j : Nat} (f : Home → Home) (h : j ≠ i) : (s.updHome i f).home j = s.home j := by
  simp [updHome, home, AMap.get_put_ne _ _ h]

@[simp] theorem updTree_tree_self (i : Nat) (f : Tree → Tree) : (s.updTree i f).tree i = f (s.tree i) := by
  simp [updTree, tree]

theorem updTree_tree_ne {i j : Nat} (f : Tree → Tree) (h : j ≠ i) : (s.updTree i f).tree j = s.tree j := by
  simp [updTree, tree, AMap.get_put_ne _ _ h]

@[simp] theorem updQueue_queue_self (i : Nat) (f : HQueue → HQueue) : (s.updQueue i f).queue i = f (s.queue i) := by
  simp [updQueue, queue]

theorem updQueue_queue_ne {i j : Nat} (f : HQueue → HQueue) (h : j ≠ i) : (s.updQueue i f).queue j = s.queue j := by
  simp [updQueue, queue, AMap.get_put_ne _ _ h]

@[simp] theorem updPart_part_self (f : Part → Part) : (s.updPart f).part = f s.part := rfl

/-! ### Slots -/

theorem vput_get {α : Type} {n : Nat} (v : Vector α n) (i : Fin n) (a : α) : (vput v i a).get i = a := by
  show (v.set i.val a i.isLt)[i.val] = a
  simp

theorem vput_get_ne {α : Type} {n : Nat} (v : Vector α n) {i j : Fin n} (a : α) (h : j ≠ i) :
    (vput v i a).get j = v.get j := by
  have : i.val ≠ j.val := fun e => h (Fin.ext e.symm)
  show (v.set i.val a i.isLt)[j.val] = v[j.val]
  exact Vector.getElem_set_ne i.isLt j.isLt this

@[simp] theorem setSlot_slotAt (p : Nat) (j : Fin 16) (x : Slot) : (s.setSlot p j x).slotAt p j = x := by
  simp [slotAt, setSlot, vput_get]

theorem setSlot_slotAt_ne {p q : Nat} {j k : Fin 16} (x : Slot) (h : q ≠ p ∨ k ≠ j) :
    (s.setSlot p j x).slotAt q k = s.slotAt q k := by
  by_cases e : q = p
  · subst e
    have hk : k ≠ j := h.resolve_left (fun n => n rfl)
    simp [slotAt, setSlot, vput_get_ne _ _ hk]
  · simp [slotAt, setSlot, updCore_core_ne _ _ e]

@[simp] theorem updSlot_slotAt (p : Nat) (j : Fin 16) (f : Slot → Slot) :
    (s.updSlot p j f).slotAt p j = f (s.slotAt p j) := by simp [updSlot]

theorem updSlot_slotAt_ne {p q : Nat} {j k : Fin 16} (f : Slot → Slot) (h : q ≠ p ∨ k ≠ j) :
    (s.updSlot p j f).slotAt q k = s.slotAt q k := setSlot_slotAt_ne s _ h

/-- What an update of a slot leaves of every core: all but the slots. -/
theorem updSlot_core (p q : Nat) (j : Fin 16) (f : Slot → Slot) :
    (s.updSlot p j f).core q = { s.core q with slots := ((s.updSlot p j f).core q).slots } := by
  by_cases e : q = p
  · subst e
    simp [updSlot, setSlot]
  · simp [updSlot, setSlot, updCore_core_ne _ _ e]

@[simp] theorem updMe_me (f : Slot → Slot) : (s.updMe f).me = f s.me := by simp [updMe, me]

@[simp] theorem updRegs_me (f : Regs → Regs) : (s.updRegs f).me = { s.me with regs := f s.me.regs } := by
  simp [updRegs]

theorem updRegs_slotAt_ne {q : Nat} {k : Fin 16} (f : Regs → Regs) (h : q ≠ s.cur.pos ∨ k ≠ s.cur.slot) :
    (s.updRegs f).slotAt q k = s.slotAt q k := updSlot_slotAt_ne s _ h

end State

/-! ### General registers (R101) -/

@[simp] theorem Regs.setG_zero (x : Regs) (w : Word) : x.setG 0 w = x := rfl

theorem Regs.setG_get (x : Regs) {r : Reg} (w : Word) (h : r ≠ 0) : (x.setG r w).g.get r = w := by
  simp [Regs.setG, h, State.vput_get]

theorem Regs.setG_get_ne (x : Regs) {r q : Reg} (w : Word) (h : q ≠ r) : (x.setG r w).g.get q = x.g.get q := by
  unfold Regs.setG
  split
  · rfl
  · exact State.vput_get_ne _ _ h

/-- Writing a general register leaves every other register of the slot. -/
theorem Regs.setG_eq (x : Regs) (r : Reg) (w : Word) : x.setG r w = { x with g := (x.setG r w).g } := by
  unfold Regs.setG
  split <;> rfl

namespace State

variable (s : State)

/-- Writing to g0 is discarded; any other register reads as written (R101). -/
theorem setG_me (r : Reg) (w : Word) : (s.setG r w).me = { s.me with regs := s.me.regs.setG r w } := by
  simp [setG]

theorem setG_slotAt_ne {q : Nat} {k : Fin 16} (r : Reg) (w : Word) (h : q ≠ s.cur.pos ∨ k ≠ s.cur.slot) :
    (s.setG r w).slotAt q k = s.slotAt q k := updSlot_slotAt_ne s _ h

/-- Register reads are those latched at issue, whatever is written meanwhile (R35). -/
@[simp] theorem setG_g (r q : Reg) (w : Word) : (s.setG r w).g q = s.g q := rfl

end State

end Sys2Proof.Machine
end

