-- ==== Sys2Proof/Laws/Ops.lean ====
section
/-! SUPPORT. What the shared operations do, each said once: traps, leaving the rotation, releases, memory and scratchpad
writes, full/empty bits and the store buffer. -/

namespace Sys2Proof.Machine

namespace State

variable (s : State)

/-! ### Taking a trap (R332) -/

/-- A trap ends the half that takes it. -/
@[simp] theorem trap_out (c : Cause) (v : Word) : (s.trap c v).cur.out = .trap := rfl

/-- A trap of a thread that is no helper, where the handler's fetch does not fault: TEPC, TCAUSE, TVAL, the status
and the PC as `Regs.enter` gives them, from the registers that the bundle found (R36); the other slots and all else
stay, but for what the bundle has handed to a unit that has not begun. -/
theorem trap_entered (c : Cause) (v : Word) (hl : ∀ k, s.me.life ≠ .helper k)
    (hf : ∀ d, s.fetchAt (BitVec.ofNat 38 (bits (entryRegs s.me (s.keepsRegs c false)).1.tvec 37 0)) ≠ .fault d) :
    s.trap c v =
      ((s.dropHalves s.cur.pos s.cur.slot).updMe fun x =>
        { x with
          regs := (entryRegs s.me (s.keepsRegs c false)).1.enter c false false s.cur.ipc v
          bounce := (entryRegs s.me (s.keepsRegs c false)).2
          lost := x.lost, pendC := none, pendA := none, undo := none, ready := s.time + 1 }).out .trap := by
  have hl' : ∀ k, (s.slotAt s.cur.pos s.cur.slot).life ≠ .helper k := hl
  have hf' : ∀ d, s.fetchAt
      (BitVec.ofNat 38 (bits (entryRegs (s.slotAt s.cur.pos s.cur.slot) (s.keepsRegs c false)).1.tvec 37 0)) ≠ .fault d := hf
  have hc : (s.dropHalves s.cur.pos s.cur.slot).cur = s.cur := by unfold dropHalves; dsimp only; split <;> rfl
  simp only [trap, enterTrap, updMe, hc, me]
  simp

/-- With no half of the thread out, nothing is dropped. -/
theorem dropHalves_eq (p : Nat) (j : Fin 16) (h : (s.slotAt p j).undo = none) : s.dropHalves p j = s := by
  simp [dropHalves, h]

/-- A trap at issue, with no half of the thread out: the registers stand as they are (R36, R332). -/
theorem trap_at_issue (c : Cause) (v : Word) (hl : ∀ k, s.me.life ≠ .helper k)
    (hf : ∀ d, s.fetchAt (BitVec.ofNat 38 (bits s.me.regs.tvec 37 0)) ≠ .fault d) (hu : s.me.undo = none) :
    s.trap c v =
      (s.updMe fun x =>
        { x with
          regs := s.me.regs.enter c false false s.cur.ipc v, bounce := s.me.bounce
          lost := x.lost, pendC := none, pendA := none, undo := none, ready := s.time + 1 }).out .trap := by
  have he (k : Bool) : entryRegs s.me k = (s.me.regs, s.me.bounce) := by simp [entryRegs, hu]
  rw [trap_entered s c v hl (by simpa [he] using hf), he, dropHalves_eq s _ _ hu]

/-- Any trap of a helper ends it, and nothing else (R151). -/
theorem trap_helper (c : Cause) (v : Word) {k : Fin 16} (hl : s.me.life = .helper k) :
    s.trap c v = (s.updMe vacated).out .trap := by
  have hl' : (s.slotAt s.cur.pos s.cur.slot).life = .helper k := hl
  simp only [trap, enterTrap, updMe, hl']

/-! ### Leaving the rotation (R123) -/

/-- A slot of a table that is rewritten slot by slot. -/
theorem slots_map_get (v : Vector Slot 16) (f : Slot → Slot) (k : Fin 16) : (v.map f).get k = f (v.get k) := by
  simp [Vector.get]

/-- What a trap takes back of other threads: nothing but a token that an ASTAT of the core waits for (R36, R251). -/
theorem dropHalves_slotAt (p q : Nat) (j k : Fin 16) :
    (s.dropHalves p j).slotAt q k = { s.slotAt q k with pendA := ((s.dropHalves p j).slotAt q k).pendA } := by
  unfold dropHalves
  dsimp only
  split
  · rfl
  · by_cases h : q = p
    · subst h
      simp only [slotAt, updCore_core_self, slots_map_get]
    · simp only [slotAt, updCore_core_ne _ _ h]

/-- The threads of a core that go on keep all they have, and issue no earlier than before (R124). -/
theorem goOn_slotAt (p q : Nat) (k : Fin 16) :
    (s.goOn p).slotAt q k = { s.slotAt q k with ready := ((s.goOn p).slotAt q k).ready } ∧
      (s.slotAt q k).ready ≤ ((s.goOn p).slotAt q k).ready := by
  unfold goOn
  by_cases h : q = p
  · subst h
    simp only [slotAt, updCore_core_self, slots_map_get]
    split
    · exact ⟨rfl, Nat.le_max_left _ _⟩
    · exact ⟨rfl, Nat.le_refl _⟩
  · simp only [slotAt, updCore_core_ne _ _ h, Nat.le_refl, and_true]

theorem goOn_core_ne {p q : Nat} (h : q ≠ p) : (s.goOn p).core q = s.core q := updCore_core_ne _ _ h

@[simp] theorem goOn_mem (p : Nat) : (s.goOn p).mem = s.mem := rfl

@[simp] theorem hold_cores : s.hold.cores = s.cores := rfl
@[simp] theorem hold_out : s.hold.cur.out = .held := rfl

@[simp] theorem park_out (i : Instr) (n : Nat) (l : List Word) (w : Wait) : (s.park i n l w).cur.out = .parked := rfl
@[simp] theorem park_mem (i : Instr) (n : Nat) (l : List Word) (w : Wait) : (s.park i n l w).mem = s.mem := rfl
@[simp] theorem park_homes (i : Instr) (n : Nat) (l : List Word) (w : Wait) : (s.park i n l w).homes = s.homes := rfl
@[simp] theorem park_vcores (i : Instr) (n : Nat) (l : List Word) (w : Wait) : (s.park i n l w).vcores = s.vcores := rfl
@[simp] theorem park_part (i : Instr) (n : Nat) (l : List Word) (w : Wait) : (s.park i n l w).part = s.part := rfl

/-- What parking a C half does to its slot. -/
theorem park_me_c (i : Instr) (n : Nat) (l : List Word) (w : Wait) (h : s.cur.isA = false) :
    (s.park i n l w).me = { s.me with latch := s.cur.src, ipc := s.cur.ipc, bundle := s.cur.bundle, pendC := some ⟨i, n, l, w⟩ } := by
  have : (s.park i n l w).me = (s.updMe fun x => { x with latch := s.cur.src, ipc := s.cur.ipc, bundle := s.cur.bundle, pendC := some ⟨i, n, l, w⟩ }).me := by
    simp [park, h, out, me, updMe, slotAt, core, updSlot, setSlot, updCore, setCore]
  rw [this, updMe_me]

/-- What parking an A half does to its slot. -/
theorem park_me_a (i : Instr) (n : Nat) (l : List Word) (w : Wait) (h : s.cur.isA = true) :
    (s.park i n l w).me = { s.me with latch := s.cur.src, ipc := s.cur.ipc, bundle := s.cur.bundle, pendA := some ⟨i, n, l, w⟩ } := by
  have : (s.park i n l w).me = (s.updMe fun x => { x with latch := s.cur.src, ipc := s.cur.ipc, bundle := s.cur.bundle, pendA := some ⟨i, n, l, w⟩ }).me := by
    simp [park, h, out, me, updMe, slotAt, core, updSlot, setSlot, updCore, setCore]
  rw [this, updMe_me]

/-- Parking leaves every other slot. -/
theorem park_slotAt_ne (i : Instr) (n : Nat) (l : List Word) (w : Wait) {q : Nat} {k : Fin 16}
    (h : q ≠ s.cur.pos ∨ k ≠ s.cur.slot) : (s.park i n l w).slotAt q k = s.slotAt q k := by
  have e : ∀ t : State, (t.out .parked).slotAt q k = t.slotAt q k := fun _ => rfl
  rw [park, e]
  exact updSlot_slotAt_ne s _ h

/-! ### Releases (R195) -/

@[simp] theorem released_core : s.released .core = s := rfl
@[simp] theorem released_clus : s.released .clus = s := rfl
@[simp] theorem released_die : s.released .die = s := rfl
theorem released_sys : s.released .sys = s.released .dev := rfl

/-- A release of device scope clears BANKM, in the registers from before the bundle too, and changes nothing else of the
slot. -/
theorem released_dev_me : (s.released .dev).me =
    { s.me with regs := { s.me.regs with bankm := 0 }
                undo := s.me.undo.map fun u => ({ u.1 with bankm := 0 }, u.2) } := by
  rw [released, updMe_me]

/-- A release of core scope waits for nothing. -/
theorem release_core (i : Instr) (n : Nat) (l : List Word) (k : State → State) : s.release .core i n l k = k s := by
  simp [release, covered, probes, releaseOver]

/-- A release that has nothing to wait for goes on at once. -/
theorem release_now (sc : Scope) (i : Instr) (n : Nat) (l : List Word) (k : State → State)
    (h : s.releaseOver s.cur.pos s.cur.slot (s.covered s.cur.pos sc) (probes s.cur.pos sc s.me.regs.bankm)
      (sc == .sys) = true) : s.release sc i n l k = k (s.released sc) := by
  simp [release, h]

/-- A release that has something to wait for parks the half. -/
theorem release_waits (sc : Scope) (i : Instr) (n : Nat) (l : List Word) (k : State → State)
    (h : s.releaseOver s.cur.pos s.cur.slot (s.covered s.cur.pos sc) (probes s.cur.pos sc s.me.regs.bankm)
      (sc == .sys) = false) :
    s.release sc i n l k =
      s.park i n l (.release (s.covered s.cur.pos sc) (probes s.cur.pos sc s.me.regs.bankm) (sc == .sys)) := by
  simp [release, h]

/-! ### Memory at its homes (R185, R192) -/

/-- With no open accumulator at a home, closing it changes nothing. -/
theorem closeSatAt_eq (h a n : Nat) (he : (s.home h).sat = []) : s.closeSatAt h a n = s := by
  simp [closeSatAt, he]

/-- With no open accumulator anywhere, closing changes nothing. -/
theorem closeSat_eq (a n : Nat) (he : ∀ h, (s.home h).sat = []) : s.closeSat a n = s := by
  unfold closeSat
  generalize List.range _ = l
  induction l with
  | nil => rfl
  | cons x t ih => rw [List.foldl_cons, closeSatAt_eq s _ _ _ (he _), ih]

theorem memRead_eq (a n : Nat) (he : ∀ h, (s.home h).sat = []) : s.memRead a n = (Memory.readN s.mem a n, s) := by
  simp [memRead, closeSat_eq s a n he]

theorem memWrite_mem (a : Nat) (bs : List Byte) (he : ∀ h, (s.home h).sat = []) :
    (s.memWrite a bs).mem = Memory.writeN s.mem a bs := by
  simp [memWrite, closeSat_eq s a _ he]

/-- Closing a home's accumulators keeps the canonical form. -/
theorem wf_closeSatAt (h a n : Nat) (hw : Memory.wf s.mem = true) : Memory.wf (s.closeSatAt h a n).mem = true := by
  simp only [closeSatAt]
  split
  · exact hw
  · generalize ((s.home h).sat.filter fun x => overlap x.1 x.2.1 a n) = l
    have : Memory.wf (s.updHome h fun x => { x with sat := x.sat.filter fun y => !overlap y.1 y.2.1 a n }).mem = true := hw
    revert this
    generalize (s.updHome h fun x => { x with sat := x.sat.filter fun y => !overlap y.1 y.2.1 a n }) = t
    induction l generalizing t with
    | nil => exact id
    | cons x l ih => exact fun ht => ih _ (Memory.wf_writeN ht _ _)

theorem wf_closeSat (a n : Nat) (hw : Memory.wf s.mem = true) : Memory.wf (s.closeSat a n).mem = true := by
  unfold closeSat
  generalize List.range _ = l
  induction l generalizing s with
  | nil => exact hw
  | cons x l ih => exact ih _ (wf_closeSatAt s _ _ _ hw)

/-- Reads and writes at the homes keep the canonical form. -/
theorem wf_memRead (a n : Nat) (hw : Memory.wf s.mem = true) : Memory.wf (s.memRead a n).2.mem = true :=
  wf_closeSat s a n hw

theorem wf_memWrite (a : Nat) (bs : List Byte) (hw : Memory.wf s.mem = true) :
    Memory.wf (s.memWrite a bs).mem = true := Memory.wf_writeN (wf_closeSat s a _ hw) a bs

/-! ### The scratchpad (R153, R165) -/

/-- Writing a core's scratchpad keeps its canonical form and the other cores. -/
theorem wf_spadWrite (p a : Nat) (bs : List Byte) (hw : Memory.wf (s.core p).spad = true) :
    Memory.wf ((s.spadWrite p a bs).core p).spad = true := by
  simpa [spadWrite] using Memory.wf_writeN hw a bs

theorem spadRead_spadWrite (p a : Nat) (bs : List Byte) (hw : Memory.wf (s.core p).spad = true) :
    (s.spadWrite p a bs).spadRead p a bs.length = bs := by
  simpa [spadRead, spadWrite] using Memory.readN_writeN hw a bs

theorem spadWrite_core_ne {p q : Nat} (a : Nat) (bs : List Byte) (h : q ≠ p) :
    (s.spadWrite p a bs).core q = s.core q := updCore_core_ne s _ h

/-- A scratchpad write leaves the bytes outside it. -/
theorem spadWrite_read_ne (p a c : Nat) (bs : List Byte) (h : c < a ∨ a + bs.length ≤ c) :
    Memory.read ((s.spadWrite p a bs).core p).spad c = Memory.read (s.core p).spad c := by
  simpa [spadWrite] using Memory.read_writeN_ne (s.core p).spad a c bs h

@[simp] theorem spadWrite_slots (p a : Nat) (bs : List Byte) :
    ((s.spadWrite p a bs).core p).slots = (s.core p).slots := by simp [spadWrite]

@[simp] theorem spadWrite_full (p a : Nat) (bs : List Byte) :
    ((s.spadWrite p a bs).core p).full = (s.core p).full := by simp [spadWrite]

theorem mem_insertNat (l : List Nat) (k j : Nat) : j ∈ insertNat l k ↔ j = k ∨ j ∈ l := by
  induction l with
  | nil => simp [insertNat]
  | cons x t ih =>
    simp only [insertNat]
    split
    · simp
    · split
      · rename_i e
        subst e
        simp
      · simp only [List.mem_cons, ih]
        exact or_left_comm

/-- A doubleword's bit reads as set. -/
theorem setFull_isFull (p dw : Nat) (b : Bool) : isFull ((s.setFull p dw b).core p) dw = b := by
  cases b <;> simp [setFull, isFull, mem_insertNat]

/-- Setting a bit leaves the bits of the other doublewords. -/
theorem setFull_isFull_ne (p : Nat) {dw d : Nat} (b : Bool) (h : d ≠ dw) :
    isFull ((s.setFull p dw b).core p) d = isFull (s.core p) d := by
  cases b <;> simp [setFull, isFull, mem_insertNat, h]

/-! ### The store buffer (R159) -/

/-- A new entry joins the end of its core's buffer. -/
theorem pushEntry_buffer (p : Nat) (t : Tid) (op : SbOp) :
    ((s.pushEntry p t op).core p).buffer = (s.core p).buffer ++ [⟨s.fresh, t, op, false⟩] := by
  simp only [pushEntry, fresh1, updCore_core_self]
  rfl

theorem pushEntry_core_ne {p q : Nat} (t : Tid) (op : SbOp) (h : q ≠ p) :
    (s.pushEntry p t op).core q = s.core q := by
  simp only [pushEntry, fresh1]
  rw [updCore_core_ne _ _ h]
  rfl

@[simp] theorem pushEntry_mem (p : Nat) (t : Tid) (op : SbOp) : (s.pushEntry p t op).mem = s.mem := rfl

end State

end Sys2Proof.Machine
end

