-- ==== Sys2Proof/Tests/Slice0.lean ====
section
/-! SUPPORT. The model's own tests: terms that the well-formedness checks refuse, words written out from the
encodings of spec/03_encoding.md, one step of each instruction on a small state with the result the spec
gives, and for each statement with hypotheses a state that meets them. -/

open Sys2Proof Sys2Proof.Machine Sys2Proof.Claim

namespace Sys2Proof.Tests

set_option Elab.async false

/-! ### Small states -/

/-- The step has given a next state of which f holds. -/
def ran (r : Res) (f : State → Bool) : Bool :=
  match r with
  | .next t => f t
  | _ => false

/-- The result is this value. -/
def okIs {ε α : Type} [DecidableEq α] (x : Except ε α) (y : α) : Bool :=
  match x with
  | .ok z => decide (z = y)
  | .error _ => false

theorem ok_of {ε α : Type} [DecidableEq α] {x : Except ε α} {y : α} (h : okIs x y = true) : x = .ok y := by
  cases x with
  | ok z => exact congrArg _ (of_decide_eq_true h)
  | error e => cases h

/-- Registers with some general registers set. -/
def regs (l : List (Reg × Word)) : Regs :=
  { g := l.foldl (fun v x => vput v x.1 x.2) (Vector.replicate 16 0) }

/-- A core that holds one thread, in slot 0. -/
def coreOf (x : Slot) (c : Core := {}) : Core := { c with slots := vput c.slots 0 x }

/-- A placed vcore 0 at position 0 whose thread, in slot 0, runs with these registers; its code's record is not cached. -/
def on (r : Regs) (c : Core := {}) : State :=
  { boot := { ready := true }, vcores := [(0, { place := .placed })], fresh := 100, turn := 1
    part := { codeo := 1, ortb := 24 * 2 ^ 54 }
    cores := [(0, coreOf { busy := true, regs := r } c)], cur := { src := r } }

/-- The same, of the A class. -/
def onA (r : Regs) (c : Core := {}) : State :=
  let s := on r c
  { s with cur := { s.cur with isA := true } }

/-- The running thread's register holds a value. -/
def has (r : Reg) (w : Word) (t : State) : Bool := t.me.regs.g.get r == w

/-! ### The checks of well-formedness, each refusing a term -/

theorem test_ill_swr_time : (.swr 1 .time : Instr).wellFormed = false := by decide +kernel

theorem test_ill_swr_bankm : (.swr 1 .bankm : Instr).wellFormed = false := by decide +kernel

theorem test_ill_swr_xdone : (.swr 1 (.xdone 3) : Instr).wellFormed = false := by decide +kernel

theorem test_ill_ld_signed_d : (.ld 1 2 true .d 0 : Instr).wellFormed = false := by decide +kernel

theorem test_ill_old_signed_d : (.old 1 2 true .d 0 : Instr).wellFormed = false := by decide +kernel

theorem test_ill_oldc_signed_d : (.oldc 1 2 true .d 0 : Instr).wellFormed = false := by decide +kernel

theorem test_ill_ldc_signed_d : (.ldc 1 2 true .d 0 : Instr).wellFormed = false := by decide +kernel

theorem test_ill_ldp_odd : (.ldp 3 1 0 : Instr).wellFormed = false := by decide +kernel

theorem test_ill_stp_odd : (.stp 3 1 0 : Instr).wellFormed = false := by decide +kernel

theorem test_ill_ext_wide : (.ext 1 2 60 4 : Instr).wellFormed = false := by decide +kernel

theorem test_ill_exts_wide : (.exts 1 2 1 63 : Instr).wellFormed = false := by decide +kernel

theorem test_ill_ins_wide : (.ins 1 2 63 1 : Instr).wellFormed = false := by decide +kernel

theorem test_ill_drn_stat : (.drn 0 1 true false false false false .none ⟨0, 0, 0, 0⟩ : Instr).wellFormed = false := by decide +kernel

theorem test_ill_drn_dx : (.drn 0 1 false false true false false .none ⟨0, 0, 0, 0⟩ : Instr).wellFormed = false := by decide +kernel

theorem test_ill_drn_side_sw : (.drn 0 1 false false false false false .none ⟨1, 0, 0, 0⟩ : Instr).wellFormed = false := by decide +kernel

theorem test_ill_drn_side_dx : (.drn 0 1 false true false false false .relu ⟨1, 1, 0, 0⟩ : Instr).wellFormed = false := by decide +kernel

theorem test_ill_drn_side_bias : (.drn 0 1 false true false false true .none ⟨1, 0, 1, 0⟩ : Instr).wellFormed = false := by decide +kernel

theorem test_ill_drn_side_scl : (.drn 0 1 false true false true false .none ⟨1, 0, 1, 1⟩ : Instr).wellFormed = false := by decide +kernel

theorem test_ill_amin_total_d : (.amin 1 2 3 true .d : Instr).wellFormed = false := by decide +kernel

theorem test_ill_amax_total_d : (.amax 1 2 3 true .d : Instr).wellFormed = false := by decide +kernel

theorem test_ill_position : (.storeBufferPerform 4160 0 : Instr).wellFormed = false := by decide +kernel

theorem test_ill_slot : (.icacheFill 0 16 : Instr).wellFormed = false := by decide +kernel

theorem test_ill_fetch_slot : (.recordFetch 0 16 : Instr).wellFormed = false := by decide +kernel

theorem test_ill_event_slot : (.asyncEventEntry 4160 0 : Instr).wellFormed = false := by decide +kernel

theorem test_ill_cluster : (.copyChunk 512 : Instr).wellFormed = false := by decide +kernel

theorem test_ill_home : (.homeSliceRequest 1538 0 : Instr).wellFormed = false := by decide +kernel

theorem test_ill_miss_home : (.l2MissFill 1536 0 : Instr).wellFormed = false := by decide +kernel

theorem test_ill_probe_group : (.probeEcho 0 0 512 : Instr).wellFormed = false := by decide +kernel

theorem test_ill_residency_byte : (.residencyFillRelease (2 ^ 48) [] : Instr).wellFormed = false := by decide +kernel

theorem test_ill_exchange_same : (.exchange 5 5 : Instr).wellFormed = false := by decide +kernel

theorem test_ill_line_check_bad : (.lineCheck 0 (2 ^ 544) : Instr).wellFormed = false := by decide +kernel

theorem test_ill_line_check_address : (.lineCheck (2 ^ 48) 0 : Instr).wellFormed = false := by decide +kernel

theorem test_ill_frame_port : (.frameReceipt 0x10 0 0 true 0 : Instr).wellFormed = false := by decide +kernel

theorem test_ill_frame_key : (.frameReceipt 0xE4 256 0 true 0 : Instr).wellFormed = false := by decide +kernel

theorem test_ill_key_switch : (.keyPhaseSwitch 0xE4 256 0 : Instr).wellFormed = false := by decide +kernel

theorem test_ill_narrowed_eight : (.narrowed 0xE4 8 : Instr).wellFormed = false := by decide +kernel

theorem test_ill_down_core_port : (.down 0x20 : Instr).wellFormed = false := by decide +kernel

theorem test_ill_retrained_three : (.retrained 0xE4 3 : Instr).wellFormed = false := by decide +kernel

theorem test_ill_thermal_die : (.thermal 8 : Instr).wellFormed = false := by decide +kernel

theorem test_ill_power_up_code : (.powerUp 5 0 : Instr).wellFormed = false := by decide +kernel

theorem test_ill_host_address : (.hostMemoryAccess (2 ^ 47) 64 none : Instr).wellFormed = false := by decide +kernel

theorem test_ill_queue_port : (.tail 2 0 0 false : Instr).wellFormed = false := by decide +kernel

theorem test_ill_queue_number : (.en 0 64 0 : Instr).wellFormed = false := by decide +kernel

theorem test_ill_steering : (.spareClusterSteering 0 64 : Instr).wellFormed = false := by decide +kernel

theorem test_ill_mapping : (.secondStageMapping (2 ^ 32) 0 : Instr).wellFormed = false := by decide +kernel

theorem test_ill_record_cache : (.recordCacheAcknowledgement 520 0 : Instr).wellFormed = false := by decide +kernel

theorem test_ill_window_port : (.hostWindowResponse 2 0 : Instr).wellFormed = false := by decide +kernel

theorem test_ill_sheaf_die : (.sheafTableWrite 8 0 : Instr).wellFormed = false := by decide +kernel

theorem test_ill_task_end_slot : (.taskEnd 0 16 1 : Instr).wellFormed = false := by decide +kernel

/-! ### Words of every instruction, from the formats of R53 and the tables of R56 to R65

An A-class word stands as word 1 of a pair, with marker 0b01; a C-class word as word 0, with marker 0b00. -/

def rrr (major rd ra rb func : Nat) : Nat := major * 2 ^ 23 + rd * 2 ^ 19 + ra * 2 ^ 15 + rb * 2 ^ 11 + func
def rri (major rd ra imm : Nat) : Nat := major * 2 ^ 23 + rd * 2 ^ 19 + ra * 2 ^ 15 + imm
def ri (major rd imm : Nat) : Nat := major * 2 ^ 23 + rd * 2 ^ 19 + imm
def bc (ra rb cond off : Nat) : Nat := 2 * 2 ^ 23 + ra * 2 ^ 19 + rb * 2 ^ 15 + cond * 2 ^ 12 + off
def mem (major r base size off : Nat) : Nat := major * 2 ^ 23 + r * 2 ^ 19 + base * 2 ^ 15 + size * 2 ^ 12 + off
def bf (rd ra op pos wm1 : Nat) : Nat := 0x0B * 2 ^ 23 + rd * 2 ^ 19 + ra * 2 ^ 15 + op * 2 ^ 13 + pos * 2 ^ 7 + wm1 * 2
def mx (major acc ra rb func : Nat) : Nat := major * 2 ^ 23 + acc * 2 ^ 20 + ra * 2 ^ 15 + rb * 2 ^ 11 + func
def sw (major s ra rb func : Nat) : Nat := major * 2 ^ 23 + s * 2 ^ 21 + ra * 2 ^ 15 + rb * 2 ^ 11 + func

/-- Every word of a list decodes to the instruction beside it; A-class words get their marker. -/
def reads (cls : Nat) (l : List (Nat × Instr)) : Bool := l.all fun x => decodeTableWord 32 (cls * 2 ^ 30 + x.1) == some x.2

theorem test_words_integer : reads 1
    [(0, .nopA), (rrr 1 3 4 5 0, .add 3 4 5 .w), (rrr 1 3 4 5 1, .add 3 4 5 .ss), (rrr 1 3 4 5 2, .add 3 4 5 .su),
      (rrr 2 3 4 5 2, .sub 3 4 5 .su), (rrr 3 1 2 3 0, .mul 1 2 3), (rrr 3 1 2 3 1, .mulh 1 2 3),
      (rrr 3 1 2 3 2, .mulhu 1 2 3), (rrr 4 1 2 3 0, .div 1 2 3), (rrr 4 1 2 3 1, .divu 1 2 3),
      (rrr 4 1 2 3 2, .rem 1 2 3), (rrr 4 1 2 3 3, .remu 1 2 3), (rrr 5 1 2 3 0, .and 1 2 3), (rrr 5 1 2 3 1, .or 1 2 3),
      (rrr 5 1 2 3 2, .xor 1 2 3), (rrr 5 1 2 3 3, .andn 1 2 3), (rrr 6 1 2 3 0, .shl 1 2 3), (rrr 6 1 2 3 1, .shr 1 2 3),
      (rrr 6 1 2 3 2, .sar 1 2 3), (rrr 6 1 2 3 3, .rol 1 2 3), (rrr 7 1 2 3 0, .seq 1 2 3), (rrr 7 1 2 3 1, .sne 1 2 3),
      (rrr 7 1 2 3 2, .slt 1 2 3), (rrr 7 1 2 3 3, .sltu 1 2 3), (rrr 8 1 2 3 0, .min 1 2 3), (rrr 8 1 2 3 1, .max 1 2 3),
      (rrr 8 1 2 3 2, .minu 1 2 3), (rrr 8 1 2 3 3, .maxu 1 2 3)] = true := by decide +kernel

theorem test_words_fields_and_immediates : reads 1
    [(rrr 9 1 2 3 (4 * 2 ^ 7), .sel 1 2 3 4), (rrr 0xA 1 2 0 0, .clz 1 2), (rrr 0xA 1 2 0 1, .ctz 1 2),
      (rrr 0xA 1 2 0 2, .popc 1 2), (rrr 0xA 1 2 0 3, .bswap 1 2), (bf 1 2 0 8 55, .ext 1 2 8 55),
      (bf 1 2 1 0 63, .exts 1 2 0 63), (bf 1 2 2 63 0, .ins 1 2 63 0), (rrr 0xC 1 2 3 (4 * 2 ^ 7), .mad 1 2 3 4),
      (rrr 0xD 1 2 3 4, .adds 1 2 3 .s4), (rrr 0xE 1 2 3 0, .crcw 1 2 3 .b), (rrr 0xE 1 2 3 1, .crcw 1 2 3 .h),
      (rrr 0xE 1 2 3 2, .crcw 1 2 3 .w), (rrr 0xE 1 2 3 3, .crcw 1 2 3 .d), (rri 0x10 1 2 0x7FFF, .addi 1 2 0x7FFF),
      (rri 0x11 1 2 0x4000, .andi 1 2 0x4000), (rri 0x12 1 2 1, .ori 1 2 1), (rri 0x13 1 2 2, .xori 1 2 2),
      (rri 0x14 1 2 63, .shli 1 2 63), (rri 0x14 1 2 (2 ^ 13 + 5), .shri 1 2 5), (rri 0x14 1 2 (2 * 2 ^ 13 + 6), .sari 1 2 6),
      (rri 0x15 1 2 0x1FFF, .seqi 1 2 0x1FFF), (rri 0x15 1 2 (2 ^ 13 + 7), .slti 1 2 7),
      (rri 0x15 1 2 (2 * 2 ^ 13 + 8), .sltiu 1 2 8), (ri 0x16 1 0x7FFFF, .movi 1 0x7FFFF),
      (rri 0x19 1 2 3, .muli 1 2 3)] = true := by decide +kernel

theorem test_words_float : reads 1
    [(rrr 0x20 1 2 3 1, .fadd 1 2 3 .dyn .s), (rrr 0x20 1 2 3 2, .fadd 1 2 3 .rne .d), (rrr 0x21 1 2 3 4, .fsub 1 2 3 .rtz .d),
      (rrr 0x22 1 2 3 7, .fmul 1 2 3 .rup .s), (rrr 0x23 1 2 3 (4 * 2 ^ 7 + 8), .ffma 1 2 3 4 .rdn .d),
      (rrr 0x24 1 2 3 1, .fdiv 1 2 3 .dyn .s), (rrr 0x25 1 2 0 0, .fsqrt 1 2 .dyn .d), (rrr 0x26 1 2 3 1, .fmin 1 2 3 .s),
      (rrr 0x26 1 2 3 16, .fmax 1 2 3 .d), (rrr 0x27 1 2 3 0, .feq 1 2 3 .d), (rrr 0x27 1 2 3 17, .flt 1 2 3 .s),
      (rrr 0x27 1 2 3 32, .fle 1 2 3 .d), (rrr 0x27 1 2 3 49, .funo 1 2 3 .s), (rrr 0x28 1 2 3 1, .ftle 1 2 3 .s),
      (rrr 0x29 1 2 12 (9 * 2 ^ 7), .fcvt 1 2 12 9 false .dyn), (rrr 0x29 1 2 13 (9 * 2 ^ 7 + 16 + 2), .fcvt 1 2 13 9 true .rne),
      (rrr 0x2A 1 2 0 (4 * 2 ^ 7 + 5), .fcvti 1 2 4 .rtz .s), (rrr 0x2B 1 2 0 (3 * 2 ^ 7), .icvtf 1 2 3 .dyn .d),
      (rrr 0x2C 1 2 0 1, .fcls 1 2 .s), (rrr 0x2D 1 2 0 1, .ffn 1 2 .exp2 .dyn), (rrr 0x2D 1 2 0 (16 + 1), .ffn 1 2 .log2 .dyn),
      (rrr 0x2D 1 2 0 (32 + 3), .ffn 1 2 .rcp .rne), (rrr 0x2D 1 2 0 (48 + 1), .ffn 1 2 .rsq .dyn),
      (rrr 0x2D 1 2 0 (64 + 1), .ffn 1 2 .tanh .dyn), (rrr 0x2D 1 2 0 (80 + 1), .ffn 1 2 .sigm .dyn),
      (rrr 0x2E 1 2 3 0, .fsel 1 2 3)] = true := by decide +kernel

theorem test_words_vector : reads 1
    [(rrr 0x30 1 2 3 9, .vadd 1 2 3 .dyn 9), (rrr 0x31 1 2 3 0x1A, .vsub 1 2 3 .rne 10), (rrr 0x32 1 2 3 0x2B, .vmul 1 2 3 .rtz 11),
      (rrr 0x33 1 2 3 (4 * 2 ^ 7 + 0x38), .vfma 1 2 3 4 .rup 8), (rrr 0x34 1 2 3 9, .vscl 1 2 3 .dyn 9),
      (rrr 0x35 1 2 3 2, .vmin 1 2 3 .dyn 2), (rrr 0x35 1 2 3 0x83, .vmax 1 2 3 .dyn 3),
      (rrr 0x36 1 2 0 (12 * 2 ^ 7 + 9), .vcvt 1 2 12 .dyn 9), (rrr 0x37 1 2 3 9, .vqnt 1 2 3 .dyn 9),
      (rrr 0x38 1 2 3 9, .vdq 1 2 3 .dyn 9), (rrr 0x39 1 2 0 9, .vred 1 2 .sum .dyn 9), (rrr 0x39 1 2 0 0x89, .vred 1 2 .max .dyn 9),
      (rrr 0x39 1 2 0 0x109, .vred 1 2 .min .dyn 9), (rrr 0x39 1 2 0 0x189, .vred 1 2 .tmax .dyn 9),
      (rrr 0x3A 1 2 3 0x80, .vbdot 1 2 3 true .dyn), (rrr 0x3B 1 2 0 (7 * 2 ^ 7 + 9), .vtopk 1 2 7 .dyn 9),
      (rrr 0x3C 1 2 3 9, .vmrg 1 2 3 0 .dyn 9), (rrr 0x3D 1 2 0 9, .vfn 1 2 .exp2 .dyn 9),
      (rrr 0x3D 1 2 0 (4 * 2 ^ 7 + 9), .vfn 1 2 .gelu .dyn 9), (rrr 0x3D 1 2 0 (7 * 2 ^ 7 + 9), .vfn 1 2 .rsq .dyn 9),
      (rrr 0x3E 1 2 3 9, .vdfn 1 2 3 .dgelu .dyn 9), (rrr 0x3E 1 2 3 (4 * 2 ^ 7 + 9), .vdfn 1 2 3 .drelu .dyn 9),
      (rrr 0x3F 1 2 3 9, .vgth 1 2 3 .dyn 9), (rrr 0x40 1 2 3 0x89, .vsct 1 2 3 true .dyn 9),
      (rrr 0x41 1 2 3 (3 * 2 ^ 7 + 9), .vcmp 1 2 3 .le .dyn 9), (rrr 0x42 1 2 3 (4 * 2 ^ 7 + 9), .vmsel 1 2 3 4 .dyn 9),
      (rrr 0x43 1 2 0 3, .viota 1 2 .dyn 3), (rrr 0x44 1 2 0 9, .vpfx 1 2 .dyn 9), (rrr 0x45 1 2 0 0, .vstat 1 2 .dyn),
      (rrr 0x46 1 2 0 0, .setvl 1 2), (rrr 0x47 1 2 0 14, .vcpy 1 2 .dyn 14)] = true := by decide +kernel

theorem test_words_matrix : reads 1
    [(mx 0x50 7 0 0 5, .mma 7 true false true), (mx 0x50 7 0 0 2, .mma 7 false true false), (mx 0x51 1 0 0 0, .mmas 1 false false false),
      (mx 0x52 2 0 0 1, .mmr 2 true), (mx 0x53 3 4 5 0, .mmg 3 4 5 false), (mx 0x54 4 0 0 0, .aclr 4), (mx 0x55 5 6 0 0, .amovLd 5 6),
      (mx 0x55 5 6 0 1, .amovSt 5 6), (mx 0x57 0 0 0 1, .qpop true), (rrr 0x58 1 0 0 0, .qlvl 1), (rrr 0x59 1 7 0 0, .astat 1 7),
      (rrr 0x5A 0 0 0 0, .mwake)] = true := by decide +kernel

theorem test_words_control_and_tasks : reads 0
    [(0, .nopC), (rri 1 0 0 0x7FFF, .br 0x7FFF), (bc 1 2 0 0xFFF, .beq 1 2 0xFFF), (bc 1 2 1 3, .bne 1 2 3), (bc 1 2 2 3, .blt 1 2 3),
      (bc 1 2 3 3, .bge 1 2 3), (bc 1 2 4 3, .bltu 1 2 3), (bc 1 2 5 3, .bgeu 1 2 3), (rri 3 6 0 2, .bz 6 2), (rri 3 6 1 0x7FFE, .bnz 6 0x7FFE),
      (rri 4 8 0 0, .loop 8 0), (rri 5 0 0 4, .call 4), (rri 6 15 0 0, .jr 15 0), (rri 7 1 0 2, .callr 1 2), (ri 8 0 0x12345, .brk 0x12345),
      (rrr 9 4 0 0 0, .await 4), (rrr 0x10 0 3 0 0, .spawn 3), (rrr 0x11 0 0 0 0, .tdone), (rrr 0x12 0 0 0 0, .tyld),
      (rrr 0x13 7 2 3 0, .chset 7 2 3), (rrr 0x14 1 7 0 0, .chunk 1 7), (rrr 0x15 0 2 0 0, .barc 2), (rrr 0x16 1 0 0 0, .barr 1),
      (rrr 0x17 0 2 0 0, .barw 2), (rrr 0x18 1 2 3 0, .stgp 1 2 3), (rrr 0x19 0 2 3 0, .stgf 2 3), (rrr 0x1A 1 2 3 0, .stgw 1 2 3),
      (rrr 0x1B 0 2 3 0, .stge 2 3), (rri 0x1C 0 0 5, .hspawn 5), (rrr 0x1D 0 0 0 0, .hstop), (rrr 0x1E 1 7 0 0, .tsrd 1 7)] = true := by
  decide +kernel

theorem test_words_memory_and_atomics : reads 0
    [(mem 0x20 1 2 4 0x800, .ld 1 2 true .b 0x800), (mem 0x20 1 2 3 8, .ld 1 2 false .d 8), (mem 0x21 1 2 2 8, .st 1 2 .w 8),
      (mem 0x22 14 2 3 8, .ldp 14 2 8), (mem 0x23 14 2 3 8, .stp 14 2 8), (mem 0x24 1 2 3 8, .ldf 1 2 8), (mem 0x25 1 2 3 8, .ldw 1 2 8),
      (mem 0x26 1 2 3 8, .stf 1 2 8), (mem 0x27 0 2 3 8, .sete 2 8), (mem 0x28 1 2 3 8, .fest 1 2 8), (mem 0x30 1 2 5 8, .old 1 2 true .h 8),
      (mem 0x31 1 2 1 8, .ost 1 2 .h 8), (rrr 0x32 1 2 0 15, .orq 1 2 15), (rrr 0x33 1 2 0 0, .oprb 1 2), (rrr 0x34 1 2 3 0, .oref 1 2 3),
      (mem 0x35 1 2 2 8, .oldc 1 2 false .w 8), (rrr 0x40 1 2 3 1, .aadd 1 2 3 .w), (rrr 0x41 1 2 3 0, .aincb 1 2 3 .d),
      (rrr 0x42 1 2 3 0, .amin 1 2 3 false .d), (rrr 0x42 1 2 3 9, .amin 1 2 3 true .w), (rrr 0x42 1 2 3 2, .amax 1 2 3 false .d),
      (rrr 0x42 1 2 3 11, .amax 1 2 3 true .w), (rrr 0x42 1 2 3 4, .aminu 1 2 3 .d), (rrr 0x42 1 2 3 7, .amaxu 1 2 3 .w),
      (rrr 0x43 1 2 3 0, .aand 1 2 3 .d), (rrr 0x43 1 2 3 2, .aor 1 2 3 .d), (rrr 0x43 1 2 3 5, .axor 1 2 3 .w), (rrr 0x44 1 2 3 0, .aswp 1 2 3 .d),
      (rrr 0x45 1 2 3 1, .acas 1 2 3 .w), (rrr 0x46 0 2 3 3, .red 2 3 .fadd .w), (rrr 0x46 0 2 3 8, .red 2 3 .sadd .d),
      (mem 0x47 1 2 0 8, .ldc 1 2 false .b 8), (mem 0x48 1 2 4 8, .ldacq 1 2 .sys 8), (mem 0x49 1 2 1 8, .strel 1 2 .clus 8),
      (rrr 0x4A 0 0 0 (2 * 4 + 1), .fence .die .acq), (rrr 0x4A 0 0 0 2, .fence .core .rel)] = true := by decide +kernel

theorem test_words_copies_and_messages : reads 0
    [(rrr 0x50 0 2 0 0, .mbxw 2), (rrr 0x50 0 2 3 1, .mbxwMovement 2 3), (rrr 0x51 1 0 0 0, .mbxr 1), (rrr 0x51 1 2 0 1, .mbxrMovement 1 2),
      (rrr 0x52 1 2 0 1, .cpy 1 2 true), (rrr 0x53 1 2 0 1, .cpyt 1 2 true), (rrr 0x54 1 2 0 0, .cpyf 1 2 false), (rrr 0x55 1 2 0 1, .cpyg 1 2 true),
      (rrr 0x56 1 2 0 0, .pfch 1 2), (rrr 0x57 1 2 0 0, .evct 1 2), (rrr 0x58 0 2 0 0, .xwait 2), (rrr 0x58 1 2 3 1, .xwaitT 1 2 3),
      (rrr 0x59 1 2 0 0, .xstat 1 2), (rrr 0x5A 0 2 0 0, .kick 2), (rrr 0x5B 0 2 3 0, .mbxd 2 3), (rrr 0x60 0 2 3 0, .send 2 3),
      (rrr 0x61 0 2 3 0, .sendw 2 3), (rrr 0x62 1 2 0 0, .cont 1 2), (rrr 0x63 0 2 0 0, .migr 2), (rrr 0x64 0 0 0 0, .home),
      (rrr 0x65 0 2 3 3, .rst 2 3 .d), (rrr 0x66 1 2 0 0, .jrnl 1 2)] = true := by decide +kernel

theorem test_words_groups_swaths_and_system : reads 0
    [(rrr 0x68 7 2 0 0, .gst 7 2), (rrr 0x69 1 7 0 0, .gld 1 7), (rrr 0x6A 1 7 0 0, .gseq 1 7), (rrr 0x6B 7 2 0 0, .gabt 7 2),
      (rrr 0x6C 7 2 3 0, .cmc 7 2 3), (rrr 0x6D 7 2 3 (3 * 8 + 4), .gcol 7 2 3 3 .bar), (rrr 0x6D 7 2 3 2, .gcol 7 2 3 0 .ag),
      (rrr 0x6E 7 2 3 7, .wnw 7 2 3 7), (sw 0x70 3 2 4 0, .swopen 3 2 4), (sw 0x71 3 0 0 0, .swclose 3), (sw 0x72 3 2 4 7, .fwm 3 2 4 7),
      (sw 0x73 3 2 4 7, .fwg 3 2 4 7), (sw 0x74 3 2 4 0, .fwa 3 2 4), (sw 0x75 3 2 4 0, .rply 3 2 4 false), (sw 0x75 3 2 4 1, .rply 3 2 4 true),
      (sw 0x76 3 0 4 1, .swqry 3 4 .counts), (sw 0x77 3 2 4 0, .swdrop 3 2 4), (ri 0x78 0 5, .trap 5), (rrr 0x79 0 0 0 0, .tret),
      (ri 0x7A 1 0, .srd 1 .tsw), (ri 0x7B 1 6, .swr 1 .vl), (rrr 0x7C 0 2 3 0, .orw 2 3), (rrr 0x7C 0 2 0 1, .orinv 2),
      (rrr 0x7C 0 2 3 2, .ormov 2 3), (rrr 0x7D 0 2 3 0, .plcSwap 2 3), (rrr 0x7D 0 2 3 1, .plcMigx 2 3), (rrr 0x7D 0 2 3 2, .plcFold 2 3),
      (rrr 0x7D 0 2 0 3, .plcSeal 2), (rrr 0x7E 0 0 0 1, .dualOn), (rrr 0x7E 0 0 0 0, .dualOff), (rrr 0x7F 0 2 0 0, .qsc 2)] = true := by
  decide +kernel

/-- The worked bundles of chapter 3 and R68. -/
theorem test_worked_bundles :
    decodeBundle 0x10193000 0x48110008 = .ok (.pair (.ld 3 2 false .d 0) (.addi 2 2 8)) ∧
    decodeBundle 0xCBA00000 0x12000400 = .ok (.loneA (.movx 4 0x12000400)) ∧
    decodeBundle 0x81B0FFFE 0 = .ok (.loneC (.bnz 6 0x7FFE)) ∧
    decodeBundle 0x02400000 0x68000000 = .ok (.pair (.loop 8 0) (.mma 0 false false false)) := ⟨rfl, rfl, rfl, rfl⟩

/-- MOVHX and DRN, which have an extension word (R51, R59). -/
theorem test_words_with_extension :
    decodeBundle (3 * 2 ^ 30 + ri 0x18 5 0) 0xFFFFFFFF = .ok (.loneA (.movhx 5 0xFFFFFFFF)) ∧
    decodeBundle (3 * 2 ^ 30 + mx 0x56 0 6 0 0x180) 0x7000 =
      .ok (.loneA (.drn 0 6 true true false false false .none ⟨7, 0, 0, 0⟩)) ∧
    decodeBundle (3 * 2 ^ 30 + mx 0x56 1 6 0 0x72) 0x321 =
      .ok (.loneA (.drn 1 6 false false true true true .gelu ⟨0, 3, 2, 1⟩)) := ⟨rfl, rfl, rfl⟩

def isError {α β : Type} : Except α β → Bool
  | .error _ => true
  | .ok _ => false

/-- Encodings that R50, R51, R55 to R68 make ILLEGAL. -/
theorem test_illegal_bundles :
    ([(0x40000000, 0x40000000), (0, 0), (rrr 1 1 2 3 0, 0x40000000), (rrr 0xA 1 2 3 0, 0x40000000), (0, 2 ^ 30 + rrr 1 1 2 3 3),
      (0, 2 ^ 30 + rrr 3 1 2 3 3), (0, 2 ^ 30 + bf 1 2 0 60 4), (0, 2 ^ 30 + bf 1 2 3 0 0), (0, 2 ^ 30 + rrr 0xD 1 2 3 5),
      (0, 2 ^ 30 + rrr 0x0F 0 0 0 0), (0, 2 ^ 30 + rrr 0x20 1 2 3 10), (0, 2 ^ 30 + rrr 0x2D 1 2 0 0), (0, 2 ^ 30 + rrr 0x2D 1 2 0 0x61),
      (0, 2 ^ 30 + ri 0x17 1 0), (2 ^ 31, 1), (bc 1 2 6 0, 2 ^ 30), (rri 3 1 2 0, 2 ^ 30), (mem 0x20 1 2 7 0, 2 ^ 30),
      (mem 0x22 1 2 3 0, 2 ^ 30), (mem 0x24 1 2 2 0, 2 ^ 30), (rrr 0x42 1 2 3 8, 2 ^ 30), (rrr 0x42 1 2 3 13, 2 ^ 30),
      (rrr 0x46 0 2 3 10, 2 ^ 30), (rrr 0x4A 0 0 0 0, 2 ^ 30), (rrr 0x4A 0 0 0 (5 * 4 + 1), 2 ^ 30), (rrr 0x6D 1 2 3 5, 2 ^ 30),
      (sw 0x76 0 0 1 3, 2 ^ 30), (ri 0x7A 1 0xFFF, 2 ^ 30), (rrr 0x7C 0 1 2 3, 2 ^ 30),
      (rri 4 8 0 0, 2 ^ 30 + rri 0x10 8 8 1), (mem 0x20 0 2 3 0, 2 ^ 30 + rri 0x10 0 1 1), (rri 5 0 0 0, 2 ^ 30 + ri 0x16 15 0),
      (3 * 2 ^ 30 + mx 0x56 0 6 0 0x100, 0), (3 * 2 ^ 30 + mx 0x56 0 6 0 0x40, 0), (3 * 2 ^ 30 + mx 0x56 0 6 0 8, 0),
      (3 * 2 ^ 30 + mx 0x56 0 6 0 0, 1)] : List (Nat × Nat)).all (fun x => isError (decodeBundle x.1 x.2)) = true := by decide +kernel

/-- Pairs that R68 allows. -/
theorem test_legal_pairs :
    isError (decodeBundle (mem 0x26 4 0 3 0x200) (2 ^ 30 + rri 0x10 4 4 1)) = false := by decide +kernel

/-! ### One step of the register instructions (R105-R120, R94-R100, R129-R134) -/

/-- The instruction gives a next state in which register 1 holds w, every other register what it held. -/
def gives (i : Instr) (l : List (Reg × Word)) (w : Word) : Bool :=
  ran (exec i (on (regs l))) fun t => has 1 w t && (t.me.regs.g == (vput (regs l).g 1 w))

def allGive (l : List (Instr × List (Reg × Word) × Word)) : Bool := l.all fun x => gives x.1 x.2.1 x.2.2

theorem test_sums_and_products : allGive
    [(.add 1 2 3 .w, [(2, 0xFFFFFFFFFFFFFFFF), (3, 1)], 0), (.add 1 2 3 .ss, [(2, 0x7FFFFFFFFFFFFFF0), (3, 0x20)], 0x7FFFFFFFFFFFFFFF),
      (.add 1 2 3 .su, [(2, 0xFFFFFFFFFFFFFFF0), (3, 0x20)], 0xFFFFFFFFFFFFFFFF), (.sub 1 2 3 .w, [(2, 0), (3, 1)], 0xFFFFFFFFFFFFFFFF),
      (.sub 1 2 3 .ss, [(2, 0x8000000000000000), (3, 1)], 0x8000000000000000), (.sub 1 2 3 .su, [(2, 0), (3, 1)], 0),
      (.mul 1 2 3, [(2, 0x8000000000000000), (3, 2)], 0), (.mulh 1 2 3, [(2, 0xFFFFFFFFFFFFFFFF), (3, 1)], 0xFFFFFFFFFFFFFFFF),
      (.mulhu 1 2 3, [(2, 0xFFFFFFFFFFFFFFFF), (3, 0xFFFFFFFFFFFFFFFF)], 0xFFFFFFFFFFFFFFFE), (.mad 1 2 3 4, [(2, 3), (3, 4), (4, 5)], 17),
      (.addi 1 2 0x7FFF, [(2, 5)], 4), (.muli 1 2 0x7FFE, [(2, 3)], 0xFFFFFFFFFFFFFFFA), (.adds 1 2 3 .s4, [(2, 1), (3, 3)], 49),
      (.movi 1 0x40000, [], 0xFFFFFFFFFFFC0000), (.movx 1 0x80000000, [], 0xFFFFFFFF80000000),
      (.movhx 1 0x12345678, [(1, 0xAAAAAAAA9ABCDEF0)], 0x123456789ABCDEF0)] = true := by decide +kernel

/-- R107: g8 = −7 and g9 = 2 give −3 and −1; the zero divisor; the overflow. -/
theorem test_division : allGive
    [(.div 1 8 9, [(8, -7), (9, 2)], -3), (.rem 1 8 9, [(8, -7), (9, 2)], -1), (.div 1 8 9, [(8, 7)], -1), (.rem 1 8 9, [(8, 7)], 7),
      (.divu 1 8 9, [(8, 7)], 0xFFFFFFFFFFFFFFFF), (.remu 1 8 9, [(8, 7)], 7), (.divu 1 8 9, [(8, -7), (9, 2)], 0x7FFFFFFFFFFFFFFC),
      (.remu 1 8 9, [(8, -7), (9, 2)], 1)] = true := by decide +kernel

theorem test_division_overflow : allGive
    [(.div 1 8 9, [(8, 0x8000000000000000), (9, -1)], 0x8000000000000000), (.rem 1 8 9, [(8, 0x8000000000000000), (9, -1)], 0)] =
      true := by decide +kernel

theorem test_logic_and_shifts : allGive
    [(.and 1 2 3, [(2, 0xC), (3, 0xA)], 8), (.or 1 2 3, [(2, 0xC), (3, 0xA)], 0xE), (.xor 1 2 3, [(2, 0xC), (3, 0xA)], 6),
      (.andn 1 2 3, [(2, 0xC), (3, 0xA)], 4), (.andi 1 2 0x7FFC, [(2, 0xFFFFFFFFFFFFFFFF)], 0xFFFFFFFFFFFFFFFC),
      (.ori 1 2 0x7FFF, [], 0x7FFF), (.xori 1 2 0x4001, [(2, 1)], 0x4000), (.shl 1 2 3, [(2, 1), (3, 64)], 0),
      (.shr 1 2 3, [(2, 0x8000000000000000), (3, 2 ^ 32)], 0), (.sar 1 2 3, [(2, 0x8000000000000000), (3, 100)], 0xFFFFFFFFFFFFFFFF),
      (.rol 1 2 3, [(2, 0x8000000000000001), (3, 65)], 3), (.shli 1 2 63, [(2, 1)], 0x8000000000000000),
      (.shri 1 2 63, [(2, 0x8000000000000000)], 1), (.sari 1 2 63, [(2, 0x8000000000000000)], 0xFFFFFFFFFFFFFFFF)] = true := by
  decide +kernel

theorem test_comparisons_and_selection : allGive
    [(.seq 1 2 3, [(2, 5), (3, 5)], 1), (.sne 1 2 3, [(2, 5), (3, 5)], 0), (.slt 1 2 3, [(2, -1), (3, 1)], 1),
      (.sltu 1 2 3, [(2, -1), (3, 1)], 0), (.seqi 1 2 0x1FFF, [(2, -1)], 1), (.slti 1 2 0x1FFF, [(2, -2)], 1),
      (.sltiu 1 2 0x1FFF, [(2, 5)], 1), (.min 1 2 3, [(2, -1), (3, 1)], -1), (.max 1 2 3, [(2, -1), (3, 1)], 1),
      (.minu 1 2 3, [(2, -1), (3, 1)], 1), (.maxu 1 2 3, [(2, -1), (3, 1)], -1), (.sel 1 2 3 4, [(2, 5), (3, 6), (4, 2 ^ 63)], 5),
      (.sel 1 2 3 0, [(2, 5), (3, 6)], 6)] = true := by decide +kernel

theorem test_fields_and_counts : allGive
    [(.ext 1 2 4 7, [(2, 0xABCD)], 0xBC), (.exts 1 2 4 7, [(2, 0xABCD)], 0xFFFFFFFFFFFFFFBC), (.ins 1 2 4 3, [(1, 0x1234), (2, 0xFF)], 0x12F4),
      (.exts 1 2 0 63, [(2, -2)], -2), (.clz 1 2, [], 64), (.clz 1 2, [(2, 1)], 63), (.ctz 1 2, [(2, 8)], 3), (.ctz 1 2, [], 64),
      (.popc 1 2, [(2, 0xFFFFFFFFFFFFFFFF)], 64), (.bswap 1 2, [(2, 0x0102030405060708)], 0x0807060504030201)] = true := by decide +kernel

/-- CRC-32C of the nine digits is 0xE3069283: the running value before the last inversion (R117). -/
theorem test_crc : allGive
    [(.crcw 1 2 3 .d, [(2, 0xFFFFFFFF), (3, 0x3837363534333231)], 0x9F787F65),
      (.crcw 1 2 3 .b, [(2, 0x9F787F65), (3, 0x39)], 0x1CF96D7C)] = true := by decide +kernel

/-- g0 discards what is written to it (R101). -/
theorem test_g0 : ran (exec (.addi 0 0 5) (on (regs [(1, 7)]))) (fun t => t == on (regs [(1, 7)])) = true ∧
    ran (exec .nopA (on (regs [(1, 7)]))) (fun t => t == on (regs [(1, 7)])) = true ∧
    ran (exec .nopC (on (regs [(1, 7)]))) (fun t => t == on (regs [(1, 7)])) = true := by decide +kernel

/-- The examples of R95 to R99, and values of IEEE 754. -/
theorem test_float_arithmetic : allGive
    [(.fadd 1 2 3 .rne .d, [(2, 0x3FF0000000000000), (3, 0x4000000000000000)], 0x4008000000000000),
      (.fadd 1 2 3 .dyn .s, [(2, 0x7F800000), (3, 0xFF800000)], 0x7FC00000), (.fsub 1 2 3 .rdn .s, [(2, 0x3F800000), (3, 0x3F800000)], 0x80000000),
      (.fsub 1 2 3 .rne .s, [(2, 0x3F800000), (3, 0x3F800000)], 0), (.fmul 1 2 3 .dyn .s, [(2, 0x40000000), (3, 0x40400000)], 0x40C00000),
      (.ffma 1 2 3 4 .dyn .d, [(2, 0x4000000000000000), (3, 0x4008000000000000), (4, 0x3FF0000000000000)], 0x401C000000000000),
      (.fdiv 1 2 3 .rne .s, [(2, 0x3F800000), (3, 0x40400000)], 0x3EAAAAAB), (.fdiv 1 2 3 .rtz .s, [(2, 0x3F800000), (3, 0x40400000)], 0x3EAAAAAA),
      (.fsqrt 1 2 .rne .d, [(2, 0x4000000000000000)], 0x3FF6A09E667F3BCD), (.fsqrt 1 2 .rne .s, [(2, 0xBF800000)], 0x7FC00000)] = true := by
  decide +kernel

theorem test_float_comparisons : allGive
    [(.fmin 1 2 3 .s, [(2, 0x80000000), (3, 0)], 0x80000000), (.fmax 1 2 3 .s, [(2, 0x80000000), (3, 0)], 0),
      (.feq 1 2 3 .s, [(2, 0x80000000), (3, 0)], 1), (.flt 1 2 3 .d, [(2, 0x3FF0000000000000), (3, 0x4000000000000000)], 1),
      (.fle 1 2 3 .s, [(2, 0x80000000), (3, 0)], 1), (.funo 1 2 3 .s, [(2, 0x7F800001), (3, 0)], 1), (.funo 1 2 3 .s, [(2, 0x7F800000), (3, 0)], 0),
      (.ftle 1 2 3 .s, [(2, 0x80000000), (3, 0)], 1), (.ftle 1 2 3 .s, [(2, 0), (3, 0x80000000)], 0), (.fcls 1 2 .s, [(2, 0x7FC00000)], 0x200),
      (.fcls 1 2 .s, [(2, 0x80000000)], 8)] = true := by decide +kernel

theorem test_float_conversions : allGive
    [(.fcvt 1 2 12 9 false .dyn, [(2, 0x41880000)], 0x58), (.fcvti 1 2 0 .rtz .s, [(2, 0xC348B333)], -128),
      (.fcvti 1 2 0 .rne .s, [(2, 0x40200000)], 2), (.fcvti 1 2 1 .dyn .s, [(2, 0xC0400000)], 0),
      (.icvtf 1 2 4 .rtz .s, [(2, 0x1000001)], 0x4B800000), (.icvtf 1 2 4 .rne .d, [(2, -1)], 0xBFF0000000000000),
      (.ffn 1 2 .exp2 .dyn, [(2, 0xC0000000)], 0x3E800000), (.ffn 1 2 .rcp .rne, [(2, 0x40000000)], 0x3F000000)] = true := by decide +kernel

/-- The running thread has trapped with this cause's code (R329) and TVAL. -/
def trapped (code : Word) (v : Word) (t : State) : Bool :=
  t.me.regs.tcause == code && t.me.regs.tval == v && t.me.regs.tsw.getLsbD 4 && t.cur.out == .trap

/-- .NS with another destination than E5M2, and an integer format above 4, trap FORMAT (R96, R97). -/
theorem test_float_format_traps : ran (exec (.fcvt 1 2 12 9 true .dyn) (on (regs []))) (trapped 0x0C 0) = true ∧
    ran (exec (.fcvti 1 2 5 .dyn .s) (on (regs []))) (trapped 0x0C 0) = true ∧
    ran (exec (.icvtf 1 2 5 .dyn .s) (on (regs []))) (trapped 0x0C 0) = true := by decide +kernel

/-- A thread at bundle 0x100 whose PC stands at the next one (R129). -/
def at' (l : List (Reg × Word)) : State :=
  let s := on { regs l with pc := 0x108 }
  { s with cur := { s.cur with ipc := 0x100 } }

def goes (i : Instr) (l : List (Reg × Word)) (pc : BitVec 38) : Bool := ran (exec i (at' l)) fun t => t.me.regs.pc == pc

theorem test_branches : ([(.br 0x7FFE, [], 0xF0), (.beq 1 2 3, [], 0x118), (.bne 1 2 3, [], 0x108), (.blt 1 2 0xFFF, [(1, -1)], 0xF8),
      (.bge 1 2 3, [(1, -1)], 0x108), (.bltu 1 2 3, [(1, -1)], 0x108), (.bgeu 1 2 3, [(1, -1)], 0x118), (.bz 1 4, [], 0x120),
      (.bnz 1 0x7FFF, [(1, 2 ^ 63)], 0xF8), (.loop 8 0x7FFF, [(8, 2)], 0xF8), (.loop 8 0x7FFF, [(8, 1)], 0x108), (.call 2, [], 0x110),
      (.jr 15 0, [(15, 0x2000)], 0x2000), (.callr 1 0x7FFF, [(1, 0x2000)], 0x1FF8)] : List (Instr × List (Reg × Word) × BitVec 38)).all
      (fun x => goes x.1 x.2.1 x.2.2) = true := by decide +kernel

/-- CALL and CALLR link, LOOP decrements, JR to an odd address traps ALIGN with it (R131, R132). -/
theorem test_links_and_targets : ran (exec (.call 2) (at' [])) (has 15 0x108) = true ∧
    ran (exec (.callr 1 0) (at' [(1, 0x2000)])) (has 15 0x108) = true ∧ ran (exec (.loop 8 1) (at' [])) (has 8 (-1)) = true ∧
    ran (exec (.jr 1 0) (at' [(1, 0x2004)])) (trapped 3 0x2004) = true ∧ ran (exec (.callr 1 0) (at' [(1, 2 ^ 38)])) (trapped 3 (2 ^ 38)) = true := by
  decide +kernel

/-- BRK and TRAP save the bundle's address and their code (R133, R332, R334); R334's cause is 0x17. -/
theorem test_break_and_system_call :
    ran (exec (.brk 0x12345) (at' [])) (fun t => trapped 0x18 0x12345 t && t.me.regs.tepc == 0x100) = true ∧
    ran (exec (.trap 5) (at' [])) (fun t => trapped 0x17 5 t && t.me.regs.tepc == 0x100) = true := by decide +kernel

/-- AWAIT of a marked register takes the mark; of an unmarked one it leaves the rotation (R134). -/
theorem test_await : ran (exec (.await 4) (on { regs [] with tsw := 2 ^ 14 })) (fun t => t.me.regs.tsw == 0 && t.cur.out == .done) = true ∧
    ran (exec (.await 4) (on (regs []))) (fun t => t.cur.out == .parked && t.me.pendC.isSome) = true := by decide +kernel

/-! ### Witnesses and steps: registers, control, traps and system registers

A `witness_…` theorem shows a state and operands that meet the hypotheses of the obligation of that name, clause by
clause. -/

theorem witness_Division : (on (regs [(8, 0x8000000000000000), (9, -1)])).g 9 ≠ 0 ∧
    ((on (regs [(8, 0x8000000000000000), (9, -1)])).g 8).toInt = -2 ^ 63 ∧ ((on (regs [(8, 0x8000000000000000), (9, -1)])).g 9).toInt = -1 ∧
    (on (regs [(8, 7)])).g 9 = 0 ∧ ((on (regs [(8, -7), (9, 2)])).g 9).toInt ≠ -1 := by decide +kernel

theorem witness_LogicShiftsAndSelection_ComparisonsAndSelection : (on (regs [(4, 1)])).g 4 ≠ 0 ∧ (on (regs [(4, 1)])).g 0 = 0 := by decide +kernel

theorem witness_FieldsCountsAndCrc_BitFields : (63 : BitVec 6).toNat + (0 : BitVec 6).toNat < 64 ∧ (0 : BitVec 6).toNat + (63 : BitVec 6).toNat < 64 := by
  decide +kernel

theorem witness_FieldsCountsAndCrc_RunningCrc : (Size.d, 8) ∈ [(Size.b, 1), (.h, 2), (.w, 4), (.d, 8)] := by decide +kernel

def sFloat : State := on { regs [(2, 0x7F800000), (3, 0xFF800000), (4, 0x7F800001), (5, 0xBF800000), (6, 0x80000000)] with rmode := 3 }

theorem witness_FloatArithmetic : (FpSel.s, f32) ∈ [(FpSel.d, f64), (.s, f32)] ∧
    (Rnd.dyn, Mode.rdn) ∈ [(Rnd.dyn, Mode.ofCode (bits sFloat.cur.src.rmode 1 0)), (.rne, .rne), (.rtz, .rtz), (.rup, .rup), (.rdn, .rdn)] := by
  decide +kernel

theorem witness_FloatArithmetic_CanonicalNan : f32.value (sFloat.g 4).toNat = .nan ∧ f32.value (sFloat.g 2).toNat = .inf false ∧
    f32.value (sFloat.g 3).toNat = .inf true ∧ (∃ m e, f32.value (sFloat.g 5).toNat = .fin true m e ∧ m ≠ 0) ∧
    (∃ e, f32.value (sFloat.g 6).toNat = .fin true 0 e) ∧
    (f32.value (sFloat.g 2).toNat).mul (f32.value (sFloat.g 5).toNat) = .inf (!false) ∧ f32.value (sFloat.g 2).toNat = .inf false := by
  refine ⟨rfl, rfl, rfl, ⟨_, _, rfl, by decide⟩, ⟨_, rfl⟩, rfl, rfl⟩

/-- ∞ · −1 plus +∞ in FFMA is invalid (R94). -/
theorem test_ffma_invalid : allGive [(.ffma 1 2 3 4 .rne .s, [(2, 0x7F800000), (3, 0xBF800000), (4, 0x7F800000)], 0x7FC00000)] = true := by
  decide +kernel

theorem witness_RoundingGivesEncodings : f32.value 0x3F800000 ≠ .nan ∧ 0x3F800000 < 2 ^ 32 := by decide +kernel

theorem witness_FloatComparisonsAndConversions_FloatComparisons : f32.value ((sFloat.g 2).toNat % 2 ^ 32) ≠ .nan ∧ f32.value ((sFloat.g 6).toNat % 2 ^ 32) ≠ .nan := by
  decide +kernel

theorem witness_FloatComparisonsAndConversions_FloatConversions : 8 ≤ (8 : BitVec 4).toNat ∧ (14 : BitVec 4).toNat ≤ 14 ∧ 8 ≤ (15 : BitVec 4).toNat ∧ (13 : BitVec 4).toNat = 13 ∧
    ¬(8 ≤ (7 : BitVec 4).toNat) ∧
    (12 : BitVec 4) ≠ 13 ∧ elemValue 13 (((on (regs [(2, 0x7C)])).g 2).toNat % 2 ^ fmtBits 13) ≠ .nan ∧ (4 : BitVec 4).toNat ≤ 4 ∧ 4 < (5 : BitVec 4).toNat ∧ (f32.value (sFloat.g 4).toNat = .nan) := by
  decide +kernel

/-- Each special value of R92's table (FFN's statement has one clause for each). -/
theorem witness_FunctionsAndFormatChoice_ElementaryFunctions : f32.value ((sFloat.g 4).toNat % 2 ^ 32) = .nan ∧ f32.value ((sFloat.g 2).toNat % 2 ^ 32) = .inf false ∧
    f32.value ((sFloat.g 3).toNat % 2 ^ 32) = .inf true ∧ (∃ e, f32.value ((sFloat.g 6).toNat % 2 ^ 32) = .fin true 0 e) ∧
    ((on (regs [(1, 0x3F800000)])).g 1).setWidth 32 = (0x3F800000 : BitVec 32) ∧
    (∃ k e, f32.value ((sFloat.g 5).toNat % 2 ^ 32) = .fin true k e ∧ k ≠ 0) := ⟨rfl, rfl, rfl, ⟨_, rfl⟩, rfl, ⟨_, _, rfl, by decide⟩⟩

/-- TANH of 1: both ends of the interval round to the same value. -/
theorem witness_FunctionsAndFormatChoice_ElementaryFunctions_interval : ∃ k e, f32.value 0x3F800000 = .fin false k e ∧
    f32.round .rne false ((fnOf .tanh).interval false k e).1 = f32.round .rne false ((fnOf .tanh).interval false k e).2 :=
  ⟨_, _, rfl, by decide +kernel⟩

/-- LOG2 and RSQ of −1 (R92), and an infinity in one format (R96). -/
theorem test_negative_functions : allGive [(.ffn 1 2 .log2 .dyn, [(2, 0xBF800000)], 0x7FC00000), (.ffn 1 2 .rsq .dyn, [(2, 0xBF800000)], 0x7FC00000),
      (.fcvt 1 2 13 13 false .dyn, [(2, 0x7C)], 0x7C)] = true := by decide +kernel

theorem witness_ControlFlow_LoopsCallsAndJumps :
    (∃ t : Int, t = ((on (regs [(1, 0x3FFFFFFFF8)])).g 1).toNat + 8 * (0 : BitVec 15).toInt ∧ t = 2 ^ 38 - 8 ∧ t % 8 = 0) ∧
    (∃ t : Int, t = ((on (regs [])).g 1).toNat + 8 * (0x7FFF : BitVec 15).toInt ∧ t < 0) := ⟨⟨_, rfl, by decide, by decide⟩, ⟨_, rfl, by decide⟩⟩

theorem witness_ControlFlow_AwaitTakesTheMark : (on { regs [] with tsw := 2 ^ 25 }).me.regs.tsw.getLsbD (10 + (15 : Reg).val) = true ∧
    (on { regs [] with tsw := 2 ^ 24 }).me.regs.tsw.getLsbD (10 + (15 : Reg).val) = false := by decide +kernel

/-- A task at bundle 0x100 with its handler at 0x4000, in user mode with PS set. -/
def sTrap : State := at' [] |>.updRegs fun x => { x with tvec := 0x4000, tsw := 2 ^ 5, tepc := 0x208 }

/-- The same with a half out, whose bundle found g1 = 7. -/
def sUndo : State := sTrap.updMe fun x => { x with undo := some ({ x.regs with g := (regs [(1, 7)]).g }, 0) }

theorem witness_TrapEntryAndReturn_TrapEntry : (∀ k, sTrap.me.life ≠ .helper k) ∧
    (∀ k, sTrap.fetchAt (sTrap.me.regs.tvec.setWidth 38) ≠ .fault k) ∧ sTrap.me.undo = none ∧
    (∀ k, sUndo.me.life ≠ .helper k) ∧ sUndo.me.undo.isSome = true ∧
    (∀ k, sUndo.fetchAt ((0x4000 : Word).setWidth 38) ≠ .fault k) :=
  ⟨by decide +kernel, fun k h => (by cases h), rfl, by decide +kernel, rfl, fun k h => (by cases h)⟩

/-- A trap after issue gives the bundle's registers back (R36), but not the limit failure of R157. -/
theorem test_undo : (sUndo.trap .checkFail 0).me.regs.g.get 1 = 7 ∧ (sUndo.trap .localRange 0).me.regs.g.get 1 = 0 := by decide +kernel

/-- The fetch of the handler finds its bytes in a booted package too. -/
theorem witness_TrapEntryAndReturn_TrapEntry_placed : ∃ a, (State.reset.withFetchWord 32 0).fetchAt 0 = .bytes a := ⟨_, rfl⟩

theorem test_trap_entry : (let t := (sTrap.updRegs fun x => { x with tsw := 2 ^ 4 }).trap .align 0xABC
    t.me.regs.tepc == 0x100 && t.me.regs.tcause == 3 && t.me.regs.tval == 0xABC && t.me.regs.pc == 0x4000 && t.me.regs.tsw == 2 ^ 4 + 2 ^ 5) = true := by
  decide +kernel

def sHelper : State :=
  let s := on (regs [(1, 7)])
  s.updMe fun x => { x with life := .helper 3 }

theorem witness_TrapEntryAndReturn_TrapInHelper : sHelper.me.life = .helper 3 := rfl

theorem test_trap_in_helper : ((sHelper.trap .align 8).me == { regs := regs [(1, 7)] }) = true := by decide +kernel

theorem witness_TrapEntryAndReturn_BreakAndSystemCall : (∀ k, sTrap.me.life ≠ .helper k) ∧
    (∀ k, sTrap.fetchAt (sTrap.me.regs.tvec.setWidth 38) ≠ .fault k) := ⟨witness_TrapEntryAndReturn_TrapEntry.1, witness_TrapEntryAndReturn_TrapEntry.2.1⟩

/-- A thread in supervisor mode. -/
def sup (l : List (Reg × Word)) (c : Core := {}) : State := on { regs l with tsw := 2 ^ 4 } c

/-- A handler about to return to user mode, with two events waiting. -/
def sRet : State :=
  let s := sup []
  let r : Regs := { s.cur.src with tepc := 0x208, tvec := 0x4000 }
  { s with cur := { s.cur with src := r } }.updMe fun x => { x with regs := r, events := [⟨.remoteRefused, 5⟩, ⟨.revoked, 6⟩] }

theorem witness_TrapEntryAndReturn_ReturnFromTrap : sRet.sup = true ∧ (sup []).me.events = [] ∧ sRet.me.events = ⟨.remoteRefused, 5⟩ :: [⟨.revoked, 6⟩] ∧
    sRet.me.regs.tsw.getLsbD 5 = false ∧ (∀ k, sRet.me.life ≠ .helper k) ∧ sRet.me.regs.tepc.toNat < 2 ^ 38 := by decide +kernel

theorem witness_TrapEntryAndReturn_ReturnFromTrap_fetch : ∀ k, sRet.fetchAt (sRet.me.regs.tvec.setWidth 38) ≠ .fault k := fun k h => by cases h

theorem test_return : ran (exec .tret sRet) (fun t => t.me.regs.tepc == 0x208 && t.me.regs.pc == 0x4000 && t.me.regs.tval == 5 &&
      t.me.regs.tcause == 0x8A && t.me.regs.tsw == 2 ^ 4 && t.me.events == [⟨.revoked, 6⟩]) = true ∧
    ran (exec .tret (sRet.updMe fun x => { x with events := [] })) (fun t => t.me.regs.pc == 0x208 && t.me.regs.tsw == 0) = true := by
  decide +kernel

theorem witness_RegisterReadsOfTheSystem_SystemRegisterReads : (on (regs [])).sup = false ∧ (sup []).sup = true ∧
    (on (regs [])).vcoresAt (8 * cluOf (on (regs [])).cur.pos + (0 : Fin 8).val) = [0] := by decide +kernel

theorem test_system_register_reads : allGive
    [(.srd 1 .vl, [], 32), (.srd 1 .lseg, [], 0x4000000), (.srd 1 .swq, [], 2048), (.srd 1 .tedg, [], 0x10000), (.srd 1 .time, [], 0)] = true ∧
    ran (exec (.srd 1 .tscr) (on (regs []))) (trapped 2 0) = true ∧ ran (exec (.srd 1 (.xdone 0)) (on (regs []))) (has 1 0) = true := by decide +kernel

/-- A legal value for each system register, at an end of its range, and one that is not. -/
theorem witness_SystemRegisterWrites : (sup []).sup = true ∧ (on (regs [])).sup = false ∧ Legal 0x3FFFBFF .tsw ∧ Legal (2 ^ 38 - 8) .tepc ∧
    Legal 0x1BF .tcause ∧ Legal (2 ^ 38 - 8) .tvec ∧ Legal 4096 .vl ∧ Legal 3 .rmode ∧ Legal (2 ^ 24) .swq ∧ Legal (2 ^ 24 - 1) .codeo ∧
    Legal 0 .frec ∧ Legal 16 .tedi ∧ Legal 0xFFFFFFFF .tedg ∧ Legal 15 .tedm ∧ Legal 15 .tedc ∧ Legal 40 .wdog ∧ ¬Legal (2 ^ 10) .tsw ∧
    ¬Legal 4 .tepc ∧ ¬Legal (2 ^ 6) .tcause ∧ ¬Legal (2 ^ 38) .tvec ∧ ¬Legal 4097 .vl ∧ ¬Legal 4 .rmode ∧ ¬Legal 0 .swq ∧ ¬Legal (2 ^ 24) .codeo ∧
    ¬Legal 15 .tedi ∧ ¬Legal (2 ^ 32) .tedg ∧ ¬Legal 16 .tedm ∧ ¬Legal 16 .tedc ∧ ¬Legal 19 .wdog := by
  unfold Legal; decide +kernel

theorem witness_SystemRegisterWrites_split : Legal (1023 + 2 ^ 16) .lseg ∧ Legal (5 * 2 ^ 12 + 24 * 2 ^ 54) .ortb ∧ ¬Legal 1023 .lseg ∧
    ¬Legal (5 * 2 ^ 12) .ortb := by
  refine ⟨⟨1023, 1, by decide⟩, ⟨5, 24, by decide⟩, ?_, ?_⟩
  · rintro ⟨b, l, h, hb, hl, -⟩
    have : (1023 : Word).toNat = 1023 := rfl
    omega
  · rintro ⟨b, l, h, hb, hl, -⟩
    have : (5 * 2 ^ 12 : Word).toNat = 5 * 2 ^ 12 := rfl
    omega

def swr (sr : SysReg) (w : Word) : Res := exec (.swr 1 sr) (sup [(1, w)])

theorem test_system_register_writes : ran (swr .vl 4096) (fun t => t.me.regs.vl == 4096) = true ∧ ran (swr .vl 4097) (trapped 1 4097) = true ∧
    ran (swr .rmode 3) (fun t => t.me.regs.rmode == 3) = true ∧ ran (swr .swq (2 ^ 24)) (fun t => t.me.regs.swq == 2 ^ 24) = true ∧
    ran (swr .tsw 0x3FFFBFF) (fun t => t.me.regs.tsw == 0x3FFF830) = true ∧ ran (swr .tsw (2 ^ 10)) (trapped 1 (2 ^ 10)) = true ∧
    ran (swr .tvec (2 ^ 38 - 8)) (fun t => t.me.regs.tvec == 2 ^ 38 - 8) = true ∧ ran (swr .lseg 0x103FF) (fun t => t.me.regs.lseg == 0x103FF) = true ∧
    ran (swr .ortb (24 * 2 ^ 54 + 0x5000)) (fun t => t.me.regs.ortb == 24 * 2 ^ 54 + 0x5000) = true ∧
    ran (swr .tcause 0x1BF) (fun t => t.me.regs.tcause == 0x1BF) = true ∧ ran (swr .tcause (2 ^ 6)) (trapped 1 (2 ^ 6)) = true ∧
    ran (swr .tedg 0xFFFFFFFF) (fun t => t.part.tedg == 0xFFFFFFFF) = true ∧ ran (swr .tedm 16) (trapped 1 16) = true ∧
    ran (swr .tedi 16) (fun t => t.part.tedi == 16) = true ∧ ran (swr .wdog 40) (fun t => t.part.wdog == 40) = true ∧
    ran (exec (.swr 1 .wdog) (on (regs [(1, 20)]))) (trapped 2 0) = true := by decide +kernel

theorem test_user_mode : ([.tret, .orw 1 2, .orinv 1, .ormov 1 2, .plcSwap 1 2, .plcMigx 1 2, .plcFold 1 2, .plcSeal 1, .qsc 1, .kick 1] : List Instr).all
    (fun i => ran (exec i (on (regs []))) (trapped 2 0)) = true := by decide +kernel

theorem witness_SystemRegisterWrites_UserModeTrapsPriv : (on (regs [])).sup = false ∧ .qsc 1 ∈ privileged 1 2 := by decide +kernel

theorem test_shadow_register : ran (exec (.tsrd 1 7) (on { regs [] with ts := vput (Vector.replicate 8 0) 7 9 })) (has 1 9) = true := by
  decide +kernel

/-! ### Witnesses and steps: the scratchpad (R153-R165) -/

/-- The last sixteen bytes of the segment hold 0x80 and upwards. -/
def sLd : State := on (regs [(2, 0x3FFE0), (3, 0x1122334455667788), (4, 0x99)]) { spad := (List.range 16).map fun k => (0x3FFF0 + k, BitVec.ofNat 8 (0x80 + k)) }

theorem witness_LocalLoads : ∀ n ∈ [1, 2, 4, 8, 16], sLd.resolve (sLd.g 2 + (0x10 : BitVec 12).signExtend 64) n n = .here 0x3FFF0 ∧
    sLd.spadPoisoned sLd.cur.pos 0x3FFF0 n = false := by decide +kernel

theorem test_loads : ([(.ld 1 2 true .b 0x10, 0xFFFFFFFFFFFFFF80), (.ld 1 2 false .h 0x10, 0x8180), (.ld 1 2 true .w 0x10, 0xFFFFFFFF83828180),
    (.ld 1 2 false .d 0x10, 0x8786858483828180)] : List (Instr × Word)).all (fun x => ran (exec x.1 sLd) (has 1 x.2)) = true ∧
    ran (exec (.ldp 4 2 0x10) sLd) (fun t => has 4 0x8786858483828180 t && has 5 0x8F8E8D8C8B8A8988 t) = true := by decide +kernel

/-- The three traps of an address, each at the edge of its range. -/
theorem witness_LocalLoads_LocalAddressTraps : (sLd.g 2 + (0x011 : BitVec 12).signExtend 64).toNat % 2 ≠ 0 ∧ sLd.cur.phase = 0 ∧
    (sLd.g 2 + (0x020 : BitVec 12).signExtend 64).toNat % 8 = 0 ∧ 2 ^ 18 ≤ (sLd.g 2 + (0x020 : BitVec 12).signExtend 64).toNat ∧
    (sLd.g 2 + (0x020 : BitVec 12).signExtend 64).getLsbD 63 = false ∧ sLd.localVcore = sLd.me.occ ∧
    segLimit { regs [] with lseg := 0x103FF : Regs }.lseg < 0x100 + 1 ∧ (2 ^ 63 + 2 ^ 60 : Word).toNat % 16 = 0 ∧
    (2 ^ 63 + 2 ^ 60 : Word).getLsbD 63 = true ∧ (2 ^ 63 + 2 ^ 60 : Word).toNat / 2 ^ 60 % 8 ≠ 0 ∧ (2 ^ 63 + 2 ^ 18 : Word).toNat / 2 ^ 18 % 64 ≠ 0 := by
  decide +kernel

theorem test_address_traps : ran (exec (.ld 1 2 false .h 0x011) sLd) (trapped 3 0x3FFF1) = true ∧
    ran (exec (.st 3 2 .d 0x020) sLd) (trapped 4 0x40000) = true ∧
    ran (exec (.ldp 4 1 0) (on (regs [(1, 2 ^ 63 + 2 ^ 60)]))) (trapped 4 (2 ^ 63 + 2 ^ 60)) = true ∧
    ran (exec (.stp 4 1 8) (on (regs [(1, 2 ^ 63)]))) (trapped 3 (2 ^ 63 + 8)) = true ∧
    ran (exec (.ld 1 2 false .b 0) (on { regs [(2, 0x100)] with lseg := 0x103FF })) (trapped 4 0x100) = true := by decide +kernel

theorem witness_LocalStores : Memory.wf (sLd.core sLd.cur.pos).spad = true ∧ sLd.cur.phase = 0 ∧ (sLd.core sLd.cur.pos).buffer.length < 32 ∧
    ∀ n ∈ [1, 2, 4, 8, 16], sLd.resolve (sLd.g 2 + (0x10 : BitVec 12).signExtend 64) n n = .here 0x3FFF0 := by decide +kernel

/-- R164's first example: a byte stored over a doubleword. -/
theorem test_stores : ran (exec (.st 2 0 .d 8) (on (regs [(2, 0x1111111111111111)]))) (fun t =>
      ofBytes (t.spadRead 0 8 8) == 0x1111111111111111 && (t.core 0).buffer == [⟨100, {}, .scratch 8 8, false⟩] &&
        ran (exec (.st 3 0 .b 9) { t with cur := { t.cur with src := regs [(3, 0xAB)] } }) fun u => ofBytes (u.spadRead 0 8 8) == 0x111111111111AB11) = true ∧
    ran (exec (.stp 2 0 0x10) (on (regs [(2, 1), (3, 2)]))) (fun t => ofBytes (t.spadRead 0 0x10 16) == 1 + 2 * 2 ^ 64 && (t.core 0).buffer.length == 1) = true := by
  decide +kernel

/-- R164's second example: W at 8 holds 5 and is empty, g3 = 7; then W is full. -/
def sW (full : Bool) : State := on (regs [(3, 7)]) { spad := [(8, 5)], full := if full then [1] else [] }

theorem witness_FullEmptyWords_FullEmptyOperations (b : Bool) : (sW b).resolve ((sW b).g 0 + (8 : BitVec 12).signExtend 64) 8 8 = .here 8 ∧ (sW b).cur.isA = false ∧
    ((sW b).core (sW b).cur.pos).buffer = [] ∧ ((sW b).core (sW b).cur.pos).spoiled = [] ∧
    (sW b).cur.pos < (sW b).turn ∧ (sW b).bankTurn (sW b).cur.pos (sW b).cur.slot = true ∧ Memory.wf ((sW b).core (sW b).cur.pos).spad = true ∧
    (∀ j : Fin 16, j ≠ (sW b).cur.slot → ((sW b).slotAt (sW b).cur.pos j).pendC = none) ∧ ((sW b).core (sW b).cur.pos).full.contains (8 / 8) = b := by
  cases b <;> decide +kernel

theorem witness_FullEmptyWords_FullEmptyWaits : (Instr.ldf 3 0 8, false) ∈ [(Instr.ldf 3 0 8, false), (.ldw 3 0 8, false), (.stf 3 0 8, true)] ∧
    ((sW false).core (sW false).cur.pos).full.contains (8 / 8) = false ∧ (sW false).resolve ((sW false).g 0 + (8 : BitVec 12).signExtend 64) 8 8 = .here 8 := by
  decide +kernel

theorem test_full_empty : ran (exec (.stf 3 0 8) (sW false)) (fun t => ofBytes (t.spadRead 0 8 8) == 7 && (t.core 0).full == [1]) = true ∧
    ran (exec (.ldw 4 0 8) (sW true)) (fun t => has 4 5 t && (t.core 0).full == [1]) = true ∧
    ran (exec (.ldf 4 0 8) (sW true)) (fun t => has 4 5 t && (t.core 0).full == [] && t.me.pendC == none) = true ∧
    ran (exec (.sete 0 8) (sW true)) (fun t => (t.core 0).full == [] && ofBytes (t.spadRead 0 8 8) == 5) = true ∧
    ran (exec (.fest 4 0 8) (sW true)) (has 4 1) = true ∧ ran (exec (.fest 4 0 8) (sW false)) (has 4 0) = true := by decide +kernel

theorem test_full_empty_waits : ran (exec (.ldf 4 0 8) (sW false)) (fun t => t.me.pendC.isSome && has 4 0 t) = true ∧
    ran (exec (.ldw 4 0 8) (sW false)) (fun t => t.me.pendC.isSome && has 4 0 t) = true ∧
    ran (exec (.stf 3 0 8) (sW true)) (fun t => t.me.pendC.isSome && ofBytes (t.spadRead 0 8 8) == 5) = true := by decide +kernel

/-- Two scale words at 0x10 with no 0xFF exponent, whose statistics are (TZ, TS) = (1, 2) and (3, 4). -/
def sFsel (w : Word) : State := on (regs [(2, 0x10), (3, w)]) { spad := Memory.writeN [] 0x10 (toBytes 4 0x01020000 ++ toBytes 4 0x03040500) }

theorem witness_FunctionsAndFormatChoice_GradientFormatChoice : ((sFsel 0x50020406).g 3).toNat = 6 + 4 * 2 ^ 8 + 2 * 2 ^ 16 + 5 * 2 ^ 28 ∧
    (sFsel 0x50020406).resolve ((sFsel 0x50020406).g 2) 4 (4 * 2) = .here 0x10 ∧ ((sFsel 0x50020406).g 2).getLsbD 63 = false ∧
    (sFsel 0x50020406).spadPoisoned 0 0x10 8 = false ∧
    (∀ i < 2, [0x01020000, 0x03040500].getD i 0 = ofBytes ((sFsel 0x50020406).spadRead 0 (0x10 + 4 * i) 4)) ∧
    (2 < 3 ∨ 12 < 2) ∧ 3 ≤ 12 := by decide +kernel

/-- R100: sums 6 and 4 against thresholds that they reach (E4M3) and that one exceeds (E5M2). -/
theorem test_fsel : ran (exec (.fsel 1 2 3) (sFsel 0x50020406)) (has 1 0x4052C) = true ∧ ran (exec (.fsel 1 2 3) (sFsel 0x50020306)) (has 1 0x4052D) = true ∧
    ran (exec (.fsel 1 2 3) (sFsel 0x20020406)) (trapped 0x0C 0) = true := by decide +kernel

/-! ### Witnesses and steps: tasks, counters, barriers, stages and helpers (R136-R152) -/

/-- A packet for vcore 0 with entry 0x40. -/
def packet : Vector Word 16 := vput (Vector.replicate 16 0) 0 0x40

/-- A packet of gang 5, of one cluster. -/
def gangPacket : Vector Word 16 := vput packet 2 (5 + 2 ^ 38)

def packetBytes (p : Vector Word 16) : List Byte := p.toList.flatMap fun w => toBytes 8 w.toNat

def sSpawn (p : Vector Word 16) : State := on (regs [(1, 0x80), (2, 0x84)]) { spad := Memory.writeN [] 0x80 (packetBytes p) }

theorem witness_TasksComeAndGo_SpawnSubmits : (sSpawn packet).cur.phase = 0 ∧ ((sSpawn packet).g 1).getLsbD 63 = false ∧
    (sSpawn packet).resolve ((sSpawn packet).g 1) 128 128 = .here 0x80 ∧ (sSpawn packet).spadPoisoned 0 0x80 128 = false ∧
    (∀ i : Fin 16, packet.get i = BitVec.ofNat 64 (ofBytes ((sSpawn packet).spadRead 0 (0x80 + 8 * i.val) 8))) ∧
    Pkt.ok packet (sSpawn packet).sup = true ∧ (Pkt.pc packet).toNat % 8 = 0 ∧ Pkt.gang packet = false ∧ (sSpawn packet).inPart (Pkt.vcore packet) = true ∧ (sSpawn packet).part.queue.length = 0 ∧
    Pkt.ok gangPacket false = true ∧ Pkt.gang gangPacket = true ∧ Pkt.member gangPacket < 8 * Pkt.gw gangPacket * Pkt.gh gangPacket := by
  decide +kernel

theorem witness_TasksComeAndGo_SpawnSubmits_room : (sSpawn packet).part.queue.length < Config.queueRoom + 1 := Nat.succ_pos _

theorem witness_TasksComeAndGo_SpawnSubmits_block : ¬NoBlock (sSpawn gangPacket) gangPacket := by
  intro h
  obtain ⟨i, hi, j, hj, hu⟩ := h 0 (by decide) 0 (by decide) 0 (by decide)
  have e1 : Pkt.gw gangPacket = 1 := by decide +kernel
  have e2 : Pkt.gh gangPacket = 1 := by decide +kernel
  obtain rfl : i = 0 := by omega
  obtain rfl : j = 0 := by omega
  exact absurd hu (by decide +kernel)

/-- A task queue that is full, whatever its room, and the thread held at it. -/
def sFull : State :=
  { sSpawn packet with
    part := { queue := (List.range (Config.queueRoom + 1)).map fun k => (k, { w := packet, accepted := 0 }) }
    cur := { (sSpawn packet).cur with phase := 1, held := packet.toList } }

theorem witness_TasksComeAndGo_SpawnSubmits_full : Config.queueRoom + 1 ≤ sFull.part.queue.length ∧ sFull.cur.phase ≠ 0 ∧ sFull.cur.held = packet.toList :=
  ⟨by simp [sFull], by simp [sFull], rfl⟩

/-- A thread that has sent nothing waits for nothing. -/
theorem nothing_of (s : State) (h1 : (s.core s.cur.pos).buffer = []) (h2 : s.me.regs.bankm = 0) (h3 : s.me.unacked = [])
    (h4 : ∀ k : Fin 16, s.me.journal.get k = none) : NothingPending s :=
  ⟨h1, h2, h3, fun k e h => by rw [h4 k] at h; cases h⟩

theorem witness_TasksComeAndGo_SpawnSubmits_pending : NothingPending (sSpawn packet) := nothing_of _ rfl rfl rfl (by decide +kernel)

/-- A packet of a gang of 8 members for member 8. -/
def lateGang : Vector Word 16 := vput packet 2 (5 + 2 ^ 38 + 8 * 2 ^ 39)

/-- A packet whose reserved bit 45 of word 0 is set, and one whose entry is odd. -/
theorem witness_TasksComeAndGo_SpawnTraps : ((sSpawn packet).g 2).toNat % 128 ≠ 0 ∧ ((on (regs [(1, 2 ^ 63)])).g 1).toNat % 128 = 0 ∧
    ((on (regs [(1, 2 ^ 63)])).g 1).getLsbD 63 = true ∧ Pkt.ok (vput packet 0 (2 ^ 45)) false = false ∧
    Pkt.ok (vput packet 0 4) false = true ∧ (Pkt.pc (vput packet 0 4)).toNat % 8 ≠ 0 ∧
    Pkt.ok (vput packet 1 (2 ^ 16)) false = true ∧ pkgOf (Pkt.vcore (vput packet 1 (2 ^ 16))) ≠ (sSpawn packet).pkg ∧
    pkgOf (Pkt.vcore (vput packet 1 (2 ^ 16))) ∉ (sSpawn packet).part.packages ∧ Pkt.ok lateGang false = true ∧ Pkt.gang lateGang = true ∧
    8 * Pkt.gw lateGang * Pkt.gh lateGang ≤ Pkt.member lateGang := by decide +kernel

/-- No block where every die has retired its clusters. -/
theorem witness_TasksComeAndGo_SpawnTraps_noBlock : NoBlock { sSpawn gangPacket with dies := (List.range 8).map fun d => (d, { retired := List.range 64 }) } gangPacket := by
  intro d hd x hx y hy
  have e1 : Pkt.gw gangPacket = 1 := by decide +kernel
  have e2 : Pkt.gh gangPacket = 1 := by decide +kernel
  refine ⟨0, by omega, 0, by omega, ?_⟩
  have : ∀ d : Fin 8, ∀ x y : Fin 8, ({ sSpawn gangPacket with
      dies := (List.range 8).map fun d => (d, { retired := List.range 64 }) } : State).clusterUsable d.val ((x.val + 0) % 8 + 8 * ((y.val + 0) % 8)) = false := by
    decide +kernel
  exact this ⟨d, hd⟩ ⟨x, hx⟩ ⟨y, hy⟩

theorem test_spawn : ran (exec (.spawn 1) (sSpawn packet)) (fun t => t.part.queue == [(100, { w := packet, accepted := 0, ready := some 0 })]) = true ∧
    ran (exec (.spawn 1) (sSpawn (vput packet 0 (2 ^ 45)))) (trapped 1 0x80) = true ∧ ran (exec (.spawn 1) (sSpawn (vput packet 0 4))) (trapped 3 4) = true ∧
    ran (exec (.spawn 2) (sSpawn packet)) (trapped 3 0x84) = true ∧
    ran (exec (.spawn 1) (sSpawn (vput packet 1 (2 ^ 16)))) (trapped 0x0B (2 ^ 16)) = true ∧
    ran (exec (.spawn 1) (sSpawn lateGang)) (trapped 0x13 0) = true := by decide +kernel

/-- A task whose completion word is the doubleword at 0x18 of vcore 0. -/
def sEnd (cpl : Word) : State := (on { regs [] with ts := vput (Vector.replicate 8 0) 0 0x77 }).updMe fun x => { x with cpl := cpl }

theorem witness_TasksComeAndGo_TaskEnd : (sEnd 0).cur.phase = 0 ∧ (∀ k, (sEnd 0).me.life ≠ .helper k) ∧ (sEnd 0).me.pendA = none ∧ ((sEnd 0).core 0).guests = [] ∧
    Memory.wf ((sEnd 0).core 0).spad = true ∧ (∀ g ∈ (sEnd 0).part.graphs, g.pid ≠ (sEnd 0).me.pid) ∧ (∀ j : Fin 16, ((sEnd 0).slotAt 0 j).pendC = none) ∧
    (sEnd 0).me.cpl = 0 ∧ (sEnd (2 ^ 63 + 0x18)).me.cpl ≠ 0 ∧ (sEnd (2 ^ 63 + 0x18)).fillAt (sEnd (2 ^ 63 + 0x18)).me.cpl = .word 0 0x18 ∧
    (sEnd (2 ^ 63 + 0x1C)).fillAt (2 ^ 63 + 0x1C) = .discard ∧ (sEnd (2 ^ 63 + 2 ^ 24 + 8)).fillAt (2 ^ 63 + 2 ^ 24 + 8) = .wait ∧
    sHelper.me.life = .helper 3 := by decide +kernel

theorem witness_TasksComeAndGo_TaskEnd_pending : NothingPending (sEnd (2 ^ 63 + 0x18)) := nothing_of _ rfl rfl rfl (by decide +kernel)

theorem test_task_end : ran (exec .tdone (sEnd 0)) (fun t => !t.me.busy && t.part.progress == 1) = true ∧
    ran (exec .tdone (sEnd (2 ^ 63 + 0x18))) (fun t => !t.me.busy && (t.core 0).full == [3] && ofBytes (t.spadRead 0 0x18 8) == 0x77) = true ∧
    ran (exec .tdone (sEnd (2 ^ 63 + 2 ^ 24 + 8))) (fun t => !t.me.busy && (t.net.get 100).map (·.load) == some (.fill (2 ^ 63 + 2 ^ 24 + 8) 0x77)) = true ∧
    ran (exec .tdone (sEnd (2 ^ 63 + 0x1C))) (fun t => !t.me.busy && t.net == []) = true := by decide +kernel

/-- All of slots 0 to 14 busy, and a guest waiting; the thread yields from slot 0. -/
def sYield : State := on (regs [(1, 5)]) { slots := Vector.replicate 16 { busy := true }, guests := [{ tid := { vc := 3 } }] }

/-- The same thread as a guest. -/
def sYieldGuest : State :=
  let s := sYield.updMe fun x => { x with regs := { x.regs with tsw := 2 ^ 9 } }
  { s with cur := { s.cur with src := s.me.regs } }

theorem witness_TasksComeAndGo_Yield : ((sYield.core sYield.cur.pos).guests ≠ [] ∧ ∀ j : Fin 16, j ≠ 15 → (sYield.slotAt sYield.cur.pos j).busy = true) ∧
    sYield.me.pendA = none ∧ sYield.cur.src.tsw.getLsbD 9 = false ∧ sYieldGuest.cur.src.tsw.getLsbD 9 = true ∧ sYieldGuest.cur.slot ≠ 15 ∧
    (sYieldGuest.core 0).guests = { tid := { vc := 3 } } :: [] ∧ (∀ j k : Fin 16, (sYieldGuest.slotAt 0 j).life ≠ .helper k) ∧
    (∀ j : Fin 16, (sYieldGuest.slotAt 0 j).pendC = none) ∧ ((on (regs [])).core 0).guests = [] ∧ (on (regs [])).part.queue = [] ∧
    ((on (regs [])).slotAt 0 15).busy = false := by decide +kernel

/-- Work waits for the core of the yielding thread and not for one that is alone. -/
theorem witness_TasksComeAndGo_Yield_work : WorkWaits sYield ∧ WorkWaits sYieldGuest ∧ ¬WorkWaits (on (regs [])) := by
  refine ⟨.inl ⟨.inl ?_, ?_⟩, .inl ⟨.inl ?_, ?_⟩, ?_⟩
  · decide +kernel
  · decide +kernel
  · decide +kernel
  · decide +kernel
  · rintro (⟨h | ⟨q, hq, -⟩ | ⟨h, -⟩, -⟩ | ⟨h, -⟩)
    · exact h rfl
    · cases hq
    · exact absurd h (by decide +kernel)
    · exact absurd h (by decide +kernel)

theorem test_yield : ran (exec .tyld sYield) (fun t => (t.mapEntry {}).state == .yielded && (t.part.queue.get 100).isSome) = true ∧
    ran (exec .tyld sYieldGuest) (fun t => (t.core 0).guests.map (·.regs) == [sYieldGuest.me.regs] && t.me.tid == { vc := 3 }) = true ∧
    ran (exec .tyld (on (regs []))) (fun t => t == on (regs [])) = true := by decide +kernel

theorem witness_CountersAndBarriers_ClusterCounters : 0 < (((on (regs [])).cluster (cluOf 0)).ctr.get 2).p.toNat := by decide +kernel

/-- R41's table with total 100, P = 4 and minimum 4: the first CHUNKs take 13 at 0 and 11 at 13. -/
theorem test_counters : ran (exec (.chset 2 1 2) (on (regs [(1, 100), (2, 4 + 4 * 2 ^ 16)]))) (fun t =>
    ran (exec (.chunk 5 2) t) fun u => has 5 (13 * 2 ^ 32) u && ran (exec (.chunk 5 2) u) (has 5 (11 * 2 ^ 32 + 13))) = true ∧
    ran (exec (.chunk 5 2) (on (regs []))) (has 5 0) = true := by decide +kernel

/-- A leaf of E arrivals whose cluster's mask names core 0, and PH = 5 (R147's example). -/
def sBar (e n : Nat) : State :=
  let s := on (regs [(1, 5), (2, 6)]) { leaf := { e := e, count := n, ph := 5 } }
  s.updCluster 0 fun c => { c with mask := 1, ph := 5 }

/-- The mask of two cores. -/
def sBarMask : State := (sBar 1 0).updCluster 0 fun c => { c with mask := 3 }

theorem witness_CountersAndBarriers_Barriers : ((sBar 0 0).core 0).leaf.e = 0 ∧ ((sBar 2 0).core 0).leaf.count + 1 < ((sBar 2 0).core 0).leaf.e ∧
    ((sBar 1 0).core 0).leaf.e ≠ 0 ∧ ((sBar 1 0).core 0).leaf.e ≤ ((sBar 1 0).core 0).leaf.count + 1 ∧ ((sBar 1 0).core 0).buffer = [] ∧
    ((sBar 1 0).core 0).leaf.waiting = [] ∧ ((sBar 1 0).cluster 0).mask = BitVec.twoPow 8 (0 % 8) ∧
    ((sBar 1 0).cluster 0).mask.getLsbD (0 % 8) = true ∧
    (∃ i : Fin 8, i ≠ coreNum 0 ∧ (sBarMask.cluster 0).mask.getLsbD i.val = true ∧ (sBarMask.cluster 0).arrivals.get i = 0) ∧
    ((sBar 1 0).core 0).leaf.ph.toNat ≠ ((sBar 1 0).g 2).toNat % 2 ^ 16 ∧ ((sBar 1 0).core 0).leaf.ph.toNat = ((sBar 1 0).g 1).toNat % 2 ^ 16 := by
  decide +kernel

theorem test_barriers : ran (exec (.barr 4) (sBar 1 0)) (fun t => has 4 5 t && (t.cluster 0).ph == 6 && (t.cluster 0).phases == [(6, 6)]) = true ∧
    ran (exec (.barr 4) (sBar 2 0)) (fun t => has 4 5 t && (t.core 0).leaf.count == 1 && (t.cluster 0).ph == 5) = true ∧
    ran (exec (.barr 4) sBarMask) (fun t => ran (exec (.barr 4) t) fun u => (u.cluster 0).arrivals.get 0 == 2 && (u.cluster 0).ph == 5) = true ∧
    ran (exec (.barw 1) (sBar 1 0)) (fun t => t.cur.out == .parked) = true ∧ ran (exec (.barw 2) (sBar 1 0)) (fun t => t.cur.out == .done) = true ∧
    ran (exec (.barc 1) (on (regs [(1, 0x302)]))) (fun t => (t.core 0).leaf.e == 2 && (t.cluster 0).mask == 3) = true := by decide +kernel

/-- A stage of four slots of 64 bytes from 0x1000, its descriptor at 0x40, with a value for the tag of slot 1; the
sequence number is 5, round 1 of slot 1 (R148). -/
def sStage (tag : Nat) : State :=
  on (regs [(1, 0x40), (2, 5)]) { spad := Memory.writeN [] 0x40 (toBytes 8 (4 * 2 ^ 48 + 1 * 2 ^ 32 + 0x1000) ++ toBytes 3 1 ++ toBytes 3 tag) }

theorem witness_StagesAndHelpers_Stages (tag : Nat) (h : tag ∈ [1, 2 ^ 22 + 1, 2 * 2 ^ 22 + 1]) : (sStage tag).cur.phase = 0 ∧ (sStage tag).cur.isA = false ∧
    (sStage tag).resolve ((sStage tag).g 1) 32 32 = .here 0x40 ∧ stageN ((sStage tag).spad64 0 0x40) = 4 ∧ 0 < stageSize ((sStage tag).spad64 0 0x40) ∧
    bits ((sStage tag).spad64 0 0x40) 63 52 = 0 ∧ bits ((sStage tag).spad64 0 0x40) 31 18 = 0 ∧
    stageSlot0 ((sStage tag).spad64 0 0x40) + 64 * stageSize ((sStage tag).spad64 0 0x40) * 4 ≤ segLimit (sStage tag).cur.src.lseg ∧
    ((sStage tag).g 2).toNat % 2 ^ 32 % 4 = 1 ∧ ((sStage tag).g 2).toNat % 2 ^ 32 / 4 % 2 ^ 22 = 1 ∧
    tag = ofBytes ((sStage tag).spadRead 0 (0x40 + 8 + 3 * 1) 3) ∧ Memory.wf ((sStage tag).core 0).spad = true ∧
    (∀ i : Fin 16, i ≠ (sStage tag).cur.slot → ((sStage tag).slotAt 0 i).pendC = none) := by
  simp only [List.mem_cons, List.not_mem_nil, or_false] at h
  rcases h with rfl | rfl | rfl <;> decide +kernel

def tagIs (v : Nat) (t : State) : Bool := ofBytes (t.spadRead 0 0x4B 3) == v

theorem test_stages : ran (exec (.stgp 3 1 2) (sStage 1)) (fun t => has 3 0x1040 t && tagIs (2 ^ 22 + 1) t) = true ∧
    ran (exec (.stgf 1 2) (sStage (2 ^ 22 + 1))) (tagIs (2 * 2 ^ 22 + 1)) = true ∧
    ran (exec (.stgw 3 1 2) (sStage (2 * 2 ^ 22 + 1))) (fun t => has 3 0x1040 t && tagIs (2 * 2 ^ 22 + 1) t) = true ∧
    ran (exec (.stge 1 2) (sStage (2 * 2 ^ 22 + 1))) (tagIs 2) = true ∧
    ran (exec (.stgw 3 1 2) (sStage 1)) (fun t => t.cur.out == .parked) = true := by decide +kernel

def sHsp : State := at' [(1, 9)]

theorem witness_StagesAndHelpers_Helpers : (∀ i : Fin 16, ¬((sHsp.slotAt sHsp.cur.pos i).busy = true ∧ (sHsp.slotAt sHsp.cur.pos i).life = .helper sHsp.cur.slot)) ∧
    sHsp.cur.src.tsw.getLsbD 9 = false ∧ State.lowestEmpty (sHsp.core sHsp.cur.pos) = some 1 ∧ (1 : Fin 16) ≠ sHsp.cur.slot ∧
    State.lowestEmpty (sYield.core sYield.cur.pos) = none ∧ (∀ k, sHsp.me.life ≠ .helper k) ∧ sHelper.me.life = .helper 3 := by decide +kernel

theorem test_helpers : ran (exec (.hspawn 2) sHsp) (fun t => (t.slotAt 0 1).busy && (t.slotAt 0 1).life == .helper 0 && (t.slotAt 0 1).regs.pc == 0x110 &&
      (t.slotAt 0 1).regs.tsw.getLsbD 8 && (t.slotAt 0 1).regs.g == sHsp.cur.src.g && ran (exec .hstop t) fun u => !(u.slotAt 0 1).busy && u.me.busy) = true ∧
    ran (exec .hstop sHelper) (fun t => !t.me.busy) = true := by decide +kernel

/-! ### Witnesses and steps: objects, atomics, the store buffer and the homes (R159-R207) -/

/-- The record of an INT64 array of 100 elements at 0x20000 with permissions; bitmap at 0x11000. -/
def recOf (perm : Word) : Rec := #v[2 ^ 63 + 4 * 2 ^ 56 + 0x20000, 100, 0, 1, 0, perm, 0x11000, 0]

/-- A thread whose record table is at 0x10000; object 1 has this record, at home and in the cluster's cache, its
granule is resident, and guest frames 1 and 2 stand at host frames 1 and 2. -/
def obj (r : Rec) (l : List (Reg × Word)) (c : Core := {}) : State :=
  let s := on { regs l with ortb := 2 ^ 54 + 0x10000 } c
  { s with
    clusters := [(0, { records := [⟨0x10000, 1, r⟩] })], stage2 := [(1, 1), (2, 2)]
    mem := Memory.writeN (Memory.writeN (Memory.writeN [] 0x10040 (r.toList.flatMap fun w => toBytes 8 w.toNat)) 0x11000 [0x80]) 0x20318 [9] }

/-- The reference to element 99, the last. -/
def ref99 : Word := 2 ^ 40 + 99

def sObj : State := obj (recOf 0xF) [(2, ref99), (3, 0x55), (4, 2 ^ 40)]

theorem witness_Reaches : Reaches sObj (sObj.g 2) ((bits (sObj.g 2) 39 0 : Int) + (0 : BitVec 12).toInt) 8 Rec.permR (recOf 0xF) 0x20318 ∧
    Reaches sObj (sObj.g 4) ((bits (sObj.g 4) 39 0 : Int) + (0x318 : BitVec 12).toInt / (8 : Nat)) 8 Rec.permR (recOf 0xF) 0x20318 ∧
    Reaches sObj (sObj.g 2) (bits (sObj.g 2) 39 0 : Int) 8 Rec.permA (recOf 0xF) 0x20318 ∧
    Reaches sObj (sObj.g 2) (bits (sObj.g 2) 39 0 : Int) 8 Rec.permW (recOf 0xF) 0x20318 := by
  refine ⟨⟨by decide +kernel, by decide +kernel, by decide +kernel, by decide +kernel, by decide +kernel, by decide +kernel, by decide +kernel,
      fun _ _ _ h => absurd h List.not_mem_nil, ⟨0x10040, by decide +kernel⟩⟩,
    ⟨by decide +kernel, by decide +kernel, by decide +kernel, by decide +kernel, by decide +kernel, by decide +kernel, by decide +kernel,
      fun _ _ _ h => absurd h List.not_mem_nil, ⟨0x10040, by decide +kernel⟩⟩,
    ⟨by decide +kernel, by decide +kernel, by decide +kernel, by decide +kernel, by decide +kernel, by decide +kernel, by decide +kernel,
      fun _ _ _ h => absurd h List.not_mem_nil, ⟨0x10040, by decide +kernel⟩⟩,
    ⟨by decide +kernel, by decide +kernel, by decide +kernel, by decide +kernel, by decide +kernel, by decide +kernel, by decide +kernel,
      fun _ _ _ h => absurd h List.not_mem_nil, ⟨0x10040, by decide +kernel⟩⟩⟩

theorem witness_ElementLoads_ElementLoadsIssue : sObj.cur.isA = false ∧ sObj.poisoned 0x20318 8 = false ∧ (sObj.core sObj.cur.pos).buffer = [] ∧
    State.inWindow 0x20318 = false ∧ (0x318 : BitVec 12).toInt % (8 : Nat) = 0 := by decide +kernel

/-- Its request of eight bytes at 0x20318 is at its home, slice 3 × 2 + 0 of die 0 (R173: line 0x80C is 12 mod 1024). -/
def requested (i : Instr) (comb sx : Bool) (t : State) : Bool :=
  (match (t.home 6).queue.get 101 with
    | some q => q.hpa == 0x20318 && q.n == 8 && q.rd == 1 && q.sx == sx && q.acc == .load comb && q.token == 100
    | none => false) && t.me.pendC == some ⟨i, 2, [], .token 100⟩

theorem test_element_loads : ran (exec (.old 1 2 false .d 0) sObj) (requested (.old 1 2 false .d 0) false false) = true ∧
    ran (exec (.oldc 1 4 false .d 99) sObj) (requested (.oldc 1 4 false .d 99) true false) = true ∧
    ran (exec (.ldc 1 4 false .d 0x318) sObj) (requested (.ldc 1 4 false .d 0x318) true false) = true ∧
    ran (exec (.ldacq 1 4 .sys 0x318) sObj) (requested (.ldacq 1 4 .sys 0x318) false false) = true := by decide +kernel

theorem witness_ElementStoresAndFences_ElementStoresIssue : (sObj.core sObj.cur.pos).buffer.length < 32 ∧ NothingPending sObj ∧ (0x318 : BitVec 12).toInt % 8 = 0 :=
  ⟨by decide +kernel, nothing_of _ rfl rfl rfl (by decide +kernel), by decide +kernel⟩

/-- One entry for 0x20318, with this access. -/
def entered (acc : Access) (t : State) : Bool :=
  match (t.core 0).buffer with
  | [e] => (match e.op with
    | .obj q => q.hpa == 0x20318 && q.n == 8 && q.acc == acc && !e.sent
    | _ => false)
  | _ => false

theorem test_element_stores : ran (exec (.ost 3 2 .d 0) sObj) (fun t => entered (.store [0x55, 0, 0, 0, 0, 0, 0, 0]) t && t.me.regs.bankm == 4) = true ∧
    ran (exec (.red 2 3 .sadd .d) sObj) (entered (.red .sadd 0x55)) = true ∧
    ran (exec (.strel 3 4 .dev 0x318) sObj) (entered (.store [0x55, 0, 0, 0, 0, 0, 0, 0])) = true := by decide +kernel

/-- FP64 for RED.FADD, and a window object: frame 2 stands at the host window. -/
theorem witness_ElementStoresAndFences_ElementStoresIssue_fadd : Rec.fmt (#v[2 ^ 63 + 8 * 2 ^ 56 + 0x20000, 100, 0, 1, 0, 0xF, 0x11000, 0] : Rec) = 8 := by decide +kernel

def sWin : State := { sObj with stage2 := [(1, 1), (2, 2 ^ 31)] }

theorem witness_Atomics_AtomicsIssue : (Instr.acas 1 2 3 .d, AtomOp.cas) ∈ atomics 1 2 3 .d ∧ State.inWindow 0x20318 = false ∧ sObj.poisoned 0x20318 8 = false ∧
    State.inWindow (2 ^ 47 + 0x318) = true ∧ sWin.hpaOf (State.elemAddr (recOf 0xF) 99) = some (2 ^ 47 + 0x318) := by decide +kernel

theorem test_atomics : (atomics 1 2 3 .d).all (fun x => ran (exec x.1 sObj) fun t => entered (.atomic x.2 0x55 0) t && t.me.pendC == some ⟨x.1, 2, [], .token 100⟩) = true ∧
    ran (exec (.aadd 1 2 3 .d) sWin) (trapped 6 ref99) = true := by decide +kernel

/-- R180's tests, one state for each cause: 0x81 is RVK with R, 0xD no W, index 100 out of shape. -/
theorem witness_ElementTestsAndQueries_ElementTests : sObj.look 0 = .invalid ∧ (obj (recOf 0x8F) [(2, ref99)]).look 1 = .got (recOf 0x8F) ∧ (recOf 0x8F).rvk = true ∧
    (recOf 0xD).permW = false ∧ (recOf 0xE).permR = false ∧ (recOf 0xF).fmt ≠ 0xE ∧ fmtBytes (recOf 0xF).fmt = 8 ∧ fmtBytes (recOf 0xF).fmt ≠ 4 ∧
    ((recOf 0xF).count : Int) ≤ (bits (sObj.g 2) 39 0 : Int) + (1 : BitVec 12).toInt ∧ (bits (sObj.g 4) 39 0 : Int) + (0xFFF : BitVec 12).toInt < 0 ∧ sObj.cur.phase = 0 := by
  decide +kernel

theorem test_element_tests : ran (exec (.old 1 0 false .d 0) sObj) (trapped 7 0) = true ∧ ran (exec (.ost 3 2 .d 0) (obj (recOf 0x8F) [(2, ref99)])) (trapped 9 ref99) = true ∧
    ran (exec (.ost 3 2 .d 0) (obj (recOf 0xD) [(2, ref99)])) (trapped 6 ref99) = true ∧ ran (exec (.old 1 2 false .w 1) sObj) (trapped 0x0C (2 ^ 40 + 100)) = true ∧
    ran (exec (.old 1 2 false .d 1) sObj) (trapped 5 (2 ^ 40 + 100)) = true ∧ ran (exec (.old 1 4 false .d 0xFFF) sObj) (trapped 5 (2 ^ 41 - 1)) = true := by decide +kernel

theorem witness_ElementTestsAndQueries_RecordQueries : sObj.look (bits (sObj.g 2) 63 40) = .got (recOf 0xF) ∧ bits (sObj.g 2) 39 0 < (recOf 0xF).count ∧
    (bits (sObj.g 4) 39 0 : Int) + (99 : Int) < (recOf 0xF).count ∧ (recOf 0xF).count ≤ bits (ref99 + 1) 39 0 ∧
    sObj.homeRecord (bits (sObj.g 2) 63 40) = some (recOf 0xF) ∧
    sObj.rmapByte (recOf 0xF) ((recOf 0xF).granule ((recOf 0xF).offset 99)) = some 0x80 ∧ sObj.cur.phase = 0 := by decide +kernel

theorem witness_ElementTestsAndQueries_RecordQueries_sat (h : Nat) : ({ sObj with cur := { sObj.cur with phase := 1 } }.home h).sat = [] := rfl

/-- The second phase of OPRB, in which a free bit says whether the byte has come. -/
theorem witness_ElementTestsAndQueries_RecordQueries_phase : { sObj with cur := { sObj.cur with phase := 1 } }.cur.phase = 1 := rfl

theorem test_record_queries : ran (exec (.orq 1 2 0) sObj) (has 1 0x20000) = true ∧ ran (exec (.orq 1 2 2) sObj) (has 1 100) = true ∧
    ran (exec (.orq 1 2 10) sObj) (has 1 4) = true ∧ ran (exec (.oref 1 4 5) (obj (recOf 0xF) [(4, 2 ^ 40 + 100), (5, -1)])) (has 1 ref99) = true ∧
    ran (exec (.oref 1 4 5) (obj (recOf 0xF) [(4, 2 ^ 40), (5, 100)])) (trapped 5 (2 ^ 40 + 100)) = true ∧
    ran (exec (.orq 1 2 12) sObj) (has 1 0xF) = true ∧ ran (exec (.oprb 1 4) (obj (recOf 0xF) [(4, 2 ^ 40 + 100)])) (trapped 5 (2 ^ 40 + 100)) = true ∧
    ran (exec (.oprb 1 2) sObj) (fun t => t.cur.out == .parked) = true := by decide +kernel

theorem test_fences : ran (exec (.fence .dev .rel) (on { regs [] with bankm := 0 })) (fun t => t.cur.out == .done) = true ∧
    ran (exec (.fence .sys .full) (on { regs [] with bankm := 1 })) (fun t => t.cur.out == .parked && t.me.pendC.isSome) = true ∧
    ran (exec (.fence .core .acq) (on (regs []))) (fun t => t == on (regs [])) = true := by decide +kernel

/-- A buffer of one element store for 0x20318, one scratchpad store, or one posted store. -/
def req (acc : Access) : Req := { pos := 0, acc := acc, gpa := 0x20318, hpa := 0x20318, n := 8, rd := 1, token := 50, key := (0x10000, 1), ref := ref99 }

def sBuf (op : SbOp) : State := obj (recOf 0xF) [] { buffer := [⟨7, {}, op, false⟩] }

theorem calm_of (s : State) (p : Nat) (h : ∀ j : Fin 16, (s.slotAt p j).pendC = none) (h2 : (s.core p).leaf.waiting = []) (h3 : (s.core p).vector = []) : Calm s p :=
  ⟨fun j q hq => (by rw [h j] at hq; cases hq), h2, h3⟩

theorem witness_BufferAndHomes_StoreBuffer (op : SbOp) (h : op ∈ [.scratch 8 8, .obj (req (.store [1, 2, 3, 4, 5, 6, 7, 8])), .rst 3 (2 ^ 63 + 0x40) 8 5]) :
    ((sBuf op).core 0).buffer = ⟨7, {}, op, false⟩ :: [] ∧ (sBuf op).mayPerform 0 ⟨7, {}, op, false⟩ [] = true ∧ Calm (sBuf op) 0 := by
  simp only [List.mem_cons, List.not_mem_nil, or_false] at h
  rcases h with rfl | rfl | rfl <;> exact ⟨rfl, by decide +kernel, calm_of _ _ (by decide +kernel) rfl rfl⟩

theorem test_store_buffer : ran (exec (.storeBufferPerform 0 7) (sBuf (.scratch 8 8))) (fun t => (t.core 0).buffer == []) = true ∧
    ran (exec (.storeBufferPerform 0 7) (sBuf (.obj (req (.store [1, 2, 3, 4, 5, 6, 7, 8]))))) (fun t => (t.core 0).buffer.map (·.sent) == [true] &&
      ((t.home 6).queue.get 100).isSome) = true ∧
    ran (exec (.storeBufferPerform 0 7) (sBuf (.rst 3 (2 ^ 63 + 0x40) 8 5))) (fun t => (t.core 0).buffer == [] && (t.net.get 100).isSome) = true := by decide +kernel

/-- A home whose only request waits for its line; the thread of a load or atomic waits for token 50, and a buffer
entry 7 for the request. -/
def sHome (q : Req) (miss : Bool) : State :=
  let s := obj (recOf 0xF) [] { buffer := if q.entries = [] then [] else [⟨7, {}, .obj q, true⟩] }
  let s := { s with homes := [(6, { queue := [(40, q)], mshr := if miss then [0x80C] else [] })] }
  s.updMe fun x => { x with pendC := some ⟨.old 1 2 false .d 0, 2, [], .token 50⟩ }

theorem witness_BufferAndHomes_HomesPerform (acc : Access) (e : List (Nat × Nat)) (h : (acc, e) ∈ [(Access.load false, []), (.store [1, 2, 3, 4, 5, 6, 7, 8], [(0, 7)]),
      (.atomic .add 5 0, [(0, 7)]), (.red .add 5, [(0, 7)])]) (miss : Bool) :
    Served (sHome { req acc with entries := e } miss) (if miss then .l2MissFill 6 0x80C else .homeSliceRequest 6 40) 6 40 { req acc with entries := e } 0x20318 ∧
    Memory.wf (sHome { req acc with entries := e } miss).mem = true ∧ (sHome { req acc with entries := e } miss).poisoned 0x20318 8 = false ∧
    (sHome { req acc with entries := e } miss).findToken 50 = some (0, 0, false) := by
  have sat : ∀ k, ((sHome { req acc with entries := e } miss).home k).sat = [] := by
    intro k
    by_cases hk : k = 6
    · subst hk; rfl
    · have : AMap.get (sHome { req acc with entries := e } miss).homes k = none := by
        simp [sHome, State.updMe, State.updSlot, State.setSlot, State.updCore, State.setCore, AMap.get, Ne.symm hk]
      simp [State.home, this]
  simp only [List.mem_cons, List.not_mem_nil, or_false, Prod.mk.injEq] at h
  rcases h with ⟨rfl, rfl⟩ | ⟨rfl, rfl⟩ | ⟨rfl, rfl⟩ | ⟨rfl, rfl⟩ <;> cases miss <;>
    exact ⟨⟨by decide +kernel, rfl, rfl, rfl, by decide +kernel, by decide +kernel, sat, by decide +kernel, by decide +kernel⟩, by decide +kernel, by decide +kernel, by decide +kernel⟩

theorem witness_BufferAndHomes_HomesPerform_calm : Calm (sHome { req (.store []) with entries := [(0, 7)] } true) 0 := by
  refine ⟨fun j q hq o d r v l hw => ?_, rfl, rfl⟩
  have h : ∀ j : Fin 16, (((sHome { req (.store []) with entries := [(0, 7)] } true).slotAt 0 j).pendC.map (·.wait)) ∈ [none, some (.token 50)] := by
    decide +kernel
  simpa [hq, hw] using h j

/-- Element 99 holds 9. -/
theorem test_homes_perform : ran (exec (.l2MissFill 6 0x80C) (sHome (req (.load false)) true)) (fun t => has 1 9 t && t.me.pendC == none && (t.home 6).queue == []) = true ∧
    ran (exec (.l2MissFill 6 0x80C) (sHome { req (.store [1, 2, 3, 4, 5, 6, 7, 8]) with entries := [(0, 7)] } true)) (fun t =>
      ofBytes (Memory.readN t.mem 0x20318 8) == 0x0807060504030201 && (t.core 0).buffer == []) = true ∧
    ran (exec (.l2MissFill 6 0x80C) (sHome { req (.atomic .add 5 0) with entries := [(0, 7)] } true)) (fun t =>
      ofBytes (Memory.readN t.mem 0x20318 8) == 14 && has 1 9 t && t.me.pendC == none) = true ∧
    ran (exec (.l2MissFill 6 0x80C) (sHome { req (.red .max 5) with entries := [(0, 7)] } true)) (fun t =>
      ofBytes (Memory.readN t.mem 0x20318 8) == 9 && (t.core 0).buffer == []) = true := by decide +kernel

theorem witness_Atomics_AtomicValues : 8 ∈ [4, 8] ∧ 2 ^ 64 - 1 < 2 ^ (8 * 8) ∧ 2 ^ 32 - 1 < 2 ^ (8 * 4) := by decide +kernel

theorem test_atomic_values : [atomNew .add 4 0xFFFFFFFF 1 0, atomNew .incb 4 5 5 0, atomNew .incb 4 4 5 0, atomNew .min 4 0xFFFFFFFF 1 0, atomNew .maxu 4 0xFFFFFFFF 1 0,
    atomNew .tmin 4 0x80000000 0 0, atomNew .tmax 4 0x80000000 0 0, atomNew .cas 4 3 8 3, atomNew .cas 4 4 8 3, redNew .fadd 4 0x3F800000 0x3F800000] =
    [0, 5, 5, 0xFFFFFFFF, 0xFFFFFFFF, 0x80000000, 0, 8, 4, 0x40000000] := by decide +kernel

/-! ### Witnesses and steps: fills, mappings, the host's accesses, messages and migration -/

/-- Slot 1 of core 0 waits for the first code line of the code object (object 1). -/
def sLine : State :=
  let s := { obj (recOf 0xF) [] with part := { ortb := 2 ^ 54 + 0x10000, codeo := 1 } }
  s.updSlot 0 1 fun x => { x with busy := true, fetch := some 0 }

theorem witness_FillsFetchesAndMappings_FillsFetchesAndEchoes : (sLine.slotAt 0 1).fetch = some 0 ∧ sLine.lineReaches 0 (sLine.slotAt 0 1).regs.pc = true := by decide +kernel

/-- It waits for the record of object 1, which no cache holds; for an echo of slice group 2; and home 6 reads a line. -/
def sWant : State :=
  let s := { obj (recOf 0xF) [] with clusters := [], homes := [(6, { mshr := [0x80C] })] }
  s.updSlot 0 1 fun x => { x with busy := true, want := some (0x10000, 1), pendC := some ⟨.fence .dev .rel, 1, [], .release [] [2, 3] false⟩ }

theorem witness_FillsFetchesAndMappings_FillsFetchesAndEchoes_rest : (sWant.slotAt 0 1).want = some (0x10000, 1) ∧
    (sWant.die (dieOf 0)).records.find? (fun x => x.tbase == 0x10000 && x.obj == 1) = none ∧ sWant.fromHome 0 0x10000 1 = some (recOf 0xF) ∧
    (sWant.home 6).mshr.contains 0x80C = true ∧ sWant.linked 6 0x80C = [] ∧ sWant.probeBlocked 0 2 = false ∧ sWant.joined (dieOf 0) (2 / 64) = true ∧
    sWant.dieRuns (6 / 192) = true ∧ sWant.dieRuns (2 / 64) = true := by decide +kernel

theorem witness_FillsFetchesAndMappings_FillsFetchesAndEchoes_sat (k : Nat) : (sWant.home k).sat = [] := by
  by_cases hk : k = 6
  · subst hk; rfl
  · have : AMap.get sWant.homes k = none := by
      simp [sWant, State.updSlot, State.setSlot, State.updCore, State.setCore, AMap.get, Ne.symm hk]
    simp [State.home, this]

theorem test_fills : ran (exec (.icacheFill 0 1) sLine) (fun t => (t.core 0).icache == [0] && (t.slotAt 0 1).fetch == none) = true ∧
    ran (exec (.recordFetch 0 1) sWant) (fun t => (t.slotAt 0 1).want == none && (t.slotAt 0 1).fetched == [(0x10000, 1, recOf 0xF)]) = true ∧
    ran (exec (.l2MissFill 6 0x80C) sWant) (fun t => (t.home 6).mshr == []) = true ∧
    ran (exec (.probeEcho 0 1 2) sWant) (fun t => (t.slotAt 0 1).pendC == some ⟨.fence .dev .rel, 1, [], .release [] [3] false⟩) = true := by decide +kernel

/-- A granule that is not resident (its byte is 5, GEN only), a missing mapping, a wait for two clusters' record caches, and
one for a die's, the last, which the thread waits for. -/
def sAck : State :=
  { obj (recOf 0xF) [] with mem := [(0x11000, 5)], acks := [(9, ⟨0x10000, 1, [0, 7]⟩), (11, ⟨0x10000, 1, [512]⟩)] }.updMe
    fun x => { x with pendC := some ⟨.orw 1 2, 2, [], .token 11⟩ }

theorem witness_FillsFetchesAndMappings_ResidencyMappingAndAcknowledgement : Memory.wf sAck.mem = true ∧ (Memory.read sAck.mem 0x11000).toNat < 128 ∧
    State.hpaOk (5 * 2 ^ 16) = true ∧ sAck.stage2.get (2 ^ 32 - 1) = none ∧ State.hpaOk (2 ^ 27 * 2 ^ 16) = false ∧
    sAck.acks.get 9 = some ⟨0x10000, 1, [0, 7]⟩ ∧ [0, 7].contains 0 = true ∧ sAck.accessPending 0 ⟨0x10000, 1, [0, 7]⟩ = false ∧
    sAck.cacheJoins 0 ⟨0x10000, 1, [0, 7]⟩ = true ∧ [0, 7].filter (fun c => c != 0) ≠ [] ∧
    sAck.acks.get 11 = some ⟨0x10000, 1, [512]⟩ ∧ sAck.accessPending 512 ⟨0x10000, 1, [512]⟩ = false ∧ sAck.cacheJoins 512 ⟨0x10000, 1, [512]⟩ = true ∧
    [512].filter (fun c => c != 512) = [] ∧ sAck.findToken 11 = some (0, 0, false) ∧ sAck.stage2.get 1 = some 1 ∧
    (([(0x20318, 7)] : List Host.Cell).map fun d => d.1).Nodup ∧ 0x11000 ∉ ([(0x20318, 7)] : List Host.Cell).map fun d => d.1 := by decide +kernel

theorem witness_FillsFetchesAndMappings_ResidencyMappingAndAcknowledgement_sat : ∀ k, (sAck.home k).sat = [] := fun _ => rfl

theorem test_residency_and_mapping : ran (exec (.residencyFillRelease 0x11000 []) sAck) (fun t => t.mem == [(0x11000, 0x85)]) = true ∧
    ran (exec (.residencyFillRelease 0x11000 [(0x20318, 7)]) sAck) (fun t => t.mem == [(0x11000, 0x85), (0x20318, 7)]) = true ∧
    ran (exec (.secondStageMapping 1 5) sAck) (fun t => t.stage2.get 1 == some 1) = true ∧
    ran (exec (.recordCacheAcknowledgement 512 11) sAck) (fun t => (t.acks.get 11).isNone && t.me.pendC.isNone) = true ∧
    ran (exec (.secondStageMapping (2 ^ 32 - 1) 5) sAck) (fun t => t.stage2.get (2 ^ 32 - 1) == some 5) = true ∧
    ran (exec (.recordCacheAcknowledgement 0 9) sAck) (fun t => (t.acks.get 9).map (·.left) == some [7] && (t.cluster 0).records == []) = true := by decide +kernel

/-- An address that does not exist stops the machine (R173). -/
theorem test_mapping_fault : exec (.secondStageMapping 3 (2 ^ 27)) sAck = .fault .noSuchAddress := rfl

/-- A load of the window that its agent holds, and a write's acknowledgement on its way. -/
def qAgent : Req := { req (.load false) with hpa := 2 ^ 47 + 0x318 }

def sAgent : State :=
  let s := sHome qAgent false
  let s := { s with net := [(3, { load := .hostAck {}, dst := 0 })], mem := [(2 ^ 47 + 0x318, 0xA5)], stage2 := [(1, 1), (2, 2 ^ 31)] }
  let s := { s with homes := [(1536, { queue := [(40, qAgent)] })], vcores := [(0, { place := .placed, map := vput (Vector.replicate 16 {}) 0 { state := .home 0 } })] }
  s.updMe fun x => { x with unacked := [3] }

theorem witness_HostAccessesAndChecks_HostAccesses : State.hpaOk (80000000000 - 64) = true ∧ State.hpaOk (80000000000 - 64 + 64 - 1) = true ∧ State.hpaOk (80000000000 - 63 + 64 - 1) = false ∧
    (sAgent.home (1536 + 0)).queue.get 40 = some qAgent ∧ sAgent.mayServe 1536 40 qAgent = true ∧ sAgent.curHpa qAgent = 2 ^ 47 + 0x318 ∧
    sAgent.poisoned (2 ^ 47 + 0x318) 8 = false ∧ (sAgent.core 0).buffer = [] ∧ sAgent.findToken 50 = some (0, 0, false) ∧
    (sAgent.home (1536 + 0)).queue.get 3 = none ∧ sAgent.net.get 3 = some { load := .hostAck {}, dst := 0 } ∧ sAgent.findThread {} = some (0, 0) := by
  decide +kernel

theorem witness_HostAccessesAndChecks_HostAccesses_sat : ∀ k, (sObj.home k).sat = [] := fun _ => rfl

theorem test_host_accesses : ran (exec (.hostMemoryAccess 0x20318 2 (some [0x34, 0x12])) sObj) (fun t => ofBytes (Memory.readN t.mem 0x20318 8) == 0x1234) = true ∧
    ran (exec (.hostWindowResponse 0 40) sAgent) (fun t => has 1 0xA5 t && t.me.pendC == none) = true ∧
    ran (exec (.hostWindowResponse 0 3) sAgent) (fun t => t.me.unacked == [] && t.net == []) = true := by decide +kernel

theorem test_host_access_fault : exec (.hostMemoryAccess (80000000000 - 63) 64 none) sObj = .fault .noSuchAddress := rfl

def sCheck (n : Nat) : State := { on (regs []) with checks := [(0x80C, n)] }

/-- The delivery of the line that sends 0xA5 for a byte of 0, with its check of the line as it is. -/
theorem witness_HostAccessesAndChecks_LineChecks : State.hpaOk 0x20318 = true ∧ ((sCheck 2).checks.get (0x20318 / 64)).getD 0 < 3 ∧
    3 ≤ ((sCheck 3).checks.get (0x20318 / 64)).getD 0 ∧ (sCheck 3).partQueues = [] ∧ (0xA5 :: List.replicate 63 (0 : Byte)).length = 64 ∧
    ofBytes (((Memory.readN (sCheck 3).mem 0x20300 64).zip (0xA5 :: List.replicate 63 0)).map fun y => y.1 ^^^ y.2) + (0 : BitVec 32).toNat * 2 ^ 512 = 0xA5 ∧
    crcOf (Memory.readN (sCheck 3).mem 0x20300 64 ++ toBytes 6 0x20300) = crcOf (Memory.readN (sCheck 3).mem 0x20300 64 ++ toBytes 6 0x20300) ^^^ 0 := by
  decide +kernel

theorem witness_HostAccessesAndChecks_LineChecks_fails : crcOf ((0xA5 :: List.replicate 63 (0 : Byte)) ++ toBytes 6 0x20300) ≠
    crcOf (Memory.readN (sCheck 3).mem 0x20300 64 ++ toBytes 6 0x20300) ^^^ 0 := by decide +kernel

theorem test_line_checks : ran (exec (.lineCheck 0x20318 0) (sCheck 3)) (fun t => t.checks == [] && t.poison == []) = true ∧
    ran (exec (.lineCheck 0x20318 0xA5) (sCheck 2)) (fun t => t.checks.get 0x80C == some 3 && t.poison == []) = true ∧
    ran (exec (.lineCheck 0x20318 0xA5) (sCheck 3)) (fun t => t.poison == [0x80C]) = true := by decide +kernel

theorem witness_MessagesLeave_ContinuationWords : (on (regs [])).me.tid.vc < 2 ^ 36 := by decide +kernel

/-- A continuation word names vcore, thread, register and generation (R271). -/
theorem test_continuation : ran (exec (.cont 4 9) ((on { regs [] with tsw := 2 ^ 19 }).updMe fun x => { x with tid := ⟨0x30012, 5, 0xABCD⟩ }))
    (fun t => has 4 0xABCD950000030012 t && t.me.regs.tsw == 0) = true ∧ ran (exec (.cont 0 9) (on (regs []))) (fun t => t.me.bounce == 9) = true := by decide +kernel

/-- Register 1 names register 9 of thread 0 of vcore 0. -/
def sSend : State := on (regs [(1, 9 * 2 ^ 44), (2, 0x77), (3, 2 ^ 36), (4, 2 ^ 20)])

theorem witness_MessagesLeave : sSend.cur.phase = 0 ∧ sSend.cur.isA = false ∧ bits (sSend.g 1) 39 36 = 0 ∧ sSend.inPart (bits (sSend.g 1) 35 0) = true ∧
    NothingPending sSend ∧ bits (sSend.g 3) 39 36 ≠ 0 ∧ bits (sSend.g 4) 39 36 = 0 ∧ sSend.inPart (bits (sSend.g 4) 35 0) = false :=
  ⟨rfl, rfl, by decide +kernel, by decide +kernel, nothing_of _ rfl rfl rfl (by decide +kernel), by decide +kernel, by decide +kernel, by decide +kernel⟩

theorem test_messages_leave : ran (exec (.send 1 2) sSend) (fun t => (match t.net with
      | [(100, x)] => x.load == .message (9 * 2 ^ 44) 0x77 {} none
      | _ => false) && t.me.unacked == [100] && t.cur.out == .done) = true ∧
    ran (exec (.sendw 1 2) sSend) (fun t => t.cur.out == .parked && t.me.pendC == some ⟨.sendw 1 2, 2, [], .token 100⟩) = true ∧
    ran (exec (.send 3 2) sSend) (trapped 1 (2 ^ 36)) = true ∧ ran (exec (.sendw 4 2) sSend) (trapped 0x0B (2 ^ 20)) = true := by decide +kernel

/-- Item 3 on its way to thread 0 of vcore 0, whose map entry is HOME or, ended, NONE. -/
def sMail (load : Load) (live : Bool) : State :=
  let s := { on (regs []) with
    vcores := [(0, { place := .placed, map := vput (Vector.replicate 16 {}) 0 { state := if live then .home 0 else .none } })], net := [(3, { load := load, dst := 0 })] }
  s.updMe fun x => { x with unacked := [3], bounce := 6, journal := vput x.journal 4 (some ⟨2 ^ 63 + 0x40, 3, 0, none⟩) }

theorem witness_MessagesArrive (load : Load) (h : load ∈ [Load.message (9 * 2 ^ 44) 0x77 {} none, .message (9 * 2 ^ 44) 0x77 {} (some 5), .delivered {} none, .returned (9 * 2 ^ 44) {} none]) :
    (sMail load true).net.get 3 = some { load := load, dst := 0 } ∧ (sMail load true).travels { load := load, dst := 0 } = true ∧
    pkgOf (bits (9 * 2 ^ 44 : Word) 35 0) = (sMail load true).pkg ∧ (sMail load true).hop (bits (9 * 2 ^ 44 : Word) 35 0) 0 = .here ∧
    (sMail load true).whereIs (contTid (9 * 2 ^ 44)) = .slot 0 0 ∧ (sMail load false).whereIs (contTid (9 * 2 ^ 44)) = .gone ∧ contTid (9 * 2 ^ 44) = {} ∧
    contReg (9 * 2 ^ 44) ≠ 0 ∧ ((sMail load true).slotAt 0 0).pair = none ∧ ((sMail load true).slotAt 0 0).bounce ≠ 0 := by
  simp only [List.mem_cons, List.not_mem_nil, or_false] at h
  rcases h with rfl | rfl | rfl | rfl <;> decide +kernel

/-- The same with the sender in a SENDW, or without a BOUNCE. -/
def sMailW (load : Load) : State :=
  (sMail load true).updMe fun x => { x with bounce := 0, pendC := some ⟨.sendw 1 2, 2, [], .token 3⟩ }

theorem witness_MessagesArrive_wait : (sMailW (.delivered {} (some 3))).findToken 3 = some (0, 0, false) ∧
    ((sMailW (.delivered {} (some 3))).slotAt 0 0).pendC = some ⟨.sendw 1 2, 2, [], .token 3⟩ ∧
    ((sMailW (.returned (9 * 2 ^ 44) {} (some 3))).slotAt 0 0).bounce = 0 ∧ ((sMailW (.returned (9 * 2 ^ 44) {} (some 3))).slotAt 0 0).events = [] ∧
    (sMailW (.delivered {} (some 3))).whereIs {} = .slot 0 0 ∧ ((sMail (.returned (9 * 2 ^ 44) {} none) true).slotAt 0 0).pendC = none := by
  decide +kernel

/-- SENDW's wait ends with the acknowledgement or the return, which without BOUNCE is an event (R274, R275). -/
theorem test_sendw_ends : ran (exec (.messageAcknowledgement 3) (sMailW (.delivered {} (some 3)))) (fun t => t.me.pendC.isNone && t.net == []) = true ∧
    ran (exec (.messageReturn 3) (sMailW (.returned (9 * 2 ^ 44) {} (some 3)))) (fun t => t.me.pendC.isNone &&
      t.me.events == [⟨.undeliverable, 9 * 2 ^ 44⟩] && t.net == []) = true := by decide +kernel

/-- A CONT of this cycle leaves the mark of the register it names clear (R128). -/
theorem test_cont_leaves_the_mark : ran (exec (.messageDelivery 3) ((sMail (.message (9 * 2 ^ 44) 0x77 {} none) true).updMe fun x => { x with cont := some (9, 0) }))
    (fun t => has 9 0x77 t && t.me.regs.tsw == 0) = true := by decide +kernel

theorem test_messages_arrive : ran (exec (.messageDelivery 3) (sMail (.message (9 * 2 ^ 44) 0x77 {} none) true)) (fun t => has 9 0x77 t && t.me.regs.tsw == 2 ^ 19 &&
      (t.net.get 3).map (·.load) == some (.delivered {} none)) = true ∧
    ran (exec (.messageDelivery 3) (sMail (.message (9 * 2 ^ 44) 0x77 {} none) false)) (fun t => (t.net.get 3).map (·.load) == some (.returned (9 * 2 ^ 44) {} none)) = true ∧
    ran (exec (.messageAcknowledgement 3) (sMail (.delivered {} none) true)) (fun t => t.me.unacked == [] && t.net == []) = true ∧
    ran (exec (.messageReturn 3) (sMail (.returned (9 * 2 ^ 44) {} none) true)) (fun t => has 6 (9 * 2 ^ 44) t && t.me.regs.tsw == 2 ^ 16 && t.net == []) = true := by
  decide +kernel

/-- A guest of vcore 5 on the core of vcore 0, from slot 0. -/
def sGuest : State := (on (regs [(1, 7)])).updMe fun x => { x with tid := { vc := 5 } }

theorem witness_Migration_MigrationLeaves : bits (sGuest.g 1) 63 36 = 0 ∧ sGuest.cur.isA = false ∧ (7 : Nat) ≠ sGuest.me.occ ∧ 7 / 2 ^ 16 = sGuest.pkg ∧ sGuest.cur.slot ≠ 15 ∧ sGuest.sup = false ∧
    sGuest.me.pair = none ∧ (∀ k, sGuest.me.life ≠ .helper k) ∧ sGuest.me.occ ≠ sGuest.me.tid.vc ∧ sGuest.me.tid.vc / 2 ^ 16 = sGuest.pkg ∧
    (on (regs [])).me.occ = (on (regs [])).me.tid.vc ∧ (sup [(1, 7)]).sup = true ∧ bits (sSend.g 3) 63 36 ≠ 0 ∧
    bits (sSend.g 4) 35 0 / 2 ^ 16 ≠ sSend.pkg ∧ bits (sSend.g 4) 63 36 = 0 := by decide +kernel

/-- HOME of a guest in supervisor mode (R325). -/
theorem test_home_traps : ran (exec .home ((sup []).updMe fun x => { x with tid := { vc := 5 } })) (trapped 4 5) = true ∧
    ran (exec (.migr 3) sSend) (trapped 1 (2 ^ 36)) = true ∧ ran (exec (.migr 4) sSend) (trapped 0x0B (2 ^ 20)) = true := by decide +kernel

theorem test_migration_leaves : ran (exec (.migr 1) sGuest) (fun t => t.me.pendC == some ⟨.migr 1, 0, [], .depart [] [] 7⟩) = true ∧
    ran (exec .home sGuest) (fun t => t.me.pendC == some ⟨.home, 0, [], .depart [] [] 5⟩) = true ∧ ran (exec .home (on (regs []))) (fun t => t == on (regs [])) = true ∧
    ran (exec (.migr 1) (sup [(1, 7)])) (trapped 4 7) = true := by decide +kernel

/-- Where an item for vcore 0 stands: at its core, or at its home supervisor, core 0 of die 0 (R279). -/
def arrDst (p : Place) : Nat := if p = .exited then 4096 else 0

/-- The thread of vcore 5 on its way to vcore 0, PLACED or EXITED. -/
def sArr (p : Place) : State :=
  { on (regs []) with vcores := [(0, { place := p, tvec := 0x4000 })], net := [(3, { load := .thread { regs := { regs [(1, 7)] with rmode := 3, vl := 9 }, tid := { vc := 5 } } 0 0, dst := arrDst p })] }

theorem witness_Migration_MigrationArrives (p : Place) : (sArr p).net.get 3 = some { load := .thread { regs := { regs [(1, 7)] with rmode := 3, vl := 9 }, tid := { vc := 5 } } 0 0, dst := arrDst p } ∧
    ((sArr .placed).hop 0 0 = .here ∧ ((sArr .placed).core 0).guests = [] ∧ (sArr .placed).frozen 0 = false ∧ State.dualWaits ((sArr .placed).core 0) = false ∧ State.lowestEmpty ((sArr .placed).core 0) = some 1 ∧
      (sArr .placed).travels { load := .thread {} 0 0, dst := 0 } = true ∧ (sArr .exited).hop 0 4096 = .exited ∧ (sArr .exited).travels { load := .thread {} 0 0, dst := 4096 } = true) := by
  refine ⟨rfl, by decide +kernel⟩

theorem test_migration_arrives : ran (exec (.migrationArrival 3) (sArr .placed)) (fun t => (t.slotAt 0 1).busy && (t.slotAt 0 1).regs.g.get 1 == 7 && (t.slotAt 0 1).regs.vl == 32 &&
      (t.slotAt 0 1).regs.rmode == 0 && (t.slotAt 0 1).regs.tsw == 1 + 2 ^ 9 && (t.slotAt 0 1).regs.tvec == 0x4000 && t.net == []) = true ∧
    ran (exec (.migrationFailure 3) (sArr .exited)) (fun t => match t.net.get 3 with
      | some y => (match y.load with
        | .thread z v _ => v == 5 && z.events == [⟨.undeliverable, 0⟩]
        | _ => false)
      | none => false) = true := by decide +kernel

/-- A posted store of a doubleword of vcore 0 at 0x40, whose journal entries 0 and 4 of the thread are in use. -/
def sRst : State :=
  let s := sMail (.rst {} 4 (2 ^ 63 + 0x40) 8 0x55) true
  { s with cur := { s.cur with src := regs [(1, 2 ^ 63 + 0x40), (2, 0x55), (3, 4), (5, 0x34)] } }

theorem witness_PostedStores : sRst.cur.phase = 0 ∧ (sRst.g 1).toNat % 8 = 0 ∧ (remoteAddr (sRst.g 1)).isSome = true ∧ sRst.inPart (bits (sRst.g 1) 59 24) = true ∧
    State.freeEntry sRst.me = some 0 ∧ (sRst.core 0).buffer.length < 32 ∧ (sRst.g 3).toNat % 8 ≠ 0 ∧ sRst.net.get 3 = some { load := .rst {} 4 (2 ^ 63 + 0x40) 8 (sRst.g 2), dst := 0 } ∧
    sRst.travels { load := .rst {} 4 (2 ^ 63 + 0x40) 8 (sRst.g 2), dst := 0 } = true ∧ pkgOf (bits (sRst.g 1) 59 24) = sRst.pkg ∧ sRst.hop (bits (sRst.g 1) 59 24) 0 = .here ∧
    bits (sRst.g 1) 17 0 + 8 ≤ segLimit (sRst.keptSeg 0) ∧ Memory.wf (sRst.core 0).spad = true ∧ segLimit (lsegOf 0 0) < 0x100 + 1 ∧ sRst.whereIs {} = .slot 0 0 ∧
    sRst.bankOpen 0 = true ∧ (sRst.slotAt 0 0).journal.get 4 = some ⟨2 ^ 63 + 0x40, 3, 0, none⟩ ∧ (sRst.slotAt 0 0).events = [] ∧ (sRst.slotAt 0 0).pendC = none ∧ bits (sRst.g 5) 63 6 = 0 ∧
    (4 : Fin 16).val = bits (sRst.g 5) 3 0 := by decide +kernel

theorem test_posted_stores : ran (exec (.rst 1 2 .d) sRst) (fun t => (t.core 0).buffer == [⟨101, {}, .rst 0 (2 ^ 63 + 0x40) 8 0x55, false⟩] && (t.me.journal.get 0).isSome) = true ∧
    ran (exec (.rstArrival 3) sRst) (fun t => ofBytes (t.spadRead 0 0x40 8) == 0x55 && (t.net.get 3).map (·.load) == some (.rstAck {} 4 none)) = true ∧
    ran (exec (.rstArrival 3) { sRst with vcores := [(0, { place := .placed, segl := 0 })], net := [(3, { load := .rst {} 4 (2 ^ 63 + 0x100) 1 0, dst := 0 })] })
      (fun t => (t.net.get 3).map (·.load) == some (.rstAck {} 4 (some .localRange))) = true ∧ ran (exec (.rst 3 2 .d) sRst) (trapped 3 4) = true := by decide +kernel

/-- An acknowledgement frees the entry; a refusal marks it, and JRNL with bits 4 and 5 reports and frees it. -/
theorem test_journal : ran (exec (.rstAcknowledgement 3) (sMail (.rstAck {} 4 none) true)) (fun t => t.me.journal.get 4 == none) = true ∧
    ran (exec (.rstAcknowledgement 3) (sMail (.rstAck {} 4 (some .localRange)) true)) (fun t => t.me.events == [⟨.remoteRefused, 4⟩] &&
      ran (exec (.jrnl 1 5) { t with cur := { t.cur with src := regs [(5, 0x34)] } }) fun u => (u.me.regs.g.get 1).getLsbD 62 && bits (u.me.regs.g.get 1) 15 8 == 4 && u.me.journal.get 4 == none) = true ∧
    ran (exec (.jrnl 1 3) sRst) (has 1 (2 ^ 63 + 0x40)) = true := by decide +kernel

theorem test_forwarding : ran (exec (.forwardingEntryExpiry 0 5) (on (regs []) { fwd := [⟨5, 8, false, 0⟩, ⟨5, 8, true, 0⟩, ⟨6, 8, false, 0⟩] }))
    (fun t => (t.core 0).fwd == [⟨5, 8, true, 0⟩, ⟨6, 8, false, 0⟩]) = true := by decide +kernel

/-! ### Witnesses and steps: the vector unit (R208-R228) -/

/-- Operands at 0x100, 0x200, 0x300 and 0x400 in registers 1 to 4, with a vector length and a scratchpad. -/
def vec (vl : Word) (spad : List Host.Cell) (ts : Vector Word 8 := Vector.replicate 8 0) : State :=
  onA { regs [(1, 0x100), (2, 0x200), (3, 0x300), (4, 0x400)] with vl := vl, ts := ts } { spad := spad }

def queued (i : Instr) (addrs : List Nat) (t : State) : Bool :=
  (match (t.core 0).vector with
    | [j] => j.ins == i && j.addrs == addrs && j.token == 100
    | _ => false) && t.me.pendA == some ⟨i, 1, [], .token 100⟩

/-- Every form of FP32, and VIOTA of INT32, on operands that lie in the segment. -/
theorem witness_VectorInstructionsIssue : (vectorForms (vec 5 []) 1 2 3 4 .dyn 9 5).all (fun x =>
    match (vec 5 []).resolveAll x.2.2.1 x.2.2.2.1 (fun _ => []) with
    | .ok addrs => x.2.2.2.2.all fun k => !(vec 5 []).spadPoisoned 0 (addrs.getD k 0) ((x.2.2.1.getD k State.noArg).n)
    | .error _ => false) = true ∧ (vec 5 []).cur.isA = true ∧ bits (vec 5 []).cur.src.vl 12 0 = 5 := by decide +kernel

theorem witness_VectorInstructionsIssue_formats : (9 ≤ (9 : BitVec 4).toNat ∧ (9 : BitVec 4).toNat ≤ 11) ∧
    ¬((9 : BitVec 4).toNat ≤ 4) ∧ ¬((14 : BitVec 4).toNat ≤ 4 ∨ (8 ≤ (14 : BitVec 4).toNat ∧ (14 : BitVec 4).toNat ≤ 13)) := by decide +kernel

/-- Operands that fail one of the tests of R212 each: misaligned, a malformed form, another vcore, beyond the segment,
and in a poisoned line. -/
def vecAt (b : Word) : State :=
  let r : Regs := { regs [(1, 0x100), (2, b)] with vl := 5 }
  { onA r { spoiled := [8] } with poison := [] }

theorem witness_VectorInstructionsIssue_tests (i : Instr) (h : i = .vcpy 1 2 .dyn 9) :
    (i, (9 : BitVec 4).toNat ≤ 4 ∨ (8 ≤ (9 : BitVec 4).toNat ∧ (9 : BitVec 4).toNat ≤ 14), [⟨(vecAt 0x202).g 1, 4, 20⟩, ⟨(vecAt 0x202).g 2, 4, 20⟩], [], [1]) ∈
      vectorForms (vecAt 0x202) 1 2 3 4 .dyn 9 5 ∧ (vecAt 0x202).g 1 = 0x100 ∧
    ([⟨0x100, 4, 20⟩, ⟨(vecAt 0x202).g 2, 4, 20⟩] : List State.VArg).find? (fun a => decide (a.ea.toNat % a.al ≠ 0)) = some ⟨0x202, 4, 20⟩ ∧
    ([⟨0x100, 4, 20⟩, ⟨(vecAt 0x40000).g 2, 4, 20⟩] : List State.VArg).find? (fun a => ((vecAt 0x40000).addrForm a.ea).isNone) = some ⟨0x40000, 4, 20⟩ ∧
    (vecAt (2 ^ 63 + 2 ^ 24)).addrForm 0x100 = some (0, 0x100) ∧ (vecAt (2 ^ 63 + 2 ^ 24)).addrForm (2 ^ 63 + 2 ^ 24) = some (1, 0) ∧
    (vecAt 0x3FFFC).addrForm 0x3FFFC = some (0, 0x3FFFC) ∧ (vecAt 0x3FFFC).me.occ = 0 ∧ segLimit (vecAt 0x3FFFC).cur.src.lseg < 0x3FFFC + 20 ∧
    (vecAt 0x200).spadPoisoned 0 0x200 20 = true := by
  subst h
  refine ⟨?_, by decide +kernel⟩
  simp [vectorForms, fmtBytes, bytesOf, fmtBits]

theorem test_operand_traps : ran (exec (.vcpy 1 2 .dyn 9) (vecAt 0x202)) (trapped 3 0x202) = true ∧ ran (exec (.vcpy 1 2 .dyn 9) (vecAt 0x40000)) (trapped 4 0x40000) = true ∧
    ran (exec (.vcpy 1 2 .dyn 9) (vecAt (2 ^ 63 + 2 ^ 24))) (trapped 4 (2 ^ 63 + 2 ^ 24)) = true ∧ ran (exec (.vcpy 1 2 .dyn 9) (vecAt 0x3FFFC)) (trapped 4 0x40000) = true ∧
    ran (exec (.vcpy 1 2 .dyn 9) (vecAt 0x200)) (trapped 0x14 0x200) = true := by decide +kernel

theorem test_vectors_issue : ((vectorForms (vec 5 []) 1 2 3 4 .dyn 9 5).filter fun x => x.1 != .viota 1 2 .dyn 9).all (fun x =>
    match (vec 5 []).resolveAll x.2.2.1 x.2.2.2.1 (fun _ => []) with
    | .ok addrs => ran (exec x.1 (vec 5 [])) (queued x.1 addrs)
    | .error _ => false) = true ∧ ran (exec (.viota 1 2 .dyn 3) (vec 5 [])) (queued (.viota 1 2 .dyn 3) [0x100]) = true ∧
    ran (exec (.viota 1 2 .dyn 9) (vec 5 [])) (trapped 0x0C 0) = true ∧ ran (exec (.vadd 1 2 3 .dyn 12) (vec 5 [])) (trapped 0x0C 0) = true := by decide +kernel

/-- R90's descriptor in ts3, FP32 with a binary32 scale in ts1 and ts2, blocks of 8, and tensor scales of 1. -/
def tsV : Vector Word 8 := #v[0, 0x319, 0x319, 0x4032C, 0, 0, 0x3F803F80, 0]

def sBlk : State := vec 8 [(0x300, 1)] tsV

theorem witness_VectorInstructionsIssue_BlockAndIndexedVectorsIssue : bits sBlk.cur.src.vl 12 0 = 8 ∧ sBlk.cur.isA = true ∧ (sBlk.core 0).spoiled = [] ∧
    (Desc.ofWord (sBlk.cur.src.ts.get 3)).ok = true ∧ (Desc.ofWord (sBlk.cur.src.ts.get 3)).skind ≠ 0 ∧ 8 % (Desc.ofWord (sBlk.cur.src.ts.get 3)).len = 0 ∧
    (Desc.ofWord (sBlk.cur.src.ts.get 1)).ok = true ∧ (Desc.ofWord (sBlk.cur.src.ts.get 1)).skind ≠ 0 ∧ 8 % (Desc.ofWord (sBlk.cur.src.ts.get 1)).len = 0 ∧
    sBlk.resolve (sBlk.g 3) 4 (4 * 8) = .here 0x300 ∧ (∀ k < 8, [1, 0, 0, 0, 0, 0, 0, 0].getD k 0 = ofBytes (sBlk.spadRead 0 (0x300 + 4 * k) 4)) ∧
    sBlk.resolve (sBlk.g 1) 4 (4 * 8) = .here 0x100 ∧ sBlk.resolve (sBlk.g 2) 4 0 = .here 0x200 ∧
    (∀ k ∈ [1, 0, 0, 0, 0, 0, 0, 0], sBlk.resolve (sBlk.g 2) 4 (4 * (k + 1)) = .here 0x200) ∧ (on (regs [])).g 1 = 0 ∧ sBlk.g 1 ≠ 0 := by decide +kernel

theorem witness_VectorInstructionsIssue_BlockAndIndexedVectorsIssue_operands :
    (match sBlk.resolveAll [⟨sBlk.g 1, 1, 8⟩, ⟨sBlk.g 2, 4, 32⟩, ⟨sBlk.g 3, 4, 4⟩] [] (fun _ => []) with
      | .ok l => l == [0x100, 0x200, 0x300] | .error _ => false) = true ∧
    (match sBlk.resolveAll [⟨sBlk.g 1, 4, 8⟩, ⟨sBlk.g 2, 4, 36⟩, ⟨sBlk.g 3, 4, 36⟩] [sBlk.g 2 + 32, sBlk.g 3 + 32] (fun _ => []) with
      | .ok l => l == [0x100, 0x200, 0x300] | .error _ => false) = true := by decide +kernel

/-- Index 2^16 lies beyond the segment, in a gather and a scatter. -/
def sFar : State := vec 2 (Memory.writeN [] 0x300 ([0, 0, 1, 0, 1, 0, 0, 0] : List Byte)) tsV

theorem witness_VectorInstructionsIssue_BlockAndIndexedVectorsIssue_far : (∀ k < 2, [0x10000, 1].getD k 0 = ofBytes (sFar.spadRead 0 (0x300 + 4 * k) 4)) ∧
    sFar.resolve (sFar.g 3) 4 (4 * 2) = .here 0x300 ∧ sFar.resolve (sFar.g 1) 4 (4 * 2) = .here 0x100 ∧ sFar.resolve (sFar.g 2) 4 (4 * 2) = .here 0x200 ∧
    sFar.resolve (sFar.g 1) 4 0 = .here 0x100 ∧ sFar.resolve (sFar.g 2) 4 0 = .here 0x200 ∧ sFar.resolve (sFar.g 2) 4 (4 * (0x10000 + 1)) ≠ .here 0x200 ∧
    sFar.resolve (sFar.g 2) 4 (4 * (1 + 1)) = .here 0x200 ∧ sFar.resolve (sFar.g 1) 4 (4 * (0x10000 + 1)) ≠ .here 0x100 ∧
    ¬(vec 2 []).cur.src.ts.get 3 = 0x4032C ∧ (Desc.ofWord ((vec 2 []).cur.src.ts.get 3)).skind = 0 ∧ ¬((14 : BitVec 4).toNat ≤ 13) := by decide +kernel

theorem test_indexed_traps : ran (exec (.vgth 1 2 3 .dyn 9) sFar) (trapped 4 0x40200) = true ∧ ran (exec (.vsct 1 2 3 false .dyn 9) sFar) (trapped 4 0x40100) = true ∧
    ran (exec (.vgth 1 2 3 .dyn 14) sFar) (trapped 0x0C 0) = true ∧ ran (exec (.vsct 1 2 3 true .dyn 12) sFar) (trapped 0x0C 0) = true ∧
    ran (exec (.vqnt 1 2 3 .rne 9) sBlk) (trapped 0x0C 0) = true ∧ ran (exec (.vdq 1 2 3 .dyn 9) (vec 8 [])) (trapped 0x0C 0) = true := by decide +kernel

theorem test_blocks_issue : ([.vcvt 1 2 10 .dyn 9, .vqnt 1 2 3 .dyn 9, .vdq 1 2 3 .dyn 9, .vbdot 1 2 3 true .dyn, .vgth 1 2 3 .dyn 9] : List Instr).all
    (fun i => ran (exec i sBlk) (queued i [0x100, 0x200, 0x300]) || ran (exec i sBlk) (queued i [0x100, 0x200])) = true ∧
    ran (exec (.vsct 1 2 3 false .dyn 9) sBlk) (queued (.vsct 1 2 3 false .dyn 9) [0x100, 0x200, 0x300]) = true ∧
    ran (exec (.setvl 1 2) (on (regs [(2, 5000)]))) (fun t => has 1 4096 t && t.me.regs.vl == 4096) = true ∧
    ran (exec (.setvl 1 2) (on (regs []))) (fun t => has 1 0 t && t.me.regs.vl == 32) = true := by decide +kernel

/-- What the instruction leaves at an address once its completion cycle has come. -/
def left (i : Instr) (s : State) (a n : Nat) : List Byte :=
  match exec i s with
  | .next t => (match execVectorCompletion 0 4096 { t with time := 1000 } with
    | .next u => if (u.core 0).vector = [] ∧ u.me.pendA = none then u.spadRead 0 a n else []
    | _ => [])
  | _ => []

def words (l : List Nat) : List Byte := l.flatMap (toBytes 4)

/-- (1, 2), (3, 4) and (5, 6) as FP32 at 0x200, 0x300 and 0x400. -/
def sF : State := vec 2 (Memory.writeN (Memory.writeN (Memory.writeN [] 0x200 (words [0x3F800000, 0x40000000])) 0x300 (words [0x40400000, 0x40800000])) 0x400 (words [0x40A00000, 0x40C00000]))

theorem test_vector_arithmetic : ([(.vadd 1 2 3 .dyn 9, [0x40800000, 0x40C00000]), (.vsub 1 2 3 .dyn 9, [0xC0000000, 0xC0000000]), (.vmul 1 2 3 .dyn 9, [0x40400000, 0x41000000]),
    (.vfma 1 2 3 4 .dyn 9, [0x41000000, 0x41600000]), (.vmin 1 2 3 .dyn 9, [0x3F800000, 0x40000000]), (.vmax 1 2 3 .dyn 9, [0x40400000, 0x40800000]),
    (.vcpy 1 3 .dyn 9, [0x40400000, 0x40800000]), (.vpfx 1 2 .dyn 9, [0x3F800000, 0x40400000]), (.vfn 1 2 .exp2 .dyn 9, [0x40000000, 0x40800000])] :
    List (Instr × List Nat)).all (fun x => left x.1 sF 0x100 8 == words x.2) = true := by decide +kernel

def sF2 (l : List (Reg × Word)) : State := { sF with cur := { sF.cur with src := { regs ([(1, 0x100), (2, 0x200), (3, 0x300), (4, 0x400)] ++ l) with vl := 2 } } }

/-- Scalars, comparisons, masks, conversion, derivatives and reductions of two elements. -/
theorem test_vector_rest : left (.vscl 1 2 3 .dyn 9) (sF2 [(3, 0x40000000)]) 0x100 8 = words [0x40000000, 0x40800000] ∧ left (.viota 1 2 .dyn 3) (sF2 [(2, 7)]) 0x100 8 = words [7, 8] ∧
    left (.vcmp 1 2 3 .lt .dyn 9) sF 0x100 2 = [1, 1] ∧ left (.vcvt 1 2 10 .dyn 9) sF 0x100 4 = [0x80, 0x3F, 0x00, 0x40] ∧ left (.vred 1 2 .sum .dyn 9) sF 0x100 4 = words [0x40400000] ∧
    left (.vred 1 2 .tmax .dyn 9) sF 0x100 8 = words [0x40000000, 1] ∧
    left (.vmsel 1 2 3 4 .dyn 9) (vec 2 (Memory.writeN (sF.core 0).spad 0x400 [1, 0])) 0x100 8 = words [0x3F800000, 0x40800000] ∧
    left (.vdfn 1 2 3 .drelu .dyn 9) (vec 2 (Memory.writeN (sF.core 0).spad 0x304 (words [0xC0800000]))) 0x100 8 = words [0x3F800000, 0] ∧
    left (.vgth 1 2 3 .dyn 9) (vec 2 (Memory.writeN (sF.core 0).spad 0x300 (words [1, 0]))) 0x100 8 = words [0x40000000, 0x3F800000] ∧
    left (.vsct 1 2 3 false .dyn 9) (vec 2 (Memory.writeN (sF.core 0).spad 0x300 (words [1, 0]))) 0x100 8 = words [0x40000000, 0x3F800000] := by decide +kernel

/-- R218's sum: 2^24 + 1 and 1 − 2^24, added as a tree, give 1. -/
theorem test_tree_sum : left (.vred 1 2 .sum .dyn 9) (vec 4 (Memory.writeN [] 0x200 (words [0x4B800000, 0x3F800000, 0x3F800000, 0xCB800000]))) 0x100 4 = words [0x3F800000] := by decide +kernel

/-- R224's scores and k-list. -/
theorem test_topk : left (.vtopk 1 2 4 .dyn 10) (vec 5 (Memory.writeN [] 0x200 ([0x3F80, 0x4000, 0x3F80, 0x8000, 0].flatMap (toBytes 2)))) 0x100 40 =
    words [0x4000, 1, 0x3F80, 0, 0x3F80, 2, 0, 4, 0x8000, 3] := by decide +kernel

/-- Two lists of two entries: equal entries keep ra's first. -/
theorem test_merge : left (.vmrg 1 2 3 1 .dyn 9) (vec 1 (Memory.writeN (Memory.writeN [] 0x200 (words [0x40000000, 5, 0x3F800000, 6])) 0x300 (words [0x40400000, 1, 0x40000000, 4]))) 0x100 16 =
    words [0x40400000, 1, 0x40000000, 4] := by decide +kernel

/-- R90's block and its scale word. -/
def spadQ : List Host.Cell := Memory.writeN [] 0x200 (words [0x40400000, 0xBF400000, 0, 0x43FA0000, 0x3A000000, 0x41880000, 0xC3E00000, 0x3EC00000])

theorem test_quantise : left (.vqnt 1 2 3 .dyn 9) (vec 8 spadQ tsV) 0x100 8 = [0x44, 0xB4, 0x00, 0x7E, 0x00, 0x58, 0xFE, 0x2C] ∧
    left (.vqnt 1 2 3 .dyn 9) (vec 8 spadQ tsV) 0x300 4 = words [0x0201887F] := by decide +kernel

/-- Codes of 1.0 under the scale 2 (R221), and VSTAT of R90's word (R228). -/
theorem test_dequantise_and_statistics :
    left (.vdq 1 2 3 .dyn 9) (vec 8 (Memory.writeN (Memory.writeN [] 0x200 (List.replicate 8 0x38)) 0x300 [0x80]) tsV) 0x100 32 = words (List.replicate 8 0x40000000) ∧
    left (.vstat 1 2 .dyn) (vec 1 (Memory.writeN [] 0x200 (words [0x0201887F]))) 0x100 32 = words [1, 2, 0, 0, 0x88, 0x88, 1, 0] := by decide +kernel

/-- Eight products of ones under scales of 1, with its partial (R222). -/
theorem test_block_dot : left (.vbdot 1 2 3 true .dyn) (vec 8 (Memory.writeN (Memory.writeN [] 0x200 (words (List.replicate 9 0x3F800000))) 0x300 (words (List.replicate 9 0x3F800000))) tsV) 0x100 8 =
    words [0x41000000, 0x41000000] := by decide +kernel

/-- The job that VADD has queued, its wait over, in its completion cycle. -/
def jAdd : VJob := { token := 100, slot := 0, ins := .vadd 1 2 3 .dyn 9, regs := (vec 2 []).cur.src, addrs := [0x100, 0x200, 0x300], after := [], issued := 0, start := some 0 }

def sDue : State := { sF with time := 5 }.updCore 0 (fun c => { c with vector := [jAdd] }) |>.updMe fun x => { x with pendA := some ⟨.vadd 1 2 3 .dyn 9, 1, [], .token 100⟩ }

theorem witness_VectorUnitCompletes : VectorDue sDue 0 jAdd [] 5 0 :=
  ⟨rfl, ⟨0, rfl, by decide +kernel⟩, by decide +kernel, rfl, rfl, rfl, by decide +kernel, by decide +kernel,
    fun j q hq => by
      have h : ∀ j : Fin 16, (sDue.slotAt 0 j).pendC = none := by decide +kernel
      rw [h j] at hq; cases hq⟩

theorem witness_VectorElements : Memory.wf (sDue.core 0).spad = true ∧ bits jAdd.regs.vl 12 0 = 2 ∧ (9 : BitVec 4).toNat ≠ 14 ∧
    (∀ x ∈ [(9, 0x200), (9, 0x300)], ∀ k < 2, ∀ l < 2, State.overlap (x.2 + fmtBytes x.1 * k) (fmtBytes x.1) (0x100 + fmtBytes 9 * l) (fmtBytes 9) = false) := by decide +kernel

theorem witness_VectorElements_form : ∃ f, (jAdd.ins, 9, [(9, 0x200), (9, 0x300)], f) ∈ elementWise 1 2 3 0 .dyn 9 0 .rne 0x300 (fun k => jAdd.addrs.getD k 0) :=
  ⟨_, List.mem_append_left _ (List.mem_append_left _ (List.mem_append_left _ (List.mem_cons_self ..)))⟩

theorem test_vector_completes : ran (exec (.vectorCompletion 0 0) sDue) (fun t => (t.core 0).vector == [] && t.me.pendA == none && t.spadRead 0 0x100 8 == words [0x40800000, 0x40C00000]) = true := by
  decide +kernel

/-! ### Witnesses and steps: the matrix engine (R229-R252) -/

/-- A tile of FP32 ones, with scale words of 1; as E4M3 its bytes 0x38 are ones. -/
def ones (scaled : Bool) : Tile :=
  { data := if scaled then List.replicate 1024 0x38 else (List.replicate 256 0x3F800000).flatMap (toBytes 4), sidecar := some (List.replicate 64 0x3F800000) }

/-- Descriptors: FP32 unscaled, or E4M3 with a binary32 scale for each row of 64; FP32 drained. -/
def tsM (scaled : Bool) : Vector Word 8 := if scaled then #v[0, 0x61C, 0x61C, 9, 0, 0, 0, 0] else #v[0, 9, 9, 9, 0, 0, 0, 0]

/-- An A half with its operands: one tile at each stream, an offset vector (20) at 0x40, a tile image at 0x1000. -/
def sMat (scaled : Bool) : State :=
  onA { regs [(1, 0x40), (2, 1 + 20 * 2 ^ 48), (3, 0x1000)] with ts := tsM scaled } { strA := [ones scaled], strB := [ones scaled], spad := [(0x40, 20)] }

theorem witness_MatrixInstructionsAccepted : (sMat false).cur.isA = true ∧ ((sMat false).core 0).spoiled = [] ∧ ((sMat false).core 0).jobs.length < 4 ∧
    bits ((sMat false).g 2) 8 0 = 1 ∧ State.productBad (sMat false).cur.src false = false ∧ State.productBad (sMat true).cur.src true = false ∧
    (∀ n ∈ insTiles 0 (sMat false).cur.src (.mma 7 false false false), (sMat false).kindAfter 0 n ∈ [Kind.empty, .plain]) ∧ ((sMat false).core 0).rotA = none ∧
    (sMat false).resolve ((sMat false).g 1) 4 (4 * 1) = .here 0x40 ∧ [20].getD 0 0 = ofBytes ((sMat false).spadRead 0 (0x40 + 4 * 0) 4) ∧ [20].Pairwise (· ≤ ·) ∧
    bits ((sMat false).g 2) 15 9 = 0 ∧ 0 < bits ((sMat false).g 2) 63 48 ∧ [20].getLastD 0 ≤ bits ((sMat false).g 2) 63 48 ∧
    (groupsAt (bits ((sMat false).g 2) 47 16) [20]).length = 1 ∧ (sMat false).resolve ((sMat false).g 3) 8 1032 = .here 0x1000 ∧
    ofBytes ((sMat false).spadRead 0 (0x1000 + 1024) 8) < 4 ∧ drnBad (sMat false).cur.src false false false .none = false := by decide +kernel

theorem witness_MatrixInstructionsAccepted_entries : Tagged ((sMat false).core 0).strA ((sMat false).core 0).resA 1 (Desc.ofWord ((sMat false).cur.src.ts.get 1)).swz ∧
    Tagged ((sMat false).core 0).strB ((sMat false).core 0).resB 1 (Desc.ofWord ((sMat false).cur.src.ts.get 2)).swz ∧ Scaled ((sMat true).core 0) :=
  ⟨by unfold Tagged; decide +kernel, by unfold Tagged; decide +kernel, by unfold Scaled; decide +kernel⟩

theorem witness_MatrixInstructionsAccepted_resources : Resources ((sMat false).core 0) 1 1 true ∧ ¬Resources ((sMat false).core 0) 2 1 false := by
  refine ⟨⟨by decide +kernel, by decide +kernel, by decide +kernel, fun _ => ⟨rfl, rfl, fun j hj => ?_⟩⟩, fun h => absurd h.2.1 (by decide +kernel)⟩
  exact absurd hj List.not_mem_nil

/-- The scaled forms, MMR's with its entries and their sidecars; and a core with nothing in its streams. -/
def sEmpty : State := onA { regs [] with ts := tsM false }

theorem witness_MatrixInstructionsAccepted_scaled : (Desc.ofWord ((sMat true).cur.src.ts.get 1)).skind ≠ 0 ∧ (Desc.ofWord ((sMat true).cur.src.ts.get 2)).skind ≠ 0 ∧
    (∀ n ∈ insTiles 0 (sMat true).cur.src (.mmr 7 false), (sMat true).kindAfter 0 n ∈ [Kind.empty, .scaled]) ∧ ((sMat true).core 0).rotA = none ∧
    ((sMat true).core 0).rotB = none ∧ ((sMat true).core 0).jobs = [] ∧ ((sMat true).core 0).strA.length = 1 ∧
    (((sMat true).core 0).strA.all fun x => x.sidecar.isSome) = true ∧
    (sEmpty.core 0).strA.length < (sEmpty.core 0).resA + 1 ∧ State.productBad sEmpty.cur.src false = false ∧ (sEmpty.tileAt 0 7).owner = sEmpty.me.occ % 2 ^ 16 := by
  decide +kernel

theorem test_stalled : ran (exec (.mma 7 false false false) sEmpty) (fun t => t.cur.out == .held && t.me.stalled == some (1, 1, false) && (t.core 0).jobs == []) = true ∧
    ran (exec (.mmr 7 false) (sMat true)) (fun t => (t.core 0).jobs.map (·.ins) == [.mmr 7 false]) = true := by decide +kernel

theorem witness_MatrixInstructionsAccepted_owned : ([.mma 7 false false false, .mmas 7 false false false, .mmr 7 false, .mmg 7 1 2 false, .aclr 7, .amovSt 7 3, .amovLd 7 3,
    .drn 7 3 false false false false false .none ⟨0, 0, 0, 0⟩] : List Instr).all (fun i => insTiles 0 (sMat false).cur.src i == [7]) = true ∧
    ((sMat false).tileAt 0 7).owner = (sMat false).me.occ % 2 ^ 16 ∧
    (match (sMat false).resolveAll (drnArgs (sMat false) 3 false false false ⟨0, 0, 0, 0⟩) [] (fun _ => []) with
      | .ok l => l == [0x1000] | .error _ => false) = true := by decide +kernel

/-- A tile that vcore 9 owns. -/
def sOther : State := (sMat false).setTile 0 7 { owner := 9 }

theorem witness_MatrixInstructionsAccepted_owner : (insTiles 0 sOther.cur.src (.aclr 7)).find? (fun n => (sOther.tileAt 0 n).owner != sOther.me.occ % 2 ^ 16) = some 7 := by
  decide +kernel

def accepted (i : Instr) (a b : Nat) (t : State) : Bool :=
  (t.core 0).jobs.map (fun j => (j.ins, j.token, j.needA, j.needB)) == [(i, 100, a, b)] && (t.core 0).resA == a && (t.core 0).resB == b && t.me.pendA == some ⟨i, 1, [], .token 100⟩

/-- A full job queue accepts nothing: the thread stands still (R238). -/
def sFullQueue : State :=
  (sMat false).updCore 0 fun c => { c with jobs := List.replicate 4 { ins := .aclr 0, slot := 0, occ := 0, regs := {}, token := 0, accepted := 0 } }

theorem witness_MatrixInstructionsAccepted_full : ¬Resources (sFullQueue.core 0) 1 1 false := fun h => absurd h.1 (by decide +kernel)

theorem test_full_queue : ran (exec (.mma 7 false false false) sFullQueue) (fun t => t.cur.out == .held && (t.core 0).jobs.length == 4 && (t.core 0).resA == 0) = true := by decide +kernel

theorem test_matrix_accepted : ([.mma 7 false false false, .mmr 7 false, .mmg 7 1 2 false] : List Instr).all (fun i => ran (exec i (sMat false)) (accepted i 1 1)) = true ∧
    ran (exec (.mmas 7 false false false) (sMat true)) (accepted (.mmas 7 false false false) 1 1) = true ∧
    ([.aclr 7, .amovSt 7 3, .amovLd 7 3, .drn 7 3 false false false false false .none ⟨0, 0, 0, 0⟩] : List Instr).all (fun i => ran (exec i (sMat false)) (accepted i 0 0)) = true ∧
    ran (exec (.aclr 7) sOther) (trapped 0x0F 7) = true ∧ ran (exec (.mmas 7 false false false) (sMat false)) (trapped 0x0C 0) = true := by decide +kernel

/-- A job accepted at cycle 0, its thread waiting for token 50, the engine awake in cycle 10. -/
def sJob (i : Instr) (scaled : Bool) : State :=
  let n := if i = .aclr 0 then 0 else 1
  let j : MJob := { token := 50, slot := 0, ins := i, regs := { regs [] with ts := tsM scaled }, occ := 0, accepted := 0, needA := n, needB := n }
  let s := onA (regs []) { strA := [ones scaled], strB := [ones scaled], resA := n, resB := n, jobs := [j] }
  let s := s.updMe fun x => { x with pendA := some ⟨i, 1, [], .token 50⟩ }
  { s with time := 10, clusters := [(0, { eng := { awake := true, tiles := [(0, { kind := .plain, data := [(0, 0x3F800000)] })] } })] }

theorem witness_EngineConsumes (i : Instr) (h : i ∈ [.aclr 0, .mma 0 false false false, .mmas 0 false false true, .mmr 0 false]) :
    (sJob i (i = .mmas 0 false false true)).nextJob 0 = ((sJob i (i = .mmas 0 false false true)).core 0).jobs.head?.map (fun j => (0, j)) ∧
    ((sJob i (i = .mmas 0 false false true)).core 0).jobs.map (·.ins) = [i] ∧ ((sJob i (i = .mmas 0 false false true)).core 0).strA = [ones (i = .mmas 0 false false true)] ∧
    (sJob i (i = .mmas 0 false false true)).findToken 50 = some (0, 0, true) := by
  simp only [List.mem_cons, List.not_mem_nil, or_false] at h
  rcases h with rfl | rfl | rfl | rfl <;> decide +kernel

theorem witness_EngineConsumes_rest : (Desc.ofWord ((tsM false).get 1)).fmt ≠ 8 ∧ mmrScaled { regs [] with ts := tsM false } = false ∧
    ((sJob (.mmr 0 false) false).vcore 0).gang = none := by decide +kernel

/-- From 1.0, 16 products of ones make 17 (R236); a scaled block of 64 makes 64 (R237). -/
theorem test_product_elements : productElement { regs [] with ts := tsM false } (ones false) (ones false) false false 0x3F800000 0 0 = 0x41880000 ∧
    scaledElement { regs [] with ts := tsM true } (ones true) (ones true) false false 0 0 0 = 0x42800000 := by decide +kernel

/-- The engine consumes an ACLR: no entry of the streams goes. -/
theorem test_engine_clears : ran (exec (.consumption 0) (sJob (.aclr 0) false)) (fun t => (t.tileAt 0 0).data == [] && (t.tileAt 0 0).kind == .empty && (t.core 0).strA.length == 1 &&
    (t.core 0).jobs == [] && t.me.pendA == none) = true := by decide +kernel

/-- An AMOV.ST in its 72nd cycle, a drain about to start, and one at its first row and at its end. -/
def sMove : State :=
  let j : MJob := { token := 50, slot := 0, ins := .amovSt 0 3, regs := regs [], occ := 0, accepted := 0, addrs := [0x1000] }
  let s := onA (regs []) { moves := [{ job := j, begun := 0, buf := List.replicate 129 0x1122334455667788 }] }
  let s := s.updMe fun x => { x with pendA := some ⟨.amovSt 0 3, 1, [], .token 50⟩ }
  { s with time := 72, clusters := [(0, { eng := { awake := true } })] }

theorem witness_DrainsAndMoves_move : sMove.nextJob 0 = none ∧ (sMove.core 0).moves.map (fun m => (m.done, m.buf.length, decide (m.begun + 72 ≤ sMove.time))) = [(0, 129, true)] ∧
    (∀ x : Fin 8, x ≠ 0 → (sMove.core (8 * 0 + x.val)).moves = []) ∧ sMove.findToken 50 = some (0, 0, true) ∧ (∀ x ∈ sMove.bankDue 0, (0 : Fin 16) ≤ x) ∧ Memory.wf (sMove.core 0).spad = true := by decide +kernel

def jDrn : MJob := { token := 50, slot := 0, ins := .drn 0 3 false false false false false .none ⟨0, 0, 0, 0⟩, regs := { regs [] with ts := tsM false }, occ := 0, accepted := 0, addrs := [0x1000] }

def sDrn (d : Option Drain) (jobs : List MJob) (now : Nat) : State :=
  let s := onA (regs []) { jobs := jobs }
  let s := s.updMe fun x => { x with pendA := some ⟨jDrn.ins, 1, [], .token 50⟩ }
  { s with time := now, clusters := [(0, { eng := { awake := true, drain := d, tiles := [(0, { kind := .plain, data := [(0, 0x3F800000)] })] } })] }

def dRow (row : Nat) (buf : List (Nat × List Byte)) : Drain := { core := 0, job := jDrn, tiles := [{ kind := .plain, data := [(0, 0x3F800000)] }], start := 8, row := row, buf := buf }

theorem witness_DrainsAndMoves : (sDrn none [jDrn] 10).nextDrain 0 = some (0, jDrn) ∧ ((sDrn none [jDrn] 10).engine 0).drain = none ∧
    ((sDrn (some (dRow 0 [])) [] 31).engine 0).drain = some (dRow 0 []) ∧ (sDrn (some (dRow 0 [])) [] 31).time < (dRow 0 []).start + 24 ∧ (dRow 15 []).row < 16 ∧
    (dRow 16 []).start + 24 ≤ (sDrn (some (dRow 16 [])) [] 32).time ∧ (sDrn (some (dRow 16 [])) [] 32).findToken 50 = some (0, 0, true) ∧
    (Desc.ofWord (jDrn.regs.ts.get 3)).fmt = 9 ∧ (dRow 0 [(0x1000, [1])]).buf = (0x1000, [1]) :: [] := by decide +kernel

/-- With two accesses left. -/
theorem test_moves : ran (exec (.consumption 0) (sMove.updCore 0 fun c => { c with moves := c.moves.map fun m => { m with done := 127 } })) (fun t => (t.core 0).moves == [] &&
    t.me.pendA == none && t.spadRead 0 0x1400 8 == [0x88, 0x77, 0x66, 0x55, 0x44, 0x33, 0x22, 0x11]) = true := by decide +kernel

theorem test_drain_starts : ran (exec (.drainStart 0) (sDrn none [jDrn] 10)) (fun t => (t.core 0).jobs == [] && (t.engine 0).drain == some { core := 0, job := jDrn, tiles := [{ kind := .plain, data := [(0, 0x3F800000)] }], start := 10 }) = true := by decide +kernel

theorem test_drains : ran (exec (.drainStart 0) (sDrn (some (dRow 0 [])) [] 31)) (fun t => (t.engine 0).drain.map (fun d => (d.row, d.buf.length, d.buf.headD (0, []))) == some (1, 16, (0x1000, [0, 0, 0x80, 0x3F]))) = true ∧
    ran (exec (.drainStart 0) (sDrn (some (dRow 16 [])) [] 32)) (fun t => (t.engine 0).drain == none && t.me.pendA == none) = true := by decide +kernel

/-- Streams, a tile with one element, and an engine that has idled for 2^16 cycles or holds a wake request. -/
def sEng (awake : Bool) : State :=
  let s := on (regs []) { strA := [ones false, ones false], strB := [ones false], resA := 1, rotA := some (ones false, 5, 1) }
  { s with time := if awake then 2 ^ 16 else 1024, clusters := [(0, { eng := { awake := awake, request := if awake then none else some 3, tiles := [(0, { kind := .plain, data := [(0, 0x3F800000)] })] } })] }

theorem witness_StreamsTilesAndSleep : ((sEng true).core 0).strA.length ≤ 16 ∧ ((sEng true).tileAt 0 (8 * (0 % 8) + 0)).owner = (sEng true).me.occ % 2 ^ 16 ∧ ((sEng true).core 0).jobs = [] ∧
    ((sEng true).core 0).moves = [] ∧ ((sEng true).tileAt 0 0).ready ≤ (sEng true).time ∧ ((sEng true).engine 0).awake = true ∧ ((sEng true).engine 0).active + 2 ^ 16 ≤ (sEng true).time ∧
    ((sEng false).engine 0).awake = false ∧ ((sEng false).engine 0).request = some 3 ∧ 3 < (sEng false).time ∧ (sEng false).time % 1024 = 64 * (0 % 16) ∧
    ((sEng true).core 0).rotA = some (ones false, 5, 1) ∧ 5 ≤ (sEng true).time ∧ ((sEng true).core 1).strA.length < 16 ∧ (∀ i : Fin 8, ((sEng true).core (8 * 0 + i.val)).jobs = []) := by decide +kernel

/-- A drain of tile 0 is running, and ASTAT's last phase has come. -/
def sAstat : State := { sDrn (some (dRow 3 [])) [] 20 with cur := { isA := true } }

theorem witness_StreamsTilesAndSleep_drain : (sAstat.tileAt 0 (8 * (0 % 8) + 0)).owner = sAstat.me.occ % 2 ^ 16 ∧ sAstat.cur.phase = 0 ∧ (sAstat.core 0).jobs = [] ∧
    (sAstat.core 0).moves = [] ∧ (sAstat.engine 0).drain = some (dRow 3 []) ∧ (dRow 3 []).core = coreNum 0 ∧ 8 * (0 % 8) + 0 ∈ insTiles 0 (dRow 3 []).job.regs (dRow 3 []).job.ins ∧
    sAstat.cur.isA = true ∧ ((sEng true).engine 0).drain = none ∧ (BitVec.ofNat 64 16).toNat + 4 ≤ sAstat.time := by decide +kernel

theorem test_astat_behind_a_drain : ran (exec (.astat 1 0) sAstat) (fun t => t.me.pendA == some ⟨.astat 1 0, 3, [2 ^ 48 + 255 * 2 ^ 16 + 127 * 2 ^ 8 + 127, 0, 50], .poll⟩) = true ∧
    ran (exec (.astat 1 0) { sAstat with cur := { sAstat.cur with phase := 2, held := [7, 16] } }) (has 1 7) = true := by decide +kernel

/-- ASTAT of a tile with the one element 1.0: exponents 127, 255 zeros (R250). -/
theorem test_streams_and_sleep : ran (exec (.qpop false) (sEng true)) (fun t => (t.core 0).strA.length == 1 && (t.core 0).strB.length == 1) = true ∧
    ran (exec (.qlvl 1) (sEng true)) (has 1 (1 + 2 ^ 8 + 2 ^ 16 + 2 ^ 24)) = true ∧ ran (exec (.astat 1 0) (sEng true)) (has 1 (2 ^ 48 + 255 * 2 ^ 16 + 127 * 2 ^ 8 + 127)) = true ∧
    ran (exec .mwake (on (regs []))) (fun t => (t.engine 0).request == some 0) = true ∧ ran (exec (.engineSleep 0) (sEng true)) (fun t => !(t.engine 0).awake) = true ∧
    ran (exec (.engineWake 0) (sEng false)) (fun t => (t.engine 0).awake && (t.engine 0).usable == 1088) = true ∧
    ran (exec (.rotationBufferForward 0 false) (sEng true)) (fun t => (t.core 0).rotA == none && (t.core 1).strA == [ones false]) = true := by decide +kernel

/-! ### Witnesses and steps: mailboxes and the copy unit (R254-R268) -/

/-- The movement thread of core 0 runs, in slot 15; worker slots 0 and 3 hold tasks. -/
def onM (l : List (Reg × Word)) (c : Core := {}) : State :=
  let s := on (regs l) { c with slots := vput c.slots 15 { busy := true, life := .movement, regs := regs l } }
  { s.updSlot 0 3 fun x => { x with busy := true } with cur := { src := regs l, slot := 15 } }

/-- A worker with a request or a reply. -/
def sMbx (q r : Option Word) : State := (on (regs [(2, 0x77)])).updMe fun x => { x with request := q, reply := r }

/-- Requests of slots 0 and 3, the later passed over n times. -/
def sAsk (n : Nat) (reply : Option Word) : State :=
  ((onM [(3, 3), (4, 0x99)]).updSlot 0 0 fun x => { x with request := some 5 }).updSlot 0 3 fun x => { x with request := some 7, passed := n, reply := reply, occ := 6, asked := 6 }

theorem witness_MailboxesAndCopies_Mailboxes : (sMbx none none).cur.slot ≠ 15 ∧ (sMbx none none).me.occ = (sMbx none none).me.tid.vc ∧ (sMbx none none).me.request = none ∧
    (sMbx none none).me.reply = none ∧ (sMbx (some 1) (some 9)).me.request ≠ none ∧ (sMbx (some 1) (some 9)).me.reply = some 9 ∧ (sAsk 14 none).cur.slot = 15 ∧
    ((sAsk 14 none).slotAt 0 0).request = some 5 ∧ (∀ k < (0 : Fin 16), ((sAsk 14 none).slotAt 0 k).request = none) ∧ (∀ k : Fin 16, ((sAsk 14 none).slotAt 0 k).passed < 15) ∧
    (∀ k : Fin 16, k ≠ 15 → ((onM []).slotAt 0 k).request = none) ∧ (onM []).cur.slot = 15 ∧
    (sAsk 14 none).g 3 = BitVec.ofNat 64 (3 : Fin 16).val ∧ ((sAsk 14 none).slotAt 0 3).reply = none ∧ ((sAsk 14 none).core 0).askers = [] := by decide +kernel

theorem test_mailboxes : ran (exec (.mbxw 2) (sMbx none none)) (fun t => t.me.request == some 0x77) = true ∧
    ran (exec (.mbxw 2) (sMbx (some 1) none)) (fun t => t.cur.out == .parked && t.me.request == some 1) = true ∧
    ran (exec (.mbxr 1) (sMbx none (some 9))) (fun t => has 1 9 t && t.me.reply == none) = true ∧
    ran (exec (.mbxr 1) (sMbx none none)) (fun t => t.cur.out == .parked) = true ∧ ran (exec (.mbxr 1) (onM [])) (trapped 1 0) = true ∧
    ran (exec (.mbxrMovement 1 2) (sMbx none none)) (trapped 1 0) = true := by decide +kernel

theorem test_movement_mailboxes : ran (exec (.mbxrMovement 1 2) (sAsk 14 none)) (fun t => has 1 0 t && has 2 5 t && (t.slotAt 0 0).request == none &&
      (t.slotAt 0 3).request == some 7 && (t.slotAt 0 3).passed == 15 && (t.core 0).client == some 0) = true ∧
    ran (exec (.mbxrMovement 1 2) (sAsk 15 none)) (fun t => has 1 3 t && has 2 7 t && (t.core 0).client == some 6) = true ∧
    ran (exec (.mbxwMovement 3 4) (sAsk 0 none)) (fun t => (t.slotAt 0 3).reply == some 0x99) = true ∧
    ran (exec (.mbxwMovement 3 4) (sAsk 0 (some 1))) (fun t => t.cur.out == .parked && (t.slotAt 0 3).reply == some 1) = true := by decide +kernel

/-- A well-formed request for each kind: 16 bytes from local 0x200 to 0x300, one tile, one row, one granule. -/
def reqOf : CopyKind → Vector Word 4
  | .cpy => #v[0x200, 0x300, 16, 0]
  | .cpytA | .cpytB => #v[0x400, 0, 1 + 4 * 2 ^ 56, 0]
  | .cpyf => #v[0x1122334455667788, 0x300, 16, 0]
  | .cpyg => #v[2 ^ 40, 0x300, 2 ^ 62 + 0x200 * 2 ^ 32 + 1 * 2 ^ 16 + 8, 0]
  | .pfch | .evct => #v[2 ^ 40, 0, 0, 0]

/-- The movement thread with a request's words at local 0x60. -/
def sSub (k : CopyKind) : State := onM [(2, 0x60)] { spad := Memory.writeN [] 0x60 ((reqOf k).toList.flatMap fun w => toBytes 8 w.toNat) }

theorem witness_MailboxesAndCopies_CopySubmissions : (submissions 1 2 true).all (fun x => decide ((sSub x.2.1).cur.phase = 0) && decide ((sSub x.2.1).cur.slot = 15) && decide (((sSub x.2.1).g 2).toNat % 32 = 0) &&
    (sSub x.2.1).localRange ((sSub x.2.1).g 2) 32 == some 0x60 && !(sSub x.2.1).spadPoisoned 0 0x60 32 &&
    (List.finRange 4).all (fun k => (reqOf x.2.1).get k == BitVec.ofNat 64 (ofBytes ((sSub x.2.1).spadRead 0 (0x60 + 8 * k.val) 8))) &&
    !(Req4.bad x.2.1 x.2.2 (reqOf x.2.1)) && decide (((sSub x.2.1).core 0).channel.length < 16)) = true ∧
    ((onM [(2, 0x61)]).g 2).toNat % 32 ≠ 0 ∧ (onM [(2, 2 ^ 18)]).localRange ((onM [(2, 2 ^ 18)]).g 2) 32 = none ∧ Req4.bad .cpyf false (vput (reqOf .cpyf) 3 1) = true ∧
    (sMbx none none).cur.src.tsw.getLsbD 8 = false ∧ (on { regs [] with tsw := 2 ^ 8 }).cur.src.tsw.getLsbD 8 = true := by decide +kernel

/-- The record of an INT64 array of 2^20 elements at 0x20000. -/
def bigRec : Rec := #v[2 ^ 63 + 4 * 2 ^ 56 + 0x20000, 2 ^ 20, 0, 1, 0, 0xF, 0x11000, 0]

def pfWord (far : Bool) : Word := if far then 2 ^ 40 + 2 ^ 18 else 2 ^ 40

/-- A helper's PFCH of element 0, and of element 2^18 beyond the first granule, which is not resident. -/
def sHelpPf (far : Bool) : State :=
  let s := obj bigRec [(2, 0x60)] { spad := Memory.writeN [] 0x60 (toBytes 8 (pfWord far).toNat) }
  { s with cur := { s.cur with src := { s.cur.src with tsw := 2 ^ 8 } } }

theorem witness_MailboxesAndCopies_CopySubmissions_helper (far : Bool) : (sHelpPf far).cur.slot ≠ 15 ∧ (sHelpPf far).cur.src.tsw.getLsbD 8 = true ∧ ((sHelpPf far).g 2).getLsbD 63 = false ∧
    ((sHelpPf far).g 2).toNat % 32 = 0 ∧ (sHelpPf far).localRange ((sHelpPf far).g 2) 32 = some 0x60 ∧ (sHelpPf far).spadPoisoned 0 0x60 32 = false ∧
    (∀ k : Fin 4, (#v[pfWord far, 0, 0, 0] : Vector Word 4).get k = BitVec.ofNat 64 (ofBytes ((sHelpPf far).spadRead 0 (0x60 + 8 * k.val) 8))) ∧
    1 < 2 ^ tableLog (sHelpPf far).cur.src.ortb ∧ (sHelpPf far).recordAt 0x10000 1 = some bigRec ∧ bigRec.ok = true ∧ State.elemTests bigRec (pfWord far) Rec.permW none (bits (pfWord far) 39 0) = none ∧
    bigRec.granule (bigRec.offset (bits (pfWord far) 39 0)) = (if far then 32 else 0) ∧ (sHelpPf far).resident bigRec (if far then 32 else 0) = !far ∧
    Req4.bad .pfch false #v[pfWord far, 0, 0, 0] = false := by
  cases far <;> decide +kernel

/-- A full channel. -/
theorem witness_MailboxesAndCopies_CopySubmissions_full : 16 ≤ ((onM [(2, 0x60)] { channel := List.replicate 16 { kind := .cpy, stg := false, q := reqOf .cpy, id := 1, client := 0 } }).core 0).channel.length := by
  decide +kernel

theorem test_helper_prefetch : ran (exec (.pfch 1 2) (sHelpPf false)) (fun t => has 1 0 t && t.fills == []) = true ∧
    ran (exec (.pfch 1 2) (sHelpPf true)) (fun t => has 1 0 t && t.fills == [(0x10000, 1, 32)]) = true := by decide +kernel

theorem witness_MailboxesAndCopies_CopySubmissions_pending (k : CopyKind) : NothingPending (sSub k) := nothing_of _ rfl rfl rfl (by cases k <;> decide +kernel)

theorem test_copy_submissions : (submissions 1 2 false).all (fun x => ran (exec x.1 (sSub x.2.1)) fun t => has 1 1 t && (t.vcore 0).next == 2 &&
      (t.core 0).channel == [{ kind := x.2.1, stg := x.2.2, q := reqOf x.2.1, id := 1, client := 0 }]) = true ∧
    (submissions 1 2 true).all (fun x => ran (exec x.1 (onM [(2, 0x61)])) (trapped 3 0x61) && ran (exec x.1 (onM [(2, 2 ^ 18)])) (trapped 4 (2 ^ 18)) &&
      ran (exec x.1 (sMbx none none)) (trapped 1 0)) = true ∧
    ran (exec (.cpyf 1 2 false) (onM [(2, 0x60)] { spad := [(0x78, 1)] })) (trapped 1 0x60) = true ∧
    ran (exec (.pfch 1 2) (on { regs [(1, 5)] with tsw := 2 ^ 8 })) (has 1 0) = true := by decide +kernel

/-- A core whose channel holds one job; local byte 0x200 holds 0xAA, 0x300 to 0x303 hold 1. -/
def jobOf (k : CopyKind) (q : Vector Word 4) : CopyJob := { kind := k, stg := false, q := q, id := 1, client := 0 }

def sRun (j : CopyJob) : State := on (regs []) { channel := [j], spad := [(0x200, 0xAA), (0x300, 1), (0x301, 1), (0x302, 1), (0x303, 1), (0x400, 0x5A)] }

/-- The same at the object's record: element 99 of object 1. -/
def sRunM (j : CopyJob) : State :=
  { obj (recOf 0xF) [] { channel := [j], spad := [(0x200, 0xAA)] } with vcores := [(0, { place := .placed, ortb := 2 ^ 54 + 0x10000 })] }

/-- Two bytes of a pattern, two bytes of the scratchpad, one tile, the eight bytes of element 99, a pattern to it, and
a job that has ended. -/
def jFill : CopyJob := { jobOf .cpyf #v[0x8877665544332211, 0x301, 2, 0] with done := 1 }
def jCopy : CopyJob := jobOf .cpy #v[0x200, 0x301, 2, 0]
def jTile : CopyJob := jobOf .cpytA (reqOf .cpytA)
def jLoad : CopyJob := { jobOf .cpy #v[ref99, 0x300, 2 ^ 62 + 8, 0] with begun := true }
def jStore : CopyJob := { jobOf .cpyf #v[0x8877665544332211, ref99, 2 ^ 60 + 8, 0] with begun := true }
def jPast : CopyJob := jobOf .cpyf #v[0x8877665544332211, 2 ^ 18 - 1, 2, 0]
def jEnded : CopyJob := { jCopy with begun := true, done := 2, ended := true }

theorem witness_CopyRuns (j : CopyJob) (h : j ∈ [jFill, jCopy, jTile, jPast, jEnded]) :
    ((sRun j).core 0).channel = [j] ∧ (sRun j).dieRuns (dieOf 0) = true ∧ ((sRun j).cluster 0).coll = [] ∧ (sRun j).bankOpen 0 = true ∧ ((sRun j).core 0).spoiled = [] ∧
    Memory.wf ((sRun j).core 0).spad = true ∧ segLimit ((sRun j).keptSeg j.client) = 2 ^ 18 ∧ ((sRun j).core 0).strA.length < 16 ∧
    (sRun j).hartOwes 0 (State.chanTid 0) = false ∧ ((sRun j).vcore j.client).completed = [] ∧ ((sRun j).vcore j.client).done + 1 = j.id := by
  simp only [List.mem_cons, List.not_mem_nil, or_false] at h
  rcases h with rfl | rfl | rfl | rfl | rfl <;> decide +kernel

theorem witness_CopyRuns_requests : jFill.ended = false ∧ Req4.len jFill.q = 2 ∧ jFill.done < 2 ∧ Req4.dk jFill.q = 0 ∧ bits (jFill.q.get 1) 17 0 + 1 < 2 ^ 18 ∧
    Req4.sk jCopy.q = 0 ∧ bits (jCopy.q.get 0) 17 0 + 0 < 2 ^ 18 ∧ Req4.count jTile.q = 1 ∧ Req4.scv jTile.q = false ∧ bits (jTile.q.get 0) 5 0 = 0 ∧ Req4.sk jTile.q = 0 ∧
    bits (jTile.q.get 0) 17 0 + 1024 * 0 + 1024 ≤ 2 ^ 18 ∧ Req4.sk jLoad.q = 1 ∧ Req4.len jLoad.q = 8 ∧ Req4.dk jStore.q = 1 ∧ Req4.sk jPast.q = 0 ∧
    2 ^ 18 ≤ bits (jPast.q.get 1) 17 0 + 1 ∧ jEnded.stg = false := by decide +kernel

theorem witness_CopyRuns_others (j : CopyJob) : ∀ q, q / 8 = 0 / 8 → q ≠ 0 → ((sRun j).core q).channel = [] := by
  intro q _ h
  simp [sRun, on, State.core, AMap.get, Ne.symm h]

/-- The request that a location in memory stands for. -/
def reqAt (l : State.Loc) : Req :=
  match l with
  | .mem q => q
  | _ => { pos := 0, acc := .load false, gpa := 0, hpa := 0, n := 0, rd := 0, token := 0, key := (0, 0), ref := 0 }

theorem mem_of (l : State.Loc) (h : (reqAt l).n ≠ 0) : ∃ q, l = .mem q := by
  cases l with
  | mem q => exact ⟨q, rfl⟩
  | _ => exact absurd rfl h

theorem witness_CopyRuns_memory : (∃ q, (sRunM jLoad).jobSource 0 jLoad 0 = .mem q) ∧ ∃ q, (sRunM jStore).jobDest 0 jStore 0 = .mem q :=
  ⟨mem_of _ (by decide +kernel), mem_of _ (by decide +kernel)⟩

theorem witness_CopyRuns_requested :
    (reqAt ((sRunM jLoad).jobSource 0 jLoad 0)).hpa = 0x20318 ∧ (sRunM jLoad).hartPending 0 0x20318 = none ∧
    (sRunM jLoad).lineBusy (State.reqHome (reqAt ((sRunM jLoad).jobSource 0 jLoad 0))) 0x20318 = false ∧ (sRunM jLoad).poisoned 0x20318 1 = false ∧
    ((sRunM jStore).core (reqAt ((sRunM jStore).jobDest 0 jStore 0)).pos).buffer.length < 32 ∧ (sRunM jLoad).bankOpen 0 = true := by decide +kernel

def leaves (a : Nat) (l : List Byte) (done : Nat) (ended : Bool) (t : State) : Bool :=
  t.spadRead 0 a l.length == l && (match (t.core 0).channel with | [k] => k.ended == ended && k.done == done && k.status == 0 | _ => false)

theorem test_copy_runs : ran (exec (.copyChunk 0) (sRun jFill)) (leaves 0x300 [1, 1, 0x22, 1] 2 true) = true ∧
    ran (exec (.copyChunk 0) (sRun jCopy)) (leaves 0x300 [1, 0xAA, 1, 1] 1 false) = true ∧
    ran (exec (.copyChunk 0) (sRun jTile)) (fun t => match (t.core 0).strA with | [x] => x.tag == 4 && x.data.length == 1024 && x.data.head? == some 0x5A | _ => false) = true ∧
    ran (exec (.copyChunk 0) (sRunM jLoad)) (fun t => t.spadRead 0 0x300 2 == [9, 0]) = true ∧
    ran (exec (.copyChunk 0) (sRun jEnded)) (fun t => (t.core 0).channel == [] && (t.vcore 0).done == 1) = true := by decide +kernel

theorem test_copy_ends : ran (exec (.copyChunk 0) (sRun { jPast with done := 1 })) (fun t => match (t.core 0).channel with
      | [k] => k.ended && k.status == 3 && k.cause == 4 && k.done == 1 | _ => false) = true ∧
    ran (exec (.copyChunk 0) (sRunM jStore)) (fun t => (match (t.core (reqAt ((sRunM jStore).jobDest 0 jStore 0)).pos).buffer with
      | [e] => (match e.op with | .obj q => q.hpa == 0x20318 && q.n == 1 | _ => false) | _ => false) && Memory.read t.mem 0x20318 == 9) = true := by decide +kernel

/-- A copy hart whose channel's job 1 is complete; a thread that waits with a deadline; a history. -/
def sHart (l : List CopyJob) : State :=
  let s := on (regs [(1, 0x0000000100020300), (2, 1)]) { channel := l }
  { s with cur := { s.cur with hart := true } }

def sXw (done : Nat) : State :=
  let s := on (regs [(2, 7), (3, 100)])
  let s := s.updMe fun x => { x with pendC := some ⟨.xwaitT 1 2 3, 1, [], .poll⟩, latch := regs [(2, 7), (3, 100)] }
  { s with time := 112, vcores := [(0, { place := .placed, done := done, history := [⟨7, 3, 4, 2 ^ 32 + 5⟩] })] }

theorem witness_CompletionAndWaiting : (on (regs [])).cur.hart = false ∧ (sHart [jobOf .cpy (reqOf .cpy)]).cur.hart = true ∧
    0 = cluOf (sHart []).cur.pos * 8 + bits ((sHart []).g 1) 2 0 ∧ (jobOf .cpy (reqOf .cpy)).id = ((sHart []).g 2).toNat ∧ ((sHart []).vcore 0).completed = [] ∧
    ((sHart []).vcore 0).done + 1 = 1 ∧ (sXw 7).me.occ = (sXw 7).me.tid.vc ∧ ((sXw 7).g 2).toNat ≤ ((sXw 7).vcore 0).done ∧ ((sXw 6).vcore 0).done < ((sXw 6).g 2).toNat ∧
    ((sXw 6).slotAt 0 0).pendC = some ⟨.xwaitT 1 2 3, 1, [], .poll⟩ ∧ (sXw 6).time % 16 = 0 ∧ (((sXw 6).slotAt 0 0).latch.g.get 3).toNat ≤ (sXw 6).time ∧
    ((sXw 7).vcore 0).history.head? = some ⟨7, 3, 4, 2 ^ 32 + 5⟩ := by decide +kernel

theorem test_completion_and_waiting : ran (exec (.mbxd 1 2) (on (regs []))) (trapped 1 0) = true ∧
    ran (exec (.mbxd 1 2) (sHart [jobOf .cpy (reqOf .cpy)])) (fun t => (t.core 0).channel == [] && (t.vcore 0).done == 1 && (t.vcore 0).history == [⟨1, 3, 2, 1⟩]) = true ∧
    ran (exec (.xwait 2) (sXw 7)) (fun t => t.cur.out == .done) = true ∧ ran (exec (.xwait 2) (sXw 6)) (fun t => t.cur.out == .parked) = true ∧
    ran (exec (.xwaitT 1 2 3) (sXw 7)) (has 1 1) = true ∧ ran (exec (.xwaitT 1 2 3) (sXw 6)) (fun t => t.cur.out == .parked) = true ∧
    ran (exec (.xwaitDeadline 0 0) (sXw 6)) (fun t => t.me.pendC == none && has 1 0 t) = true ∧ ran (exec (.xwaitDeadline 0 0) (sXw 7)) (has 1 1) = true ∧
    ran (exec (.xstat 1 2) (sXw 6)) (has 1 0) = true ∧ ran (exec (.xstat 1 2) (sXw 7)) (has 1 (2 ^ 63 + (2 ^ 32 - 1) * 2 ^ 16 + 4 * 2 ^ 8 + 3)) = true := by decide +kernel

/-- A supervisor gives the hart of cluster 63 object 1, whose record has X. -/
def sKick : State :=
  let s := obj (recOf 0xF) [(1, 2 ^ 40 + 63)]
  { s with cur := { s.cur with src := { s.cur.src with tsw := 2 ^ 4 } } }

theorem witness_CompletionAndWaiting_kick : sKick.sup = true ∧ sKick.cur.phase = 0 ∧ bits (sKick.g 1) 39 6 = 0 ∧ sKick.look (bits (sKick.g 1) 63 40) = .got (recOf 0xF) ∧
    (recOf 0xF).rvk = false ∧ (recOf 0xF).permX = true ∧ sKick.hartBusy 63 = false := by decide +kernel

theorem witness_CompletionAndWaiting_pending : NothingPending sKick := nothing_of _ rfl rfl rfl (by decide +kernel)

theorem test_kick : ran (exec (.kick 1) sKick) (fun t => (t.cluster 63).microcode == 1) = true := by decide +kernel

/-! ### Witnesses and steps: groups and collectives (R290-R305) -/

/-- The record of a window object of group 9. -/
def recW : Rec := recOf (0x1F + 9 * 2 ^ 24)

/-- A sheaf entry of group 9: OP 0, virtual channel 3, the root. -/
def sheaf9 : BitVec 128 := BitVec.ofNat 128 (2 ^ 127 + 3 * 2 ^ 119 + 0xFF * 2 ^ 104 + 9 * 2 ^ 64)

/-- Group register 7 of vcore 0, in the thread of slot sl. -/
def sGrp (x : Grp) (l : List (Reg × Word)) (c : Core := {}) : State :=
  let s := obj recW l c
  { s with vcores := [(0, { place := .placed, grp := vput (Vector.replicate 8 {}) 7 x })], dies := [(0, { sheaf := [sheaf9] })] }

def g9 (rounds : List Round) : Grp := { bound := true, obj := 1, gid := 9, vc := 3, rank := 1, nrank := 2, wfmt := 9, seq := 5, rounds := rounds }

/-- CMC's words: object 1; rank 1 of 2, k-lists of FP32. -/
def sCmc : State := sGrp {} [(1, 2 ^ 40), (2, 9 * 2 ^ 60 + 2 * 2 ^ 32 + 1)]

/-- A window of group 9 has been revoked. -/
def ended (s : State) : State := { s with trees := [(9, { revoked := true })] }

theorem witness_CollectiveInstructions_cmc : sCmc.cur.phase = 0 ∧ sCmc.cur.isA = false ∧ sCmc.me.occ = sCmc.me.tid.vc ∧
    State.openRound ((sCmc.vcore sCmc.me.tid.vc).grp.get 7) = false ∧ bits (sCmc.g 2) 63 60 ∈ [0, 9, 10, 11] ∧ bits (sCmc.g 2) 59 56 = 0 ∧ bits (sCmc.g 2) 31 24 = 0 ∧
    bits (sCmc.g 2) 23 0 < bits (sCmc.g 2) 55 32 ∧ sCmc.look (bits (sCmc.g 1) 63 40) = .got recW ∧ recW.rvk = false ∧ recW.multi = true ∧
    sCmc.sheafOf (dieOf sCmc.cur.pos) recW.group = some sheaf9 ∧ ((sCmc.vcore sCmc.me.tid.vc).grp.get 7).bound = false ∧
    sCmc.revoked recW.group = false ∧ (ended sCmc).revoked recW.group = true := by decide +kernel

theorem witness_Bound (rs : List Round) (h : rs ∈ [[], [{ n := 4, complete := true, result := 8 }], [{ n := 4, cancelled := true }], [{ n := 4 }],
      [{ n := 4, desc := some ⟨.ar, 9, 1, 0, 0, 0⟩, complete := true, status := 3, cause := 8 }]]) : Bound (sGrp (g9 rs) []) 7 (g9 rs) recW := by
  simp only [List.mem_cons, List.not_mem_nil, or_false] at h
  rcases h with rfl | rfl | rfl | rfl | rfl <;> exact ⟨by decide +kernel, by decide +kernel, by decide +kernel, by decide +kernel, by decide +kernel, by decide +kernel, by decide +kernel⟩

theorem witness_CollectiveInstructions_pending : NothingPending (sGrp (g9 []) [(1, 0x55)]) := nothing_of _ rfl rfl rfl (by decide +kernel)

/-- Values of GABT's operand: the running round, one not started, one that is over. -/
theorem witness_CollectiveInstructions_abort : ([(4 : Word), 5, 3].all fun w => bits w 63 32 == 0) = true ∧ (g9 []).seq.toNat ≤ (5 : Word).toNat ∧ (4 : Word).toNat < (g9 []).seq.toNat ∧
    (3 : Word).toNat < ({ g9 [] with noticed := 4 } : Grp).noticed ∧ ((sGrp (g9 []) []).tree (g9 []).gid).cancels = [] ∧ (∀ y ∈ (g9 []).rounds, y.n ≠ (g9 []).seq.toNat) := by
  decide +kernel

theorem test_group_scalars : ran (exec (.cmc 7 1 2) sCmc) (fun t => (t.vcore 0).grp.get 7 == { g9 [] with seq := 0 }) = true ∧
    ran (exec (.gseq 1 7) (sGrp (g9 []) [])) (has 1 5) = true ∧
    ran (exec (.gst 7 1) (sGrp (g9 []) [(1, 0x55)])) (fun t => (t.vcore 0).grp.get 7 == { g9 [{ n := 5, wait := some (100, 0x55) }] with seq := 6 } && t.me.pendC == some ⟨.gst 7 1, 2, [5], .token 100⟩) = true ∧
    ran (exec (.gld 1 7) (sGrp (g9 []) [(1, 3)])) (has 1 0) = true ∧
    ran (exec (.gld 1 7) (sGrp (g9 [{ n := 4, complete := true, result := 8 }]) [])) (has 1 8) = true ∧
    ran (exec (.gld 1 7) (sGrp (g9 [{ n := 4, desc := some ⟨.ar, 9, 1, 0, 0, 0⟩, complete := true, status := 3, cause := 8 }]) [])) (has 1 0x400000803) = true ∧
    ran (exec (.gld 1 7) (sGrp (g9 [{ n := 4, cancelled := true }]) [])) (trapped 0x12 4) = true ∧
    ran (exec (.gld 1 7) (sGrp (g9 [{ n := 4 }]) [])) (fun t => t.cur.out == .parked) = true := by decide +kernel

theorem test_group_aborts : ran (exec (.gabt 7 1) (sGrp (g9 []) [(1, 5)])) (fun t => t.net == [] && t.trees == [] && t.cur.out == .done) = true ∧
    ran (exec (.gabt 7 1) (sGrp (g9 []) [(1, 4)])) (fun t => (t.tree 9).cancels == [⟨4, [0], [100]⟩] && t.cur.out == .parked) = true ∧
    ([.gseq 1 7, .gst 7 1, .gld 1 7, .gabt 7 1, .wnw 7 1 2 7] : List Instr).all (fun i => ran (exec i sCmc) (trapped 1 7)) = true := by decide +kernel

/-- The movement thread with a descriptor at 0x60: AR over 3 wrapped 32-bit elements from 0x10 to 0x20, offset 2. -/
def descW : List Word := [3 * 2 ^ 60 + 3, 0x10, 0x20, 0]

def sCol : State :=
  let s := sGrp (g9 []) [] { spad := Memory.writeN [] 0x60 (descW.flatMap fun w => toBytes 8 w.toNat) }
  let s := s.updSlot 0 15 fun x => { x with busy := true, life := .movement }
  { s with cur := { s.cur with slot := 15, src := { s.cur.src with g := (regs [(1, 0x60), (2, 2)]).g } } }

theorem witness_CollectiveInstructions_jobs : Bound sCol 7 (g9 []) recW ∧ sCol.cur.slot = 15 ∧ (sCol.g 1).toNat % 32 = 0 ∧ sCol.localRange (sCol.g 1) 32 = some 0x60 ∧
    sCol.spadPoisoned sCol.cur.pos 0x60 32 = false ∧ descW.length = 4 ∧ (∀ i < 4, descW.getD i 0 = BitVec.ofNat 64 (ofBytes (sCol.spadRead sCol.cur.pos (0x60 + 8 * i) 8))) ∧
    State.descBad .ar (g9 []).nrank descW (sCol.g 2) = false ∧ State.collFmtOk .ar (g9 []).op (State.descOf .ar descW (sCol.g 2)).fmt = true ∧ NothingPending sCol ∧
    ((sCol.cluster (cluOf sCol.cur.pos)).coll.filter fun j => j.prio == 3).length < 16 :=
  ⟨⟨by decide +kernel, by decide +kernel, by decide +kernel, by decide +kernel, by decide +kernel, by decide +kernel, by decide +kernel⟩, by decide +kernel, by decide +kernel, by decide +kernel, by decide +kernel,
    by decide +kernel, by decide +kernel, by decide +kernel, by decide +kernel, nothing_of _ rfl rfl rfl (by decide +kernel), by decide +kernel⟩

theorem test_gcol : ran (exec (.gcol 7 1 2 3 .ar) sCol) (fun t => (t.cluster 0).coll == [{ vc := 0, n := 7, gid := 9, prio := 3, round := 5 }] &&
      (t.vcore 0).grp.get 7 == { g9 [{ n := 5, desc := some ⟨.ar, 3, 3, 0x12, 0x22, 0⟩ }] with seq := 6 }) = true ∧
    ran (exec (.gcol 7 1 2 3 .bar) sCol) (trapped 1 0x60) = true := by decide +kernel

/-- A list of two entries at the end of the scratchpad; the continuation names register 2 of thread 1 of vcore 0. -/
def sWnw : State := sGrp (g9 []) [(1, 0x3FFF0), (2, 2 ^ 44 + 2 * 2 ^ 40)] { spad := [(0x3FFF0, 3), (0x3FFF8, 2)] }

theorem witness_CollectiveInstructions_lists : Bound sWnw 7 (g9 []) recW ∧ (g9 []).wfmt ≠ 0 ∧ (sWnw.g 1).toNat % 8 = 0 ∧ sWnw.localRange (sWnw.g 1) (8 * ((1 : Fin 8).val + 1)) = some 0x3FFF0 ∧
    bits (sWnw.g 2) 39 36 = 0 ∧ sWnw.spadPoisoned sWnw.cur.pos 0x3FFF0 (8 * ((1 : Fin 8).val + 1)) = false ∧ NothingPending sWnw :=
  ⟨⟨by decide +kernel, by decide +kernel, by decide +kernel, by decide +kernel, by decide +kernel, by decide +kernel, by decide +kernel⟩, by decide +kernel, by decide +kernel, by decide +kernel, by decide +kernel,
    by decide +kernel, nothing_of _ rfl rfl rfl (by decide +kernel)⟩

/-- The same after a revocation (R304). -/
theorem witness_CollectiveInstructions_revoked : (ended sWnw).revoked 9 = true ∧ (ended sCol).revoked 9 = true ∧ (ended sWnw).look 1 = .got recW ∧ (ended sCol).look 1 = .got recW ∧
    (ended sWnw).me.occ = (ended sWnw).me.tid.vc ∧ ((ended sCol).vcore 0).grp.get 7 = g9 [] := by decide +kernel

theorem test_revoked : ran (exec (.cmc 7 1 2) (ended sCmc)) (trapped 9 (2 ^ 40)) = true ∧ ran (exec (.gst 7 1) (ended sWnw)) (trapped 9 (2 ^ 40)) = true ∧
    ran (exec (.wnw 7 1 2 1) (ended sWnw)) (trapped 9 (2 ^ 40)) = true ∧ ran (exec (.gcol 7 1 2 3 .ar) (ended sCol)) (fun t => (t.slotAt 0 15).regs.tcause == 9) = true ∧
    ran (exec (.gcol 7 1 2 3 .ar) { sCol with vcores := [(0, { place := .placed })] }) (fun t => (t.slotAt 0 15).regs.tcause == 1 && (t.slotAt 0 15).regs.tval == 7) = true := by
  decide +kernel

theorem test_wnw : ran (exec (.wnw 7 1 2 1) sWnw) (fun t => match t.net.get 100 with
    | some y => y.load == .klist 9 (2 ^ 44 + 2 * 2 ^ 40) 2 9 2 [3, 2] 0x3FFF0 0
    | none => false) = true := by decide +kernel

/-- Rank 1 waits to contribute to round 5, to which rank 0 has given 2^64 − 1; or the chunk is combined. -/
def r5 : Round := { n := 5, wait := some (50, 7) }

def treeOf (done : Bool) : TreeRound :=
  { n := 5, parts := { rank := 0, chunk := 0, elems := [(2 ^ 64 - 1, false)] } :: (if done then [{ rank := 1, chunk := 0, elems := [(7, false)] }] else []), sums := if done then [(0, [(6, false)])] else [] }

def sRound (r : Round) (tr : TreeRound) : State :=
  let s := (sGrp { g9 [r] with noticed := 5, seq := 6 } []).updMe fun x => { x with pendC := some ⟨.gst 7 1, 2, [5], .token 50⟩ }
  { s with trees := [(9, { rounds := [tr], fin := 5 })] }

def r5given : Round := { n := 5, granted := 1 }

/-- A GLD waits for it with token 50, its result going to register 1. -/
def r5read : Round := { r5given with readers := [(50, 1)] }

theorem witness_CollectiveEvents_CollectiveRounds : (∀ x ∈ [(r5, false), (r5given, true), (r5read, true)], Running (sRound x.1 (treeOf x.2)) 0 9 7 { g9 [x.1] with noticed := 5, seq := 6 } x.1) ∧
    r5.wait = some (50, 7) ∧ r5.granted = 0 ∧ r5.delivered = 0 ∧ r5.desc = none ∧ ((sRound r5 (treeOf false)).tree 9).fin ≤ 5 ∧
    (sRound r5 (treeOf false)).findToken 50 = some (0, 0, false) ∧ ((sRound r5 (treeOf false)).tree 9).rounds = [treeOf false] ∧ (treeOf false).sums = [] ∧
    (∀ x ∈ (treeOf false).parts, x.rank ≠ (g9 []).rank ∧ x.chunk = 0 ∧ x.marked = none ∧ x.elems.length = 1) ∧ (treeOf false).parts.length + 1 = (g9 []).nrank ∧
    r5given.granted = 1 ∧ (treeOf true).sums = [(0, [(6, false)])] ∧ (treeOf true).parts.length = (g9 []).nrank ∧ (∀ x ∈ (treeOf true).parts, x.chunk = 0) ∧ (treeOf true).complete = [] ∧
    (sRound r5given (treeOf true)).hartOwes ((sRound r5given (treeOf true)).posOf 0) (State.collTid 0 7) = false ∧ r5given.readers = [] ∧ r5read.readers = [(50, 1)] ∧
    (sRound r5read (treeOf true)).findToken 50 = some (0, 0, false) := by
  refine ⟨fun x hx => ?_, by decide +kernel⟩
  simp only [List.mem_cons, List.not_mem_nil, or_false] at hx
  rcases hx with rfl | rfl | rfl <;> exact ⟨by decide +kernel, by decide +kernel, rfl, rfl, rfl, rfl, by decide +kernel⟩

/-- The wrapped sum of 2^64 − 1 and 7 is 6 (R294). -/
theorem test_rounds : ran (exec (.reservationGrant 0 9) (sRound r5 (treeOf false))) (fun t => (t.tree 9).rounds == [treeOf true] && t.me.pendC == none) = true ∧
    ran (exec (.collectiveDelivery 0 9) (sRound r5given (treeOf true))) (fun t => ((t.vcore 0).grp.get 7).rounds == [{ r5given with delivered := 1, complete := true, result := 6 }] &&
      (t.tree 9).rounds == [{ treeOf true with complete := [1] }]) = true ∧
    ran (exec (.collectiveDelivery 0 9) (sRound r5read (treeOf true))) (fun t => has 1 6 t && t.me.pendC == none) = true := by decide +kernel

/-- Round 4 is complete at every rank; and a cancel of round 4 is on its way, while round 5 has been started. -/
def sNotice : State := { sGrp { g9 [{ n := 4, complete := true }] with noticed := 4 } [] with trees := [(9, { fin := 5 })] }

def sCancel : State :=
  let s := sGrp { g9 [{ n := 4 }, { n := 5 }] with seq := 6 } []
  { s with trees := [(9, { cancels := [⟨4, [0], []⟩] })], cores := [] }

theorem witness_CollectiveEvents : sNotice.boundTo 0 9 = [7] ∧ ((sNotice.vcore 0).grp.get 7).noticed = 4 ∧ (sNotice.tree 9).fin = 5 ∧ (sNotice.tree 9).cancels = [] ∧
    sCancel.boundTo 0 9 = [7] ∧ (sCancel.tree 9).cancels = [⟨4, [0], []⟩] ∧ sCancel.threads = [] ∧ sCancel.hartOwes (sCancel.posOf 0) (State.collTid 0 7) = false ∧ (∀ y ∈ ((sCancel.vcore 0).grp.get 7).rounds, y.desc = none) := by decide +kernel

theorem test_group_events : ran (exec (.completionNotice 0 9) sNotice) (fun t => ((t.vcore 0).grp.get 7).noticed == 5) = true ∧
    ran (exec (.roundCancel 0 9) sCancel) (fun t => (t.tree 9).cancels == [] && ((t.vcore 0).grp.get 7).seq == 4 && ((t.vcore 0).grp.get 7).rounds.all (·.cancelled)) = true := by decide +kernel

/-- A list of FP32 keys 2.0 and −1.0 (its entries hold indices in the high half), and a slot that waits for it. -/
def slot9 : WSlot := ⟨9, 2 ^ 44, 2, 9, 2, 1, 0, [0x0000000740000000, 0x000000083F800000], 0x40⟩

def sList (slots : List WSlot) : State :=
  { sGrp (g9 []) [] with net := [(3, { load := .klist 9 (2 ^ 44) 2 9 2 [0x0000000140000000, 0x00000002BF800000] 0x80 0, dst := 0 })], dies := [(0, { sheaf := [sheaf9], winnow := slots })] }

theorem witness_CollectiveEvents_lists : (sList []).net.get 3 = some { load := .klist 9 (2 ^ 44) 2 9 2 [0x0000000140000000, 0x00000002BF800000] 0x80 0, dst := 0 } ∧
    (sList []).travels { load := .klist 9 (2 ^ 44) 2 9 2 [0x0000000140000000, 0x00000002BF800000] 0x80 0, dst := 0 } = true ∧ ((sList []).die 0).winnow = [] ∧
    ((sList [slot9]).die 0).winnow = [slot9] ∧ slot9.gid = 9 ∧ slot9.key = 2 ^ 44 ∧ slot9.lists + 1 = slot9.nrank ∧ pkgOf (bits (2 ^ 44 : Word) 35 0) = (sList []).pkg ∧
    sheaf9.getLsbD 127 = true ∧ ((sList []).die 0).sheaf.length < 1024 ∧ (sheaf9 - 2 ^ 127).getLsbD 127 = false ∧
    (∃ d < 8, ((sList []).sheafOf d (Sheaf.gid sheaf9)).isSome = true) := by decide +kernel

/-- Equal keys come in order of index (R224). -/
theorem test_lists_and_sheaf : ran (exec (.winnowMerge 3) (sList [])) (fun t => (t.die 0).winnow == [⟨9, 2 ^ 44, 2, 9, 2, 1, 0, [0x0000000140000000, 0x00000002BF800000], 0x80⟩] && t.net == []) = true ∧
    ran (exec (.winnowMerge 3) (sList [slot9])) (fun t => (t.die 0).winnow == [] && (t.net.get 100).map (·.load) == some (.winnow (2 ^ 44) [0x0000000140000000, 0x0000000740000000] 0x40)) = true ∧
    ran (exec (.sheafTableWrite 2 (sheaf9 + 2 ^ 96 + 2 ^ 118)) (sList [])) (fun t => (t.die 2).sheaf == [sheaf9]) = true ∧
    ran (exec (.sheafTableWrite 0 (sheaf9 - 2 ^ 127)) (sList [])) (fun t => (t.die 0).sheaf == []) = true := by decide +kernel

/-! ### Witnesses and steps: swath streams (R306-R323) -/

/-- Object 1 may be recorded, and object 2, an FP32 array in the same place, is its twin. -/
def recS : Rec := recOf (0x2F + 2 * 2 ^ 40)

def recT : Rec := #v[2 ^ 63 + 9 * 2 ^ 56 + 0x20000, 100, 0, 1, 0, 0xF, 0x11000, 0]

/-- Vcore 0 with stream 3 and group register 7; vcore 1 at position 8; the twin's element 99 is 1.5. -/
def sSw (x : Stream) (l : List (Reg × Word)) (r : Rec := recS) : State :=
  let s := obj r (l ++ [(1, 0x10000000062)])
  { s with
    part := { packages := [0] }
    mem := Memory.writeN (Memory.writeN s.mem 0x10080 (recT.toList.flatMap fun w => toBytes 8 w.toNat)) 0x2018C (toBytes 4 0x3FC00000)
    vcores := [(0, { place := .placed, ortb := 2 ^ 55 + 0x10000, str := vput (Vector.replicate 4 {}) 3 x, grp := vput (Vector.replicate 8 {}) 7 { bound := true, obj := 1, gid := 9 }
                     map := vput (Vector.replicate 16 {}) 0 { state := .home 0 } }),
      (1, { place := .placed, ortb := 2 ^ 55 + 0x10000, pos := 8, grp := vput (Vector.replicate 8 {}) 7 { bound := true, obj := 1, gid := 9 } })] }

/-- An entry of kind 3: element 99 of object 1, sent to vcore 1. -/
def entryOf (seq : Nat) (awaiting : Bool) : SwEntry :=
  { w := #v[BitVec.ofNat 64 (3 * 2 ^ 44 + 9 * 2 ^ 40 + 3 * 2 ^ 32 + seq), 2 ^ 40 + 99, BitVec.ofNat 64 ((if awaiting then 0 else 2 ^ 60) + 2 ^ 36 + 1), if awaiting then -1 else 0xFFFFFFFFFFFFFF02]
    port := some 0, awaiting := awaiting, ends := [(0, 0), (1, 8)] }

def strOf (n quota : Nat) (awaiting : Bool) : Stream :=
  { isOpen := true, quota := quota, gdesc := 9, next := BitVec.ofNat 32 n, dlo := 4, entries := (List.range n).filterMap fun k => if 4 ≤ k then some (k, entryOf k awaiting) else none }

/-- The address of a location in memory. -/
def memHpa (l : State.Loc) : Option Nat :=
  match l with
  | .mem q => some q.hpa
  | _ => none

theorem witness_SwathStreams : (sSw {} [(2, 9)]).cur.phase = 0 ∧ (sSw {} [(2, 9)]).me.occ = (sSw {} [(2, 9)]).me.tid.vc ∧ (sSw {} [(2, 9)]).g 0 = 0 ∧
    bits ((sSw {} [(2, 9)]).g 2) 63 32 = 0 ∧ State.gdescOk ((sSw {} [(2, 9)]).g 2) = true ∧ (strOf 6 8 false).isOpen = true ∧ (strOf 6 8 false).busy = false ∧
    (∀ e ∈ (strOf 6 8 false).entries, e.2.awaiting = false) ∧ bits ((sSw {} [(3, 4), (4, 2 ^ 63 + 1)]).g 3) 63 32 = 0 ∧ bits ((sSw {} [(3, 4), (4, 2 ^ 63 + 1)]).g 4) 62 32 = 0 ∧
    (strOf 6 8 false).entries.length < 2 ^ 29 ∧ bits ((sSw {} [(2, 2 ^ 32 + 9)]).g 0) 39 0 = 0 ∧ bits ((sSw {} [(2, 2 ^ 32 + 9)]).g 2) 63 32 ≠ 0 := by decide +kernel

theorem test_swath_streams : ran (exec (.swopen 3 0 2) (sSw {} [(2, 9)])) (fun t => (t.vcore 0).str.get 3 == { isOpen := true, quota := 2048, gdesc := 9 }) = true ∧
    ran (exec (.swopen 3 0 2) (sSw {} [(2, 2 ^ 32 + 9)])) (trapped 1 (2 ^ 32 + 9)) = true ∧
    ran (exec (.swclose 3) (sSw (strOf 6 8 false) [])) (fun t => (t.vcore 0).str.get 3 == { strOf 6 8 false with isOpen := false, entries := [], dlo := 6 }) = true ∧
    ran (exec (.swclose 3) (sSw (strOf 6 8 true) [])) (fun t => t.cur.out == .parked) = true ∧
    ran (exec (.swdrop 3 3 4) (sSw (strOf 6 8 false) [(3, 4), (4, 2 ^ 63 + 1)])) (fun t => (t.vcore 0).str.get 3 == { strOf 6 8 false with rcmp := true, entries := [(5, entryOf 5 false)], dlo := 5 }) = true ∧
    ran (exec (.swdrop 3 3 4) (sSw {} [])) (trapped 1 3) = true ∧
    ran (exec (.swqry 3 2 .state) (sSw (strOf 6 8 false) [])) (has 2 (2 ^ 63 + 2 * 2 ^ 32 + 6)) = true ∧
    ran (exec (.swqry 3 2 .counts) (sSw { strOf 6 8 false with orphan := 1, rerouted := 2, moved := 3, undelivered := 4 } [])) (has 2 0x1000200030004) = true ∧
    ran (exec (.swqry 3 2 .faults) (sSw { strOf 6 8 false with bad := 5, twinf := 6 } [])) (has 2 0x400050006) = true := by decide +kernel

/-- Two elements from 98 on: LEN 2 for FWM; to vcore 1 for FWG; on route 0xFFFF for FWA. -/
def sFw (kind quota : Nat) : State :=
  sSw (strOf 6 quota false) [(2, if kind = 1 then 2 * 2 ^ 36 else if kind = 2 then 2 * 2 ^ 36 + 1 else 0xFFFF * 2 ^ 48 + 2 * 2 ^ 36 + 1)]

theorem witness_SwathRecording : ∀ k ∈ [1, 2, 3], ∀ q ∈ [2, 3],
    ((recordings (sFw k q) 3 1 2 7).map fun x => (x.2.1, x.2.2.1, x.2.2.2.2)) = [(1, 9, [1]), (2, 9, [bits ((sFw k q).g 2) 35 0]), (3, bits ((sFw k q).g 2) 63 48, [bits ((sFw k q).g 2) 35 0])] ∧
    (sFw k q).cur.phase = 0 ∧ (sFw k q).me.occ = 0 ∧ (strOf 6 q false).rcmp = false ∧ bits ((sFw k q).g 1) 63 40 = 1 ∧ bits ((sFw k q).g 2) 47 36 = 2 ∧
    (k ≠ 3 → bits ((sFw k q).g 2) 63 48 = 0) ∧ (k = 1 → bits ((sFw k q).g 2) 35 0 = 0) ∧ (sFw k q).look 1 = .got recS ∧ recS.rvk = false ∧ recS.permR = true ∧ recS.rec1 = true ∧
    recS.fmt ≠ 14 ∧ bits ((sFw k q).g 1) 39 0 + 2 ≤ recS.count ∧ (k ≠ 1 → (sFw k q).inPart (bits ((sFw k q).g 2) 35 0) = true) ∧ fmtBytes recS.fmt = 8 ∧
    (∀ j < 2, (sFw k q).elemPoisoned recS (98 + j) 8 = false) ∧ (q = 2 → q ≤ (strOf 6 q false).entries.length) ∧ (q = 3 → (strOf 6 q false).entries.length < q) ∧
    (strOf 6 q false).next ≠ 0xFFFFFFFF ∧ (sFw k q).portUse (State.portStore ((sFw k q).posOf 0)) < 2048 ∧
    (∀ j < 2, memHpa ((sFw k q).hartElem 0 recS (98 + j) Rec.permR) = some (0x20310 + 8 * j)) ∧ ((sFw k q).core 0).buffer = [] := by decide +kernel

theorem witness_SwathRecording_sat (k q : Nat) : ∀ h, ((sFw k q).home h).sat = [] := fun _ => rfl

def recorded (kind route : Nat) (t : State) : Bool :=
  (match ((t.vcore 0).str.get 3).entries.get 6 with
    | some e => e.awaiting && e.port == some 0 && e.w.get 0 == BitVec.ofNat 64 (route * 2 ^ 48 + kind * 2 ^ 44 + 9 * 2 ^ 40 + kind * 2 ^ 32 + 6) && e.w.get 1 == 2 ^ 40 + 98
    | none => false) && ((t.vcore 0).str.get 3).next == 7 && t.me.unacked == [100] &&
  (t.net.get 100).map (·.load) == some (.transfer {} 3 (some 6) (if kind = 1 then some 9 else none) 1 98 8 [0, 9] [] [1] false)

theorem test_recording : ran (exec (.fwm 3 1 2 7) (sFw 1 3)) (recorded 1 9) = true ∧ ran (exec (.fwg 3 1 2 7) (sFw 2 3)) (recorded 2 9) = true ∧
    ran (exec (.fwa 3 1 2) (sFw 3 3)) (recorded 3 0xFFFF) = true ∧ ran (exec (.fwm 3 1 2 7) (sFw 1 2)) (trapped 0x10 0x300000006) = true ∧
    ran (exec (.fwg 3 1 2 7) (sFw 2 2)) (trapped 0x10 0x300000006) = true ∧ ran (exec (.fwa 3 1 2) (sFw 3 2)) (trapped 0x10 0x300000006) = true := by decide +kernel

/-- What came to vcore 1: elements 98 and 99 of object 1; or its acknowledgement or return at vcore 0. -/
def sRcv (l : Load) (dst : Nat) (r : Rec := recS) : State :=
  { (sSw (strOf 6 8 true) [] r).updMe (fun x => { x with unacked := [3, 4] }) with net := [(3, { load := l, dst := dst })] }

def fwaLoad : Load := .transfer {} 3 (some 5) none 1 98 8 [0x55, 2 ^ 64 - 1] [] [1] false

theorem witness_SwathTransfersAndReplay_SwathTransfers : pkgOf 1 = (sRcv fwaLoad 8).pkg ∧ (sRcv fwaLoad 8).hop 1 8 = .here ∧
    (match (sRcv fwaLoad 8).recordOf 1 1 with | .ok r => r == recS | _ => false) = true ∧ (sRcv fwaLoad 8).crossing 0 (dieOf 8) = some ([], false) ∧ recS.ok = true ∧ 1 < 2 ^ tableLog ((sRcv fwaLoad 8).vcore 1).ortb ∧
    recS.permW = true ∧ fmtBytes recS.fmt = 8 ∧ 98 + 2 ≤ recS.count ∧ (∀ k < 2, memHpa ((sRcv fwaLoad 8).hartElem ((sRcv fwaLoad 8).posOf 1) recS (98 + k) Rec.permW) = some (0x20310 + 8 * k)) ∧
    (∀ k < 2, ∀ l < 2, k ≠ l → State.overlap (0x20310 + 8 * k) 8 (0x20310 + 8 * l) 8 = false) ∧ Memory.wf (sRcv fwaLoad 8).mem = true ∧
    (recOf 0x2D).permW = false ∧ (match (sRcv fwaLoad 8 (recOf 0x2D)).recordOf 1 1 with | .ok r => r == recOf 0x2D | _ => false) = true ∧
    (sRcv (.transferAck {} 3 (some 5) [2] false) 0).travels { load := .transferAck {} 3 (some 5) [2] false, dst := 0 } = true ∧ (sRcv (.transferAck {} 3 (some 5) [2] false) 0).whereIs {} = .slot 0 0 ∧
    (((sRcv fwaLoad 8).vcore 0).str.get 3).entries.get 5 = some (entryOf 5 true) ∧ bits ((entryOf 5 true).w.get 0) 35 32 ≠ 1 := by decide +kernel

/-- An FWM of a group with no other member in the package. -/
def fwmLoad : Load := .transfer {} 3 (some 5) (some 9) 1 98 8 [0x55] [] [] false

theorem witness_SwathTransfersAndReplay_SwathTransfers_alone : (sRcv fwmLoad 0).spread = false ∧ (sRcv fwmLoad 0).travels { load := fwmLoad, dst := 0 } = true ∧ (sRcv fwmLoad 0).whereIs {} = .slot 0 0 := by
  decide +kernel

theorem test_transfer_to_none : ran (exec (.swathAcknowledgement 3) (sRcv fwmLoad 0)) (fun t => (match ((t.vcore 0).str.get 3).entries.get 5 with
      | some e => !e.awaiting && bits (e.w.get 2) 63 60 == 0 && e.w.get 3 == -1
      | none => false) && t.me.unacked == [4] && t.net == []) = true := by decide +kernel

theorem test_transfers : ran (exec (.recordedTransferArrival 3 1) (sRcv fwaLoad 8)) (fun t => Memory.readN t.mem 0x20310 16 == toBytes 8 0x55 ++ List.replicate 8 0xFF &&
      (t.net.get 3).map (·.load) == some (.transferAck {} 3 (some 5) [2] false)) = true ∧
    ran (exec (.recordedTransferArrival 3 1) (sRcv fwaLoad 8 (recOf 0x2D))) (fun t => match t.net.get 3 with | some x => (match x.load with | .transferAck _ 3 (some 5) _ b => b | _ => false) | none => false) = true ∧
    ran (exec (.swathAcknowledgement 3) (sRcv (.transferAck {} 3 (some 5) [2] false) 0)) (fun t => ((t.vcore 0).str.get 3).entries.get 5 == some (entryOf 5 false) && t.me.unacked == [4] && t.net == []) = true ∧
    ran (exec (.swathAcknowledgement 3) (sRcv (.transferAck {} 3 (some 5) [2] true) 0)) (fun t => match ((t.vcore 0).str.get 3).entries.get 5 with
      | some e => !e.awaiting && bits (e.w.get 0) 39 36 == 1 && ((t.vcore 0).str.get 3).undelivered == 1
      | none => false) = true := by decide +kernel

/-- A replay of sequence 5, the one entry of stream 3. -/
def xRp : Stream := { strOf 6 8 false with entries := [(5, entryOf 5 false)], dlo := 5 }

def sRp (c : Word) : State := sSw xRp [(2, 5), (3, c), (4, 4)]

def qRp : Req := { pos := 0, acc := .twinAdd 9 (elemValue 9 0x3FC00000), gpa := 0x2018C, hpa := 0x2018C, n := 4, key := (0x10000, 2), token := 100 }

theorem witness_SwathTransfersAndReplay_SwathReplay : (sRp 1).cur.isA = false ∧ (sRp 1).g 3 = 1 ∧ (sRp 0).g 3 = 0 ∧ ((sRp 1).g 2).toNat = 5 ∧ xRp.entries.get 4 = none ∧ ((sRp 1).g 4).toNat = 4 ∧ xRp.busy = false ∧
    xRp.entries = [(5, entryOf 5 false)] ∧ bits ((entryOf 5 false).w.get 0) 39 36 ≠ 1 ∧ bits ((entryOf 5 false).w.get 0) 35 32 = 3 ∧ bits ((entryOf 5 false).w.get 0) 43 40 = 9 ∧
    bits ((entryOf 5 false).w.get 1) 63 40 = 1 ∧ bits ((entryOf 5 false).w.get 1) 39 0 = 99 ∧ bits ((entryOf 5 false).w.get 2) 59 36 = 1 ∧ bits ((entryOf 5 false).w.get 2) 35 0 = 1 ∧
    pkgOf 1 = (sRp 1).pkg ∧ ((sRp 1).vcore 1).place ≠ .exited ∧
    (sRp 1).twinOk 0 1 (recS, 2, recT) Rec.permW 99 1 = true ∧
    (sRp 1).twinOk 1 1 (recS, 2, recT) Rec.permR 99 1 = true ∧ memHpa ((sRp 1).hartElem ((sRp 1).posOf 1) recT 99 Rec.permR) = some 0x2018C ∧ (sRp 1).poisoned 0x2018C 4 = false ∧
    (Desc.ofWord (xRp.gdesc.setWidth 64)).skind = 0 := by decide +kernel

theorem witness_SwathTransfersAndReplay_SwathReplay_twin :
    (sRp 1).outcome 0 (entryOf 5 false) 3 (bits ((entryOf 5 false).w.get 0) 63 48) ((entryOf 5 false).w.get 2) ((entryOf 5 false).w.get 3) 1 99 1 [1] = .ok 0 ∧
    (sRp 1).twinAt 0 1 = .ok (recS, 2, recT) ∧ (sRp 1).twinAt 1 1 = .ok (recS, 2, recT) ∧
    (sRp 1).twinReq 0 (sRp 1).fresh 2 99 recT (elemValue 9 (roundTo 9 .rne ((9 : Nat) == 12 || (9 : Nat) == 13) (elemValue 9 (ofBytes (Memory.readN (sRp 1).mem 0x2018C 4))))) = .ok qRp :=
  ⟨ok_of (by decide +kernel), ok_of (by decide +kernel), ok_of (by decide +kernel), ok_of (by decide +kernel)⟩

theorem test_replay : ran (exec (.rply 3 2 3 true) (sRp 1)) (fun t => (t.home (State.reqHome qRp)).queue.get 101 == some qRp && t.me.pendC == some ⟨.rply 3 2 3 true, 3, [100], .poll⟩ &&
      ((t.vcore 0).str.get 3).busy) = true ∧
    ran (exec (.rply 3 4 3 false) (sRp 1)) (trapped 0x11 0x300000004) = true ∧ ran (exec (.rply 3 4 3 false) (sRp 0)) (fun t => t.cur.out == .done) = true ∧
    ran (exec (.rply 3 2 3 false) (sSw {} [])) (trapped 1 3) = true := by decide +kernel

/-! ### Witnesses and steps: records, placement, sealing, pairs and quiescence (R288, R289, R337-R350) -/

/-- A supervisor whose registers 1 and 2 hold a and b; object 1 has this record. -/
def sRec (r : Rec) (a b : Word) : State :=
  let s := obj r [(1, a), (2, b)]
  { s with cur := { s.cur with src := { s.cur.src with tsw := 2 ^ 4 } } }

/-- An object that is MOVING: watermark 1, old base frame 3. -/
def recM : Rec := vput (recOf 0xF) 7 (2 ^ 63 + 2 ^ 32 + 3)

theorem witness_RecordInstructions : (sRec recM 0 0).sup = true ∧ (sRec recM 0 0).cur.phase = 0 ∧ bits (2 ^ 40 + 8 : Word) 39 3 ≠ 0 ∧ bits (2 ^ 40 + 1 : Word) 39 0 ≠ 0 ∧
    bits (2 ^ 40 : Word) 39 0 = 0 ∧ bits (2 ^ 48 : Word) 63 48 ≠ 0 ∧ (sRec recM 0 0).look 0 = .invalid ∧ (sRec recM 0 0).recordAt 0x10000 1 = some recM ∧
    (sRec recM 0 0).hpaOf (0x10000 + 64 * 1) = some 0x10040 ∧ Memory.wf (sRec recM 0 0).mem = true ∧ ((sRec recM 0 0).core 0).buffer = [] ∧ (sRec recM 0 0).me.regs.bankm = 0 ∧
    recM.moving = true ∧ (recOf 0xF).moving = false ∧ recM.wmark ≤ bits (2 ^ 63 + 2 ^ 32 + 3 : Word) 55 32 ∧ bits (2 ^ 63 + 2 ^ 32 + 3 : Word) 31 0 = recM.oldb ∧ (2 ^ 63 + 2 ^ 32 + 3 : Word).getLsbD 63 = true ∧
    bits (2 ^ 63 + 3 : Word) 55 32 < recM.wmark ∧ (0x8F : Word).getLsbD 4 = false ∧ (sRec recM 0 0).homes = [] ∧ (∀ c ∈ (sRec recM 0 0).cores, c.2.buffer = []) ∧
    (sRec (recOf 0xF) 0 0).look 1 = .got (recOf 0xF) ∧ bits (0x30000 : Word) 15 0 = (recOf 0xF).base % 2 ^ 16 ∧ bits (0x30001 : Word) 15 0 ≠ (recOf 0xF).base % 2 ^ 16 := by decide +kernel

theorem witness_RecordInstructions_sat : ∀ k, ((sRec recM 0 0).home k).sat = [] := fun _ => rfl

def dropping (i : Instr) (t : State) : Bool := t.acks.get 100 == some ⟨0x10000, 1, List.range 520⟩ && t.me.pendC == some ⟨i, 3, [], .token 100⟩

def holds (dw : Nat) (v : Word) (t : State) : Bool := ofBytes (Memory.readN t.mem (0x10040 + 8 * dw) 8) == v.toNat

theorem test_record_writes : ran (exec (.orw 1 2) (sRec recM (2 ^ 40 + 8) 0)) (trapped 1 (2 ^ 40 + 8)) = true ∧ ran (exec (.orw 1 2) (sRec recM (2 ^ 40) 5)) (trapped 1 5) = true ∧
    ran (exec (.orw 1 2) (sRec (recOf 0xF) (2 ^ 40 + 7) (2 ^ 63))) (trapped 1 (2 ^ 63)) = true ∧ ran (exec (.orw 1 2) (sRec recM (2 ^ 40 + 7) (2 ^ 63 + 3))) (trapped 1 (2 ^ 63 + 3)) = true ∧
    ran (exec (.orw 1 2) (sRec recM (2 ^ 40 + 7) (2 ^ 63 + 2 ^ 33 + 3))) (fun t => holds 7 (2 ^ 63 + 2 ^ 33 + 3) t && t.me.pendC == none) = true ∧
    ran (exec (.orw 1 2) (sRec recM (2 ^ 40 + 7) 0)) (fun t => holds 7 0 t && dropping (.orw 1 2) t) = true ∧
    ran (exec (.orw 1 2) (sRec (recOf 0xF) (2 ^ 40 + 1) 99)) (fun t => holds 1 99 t && dropping (.orw 1 2) t) = true ∧
    ran (exec (.orw 1 2) (sRec recM (2 ^ 40 + 5) 0x8F)) (holds 5 0x8F) = true := by decide +kernel

theorem test_record_moves : ran (exec (.orinv 1) (sRec recM (2 ^ 40) 0)) (dropping (.orinv 1)) = true ∧ ran (exec (.orinv 1) (sRec recM (2 ^ 40 + 1) 0)) (trapped 1 (2 ^ 40 + 1)) = true ∧
    ran (exec (.ormov 1 2) (sRec recM (2 ^ 40) (2 ^ 48))) (trapped 1 (2 ^ 48)) = true ∧ ran (exec (.ormov 1 2) (sRec recM 0 0)) (trapped 7 0) = true ∧
    ran (exec (.ormov 1 2) (sRec recM (2 ^ 40) 0x30000)) (trapped 1 (2 ^ 40)) = true ∧ ran (exec (.ormov 1 2) (sRec (recOf 0xF) (2 ^ 40) 0x30001)) (trapped 1 (2 ^ 40)) = true ∧
    ran (exec (.ormov 1 2) (sRec (recOf 0xF) (2 ^ 40) 0x30000)) (fun t => holds 0 (2 ^ 63 + 4 * 2 ^ 56 + 0x30000) t && holds 7 (2 ^ 63 + 2) t && dropping (.ormov 1 2) t) = true := by decide +kernel

/-- Vcore 5 at position 8 and vcore 6, whose segment is half the scratchpad, at position 16; position 24 is empty. -/
def sPl (a b : Word) (ex : List Exch := []) : State :=
  { sup [(1, a), (2, b)] with exchanges := ex, vcores := [(0, { place := .placed }), (5, { place := .placed, pos := 8, segl := 511 }), (6, { place := .placed, pos := 16, segl := 511 })] }

theorem witness_PlacementAndExchange_PlacementInstructions : (sPl 8 16).sup = true ∧ bits (2 ^ 12 : Word) 63 12 ≠ 0 ∧ bits (8 : Word) 63 12 = 0 ∧ (sPl 8 16).unusable 8 = false ∧ (sPl 8 16).unusable 16 = false ∧
    (∀ x ∈ (sPl 8 16).vcores, x.2.place ≠ .folded) ∧ dieOf 8 = dieOf 16 ∧ (sPl 8 16 [.swap 8 16 none]).mayMove 8 ((sPl 8 16).occupant 8) = false ∧ (sPl 8 16).mayMove 8 ((sPl 8 16).occupant 8) = true ∧
    (sPl 8 16).mayMove 16 ((sPl 8 16).occupant 16) = true ∧ (sPl 8 16).occupant 8 = some 5 ∧ (sPl 8 16).occupant 16 = some 6 ∧ ((sPl 8 16).vcore 5).pos = 8 ∧ ((sPl 8 16).vcore 6).pos = 16 := by
  decide +kernel

theorem witness_PlacementAndExchange_PlacementInstructions_moves : bits (5 : Word) 35 0 = 5 ∧ bits (2 ^ 36 + 5 : Word) 63 36 ≠ 0 ∧ ((sPl 7 0).vcore 7).place = .unplaced ∧ (sPl 5 24).vcoresAt 24 = [] ∧ (sPl 5 16).vcoresAt 16 = [6] ∧
    (∀ j, ((sPl 5 24).slotAt 24 j).busy = false) ∧ (sPl 5 24).unusable 24 = false ∧ (sPl 5 24 [.move 5 24 none]).mayMove 8 (some 5) = false ∧ (sPl 5 24).mayMove 8 (some 5) = true ∧
    (sPl 5 24).frozen 24 = false ∧ ((sPl 5 24).vcore 5).lock = false ∧ bits (512 * 2 ^ 16 + 16 : Word) 25 16 = 512 ∧ bits (512 * 2 ^ 16 + 16 : Word) 63 26 = 0 ∧ bits (512 * 2 ^ 16 + 16 : Word) 15 12 = 0 ∧
    512 + ((sPl 5 16).vcore 5).segl.toNat + 1 ≤ 1024 ∧ (∀ i < 8, ((sPl 5 16).tileAt (cluOf 8) (8 * (8 % 8) + i)).kind = .empty) ∧ ((sPl 5 16).vcore 6).segb.toNat + ((sPl 5 16).vcore 6).segl.toNat + 1 ≤ 512 ∧
    (∀ i : Fin 16, ((sPl 5 16).slotAt 8 i).busy = false) ∧ ((sPl 5 16).slotAt 16 0).busy = false ∧ ((sPl 5 16).slotAt 16 1).busy = false := by decide +kernel

def begun (i : Instr) (e : Exch) (t : State) : Bool :=
  t.exchanges == [e] && t.me.pendC == some ⟨i, 2, [], .token 100⟩ && (t.vcore 5).lock && (t.core 8).fwd.any fun f => f.vc == 5 && f.hold && f.pos == (t.exchCores e).2

theorem test_placement : ran (exec (.plcSwap 1 2) (sPl 8 16)) (fun t => begun (.plcSwap 1 2) (.swap 8 16 (some 100)) t && (t.vcore 6).lock) = true ∧
    ran (exec (.plcSwap 1 2) (sPl (2 ^ 12) 16)) (trapped 1 (2 ^ 12)) = true ∧ ran (exec (.plcSwap 1 2) (sPl 8 8)) (trapped 1 8) = true ∧ ran (exec (.plcSwap 1 2) (sPl 8 512)) (trapped 1 512) = true ∧
    ran (exec (.plcSwap 1 2) (sPl 8 16 [.swap 8 16 none])) (fun t => t.me.pendC == some ⟨.plcSwap 1 2, 1, [], .poll⟩) = true ∧
    ran (exec (.plcMigx 1 2) (sPl 5 24)) (begun (.plcMigx 1 2) (.move 5 24 (some 100))) = true ∧ ran (exec (.plcMigx 1 2) (sPl 5 16)) (trapped 1 16) = true ∧
    ran (exec (.plcMigx 1 2) (sPl 7 24)) (trapped 1 7) = true ∧ ran (exec (.plcFold 1 2) (sPl (2 ^ 36 + 5) 16)) (trapped 1 (2 ^ 36 + 5)) = true ∧
    ran (exec (.plcFold 1 2) (sPl 5 (512 * 2 ^ 16 + 16))) (begun (.plcFold 1 2) (.fold 5 512 16 (some 100))) = true ∧ ran (exec (.plcFold 1 2) (sPl 5 16)) (trapped 1 16) = true := by decide +kernel

/-- A supervisor on a package of one busy core, with a second task in slot 2 and the movement thread in slot 15. -/
def sSeal (a : Word) (quiet : Bool) (c : Core := {}) : State :=
  let s := sup [(1, a)] { c with slots := vput (vput c.slots 2 { busy := true }) 15 { busy := true, life := .movement } }
  { s with part := { quiet := quiet }, cores := s.cores ++ [(32, { sealed := true })] }

theorem witness_SealingPairsAndQuiescence : (sSeal 24 false).sup = true ∧ bits (2 ^ 12 : Word) 63 12 ≠ 0 ∧ torusOf 24 ∉ ((sSeal 24 false).die (dieOf 24)).retired ∧ ((sSeal 24 false).core 24).sealed = false ∧
    ((sSeal 32 false).core 32).sealed = true ∧ (sSeal 24 false).exchanges = [] ∧ (sSeal 24 false).vcoresAt 24 = [] ∧ (sSeal 0 false).vcoresAt 0 = [0] ∧ ((sSeal 0 false).core 0).channel = [] ∧ ((sSeal 0 false).core 0).sealed = false ∧
    ((sSeal 24 false).core 24).channel = [] ∧ bits (2 : Word) 63 1 ≠ 0 ∧ (sSeal 1 true).part.quiet = true ∧ (sSeal 1 false).part.quiet = false ∧
    (∀ x ∈ (sSeal 1 false).vcores, ∀ i : Fin 8, (x.2.grp.get i).bound = false) ∧ (∀ c ∈ (sSeal 1 false).cores, c.2.buffer = [] ∧ c.2.jobs = [] ∧ c.2.moves = [] ∧ c.2.vector = [] ∧ c.2.channel = []) ∧
    (∀ x ∈ (sSeal 1 false).vcores, ∀ i : Fin 4, (x.2.str.get i).entries = []) ∧ ((sSeal 1 false { buffer := [⟨7, {}, .scratch 0 8, false⟩] }).core 0).buffer ≠ [] := by decide +kernel

theorem witness_SealingPairsAndQuiescence_pending : NothingPending (sSeal 1 false) := nothing_of _ rfl rfl rfl (by decide +kernel)

theorem test_sealing_and_quiescence : ran (exec (.plcSeal 1) (sSeal 24 false)) (fun t => (t.core 24).sealed && t.notified == [24]) = true ∧
    ran (exec (.plcSeal 1) (sSeal 0 false)) (fun t => (t.core 0).sealed && (t.vcore 0).lock && (t.core 0).fwd.map (fun f => (f.vc, f.pos, f.hold)) == [(0, 0, true)]) = true ∧ ran (exec (.plcSeal 1) (sSeal 32 false)) (fun t => t == sSeal 32 false) = true ∧
    ran (exec (.plcSeal 1) (sSeal (2 ^ 12) false)) (trapped 1 (2 ^ 12)) = true ∧ ran (exec (.qsc 1) (sSeal 2 false)) (trapped 1 2) = true ∧
    ran (exec (.qsc 1) (sSeal 1 false)) (fun t => t.part.quiet && (t.slotAt 0 2).quiet && !(t.slotAt 0 15).quiet && !t.me.quiet && t.cur.out == .done) = true ∧
    ran (exec (.qsc 1) (sSeal 1 false { buffer := [⟨7, {}, .scratch 0 8, false⟩] })) (fun t => t.part.quiet && t.cur.out == .parked) = true ∧
    ran (exec (.qsc 1) (sSeal 0 true)) (fun t => !t.part.quiet) = true := by decide +kernel

/-- A thread in slot 0 whose pair, in slot 1, is this far behind, with registers that agree or differ; g3 is 9. -/
def sDual (pair : Bool) (ahead : Nat) (w : Word) : State :=
  let s := on { regs [(3, 9)] with tsw := if pair then 2 ^ 6 else 0 }
  if pair then
    (s.updMe fun x => { x with pair := some 1, ahead := ahead }).updSlot 0 1 fun x => { x with busy := true, life := .trailing 0, pair := some 0, regs := { regs [(3, w)] with tsw := 2 ^ 7 + 1 } }
  else s

theorem witness_SealingPairsAndQuiescence_pairs : (sDual false 0 0).cur.slot ≠ 15 ∧ (sDual false 0 0).me.pair = none ∧ (sDual false 0 0).me.occ = (sDual false 0 0).me.tid.vc ∧
    (∀ j, ((sDual false 0 0).slotAt 0 j).pair = none) ∧ ((sDual false 0 0).slotAt 0 1).busy = false ∧ (1 : Fin 16) ≠ (sDual false 0 0).cur.slot ∧ (∀ j < (1 : Fin 16), ((sDual false 0 0).slotAt 0 j).busy = true) ∧
    ((sDual false 0 0).core 0).guests = [] ∧ (sDual true 0 9).me.pair = some 1 ∧ (∀ j, (sDual true 0 9).me.life ≠ .trailing j) ∧ (sDual true 3 9).me.ahead ≠ 0 ∧ (sDual true 0 9).me.ahead = 0 ∧
    State.common (sDual true 0 9).cur.src = State.common ((sDual true 0 9).slotAt 0 1).regs ∧ State.common (sDual true 0 8).cur.src ≠ State.common ((sDual true 0 8).slotAt 0 1).regs ∧
    torusOf 0 ∉ ((sDual true 0 8).die (dieOf 0)).retired := by decide +kernel

theorem test_pairs : ran (exec .dualOn (sDual false 0 0)) (fun t => t.me.pair == some 1 && t.me.regs.tsw == 2 ^ 6 && (t.slotAt 0 1).life == .trailing 0 && (t.slotAt 0 1).regs.tsw == 2 ^ 7 + 1 &&
      (t.slotAt 0 1).regs.g.get 3 == 9) = true ∧
    ran (exec .dualOn (sDual true 0 9)) (fun t => t == sDual true 0 9) = true ∧ ran (exec .dualOn (onM [])) (trapped 1 0) = true ∧
    ran (exec .dualOff (sDual true 0 9)) (fun t => t.me.pair == none && t.me.regs.tsw == 0 && !(t.slotAt 0 1).busy) = true ∧
    ran (exec .dualOff (sDual true 3 9)) (fun t => t.cur.out == .parked) = true ∧ ran (exec .dualOff (sDual false 0 0)) (fun t => t == sDual false 0 0) = true := by decide +kernel

/-! ### Witnesses and steps: exchanges, the dispatcher, gangs and the Tedder (R137-R140, R285-R289) -/

/-- Vcore 5 at position 8 with a thread in slot 3, vcore 6 at position 16 with none, and their exchange under way. -/
def sEx (buf : List SbEntry) : State :=
  let x : Slot := { busy := true, tid := { vc := 5 }, occ := 5, regs := { regs [(3, 9)] with pc := 0x208 } }
  { exchanges := [.swap 8 16 none]
    cores := [(8, { slots := vput (Vector.replicate 16 {}) 3 x, spad := [(8, 1)], full := [1], buffer := buf }), (16, { spad := [(16, 2)] })]
    clusters := [(1, { eng := { tiles := [(0, { owner := 5, kind := .plain })] } })]
    vcores := [(5, { place := .placed, lock := true, res := 3, pos := 8, map := vput (Vector.replicate 16 {}) 0 { state := .home 3 } }), (6, { place := .placed, lock := true, pos := 16 })] }

theorem witness_PlacementAndExchange_Exchanges : (sEx [⟨7, {}, .scratch 0 8, false⟩]).exchReady (.swap 8 16 none) = false ∧ (∀ e ∈ (sEx []).exchanges, (sEx []).exchCores e ≠ (8, 24)) ∧
    (sEx []).exchReady (.swap 8 16 none) = true ∧ dieOf 8 = dieOf 16 ∧ (sEx []).occupant 8 = some 5 ∧ (sEx []).occupant 16 = some 6 ∧
    (∀ k : Fin 16, k ≠ 3 → ((sEx []).slotAt 8 k).busy = false) ∧ (∀ k : Fin 16, ((sEx []).slotAt 8 k).pendC = none ∧ ((sEx []).slotAt 8 k).pendA = none) ∧
    (∀ k : Fin 16, ((sEx []).slotAt 16 k).busy = false ∧ ((sEx []).slotAt 16 k).pendC = none ∧ ((sEx []).slotAt 16 k).pendA = none) ∧ ((sEx []).core 8).guests = [] ∧ ((sEx []).core 16).guests = [] ∧
    ((sEx []).slotAt 8 3).life = .task ∧ ((sEx []).slotAt 8 3).occ = 5 ∧ ((sEx []).slotAt 8 3).pair = none ∧
    (∀ i : Fin 8, (((sEx []).vcore 5).grp.get i).bound = false ∧ (((sEx []).vcore 6).grp.get i).bound = false) ∧
    (∀ i : Fin 4, (((sEx []).vcore 5).str.get i).entries = [] ∧ (((sEx []).vcore 6).str.get i).entries = []) := by decide +kernel

theorem test_exchanges : ran (exec (.exchange 8 16) (sEx [])) (fun t => t.exchanges == [] && (t.vcore 5).pos == 16 && (t.vcore 6).pos == 8 && (t.vcore 5).res == 0 && !(t.vcore 5).lock &&
      (t.core 16).spad == [(8, 1)] && (t.core 8).spad == [(16, 2)] && (t.core 16).full == [1] && (t.tileAt 2 0).kind == .plain && (t.tileAt 1 0).kind == .empty &&
      (t.slotAt 16 3).busy && (t.slotAt 16 3).regs.g.get 3 == 9 && !(t.slotAt 8 3).busy && (t.mapEntry { vc := 5 }).state == .home 3) = true ∧
    ran (exec (.exchange 8 16) (sEx [⟨7, {}, .scratch 0 8, false⟩])) (fun t => t == sEx [⟨7, {}, .scratch 0 8, false⟩]) = true := by decide +kernel

/-- One packet for vcore v in the queue, with a dependence on doubleword 1 of vcore 0 unless it is ready. -/
def qOf (v : Nat) (ready move : Bool) : Packet :=
  { w := vput (vput (vput packet 0 (BitVec.ofNat 64 (0x40 + (if ready then 0 else 2 ^ 40) + if move then 2 ^ 44 else 0))) 1 (BitVec.ofNat 64 v)) 3 (if ready then 0 else 2 ^ 63 + 8)
    accepted := 1, ready := if ready then some 2 else none }

def sDis (q : Packet) (quiet : Bool) (c : Core := {}) : State :=
  { on (regs []) c with part := { queue := [(7, q)], quiet := quiet } }

/-- Every die is OFF: no core is free. -/
def sOff : State := { sDis (qOf 9 true false) false with dies := (List.range 8).map fun d => (d, { power := .off }) }

theorem witness_DispatchAndGangs_Dispatches : (sDis (qOf 0 true false) true).part.quiet = true ∧ (qOf 0 false false).ready = none ∧ Pkt.ndep (qOf 0 false false).w = 1 ∧
    remoteAddr (Pkt.dep (qOf 0 false false).w 0) = some (0, 8) ∧ ((sDis (qOf 0 false false) false).vcore 0).place = .placed ∧
    State.isFull ((sDis (qOf 0 false false) false).core 0) ((segBase ((sDis (qOf 0 false false) false).keptSeg 0) + 8) / 8) = false ∧
    State.isFull ((sDis (qOf 0 false false) false { full := [1] }).core 0) ((segBase ((sDis (qOf 0 false false) false).keptSeg 0) + 8) / 8) = true ∧
    (qOf 0 true false).ready.isSome = true ∧ Pkt.gang (qOf 0 true false).w = false ∧ Pkt.any (qOf 0 true false).w = false ∧ (sDis (qOf 0 true false) false).reachable 0 = true ∧
    Pkt.move (qOf 0 true false).w = false ∧ (∀ k < (1 : Fin 16), ((sDis (qOf 0 true false) false).slotAt 0 k).busy = true) ∧ State.dualWaits ((sDis (qOf 0 true false) false).core 0) = false ∧ ((sDis (qOf 0 true false) false).core 0).guests = [] ∧
    ((sDis (qOf 0 true false) false).slotAt 0 1).busy = false ∧ (((sDis (qOf 0 true false) false).vcore 0).map.get 1).state = .none ∧ Pkt.move (qOf 0 true true).w = true ∧
    ((sDis (qOf 0 true true) false).slotAt 0 15).busy = false ∧ ((sDis (qOf 9 true false) false).vcore 9).place = .unplaced ∧ (sDis (qOf 9 true false) false).coreFree 4095 = true := by decide +kernel

theorem witness_DispatchAndGangs_Dispatches_off : ∀ n < 4096, sOff.coreFree n = false := by
  intro n hn
  have h : dieOf n < 8 := by unfold dieOf; split <;> omega
  have : sOff.dieRuns (dieOf n) = false := by
    have : ∀ d < 8, sOff.dieRuns d = false := by decide +kernel
    exact this _ h
  simp [State.coreFree, this]

theorem test_dispatch : ran (exec (.dispatch 7) (sDis (qOf 0 true false) true)) (fun t => t == sDis (qOf 0 true false) true) = true ∧
    ran (exec (.dispatch 7) (sDis (qOf 0 false false) false)) (fun t => t == sDis (qOf 0 false false) false) = true ∧
    ran (exec (.dispatch 7) (sDis (qOf 0 false false) false { full := [1] })) (fun t => (t.part.queue.get 7).map (·.ready) == some (some 0)) = true ∧
    ran (exec (.dispatch 7) (sDis (qOf 0 true false) false)) (fun t => (t.slotAt 0 1).busy && (t.slotAt 0 1).tid == ⟨0, 1, 1⟩ && (t.slotAt 0 1).regs.pc == 0x40 && (t.slotAt 0 1).regs.tsw == 1 &&
      t.part.queue == [] && (t.part.live.get 7).isSome && t.part.progress == 1) = true ∧
    ran (exec (.dispatch 7) (sDis (qOf 0 true true) false)) (fun t => (t.slotAt 0 15).busy && (t.slotAt 0 15).life == .movement) = true := by decide +kernel

/-- Gang 3: eight members, vcores 10 to 17, ready in cycle 0, in cycle 2^16; or a package of two usable clusters with vcore 5 on one and
vcore 6 on the other. -/
def member (m : Nat) : Nat × Packet :=
  (20 + m, { w := vput (vput packet 1 (BitVec.ofNat 64 (10 + m))) 2 (BitVec.ofNat 64 (3 + 2 ^ 38 + m * 2 ^ 39)), accepted := 0, ready := some 0 })

def sGang (full : Bool) : State :=
  { time := 2 ^ 16, part := { queue := (List.range 8).map member }
    vcores := if full then [(5, { place := .placed }), (6, { place := .placed, pos := 8 })] else []
    dies := if full then (0, { retired := (List.range 64).drop 2 }) :: (List.range 7).map (fun d => (d + 1, { power := .off })) else [] }

theorem witness_DispatchAndGangs_Gangs (full : Bool) : State.reset.wholeGang 3 = none ∧ (sGang full).wholeGang 3 = some ((List.range 8).map member, 1, 1) ∧ (sGang full).part.quiet = false ∧
    (∀ x ∈ (List.range 8).map member, ((sGang full).vcore (Pkt.vcore x.2.w)).place = .unplaced ∧ pkgOf (Pkt.vcore x.2.w) = (sGang full).pkg) ∧ (((List.range 8).map member).map fun x => Pkt.vcore x.2.w).Nodup ∧
    (∀ x ∈ (List.range 8).map member, x.2.ready.getD 0 + 2 ^ 16 ≤ (sGang full).time) ∧ (∃ x ∈ (List.range 8).map member, 2 ^ 16 - 1 < x.2.ready.getD 0 + 2 ^ 16) := by
  cases full <;> decide +kernel

theorem witness_DispatchAndGangs_Gangs_blocks : (State.blocks 1 1).find? (fun b => (State.blockCores b).all (sGang false).coreFree) = some ⟨0, 0, 0, 1, 1⟩ ∧
    (State.blocks 1 1).find? (fun b => (State.blockCores b).all (sGang true).coreFree) = none ∧ (State.blocks 1 1).find? (canEmpty (sGang true)) = some ⟨0, 0, 0, 1, 1⟩ ∧
    0 ∈ State.blockCores ⟨0, 0, 0, 1, 1⟩ ∧ 5 ∈ (sGang true).vcoresAt 0 ∧ (sGang true).mayMove 0 (some 5) = true ∧ ((sGang true).vcore 5).lock = false ∧
    (sGang true).coreFree 9 = true ∧ 9 ∉ State.blockCores ⟨0, 0, 0, 1, 1⟩ := by decide +kernel

theorem test_gangs : ran (exec (.gangPlacement 3) (sGang false)) (fun t => (t.vcore 17).place == .placed && (t.vcore 17).pos == 7 && (t.vcore 17).gang == some (3, ⟨0, 0, 0, 1, 1⟩) && t.part.progress == 8) = true ∧
    ran (exec (.gangPlacement 3) (sGang true)) (fun t => t == sGang true) = true ∧ ran (exec (.compaction 3) { sGang true with time := 2 ^ 16 - 1 }) (fun t => t.exchanges == []) = true ∧
    ran (exec (.compaction 3) (sGang true)) (fun t => t.exchanges == [.move 5 9 none]) = true := by decide +kernel

/-- Vcore 5 at position 0 talks to vcore 6 at position 72: they gain by exchanging position 0 with 64. -/
def sTed (log : Word) : State :=
  { time := 2, part := { tedi := log, tedg := 30, tedm := 0, tedc := 0 }
    vcores := [(5, { place := .placed, partners := [(6, 10)] }), (6, { place := .placed, pos := 72 })] }

theorem witness_TedderInstants : bits (sTed 0).part.tedi 4 0 = 0 ∧ (sTed 2).time % 2 ^ bits (sTed 2).part.tedi 4 0 ≠ 0 ∧ (sTed 1).instantDue = true ∧ (0, 64) ∈ State.candidates 0 ∧
    (sTed 1).eligible 0 64 = true ∧ (sTed 1).occupant 0 = some 5 ∧ { sTed 1 with vcores := [] }.instantDue = true := by decide +kernel

theorem witness_TedderInstants_none : ∀ a b, { sTed 1 with vcores := [] }.eligible a b = false := fun _ _ => rfl

/-- The same with vcore 6 at position 64. -/
def sFar2 : State := { sTed 1 with vcores := [(5, { place := .placed, partners := [(6, 10)] }), (6, { place := .placed, pos := 64 })] }

theorem witness_TedderInstants_TedderEligibility : cluOf 0 = cluOf 7 ∧ dieOf 0 ≠ dieOf 4095 ∧ dieOf 0 = dieOf 511 ∧ torusOf 0 ≠ torusOf 511 ∧ State.distance 0 511 = 7 ∧
    sFar2.occupant 0 = some 5 ∧ sFar2.occupant 64 = some 6 ∧ pkgOf 6 = sFar2.pkg ∧ (sFar2.vcore 5).partners = [(6, 10)] ∧ (sFar2.vcore 6).partners = [] := by decide +kernel

/-- An exchange of two partners leaves their distance as it is: only the reverse direction counts. -/
theorem test_gain_of_partners : sFar2.gain 0 64 = -(10 * State.distance 64 0 : Int) ∧ State.distance 64 0 = 5 := by decide +kernel

theorem test_tedder : ran (exec .tedderInstant (sTed 0)) (fun t => t == sTed 0) = true ∧ ran (exec .tedderInstant (sTed 2)) (fun t => t == sTed 2) = true ∧ (sTed 1).gain 0 64 = 30 := by decide +kernel

/-! ### Witnesses and steps: events, seals, resets, links, power, boot and the host's queues (R24, R25, R333-R363) -/

/-- A thread in slot 4 of core 3 with two events, one lost, and its handler at 0x4000. -/
def sEv (tsw : Word) (events : List AsyncEv) : State :=
  ({ State.reset with part := { codeo := 1, ortb := 24 * 2 ^ 54 } }.updSlot 3 4 fun x => { x with busy := true, events := events, lost := true, regs := { regs [(3, 9)] with tsw := tsw, pc := 0x208, tvec := 0x4000 } })

def ev2 : List AsyncEv := [⟨.undeliverable, 7⟩, ⟨.remoteRefused, 8⟩]

theorem witness_EventsSealsAndAbandonedTasks_AsyncEventEntry : ((sEv (2 ^ 4) ev2).slotAt 3 4).regs.tsw.getLsbD 4 = true ∧ ((sEv 0 []).slotAt 3 4).events = [] ∧ ((sEv 0 ev2).slotAt 3 4).busy = true ∧ ((sEv 0 ev2).slotAt 3 4).life = .task ∧
    ((sEv 0 ev2).slotAt 3 4).events = ⟨.undeliverable, 7⟩ :: [⟨.remoteRefused, 8⟩] ∧ ((sEv 0 ev2).slotAt 3 4).regs.tsw.getLsbD 4 = false ∧ ((sEv 0 ev2).slotAt 3 4).pendC = none ∧
    ((sEv 0 ev2).slotAt 3 4).pendA = none ∧ ((sEv 0 ev2).slotAt 3 4).stalled = none ∧ ((sEv 0 ev2).slotAt 3 4).fetched = [] ∧
    (((sEv 0 ev2).updSlot 3 4 fun x => { x with stalled := some (8, 0, true) }).slotAt 3 4).stalled ≠ none ∧ ((sEv 0 ev2).slotAt 3 4).quiet = false ∧ ((sEv 0 ev2).slotAt 3 4).pair = none ∧ ((sEv 0 ev2).slotAt 3 4).ahead = 0 := by decide +kernel

theorem witness_EventsSealsAndAbandonedTasks_AsyncEventEntry_fetch : ∀ c, (sEv 0 ev2).fetchAt (BitVec.ofNat 38 (bits ((sEv 0 ev2).slotAt 3 4).regs.tvec 37 0)) ≠ .fault c := fun c h => by cases h

theorem test_async_event : ran (exec (.asyncEventEntry 3 4) (sEv 0 ev2)) (fun t => let y := t.slotAt 3 4
      y.events == [⟨.remoteRefused, 8⟩] && y.regs.tepc == 0x208 && y.regs.tcause == 0x18B && y.regs.tval == 7 && y.regs.tsw == 2 ^ 4 && y.regs.pc == 0x4000 && !y.lost) = true ∧
    ran (exec (.asyncEventEntry 3 4) (sEv (2 ^ 4) ev2)) (fun t => t == sEv (2 ^ 4) ev2) = true ∧
    ran (exec (.asyncEventEntry 3 4) ((sEv 0 ev2).updSlot 3 4 fun x => { x with stalled := some (8, 0, true) })) (fun t => (t.slotAt 3 4).events == ev2) = true ∧ ran (exec (.asyncEventEntry 3 4) (sEv 0 [])) (fun t => t == sEv 0 []) = true := by decide +kernel

/-- Core 8 with vcore 9, where no die is ON or all are; or core 8 sealed, with the die's spares used up or not. -/
def sErr (off : Bool) : State :=
  { vcores := [(9, { place := .placed, pos := 8, segl := 7 })], cores := [(8, { buffer := [⟨7, {}, .scratch 0 8, false⟩] })]
    dies := if off then (List.range 8).map fun d => (d, { power := .off }) else [] }

def sSpare (spares : Nat) (retired : List Nat := []) : State :=
  { cores := [(8, { sealed := true }), (24, { full := [1] })], clusters := [(1, { turn := 3 })], dies := [(0, { spares := spares, retired := retired })] }

/-- Core 8 sealed, with the supervisor notified and vcore 9 locked, where no die is ON or all are. -/
def sHeld (off : Bool) : State :=
  { vcores := [(9, { place := .placed, pos := 8, segl := 7, lock := true })], notified := [8]
    cores := [(8, { sealed := true, fwd := [{ vc := 9, pos := 8, hold := true, lapses := 0 }] })]
    dies := if off then (List.range 8).map fun d => (d, { power := .off }) else [] }

theorem witness_EventsSealsAndAbandonedTasks_SealsAndSteering : ((sSpare 0).core 8).sealed = true ∧ torusOf 8 ∉ ((sErr false).die (dieOf 8)).retired ∧ ((sErr false).core 8).sealed = false ∧ (sErr false).exchanges = [] ∧
    (sErr false).vcoresAt 8 = [9] ∧ ((sErr false).core 8).channel = [] ∧ ((sHeld false).core 8).sealed = true ∧ (sHeld false).vcoresAt 8 = [9] ∧ ((sHeld false).vcore 9).pos = 8 ∧
    (sHeld false).vcores.Pairwise (fun a b => a.1 < b.1) ∧ (sHeld false).doomed 8 [9] = [] ∧ (∀ c ∈ (sHeld false).cores, c.2.guests = []) ∧ (sHeld true).doomed 8 [9] = [] ∧
    (∀ i : Fin 8, (((sHeld false).vcore 9).grp.get i).bound = false) ∧ (sHeld false).coreFree 4095 = true := by decide +kernel

theorem witness_EventsSealsAndAbandonedTasks_SealsAndSteering_spare : 1 ∉ ((sSpare 3).die 0).retired ∧ (∀ i < 8, ((sErr false).core (8 * 1 + i)).sealed = false) ∧ (∃ i < 8, (sErr false).vcoresAt (8 * 1 + i) ≠ []) ∧
    (∃ i < 8, ((sSpare 3).core (8 * 1 + i)).sealed = true) ∧ (∀ i < 8, (sSpare 3).vcoresAt (8 * 1 + i) = []) ∧ (sSpare 3).exchanges = [] ∧ ((sSpare 3).die 0).spares + ((sSpare 3).die 0).retired.length < 4 ∧
    4 ≤ ((sSpare 3 [7]).die 0).spares + ((sSpare 3 [7]).die 0).retired.length ∧ 1 ∈ ((sSpare 3 [1]).die 0).retired ∧ (sSpare 3 [1]).cores.Pairwise (fun a b => a.1 < b.1) ∧
    (sSpare 3 [1]).clusters.Pairwise (fun a b => a.1 < b.1) := by decide +kernel

theorem witness_EventsSealsAndAbandonedTasks_SealsAndSteering_off : ∀ n < 4096, (sHeld true).coreFree n = false := by
  intro n hn
  have h : dieOf n < 8 := by unfold dieOf; split <;> omega
  have : (sHeld true).dieRuns (dieOf n) = false := by
    have : ∀ d < 8, (sHeld true).dieRuns d = false := by decide +kernel
    exact this _ h
  simp [State.coreFree, this]

theorem test_steering : ran (exec (.uncorrectableError 8) (sSpare 0)) (fun t => t == sSpare 0) = true ∧
    ran (exec (.uncorrectableError 8) (sErr false)) (fun t => (t.core 8).sealed && (t.core 8).buffer == [] && t.notified == [8] && (t.vcore 9).lock && (t.vcore 9).place == .placed &&
      (t.core 8).fwd == [{ vc := 9, pos := 8, hold := true, lapses := 0 }]) = true ∧
    ran (exec (.spareClusterSteering 0 1) (sErr false)) (fun t => t == sErr false) = true ∧
    ran (exec (.spareClusterSteering 0 1) (sSpare 3)) (fun t => (t.die 0).retired == [1] && (t.die 0).spares == 3 && (t.core 8).sealed) = true ∧
    ran (exec (.spareClusterSteering 0 1) (sSpare 3 [7])) (fun t => t == sSpare 3 [7]) = true ∧
    ran (exec (.spareClusterSteering 0 1) (sSpare 3 [1])) (fun t => t.core 8 == {} && t.cluster 1 == {} && (t.die 0).spares == 4 && (t.die 0).retired == [] && (t.core 24).full == [1]) = true := by decide +kernel

def wRes : Wait := .resident 24 1 0

/-- A task that waits for its granule, or for its home's reply. -/
def sWait (w : Wait) : State :=
  { (on (regs [])).updMe (fun x => { x with pid := 3, pendC := some ⟨.old 1 2 false .d 0, 1, [], w⟩ }) with
    part := { live := [(3, { w := packet, accepted := 0 })] }
    vcores := [(0, { place := .placed, map := vput (Vector.replicate 16 {}) 0 { state := .home 0 } })] }

theorem witness_EventsSealsAndAbandonedTasks_TaskAbandoned : (sWait (.token 5)).waitsResidency ((sWait (.token 5)).slotAt 0 0) = false ∧ ((sWait wRes).slotAt 0 0).busy = true ∧ ((sWait wRes).slotAt 0 0).life = .task ∧
    ((sWait wRes).slotAt 0 0).pair = none ∧ (sWait wRes).waitsResidency ((sWait wRes).slotAt 0 0) = true ∧ ((sWait wRes).core 0).guests = [] ∧ (∀ k, ((sWait wRes).slotAt 0 k).life ≠ .helper 0) ∧
    (sWait wRes).partQueues = [] := by decide +kernel

theorem test_task_abandoned : ran (exec (.taskEnd 0 0 1) (sWait wRes)) (fun t => !t.me.busy && (t.mapEntry {}).state == .none && t.part.live == []) = true ∧
    ran (exec (.taskEnd 0 0 1) (sWait (.token 5))) (fun t => t == sWait (.token 5)) = true := by decide +kernel

/-- A task that has made no progress for 2^32 cycles, less one or not; a host graph of epoch 5. -/
def g5 : GraphPacket := { epoch := 5, pid := 3, w := packet }

def sDog (now : Nat) (gs : List GraphPacket) : State :=
  let s := sWait wRes
  { s with time := now, part := { s.part with graphs := gs, progress := 4 } }

theorem witness_WatchdogAndReset : ¬(bits (sDog (2 ^ 32 - 1) []).part.wdog 5 0 ≠ 0 ∧ (sDog (2 ^ 32 - 1) []).part.suspended = none ∧ (sDog (2 ^ 32 - 1) []).holdsTask = true ∧
      (sDog (2 ^ 32 - 1) []).part.moved + 2 ^ bits (sDog (2 ^ 32 - 1) []).part.wdog 5 0 ≤ (sDog (2 ^ 32 - 1) []).time) ∧
    (∀ x ∈ (sDog (2 ^ 32) []).vcores, ∀ i : Fin 8, (x.2.grp.get i).bound = false) ∧ (sDog (2 ^ 32) []).partQueues = [] ∧ (sDog (2 ^ 32) []).vcores.Pairwise (fun a b => a.1 < b.1) ∧
    (sDog (2 ^ 32) []).watchdogDue = true ∧ (sDog (2 ^ 32) [g5]).watchdogDue = true ∧ bits (sDog (2 ^ 32) [g5]).part.frec 23 0 = 0 ∧ 0 < g5.epoch ∧ Pkt.ndep g5.w = 0 ∧ Pkt.cpl g5.w = 0 := by decide +kernel

/-- The same, between the two steps of a partition reset, with a host graph of epoch 5 or 0. -/
def sRoll (e : Nat) : State := { sDog 9 [{ g5 with epoch := e }] with part := { (sDog 9 [{ g5 with epoch := e }]).part with rollback := true, live := [] } }

theorem witness_WatchdogAndReset_rollback : (sDog (2 ^ 32) []).part.rollback = false ∧ (sDog (2 ^ 32) []).part.graphs = [] ∧ (sDog (2 ^ 32) [g5]).part.graphs = [g5] ∧ (sRoll 5).part.rollback = true ∧
    (sRoll 5).part.queue = [] ∧ bits (sRoll 5).part.frec 23 0 = 0 ∧ (sRoll 5).part.graphs = [g5] ∧ (sRoll 0).part.graphs = [{ g5 with epoch := 0 }] := by decide +kernel

theorem test_watchdog : ran (exec .watchdog (sDog (2 ^ 32 - 1) [])) (fun t => t == sDog (2 ^ 32 - 1) []) = true ∧
    ran (exec .watchdog (sDog (2 ^ 32) [g5])) (fun t => t.part.queue.map (fun q => (q.2.w, q.2.epoch)) == [(packet, 5)] && t.part.graphs.map (·.epoch) == [5] && !t.me.busy) = true ∧
    ran (exec .partitionReset (sDog (2 ^ 32) [])) (fun t => !t.me.busy && t.part.live == [] && t.part.progress == 4 && t.part.rollback && (t.vcore 0).place == .placed && (t.mapEntry {}).state == .none) = true ∧
    ran (exec .partitionReset (sRoll 5)) (fun t => t.part.queue.map (fun q => (q.2.w, q.2.epoch)) == [(packet, 5)] && !t.part.rollback) = true ∧
    ran (exec .partitionReset (sRoll 0)) (fun t => t.part.queue == [] && t.part.graphs.map (·.epoch) == [0] && !t.part.rollback) = true := by decide +kernel

/-- Queues 0 of both host ports with full rings; die 0's links to dies 1 and 2 are down; key 2 of port 0xE4 admitted or not, its last counter 5; a message
on its way. -/
def sLink : State :=
  { queues := [(0, { en := true, rhead := 1 }), (64, { en := true, rhead := 1, rseq := 8 })], vcores := [(4, { place := .placed, pos := 40 })]
    net := [(3, { load := .message 0x77 1 { vc := 4 } none, dst := 0, key := 3 }), (5, { load := .message 0x78 1 { vc := 4 } none, dst := 0, key := 3 }), (6, { load := .message 0x79 1 { vc := 4 } none, dst := 0 })]
    dies := [(0, { lanes := [(0xE4, 0), (0xE5, 0)], counters := [(0xE4, 5)], keys := [(256 * 0xE4 + 2, { admitted := true, phase := true })] }), (7, { power := .halted })] }

/-- The same, all links of die 7 down, and with queue 3 enabled for the partition. -/
def sLink2 : State :=
  { sLink with net := sLink.net.map (fun x => (x.1, { x.2 with key := 0 })), queues := [(3, { en := true, rhead := 1 })], dies := sLink.dies.put 7 { lanes := (List.range 7).map fun k => (0xE4 + k, 0) } }

theorem witness_LinksPowerAndBoot : sLink.lanesOf 0xE4 = 0 ∧ RingFull sLink 0 ∧ RingFull sLink 64 ∧ 4 < sLink.lanesOf 0xE6 ∧ sLink.lanesOf 0xE6 ≠ 0 ∧ (sLink.die 1).power ≠ .off ∧ (sLink.die 1).power ≠ .halted ∧
    (sLink.die 7).power = .halted ∧ sLink.linkUp 0 7 = true ∧ sLink.linkUp 0 1 = false ∧ sLink.linkUp 0 3 = true ∧ sLink.linkUp 3 1 = true ∧ (∀ k < 3, k ≠ 0 → k ≠ 1 → sLink.linkUp 0 k = false ∨ sLink.linkUp k 1 = false) ∧
    sLink2.linkUp 0 7 = false ∧ (∀ k < 8, k ≠ 0 → k ≠ 7 → sLink2.linkUp 0 k = false ∨ sLink2.linkUp k 7 = false) := by
  unfold RingFull; decide +kernel

/-- The same with no queue enabled. -/
def sDown : State := { sLink with queues := [] }

theorem witness_LinksPowerAndBoot_items : Messages sLink 3 (3 + 2 ^ 128 * 6) ∧ Messages sLink2 0 6 := by
  refine ⟨fun i h => ?_, fun i h => ?_⟩
  · have : i = 3 ∨ i = 5 := by
      have e : State.frameItems 8 (3 + 2 ^ 128 * 6) = [3, 5] := by decide +kernel
      rw [e] at h
      simpa using h
    obtain rfl | rfl := this
    · exact ⟨by decide, _, 0x77, 1, _, none, rfl, rfl, rfl⟩
    · exact ⟨by decide, _, 0x78, 1, _, none, rfl, rfl, rfl⟩
  · have : i = 6 := by
      have e : State.frameItems 8 6 = [6] := by decide +kernel
      rw [e] at h
      simpa using h
    subst this
    exact ⟨by decide, _, 0x79, 1, _, none, rfl, rfl, rfl⟩

theorem witness_LinksPowerAndBoot_frames : 5 ≤ ((sLink.die (0xE4 / 256)).counters.get (0xE4 % 256)).getD 0 ∧
    ((sLink.die (0xE4 / 256)).counters.get (0xE4 % 256)).getD 0 < 6 ∧ (sLink.keyAt 0xE4 2).admitted = true ∧ (sLink.keyAt 0xE4 3).admitted = false ∧ 3 ≠ sLink.part.key ∧ 0 = sLink2.part.key ∧
    (sLink2.keyAt 0xE4 0).admitted = false ∧ sLink2.partQueues = [3] ∧ RingFull sLink2 3 ∧ State.otherEnd 0xE4 = some (256 + 0xE4) ∧ (sLink.keyAt 0xE4 2).phase = true ∧ (sLink.keyAt (256 + 0xE4) 2).phase = false ∧
    (∀ i ∈ State.frameItems 8 6, sLink2.ofKey 0 i = true) ∧ (∀ i ∈ State.frameItems 8 7, sLink.ofKey 2 i = true) ∧
    { sLink with boot := { ready := true } }.boot.ready = true ∧ sLink.boot.ready = false ∧ (sDown.queue 0).en = false ∧ (sDown.queue 64).en = false := by
  unfold RingFull; decide +kernel

def heldBy (q n kind code value : Nat) (t : State) : Bool := (t.queue q).reports == [#v[BitVec.ofNat 64 (n * 2 ^ 32 + kind * 2 ^ 24 + code * 2 ^ 16), 0, BitVec.ofNat 64 value]]

theorem test_links : ran (exec (.narrowed 0xE6 4) sLink) (fun t => t.lanesOf 0xE6 == 4 && heldBy 0 1 3 1 0xE6 t && heldBy 64 9 3 1 0xE6 t) = true ∧
    ran (exec (.down 0xE6) sLink) (fun t => t.lanesOf 0xE6 == 0 && heldBy 0 1 3 2 0xE6 t) = true ∧ ran (exec (.retrained 0xE4 8) sLink) (fun t => t.lanesOf 0xE4 == 8 && heldBy 64 9 3 4 0xE4 t) = true ∧
    ran (exec (.retrained 0xE4 8) sDown) (fun t => t.lanesOf 0xE4 == 8 && t.queues == []) = true ∧
    ran (exec (.down 0xE4) sLink) (fun t => t == sLink) = true ∧ ran (exec (.thermal 1) sLink) (fun t => (t.die 1).power == .halted && heldBy 0 1 4 1 1 t && t.part.suspended == some 0) = true ∧
    ran (exec (.thermal 7) sLink) (fun t => t == sLink) = true ∧ sLink.crossing 0 1 = some ([0xE6, 0xE5], true) ∧ sLink2.crossing 0 7 = none ∧ sLink.crossing 0 7 = some ([0xEA], false) := by decide +kernel

def back (t : State) (id d : Nat) : Bool :=
  match t.net.get id with
  | some y => y.load == .returned (BitVec.ofNat 64 d) { vc := 4 } none && y.dst == 40
  | none => false

theorem test_frames_keys : ran (exec (.frameReceipt 0xE4 2 5 true 3) sLink) (fun t => t == sLink) = true ∧ ran (exec (.frameReceipt 0xE4 2 6 false 3) sLink) (fun t => t == sLink) = true ∧
    ran (exec (.frameReceipt 0xE4 2 6 true 7) sLink) (fun t => (t.die 0).counters == [(0xE4, 6)] && t.net == sLink.net) = true ∧
    ran (exec (.frameReceipt 0xE4 3 6 true (3 + 2 ^ 128 * 6)) sLink) (fun t => back t 3 0x77 && back t 5 0x78 && !back t 6 0x79 && t.queues == sLink.queues) = true ∧
    ran (exec (.frameReceipt 0xE4 0 6 true 6) sLink2) (fun t => heldBy 3 1 3 3 0xE4 t && back t 6 0x79) = true ∧
    ran (exec (.keyPhaseSwitch 0xE4 2 0xABC) sLink) (fun t => t.keyAt 0xE4 2 == { admitted := true, key0 := 0xABC, phase := false } && t.keyAt (256 + 0xE4) 2 == { key1 := 0xABC, phase := true }) = true ∧
    ran (exec (.keyPhaseSwitch 0xE4 2 (2 ^ 256)) sLink) (fun t => t.keyAt 0xE4 2 == { phase := true }) = true ∧
    ran (exec (.keyPhaseSwitch 0xE4 3 (2 ^ 256 + 1)) sLink) (fun t => t.keyAt 0xE4 3 == { admitted := true } && t.keyAt (256 + 0xE4) 3 == { admitted := true }) = true := by decide +kernel

/-- A package before step k of its power-up. -/
def sUp (k : Nat) (fail : Nat := 0) : State :=
  { boot := { step := k, fail := fail }, time := 7, tables := { num := 3 }, linkKeys := [(1, [(9, { admitted := true })])], firmware := [(5000, { full := [1] })], queueParts := [(4, 3)] }

theorem witness_LinksPowerAndBoot_steps : (sUp 0).boot.ready = false ∧ (sUp 4 3).boot.fail ≠ 0 ∧ (sUp 2).boot.fail = 0 ∧ (sUp 2).boot.step = 2 ∧ (sUp 2).linkKeys = [(1, [(9, { admitted := true })])] ∧
    (sUp 3).firmware = [(5000, { full := [1] })] ∧ (sUp 6).queueParts = [(4, 3)] ∧ (sUp 1).boot.step = 1 ∧ (sUp 4).boot.step = 4 ∧ (sUp 5).boot.step = 5 ∧ (sUp 7).boot.step = 7 := by decide +kernel

theorem test_boot : ran (exec (.powerUp 0 0) (sUp 1)) (fun t => t == { sUp 1 with boot := { step := 2 } }) = true ∧ ran (exec (.powerUp 0 0) (sUp 2)) (fun t => (t.die 1).keys == [(9, { admitted := true })]) = true ∧
    ran (exec (.powerUp 0 0) (sUp 3)) (fun t => (t.core 5000).full == [1] && t.boot.step == 4) = true ∧
    ran (exec (.powerUp 0 0) (sUp 6)) (fun t => t.part.num == 3 && (t.queue 4).part == 3 && t.boot.step == 7 && !t.boot.ready) = true ∧
    ran (exec (.powerUp 0 0) (sUp 7)) (fun t => t.boot.ready && t.boot.step == 7 && t.time == 0) = true ∧
    ran (exec (.powerUp 3 0) (sUp 4)) (fun t => t.boot == { fail := 3, step := 4 }) = true ∧ ran (exec (.powerUp 4 0) (sUp 5)) (fun t => t.boot == { fail := 4, step := 5 }) = true ∧
    ran (exec (.powerUp 1 2) (sUp 2)) (fun t => t.boot == { fail := 1, image := 2, step := 2 }) = true ∧ ran (exec (.powerUp 2 1) (sUp 2)) (fun t => t == sUp 2) = true ∧
    ran (exec (.powerUp 0 0) (sUp 4 3)) (fun t => t.boot == { step := 1 }) = true ∧ ran (exec (.powerUp 1 1) (sUp 4 3)) (fun t => t == sUp 4 3) = true := by decide +kernel

/-- A record with SEQ 1 and a reserved OP; its CRC-32C was computed outside the model, by R117. -/
def rec1 (crc : Nat) : Vector Word 8 := #v[0x100000004, 0, 0, 0, 0, 0, 0, BitVec.ofNat 64 (crc * 2 ^ 32)]

def hq : HQueue := { en := true, expected := 1, rhead := 0, cbase := 0x40 }

/-- Queue 63 of host port 1 with a record in slot 0 of its ring at window offset 0x40. -/
def sQ (x : HQueue) (crc : Nat) : State :=
  { boot := { ready := true }, time := 10, queues := [(127, x)], mem := Memory.writeN [] (2 ^ 47 + 0x40) ((rec1 crc).toList.flatMap fun w => toBytes 8 w.toNat) }

def crc1 : Nat := 0x17433f54

theorem witness_QueueRegisters : 127 = 64 * 1 + 63 ∧ ({} : HQueue).en = false ∧ (∀ i : Fin 8, (rec1 crc1).get i = BitVec.ofNat 64 (ofBytes (Memory.readN (sQ hq crc1).mem (State.slotAddr hq hq.head + 8 * i.val) 8))) ∧
    (∀ i : Fin 8, (rec1 0).get i = BitVec.ofNat 64 (ofBytes (Memory.readN (sQ hq 0).mem (State.slotAddr hq hq.head + 8 * i.val) 8))) ∧ State.ringFull hq = false ∧ Memory.wf (sQ hq crc1).mem = true ∧
    1 % 2 ^ hq.clog ≠ hq.head ∧ Acceptable hq (rec1 crc1) ∧ ¬Acceptable hq (rec1 0) ∧ { hq with refetch := some (8, 600), notify := [(1, true)] }.notify = [(1, true)] ∧
    (sQ hq crc1).boot.ready = true ∧ hq.refetch = none ∧ hq.notify = [] ∧ hq.reports = [] ∧ hq.stalled = false ∧ hq.command = none ∧ 0 < (8 : Nat) ∧ 600 ≤ 600 + (sQ hq crc1).time ∧
    State.reset.boot.ready = false ∧ 4 ≤ (12 * 16 + 1) / 16 % 16 ∧ (12 * 16 + 1) / 16 % 16 ≤ 12 ∧ (12 * 16 + 1) % 2 = 1 ∧ hq.tail = 0 ∧ hq.head = hq.tail ∧
    { hq with rhead := 1, reports := [#v[1, 2, 3]] }.reports = [#v[1, 2, 3]] ∧ (hq.rtail + 1) % 2 ^ hq.rlog ≠ 2 % 2 ^ hq.rlog := by
  unfold Acceptable; decide +kernel

def wrote (kind code value n : Nat) (t : State) : Bool :=
  Memory.readN t.mem (2 ^ 47) 32 == toBytes 8 (n * 2 ^ 32 + kind * 2 ^ 24 + code * 2 ^ 16) ++ toBytes 8 0 ++ toBytes 8 value ++ toBytes 8 10 && (t.queue 127).rtail == 1

theorem test_queue_fetches : ran (exec (.tail 1 63 1 false) (sQ hq crc1)) (fun t => (t.queue 127).command == some (rec1 crc1) && (t.queue 127).expected == 2 && (t.queue 127).head == 1 && (t.queue 127).tail == 1) = true ∧
    ran (exec (.tail 1 63 1 false) (sQ hq 0)) (fun t => (t.queue 127).stalled && wrote 1 1 1 1 t) = true ∧
    ran (exec (.tail 1 63 1 true) (sQ hq 0)) (fun t => (t.queue 127).refetch == some (1, 610) && !(t.queue 127).stalled) = true ∧
    ran (exec (.commandRefetch 1 63) (sQ { hq with tail := 1, refetch := some (3, 10), notify := [(1, true)] } crc1)) (fun t => (t.queue 127).command == some (rec1 crc1)) = true ∧
    ran (exec (.commandRefetch 1 63) (sQ { hq with tail := 1, refetch := some (7, 10), notify := [(1, true)] } 0)) (fun t => (t.queue 127).refetch == some (8, 610)) = true ∧
    ran (exec (.commandRefetch 1 63) (sQ { hq with tail := 1, refetch := some (8, 10), notify := [(1, true)] } 0)) (fun t => (t.queue 127).stalled && wrote 1 2 1 1 t) = true ∧
    ran (exec (.commandRefetch 1 63) (sQ { hq with tail := 1, refetch := some (8, 11), notify := [(1, true)] } 0)) (fun t => (t.queue 127).refetch == some (8, 11)) = true := by decide +kernel

theorem test_queue_registers : ran (exec (.en 1 63 0x70061) (sQ {} 0)) (fun t => let x := t.queue 127; x.en && x.clog == 6 && x.part == 7 && x.expected == 1) = true ∧
    ran (exec (.en 1 63 0x70060) (sQ hq 0)) (fun t => !(t.queue 127).en && (t.queue 127).part == 7) = true ∧
    ran (exec (.stalled 1 63) (sQ { hq with stalled := true } 0)) (fun t => !(t.queue 127).stalled) = true ∧
    ran (exec (.rhead 1 63 2) (sQ { hq with rhead := 1, reports := [#v[1, 2, 3]] } 0)) (fun t => (t.queue 127).reports == [] && Memory.readN t.mem (2 ^ 47) 32 == toBytes 8 1 ++ toBytes 8 2 ++ toBytes 8 3 ++ toBytes 8 10) = true ∧
    ran (exec (.queueRegisterWrite 1 63 0 0x12345) (sQ hq 0)) (fun t => (t.queue 127).cbase == 0x12340) = true ∧
    ran (exec (.queueRegisterWrite 1 63 0x20 0x12344) (sQ hq 0)) (fun t => (t.queue 127).rbase == 0x12340 && (t.queue 127).rlog == 4) = true := by decide +kernel

/-- An accepted command; a packet in host memory at 0x1000 and a nonce at 0x2000; die 3 with a vcore or without. -/
def sCmd (w : Vector Word 8) (vs : AMap VCore := []) (signed : Nat := 0) : State :=
  { sQ { hq with head := 1, tail := 1, command := some w } 0 with
    mem := Memory.writeN (Memory.writeN [] (2 ^ 47 + 0x1000) (packetBytes packet)) (2 ^ 47 + 0x2000) [5, 6], vcores := vs, signed := signed, fresh := 20 }

def cmd (op : Nat) (a b c : Word) : Vector Word 8 := #v[BitVec.ofNat 64 (2 ^ 32 + op), a, b, c, 0, 0, 0, 0]

theorem witness_HostCommands : (∀ op ∈ [0, 4, 2 ^ 16 - 1], bits ((cmd op 0 0 0).get 0) 15 0 = op) ∧ bits ((cmd 1 0x1000 1 9).get 0) 15 0 = 1 ∧ State.ringFull { hq with head := 1, tail := 1 } = false ∧
    Memory.wf (sCmd (cmd 1 0x1000 1 9)).mem = true ∧ (cmd 1 0x1000 0 9).get 2 = 0 ∧ 2 ^ 20 < ((cmd 1 0x1000 (2 ^ 20 + 1) 9).get 2).toNat ∧
    (∀ i : Fin 16, packet.get i = BitVec.ofNat 64 (ofBytes (Memory.readN (sCmd (cmd 1 0x1000 1 9)).mem (2 ^ 47 + bits ((cmd 1 0x1000 1 9).get 1) 46 0 + 8 * i.val) 8))) ∧ Pkt.ok packet true = true ∧
    (Pkt.pc packet).toNat % 8 = 0 ∧ Pkt.gang packet = false ∧ (sCmd (cmd 1 0x1000 1 9)).inPart (Pkt.vcore packet) = true ∧ (cmd 2 8 9 0).get 1 = BitVec.ofNat 64 (2 ^ 3) ∧
    (sCmd (cmd 2 8 9 0) [(4, { place := .placed, pos := 3 * 512 })]).dieHolds 3 = true ∧ (sCmd (cmd 2 8 9 0)).dieHolds 3 = false ∧ ((sCmd (cmd 2 8 9 0)).die 3).power ≠ .halted ∧
    2 ^ 20 ≤ (sCmd (cmd 3 0x2000 0x3000 0) [] (2 ^ 20)).signed ∧ reportAt (sCmd (cmd 3 0x2000 0x3000 0)) 127 + 32 ≤ 2 ^ 47 + bits ((cmd 3 0x2000 0x3000 0).get 2) 46 0 := by decide +kernel

theorem witness_HostCommands_sat (w : Vector Word 8) : ∀ h, ((sCmd w).home h).sat = [] := fun _ => rfl

theorem test_host_commands : [0, 4, 2 ^ 16 - 1].all (fun op => ran (exec (.badOp 1 63) (sCmd (cmd op 0 0 0))) (fun t => wrote 1 3 1 1 t && (t.queue 127).command == none)) = true ∧
    ran (exec (.submit 1 63) (sCmd (cmd 1 0x1000 0 9))) (wrote 1 4 1 1) = true ∧
    ran (exec (.submit 1 63) (sCmd (cmd 1 0x1000 1 9))) (fun t => wrote 1 0 1 1 t && t.part.queue == [(20, { w := packet, accepted := 10, ready := some 10, epoch := 9 })] &&
      t.part.graphs == [{ epoch := 9, pid := 20, w := packet }]) = true ∧
    ran (exec (.power 1 63) (sCmd (cmd 2 8 10 0))) (wrote 1 4 1 1) = true ∧ ran (exec (.power 1 63) (sCmd (cmd 2 8 9 0) [(4, { place := .placed, pos := 3 * 512 })])) (wrote 1 4 1 1) = true ∧
    ran (exec (.power 1 63) (sCmd (cmd 2 8 9 0))) (fun t => wrote 1 0 1 1 t && (t.die 3).power == .off) = true ∧
    ran (exec (.power 1 63) (sCmd (cmd 2 8 7 0))) (fun t => (t.die 3).power == .cap 7 && (t.die 4).power == .on) = true ∧
    ran (exec (.attest 1 63) (sCmd (cmd 3 0x2000 0x3000 0) [] (2 ^ 20))) (fun t => wrote 1 4 1 1 t && t.signed == 2 ^ 20) = true := by decide +kernel

/-! ### Witnesses and steps: the step, the decoder and the encoder (R35, R36, R50-R68, R126) -/

/-- A bundle where the machine fetches next after reset. -/
def sStep (w : Nat) : State := State.reset.withFetchWord 64 w

/-- A load beside the increment of its base; a branch alone; a 32-bit constant; an object load whose record has not come; ADDI with a reserved bit. -/
def wPair : Nat := 0x10193000 + 0x48110008 * 2 ^ 32
def wLoneC : Nat := 0x81B0FFFE
def wLoneA : Nat := 0xCBA00000 + 0x12000400 * 2 ^ 32
def wHeld : Nat := 0x80000000 + mem 0x30 3 2 0 0
def wBad : Nat := 2 ^ 64 - 1

theorem witness_StepRunsTheBundle (w : Nat) (h : w ∈ [wPair, wLoneC, wLoneA, wHeld, wBad]) : Issues (sStep w) 0 0 0x20000 ∧
    BitVec.ofNat 64 (ofBytes (Memory.readN (sStep w).mem 0x20000 8)) = BitVec.ofNat 64 w := by
  have h1 : (sStep w).phaseDue.isNone = true ∧ (sStep w).threadDue.isNone = true ∧ (sStep w).pollDue.isNone = true ∧ (sStep w).settled.events.length = 0 ∧ (sStep w).inputs = [] ∧
      (sStep w).nextCore = some 0 ∧ (0 : Fin 16) = Fin.ofNat 16 (sStep w).time ∧ (sStep w).inRotation 0 ((sStep w).slotAt 0 0) = true ∧ (sStep w).asyncReady 0 0 = false ∧
      ((sStep w).slotAt 0 0).life = .task := by
    simp only [List.mem_cons, List.not_mem_nil, or_false] at h
    rcases h with rfl | rfl | rfl | rfl | rfl <;> decide +kernel
  have h2 : ((sStep w).slotAt 0 0).pair = none ∧ (sStep w).fetchAt ((sStep w).slotAt 0 0).regs.pc = .bytes 0x20000 ∧
      ((sStep w).core 0).icache.contains (((sStep w).slotAt 0 0).regs.pc.toNat / 64) = true ∧ BitVec.ofNat 64 (ofBytes (Memory.readN (sStep w).mem 0x20000 8)) = BitVec.ofNat 64 w := by
    simp only [List.mem_cons, List.not_mem_nil, or_false] at h
    rcases h with rfl | rfl | rfl | rfl | rfl <;> decide +kernel
  obtain ⟨a, b, c, d, e, f, g, i, j, k⟩ := h1
  exact ⟨⟨a, b, c, List.length_eq_zero_iff.mp d, e, f, g, i, j, .inl k, h2.1, h2.2.1, h2.2.2.1, fun _ => rfl⟩, h2.2.2.2⟩

theorem witness_StepRunsTheBundle_bundles : isError (decodeBundle (bits (BitVec.ofNat 64 wBad) 31 0) (bits (BitVec.ofNat 64 wBad) 63 32)) = true ∧
    decodeBundle (bits (BitVec.ofNat 64 wLoneC) 31 0) (bits (BitVec.ofNat 64 wLoneC) 63 32) = .ok (.loneC (.bnz 6 0x7FFE)) ∧
    decodeBundle (bits (BitVec.ofNat 64 wLoneA) 31 0) (bits (BitVec.ofNat 64 wLoneA) 63 32) = .ok (.loneA (.movx 4 0x12000400)) ∧
    decodeBundle (bits (BitVec.ofNat 64 wHeld) 31 0) (bits (BitVec.ofNat 64 wHeld) 63 32) = .ok (.loneC (.old 3 2 false .b 0)) ∧
    decodeBundle (bits (BitVec.ofNat 64 wPair) 31 0) (bits (BitVec.ofNat 64 wPair) 63 32) = .ok (.pair (.ld 3 2 false .d 0) (.addi 2 2 8)) := ⟨by decide +kernel, rfl, rfl, rfl, rfl⟩

theorem witness_StepRunsTheBundle_runs : ran (exec (.bnz 6 0x7FFE) (atBundle (sStep wLoneC) 0 0 false (BitVec.ofNat 64 wLoneC))) (fun t => t.cur.out == .done) = true ∧
    ran (exec (.movx 4 0x12000400) (atBundle (sStep wLoneA) 0 0 true (BitVec.ofNat 64 wLoneA))) (fun t => t.cur.out == .done) = true ∧
    ran (exec (.ld 3 2 false .d 0) (atBundle (sStep wPair) 0 0 false (BitVec.ofNat 64 wPair))) (fun t => t.cur.out == .done) = true ∧
    ran (exec (.addi 2 2 8) (atBundle (sStep wPair) 0 0 true (BitVec.ofNat 64 wPair))) (fun t => t.cur.out == .done &&
      ran (exec (.ld 3 2 false .d 0) { t with cur := (atBundle (sStep wPair) 0 0 false (BitVec.ofNat 64 wPair)).cur }) (fun v => v.cur.out == .done)) = true := by decide +kernel

theorem test_step : ran (step (sStep wPair)) (fun t => has 2 8 t && t.me.regs.pc == 8) = true ∧ ran (step (sStep wLoneA)) (fun t => has 4 0x12000400 t && t.me.regs.pc == 8) = true ∧
    ran (step (sStep wLoneC)) (fun t => t.me.regs.pc == 8) = true ∧ ran (step (sStep wBad)) (trapped 1 (2 ^ 64 - 1)) = true ∧
    ran (step (sStep wHeld)) (fun t => t.me.regs.pc == 0 && t.cur.out != .done) = true := by decide +kernel

theorem witness_ARoundTrip : (Instr.addi 2 2 0xFF8).wellFormed = true ∧ (Instr.addi 2 2 0xFF8).isA = true ∧ (encode (.addi 2 2 0xFF8)).isSome = true ∧ (Instr.movhx 5 0xFFFFFFFF).wellFormed = true ∧
    (encode (.movhx 5 0xFFFFFFFF)).map (·.2) = some 0xFFFFFFFF := by decide +kernel

theorem witness_CRoundTrip : (Instr.bnz 6 0x7FFE).wellFormed = true ∧ (Instr.bnz 6 0x7FFE).isA = false ∧ encode (.bnz 6 0x7FFE) = some (0x81B0FFFE, 0) := by decide +kernel

/-! ### Witnesses of the statements whose hypotheses only choose a register, a case or a place -/

theorem witness_GeneralRegisters_RegisterWrite : (15 : Reg) ≠ 0 ∧ (15 : Reg) ≠ 1 ∧ ¬((1 : Nat) = (on (regs [])).cur.pos ∧ (0 : Fin 16) = (on (regs [])).cur.slot) ∧
    ¬((0 : Nat) = (on (regs [])).cur.pos ∧ (15 : Fin 16) = (on (regs [])).cur.slot) ∧ 1 ≠ (on (regs [])).cur.pos := by decide +kernel

theorem witness_GeneralRegisters_RegisterRead : (15 : Reg) ≠ 0 := by decide

theorem witness_GeneralRegisters_PcWrite : ¬((1 : Nat) = (on (regs [])).cur.pos ∧ (0 : Fin 16) = (on (regs [])).cur.slot) ∧ 1 ≠ (on (regs [])).cur.pos := by decide +kernel

theorem witness_MovesSumsAndProducts_SumsAndProducts : (ShAmt.s0, 0) ∈ [(ShAmt.s0, 0), (.s1, 1), (.s2, 2), (.s3, 3), (.s4, 4)] ∧ (ShAmt.s4, 4) ∈ [(ShAmt.s0, 0), (.s1, 1), (.s2, 2), (.s3, 3), (.s4, 4)] := by decide

/-- The backward branch of 2^11 bundles and the long one of 2^14. -/
theorem witness_ControlFlow_Branches : ∃ taken long, taken = (on (regs [])).setPc ((on (regs [])).cur.ipc + 8 * (0x800 : BitVec 12).signExtend 38) ∧
    long = (on (regs [])).setPc ((on (regs [])).cur.ipc + 8 * (0x4000 : BitVec 15).signExtend 38) := ⟨_, _, rfl, rfl⟩

theorem witness_ElementStoresAndFences_Fences : FenceK.rel ≠ .acq ∧ FenceK.full ≠ .acq ∧ (on (regs [])).cur.phase = 0 ∧ NothingPending (on (regs [])) :=
  ⟨by decide, by decide, rfl, nothing_of _ rfl rfl rfl (by decide +kernel)⟩

/-! ### Witnesses of the clauses that a second review has widened -/

theorem witness_TasksComeAndGo_Yield_frozen : sYieldGuest.frozen sYieldGuest.cur.pos = false := by decide +kernel

/-- A supervisor core's thread with a value in ts3. -/
def sSupTs : State :=
  let s := on { regs [] with ts := vput (Vector.replicate 8 0) 3 7 }
  { s with cur := { s.cur with pos := 4096 }, cores := [(4096, {})] }

theorem witness_RegisterReadsOfTheSystem_ShadowRegisterReads : (on (regs [])).cur.pos < 4096 ∧ 4096 ≤ sSupTs.cur.pos := by decide +kernel

theorem test_tsrd_of_a_supervisor : ran (exec (.tsrd 1 3) sSupTs) (fun t => t.me.regs.g.get 1 == 0) = true := by decide +kernel

/-- A message for thread 0 of vcore 0 at another core, which holds what comes for that vcore or does not (R278). -/
def sHop (hold : Bool) : State :=
  let s := sMail (.message (9 * 2 ^ 44) 0x77 {} none) true
  { s with
    net := [(3, { load := .message (9 * 2 ^ 44) 0x77 {} none, dst := 8 })]
    cores := s.cores ++ [(8, { fwd := if hold then [⟨0, 0, true, 0⟩] else [] })] }

theorem witness_MessagesArrive_hops (load : Load) : (sMail load true).threadHop (contTid (9 * 2 ^ 44)) 0 = .here ∧
    (sMail load true).threadHop {} 0 = .here ∧ (sMail load false).threadHop (contTid (9 * 2 ^ 44)) 0 = .exited ∧
    (sHop false).threadHop (contTid (9 * 2 ^ 44)) 8 = .next 4096 ∧ (sHop true).threadHop (contTid (9 * 2 ^ 44)) 8 = .wait := by
  refine ⟨rfl, rfl, rfl, by decide +kernel, by decide +kernel⟩

theorem test_message_hops : ran (exec (.messageDelivery 3) (sHop false)) (fun t => (t.net.get 3).map (·.dst) == some 4096) = true ∧
    ran (exec (.messageDelivery 3) (sHop true)) (fun t => t == sHop true) = true := by decide +kernel

theorem witness_MailboxesAndCopies_Mailboxes_left : let s := (onM [(3, 3), (4, 0x99)] { askers := [⟨3, 3, 6, { vc := 6, gen := 2 }, {}⟩] })
    s.g 3 = BitVec.ofNat 64 (3 : Fin 16).val ∧ (s.core 0).askers = [⟨3, 3, 6, { vc := 6, gen := 2 }, {}⟩] ∧
    (s.slotAt 0 3).tid ≠ { vc := 6, gen := 2 } := by decide +kernel

theorem witness_CopyRuns_sat (j : CopyJob) : ∀ h, ((sRunM j).home h).sat = [] := fun _ => rfl

/-- A record that is no window; a die cut off from the root of group 9, on die 1. -/
def sNoWindow : State := { obj (recOf 0xF) [(1, 2 ^ 40), (2, 9 * 2 ^ 60 + 2 * 2 ^ 32 + 1)] with dies := [(0, { sheaf := [sheaf9] })], vcores := [(0, { place := .placed })] }

def sCut : State :=
  { sGrp (g9 []) [(1, 4)] with
    dies := (0, { sheaf := [BitVec.ofNat 128 (2 ^ 127 + 3 * 2 ^ 119 + 0xE4 * 2 ^ 104 + 9 * 2 ^ 64)], lanes := (List.range 7).map fun i => (0xE4 + i, 0) }) :: [(1, { sheaf := [sheaf9] })] }

theorem witness_CollectiveInstructions_ways : sNoWindow.look (bits (sNoWindow.g 1) 63 40) = .got (recOf 0xF) ∧ (recOf 0xF).multi = false ∧
    (sGrp (g9 []) [(1, 4)]).treeJoins 0 9 = true ∧ sCut.treeJoins 0 9 = false := by decide +kernel

theorem test_group_ways : ran (exec (.cmc 7 1 2) sNoWindow) (trapped 6 (2 ^ 40)) = true ∧
    ran (exec (.gabt 7 1) sCut) (fun t => t.cur.out == .parked && t.trees == []) = true := by decide +kernel

theorem witness_CollectiveEvents_CollectiveRounds_over : (sRound r5given (treeOf true)).jobQueued 0 7 5 = false ∧ sCancel.rankAway 9 = false ∧
    (sRcv fwaLoad 8).storedAt ((sRcv fwaLoad 8).posOf 1) 0x20310 8 = false ∧ (sRcv fwmLoad 0).rankAway 9 = false ∧
    (sRcv (.transferAck {} 3 (some 5) [2] false) 0).hop 0 0 = .here := by decide +kernel

/-- Vcore 7 is FOLDED onto position 16, position 40 is sealed, and vcore 5's first tile holds sums. -/
def sPl2 (a b : Word) (ex : List Exch := []) : State :=
  let s := sPl a b ex
  { s with
    vcores := s.vcores ++ [(7, { place := .folded, pos := 16, segb := 512, segl := 3 })]
    cores := s.cores ++ [(40, { sealed := true })], clusters := [(1, { eng := { tiles := [(0, { owner := 5, kind := .plain })] } })] }

/-- A core whose slots 0 to 14 are all busy, and vcore 5 with one thread. -/
def sPl3 : State :=
  let s := sPl 5 (512 * 2 ^ 16 + 16)
  { s with cores := s.cores ++ [(8, { slots := vput (Vector.replicate 16 {}) 0 { busy := true, occ := 5 } }), (16, { slots := Vector.replicate 16 { busy := true, occ := 6 } })] }

theorem witness_PlacementAndExchange_PlacementInstructions_operands : FoldedAt (sPl2 8 16) 16 ∧ ¬FoldedAt (sPl2 8 16) 8 ∧ (sPl2 8 40).unusable 40 = true ∧ (∃ j, (sPl3.slotAt 16 j).busy = true) ∧
    (∃ i < 8, ((sPl2 5 16).tileAt (cluOf 8) (8 * (8 % 8) + i)).kind ≠ .empty ∧ ((sPl2 5 16).tileAt (cluOf 8) (8 * (8 % 8) + i)).owner = 5 % 2 ^ 16) ∧
    Meets (sPl 5 16) 5 511 512 16 ∧ ¬Meets (sPl 5 16) 5 512 512 16 ∧ (Free sPl3 16).length < (Held15 sPl3 8 5).length ∧
    (Held15 (sPl 5 16) 8 5).length ≤ (Free (sPl 5 16) 16).length ∧ (sPl 5 24 [.move 5 24 none]).mayMove 8 (some 5) = false := by
  unfold FoldedAt Meets; decide +kernel

theorem test_placement_operands : ran (exec (.plcSwap 1 2) (sPl2 16 24)) (trapped 1 16) = true ∧ ran (exec (.plcSwap 1 2) (sPl2 8 16)) (trapped 1 16) = true ∧
    ran (exec (.plcSwap 1 2) (sPl2 8 40)) (trapped 1 40) = true ∧ ran (exec (.plcMigx 1 2) (sPl2 5 40)) (trapped 1 40) = true ∧
    ran (exec (.plcFold 1 2) (sPl2 5 (512 * 2 ^ 16 + 16))) (trapped 1 5) = true ∧ ran (exec (.plcFold 1 2) sPl3) (trapped 1 (512 * 2 ^ 16 + 16)) = true ∧
    ran (exec (.plcFold 1 2) (sPl 5 (513 * 2 ^ 16 + 16))) (trapped 1 (513 * 2 ^ 16 + 16)) = true := by decide +kernel

theorem witness_SealingPairsAndQuiescence_states : ((sSeal 24 false { channel := [jCopy] }).core 0).channel = [jCopy] ∧
    ((sSeal 0 true).updSlot 0 2 fun x => { x with quiet := true }).slotAt 0 2 = { busy := true, quiet := true } := by decide +kernel

theorem test_resume : ran (exec (.plcSeal 1) (sSeal 0 false { channel := [jCopy] })) (fun t => (t.core 0).channel.map (fun m => (m.ended, m.status, m.cause)) == [(true, 3, 0x14)]) = true ∧
    ran (exec (.qsc 1) ((sSeal 0 true).updSlot 0 2 fun x => { x with quiet := true })) (fun t => (t.slotAt 0 2) == { busy := true, ready := 1 }) = true := by decide +kernel

/-- A replayed member of gang 3, whose vcore stands again. -/
def g6 : GraphPacket := { epoch := 5, pid := 3, w := (member 0).2.w }

def sGangRoll : State :=
  { sRoll 5 with
    vcores := [(10, { place := .placed, gang := some (3, ⟨0, 0, 0, 1, 1⟩) })]
    part := { (sRoll 5).part with graphs := [g6] } }

theorem witness_WatchdogAndReset_gangs : Pkt.gang g5.w = false ∧ Pkt.gang g6.w = true ∧ Pkt.any g6.w = false ∧ 0 < g6.epoch ∧ Pkt.ndep g6.w = 0 ∧ Pkt.cpl g6.w = 0 ∧
    (sGangRoll.gangOf (Pkt.gangId g6.w)).isSome = true ∧ (sDog (2 ^ 32) []).exchanges = [] ∧ (∀ x ∈ (sDog (2 ^ 32) []).vcores, x.2.pos < 4096) := by decide +kernel

theorem test_gang_replay : ran (exec .partitionReset sGangRoll) (fun t => t.part.queue.map (fun q => (q.2.w, q.2.again)) == [(g6.w, true)]) = true ∧
    ran (exec .partitionReset { sDog 9 [] with cores := (sDog 9 []).cores ++ [(4096, { full := [1] })] }) (fun t => (t.core 4096).full == [1] && !t.me.busy) = true ∧
    ran (exec (.powerUp 4 0) { sUp 5 with cores := [(5000, {})] }) (fun t => t.cores == []) = true := by decide +kernel

/-- A write of TAIL that goes back takes slots out of the valid ones, and one that makes them valid again is the notify that
counts (R353): after TAIL 5, TAIL 3 and TAIL 4 with relaxed ordering, slots 0 to 2 owe their validity to the first write and
slot 3 to the last.  After a write equal to HEAD no slot is valid. -/
theorem test_notifies : ran (exec (.tail 1 63 0 false) (sQ { en := true, clog := 4, notify := [(4, true)] } 0)) (fun t => (t.queue 127).notify == []) = true ∧
    ran (exec (.tail 1 63 3 false) (sQ { en := true, clog := 4, notify := [(5, false)], tail := 5 } 0)) (fun t => (t.queue 127).notify == [(3, false)]) = true ∧
    ran (exec (.tail 1 63 4 true) (sQ { en := true, clog := 4, notify := [(3, false)], tail := 3 } 0)) (fun t => (t.queue 127).notify == [(3, false), (4, true)]) = true := by decide +kernel

/-- Home 6 with requests in its queue and its accumulators; a thread waits for token 50. -/
def sHome6 (l : List (Nat × Req)) (sat : List (Nat × Nat × Int)) : State :=
  let s := obj (recOf 0xF) [] { buffer := [] }
  let s := { s with homes := [(6, { queue := l, sat := sat })] }
  s.updMe fun x => { x with pendC := some ⟨.old 1 2 false .d 0, 2, [], .token 50⟩ }

/-- A combinable read whose reply, all ones, has not yet passed back. -/
def replied : Req := { req (.load true) with line := some (List.replicate 64 0xFF), got := List.replicate 8 0xFF }

theorem witness_BufferAndHomes_AccumulatorsAndMerges (q : Req) (l : List (Nat × Req)) (sat : List (Nat × Nat × Int))
    (h : (q, l, sat) ∈ [({ req (.red .sadd 5) with entries := [(0, 7)] }, [], []), ({ req (.red .sadd 5) with entries := [(0, 7)] }, [], [(0x20318, 8, 3)]),
      (req (.load false), [], [(0x20318, 8, 2 ^ 70)]), ({ req (.red .fadd 1) with entries := [(0, 7)] }, [(50, { req (.red .fadd 2) with entries := [(8, 9)], pos := 8 })], []),
      (req (.load true), [], [])]) :
    let s := sHome6 ((40, q) :: l) sat
    (s.home 6).queue.get 40 = some q ∧ s.curHpa q = 0x20318 ∧ q.n = 8 ∧ q.line = none ∧ q.moving = none ∧ Memory.wf s.mem = true ∧ s.poisoned 0x20318 8 = false ∧
    State.homeOf 0x20318 = 6 ∧ s.mayServe 6 40 q = true ∧ 0x20318 / 64 ∉ (s.home 6).mshr ∧ s.findToken 50 = some (0, 0, false) ∧ (s.core 0).buffer = [] ∧
    (s.fuseWith 6 40 q).isEmpty = l.isEmpty ∧ s.mergeFrom 6 40 q = none := by
  simp only [List.mem_cons, List.not_mem_nil, or_false, Prod.mk.injEq] at h
  rcases h with ⟨rfl, rfl, rfl⟩ | ⟨rfl, rfl, rfl⟩ | ⟨rfl, rfl, rfl⟩ | ⟨rfl, rfl, rfl⟩ | ⟨rfl, rfl, rfl⟩ <;>
    refine ⟨?_, ?_, ?_, ?_, ?_, ?_, ?_, ?_, ?_, ?_, ?_, ?_, ?_, ?_⟩ <;> decide +kernel

theorem witness_BufferAndHomes_AccumulatorsAndMerges_reads : let s := sHome6 [(30, replied), (40, req (.load true))] []
    s.mergeFrom 6 40 (req (.load true)) = some (List.replicate 64 0xFF) ∧ s.arrives 6 (req (.load true)) = true ∧ s.arrives 6 replied = true ∧
    (s.home 6).queue.get 30 = some replied ∧ replied.got.length = replied.n ∧ s.curHpa replied = 0x20318 := by decide +kernel

theorem witness_BufferAndHomes_AccumulatorsAndMerges_homes (l : List (Nat × Req)) (sat : List (Nat × Nat × Int)) : ∀ k, k ≠ 6 → ((sHome6 l sat).home k).sat = [] := by
  intro k hk
  have : AMap.get (sHome6 l sat).homes k = none := by
    simp [sHome6, State.updMe, State.updSlot, State.setSlot, State.updCore, State.setCore, AMap.get, Ne.symm hk]
  simp [State.home, this]

/-- A sum beyond 2^63 is delivered as the greatest number (R192), and a merged read takes the older one's line (R190). -/
theorem test_accumulators : ran (exec (.homeSliceRequest 6 40) (sHome6 [(40, { req (.red .sadd 5) with entries := [(0, 7)] })] [(0x20318, 8, 3)])) (fun t =>
      (t.home 6).sat == [(0x20318, 8, 8)] && (t.home 6).queue == []) = true ∧
    ran (exec (.homeSliceRequest 6 40) (sHome6 [(40, req (.load false))] [(0x20318, 8, 2 ^ 70)])) (fun t => has 1 (2 ^ 63 - 1) t && (t.home 6).sat == [] &&
      ofBytes (Memory.readN t.mem 0x20318 8) == 2 ^ 63 - 1) = true ∧
    ran (exec (.homeSliceRequest 6 30) (sHome6 [(30, replied)] [])) (fun t => has 1 (2 ^ 64 - 1) t && t.me.pendC == none) = true := by decide +kernel

/-- Core 0 is the last of a mask of two cores to arrive; and it stands outside the mask. -/
def sBarLast (m : BitVec 8) : State := (sBar 1 0).updCluster 0 fun c => { c with mask := m, arrivals := vput c.arrivals 1 2 }

theorem witness_CountersAndBarriers_Barriers_masks : ((sBarLast 3).cluster 0).mask.getLsbD (0 % 8) = true ∧
    (∀ i : Fin 8, i ≠ coreNum 0 → ((sBarLast 3).cluster 0).mask.getLsbD i.val = true → 0 < ((sBarLast 3).cluster 0).arrivals.get i) ∧
    ((sBarLast 2).cluster 0).mask.getLsbD (0 % 8) = false ∧ (sBarLast 3).cur.pos = 0 ∧ ((sBarLast 3).core 0).leaf.e = 1 := by decide +kernel

theorem test_barrier_masks : ran (exec (.barr 4) (sBarLast 3)) (fun t => (t.cluster 0).ph == 6 && (t.cluster 0).arrivals.get 1 == 1 && (t.cluster 0).arrivals.get 0 == 0) = true ∧
    ran (exec (.barr 4) (sBarLast 2)) (fun t => (t.cluster 0).ph == 5 && (t.core 0).leaf.count == 0 && has 4 5 t) = true := by decide +kernel

theorem witness_FloatComparisonsAndConversions_FloatConversions_clamped : (f64, FpSel.d) = (f64, FpSel.d) ∧ f64.value (2 ^ 62 + 2 ^ 60) = .fin false (2 ^ 52) 205 ∧ (0 : BitVec 4).toNat ≤ 4 := by decide +kernel

/-- −200.7 to INT8 gives −128 (R97). -/
theorem test_fcvti_clamps : ran (exec (.fcvti 1 2 0 .rtz .s) (on (regs [(2, 0xC348B333)]))) (has 1 (BitVec.ofInt 64 (-128))) = true ∧
    ran (exec (.fcvti 1 2 1 .rne .s) (on (regs [(2, 0xC0400000)]))) (has 1 0) = true := by decide +kernel

theorem witness_MessagesArrive_zero : contReg 0 = 0 ∧ (sMail (.message 0 0x77 {} (some 5)) true).threadHop (contTid 0) 0 = .here ∧
    (sMail (.message 0 0x77 {} (some 5)) true).whereIs (contTid 0) = .slot 0 0 := by decide +kernel

/-- A SENDW's payload is placed in register 9, and its acknowledgement knows the wait. -/
theorem test_sendw_arrives : ran (exec (.messageDelivery 3) (sMail (.message (9 * 2 ^ 44) 0x77 {} (some 5)) true)) (fun t => has 9 0x77 t &&
    (t.net.get 3).map (·.load) == some (.delivered {} (some 5))) = true ∧
    ran (exec (.messageDelivery 3) (sMail (.message 0 0x77 {} (some 5)) true)) (fun t => has 0 0 t && (t.net.get 3).map (·.load) == some (.delivered {} (some 5))) = true := by decide +kernel

/-- Core 0's job on the accumulator acc, with FP64 ones, E4M3 ones, or FP32 ones and two B entries for the groups of
R243's example. -/
def sJobW (i : Instr) (ts : Vector Word 8) (needB : Nat) (ends : List Nat) (b : List Tile) : State :=
  let j : MJob := { token := 50, slot := 0, ins := i, regs := { regs [] with ts := ts }, occ := 0, accepted := 0, needA := 1, needB := needB, ends := ends }
  let s := onA (regs []) { strA := b.take 1, strB := b, resA := 1, resB := needB, jobs := [j] }
  let s := s.updMe fun x => { x with pendA := some ⟨i, 1, [], .token 50⟩ }
  { s with time := 10, clusters := [(0, { eng := { awake := true } })] }

def ones64 : Tile := { data := (List.replicate 128 0x3FF0000000000000).flatMap (toBytes 8) }

theorem witness_EngineConsumes_wide (i : Instr) (ts : Vector Word 8) (n : Nat) (ends : List Nat) (b : List Tile)
    (h : (i, ts, n, ends, b) ∈ [(Instr.mma 3 false false false, #v[0, 8, 8, 8, 0, 0, 0, 0], 1, [], [ones64]), (.mmr 3 false, tsM true, 1, [], [ones true]),
      (.mmg 3 1 2 true, tsM false, 2, [5, 5, 20], [ones false, ones false])]) :
    (sJobW i ts n ends b).nextJob 0 = ((sJobW i ts n ends b).core 0).jobs.head?.map (fun j => (0, j)) ∧ ((sJobW i ts n ends b).core 0).jobs.map (·.ins) = [i] ∧
    ((sJobW i ts n ends b).core 0).strA = b.take 1 ∧ (sJobW i ts n ends b).findToken 50 = some (0, 0, true) ∧
    (i = .mmg 3 1 2 true → (groupsAt 0 ends).length = b.length ∧ ends.Pairwise (· ≤ ·)) := by
  simp only [List.mem_cons, List.not_mem_nil, or_false, Prod.mk.injEq] at h
  rcases h with ⟨rfl, rfl, rfl, rfl, rfl⟩ | ⟨rfl, rfl, rfl, rfl, rfl⟩ | ⟨rfl, rfl, rfl, rfl, rfl⟩ <;>
    refine ⟨by decide +kernel, by decide +kernel, by decide +kernel, by decide +kernel, ?_⟩ <;> decide +kernel

/-- R243's example: rows 0 to 4 are of group 0 and rows 5 to 15 of group 2.  In FP64, 8 products of ones on 1 make 9. -/
theorem test_groups_and_doubles : groupsAt 0 [5, 5, 20] = [(0, 5), (5, 20)] ∧ groupsAt 16 [5, 5, 20] = [(5, 20)] ∧ mmrScaled { regs [] with ts := tsM true } = true ∧
    productElement { regs [] with ts := #v[0, 8, 8, 8, 0, 0, 0, 0] } ones64 ones64 false false 0x3FF0000000000000 0 0 = 0x4022000000000000 := by decide +kernel

/-- An AMOV.LD in its 72nd cycle, of an image of SCALED kind, by a supervisor thread of vcore 7. -/
def sMoveLd : State :=
  let j : MJob := { token := 50, slot := 0, ins := .amovLd 1 3, regs := { regs [] with tsw := 2 ^ 4 }, occ := 7, accepted := 0, addrs := [0x1000] }
  let s := onA (regs []) { moves := [{ job := j, begun := 0, buf := [] }], spad := [(0x1004, 0x77), (0x1400, 2)] }
  let s := s.updMe fun x => { x with pendA := some ⟨.amovLd 1 3, 1, [], .token 50⟩ }
  { s with time := 72, clusters := [(0, { eng := { awake := true } })] }

theorem witness_DrainsAndMoves_load : sMoveLd.nextJob 0 = none ∧ (sMoveLd.core 0).moves.map (fun m => (m.done, m.buf.length, decide (m.begun + 72 ≤ sMoveLd.time))) = [(0, 0, true)] ∧
    (∀ x : Fin 8, x ≠ 0 → (sMoveLd.core (8 * 0 + x.val)).moves = []) ∧ sMoveLd.findToken 50 = some (0, 0, true) ∧ (∀ x ∈ sMoveLd.bankDue 0, (0 : Fin 16) ≤ x) ∧
    Memory.wf (sMoveLd.core 0).spad = true ∧ 1 = 8 * (0 : Fin 8).val + (1 : Fin 8).val := by decide +kernel

theorem test_move_loads : ran (exec (.consumption 0) sMoveLd) (fun t => (t.core 0).moves == [] && t.me.pendA == none && ((t.tileAt 0 1).word 1 == 0x77) &&
    ((t.tileAt 0 1).word 0 == 0) && (t.tileAt 0 1).kind == .scaled && (t.tileAt 0 1).owner == 7) = true := by decide +kernel

/-- A scaled product over entries without scale words, its queue full: FORMAT stands before the resources (R238). -/
def sBare : State :=
  (sMat true).updCore 0 fun c =>
    { c with strA := [{ ones true with sidecar := none }], jobs := List.replicate 4 { ins := .aclr 0, slot := 0, occ := 0, regs := {}, token := 0, accepted := 0 } }

theorem witness_MatrixInstructionsAccepted_bare : ¬Scaled (sBare.core 0) ∧ ¬Resources (sBare.core 0) 1 1 false ∧ (sBare.tileAt 0 7).owner = sBare.me.occ % 2 ^ 16 :=
  ⟨by unfold Scaled; decide +kernel, fun h => absurd h.1 (by decide +kernel), by decide +kernel⟩

theorem test_sidecar_first : ran (exec (.mmas 7 false false false) sBare) (trapped 0x0C 0) = true ∧ ran (exec (.mmr 7 false) sBare) (trapped 0x0C 0) = true := by decide +kernel

/-- A gather of one row of 8 bytes by the index 99 at local 0x200, byte 0 of it; and PFCH and EVCT of granule 0 of object 1,
which is resident, of generation 0. -/
def jGather : CopyJob := { jobOf .cpyg #v[2 ^ 40, 0x300, 2 ^ 62 + 0x200 * 2 ^ 32 + 1 * 2 ^ 16 + 8, 0] with begun := true }
def jGran (k : CopyKind) (begun : Bool) (done gen : Nat) : CopyJob := { jobOf k #v[2 ^ 40, 0, 0, 0] with begun := begun, done := done, gen := gen }

/-- The channel's job beside a residency byte: the object's granule 0 has this one. -/
def sGran (j : CopyJob) (b : Byte) : State :=
  let s := sRunM j
  { s with mem := Memory.writeN s.mem 0x11000 [b] }.updCore 0 fun c => { c with spad := [(0x200, 99)] }

theorem witness_CopyRuns_GathersGranulesAndStages (j : CopyJob) (b : Byte) (h : (j, b) ∈ [(jGather, 0x80), (jGran .pfch false 0 0, 0x80), (jGran .pfch true 0 3, 3),
      (jGran .pfch true 0xF000 3, 3), (jGran .evct false 0 0, 0x80), (jGran .evct true 0 0, 1)]) :
    ((sGran j b).core 0).channel = [j] ∧ (sGran j b).dieRuns (dieOf 0) = true ∧ ((sGran j b).cluster 0).coll = [] ∧ (sGran j b).bankOpen 0 = true ∧
    ((sGran j b).core 0).spoiled = [] ∧ Memory.wf ((sGran j b).core 0).spad = true ∧ segLimit ((sGran j b).keptSeg j.client) = 2 ^ 18 ∧
    (sGran j b).hartRecord 0 j.client 1 = some (recOf 0xF) ∧ (recOf 0xF).ok = true ∧ State.elemTests (recOf 0xF) 0 Rec.permW none (bits (j.q.get 0) 39 0) = none ∧
    (recOf 0xF).granule ((recOf 0xF).offset 0) = 0 ∧ (recOf 0xF).moving = false ∧ (sGran j b).hpaOf ((recOf 0xF).rmap + 0) = some 0x11000 ∧
    (sGran j b).reaches 0 0x11000 = true ∧ Memory.read (sGran j b).mem 0x11000 = b ∧ 2 ^ (16 + (recOf 0xF).gran) = 0x10000 ∧ Memory.wf (sGran j b).mem = true := by
  simp only [List.mem_cons, List.not_mem_nil, or_false, Prod.mk.injEq] at h
  rcases h with ⟨rfl, rfl⟩ | ⟨rfl, rfl⟩ | ⟨rfl, rfl⟩ | ⟨rfl, rfl⟩ | ⟨rfl, rfl⟩ | ⟨rfl, rfl⟩ <;> decide +kernel

theorem witness_CopyRuns_GathersGranulesAndStages_homes (j : CopyJob) (b : Byte) : ∀ h, ((sGran j b).home h).sat = [] := fun _ => rfl

/-- Every byte of the granule has its place (R173). -/
theorem witness_CopyRuns_GathersGranulesAndStages_bytes (j : CopyJob) (b : Byte) : ∀ i < 0x10000,
    (sGran j b).hpaOf ((recOf 0xF).base + 0 * 0x10000 + i) = some (0x20000 + i) ∧ (sGran j b).reaches 0 (0x20000 + i) = true ∧ 0x20000 + i ≠ 0x11000 := by
  intro i hi
  have h1 : (0x20000 + i) / 2 ^ 16 = 2 := by omega
  have h2 : (0x20000 + i) % 2 ^ 16 = i := by omega
  have h3 : (0x20000 + i) / 2 ^ 40 % 8 = 0 := by omega
  have hb : (recOf 0xF).base + 0 * 0x10000 = 0x20000 := by decide +kernel
  have hs : (sGran j b).stage2 = [(1, 1), (2, 2)] := rfl
  have hj : (sGran j b).joined 0 0 = true := rfl
  have hd : (sGran j b).dieRuns 0 = true := rfl
  refine ⟨?_, ?_, by omega⟩
  · rw [hb]; simp only [State.hpaOf, hs, AMap.get, h1, h2]; rfl
  · simp only [State.reaches, State.dieOfAddr, h3, show dieOf 0 = 0 from rfl, hj, hd, Bool.and_self, Bool.or_true]

theorem witness_CopyRuns_GathersGranulesAndStages_gather : Req4.dk jGather.q = 0 ∧ bits (jGather.q.get 2) 15 0 = 8 ∧ bits (jGather.q.get 2) 31 16 * 8 = 8 ∧
    bits (jGather.q.get 2) 49 32 + 4 * (0 / 8) = 0x200 ∧ ofBytes ((sGran jGather 0x80).spadRead 0 (0 + 0x200) 4) = 99 ∧ (recOf 0xF).fmt ≠ 0xE ∧
    bits (jGather.q.get 0) 39 0 + 99 * (8 / fmtBytes (recOf 0xF).fmt) + 0 % 8 / fmtBytes (recOf 0xF).fmt = 99 ∧
    (reqAt ((sGran jGather 0x80).hartReq 0 (tableBase ((sGran jGather 0x80).vcore 0).ortb) 1 (recOf 0xF) 99 Rec.permR)).hpa = 0x20318 ∧
    (sGran jGather 0x80).lineBusy 6 0x20318 = false ∧ (sGran jGather 0x80).poisoned 0x20318 1 = false ∧ segBase ((sGran jGather 0x80).keptSeg 0) = 0 := by decide +kernel

/-- The gather's first byte is element 99's; RESIDENT; a fill whose generation has passed; NOT_RESIDENT; and RES cleared. -/
theorem test_granules : ran (exec (.copyChunk 0) (sGran jGather 0x80)) (fun t => t.spadRead 0 0x300 2 == [9, 0]) = true ∧
    ran (exec (.copyChunk 0) (sGran (jGran .pfch false 0 0) 0x80)) (fun t => (t.core 0).channel.map (fun x => (x.ended, x.status)) == [(true, 2)]) = true ∧
    ran (exec (.copyChunk 0) (sGran (jGran .pfch false 0 0) 3)) (fun t => (t.core 0).channel.map (fun x => (x.begun, x.ended, x.gen)) == [(true, false, 3)]) = true ∧
    ran (exec (.copyChunk 0) (sGran (jGran .pfch true 0 3) 3)) (fun t => (t.core 0).channel.map (·.done) == [4096]) = true ∧
    ran (exec (.copyChunk 0) (sGran (jGran .evct false 0 0) 3)) (fun t => (t.core 0).channel.map (fun x => (x.ended, x.status)) == [(true, 5)]) = true ∧
    ran (exec (.copyChunk 0) (sGran (jGran .evct false 0 0) 0x80)) (fun t => Memory.read t.mem 0x11000 == 1 && (t.core 0).channel.map (·.ended) == [false]) = true ∧
    ran (exec (.copyChunk 0) (sGran (jGran .evct true 0 0) 1)) (fun t => (t.core 0).channel.map (fun x => (x.ended, x.status)) == [(true, 0)]) = true := by decide +kernel

/-- An ended job whose stage descriptor is at local 0x40: four slots, SEQ 5, the tag of slot 1; and one without a descriptor. -/
def jStaged (off : Word) : CopyJob := { jobOf .cpy #v[0x200, 0x301, 2, 5 * 2 ^ 32 + off] with begun := true, done := 2, ended := true, stg := true }

def sStaged (off : Word) : State :=
  on (regs []) { channel := [jStaged off], spad := Memory.writeN [] 0x40 (toBytes 8 (4 * 2 ^ 48 + 1 * 2 ^ 32 + 0x1000) ++ toBytes 3 1 ++ toBytes 3 1) }

theorem witness_CopyRuns_GathersGranulesAndStages_stage : (sStaged 0x40).hartOwes 0 (State.chanTid 0) = false ∧ ((sStaged 0x40).vcore 0).done + 1 = (jStaged 0x40).id ∧
    (∀ i : Fin 16, ((sStaged 0x40).slotAt 0 i).pendC = none) ∧ stageN ((sStaged 0x40).spad64 0 0x40) = 4 ∧ 0 < stageSize ((sStaged 0x40).spad64 0 0x40) ∧
    bits ((sStaged 0x40).spad64 0 0x40) 63 52 = 0 ∧ bits ((sStaged 0x40).spad64 0 0x40) 31 18 = 0 ∧ ofBytes ((sStaged 0x40).spadRead 0 (0x40 + 8 + 3 * 1) 3) = 1 ∧
    stageN ((sStaged 0x80).spad64 0 0x80) = 0 ∧ segLimit ((sStaged 0x40).keptSeg 0) < bits ((jStaged (2 ^ 18 - 16)).q.get 3) 17 0 + 32 := by decide +kernel

theorem test_stage_jobs : ran (exec (.copyChunk 0) (sStaged 0x40)) (fun t => (t.core 0).channel == [] && t.spadRead 0 0x4B 3 == toBytes 3 (2 * 2 ^ 22 + 1) &&
      (t.vcore 0).history == [⟨1, 0, 0, 2⟩]) = true ∧
    ran (exec (.copyChunk 0) (sStaged 0x80)) (fun t => (t.vcore 0).history == [⟨1, 3, 1, 2⟩]) = true ∧
    ran (exec (.copyChunk 0) (sStaged (2 ^ 18 - 16))) (fun t => (t.vcore 0).history == [⟨1, 3, 4, 2⟩]) = true := by decide +kernel

/-- MBXD waits while the hart's buffer holds a write of the channel. -/
def sOwes : State :=
  (sHart [jobOf .cpy (reqOf .cpy)]).updCore (hartPos 0) fun c => { c with buffer := [⟨7, State.chanTid 0, .scratch 0 1, false⟩] }

theorem witness_CompletionAndWaiting_owes : sOwes.cur.hart = true ∧ (sOwes.core 0).channel = [jobOf .cpy (reqOf .cpy)] ∧ sOwes.hartOwes 0 (State.chanTid 0) = true ∧
    (sHart [jobOf .cpy (reqOf .cpy)]).hartOwes 0 (State.chanTid 0) = false := by decide +kernel

theorem test_mbxd_waits : ran (exec (.mbxd 1 2) sOwes) (fun t => t.cur.out == .held && (t.core 0).channel.length == 1) = true := by decide +kernel

theorem witness_PlacementAndExchange_PlacementInstructions_dies : (sPl 5 24).dieRuns (dieOf 24) = true ∧ (sPl 5 16).dieRuns (dieOf 16) = true := by decide +kernel

theorem witness_HostAccessesAndChecks_HostAccesses_dies : (obj (recOf 0xF) []).hostLands 0x20318 8 = true ∧ 0x20318 / 2 ^ 47 % 2 = 0 ∧ 0x20318 / 2 ^ 40 % 8 = 0 ∧ State.hpaOk 0x20318 = true ∧
    State.hpaOk (0x20318 + 8 - 1) = true ∧ ({ (obj (recOf 0xF) []) with dies := [(0, { power := .off })] } : State).dieRuns 0 = false := by decide +kernel

theorem test_host_write_waits : ran (exec (.hostMemoryAccess 0x20318 1 (some [7])) { (obj (recOf 0xF) []) with dies := [(0, { power := .off })] })
    (fun t => Memory.read t.mem 0x20318 == 9) = true := by decide +kernel

/-- The completion word of a task of core 0 lies in the segment of a vcore on die 1. -/
def sFillFar : State :=
  (({ on (regs []) with vcores := [(0, { place := .placed }), (4, { place := .placed, pos := 512 })] } : State).updMe fun x => { x with cpl := 2 ^ 63 + 4 * 2 ^ 24 + 0x40 })

theorem witness_TasksComeAndGo_TaskEnd_far : (match sFillFar.fillAt sFillFar.me.cpl with | .word p _ => decide (p = 512) && decide (dieOf p ≠ dieOf sFillFar.cur.pos) | _ => false) = true := by decide +kernel

theorem test_far_fill : ran (exec .tdone sFillFar) (fun t => !t.me.busy && (t.net.get 100).map (fun x => (x.load, x.dst)) == some (.fill (2 ^ 63 + 4 * 2 ^ 24 + 0x40) 0, 512)) = true := by decide +kernel

/-- A transfer that has come from die 0 to a position on die 1, where its vcore stands no more. -/
def sHopFar : State :=
  { (sRcv fwaLoad 8) with net := [(3, { load := fwaLoad, dst := 512, die := 0 })] }

theorem witness_SwathTransfersAndReplay_SwathTransfers_hops : (sHopFar.crossing 0 (dieOf 512)).map (·.1) = some [State.portTo 0 1] ∧ sHopFar.hop 1 512 ≠ .here ∧ sHopFar.hop 1 512 ≠ .wait ∧ sHopFar.hop 1 512 ≠ .exited := by decide +kernel

theorem test_transfer_hops : ran (exec (.recordedTransferArrival 3 1) sHopFar) (fun t => match t.net.get 3 with
    | some x => (match x.load with | .transfer _ _ _ _ _ _ _ _ hs _ _ => hs == [State.portTo 0 1] && x.die == 1 | _ => false)
    | none => false) = true := by decide +kernel

theorem witness_QueueRegisters_moves : { hq with head := 3 }.en = true ∧ { hq with head := 3 }.head < 2 ^ hq.clog ∧ 3 % 2 ^ hq.clog = { hq with head := 3 }.head ∧
    { hq with stalled := true, notify := [(5, !true)] }.stalled = true ∧ { hq with stalled := true, notify := [(5, !true)] }.notify = [(5, !true)] ∧
    5 < 2 ^ hq.clog ∧ 3 % 2 ^ hq.clog ≠ 0 ∧ { hq with notify := [(3, true), (0, true)] }.notify.getLast? = some (0, true) := by decide +kernel

theorem test_tail_moves : ran (exec (.tail 1 63 3 true) (sQ { hq with head := 3, tail := 5, notify := [(5, true)] } 0)) (fun t => (t.queue 127).tail == 3 && (t.queue 127).notify == []) = true ∧
    ran (exec (.tail 1 63 3 true) (sQ { hq with stalled := true, tail := 5, notify := [(5, false)] } 0)) (fun t => (t.queue 127).notify == [(3, false)]) = true ∧
    ran (exec (.tail 1 63 7 true) (sQ { hq with stalled := true, tail := 5, notify := [(5, false)] } 0)) (fun t => (t.queue 127).notify == [(5, false), (7, true)]) = true := by decide +kernel

/-- Die 3 is IDLE with a thread parked at its first core; ON lets it go on. -/
def sIdle : State :=
  { sCmd (cmd 2 8 0 0) with dies := [(3, { power := .idle })], cores := [(1536, { slots := vput (Vector.replicate 16 {}) 2 { busy := true } })] }

theorem witness_HostCommands_idle : (sIdle.die 3).power ≠ .off ∧ sIdle.dieRuns 3 = false ∧ (sCmd (cmd 2 8 0 0)).dieRuns 3 = true ∧ (∀ c ∈ sIdle.firmware, dieOf c.1 ≠ 3) := by decide +kernel

theorem test_power_on : ran (exec (.power 1 63) sIdle) (fun t => (t.slotAt 1536 2).busy && (t.slotAt 1536 2).ready == 11 && (t.slotAt 1536 3).ready == 0) = true := by decide +kernel

theorem witness_WatchdogAndReset_frec : bits State.reset.part.frec 23 0 = 0 ∧ ∀ h, (State.reset.home h).sat = [] := ⟨by decide, fun _ => rfl⟩

end Sys2Proof.Tests
end

section
/-! SUPPORT. Bits of a word and entries of a sparse table: what the laws of the model's files leave out. -/

namespace Sys2Proof

/-! ### Bits of a word -/

theorem bit_eq_getLsbD (w : Word) (n : Nat) : bit w n = w.getLsbD n := by
  rw [← BitVec.testBit_toNat, Nat.testBit_eq_decide_div_mod_eq, bit]
  rfl

/-- The value of a word with a field replaced: what is above the field, the new value, what is below. -/
theorem setBits_toNat (w : Word) {hi lo : Nat} (v : Nat) (hl : lo ≤ hi) :
    w.toNat - bits w hi lo * 2 ^ lo + v % 2 ^ (hi + 1 - lo) * 2 ^ lo =
      2 ^ lo * (2 ^ (hi + 1 - lo) * (w.toNat / 2 ^ (hi + 1)) + v % 2 ^ (hi + 1 - lo)) + w.toNat % 2 ^ lo := by
  have hpow : 2 ^ lo * 2 ^ (hi + 1 - lo) = 2 ^ (hi + 1) := by rw [← Nat.pow_add]; congr 1; omega
  have hlow := Nat.div_add_mod w.toNat (2 ^ lo)
  have hmid := Nat.div_add_mod (w.toNat / 2 ^ lo) (2 ^ (hi + 1 - lo))
  rw [Nat.div_div_eq_div_mul, hpow] at hmid
  have hw : w.toNat =
      2 ^ lo * (2 ^ (hi + 1 - lo) * (w.toNat / 2 ^ (hi + 1))) + bits w hi lo * 2 ^ lo + w.toNat % 2 ^ lo := by
    rw [bits, Nat.mul_comm (_ % _), ← Nat.mul_add, hmid, hlow]
  rw [Nat.mul_add, Nat.mul_comm (v % _)]
  omega

/-- A word with a field replaced: the field's bits are the value's, the others stay. -/
theorem getLsbD_setBits (w : Word) {hi lo : Nat} (v i : Nat) (hl : lo ≤ hi) (hh : hi < 64) :
    (setBits w hi lo v).getLsbD i = if lo ≤ i ∧ i ≤ hi then v.testBit (i - lo) else w.getLsbD i := by
  rw [setBits, setBits_toNat w v hl, ← BitVec.testBit_toNat, ← BitVec.testBit_toNat, BitVec.toNat_ofNat,
    Nat.testBit_mod_two_pow, Nat.testBit_two_pow_mul_add _ (Nat.mod_lt _ (Nat.two_pow_pos _))]
  rcases Nat.lt_or_ge i 64 with hi64 | hi64
  · simp only [hi64, decide_true, Bool.true_and]
    split
    · rename_i hlt
      simp [Nat.testBit_mod_two_pow, hlt, show ¬ lo ≤ i by omega]
    · rename_i hge
      rw [Nat.testBit_two_pow_mul_add _ (Nat.mod_lt _ (Nat.two_pow_pos _))]
      split
      · rename_i hin
        rw [Nat.testBit_mod_two_pow]
        simp [hin, show lo ≤ i ∧ i ≤ hi by omega]
      · rename_i hout
        rw [Nat.testBit_div_two_pow, show i - lo - (hi + 1 - lo) + (hi + 1) = i by omega]
        simp [show ¬ i ≤ hi by omega]
  · have hw : w.toNat < 2 ^ i := Nat.lt_of_lt_of_le w.isLt (Nat.pow_le_pow_right (by decide) (by omega))
    have : w.toNat.testBit i = false := Nat.testBit_lt_two_pow hw
    simp [this, Nat.not_lt.mpr hi64, show ¬ i ≤ hi by omega]

/-- A word with one bit replaced. -/
theorem getLsbD_setBits_one (w : Word) {n : Nat} (b : Bool) (i : Nat) (h : n < 64) :
    (setBits w n n b.toNat).getLsbD i = if i = n then b else w.getLsbD i := by
  rw [getLsbD_setBits w _ _ (Nat.le_refl _) h]
  by_cases e : i = n
  · subst e
    cases b <;> simp
  · simp [e, show ¬(n ≤ i ∧ i ≤ n) by omega]

theorem bits_lt (w : Word) (hi lo : Nat) : bits w hi lo < 2 ^ (hi + 1 - lo) := Nat.mod_lt _ (Nat.two_pow_pos _)

namespace AMap

variable {α : Type}

/-- In a rising table an entry that stands in it is read. -/
theorem get_of_mem {m : AMap α} (h : Rising m) {k : Nat} {a : α} (hx : (k, a) ∈ m) : AMap.get m k = some a := by
  induction m with
  | nil => cases hx
  | cons y t ih =>
    obtain ⟨hy, ht⟩ := List.pairwise_cons.mp h
    rcases List.mem_cons.mp hx with rfl | hx
    · simp [AMap.get]
    · simpa [AMap.get, Nat.ne_of_lt (hy _ hx)] using ih ht hx

/-- Putting an entry leaves the entries of other keys in the table. -/
theorem mem_put_of_ne {m : AMap α} {k : Nat} (a : α) {x : Nat × α} (hx : x ∈ m) (h : x.1 ≠ k) : x ∈ AMap.put m k a := by
  induction m with
  | nil => cases hx
  | cons y t ih =>
    obtain ⟨j, b⟩ := y
    simp only [AMap.put]
    split
    · exact List.mem_cons_of_mem _ hx
    · split
      · rename_i e
        rcases List.mem_cons.mp hx with rfl | hx
        · exact absurd e h
        · exact List.mem_cons_of_mem _ hx
      · rcases List.mem_cons.mp hx with rfl | hx
        · exact List.mem_cons_self
        · exact List.mem_cons_of_mem _ (ih hx)

/-- Removing several entries keeps the order of keys. -/
theorem rising_foldl_del {m : AMap α} (h : Rising m) (ks : List Nat) : Rising (ks.foldl AMap.del m) := by
  induction ks generalizing m with
  | nil => exact h
  | cons k ks ih => exact ih (rising_del h k)

theorem get_foldl_del_ne (m : AMap α) {ks : List Nat} {j : Nat} (h : j ∉ ks) : (ks.foldl AMap.del m).get j = m.get j := by
  induction ks generalizing m with
  | nil => rfl
  | cons k ks ih =>
    exact (ih _ (List.not_mem_of_not_mem_cons h)).trans (get_del_ne m (List.ne_of_not_mem_cons h))

/-- In a rising table the entries removed are gone. -/
theorem get_foldl_del {m : AMap α} (h : Rising m) {ks : List Nat} {j : Nat} (hj : j ∈ ks) :
    (ks.foldl AMap.del m).get j = none := by
  induction ks generalizing m with
  | nil => cases hj
  | cons k ks ih =>
    by_cases e : j ∈ ks
    · exact ih (rising_del h k) e
    · obtain rfl : j = k := (List.mem_cons.mp hj).resolve_right e
      exact (get_foldl_del_ne _ e).trans (get_del h j)

end AMap

end Sys2Proof
end

section
/-! SUPPORT. Threads that take a slot, leave and arrive (R27, R80, R155, R157, R280), and the statement on migration. -/

namespace Sys2Proof.Machine

/-! ### The guest and slot bits of TSW (R127) -/

theorem Tsw.getLsbD_setG (w : Word) (b : Bool) (i : Nat) :
    (Tsw.setG w b).getLsbD i = if i = 9 then b else w.getLsbD i := getLsbD_setBits_one w b i (by decide)

namespace State

variable (s : State)

/-! ### What an update of a thread map and the removal of an item leave alone -/


@[simp] theorem setMap_slotAt (i : Tid) (m : MapEntry) (q : Nat) (k : Fin 16) :
    (s.setMap i m).slotAt q k = s.slotAt q k := rfl


@[simp] theorem dropItem_slotAt (id q : Nat) (k : Fin 16) : (s.dropItem id).slotAt q k = s.slotAt q k := rfl
@[simp] theorem dropItem_mem (id : Nat) : (s.dropItem id).mem = s.mem := rfl
@[simp] theorem dropItem_net (id : Nat) : (s.dropItem id).net = s.net.del id := rfl

/-! ### Taking a slot by one's own migration or by dispatch (R80, R155, R208, R307) -/

/-- The thread that takes slot j of core p to occupy vcore v with registers of its own: the general and shadow
registers, the PC and BANKM come with it, the trap registers stay the slot's, the rest is the vcore's or begins anew. -/
def seated (p : Nat) (j : Fin 16) (ctx : Slot) (v : Nat) : Slot :=
  let old := (s.slotAt p j).regs
  let fix (r : Regs) : Regs :=
    { r with
      tsw := Tsw.setG (Tsw.setSlot r.tsw j.val) (v != ctx.tid.vc)
      tvec := (s.vcore v).tvec, lseg := s.keptSeg v, ortb := (s.vcore v).ortb }
  let here (r : Regs) : Regs :=
    { fix r with
      tepc := old.tepc, tcause := old.tcause, tval := old.tval, tscr := old.tscr, vl := 32, rmode := 0, swq := 2048 }
  { ctx with
    busy := true, regs := here ctx.regs, latch := fix ctx.latch, undo := ctx.undo.map fun u => (here u.1, u.2)
    occ := v, ready := max ctx.ready (s.time + 1), request := none, reply := none, passed := 0
    fetch := none, absent := false, want := none, fetched := [] }

theorem takeSlot_own (p : Nat) (j : Fin 16) (ctx : Slot) (v : Nat) :
    s.takeSlot p j ctx v true =
      (s.setSlot p j (s.seated p j ctx v)).setMap ctx.tid
        { s.mapEntry ctx.tid with state := if v != ctx.tid.vc then .away p j else .home j, saved := none } := rfl

@[simp] theorem takeSlot_mem (p : Nat) (j : Fin 16) (ctx : Slot) (v : Nat) (own : Bool) :
    (s.takeSlot p j ctx v own).mem = s.mem := rfl
@[simp] theorem takeSlot_net (p : Nat) (j : Fin 16) (ctx : Slot) (v : Nat) (own : Bool) :
    (s.takeSlot p j ctx v own).net = s.net := rfl

@[simp] theorem takeSlot_own_slotAt (p : Nat) (j : Fin 16) (ctx : Slot) (v : Nat) :
    (s.takeSlot p j ctx v true).slotAt p j = s.seated p j ctx v := by
  rw [takeSlot_own, setMap_slotAt, setSlot_slotAt]

/-- The guest bit says whether the thread is away from home (R127). -/
theorem seated_guest (p : Nat) (j : Fin 16) (ctx : Slot) (v : Nat) :
    (s.seated p j ctx v).regs.tsw.getLsbD 9 = decide (v ≠ ctx.tid.vc) := by
  refine (Tsw.getLsbD_setG _ _ 9).trans ?_
  rw [if_pos rfl, Bool.eq_iff_iff]
  simp

/-- Where no DUAL.ON waits for a slot, the lowest empty slot is given (R139, R341). -/
theorem reclaim_lowest {p : Nat} {j : Fin 16} (hd : dualWaits (s.core p) = false)
    (hj : lowestEmpty (s.core p) = some j) : s.reclaim p = some (j, s) := by
  simp [reclaim, hd, hj]

/-! ### A thread leaves for another vcore (R157, R259, R280, R324, R342) -/

/-- In slot 15, in supervisor mode or in a redundant pair the access traps instead. -/
theorem migrate_traps (i : Instr) (n : Nat) (l : List Word) (v : Nat) (a : Word)
    (h : s.cur.slot = 15 ∨ s.sup = true ∨ s.me.pair.isSome = true) :
    s.migrate i n l v a = s.trap .localRange a :=
  if_pos (by simpa [or_assoc] using h)

/-- Elsewhere a thread that is no helper parks until the implied release is over. -/
theorem migrate_parks (i : Instr) (n : Nat) (l : List Word) {v : Nat} (a : Word) (h15 : s.cur.slot ≠ 15)
    (hsup : s.sup = false) (hpair : s.me.pair = none) (hv : v / 2 ^ 16 = s.pkg) (hl : ∀ k, s.me.life ≠ .helper k) :
    s.migrate i n l v a =
      s.park i n l (.depart (s.covered s.cur.pos .dev) (probes s.cur.pos .dev s.me.regs.bankm) v) := by
  simp only [migrate, h15, hsup, hpair, hv]
  cases hlife : s.me.life with
  | helper k => exact absurd hlife (hl k)
  | _ => simp

/-- A C half that departs: it waits for every store of its core's buffer (R157, R195), and its registers and memory
stay. -/
theorem migrate_departs (i : Instr) {v : Nat} (a : Word) (hC : s.cur.isA = false) (h15 : s.cur.slot ≠ 15)
    (hsup : s.sup = false) (hpair : s.me.pair = none) (hv : v / 2 ^ 16 = s.pkg) (hl : ∀ k, s.me.life ≠ .helper k) :
    ∃ t es ps, s.migrate i 0 [] v a = t ∧ t.me.pendC = some ⟨i, 0, [], .depart es ps v⟩ ∧
      (∀ e ∈ (s.core s.cur.pos).buffer, e.id ∈ es) ∧ t.me.regs = s.me.regs ∧ t.mem = s.mem := by
  refine ⟨_, s.covered s.cur.pos .dev, probes s.cur.pos .dev s.me.regs.bankm,
    s.migrate_parks i 0 [] a h15 hsup hpair hv hl, ?_⟩
  rw [park_me_c _ _ _ _ _ hC]
  exact ⟨rfl, fun e he => List.mem_map_of_mem he, rfl, rfl⟩

/-! ### A thread arrives (R27, R280) -/

@[simp] theorem count_slotAt (v left q : Nat) (k : Fin 16) :
    (arriveThread.count v left s).slotAt q k = s.slotAt q k := by
  unfold arriveThread.count
  split <;> rfl

@[simp] theorem count_mem (v left : Nat) : (arriveThread.count v left s).mem = s.mem := by
  unfold arriveThread.count
  split <;> rfl

@[simp] theorem count_net (v left : Nat) : (arriveThread.count v left s).net = s.net := by
  unfold arriveThread.count
  split <;> rfl

/-- With no guest before it, at a core that no exchange holds, the thread takes the lowest empty slot. -/
theorem arriveThread_takes (id : Nat) (ctx : Slot) (v left : Nat) {p : Nat} {j : Fin 16}
    (hg : (s.core p).guests = []) (hf : s.frozen p = false) (hd : dualWaits (s.core p) = false)
    (hj : lowestEmpty (s.core p) = some j) :
    s.arriveThread id ctx v left p = (arriveThread.count v left (s.takeSlot p j ctx v true)).dropItem id := by
  simp [arriveThread, hg, hf, s.reclaim_lowest hd hj]

/-- An event queued for a thread that has none, and of which no half waits: the thread has this event alone (R333). -/
theorem withEvent_first (now : Nat) (c : Cause) (w : Word) {x : Slot} (he : x.events = []) (hC : x.pendC = none) :
    withEvent now c w x = { x with events := [⟨c, w⟩] } := by
  simp [withEvent, he, hC]

end State

/-! ### MIGR and HOME (R280) -/

/-- MIGR by the vcore that its operand names. -/
theorem exec_migr (ra : Reg) (s : State) : exec (.migr ra) s = .next
    (if bits (s.g ra) 63 36 ≠ 0 then s.trap .illegal (s.g ra)
     else if bits (s.g ra) 35 0 / 2 ^ 16 ≠ s.pkg then s.trap .undeliverable (s.g ra)
     else if bits (s.g ra) 35 0 = s.me.occ then s
     else s.migrate (.migr ra) 0 [] (bits (s.g ra) 35 0) (s.g ra)) := rfl

theorem exec_home (s : State) : exec .home s = .next
    (if s.me.occ = s.me.tid.vc then s
     else s.migrate .home 0 [] s.me.tid.vc (BitVec.ofNat 64 s.me.tid.vc)) := rfl

/-- MIGRATION_ARRIVAL of a thread at the core that holds the vcore it goes to. -/
theorem exec_migrationArrival_here {s : State} {id : Nat} {x : Item} {ctx : Slot} {v l : Nat}
    (hx : s.net.get id = some x) (hl : x.load = .thread ctx v l) (ht : s.travels x = true)
    (hh : s.hop v x.dst = .here) :
    exec (.migrationArrival id) s = .next (s.arriveThread id ctx v l x.dst) := by
  simp [exec, execMigrationArrival, hx, hl, ht, hh]

/-- MIGRATION_FAILURE of a thread whose target has exited: it turns to its home (R282). -/
theorem exec_migrationFailure_exited {s : State} {id : Nat} {x : Item} {ctx : Slot} {v l : Nat}
    (hx : s.net.get id = some x) (hl : x.load = .thread ctx v l) (ht : s.travels x = true)
    (hh : s.hop v x.dst = .exited) (hv : v ≠ ctx.tid.vc) :
    exec (.migrationFailure id) s = .next
      (s.become id x
        (.thread (State.withEvent s.time .undeliverable (BitVec.ofNat 64 v) { ctx with pendA := none, pendC := none })
          ctx.tid.vc l) (s.posOf ctx.tid.vc)) := by
  simp [exec, execMigrationFailure, hx, hl, ht, hh, hv]

/-- Settles O29: MIGR and HOME by the branches of their meaning, arrival by the slot that the thread takes, failure by
the item that goes home. -/
theorem migration : Obligations.Migration := by
  unfold Obligations.Migration
  refine ⟨fun s ra v hv hC => ?_, fun s id x ctx v l j hx hl ht => ⟨fun hh hg hf hd hj => ?_, fun hh hne he => ?_⟩⟩
  · subst hv
    simp only [exec_migr, exec_home]
    refine ⟨fun h => by rw [if_pos h], fun h => ?_, fun h => by rw [if_pos h], fun hocc => ?_⟩
    · rw [if_neg (not_not_intro h)]
      refine ⟨fun hp => by rw [if_pos hp], fun hp => ?_⟩
      rw [if_neg (not_not_intro hp)]
      refine ⟨fun ho => by rw [if_pos ho], fun ho => ?_⟩
      rw [if_neg ho]
      refine ⟨fun hw => by rw [s.migrate_traps _ _ _ _ _ hw], fun h15 hsup hpair hlife => ?_⟩
      obtain ⟨t, es, ps, hm, ht⟩ := s.migrate_departs (.migr ra) (s.g ra) hC h15 hsup hpair hp hlife
      exact ⟨t, es, ps, by rw [hm], ht⟩
    · rw [if_neg hocc]
      refine ⟨fun hw => by rw [s.migrate_traps _ _ _ _ _ hw], fun hp h15 hsup hpair hlife => ?_⟩
      obtain ⟨t, es, ps, hm, ht⟩ := s.migrate_departs .home (BitVec.ofNat 64 s.me.tid.vc) hC h15 hsup hpair hp hlife
      exact ⟨t, es, ps, by rw [hm], ht⟩
  · refine ⟨_, exec_migrationArrival_here hx hl ht hh, ?_⟩
    rw [s.arriveThread_takes id ctx v l hg hf hd hj]
    simp only [State.dropItem_slotAt, State.count_slotAt, State.takeSlot_own_slotAt, State.seated_guest]
    simp [State.seated]
  · refine ⟨_, _, _, exec_migrationFailure_exited hx hl ht hh hne, AMap.get_put _ _ _, rfl, ?_⟩
    rw [State.withEvent_first s.time .undeliverable _ (x := { ctx with pendA := none, pendC := none }) he rfl]
    exact ⟨rfl, rfl, rfl, rfl, rfl⟩

end Sys2Proof.Machine
end

section
/-! SUPPORT. What entry to the handler makes of a thread, and asynchronous events (R332, R333). -/

namespace Sys2Proof.Machine

/-! ### Trap entry (R332) -/

theorem Cause.code_lt (c : Cause) : c.code < 2 ^ 7 := by cases c <;> decide

theorem Tsw.s_eq (w : Word) : Tsw.s w = w.getLsbD 4 := bit_eq_getLsbD w 4

/-- Trap entry sets S, and PS to what S was; the other status bits stay (R332). -/
theorem Regs.enter_tsw_getLsbD (r : Regs) (c : Cause) (async lost : Bool) (epc : BitVec 38) (tval : Word) (i : Nat) :
    (r.enter c async lost epc tval).tsw.getLsbD i =
      if i = 4 then true else if i = 5 then r.tsw.getLsbD 4 else r.tsw.getLsbD i := by
  simp only [Regs.enter, Tsw.setS, Tsw.setPs, Tsw.s_eq]
  rw [getLsbD_setBits_one _ _ _ (by decide), getLsbD_setBits_one _ _ _ (by decide)]

theorem Regs.enter_tepc_toNat (r : Regs) (c : Cause) (async lost : Bool) (epc : BitVec 38) (tval : Word) :
    (r.enter c async lost epc tval).tepc.toNat = epc.toNat := by
  simp only [Regs.enter, BitVec.toNat_setWidth]
  omega

theorem Regs.enter_tcause_toNat (r : Regs) (c : Cause) (async lost : Bool) (epc : BitVec 38) (tval : Word) :
    (r.enter c async lost epc tval).tcause.toNat = lost.toNat * 2 ^ 8 + async.toNat * 2 ^ 7 + c.code := by
  have := c.code_lt
  have := lost.toNat_lt
  have := async.toNat_lt
  simp only [Regs.enter, BitVec.toNat_ofNat]
  omega

theorem Regs.enter_pc_toNat (r : Regs) (c : Cause) (async lost : Bool) (epc : BitVec 38) (tval : Word) :
    (r.enter c async lost epc tval).pc.toNat = bits r.tvec 37 0 := by
  simp only [Regs.enter, BitVec.toNat_ofNat]
  exact Nat.mod_eq_of_lt (bits_lt _ _ _)

namespace State

variable (s : State)

/-! ### Fetching does not depend on what the cores hold (R331) -/

/-- The state with other cores. -/
def withCores (cs : AMap Core) : State := { s with cores := cs }

theorem updSlot_eq_withCores (p : Nat) (j : Fin 16) (f : Slot → Slot) :
    s.updSlot p j f = s.withCores (s.updSlot p j f).cores := rfl

theorem closeSatAt_withCores (cs : AMap Core) (h a n : Nat) :
    (s.withCores cs).closeSatAt h a n = (s.closeSatAt h a n).withCores cs := by
  simp only [closeSatAt]
  rw [show (s.withCores cs).home h = s.home h from rfl]
  split
  · rfl
  · symm -- the right side tells `foldl_hom` the fold it starts from
    exact (List.foldl_hom (withCores · cs) fun _ _ => rfl).symm

theorem closeSat_withCores (cs : AMap Core) (a n : Nat) :
    (s.withCores cs).closeSat a n = (s.closeSat a n).withCores cs :=
  List.foldl_hom (withCores · cs) fun t _ => closeSatAt_withCores t cs _ _ _

theorem memSeen_withCores (cs : AMap Core) (a n : Nat) : (s.withCores cs).memSeen a n = s.memSeen a n := by
  rw [memSeen, closeSat_withCores]
  rfl

theorem recordAt_withCores (cs : AMap Core) (tb obj : Nat) :
    (s.withCores cs).recordAt tb obj = s.recordAt tb obj := by
  simp only [recordAt, memSeen_withCores]
  rfl

theorem resident_withCores (cs : AMap Core) (r : Rec) (j : Nat) :
    (s.withCores cs).resident r j = s.resident r j := by
  simp only [resident, rmapByte, memSeen_withCores]
  rfl

theorem fetchAt_withCores (cs : AMap Core) (pc : BitVec 38) : (s.withCores cs).fetchAt pc = s.fetchAt pc := by
  simp only [fetchAt, recordAt_withCores, resident_withCores]
  rfl

theorem fetchAt_updSlot (p : Nat) (j : Fin 16) (f : Slot → Slot) (pc : BitVec 38) :
    (s.updSlot p j f).fetchAt pc = s.fetchAt pc := by
  rw [updSlot_eq_withCores, fetchAt_withCores]

/-! ### Asynchronous entry (R332, R333) -/

theorem updSlot_core_ne {p q : Nat} (j : Fin 16) (f : Slot → Slot) (h : q ≠ p) :
    (s.updSlot p j f).core q = s.core q := updCore_core_ne s _ h

theorem updSlot_buffer (p q : Nat) (j : Fin 16) (f : Slot → Slot) :
    ((s.updSlot p j f).core q).buffer = (s.core q).buffer := by
  rw [updSlot_core]

/-- A thread that is no helper and whose handler can be fetched enters it for an asynchronous event. -/
theorem enterTrap_async {p : Nat} {j : Fin 16} (c : Cause) (epc : BitVec 38) (w : Word)
    (hl : (s.slotAt p j).life = .task ∨ (s.slotAt p j).life = .movement)
    (hf : ∀ d, s.fetchAt (BitVec.ofNat 38 (bits (s.slotAt p j).regs.tvec 37 0)) ≠ .fault d) :
    s.enterTrap p j c true epc w = s.updSlot p j fun x =>
      { x with
        regs := (s.slotAt p j).regs.enter c true (x.lost) epc w, bounce := (s.slotAt p j).bounce, lost := false
        undo := none, ready := max x.ready (s.time + 1) } := by
  have hk : entryRegs (s.slotAt p j) (s.keepsRegs c true) = ((s.slotAt p j).regs, (s.slotAt p j).bounce) := by
    simp [keepsRegs, entryRegs]
  rcases hl with hl | hl <;> simp [enterTrap, hl, hk]

/-- What the oldest event makes of the thread that takes it. -/
def eventTaken (now : Nat) (e : AsyncEv) (rest : List AsyncEv) (epc : BitVec 38) (x : Slot) : Slot :=
  { x with
    events := rest, regs := x.regs.enter e.cause true x.lost epc e.tval, lost := false, undo := none
    ready := max x.ready (now + 1) }

theorem eventTaken_tcause (now : Nat) (e : AsyncEv) (rest : List AsyncEv) (epc : BitVec 38) (x : Slot) :
    (eventTaken now e rest epc x).regs.tcause.toNat = (if x.lost then 2 ^ 8 else 0) + 2 ^ 7 + e.cause.code := by
  refine (Regs.enter_tcause_toNat _ _ _ _ _ _).trans ?_
  cases x.lost <;> rfl

theorem eventTaken_tsw (now : Nat) (e : AsyncEv) (rest : List AsyncEv) (epc : BitVec 38) (x : Slot) (i : Nat) :
    (eventTaken now e rest epc x).regs.tsw.getLsbD i =
      if i = 4 then true else if i = 5 then x.regs.tsw.getLsbD 4 else x.regs.tsw.getLsbD i :=
  Regs.enter_tsw_getLsbD _ _ _ _ _ _ i

section

variable {p : Nat} {j : Fin 16} {e : AsyncEv} {rest : List AsyncEv} (epc : BitVec 38)
  (he : (s.slotAt p j).events = e :: rest) (hl : (s.slotAt p j).life = .task ∨ (s.slotAt p j).life = .movement)
  (hf : ∀ d, s.fetchAt (BitVec.ofNat 38 (bits (s.slotAt p j).regs.tvec 37 0)) ≠ .fault d)

include he hl hf

/-- Taking the oldest event rewrites the slot alone. -/
theorem takeEvent_updates : ∃ f g : Slot → Slot, s.takeEvent p j epc = (s.updSlot p j f).updSlot p j g ∧
    g (f (s.slotAt p j)) = eventTaken s.time e rest epc (s.slotAt p j) := by
  simp only [takeEvent, he]
  refine ⟨_, _, enterTrap_async _ e.cause epc e.tval (by simpa using hl) (by simpa [fetchAt_updSlot] using hf), ?_⟩
  simp [eventTaken]

theorem takeEvent_slotAt : (s.takeEvent p j epc).slotAt p j = eventTaken s.time e rest epc (s.slotAt p j) := by
  obtain ⟨f, g, ht, hg⟩ := s.takeEvent_updates epc he hl hf
  rw [ht, updSlot_slotAt, updSlot_slotAt, hg]

theorem takeEvent_slotAt_ne {k : Fin 16} (h : k ≠ j) : (s.takeEvent p j epc).slotAt p k = s.slotAt p k := by
  obtain ⟨f, g, ht, -⟩ := s.takeEvent_updates epc he hl hf
  rw [ht, updSlot_slotAt_ne _ _ (.inr h), updSlot_slotAt_ne _ _ (.inr h)]

theorem takeEvent_core_ne {q : Nat} (h : q ≠ p) : (s.takeEvent p j epc).core q = s.core q := by
  obtain ⟨f, g, ht, -⟩ := s.takeEvent_updates epc he hl hf
  rw [ht, updSlot_core_ne _ _ _ h, updSlot_core_ne _ _ _ h]

theorem takeEvent_buffer : ((s.takeEvent p j epc).core p).buffer = (s.core p).buffer := by
  obtain ⟨f, g, ht, -⟩ := s.takeEvent_updates epc he hl hf
  rw [ht, updSlot_buffer, updSlot_buffer]

theorem takeEvent_mem : (s.takeEvent p j epc).mem = s.mem := by
  obtain ⟨f, g, ht, -⟩ := s.takeEvent_updates epc he hl hf
  rw [ht, updSlot_mem, updSlot_mem]

end

/-- When a thread takes its oldest event (R333): it is no helper or trailing copy, S is 0, nothing of it is outstanding,
and no bundle that has left the rotation is to issue again. -/
theorem asyncReady_iff (p : Nat) (j : Fin 16) : s.asyncReady p j = true ↔
    (s.slotAt p j).busy = true ∧ (s.slotAt p j).events ≠ [] ∧ (s.slotAt p j).regs.tsw.getLsbD 4 = false ∧
      (s.slotAt p j).pendC = none ∧ (s.slotAt p j).pendA = none ∧ (s.slotAt p j).quiet = false ∧
      (s.slotAt p j).ahead = 0 ∧ (s.slotAt p j).stalled = none ∧ (s.slotAt p j).fetched = [] ∧
      ((s.slotAt p j).life = .task ∨ (s.slotAt p j).life = .movement) := by
  simp only [asyncReady, Tsw.s_eq]
  cases (s.slotAt p j).life <;> simp [and_assoc]

/-- In supervisor mode, without an event, or before a bundle that is to issue again, none is taken. -/
theorem asyncReady_eq_false {p : Nat} {j : Fin 16} (h : (s.slotAt p j).regs.tsw.getLsbD 4 = true ∨
    (s.slotAt p j).events = [] ∨ (s.slotAt p j).stalled ≠ none) : s.asyncReady p j = false := by
  refine Bool.eq_false_iff.mpr fun hr => ?_
  obtain ⟨-, he, hs, -, -, -, -, hst, -⟩ := (s.asyncReady_iff p j).mp hr
  rcases h with h | h | h
  · cases hs.symm.trans h
  · exact he h
  · exact h hst

end State

theorem exec_asyncEventEntry_not {s : State} {p : Nat} {j : Fin 16} (h : s.asyncReady p j = false) :
    exec (.asyncEventEntry p j.val) s = .next s := by
  simp [exec, execAsyncEventEntry, h]

/-- ASYNC_EVENT_ENTRY of a thread that is no redundant pair's. -/
theorem exec_asyncEventEntry_takes {s : State} {p : Nat} {j : Fin 16} (h : s.asyncReady p j = true)
    (hp : (s.slotAt p j).pair = none) :
    exec (.asyncEventEntry p j.val) s = .next (s.takeEvent p j (s.slotAt p j).regs.pc) := by
  simp [exec, execAsyncEventEntry, h, hp]

end Sys2Proof.Machine
end

section
/-! SUPPORT. Sealed cores, what becomes of their vcores, spare clusters, and tasks that end without TDONE
(R24, R25, R336-R338). -/

namespace Sys2Proof.Machine

namespace State

variable (s : State)

/-! ### Sealing a core (R337) -/

/-- With no exchange under way, none is dropped. -/
theorem dropExchanges_none (p : Nat) (he : s.exchanges = []) : s.dropExchanges p = s := by
  simp [dropExchanges, he]

theorem addFwd_core_ne {p q : Nat} (f : Fwd) (h : q ≠ p) : (s.addFwd p f).core q = s.core q := updCore_core_ne s _ h

/-- A new forwarding entry changes the table of its core alone. -/
theorem addFwd_core_self (p : Nat) (f : Fwd) :
    (s.addFwd p f).core p = { s.core p with fwd := ((s.addFwd p f).core p).fwd } := by
  simp only [addFwd, updCore_core_self]

theorem mem_addFwd (p : Nat) (f : Fwd) : f ∈ ((s.addFwd p f).core p).fwd := by
  simp [addFwd]

@[simp] theorem addFwd_vcore (p v : Nat) (f : Fwd) : (s.addFwd p f).vcore v = s.vcore v := rfl
@[simp] theorem addFwd_mem (p : Nat) (f : Fwd) : (s.addFwd p f).mem = s.mem := rfl
@[simp] theorem addFwd_notified (p : Nat) (f : Fwd) : (s.addFwd p f).notified = s.notified := rfl

/-- A core that is stopped: nothing buffered, queued or streamed; its threads stay in their slots. -/
def stopped (c : Core) : Core :=
  { c with
    buffer := [], vector := [], jobs := [], moves := [], channel := c.channel.map sealedJob, strA := [], strB := []
    resA := 0, resB := 0, rotA := c.rotA.map fun x => ({ x.1 with poison := true }, x.2)
    rotB := c.rotB.map fun x => ({ x.1 with poison := true }, x.2), leaf := {}, lvq := none }

theorem stopCore_core (p q : Nat) : (s.stopCore p).core q = (s.updCore p stopped).core q := rfl

/-- The vcores of a sealed core are locked, and what comes for them is held at forwarding entries. -/
def holdVcores (p : Nat) (vs : List Nat) : State :=
  vs.foldl (fun t v =>
    (t.updVcore v fun x => { x with lock := true }).addFwd p { vc := v, pos := p, hold := true, lapses := 0 }) s

theorem holdVcores_core_self (p : Nat) (vs : List Nat) :
    (s.holdVcores p vs).core p = { s.core p with fwd := ((s.holdVcores p vs).core p).fwd } := by
  induction vs generalizing s with
  | nil => rfl
  | cons v vs ih =>
    refine (ih _).trans ?_
    rw [addFwd_core_self]
    rfl

theorem holdVcores_core_ne {p q : Nat} (vs : List Nat) (h : q ≠ p) : (s.holdVcores p vs).core q = s.core q := by
  induction vs generalizing s with
  | nil => rfl
  | cons v vs ih => exact (ih _).trans (addFwd_core_ne _ _ h)

theorem holdVcores_mem (p : Nat) (vs : List Nat) : (s.holdVcores p vs).mem = s.mem := by
  induction vs generalizing s with
  | nil => rfl
  | cons v vs ih => exact ih _

theorem sealCore_sealed {p : Nat} (h : (s.core p).sealed = true) : s.sealCore p = s := if_pos h

section

variable {p : Nat} (hs : (s.core p).sealed = false) (he : s.exchanges = [])

include hs he

/-- Sealing a core that no exchange involves: it stops, its vcores are held, a supervisor core is notified. -/
theorem sealCore_eq : s.sealCore p =
    let u := ((s.stopCore p).updCore p fun c => { c with sealed := true }).holdVcores p (s.vcoresAt p)
    { u with notified := insertNat u.notified p } := by
  simp only [sealCore, hs, dropExchanges_none s p he]
  rfl

theorem sealCore_core_self : (s.sealCore p).core p =
    { stopped (s.core p) with sealed := true, fwd := ((s.sealCore p).core p).fwd } := by
  rw [s.sealCore_eq hs he]
  refine (holdVcores_core_self _ p _).trans ?_
  rw [updCore_core_self, stopCore_core, updCore_core_self]
  rfl

theorem sealCore_core_ne {q : Nat} (h : q ≠ p) : (s.sealCore p).core q = s.core q := by
  rw [s.sealCore_eq hs he]
  refine (holdVcores_core_ne _ _ h).trans ?_
  rw [updCore_core_ne _ _ h, stopCore_core, updCore_core_ne _ _ h]

theorem sealCore_mem : (s.sealCore p).mem = s.mem := by
  rw [s.sealCore_eq hs he]
  exact holdVcores_mem _ p _

theorem mem_sealCore_notified : p ∈ (s.sealCore p).notified := by
  rw [s.sealCore_eq hs he]
  exact (mem_insertNat _ _ _).mpr (.inl rfl)

/-- The one vcore of a core that is sealed is locked, and keeps all else. -/
theorem sealCore_vcore {v : Nat} (hv : s.vcoresAt p = [v]) :
    (s.sealCore p).vcore v = { s.vcore v with lock := true } := by
  rw [s.sealCore_eq hs he, hv]
  exact updVcore_vcore_self ((s.stopCore p).updCore p fun c => { c with sealed := true }) v fun x =>
    { x with lock := true }

theorem mem_sealCore_fwd {v : Nat} (hv : s.vcoresAt p = [v]) :
    { vc := v, pos := p, hold := true, lapses := 0 } ∈ ((s.sealCore p).core p).fwd := by
  rw [s.sealCore_eq hs he, hv]
  exact mem_addFwd _ p _

end

/-! ### A thread leaves its slot for good (R122, R152, R257, R336) -/

@[simp] theorem setMap_mapEntry (i : Tid) (m : MapEntry) : (s.setMap i m).mapEntry i = m := by
  simp [mapEntry, setMap, vput_get]

/-- A thread without helpers ends none. -/
theorem endHelpers_core {p : Nat} {j : Fin 16} (h : ∀ k, (s.slotAt p k).life ≠ .helper j) (q : Nat) :
    (s.endHelpers p j).core q = s.core q := by
  by_cases e : q = p
  · subst e
    have hs : (s.core q).slots.map (fun x => if x.busy && x.life == .helper j then vacated x else x) =
        (s.core q).slots := by
      refine Vector.ext fun i hi => ?_
      have : (s.core q).slots[i].life ≠ .helper j := h ⟨i, hi⟩
      simp [this]
    rw [endHelpers, updCore_core_self, hs]
  · exact updCore_core_ne s _ e

/-- With no guest queued, none takes a slot. -/
theorem guestSettle_none {p : Nat} (h : (s.core p).guests = []) : s.guestSettle p = s := by
  simp [guestSettle, guestLoop, h]

/-- With no enabled queue of the partition, a task's end is reported to none. -/
theorem reportTask_none (code vc : Nat) (h : s.partQueues = []) :
    s.reportTask code vc = { s with tick := s.tick + 1 } := by
  have : s.freeWord.2.partQueues = [] := h
  simp only [reportTask, reportPart, this, List.foldl_nil]
  rfl

/-- The state when a thread that has no helper and no trailing copy has ended at a core without guests: its slot is
vacated, its map entry is NONE, its packet is no longer live (R336). -/
def taskGone (p : Nat) (j : Fin 16) : State :=
  let x := s.slotAt p j
  (((s.endHelpers p j).updSlot p j vacated).setMap x.tid { s.mapEntry x.tid with state := .none, saved := none }).updPart
    fun q => { q with live := q.live.del x.pid }

theorem endTask_alone {p : Nat} {j : Fin 16} (code : Nat) (hp : (s.slotAt p j).pair = none) (hg : (s.core p).guests = [])
    (hq : s.partQueues = []) : s.endTask p j code = { s.taskGone p j with tick := s.tick + 1 } := by
  have hl : s.leaveSlot p j = (s.endHelpers p j).updSlot p j vacated := by
    refine guestSettle_none _ ?_
    rw [updSlot_core]
    simpa [endHelpers] using hg
  have hr : (s.taskGone p j).partQueues = [] := hq
  simp only [endTask, hp, hl]
  exact (s.taskGone p j).reportTask_none code _ hr

section

variable {p : Nat} {j : Fin 16} (hh : ∀ k, (s.slotAt p k).life ≠ .helper j)

include hh

theorem taskGone_slotAt : (s.taskGone p j).slotAt p j = vacated (s.slotAt p j) := by
  refine (updSlot_slotAt (s.endHelpers p j) p j vacated).trans ?_
  rw [slotAt, s.endHelpers_core hh, slotAt]

theorem taskGone_slotAt_ne {q : Nat} {k : Fin 16} (h : q ≠ p ∨ k ≠ j) : (s.taskGone p j).slotAt q k = s.slotAt q k := by
  refine (updSlot_slotAt_ne (s.endHelpers p j) vacated h).trans ?_
  rw [slotAt, s.endHelpers_core hh, slotAt]

theorem taskGone_core : ((s.taskGone p j).core p) = { s.core p with slots := ((s.taskGone p j).core p).slots } := by
  refine (updSlot_core (s.endHelpers p j) p p j vacated).trans ?_
  rw [s.endHelpers_core hh]
  rfl

end

end State

theorem exec_uncorrectableError {s : State} {p : Nat} (hp : p < 4096) (hr : torusOf p ∉ (s.die (dieOf p)).retired) :
    exec (.uncorrectableError p) s = .next (s.sealCore p) := by
  simp [exec, execUncorrectableError, hp, hr]

theorem exec_uncorrectableError_sealed {s : State} {p : Nat} (h : (s.core p).sealed = true) :
    exec (.uncorrectableError p) s = .next s := by
  simp [exec, execUncorrectableError, s.sealCore_sealed h]

/-- TASK_END with code 1 of a thread that waits for no granule (R336). -/
theorem exec_taskEnd_not_waiting {s : State} {p : Nat} {j : Fin 16} (h : s.waitsResidency (s.slotAt p j) = false) :
    exec (.taskEnd p j.val 1) s = .next s := by
  simp [exec, execTaskEnd, h]

/-- TASK_END with code 1 of a task that waits for a granule (R336). -/
theorem exec_taskEnd_waiting {s : State} {p : Nat} {j : Fin 16} (hb : (s.slotAt p j).busy = true)
    (hl : (s.slotAt p j).life = .task) (h : s.waitsResidency (s.slotAt p j) = true) :
    exec (.taskEnd p j.val 1) s = .next (s.endTask p j 1) := by
  simp [exec, execTaskEnd, hb, hl, h]

/-! ### Spare clusters (R24, R25) -/

/-- The positions of a cluster's cores (R18). -/
def clusterCores (k : Nat) : List Nat := (List.range 8).map fun i => 8 * k + i

theorem mem_clusterCores (k q : Nat) : q ∈ clusterCores k ↔ q / 8 = k := by
  simp only [clusterCores, List.mem_map, List.mem_range]
  exact ⟨fun ⟨i, hi, e⟩ => by omega, fun e => ⟨q % 8, by omega, by omega⟩⟩

theorem any_clusterCores {k : Nat} {f : Nat → Bool} :
    (clusterCores k).any f = true ↔ ∃ i < 8, f (8 * k + i) = true := by simp [clusterCores]

theorem all_clusterCores {k : Nat} {f : Nat → Bool} :
    (clusterCores k).all f = true ↔ ∀ i < 8, f (8 * k + i) = true := by simp [clusterCores]

namespace State

variable (s : State)

/-- With no exchange under way, no core stands still for one (R288). -/
theorem frozen_none (p : Nat) (h : s.exchanges = []) : s.frozen p = false := by
  simp [frozen, h]

/-- The state of a cluster's cores, its copy hart and its own state are a fresh cluster's (R24). -/
def freshCluster (k : Nat) : State :=
  { s with
    cores := AMap.del ((clusterCores k).foldl AMap.del s.cores) (hartPos k)
    clusters := s.clusters.del k }

theorem freshCluster_core {k q : Nat} (h : AMap.Rising s.cores) (hq : q / 8 = k) : (s.freshCluster k).core q = {} := by
  simp only [core, freshCluster]
  by_cases e : q = hartPos k
  · rw [e, AMap.get_del (AMap.rising_foldl_del h _), Option.getD_none]
  · rw [AMap.get_del_ne _ e, AMap.get_foldl_del h ((mem_clusterCores k q).mpr hq), Option.getD_none]

theorem freshCluster_core_ne {k q : Nat} (hq : q / 8 ≠ k) (hh : q ≠ hartPos k) :
    (s.freshCluster k).core q = s.core q := by
  simp only [core, freshCluster]
  rw [AMap.get_del_ne _ hh, AMap.get_foldl_del_ne _ fun h => hq ((mem_clusterCores k q).mp h)]

theorem freshCluster_cluster {k : Nat} (h : AMap.Rising s.clusters) : (s.freshCluster k).cluster k = {} :=
  congrArg (·.getD {}) (AMap.get_del h k)

end State

/-- SPARE_CLUSTER_STEERING of a cluster of the package (R24, R25): a retired one's position goes to the spare; one with a
sealed core, no vcore and no exchange is retired while a spare is left for it; any other stays. -/
theorem exec_spareClusterSteering {s : State} {d c : Nat} (hd : d < 8) (hc : c < 64) :
    exec (.spareClusterSteering d c) s = .next
      (if c ∈ (s.die d).retired then
        (s.freshCluster (64 * d + c)).updDie d fun x =>
          { x with spares := x.spares + 1, retired := x.retired.filter fun y => y != c }
      else if (s.die d).spares + (s.die d).retired.length < 4 ∧
          (clusterCores (64 * d + c)).any (fun p => (s.core p).sealed) = true ∧
          (clusterCores (64 * d + c)).all (fun p => (s.vcoresAt p).isEmpty && !s.frozen p) = true then
        ({ s with notified := s.notified.filter fun p => !(clusterCores (64 * d + c)).contains p } : State).updDie d
          fun x => { x with retired := insertNat x.retired c }
      else s) := by
  have hg : (decide (8 ≤ d) || decide (64 ≤ c)) = false := by simpa using ⟨hd, hc⟩
  have hf : (clusterCores (64 * d + c)).foldl (fun t p => { t with cores := t.cores.del p }) s =
      s.withCores ((clusterCores (64 * d + c)).foldl AMap.del s.cores) :=
    List.foldl_hom s.withCores fun _ _ => rfl
  simp only [exec, execSpareClusterSteering, hg]
  rw [show (List.range 8).map (fun i => 8 * (64 * d + c) + i) = clusterCores (64 * d + c) from rfl, hf]
  simp only [Bool.false_eq_true, if_false, Bool.and_eq_true, decide_eq_true_eq, and_assoc, List.contains_iff_mem]
  rfl

section

variable {s : State} {d c : Nat} (hd : d < 8) (hc : c < 64)

include hd hc

theorem exec_spareClusterSteering_retired (hr : c ∈ (s.die d).retired) :
    exec (.spareClusterSteering d c) s = .next ((s.freshCluster (64 * d + c)).updDie d fun x =>
      { x with spares := x.spares + 1, retired := x.retired.filter fun y => y != c }) := by
  rw [exec_spareClusterSteering hd hc, if_pos hr]

variable (hr : c ∉ (s.die d).retired)

include hr

theorem exec_spareClusterSteering_stays (h : (∀ i < 8, (s.core (8 * (64 * d + c) + i)).sealed = false) ∨
    (∃ i < 8, s.vcoresAt (8 * (64 * d + c) + i) ≠ []) ∨ 4 ≤ (s.die d).spares + (s.die d).retired.length) :
    exec (.spareClusterSteering d c) s = .next s := by
  rw [exec_spareClusterSteering hd hc, if_neg hr, if_neg]
  rintro ⟨hl, hs, hv⟩
  obtain ⟨i, hi, hsi⟩ := any_clusterCores.mp hs
  rcases h with h | ⟨i, hi, h⟩ | h
  · simp [h i hi] at hsi
  · simpa [h] using all_clusterCores.mp hv i hi
  · omega

theorem exec_spareClusterSteering_retires (hs : ∃ i < 8, (s.core (8 * (64 * d + c) + i)).sealed = true)
    (hv : ∀ i < 8, s.vcoresAt (8 * (64 * d + c) + i) = []) (he : s.exchanges = [])
    (hl : (s.die d).spares + (s.die d).retired.length < 4) :
    exec (.spareClusterSteering d c) s = .next
      (({ s with notified := s.notified.filter fun p => !(clusterCores (64 * d + c)).contains p } : State).updDie d
        fun x => { x with retired := insertNat x.retired c }) := by
  rw [exec_spareClusterSteering hd hc, if_neg hr,
    if_pos ⟨hl, any_clusterCores.mpr hs, all_clusterCores.mpr fun i hi => by simp [hv i hi, s.frozen_none _ he]⟩]

end

namespace State

variable (s : State)

/-! ### Restarting what ran on a sealed core (R338) -/

/-- With no guest queued anywhere, removing no thread changes nothing. -/
theorem removeThreads_nil (hg : ∀ c ∈ s.cores, c.2.guests = []) : s.removeThreads [] = s := by
  have h1 : s.threads.foldl (fun t pj =>
      let x := t.slotAt pj.1 pj.2
      if x.busy && ([] : List Tid).contains x.tid then t.updSlot pj.1 pj.2 vacated else t) s = s :=
    List.foldlRecOn s.threads _ (motive := (· = s)) rfl fun t ht pj _ => by simp [ht]
  have h2 : s.cores.foldl (fun t c => if c.2.guests.isEmpty then t else t.guestSettle c.1) s = s :=
    List.foldlRecOn s.cores _ (motive := (· = s)) rfl fun t ht c hc => by simp [hg c hc, ht]
  have hf (l : List Slot) : (l.filter fun x => !([] : List Tid).contains x.tid) = l :=
    List.filter_eq_self.mpr fun _ _ => rfl
  have hc : s.cores.map (fun c =>
      (c.1, { c.2 with guests := c.2.guests.filter fun x => !([] : List Tid).contains x.tid })) = s.cores :=
    List.map_id'' (fun c => by simp only [hf]) _
  simp only [removeThreads, h1, List.foldl_nil, hc]
  rw [List.filter_eq_self (l := s.net) |>.mpr, List.filter_eq_self (l := s.part.queue) |>.mpr]
  · exact h2
  · intro q _
    split <;> simp
  · intro n _
    split <;> simp

/-- The free cores of the package. -/
theorem mem_allFree (n : Nat) : n ∈ (List.range 8).flatMap s.freeCores ↔ n < 4096 ∧ s.coreFree n = true := by
  simp only [List.mem_flatMap, freeCores, List.mem_filter, List.mem_map, List.mem_range]
  exact ⟨fun ⟨d, hd, ⟨i, hi, e⟩, hf⟩ => ⟨by omega, hf⟩,
    fun ⟨hn, hf⟩ => ⟨n / 512, by omega, ⟨n % 512, by omega, by omega⟩, hf⟩⟩

/-- Which vcores are on a core (R277). -/
theorem mem_vcoresAt (p v : Nat) : v ∈ s.vcoresAt p ↔ ∃ x, (v, x) ∈ s.vcores ∧ isPlaced x = true ∧ x.pos = p := by
  simp [vcoresAt, isPlaced]

theorem vcore_of_mem {v : Nat} {x : VCore} (hr : AMap.Rising s.vcores) (hx : (v, x) ∈ s.vcores) : s.vcore v = x := by
  rw [vcore, AMap.get_of_mem hr hx, Option.getD_some]

/-- A window changes the clusters alone. -/
theorem newWindow_updates (p v : Nat) : ∃ cl, s.newWindow p v = { s with clusters := cl } := by
  refine List.foldlRecOn _ _ (motive := fun t : State => ∃ cl, t = { s with clusters := cl }) ⟨s.clusters, rfl⟩ ?_
  rintro _ ⟨cl, rfl⟩ i _
  exact ⟨_, rfl⟩

/-- A vcore that is created stands PLACED at its core, with its segment's length and its threads' generations, and
without a lock (R153, R155, R270); of the cores its own alone is changed. -/
theorem createVcore_updates (v p : Nat) (g : Option (Nat × Block)) : ∃ cl f y,
    s.createVcore v p g =
      { (({ s with tick := s.tick + 4 } : State).updVcore v fun _ => y).updCore p f with clusters := cl } ∧
      y.place = .placed ∧ y.pos = p ∧ y.segl = (s.vcore v).segl ∧ y.lock = false ∧
      y.map = (s.vcore v).map.map fun m => { gen := m.gen } := by
  obtain ⟨cl, h⟩ := newWindow_updates _ p v
  exact ⟨cl, _, _, h, rfl, rfl, rfl, rfl, rfl⟩

theorem createVcore_vcore (v p : Nat) (g : Option (Nat × Block)) :
    ((s.createVcore v p g).vcore v).place = .placed ∧ ((s.createVcore v p g).vcore v).pos = p ∧
      ((s.createVcore v p g).vcore v).segl = (s.vcore v).segl ∧ ((s.createVcore v p g).vcore v).lock = false ∧
      ((s.createVcore v p g).vcore v).map = (s.vcore v).map.map fun m => { gen := m.gen } := by
  obtain ⟨cl, f, y, h, hy⟩ := s.createVcore_updates v p g
  have hvc : (s.createVcore v p g).vcore v = y := by
    rw [h]
    exact updVcore_vcore_self { s with tick := s.tick + 4 } v fun _ => y
  rw [hvc]
  exact hy

theorem createVcore_core_ne {v p q : Nat} (g : Option (Nat × Block)) (hq : q ≠ p) :
    (s.createVcore v p g).core q = s.core q := by
  obtain ⟨cl, f, y, h, -⟩ := s.createVcore_updates v p g
  rw [h]
  exact updCore_core_ne (({ s with tick := s.tick + 4 } : State).updVcore v fun _ => y) f hq

@[simp] theorem createVcore_mem (v p : Nat) (g : Option (Nat × Block)) : (s.createVcore v p g).mem = s.mem := by
  obtain ⟨cl, f, y, h, -⟩ := s.createVcore_updates v p g
  rw [h]
  rfl

@[simp] theorem createVcore_notified (v p : Nat) (g : Option (Nat × Block)) :
    (s.createVcore v p g).notified = s.notified := by
  obtain ⟨cl, f, y, h, -⟩ := s.createVcore_updates v p g
  rw [h]
  rfl

/-! ### A vcore created anew (R338) -/

/-- A free number below n is below n, and reading it changes the count of free values alone. -/
theorem pick_lt {n : Nat} (h : 0 < n) : (s.pick n).1 < n ∧ ∃ k, (s.pick n).2 = { s with tick := k } := by
  unfold pick
  split
  · exact ⟨h, s.tick, rfl⟩
  · exact ⟨Nat.mod_lt _ h, s.tick + 1, rfl⟩

/-- An UNPLACED vcore that keeps what a new one of its number starts from. -/
def unplacedAnew (x : VCore) : VCore :=
  { segl := x.segl, ortb := x.ortb, tvec := x.tvec, image := x.image, gang := x.gang
    map := x.map.map fun m => { gen := m.gen } }

theorem recreate_unplaces {v : Nat} (h : ∀ n < 4096, s.coreFree n = false) :
    s.recreate v = s.updVcore v fun _ => unplacedAnew (s.vcore v) := by
  have hn : (List.range 8).flatMap s.freeCores = [] :=
    List.eq_nil_iff_forall_not_mem.mpr fun n hn => by
      obtain ⟨hlt, hf⟩ := (s.mem_allFree n).mp hn
      cases (h n hlt).symm.trans hf
  simp only [recreate, hn]
  rfl

theorem recreate_places {v : Nat} (h : ∃ n < 4096, s.coreFree n = true) :
    ∃ k q, q < 4096 ∧ s.coreFree q = true ∧
      s.recreate v = ({ s with tick := k } : State).createVcore v q (s.vcore v).gang := by
  obtain ⟨n, hn⟩ := h
  have hmem := (s.mem_allFree n).mpr hn
  have hpos := List.length_pos_of_mem hmem
  obtain ⟨hlt, k, hk⟩ := s.pick_lt hpos
  obtain ⟨hq, hfree⟩ := (s.mem_allFree _).mp (List.getElem_mem hlt)
  refine ⟨k, _, hq, hfree, ?_⟩
  have hne : ((List.range 8).flatMap s.freeCores).isEmpty = false := by
    simpa using List.ne_nil_of_mem hmem
  simp only [recreate, hne, hk, List.getD_eq_getElem?_getD, List.getElem?_eq_getElem hlt, Option.getD_some]
  rfl

/-- Re-creating a vcore touches no core that is not free, no byte of memory and no notice. -/
theorem recreate_frame (v : Nat) : (∀ p, s.coreFree p = false → (s.recreate v).core p = s.core p) ∧
    (s.recreate v).mem = s.mem ∧ (s.recreate v).notified = s.notified := by
  by_cases h : ∃ n < 4096, s.coreFree n = true
  · obtain ⟨k, q, hlt, hq, he⟩ := s.recreate_places (v := v) h
    rw [he]
    refine ⟨fun p hp => createVcore_core_ne _ _ ?_, createVcore_mem _ _ _ _, createVcore_notified _ _ _ _⟩
    rintro rfl
    cases hp.symm.trans hq
  · rw [s.recreate_unplaces (by simpa using h)]
    exact ⟨fun _ _ => rfl, rfl, rfl⟩

/-- The vcore keeps the length of its segment and the generations of its threads, and has no lock. -/
theorem recreate_vcore (v : Nat) : ((s.recreate v).vcore v).segl = (s.vcore v).segl ∧
    ((s.recreate v).vcore v).lock = false ∧
    ((s.recreate v).vcore v).map = (s.vcore v).map.map fun m => { gen := m.gen } := by
  by_cases h : ∃ n < 4096, s.coreFree n = true
  · obtain ⟨k, q, hlt, hq, he⟩ := s.recreate_places (v := v) h
    obtain ⟨-, -, hkept⟩ := createVcore_vcore { s with tick := k } v q (s.vcore v).gang
    rw [he]
    exact hkept
  · rw [s.recreate_unplaces (by simpa using h), updVcore_vcore_self]
    exact ⟨rfl, rfl, rfl⟩

theorem recreate_place_unplaced {v : Nat} (h : ∀ n < 4096, s.coreFree n = false) :
    ((s.recreate v).vcore v).place = .unplaced := by
  rw [s.recreate_unplaces h, updVcore_vcore_self]
  rfl

theorem recreate_place_placed {v : Nat} (h : ∃ n < 4096, s.coreFree n = true) :
    ((s.recreate v).vcore v).place = .placed ∧ ((s.recreate v).vcore v).pos < 4096 ∧
      s.coreFree ((s.recreate v).vcore v).pos = true := by
  obtain ⟨k, q, hlt, hq, he⟩ := s.recreate_places (v := v) h
  obtain ⟨hplace, hpos, -⟩ := createVcore_vcore { s with tick := k } v q (s.vcore v).gang
  rw [he, hpos]
  exact ⟨hplace, hlt, hq⟩

/-! ### A sealed core's state before its vcore is created anew -/

/-- The notice of the sealed core p has been served. -/
def served (p : Nat) : State := { s with notified := s.notified.filter fun q => q != p }

/-- The sealed core p has lost its threads and guests, and its vcore v its place and its lock. -/
def clearedCore (p v : Nat) : State :=
  ((s.served p).updCore p fun c =>
    { c with guests := [], slots := c.slots.map emptied }).updVcore v fun x => { x with place := .unplaced, lock := false }

theorem clearedCore_core_self (p v : Nat) : (s.clearedCore p v).core p =
    { s.core p with guests := [], slots := (s.core p).slots.map emptied } :=
  updCore_core_self (s.served p) p fun c =>
    { c with guests := [], slots := c.slots.map emptied }

theorem clearedCore_core_ne {p n : Nat} (v : Nat) (h : n ≠ p) : (s.clearedCore p v).core n = s.core n :=
  updCore_core_ne (s.served p) (fun c =>
    { c with guests := [], slots := c.slots.map emptied }) h

theorem clearedCore_vcore (p v : Nat) :
    (s.clearedCore p v).vcore v = { s.vcore v with place := .unplaced, lock := false } := by
  rw [clearedCore, updVcore_vcore_self]
  rfl

section

variable {p v : Nat} (hv : s.vcoresAt p = [v]) (hr : AMap.Rising s.vcores)

include hv hr

/-- A vcore that a core holds is PLACED or FOLDED there. -/
theorem isPlaced_of_vcoresAt : isPlaced (s.vcore v) = true ∧ (s.vcore v).pos = p := by
  obtain ⟨x, hx, hplaced, hpos⟩ := (s.mem_vcoresAt p v).mp (by simp [hv])
  rw [s.vcore_of_mem hr hx]
  exact ⟨hplaced, hpos⟩

/-- No other core gains or loses a vcore. -/
theorem clearedCore_mem_vcoresAt {n u : Nat} (hn : n ≠ p) : u ∈ (s.clearedCore p v).vcoresAt n ↔ u ∈ s.vcoresAt n := by
  have hput : (s.clearedCore p v).vcores = s.vcores.put v { s.vcore v with place := .unplaced, lock := false } := rfl
  have hpos := (s.isPlaced_of_vcoresAt hv hr).2
  rw [mem_vcoresAt, mem_vcoresAt, hput]
  constructor
  · rintro ⟨x, hx, hplaced, hxn⟩
    rcases AMap.mem_put hx with e | hx
    · obtain ⟨rfl, rfl⟩ := Prod.mk.inj e
      cases hplaced
    · exact ⟨x, hx, hplaced, hxn⟩
  · rintro ⟨x, hx, hplaced, hxn⟩
    refine ⟨x, AMap.mem_put_of_ne _ hx ?_, hplaced, hxn⟩
    rintro rfl
    exact hn (by rw [← hxn, ← s.vcore_of_mem hr hx, hpos])

/-- What is routed to v goes to a supervisor core, and what is routed to another vcore goes where it went. -/
theorem clearedCore_posOf {n : Nat} (hlt : n < 4096) (hn : n ≠ p) (u : Nat) :
    (s.clearedCore p v).posOf u = n ↔ s.posOf u = n := by
  by_cases e : u = v
  · subst e
    obtain ⟨hplaced, hpos⟩ := s.isPlaced_of_vcoresAt hv hr
    have h1 : (s.clearedCore p u).posOf u = homeSup u := by simp [posOf, clearedCore, isPlaced]
    have h2 : s.posOf u = p := by simp [posOf, hplaced, hpos]
    rw [h1, h2, homeSup]
    omega
  · have : (s.clearedCore p v).vcore u = s.vcore u := updVcore_vcore_ne _ _ e
    rw [posOf, posOf, this]

theorem clearedCore_frozen {n : Nat} (hlt : n < 4096) (hn : n ≠ p) : (s.clearedCore p v).frozen n = s.frozen n := by
  have h (u : Nat) : ((s.clearedCore p v).posOf u == n) = (s.posOf u == n) :=
    Bool.eq_iff_iff.mpr (by simpa using s.clearedCore_posOf hv hr hlt hn u)
  refine List.any_congr rfl fun e => ?_
  cases e <;> simp [exchCores, h]

/-- The free cores are those that were free: the sealed core is none (R25). -/
theorem clearedCore_coreFree (hs : (s.core p).sealed = true) {n : Nat} (hlt : n < 4096) :
    (s.clearedCore p v).coreFree n = s.coreFree n := by
  by_cases hn : n = p
  · subst hn
    have h1 : ((s.clearedCore n v).core n).sealed = true := by rw [clearedCore_core_self, hs]
    simp [coreFree, unusable, hs, h1]
  · have hcore : (s.clearedCore p v).core n = s.core n := s.clearedCore_core_ne v hn
    have hvs : ((s.clearedCore p v).vcoresAt n).isEmpty = (s.vcoresAt n).isEmpty := by
      rw [Bool.eq_iff_iff]
      simp [List.isEmpty_iff, List.eq_nil_iff_forall_not_mem, s.clearedCore_mem_vcoresAt hv hr hn]
    have hdie (d : Nat) : (s.clearedCore p v).die d = s.die d := rfl
    simp only [coreFree, unusable, slotAt, hcore, hvs, s.clearedCore_frozen hv hr hlt hn, hdie]
    rfl

end

/-- The sealed core p when its one vcore v has been created anew: it sends on what still comes for v (R278, R338). -/
def restarted (p v : Nat) : State :=
  let u := ((s.clearedCore p v).recreate v).updCore p fun c => { c with fwd := c.fwd.filter fun f => f.vc != v }
  if (u.vcore v).place = .placed then
    u.addFwd p { vc := v, pos := u.posOf v, hold := false, lapses := s.time + 2 ^ 20 }
  else u

theorem restarted_vcore (p v : Nat) : (s.restarted p v).vcore v = ((s.clearedCore p v).recreate v).vcore v := by
  unfold restarted
  dsimp only
  split <;> simp only [addFwd_vcore, updCore_vcore]

theorem restarted_mem (p v : Nat) : (s.restarted p v).mem = s.mem := by
  refine Eq.trans ?_ ((s.clearedCore p v).recreate_frame v).2.1
  unfold restarted
  dsimp only
  split <;> simp only [addFwd_mem, updCore_mem]

theorem not_mem_restarted_notified (p v : Nat) : p ∉ (s.restarted p v).notified := by
  have h : (s.restarted p v).notified = ((s.clearedCore p v).recreate v).notified := by
    unfold restarted
    dsimp only
    split <;> simp only [addFwd_notified, updCore_notified]
  rw [h, ((s.clearedCore p v).recreate_frame v).2.2]
  exact fun hp => by simpa using (List.mem_filter.mp hp).2

/-- A sealed core takes no vcore. -/
theorem coreFree_sealed {p : Nat} (h : (s.core p).sealed = true) : s.coreFree p = false := by
  simp [coreFree, unusable, h]

/-- The sealed core stays as it is, but for its threads, its guests and its forwarding table. -/
theorem restarted_core {p : Nat} (v : Nat) (hs : (s.core p).sealed = true) : (s.restarted p v).core p =
    { s.core p with
      guests := [], slots := (s.core p).slots.map emptied, fwd := ((s.restarted p v).core p).fwd } := by
  have hc : ((s.clearedCore p v).recreate v).core p = (s.clearedCore p v).core p :=
    ((s.clearedCore p v).recreate_frame v).1 p (coreFree_sealed _ (by rw [clearedCore_core_self, hs]))
  unfold restarted
  dsimp only
  split
  · rw [addFwd_core_self, updCore_core_self, hc, clearedCore_core_self]
  · rw [updCore_core_self, hc, clearedCore_core_self]

/-- Where the vcore stands again, the sealed core sends on to it what still comes for it (R278). -/
theorem restarted_fwd {p v : Nat} (h : ((s.clearedCore p v).recreate v |>.vcore v).place = .placed) :
    ∃ f ∈ ((s.restarted p v).core p).fwd, f.vc = v ∧ f.pos = ((s.restarted p v).vcore v).pos ∧ f.hold = false := by
  rw [restarted_vcore]
  unfold restarted
  dsimp only
  rw [updCore_vcore, if_pos h]
  have hpos (f : Core → Core) : (((s.clearedCore p v).recreate v).updCore p f).posOf v =
      (((s.clearedCore p v).recreate v).vcore v).pos := by simp [posOf, isPlaced, h]
  refine ⟨_, mem_addFwd _ p _, rfl, ?_, rfl⟩
  dsimp only
  rw [hpos]

theorem restarted_not_busy {p : Nat} (v : Nat) (hs : (s.core p).sealed = true) (j : Fin 16) :
    ((s.restarted p v).slotAt p j).busy = false := by
  rw [slotAt, s.restarted_core v hs, slots_map_get]
  rfl

/-- The vcore has its segment's length and its threads' generations as before, and no lock (R338). -/
theorem restarted_vcore_kept (p v : Nat) : ((s.restarted p v).vcore v).segl = (s.vcore v).segl ∧
    (∀ j, (((s.restarted p v).vcore v).map.get j).gen = ((s.vcore v).map.get j).gen) ∧
    ((s.restarted p v).vcore v).lock = false := by
  obtain ⟨hsegl, hlock, hmap⟩ := (s.clearedCore p v).recreate_vcore v
  rw [restarted_vcore, hsegl, hlock, hmap, clearedCore_vcore]
  exact ⟨rfl, fun j => by simp [Vector.get], rfl⟩

section

variable {p v : Nat} (hs : (s.core p).sealed = true) (hv : s.vcoresAt p = [v]) (hr : AMap.Rising s.vcores)

include hs hv hr

theorem restarted_unplaced (h : ∀ n < 4096, s.coreFree n = false) : ((s.restarted p v).vcore v).place = .unplaced := by
  rw [restarted_vcore]
  exact recreate_place_unplaced _ fun n hn => (s.clearedCore_coreFree hv hr hs hn).trans (h n hn)

theorem restarted_placed (h : ∃ n < 4096, s.coreFree n = true) : ((s.restarted p v).vcore v).place = .placed ∧
    s.coreFree ((s.restarted p v).vcore v).pos = true ∧
    ∃ f ∈ ((s.restarted p v).core p).fwd, f.vc = v ∧ f.pos = ((s.restarted p v).vcore v).pos ∧ f.hold = false := by
  obtain ⟨n, hn, h⟩ := h
  obtain ⟨hplace, hlt, hat⟩ :=
    (s.clearedCore p v).recreate_place_placed (v := v) ⟨n, hn, (s.clearedCore_coreFree hv hr hs hn).trans h⟩
  refine ⟨?_, ?_, s.restarted_fwd hplace⟩ <;> rw [restarted_vcore]
  · exact hplace
  · exact (s.clearedCore_coreFree hv hr hs hlt).symm.trans hat

end

/-- A vcore none of whose group registers is bound is in no group. -/
theorem groupsOf_none {v : Nat} (h : ∀ i : Fin 8, ((s.vcore v).grp.get i).bound = false) : s.groupsOf v = [] := by
  have : (s.vcore v).grp.toList.filter (·.bound) = [] := by
    refine List.filter_eq_nil_iff.mpr fun g hg => ?_
    obtain ⟨i, hi, rfl⟩ := Vector.mem_iff_getElem.mp (Vector.mem_toList_iff.mp hg)
    exact Bool.eq_false_iff.mp (h ⟨i, hi⟩)
  simp [groupsOf, this]

/-- Restarting a sealed core with one vcore, no thread to end, no guest anywhere and no group (R338). -/
theorem restartCore_one {p v : Nat} (hs : (s.core p).sealed = true) (hv : s.vcoresAt p = [v])
    (hd : s.doomed p [v] = []) (hg : ∀ c ∈ s.cores, c.2.guests = [])
    (hb : ∀ i : Fin 8, ((s.vcore v).grp.get i).bound = false) : s.restartCore p = s.restarted p v := by
  have hs' : ((s.served p).core p).sealed = true := hs
  have hv' : (s.served p).vcoresAt p = [v] := hv
  have hd' : (s.served p).doomed p [v] = [] := hd
  have hb' : (s.served p).groupsOf v = [] := (s.served p).groupsOf_none hb
  have hrem : ((s.served p).updCore p fun c => { c with guests := [], slots := c.slots.map emptied }).removeThreads [] =
      (s.served p).updCore p fun c => { c with guests := [], slots := c.slots.map emptied } := by
    refine removeThreads_nil _ fun c hc => ?_
    rcases AMap.mem_put hc with rfl | hc
    · rfl
    · exact hg c hc
  simp only [restartCore]
  rw [show ({ s with notified := s.notified.filter fun q => q != p } : State) = s.served p from rfl]
  simp only [hs', hv', hd', hb', hrem, List.flatMap_cons, List.flatMap_nil, List.map_nil, List.append_nil,
    List.foldl_cons, List.foldl_nil, Bool.not_true, Bool.false_eq_true, if_false, restarted, clearedCore]
  rfl

end State

end Sys2Proof.Machine
end

section
/-! The statement on events, sealed cores, spare clusters and abandoned tasks. -/

namespace Sys2Proof.Machine



/-- Settles O51, part by part: the oldest event is taken as `takeEvent` says, an error seals as `sealCore` says, a
restart creates the vcore anew where a core is free, a spare takes a retired cluster's position, and a task whose granule
is given up leaves its slot. -/
theorem eventsSealsAndAbandonedTasks : Obligations.EventsSealsAndAbandonedTasks := by
  unfold Obligations.EventsSealsAndAbandonedTasks
  refine ⟨fun s p j x e rest hx => ⟨fun h => ?_, fun hb hl he hs hC hA hq hp ha hst hfe hf => ?_⟩,
    fun s p v die clu k => ⟨exec_uncorrectableError_sealed, fun hp hr hs he hch hv => ?_,
      fun hs hv hpos hr hd hg hb => ⟨_, rfl, ?_⟩, fun hd hc hk => ?_⟩, fun s p j x hx => ?_⟩
  · subst hx
    exact exec_asyncEventEntry_not (s.asyncReady_eq_false h)
  · subst hx
    have hready := (s.asyncReady_iff p j).mpr ⟨hb, by simp [he], hs, hC, hA, hq, ha, hst, hfe, hl⟩
    exact ⟨_, _, exec_asyncEventEntry_takes hready hp, (s.takeEvent_slotAt _ he hl hf).symm, rfl,
      Regs.enter_tepc_toNat _ _ _ _ _ _, rfl, State.eventTaken_tcause _ _ _ _ _, State.eventTaken_tsw _ _ _ _ _ 4,
      (State.eventTaken_tsw _ _ _ _ _ 5).trans hs,
      fun i h4 h5 => (State.eventTaken_tsw _ _ _ _ _ i).trans (by rw [if_neg h4, if_neg h5]),
      Regs.enter_pc_toNat _ _ _ _ _ _, rfl, rfl, hb, fun k hk => s.takeEvent_slotAt_ne _ he hl hf hk,
      s.takeEvent_buffer _ he hl hf, fun k hk => s.takeEvent_core_ne _ he hl hf hk, s.takeEvent_mem _ he hl hf⟩
  · have hcore := s.sealCore_core_self hs he
    have hvcore := s.sealCore_vcore hs he hv
    exact ⟨_, exec_uncorrectableError hp hr, by rw [hcore], by rw [hcore]; rfl, by rw [hcore]; rfl, by rw [hcore]; rfl,
      by rw [hcore]; rfl, by rw [hcore]; rfl, by rw [hcore]; rfl, fun q hq => s.sealCore_core_ne hs he hq,
      s.mem_sealCore_notified hs he, by rw [hvcore], by rw [hvcore],
      ⟨_, s.mem_sealCore_fwd hs he hv, rfl, rfl, rfl⟩, s.sealCore_mem hs he⟩
  · rw [s.restartCore_one hs hv hd hg hb]
    obtain ⟨hsegl, hgen, hlock⟩ := s.restarted_vcore_kept p v
    exact ⟨s.not_mem_restarted_notified p v, by rw [s.restarted_core v hs, hs], s.restarted_not_busy v hs,
      s.restarted_mem p v, hsegl, hgen, hlock, s.restarted_unplaced hs hv hr, s.restarted_placed hs hv hr⟩
  · subst hk
    refine ⟨exec_spareClusterSteering_stays hd hc,
      fun hr hs hv he hl => ⟨_, exec_spareClusterSteering_retires hd hc hr hs hv he hl, ?_⟩,
      fun hr hco hcl => ⟨_, exec_spareClusterSteering_retired hd hc hr, ?_⟩⟩ <;> rw [State.updDie_die_self]
    · exact ⟨(State.mem_insertNat _ _ _).mpr (.inl rfl), fun c h => (State.mem_insertNat _ _ _).mpr (.inr h), rfl, rfl,
        rfl⟩
    · exact ⟨fun i hi => s.freshCluster_core hco (by omega), s.freshCluster_cluster hcl, rfl,
        fun c => List.mem_filter.trans (and_congr_right fun _ => bne_iff_ne),
        fun q hq hh => s.freshCluster_core_ne hq hh, rfl, rfl⟩
  · subst hx
    refine ⟨exec_taskEnd_not_waiting, fun hb hl hp hw hg hh hq => ⟨_, exec_taskEnd_waiting hb hl hw, ?_⟩⟩
    rw [s.endTask_alone 1 hp hg hq]
    have hslot := s.taskGone_slotAt hh
    have hcore := s.taskGone_core hh
    have hmap : (s.taskGone p j).mapEntry (s.slotAt p j).tid =
        { s.mapEntry (s.slotAt p j).tid with state := .none, saved := none } := State.setMap_mapEntry _ _ _
    exact ⟨(congrArg Slot.busy hslot :), (congrArg Slot.regs hslot :), (congrArg MapEntry.state hmap :),
      (congrArg MapEntry.gen hmap :), rfl, fun q k h => s.taskGone_slotAt_ne hh h, (congrArg Core.full hcore :),
      (congrArg Core.spad hcore :), rfl⟩

end Sys2Proof.Machine
end

section
/-! SUPPORT. What taking a trap and returning from it make of a thread and of the rest of the package (R36, R151, R251,
R332, R335), and the statement on traps. -/

namespace Sys2Proof.Machine

/-! ### The registers at the entry and at the return -/

/-- The bundle address that a system register holds. -/
theorem ofNat_bits_pc (w : Word) : BitVec.ofNat 38 (bits w 37 0) = w.setWidth 38 := by
  apply BitVec.eq_of_toNat_eq
  simp [bits]

theorem Cause.code_lt_64 (c : Cause) : c.code < 2 ^ 6 := by cases c <;> decide

theorem Tsw.ps_eq (w : Word) : Tsw.ps w = w.getLsbD 5 := bit_eq_getLsbD w 5

theorem Regs.enter_pc (r : Regs) (c : Cause) (async lost : Bool) (epc : BitVec 38) (tval : Word) :
    (r.enter c async lost epc tval).pc = r.tvec.setWidth 38 := ofNat_bits_pc r.tvec

/-- A synchronous entry, but for TSW: only TEPC, TCAUSE, TVAL and the PC are written. -/
theorem Regs.enter_sync (r : Regs) (c : Cause) (epc : BitVec 38) (tval : Word) :
    r.enter c false false epc tval =
      { r with
        tepc := epc.setWidth 64, tcause := BitVec.ofNat 64 c.code, tval := tval
        pc := r.tvec.setWidth 38, tsw := (r.enter c false false epc tval).tsw } := by
  simp [Regs.enter, ofNat_bits_pc]

/-- Bit 7 of TCAUSE marks an asynchronous entry (R327). -/
theorem Regs.enter_tcause_async (r : Regs) (c : Cause) (lost : Bool) (epc : BitVec 38) (tval : Word) :
    (r.enter c true lost epc tval).tcause.toNat % 2 ^ 6 = c.code ∧
      (r.enter c true lost epc tval).tcause.getLsbD 7 = true := by
  have hc := c.code_lt_64
  rw [← bit_eq_getLsbD, bit, Regs.enter_tcause_toNat, Bool.toNat_true, beq_iff_eq]
  omega

/-- An address within 38 bits comes back from TEPC as it went in. -/
theorem setWidth_ofNat_bits_pc {w : Word} (h : w.toNat < 2 ^ 38) :
    (BitVec.ofNat 38 (bits w 37 0)).setWidth 64 = w := by
  apply BitVec.eq_of_toNat_eq
  simp only [ofNat_bits_pc, BitVec.toNat_setWidth]
  omega

/-- TRET gives S what PS was and clears PS; the other status bits stay (R335). -/
theorem Regs.leave_tsw_getLsbD (r : Regs) (i : Nat) :
    r.leave.tsw.getLsbD i = if i = 4 then r.tsw.getLsbD 5 else if i = 5 then false else r.tsw.getLsbD i := by
  simp only [Regs.leave, Tsw.setS, Tsw.setPs, Tsw.ps_eq]
  rw [getLsbD_setBits_one _ _ _ (by decide), getLsbD_setBits_one _ _ _ (by decide)]
  by_cases h : i = 4
  · subst h
    rfl
  · rw [if_neg h, if_neg h]

theorem Regs.leave_eq (r : Regs) : r.leave = { r with pc := r.tepc.setWidth 38, tsw := r.leave.tsw } := by
  simp [Regs.leave, ofNat_bits_pc]

namespace State

variable (s : State)

/-! ### What the bundle has handed out is taken back (R36, R251) -/

@[simp] theorem dropHalves_cur (p : Nat) (j : Fin 16) : (s.dropHalves p j).cur = s.cur := by
  unfold dropHalves
  dsimp only
  split <;> rfl

@[simp] theorem dropHalves_mem (p : Nat) (j : Fin 16) : (s.dropHalves p j).mem = s.mem := by
  unfold dropHalves
  dsimp only
  split <;> rfl

theorem dropHalves_core_ne {p q : Nat} (j : Fin 16) (h : q ≠ p) : (s.dropHalves p j).core q = s.core q := by
  unfold dropHalves
  dsimp only
  split
  · rfl
  · exact updCore_core_ne _ _ h

theorem dropHalves_spad (p q : Nat) (j : Fin 16) : ((s.dropHalves p j).core q).spad = (s.core q).spad := by
  unfold dropHalves
  dsimp only
  split
  · rfl
  · by_cases h : q = p
    · subst h
      rw [updCore_core_self]
    · rw [updCore_core_ne _ _ h]

/-- An A half of the core waits for the same tokens as before, or is an ASTAT that waits for fewer (R251). -/
theorem dropHalves_pendA (p q : Nat) (j k : Fin 16) :
    ((s.dropHalves p j).slotAt q k).pendA = (s.slotAt q k).pendA ∨
      ∃ rd ra l m w, (s.slotAt q k).pendA = some ⟨.astat rd ra, 1, l, w⟩ ∧ m.Sublist l ∧
        ((s.dropHalves p j).slotAt q k).pendA = some ⟨.astat rd ra, 1, m, w⟩ := by
  by_cases hq : q = p
  · subst hq
    unfold dropHalves
    dsimp only
    split
    · exact .inl rfl
    · simp only [slotAt, updCore_core_self, slots_map_get]
      cases hA : ((s.core q).slots.get k).pendA with
      | none => exact .inl rfl
      | some h =>
        obtain ⟨ins, phase, held, w⟩ := h
        rw [Option.map_some]
        split
        · rename_i rd ra hi hp
          obtain rfl : ins = .astat rd ra := hi
          obtain rfl : phase = 1 := hp
          exact .inr ⟨rd, ra, held, _, w, rfl, List.filter_sublist, rfl⟩
        · exact .inl rfl
  · exact .inl (by rw [slotAt, slotAt, dropHalves_core_ne s j hq])

/-! ### Taking a trap (R332) -/

/-- The registers with which the running thread takes a trap (R36, R157). -/
def trapRegs (c : Cause) : Regs := (entryRegs s.me (s.keepsRegs c false)).1

/-- They are those from before the bundle, if a half of it is out. -/
theorem trapRegs_undone {c : Cause} (h : ¬(c = .localRange ∧ s.cur.isA = false)) :
    s.trapRegs c = match s.me.undo with
      | some x => x.1
      | none => s.me.regs := by
  have hk : s.keepsRegs c false = false := by simpa [keepsRegs] using h
  rw [trapRegs, entryRegs, hk]
  cases s.me.undo <;> rfl

/-- Where the limit fails in a C half they are as they stand (R157). -/
theorem trapRegs_kept {c : Cause} (hc : c = .localRange) (hA : s.cur.isA = false) : s.trapRegs c = s.me.regs := by
  subst hc
  have hk : s.keepsRegs .localRange false = true := by simp [keepsRegs, hA]
  rw [trapRegs, entryRegs, hk]
  rfl

section

variable (c : Cause) (v : Word) (hl : ∀ k, s.me.life ≠ .helper k)
  (hf : ∀ k, s.fetchAt ((s.trapRegs c).tvec.setWidth 38) ≠ .fault k)

include hl hf

/-- Taking a trap takes back what the bundle has handed out and rewrites the thread's own slot. -/
theorem trap_updates : ∃ f : Slot → Slot, s.trap c v = ((s.dropHalves s.cur.pos s.cur.slot).updMe f).out .trap ∧
    ∀ x, (f x).regs = (s.trapRegs c).enter c false false s.cur.ipc v ∧ (f x).pendC = none ∧ (f x).pendA = none :=
  ⟨_, s.trap_entered c v hl (by simpa only [ofNat_bits_pc, trapRegs] using hf), fun _ => ⟨rfl, rfl, rfl⟩⟩

theorem trap_me : (s.trap c v).me.regs = (s.trapRegs c).enter c false false s.cur.ipc v ∧
    (s.trap c v).me.pendC = none ∧ (s.trap c v).me.pendA = none := by
  obtain ⟨f, ht, hx⟩ := s.trap_updates c v hl hf
  have hme : (s.trap c v).me = f (s.dropHalves s.cur.pos s.cur.slot).me := by rw [ht]; exact updMe_me _ f
  rw [hme]
  exact hx _

/-- The other slots are those that `dropHalves` leaves. -/
theorem trap_slotAt_ne {q : Nat} {k : Fin 16} (h : q ≠ s.cur.pos ∨ k ≠ s.cur.slot) :
    (s.trap c v).slotAt q k = (s.dropHalves s.cur.pos s.cur.slot).slotAt q k := by
  obtain ⟨f, ht, -⟩ := s.trap_updates c v hl hf
  rw [ht]
  exact updSlot_slotAt_ne _ f (by simpa only [dropHalves_cur] using h)

theorem trap_mem : (s.trap c v).mem = s.mem := by
  obtain ⟨f, ht, -⟩ := s.trap_updates c v hl hf
  rw [ht]
  exact s.dropHalves_mem _ _

theorem trap_spad (p : Nat) : ((s.trap c v).core p).spad = (s.core p).spad := by
  obtain ⟨f, ht, -⟩ := s.trap_updates c v hl hf
  rw [ht, out_core, updMe, updSlot_core]
  exact s.dropHalves_spad _ _ _

/-- What the handler finds in the registers: the cause, the value, the bundle's address, S set, and itself. -/
theorem trap_handler : (s.trap c v).me.regs.tcause = BitVec.ofNat 64 c.code ∧ (s.trap c v).me.regs.tval = v ∧
    (s.trap c v).me.regs.tepc = s.cur.ipc.setWidth 64 ∧ (s.trap c v).me.regs.tsw.getLsbD 4 = true ∧
    (s.trap c v).me.regs.pc = (s.trapRegs c).tvec.setWidth 38 := by
  obtain ⟨hr, -⟩ := s.trap_me c v hl hf
  rw [hr]
  exact ⟨by rw [Regs.enter_sync], rfl, rfl, Regs.enter_tsw_getLsbD _ _ _ _ _ _ 4, Regs.enter_pc _ _ _ _ _ _⟩

end

/-! ### Taking an event on the return (R335) -/

/-- Any thread but a helper, a trailing copy too, takes its oldest event by rewriting its slot alone. -/
theorem takeEvent_not_helper {p : Nat} {j : Fin 16} {e : AsyncEv} {rest : List AsyncEv} (epc : BitVec 38)
    (he : (s.slotAt p j).events = e :: rest) (hl : ∀ k, (s.slotAt p j).life ≠ .helper k)
    (hf : ∀ k, s.fetchAt ((s.slotAt p j).regs.tvec.setWidth 38) ≠ .fault k) :
    ∃ f g : Slot → Slot, s.takeEvent p j epc = (s.updSlot p j f).updSlot p j g ∧
      g (f (s.slotAt p j)) = eventTaken s.time e rest epc (s.slotAt p j) := by
  have hk (t : State) (x : Slot) : entryRegs x (t.keepsRegs e.cause true) = (x.regs, x.bounce) := rfl
  -- `hl` and `hf` rule out the first cases of the two matches of `enterTrap`
  simp only [takeEvent, he, enterTrap, hk, ofNat_bits_pc, fetchAt_updSlot, updSlot_slotAt, if_true]
  exact ⟨_, _, rfl, by simp [eventTaken]⟩

end State

/-- TRET in supervisor mode (R335). -/
theorem exec_tret {s : State} (h : s.sup = true) : exec .tret s = .next
    (if s.me.regs.tsw.getLsbD 5 then s.updRegs Regs.leave
     else (s.updRegs Regs.leave).takeEvent s.cur.pos s.cur.slot (BitVec.ofNat 38 (bits s.me.regs.tepc 37 0))) := by
  have hs : Tsw.s (s.updRegs Regs.leave).me.regs.tsw = s.me.regs.tsw.getLsbD 5 := by
    rw [Tsw.s_eq, State.updRegs_me]
    exact Regs.leave_tsw_getLsbD s.me.regs 4
  have he : (s.updRegs Regs.leave).me.regs.tepc = s.me.regs.tepc := by rw [State.updRegs_me]; rfl
  simp only [exec, execTret, h, hs, he, Bool.not_true, Bool.false_eq_true, if_false]

theorem exec_tret_stays {s : State} (h : s.sup = true) (hs : s.me.events = [] ∨ s.me.regs.tsw.getLsbD 5 = true) :
    exec .tret s = .next (s.updRegs Regs.leave) := by
  rw [exec_tret h]
  rcases hs with he | hp
  · have he' : ((s.updRegs Regs.leave).slotAt s.cur.pos s.cur.slot).events = [] :=
      (congrArg Slot.events (s.updRegs_me Regs.leave)).trans he
    simp only [State.takeEvent, he', ite_self]
  · rw [if_pos hp]

/-- With an event waiting and S 0 again, TRET enters the handler for it. -/
theorem exec_tret_takes {s : State} (h : s.sup = true) {e : AsyncEv} {rest : List AsyncEv}
    (he : s.me.events = e :: rest) (hp : s.me.regs.tsw.getLsbD 5 = false) (hl : ∀ k, s.me.life ≠ .helper k)
    (hf : ∀ k, s.fetchAt (s.me.regs.tvec.setWidth 38) ≠ .fault k) :
    ∃ t, exec .tret s = .next t ∧
      t.me = State.eventTaken s.time e rest (BitVec.ofNat 38 (bits s.me.regs.tepc 37 0))
        { s.me with regs := s.me.regs.leave } := by
  have hx : (s.updRegs Regs.leave).slotAt s.cur.pos s.cur.slot = { s.me with regs := s.me.regs.leave } :=
    s.updRegs_me Regs.leave
  have hf' (k : Cause) : (s.updRegs Regs.leave).fetchAt (s.me.regs.tvec.setWidth 38) ≠ .fault k := by
    rw [State.updRegs, State.updMe, State.fetchAt_updSlot]
    exact hf k
  obtain ⟨f, g, ht, hg⟩ := (s.updRegs Regs.leave).takeEvent_not_helper (p := s.cur.pos) (j := s.cur.slot) (e := e)
    (rest := rest) (BitVec.ofNat 38 (bits s.me.regs.tepc 37 0)) (by rw [hx]; exact he) (by rw [hx]; exact hl)
    (by rw [hx]; exact hf')
  refine ⟨_, (exec_tret h).trans (by rw [hp, ht, if_neg Bool.false_ne_true]), ?_⟩
  refine (State.updSlot_slotAt _ _ _ _).trans ?_
  rw [State.updSlot_slotAt, hg, hx]
  rfl

/-- Settles O10: a trap rewrites the thread's own slot with what `Regs.enter` gives and else takes back only what
`dropHalves` does; a helper's slot is vacated; TRET is `Regs.leave`, after which the oldest event is entered. -/
theorem trapEntryAndReturn : Obligations.TrapEntryAndReturn := by
  unfold Obligations.TrapEntryAndReturn
  refine ⟨fun s c v u hu hk hl hf => ?_, fun s c v k hl => ?_, fun s code u hu hl hf => ?_, fun s hs => ⟨?_, ?_⟩⟩
  · obtain rfl : u = s.trapRegs c := by
      by_cases h : c = .localRange ∧ s.cur.isA = false
      · exact (hk h.1 h.2).trans (s.trapRegs_kept h.1 h.2).symm
      · exact (hu h).trans (s.trapRegs_undone h).symm
    obtain ⟨hr, hC, hA⟩ := s.trap_me c v hl hf
    refine ⟨by rw [hr]; exact Regs.enter_sync _ _ _ _, fun i => ?_, hC, hA, s.trap_out c v, fun p j hp => ?_,
      fun j hj => ?_, s.trap_mem c v hl hf, s.trap_spad c v hl hf⟩
    · rw [hr]
      exact Regs.enter_tsw_getLsbD _ _ _ _ _ _ i
    · rw [s.trap_slotAt_ne c v hl hf (.inl hp), State.slotAt, s.dropHalves_core_ne _ hp]
      rfl
    · rw [s.trap_slotAt_ne c v hl hf (.inr hj)]
      exact ⟨s.dropHalves_slotAt _ _ _ _, s.dropHalves_pendA _ _ _ _⟩
  · rw [s.trap_helper c v hl]
    exact ⟨s.updMe_me State.vacated, fun p j h => s.updSlot_slotAt_ne _ (Decidable.not_and_iff_not_or_not.mp h), rfl⟩
  · have hb : u = s.trapRegs .brk := hu.trans (s.trapRegs_undone (by simp)).symm
    have hs : u = s.trapRegs .syscall := hu.trans (s.trapRegs_undone (by simp)).symm
    refine ⟨⟨_, rfl, rfl, ?_⟩, ⟨_, rfl, rfl, ?_⟩⟩
    · rw [hb]
      exact s.trap_handler .brk _ hl (hb ▸ hf)
    · rw [hs]
      exact s.trap_handler .syscall _ hl (hs ▸ hf)
  · refine ⟨s.updRegs Regs.leave, exec_tret_stays hs, ?_⟩
    rw [s.updRegs_me]
    exact ⟨congrArg (fun r => { s.me with regs := r }) s.me.regs.leave_eq, s.me.regs.leave_tsw_getLsbD⟩
  · intro e rest he hp hl hf ht
    obtain ⟨t, hx, hme⟩ := exec_tret_takes hs he hp hl hf
    refine ⟨t, hx, ?_⟩
    rw [hme]
    obtain ⟨hcode, hasync⟩ := s.me.regs.leave.enter_tcause_async e.cause s.me.lost
      (BitVec.ofNat 38 (bits s.me.regs.tepc 37 0)) e.tval
    exact ⟨setWidth_ofNat_bits_pc ht, rfl, hcode, hasync, rfl, Regs.enter_pc _ _ _ _ _ _,
      State.eventTaken_tsw _ _ _ _ _ 4, (State.eventTaken_tsw _ _ _ _ _ 5).trans <|
        (s.me.regs.leave_tsw_getLsbD 4).trans hp⟩

end Sys2Proof.Machine
end

section
/-! SUPPORT. The step in which a thread of its own issues (R35, R36, R122, R331), and the statement on it. -/

namespace Sys2Proof.Machine

open Sys2Proof.Claim

namespace State

/-! ### What may happen next (R6) -/

/-- With no barrier phase, half or retry due and no event or input to come, the cycle goes on. -/
theorem advance_proceeds {s : State} (hph : s.phaseDue.isNone = true) (hth : s.threadDue.isNone = true)
    (hpo : s.pollDue.isNone = true) (he : s.settled.events = []) (hi : s.inputs = []) :
    s.advance = s.settled.proceed := by
  have hi' : s.settled.inputs = [] := hi
  simp [advance, Option.isNone_iff_eq_none.mp hph, Option.isNone_iff_eq_none.mp hth, Option.isNone_iff_eq_none.mp hpo,
    chooseNext, he, hi']

/-- Which core acts next does not depend on the cores that have tried their waiting halves. -/
theorem nextCore_polled (s : State) (n : Nat) : { s with polled := n }.nextCore = s.nextCore := rfl

/-- The state in which a core does what it does in this cycle. -/
def atTurn (s : State) (p : Nat) : State := { s with polled := allCores, turn := p + 1 }.out .done

/-- Where the thread whose cycle it is is in rotation, its core lets it issue. -/
theorem proceed_settled {s : State} {p : Nat} (hn : s.nextCore = some p)
    (hr : s.inRotation p (s.slotAt p (Fin.ofNat 16 s.time)) = true) :
    s.settled.proceed = (s.atTurn p).issueNext p (Fin.ofNat 16 s.time) := by
  have hs : s.settled = { s with polled := allCores } := by simp [settled, hn]
  rw [hs, proceed, nextCore_polled, hn]
  exact if_pos hr

/-! ### The fetch of a bundle (R331) -/

section

variable {s : State} (hc : ∀ h, (s.home h).sat = [])

include hc

/-- With no open accumulator, reading the code object's record and residency byte changes nothing. -/
theorem codeRead_eq (pc : BitVec 38) : s.codeRead pc = s := by
  have hr (tb obj : Nat) : s.recordRead tb obj = s := by
    unfold recordRead
    split
    · exact s.closeSat_eq _ _ hc
    · rfl
  have hm (r : Rec) (j : Nat) : s.rmapRead r j = s := by
    unfold rmapRead
    split
    · exact s.closeSat_eq _ _ hc
    · rfl
  simp only [codeRead, hr, hm]
  split
  · rfl
  · split
    · rfl
    · exact ite_self _

variable {p : Nat} {j : Fin 16} {a : Nat} (hf : s.fetchAt (s.slotAt p j).regs.pc = .bytes a)
  (hi : (s.core p).icache.contains ((s.slotAt p j).regs.pc.toNat / 64) = true) {w : Word}
  (hw : w = BitVec.ofNat 64 (ofBytes (Memory.readN s.mem a 8)))

include hf hi hw

/-- Bytes in the instruction cache that do not decode trap ILLEGAL with the bundle (R67). -/
theorem fetchBundle_illegal {e : DecodeError} (hd : decodeBundle (bits w 31 0) (bits w 63 32) = .error e) :
    s.fetchBundle p j = .trap (s.atIssue p j false w) .illegal w := by
  subst hw
  simp only [fetchBundle, codeRead_eq hc, hf, hi, s.memRead_eq a 8 hc, hd, Bool.not_true, Bool.false_eq_true, if_false]

theorem fetchBundle_decoded {b : Bundle} (hd : decodeBundle (bits w 31 0) (bits w 63 32) = .ok b) :
    s.fetchBundle p j = .bundle (s.atIssue p j false w) b := by
  subst hw
  simp only [fetchBundle, codeRead_eq hc, hf, hi, s.memRead_eq a 8 hc, hd, Bool.not_true, Bool.false_eq_true, if_false]

end

/-- Where no home has an open accumulator, fetching depends on no more than memory, the mappings and the partition. -/
theorem fetchAt_congr {s t : State} (hs : ∀ h, (s.home h).sat = []) (ht : ∀ h, (t.home h).sat = [])
    (hm : t.mem = s.mem) (h2 : t.stage2 = s.stage2) (hp : t.part = s.part) (ho : t.poison = s.poison) (pc : BitVec 38) :
    t.fetchAt pc = s.fetchAt pc := by
  simp only [fetchAt, recordAt, resident, rmapByte, memSeen, closeSat_eq _ _ _ hs, closeSat_eq _ _ _ ht, hpaOf, poisoned,
    hm, h2, hp, ho]
  rfl

/-! ### A thread issues (R122) -/

/-- A thread of its own that takes no event issues the next bundle. -/
theorem issueNext_alone {s : State} {p : Nat} {j : Fin 16} (ha : s.asyncReady p j = false)
    (hl : (s.slotAt p j).life = .task ∨ (s.slotAt p j).life = .movement) (hp : (s.slotAt p j).pair = none) :
    s.issueNext p j = (s.anew p j).issueAlone p j := by
  rcases hl with hl | hl <;> simp [issueNext, ha, hl, hp]

/-- A step in which such a thread issues does just that. -/
theorem step_issues {s : State} {p : Nat} {j : Fin 16} {a : Nat} (h : Issues s p j a) :
    step s = ((s.atTurn p).anew p j).issueAlone p j := by
  obtain ⟨hph, hth, hpo, he, hi, hn, rfl, hr, ha, hl, hpair, -⟩ := h
  rw [step, advance_proceeds hph hth hpo he hi, proceed_settled hn hr]
  exact issueNext_alone (s := s.atTurn p) ha hl hpair

theorem anew_slotAt (s : State) (p : Nat) (j : Fin 16) :
    (s.anew p j).slotAt p j = { s.slotAt p j with undo := none, stalled := none } := updSlot_slotAt _ _ _ _

/-- Issuing a bundle latches the registers as they stand (R35). -/
theorem anew_atIssue (s : State) (p : Nat) (j : Fin 16) (isA : Bool) (w : Word) :
    ((s.atTurn p).anew p j).atIssue p j isA w = fetchedIn s p j isA w := by
  simp only [atIssue, anew_slotAt]
  rfl

theorem fetchedIn_me (s : State) (p : Nat) (j : Fin 16) (isA : Bool) (w : Word) :
    (fetchedIn s p j isA w).me = { s.slotAt p j with undo := none, stalled := none } := anew_slotAt s p j

/-- The PC goes on before a half of the bundle runs (R129). -/
theorem fetchedIn_nextBundle (s : State) (p : Nat) (j : Fin 16) (isA : Bool) (w : Word) :
    (fetchedIn s p j isA w).nextBundle = atBundle s p j isA w := rfl

/-- The step issues the bundle that its eight bytes decode to, and traps where they decode to none (R67). -/
theorem step_fetches {s : State} {p : Nat} {j : Fin 16} {a : Nat} {w : Word} (h : Issues s p j a)
    (hw : w = BitVec.ofNat 64 (ofBytes (Memory.readN s.mem a 8))) :
    (∀ e, decodeBundle (bits w 31 0) (bits w 63 32) = .error e →
      step s = .next ((fetchedIn s p j false w).trap .illegal w)) ∧
    (∀ b, decodeBundle (bits w 31 0) (bits w 63 32) = .ok b → step s = (fetchedIn s p j false w).runBundle b) := by
  rw [step_issues h]
  obtain ⟨-, -, -, -, -, -, -, -, -, -, -, hf, hi, hc⟩ := h
  have hc' : ∀ k, (((s.atTurn p).anew p j).home k).sat = [] := hc
  have hf' : ((s.atTurn p).anew p j).fetchAt (((s.atTurn p).anew p j).slotAt p j).regs.pc = .bytes a := by
    rw [anew_slotAt]
    exact (fetchAt_congr hc hc' rfl rfl rfl rfl _).trans hf
  have hi' : (((s.atTurn p).anew p j).core p).icache.contains
      ((((s.atTurn p).anew p j).slotAt p j).regs.pc.toNat / 64) = true := by
    rw [anew_slotAt, anew, updSlot_core]
    exact hi
  constructor
  · intro e hd
    rw [issueAlone, fetchBundle_illegal hc' hf' hi' hw hd, anew_atIssue]
  · intro b hd
    rw [issueAlone, fetchBundle_decoded hc' hf' hi' hw hd, anew_atIssue]

/-! ### What a bundle makes of the step (R36) -/

/-- A thread that is no helper runs whatever bundle it has (R151). -/
theorem runBundle_not_helper {s : State} (hl : ∀ k, s.me.life ≠ .helper k) :
    (∀ c i, s.runBundle (.pair c i) = s.runPair c i) ∧ (∀ i, s.runBundle (.loneC i) = s.runLone i) ∧
      ∀ i, s.runBundle (.loneA i) = { s with cur := { s.cur with isA := true } }.runLone i := by
  refine ⟨fun c i => ?_, fun i => ?_, fun i => ?_⟩ <;>
  · dsimp only [runBundle]
    split
    · rename_i k hk _
      exact absurd hk (hl k)
    · rfl

/-- A half at issue ends the step, has the bundle issue again, or leaves the rest to what follows. -/
theorem stops_of_unlessStopped {s t : State} {k : Res} {rest : Prop} (h : step s = t.unlessStopped k)
    (hr : step s = k → rest) : Stops s t rest := by
  refine ⟨fun ho => ?_, fun ho => ?_, fun ho => hr ?_⟩
  · rw [h, unlessStopped, ho]
  · rw [h, unlessStopped, ho]
    rfl
  · rw [h, unlessStopped]
    rcases ho with ho | ho <;> rw [ho]

theorem runLone_stops {s t u : State} {i : Instr} (h : step s = u.runLone i) (ht : exec i u.nextBundle = .next t) :
    Stops s t (step s = .next t.passed) := by
  rw [runLone, ht] at h
  exact stops_of_unlessStopped h id

/-- Of a pair the C half is tested first, the A half runs, and then the C half takes effect. -/
theorem runPair_stops {s x t u v : State} {c i : Instr} (h : step s = x.runPair c i)
    (ht : exec c x.nextBundle = .next t) :
    Stops s t (exec i { x.nextBundle with cur := { x.nextBundle.cur with isA := true } } = .next u →
      Stops s u (exec c { u with cur := x.nextBundle.cur } = .next v →
        Stops s v (step s = .next (v.passed.keepUndo x.me.tid x.fresh (x.cur.src, x.me.bounce))))) := by
  simp only [runPair, ht, Res.andThen] at h
  refine stops_of_unlessStopped h fun hA hu => ?_
  rw [hu] at hA
  refine stops_of_unlessStopped hA fun hC hv => ?_
  rw [hv] at hC
  exact stops_of_unlessStopped hC id

end State

/-- Settles O56: the step fetches and decodes the bundle, and runs it as `runLone` and `runPair` say. -/
theorem stepRunsTheBundle : Obligations.StepRunsTheBundle := by
  unfold Obligations.StepRunsTheBundle
  intro s p j a w c i t u v e h hw
  obtain ⟨hbad, hgood⟩ := State.step_fetches h hw
  have hl : ∀ k, (fetchedIn s p j false w).me.life ≠ .helper k := by
    obtain ⟨-, -, -, -, -, -, -, -, -, hl, -⟩ := h
    rw [State.fetchedIn_me]
    rcases hl with hl | hl <;> simp [hl]
  obtain ⟨hpair, hloneC, hloneA⟩ := State.runBundle_not_helper hl
  refine ⟨hbad e, fun hd ht => ?_, fun hd ht => ?_, fun hd ht => ?_⟩
  · exact State.runLone_stops ((hgood _ hd).trans (hloneC i)) ht
  · exact State.runLone_stops ((hgood _ hd).trans (hloneA i)) ht
  · have hs := State.runPair_stops (u := u) (v := v) ((hgood _ hd).trans (hpair c i)) ht
    rw [State.fetchedIn_me] at hs
    exact hs

end Sys2Proof.Machine
end

section
/-! SUPPORT. Loads of the scratchpad and the traps of a local address (R46, R156, R160), and the statement on them. -/

namespace Sys2Proof

/-! ### Bytes and the word they make (R3) -/

/-- A number's bits are those of its bytes, least significant first. -/
theorem testBit_ofBytes (bs : List Byte) (i : Nat) :
    (ofBytes bs).testBit i = (bs.getD (i / 8) 0).getLsbD (i % 8) := by
  induction bs generalizing i with
  | nil => simp [ofBytes]
  | cons b bs ih =>
    have hb : ofBytes (b :: bs) = 2 ^ 8 * ofBytes bs + b.toNat := by rw [ofBytes]; omega
    rw [hb, Nat.testBit_two_pow_mul_add _ b.isLt]
    split
    · rename_i h
      rw [Nat.div_eq_of_lt h, Nat.mod_eq_of_lt h, List.getD_cons_zero, BitVec.testBit_toNat]
    · rename_i h
      rw [ih, show i / 8 = (i - 8) / 8 + 1 by omega, show i % 8 = (i - 8) % 8 by omega, List.getD_cons_succ]

theorem ofBytes_lt (bs : List Byte) : ofBytes bs < 2 ^ (8 * bs.length) := by
  induction bs with
  | nil => decide
  | cons b bs ih =>
    have hb := b.isLt
    rw [ofBytes, List.length_cons, Nat.mul_succ, Nat.pow_add]
    omega

@[simp] theorem toBytes_length (n w : Nat) : (toBytes n w).length = n := by
  induction n generalizing w with
  | zero => rfl
  | succ n ih => rw [toBytes, List.length_cons, ih]

namespace Machine.Memory

@[simp] theorem readN_length (m : List Host.Cell) (a n : Nat) : (readN m a n).length = n := by
  induction n generalizing a with
  | zero => rfl
  | succ n ih => rw [readN, List.length_cons, ih]

theorem readN_getD (m : List Host.Cell) (a : Nat) {n k : Nat} (h : k < n) : (readN m a n).getD k 0 = read m (a + k) := by
  induction n generalizing a k with
  | zero => omega
  | succ n ih =>
    cases k with
    | zero => rfl
    | succ k => rw [readN, List.getD_cons_succ, ih _ (by omega), Nat.add_right_comm, Nat.add_assoc]

theorem readN_add (m : List Host.Cell) (a n k : Nat) : readN m a (n + k) = readN m a n ++ readN m (a + n) k := by
  induction n generalizing a with
  | zero => simp [readN]
  | succ n ih => rw [Nat.add_right_comm, readN, ih, readN, List.cons_append, Nat.add_right_comm, Nat.add_assoc]

end Machine.Memory

namespace Machine

/-- A load extends the number that its bytes make (R160). -/
theorem loadWord_eq (sx : Bool) (bs : List Byte) : loadWord sx bs =
    if sx then (BitVec.ofNat (8 * bs.length) (ofBytes bs)).signExtend 64 else BitVec.ofNat 64 (ofBytes bs) := by
  cases sx with
  | false => simp [loadWord]
  | true =>
    have hn := Nat.mod_eq_of_lt (ofBytes_lt bs)
    simp only [loadWord, BitVec.signExtend, BitVec.toInt_eq_msb_cond, BitVec.msb_eq_decide, BitVec.toNat_ofNat, hn,
      Bool.true_and, if_true]
    split
    · simp
    · exact (BitVec.ofInt_natCast _ _).symm

/-- A loaded word: the bits of the bytes read, then zeros or copies of the top one. -/
theorem getLsbD_loadWord_readN (sx : Bool) (m : List Host.Cell) (a : Nat) {n i : Nat} (hn : 0 < n) (hi : i < 64) :
    (loadWord sx (Memory.readN m a n)).getLsbD i =
      if i < 8 * n then (Memory.read m (a + i / 8)).getLsbD (i % 8)
      else sx && (Memory.read m (a + n - 1)).getLsbD 7 := by
  have hbit {k : Nat} (h : k < 8 * n) :
      (ofBytes (Memory.readN m a n)).testBit k = (Memory.read m (a + k / 8)).getLsbD (k % 8) := by
    rw [testBit_ofBytes, Memory.readN_getD _ _ (by omega)]
  rw [loadWord_eq]
  by_cases h : i < 8 * n
  · rw [if_pos h, ← hbit h]
    cases sx <;>
      simp only [BitVec.getLsbD_signExtend, BitVec.getLsbD_ofNat, Memory.readN_length, h, hi, decide_true, Bool.true_and,
        if_true, Bool.false_eq_true, if_false]
  · have hzero : (ofBytes (Memory.readN m a n)).testBit i = false := by
      rw [testBit_ofBytes, List.getD_eq_getElem?_getD, List.getElem?_eq_none (by rw [Memory.readN_length]; omega)]
      exact BitVec.getLsbD_zero
    have hsign : (ofBytes (Memory.readN m a n)).testBit (8 * n - 1) = (Memory.read m (a + n - 1)).getLsbD 7 := by
      rw [hbit (by omega), show a + (8 * n - 1) / 8 = a + n - 1 by omega, show (8 * n - 1) % 8 = 7 by omega]
    rw [if_neg h, ← hsign]
    cases sx <;>
      simp only [BitVec.getLsbD_signExtend, BitVec.getLsbD_ofNat, BitVec.msb_eq_getLsbD_last, Memory.readN_length, h, hi,
        hzero, show 8 * n - 1 < 8 * n by omega, decide_true, Bool.true_and, Bool.false_and, if_true, Bool.false_eq_true,
        if_false]

namespace State

variable (s : State)

/-! ### The traps of a local address (R46, R156) -/

theorem resolve_unaligned {a : Word} {al : Nat} (n : Nat) (h : a.toNat % al ≠ 0) :
    s.resolve a al n = .trap .align a := if_pos h

/-- An address that no rule reads traps, in a helper too. -/
theorem resolve_formless {a : Word} {al : Nat} (n : Nat) (h : a.toNat % al = 0) (hn : s.addrForm a = none) :
    s.resolve a al n = .trap .localRange a := by
  rw [resolve, if_neg (fun hne => hne h), hn]
  exact ite_self _

theorem addrForm_far {a : Word} (h : a.getLsbD 63 = false) (hf : 2 ^ 18 ≤ a.toNat) : s.addrForm a = none := by
  rw [← bit_eq_getLsbD, bit, beq_eq_false_iff_ne] at h
  have hb : bits a 62 18 ≠ 0 := by
    rw [bits]
    omega
  rw [addrForm, if_neg (by simpa [bit] using h), if_neg hb]

theorem addrForm_remote_none {a : Word} (h : a.getLsbD 63 = true)
    (hf : a.toNat / 2 ^ 60 % 8 ≠ 0 ∨ a.toNat / 2 ^ 18 % 64 ≠ 0) : s.addrForm a = none := by
  have hb : ¬(bits a 62 60 = 0 ∧ bits a 23 18 = 0) := Decidable.not_and_iff_not_or_not.mpr hf
  simpa [addrForm, remoteAddr, bit_eq_getLsbD, h] using hb

theorem bit_63_near {a : Word} (h : a.toNat < 2 ^ 18) : bit a 63 = false := by
  rw [bit, beq_eq_false_iff_ne]
  omega

/-- An address below 2^18 is an offset in the segment that the thread occupies, or of its home vcore. -/
theorem addrForm_near {a : Word} (h : a.toNat < 2 ^ 18) : s.addrForm a = some (s.localVcore, a.toNat) := by
  have hb : bits a 62 18 = 0 ∧ bits a 17 0 = a.toNat := by
    rw [bits, bits]
    omega
  simp [addrForm, bit_63_near h, hb]

/-- Bytes that leave the segment of the occupied vcore trap. -/
theorem resolve_outside {a : Word} {n : Nat} (ha : a.toNat % n = 0) (h : a.toNat < 2 ^ 18)
    (hv : s.localVcore = s.me.occ) (hl : segLimit s.cur.src.lseg < a.toNat + n) :
    s.resolve a n n = .trap .localRange a := by
  simp [resolve, ha, bit_63_near h, s.addrForm_near h, hv, hl]

/-! ### Plain loads and stores -/

theorem load_here (i : Instr) {base : Reg} {off : BitVec 12} {n pa : Nat} (k : State → List Byte → State)
    (hr : s.resolve (s.ea base off) n n = .here pa) (hp : s.spadPoisoned s.cur.pos pa n = false) :
    s.load i base off n k = k s (Memory.readN (s.core s.cur.pos).spad pa n) := by
  simp [load, withAddr, hr, hp, spadRead]

theorem load_traps (i : Instr) {base : Reg} {off : BitVec 12} {n : Nat} {c : Cause} {v : Word}
    (k : State → List Byte → State) (hr : s.resolve (s.ea base off) n n = .trap c v) :
    s.load i base off n k = s.trap c v := by
  simp [load, withAddr, hr]

theorem store_traps (i : Instr) {base : Reg} {off : BitVec 12} {bs : List Byte} {n : Nat} {c : Cause} {v : Word}
    (hn : bs.length = n) (h0 : s.cur.phase = 0) (hr : s.resolve (s.ea base off) n n = .trap c v) :
    s.store i base off bs = s.trap c v := by
  subst hn
  simp [store, withAddr, h0, hr]

end State

theorem exec_ld_here {s : State} {rd base : Reg} {sx : Bool} {z : Size} {off : BitVec 12} {pa : Nat}
    (hr : s.resolve (s.ea base off) (Size.bytes z) (Size.bytes z) = .here pa)
    (hp : s.spadPoisoned s.cur.pos pa (Size.bytes z) = false) :
    exec (.ld rd base sx z off) s =
      .next (s.setG rd (loadWord sx (Memory.readN (s.core s.cur.pos).spad pa (Size.bytes z)))) := by
  rw [exec, execLd, s.load_here _ _ hr hp]

theorem exec_ldp_here {s : State} {rd base : Reg} {off : BitVec 12} {pa : Nat}
    (hr : s.resolve (s.ea base off) 16 16 = .here pa) (hp : s.spadPoisoned s.cur.pos pa 16 = false) :
    exec (.ldp rd base off) s =
      .next ((s.setG rd (loadWord false (Memory.readN (s.core s.cur.pos).spad pa 8))).setG (rd + 1)
        (loadWord false (Memory.readN (s.core s.cur.pos).spad (pa + 8) 8))) := by
  have hsplit := Memory.readN_add (s.core s.cur.pos).spad pa 8 8
  rw [exec, execLdp, s.load_here _ _ hr hp, hsplit, List.take_left' (Memory.readN_length _ _ _),
    List.drop_left' (Memory.readN_length _ _ _)]
  rfl

/-- The plain loads and stores of these operands, each with its size in bytes (R160). -/
def plainAccesses (rd base : Reg) (sx : Bool) (off : BitVec 12) : List (Instr × Nat) :=
  [Size.b, .h, .w, .d].map (fun z => (Instr.ld rd base sx z off, Size.bytes z)) ++
    [Size.b, .h, .w, .d].map (fun z => (Instr.st rd base z off, Size.bytes z)) ++
    [(.ldp rd base off, 16), (.stp rd base off, 16)]

/-- A plain access at issue whose address traps takes that trap and does nothing else. -/
theorem exec_plain_traps {s : State} {rd base : Reg} {sx : Bool} {off : BitVec 12} {i : Instr} {n : Nat}
    (hi : (i, n) ∈ plainAccesses rd base sx off) (h0 : s.cur.phase = 0) {c : Cause} {v : Word}
    (hr : s.resolve (s.ea base off) n n = .trap c v) : exec i s = .next (s.trap c v) := by
  simp only [plainAccesses, List.mem_append, List.mem_map, List.mem_cons, List.not_mem_nil, or_false, Prod.mk.injEq] at hi
  rcases hi with (⟨z, -, rfl, rfl⟩ | ⟨z, -, rfl, rfl⟩) | ⟨rfl, rfl⟩ | ⟨rfl, rfl⟩
  · exact congrArg _ (s.load_traps _ _ hr)
  · exact congrArg _ (s.store_traps _ (toBytes_length _ _) h0 hr)
  · exact congrArg _ (s.load_traps _ _ hr)
  · exact congrArg _ (s.store_traps _ (by rw [List.length_append, toBytes_length, toBytes_length]) h0 hr)

/-- Settles O12: a load is the word that `loadWord` makes of the bytes where its address leads, and of the addresses
that `resolve` refuses each plain access takes the trap. -/
theorem localLoads : Obligations.LocalLoads := by
  unfold Obligations.LocalLoads
  refine ⟨fun s rd base sx off pa => ⟨fun z n hz hr hp => ?_, fun hr hp _ => ?_⟩,
    fun s rd base sx off n i ea hi he h0 => ?_⟩
  · obtain ⟨rfl, hn⟩ : n = Size.bytes z ∧ 0 < Size.bytes z := by
      revert hz
      cases z <;> simp +contextual [Size.bytes]
    exact ⟨_, exec_ld_here hr hp, fun i hi => getLsbD_loadWord_readN sx _ pa hn hi⟩
  · refine ⟨_, _, exec_ldp_here hr hp, fun i hi => ⟨?_, ?_⟩⟩
    · exact (getLsbD_loadWord_readN false _ pa (by decide) hi).trans (if_pos hi)
    · exact (getLsbD_loadWord_readN false _ (pa + 8) (by decide) hi).trans (if_pos hi)
  · have htrap {c : Cause} (h : s.resolve ea n n = .trap c ea) : exec i s = .next (s.trap c ea) :=
      exec_plain_traps hi h0 (he ▸ h)
    exact ⟨fun ha => htrap (s.resolve_unaligned n ha),
      fun ha hs hf => htrap (s.resolve_formless n ha (s.addrForm_far hs hf)),
      fun ha hs hf => htrap (s.resolve_formless n ha (s.addrForm_remote_none hs hf)),
      fun ha hs hv hl => htrap (s.resolve_outside ha hs hv hl)⟩

end Machine
end Sys2Proof
end

section
/-! SUPPORT. The interchange formats binary32 and binary64 (R76, R79): the fields of an encoding and its value, and what
Round makes of a value (R81); the statement on rounding. -/

namespace Sys2Proof.Machine

/-! ### Rounding to an integer and to a significand (R81) -/

theorem ite_succ_le (c : Prop) [Decidable c] (q : Nat) : (if c then q + 1 else q) ≤ q + 1 := by
  split <;> omega

theorem roundShift_le (mode : Mode) (neg : Bool) (m sh : Nat) : roundShift mode neg m sh ≤ m / 2 ^ sh + 1 := by
  exact ite_succ_le _ _

/-- A value rounded to p + 1 significant bits has no more, or has become the next power of two. -/
theorem roundSig_le (mode : Mode) (p : Nat) (low : Int) (neg : Bool) (m : Nat) (e : Int) :
    (roundSig mode p low neg m e).1 ≤ 2 ^ (p + 1) := by
  have hm : m < 2 ^ (Nat.log2 m + 1) := Nat.lt_log2_self
  unfold roundSig
  dsimp only
  generalize hq : max (e + (Nat.log2 m : Int) - p) low = q
  split
  · rename_i hle
    have hexp : Nat.log2 m + 1 + (e - q).toNat ≤ p + 1 := by omega
    calc m * 2 ^ (e - q).toNat ≤ 2 ^ (Nat.log2 m + 1) * 2 ^ (e - q).toNat := Nat.mul_le_mul_right _ (Nat.le_of_lt hm)
      _ = 2 ^ (Nat.log2 m + 1 + (e - q).toNat) := (Nat.pow_add _ _ _).symm
      _ ≤ 2 ^ (p + 1) := Nat.pow_le_pow_right (by decide) hexp
  · rename_i hgt
    have hexp : Nat.log2 m + 1 ≤ p + 1 + (q - e).toNat := by omega
    have hlt : m < 2 ^ (p + 1) * 2 ^ (q - e).toNat := by
      rw [← Nat.pow_add]
      exact Nat.lt_of_lt_of_le hm (Nat.pow_le_pow_right (by decide) hexp)
    exact Nat.le_trans (roundShift_le _ _ _ _) (Nat.div_lt_of_lt_mul (Nat.mul_comm _ _ ▸ hlt))

/-- A value that stands at the exponent it would be rounded to is exact there. -/
theorem roundSig_exact (mode : Mode) {p : Nat} {low : Int} (neg : Bool) {m : Nat} {e : Int}
    (h : max (e + Nat.log2 m - p) low = e) : roundSig mode p low neg m e = (m, e) := by
  simp [roundSig, h]

namespace FFmt

/-- A rounded value with the carry out of its significand taken into the exponent. -/
def rounded (f : FFmt) (mode : Mode) (neg : Bool) (m : Nat) (e : Int) : Nat × Int :=
  let r := roundSig mode f.p (1 - f.bias - f.p) neg m e
  if r.1 = 2 ^ (f.p + 1) then (2 ^ f.p, r.2 + 1) else r

/-- The encoding of a rounded value, with the overflow rule. -/
def pack (f : FFmt) (mode : Mode) (sat neg : Bool) (y : Nat × Int) : Nat :=
  if y.1 < 2 ^ f.p then f.signed neg y.1
  else if y.2 + f.p > f.emax ∨ y.2 + f.p = f.emax ∧ y.1 > f.top then
    f.signed neg (if sat || !f.ieee || !overflowsToInf mode neg then f.maxCode else f.infCode)
  else f.signed neg ((y.2 + f.p + f.bias).toNat * 2 ^ f.p + (y.1 - 2 ^ f.p))

theorem round_fin (f : FFmt) (mode : Mode) (sat neg : Bool) {m : Nat} (e : Int) (hm : m ≠ 0) :
    f.round mode sat (.fin neg m e) = f.pack mode sat neg (f.rounded mode neg m e) := by
  simp only [round, hm, if_false, pack, rounded, Bool.or_eq_true, Bool.and_eq_true, decide_eq_true_eq]

@[simp] theorem round_zero (f : FFmt) (mode : Mode) (sat neg : Bool) (e : Int) :
    f.round mode sat (.fin neg 0 e) = f.signed neg 0 := by simp [round]

theorem rounded_lt (f : FFmt) (mode : Mode) (neg : Bool) (m : Nat) (e : Int) :
    (f.rounded mode neg m e).1 < 2 ^ (f.p + 1) := by
  have hle := roundSig_le mode f.p (1 - f.bias - f.p) neg m e
  unfold rounded
  dsimp only
  split
  · exact Nat.pow_lt_pow_right (by decide) (Nat.lt_succ_self _)
  · rename_i hne
    exact Nat.lt_of_le_of_ne hle hne

theorem rounded_exact (f : FFmt) (mode : Mode) (neg : Bool) {m : Nat} {e : Int} (hm : m < 2 ^ (f.p + 1))
    (h : max (e + Nat.log2 m - f.p) (1 - f.bias - f.p) = e) : f.rounded mode neg m e = (m, e) := by
  simp [rounded, roundSig_exact mode neg h, Nat.ne_of_lt hm]

/-- A fraction at the lowest exponent is its own Round. -/
theorem round_subnormal (f : FFmt) (mode : Mode) (neg : Bool) {m : Nat} (hm : m < 2 ^ f.p) :
    f.round mode false (.fin neg m (1 - f.bias - f.p)) = f.signed neg m := by
  by_cases h0 : m = 0
  · rw [h0, round_zero]
  · have hlog : Nat.log2 m < f.p := (Nat.log2_lt h0).mpr hm
    have hp := Nat.pow_succ (n := 2) (m := f.p)
    rw [f.round_fin _ _ _ _ h0, f.rounded_exact _ _ (by omega) (by omega), pack, if_pos hm]

/-! ### The fields of an encoding (R76) -/

/-- The sign of an encoding. -/
def negOf (f : FFmt) (b : Nat) : Bool := b / 2 ^ (f.eb + f.p) % 2 == 1

/-- The biased exponent of an encoding. -/
def expOf (f : FFmt) (b : Nat) : Nat := b / 2 ^ f.p % 2 ^ f.eb

/-- The fraction of an encoding. -/
def fracOf (f : FFmt) (b : Nat) : Nat := b % 2 ^ f.p

theorem fracOf_lt (f : FFmt) (b : Nat) : f.fracOf b < 2 ^ f.p := Nat.mod_lt _ (Nat.two_pow_pos _)

theorem expOf_lt (f : FFmt) (b : Nat) : f.expOf b < 2 ^ f.eb := Nat.mod_lt _ (Nat.two_pow_pos _)

/-- An encoding is its sign, its exponent and its fraction side by side. -/
theorem signed_fields (f : FFmt) {b : Nat} (h : b < 2 ^ (f.eb + f.p + 1)) :
    f.signed (f.negOf b) (f.expOf b * 2 ^ f.p + f.fracOf b) = b := by
  have hlow := Nat.div_add_mod b (2 ^ f.p)
  have hmid := Nat.div_add_mod (b / 2 ^ f.p) (2 ^ f.eb)
  have hsign : b / 2 ^ (f.eb + f.p) < 2 := Nat.div_lt_of_lt_mul h
  rw [Nat.div_div_eq_div_mul, ← Nat.pow_add, Nat.add_comm f.p] at hmid
  have hb : b = 2 ^ (f.eb + f.p) * (b / 2 ^ (f.eb + f.p)) + (f.expOf b * 2 ^ f.p + f.fracOf b) := by
    rw [expOf, fracOf, ← Nat.add_assoc]
    calc b = 2 ^ f.p * (2 ^ f.eb * (b / 2 ^ (f.eb + f.p)) + b / 2 ^ f.p % 2 ^ f.eb) + b % 2 ^ f.p := by rw [hmid, hlow]
      _ = _ := by rw [Nat.mul_add, ← Nat.mul_assoc, ← Nat.pow_add, Nat.add_comm f.p, Nat.mul_comm (2 ^ f.p) (_ % _)]
  rcases Nat.le_one_iff_eq_zero_or_eq_one.mp (Nat.le_of_lt_succ hsign) with h0 | h1
  · rw [h0] at hb
    simpa [signed, negOf, h0] using hb.symm
  · rw [h1] at hb
    simpa [signed, negOf, h1] using hb.symm

theorem signed_lt (f : FFmt) (neg : Bool) {b : Nat} (h : b < 2 ^ (f.eb + f.p)) : f.signed neg b < 2 ^ (f.eb + f.p + 1) := by
  rw [signed, Nat.pow_succ]
  split <;> omega

theorem fields_lt (f : FFmt) {x y : Nat} (hx : x < 2 ^ f.eb) (hy : y < 2 ^ f.p) : x * 2 ^ f.p + y < 2 ^ (f.eb + f.p) :=
  calc x * 2 ^ f.p + y < x * 2 ^ f.p + 2 ^ f.p := Nat.add_lt_add_left hy _
    _ = (x + 1) * 2 ^ f.p := (Nat.succ_mul _ _).symm
    _ ≤ 2 ^ f.eb * 2 ^ f.p := Nat.mul_le_mul_right _ hx
    _ = 2 ^ (f.eb + f.p) := (Nat.pow_add _ _ _).symm

theorem infCode_lt (f : FFmt) : f.infCode < 2 ^ (f.eb + f.p) := by
  have hx : 2 ^ f.eb - 1 < 2 ^ f.eb := Nat.sub_lt (Nat.two_pow_pos _) Nat.one_pos
  exact f.fields_lt hx (Nat.two_pow_pos f.p)

/-- An IEEE interchange format: infinities and NaNs at the largest exponent, and every other encoding finite. -/
structure Interchange (f : FFmt) : Prop where
  ieee : f.ieee = true
  hasNan : f.hasNan = true
  frac : 1 ≤ f.p
  emax : f.emax + f.bias = (2 ^ f.eb : Nat) - 2
  exps : 2 ≤ 2 ^ f.eb
  top : f.top = 2 ^ (f.p + 1) - 1

theorem interchange_f32 : f32.Interchange := ⟨rfl, rfl, by decide, by decide, by decide, by decide⟩

theorem interchange_f64 : f64.Interchange := ⟨rfl, rfl, by decide, by decide, by decide, by decide⟩

section
variable {f : FFmt} (hf : f.Interchange)
include hf

/-- The value of an encoding by its fields. -/
theorem value_fields (b : Nat) : f.value b =
    if f.expOf b = 2 ^ f.eb - 1 then (if f.fracOf b = 0 then .inf (f.negOf b) else .nan)
    else if f.expOf b = 0 then .fin (f.negOf b) (f.fracOf b) (1 - f.bias - f.p)
    else .fin (f.negOf b) (2 ^ f.p + f.fracOf b) (f.expOf b - f.bias - f.p) := by
  simp only [value, hf.ieee, Bool.true_and, Bool.not_true, Bool.and_false, Bool.false_and, beq_iff_eq]
  rfl

/-! ### Round gives encodings (R81) -/

theorem emax_toNat : (f.emax + f.bias).toNat = 2 ^ f.eb - 2 := by
  have := hf.emax
  have := hf.exps
  omega

theorem maxCode_lt : f.maxCode < 2 ^ (f.eb + f.p) := by
  have hp := Nat.pow_succ (n := 2) (m := f.p)
  have hpos := Nat.two_pow_pos f.p
  have hexps := hf.exps
  rw [maxCode, emax_toNat hf, hf.top]
  exact f.fields_lt (by omega) (by omega)

theorem nanCode_lt : f.nanCode < 2 ^ (f.eb + f.p) := by
  have hexps := hf.exps
  have hfrac := hf.frac
  simp only [nanCode, hf.hasNan, hf.ieee, Bool.not_true, Bool.false_eq_true, if_false, if_true]
  exact f.fields_lt (by omega) (Nat.pow_lt_pow_right (by decide) (by omega))

theorem pack_lt (mode : Mode) (sat neg : Bool) {y : Nat × Int} (hy : y.1 < 2 ^ (f.p + 1)) :
    f.pack mode sat neg y < 2 ^ (f.eb + f.p + 1) := by
  have hp := Nat.pow_succ (n := 2) (m := f.p)
  unfold pack
  split
  · rename_i hsub
    exact f.signed_lt _ (Nat.lt_of_lt_of_le hsub (Nat.pow_le_pow_right (by decide) (by omega)))
  split
  · refine f.signed_lt _ ?_
    split
    · exact maxCode_lt hf
    · exact f.infCode_lt
  · rename_i hfin
    have hemax := hf.emax
    have hexps := hf.exps
    exact f.signed_lt _ (f.fields_lt (by omega) (by omega))

/-- Round of any exact value is an encoding of the format's width. -/
theorem round_lt (mode : Mode) (sat : Bool) (v : FVal) : f.round mode sat v < 2 ^ (f.eb + f.p + 1) := by
  match v with
  | .nan => exact Nat.lt_trans (nanCode_lt hf) (Nat.pow_lt_pow_right (by decide) (Nat.lt_succ_self _))
  | .inf neg =>
    refine f.signed_lt _ ?_
    split
    · exact maxCode_lt hf
    · exact f.infCode_lt
  | .fin neg m e =>
    by_cases hm : m = 0
    · rw [hm, round_zero]
      exact f.signed_lt _ (Nat.two_pow_pos _)
    · rw [f.round_fin mode sat neg e hm]
      exact pack_lt hf mode sat neg (f.rounded_lt mode neg m e)

/-! ### An encoding is its own value's Round (R81) -/

theorem round_inf (mode : Mode) (neg : Bool) :
    f.round mode false (.inf neg) = f.signed neg ((2 ^ f.eb - 1) * 2 ^ f.p) := by
  simp [round, hf.ieee, infCode]

theorem round_normal (mode : Mode) (neg : Bool) {m x : Nat} (hm : m < 2 ^ f.p) (h0 : x ≠ 0) (hx : x < 2 ^ f.eb - 1) :
    f.round mode false (.fin neg (2 ^ f.p + m) (x - f.bias - f.p)) = f.signed neg (x * 2 ^ f.p + m) := by
  have hp := Nat.pow_succ (n := 2) (m := f.p)
  have hne : 2 ^ f.p + m ≠ 0 := by omega
  have hlog : Nat.log2 (2 ^ f.p + m) = f.p := (Nat.log2_eq_iff hne).mpr ⟨by omega, by omega⟩
  have hemax := hf.emax
  have htop := hf.top
  rw [f.round_fin _ _ _ _ hne, f.rounded_exact _ _ (by omega) (by omega), pack, if_neg (by omega), if_neg (by omega)]
  congr 2
  · congr 1
    dsimp only
    omega
  · exact Nat.add_sub_cancel_left _ _

theorem round_value (mode : Mode) {b : Nat} (hb : b < 2 ^ (f.eb + f.p + 1)) (hn : f.value b ≠ .nan) :
    f.round mode false (f.value b) = b := by
  have hfields := f.signed_fields hb
  have hexp := f.expOf_lt b
  have hfrac := f.fracOf_lt b
  rw [value_fields hf] at hn ⊢
  split at hn
  · rename_i htop
    rw [if_pos htop]
    split at hn
    · rename_i hzero
      rwa [if_pos hzero, round_inf hf, ← htop, ← Nat.add_zero (_ * _), ← hzero]
    · exact absurd rfl hn
  · rename_i htop
    rw [if_neg htop]
    split
    · rename_i hzero
      rwa [f.round_subnormal mode _ hfrac, ← Nat.zero_add (f.fracOf b), ← Nat.zero_mul (2 ^ f.p), ← hzero]
    · rename_i hzero
      rwa [round_normal hf mode _ hfrac hzero (by omega)]

end

end FFmt

/-- Settles O6: no branch of Round leaves the fields of the format, and at an encoding's own exponent its significand
is exact. -/
theorem roundingGivesEncodings : Obligations.RoundingGivesEncodings := by
  unfold Obligations.RoundingGivesEncodings
  intro m F n hF
  obtain ⟨hf, rfl⟩ : F.Interchange ∧ n = F.eb + F.p + 1 := by
    simp only [List.mem_cons, Prod.mk.injEq, List.not_mem_nil, or_false] at hF
    obtain ⟨rfl, rfl⟩ | ⟨rfl, rfl⟩ := hF
    · exact ⟨FFmt.interchange_f64, rfl⟩
    · exact ⟨FFmt.interchange_f32, rfl⟩
  exact ⟨FFmt.round_lt hf m false, fun b hb hn => FFmt.round_value hf m hb hn⟩

end Sys2Proof.Machine
end

section
/-! SUPPORT. The scalar floating arithmetic (R94) and its NaNs (R82), and the statement on it. -/

namespace Sys2Proof.Machine

/-! ### The formats and modes of an instruction (R57, R80, R94) -/

/-- A selector and the format that it names. -/
theorem fmtOf_of_mem {f : FpSel} {F : FFmt} (h : (f, F) ∈ [(FpSel.d, f64), (.s, f32)]) : F = fmtOf f := by
  simp only [List.mem_cons, Prod.mk.injEq, List.not_mem_nil, or_false] at h
  obtain ⟨rfl, rfl⟩ | ⟨rfl, rfl⟩ := h <;> rfl

/-- The canonical NaN of a selector's format in a register (R82). -/
def canonicalNan (f : FpSel) : Word := BitVec.ofNat 64 (fmtOf f).nanCode

theorem fmtOf_canonicalNan_of_mem {f : FpSel} {F : FFmt} {q : Word}
    (h : (f, F, q) ∈ [(FpSel.d, f64, (0x7FF8000000000000 : Word)), (.s, f32, 0x7FC00000)]) :
    F = fmtOf f ∧ q = canonicalNan f := by
  simp only [List.mem_cons, Prod.mk.injEq, List.not_mem_nil, or_false] at h
  obtain ⟨rfl, rfl, rfl⟩ | ⟨rfl, rfl, rfl⟩ := h
  · exact ⟨rfl, by decide⟩
  · exact ⟨rfl, by decide⟩

/-- The mode of a rounding field: the field's own, or RMODE's. -/
theorem mode_of_mem {s : State} {r : Rnd} {m : Mode}
    (h : (r, m) ∈ [(Rnd.dyn, Mode.ofCode (bits s.cur.src.rmode 1 0)), (.rne, .rne), (.rtz, .rtz), (.rup, .rup),
      (.rdn, .rdn)]) : m = s.mode r := by
  simp only [List.mem_cons, Prod.mk.injEq, List.not_mem_nil, or_false] at h
  obtain ⟨rfl, rfl⟩ | ⟨rfl, rfl⟩ | ⟨rfl, rfl⟩ | ⟨rfl, rfl⟩ | ⟨rfl, rfl⟩ := h <;> rfl

@[simp] theorem fres_nan (f : FpSel) (m : Mode) : fres f m .nan = canonicalNan f := rfl

/-! ### What is a NaN among exact results (R82, R94) -/

namespace FVal

variable (m : Mode)

@[simp] theorem nan_add (b : FVal) : FVal.nan.add m b = .nan := rfl
@[simp] theorem add_nan (a : FVal) : a.add m .nan = .nan := by cases a <;> rfl
@[simp] theorem nan_mul (b : FVal) : FVal.nan.mul b = .nan := rfl
@[simp] theorem mul_nan (a : FVal) : a.mul .nan = .nan := by cases a <;> rfl
@[simp] theorem nan_div (b : FVal) : FVal.nan.div b = .nan := rfl
@[simp] theorem div_nan (a : FVal) : a.div .nan = .nan := by cases a <;> rfl
@[simp] theorem neg_nan : FVal.nan.neg = .nan := rfl
@[simp] theorem neg_inf (t : Bool) : (FVal.inf t).neg = .inf (!t) := rfl
@[simp] theorem isNan_nan : FVal.nan.isNan = true := rfl

theorem isNan_eq_false {a : FVal} : a.isNan = false ↔ a ≠ .nan := by cases a <;> simp [isNan]

/-- Infinities of opposite signs have no sum. -/
@[simp] theorem inf_add_inf_not (t : Bool) : (FVal.inf t).add m (.inf !t) = .nan := by cases t <;> rfl

/-- A zero times an infinity is no number. -/
@[simp] theorem inf_mul_zero (t u : Bool) (e : Int) : (FVal.inf t).mul (.fin u 0 e) = .nan := rfl
@[simp] theorem zero_mul_inf (t u : Bool) (e : Int) : (FVal.fin u 0 e).mul (.inf t) = .nan := rfl

/-- Infinities have no quotient, and zeros have none. -/
@[simp] theorem inf_div_inf (t u : Bool) : (FVal.inf t).div (.inf u) = .nan := rfl
@[simp] theorem zero_div_zero (t u : Bool) (d e : Int) : (FVal.fin t 0 d).div (.fin u 0 e) = .nan := rfl

/-- A NaN, minus infinity and the numbers below zero have no root. -/
theorem sqrt_eq_nan {a : FVal} (h : a = .nan ∨ a = .inf true ∨ ∃ k e, a = .fin true k e ∧ k ≠ 0) : a.sqrt = .nan := by
  obtain rfl | rfl | ⟨k, e, rfl, hk⟩ := h
  · rfl
  · rfl
  · simp [sqrt, hk]

end FVal

/-! ### The instructions (R94, R95) -/

section
variable (s : State) (rd ra rb rc : Reg) (r : Rnd) (f : FpSel)

theorem exec_fadd : exec (.fadd rd ra rb r f) s =
    .next (s.setG rd (fres f (s.mode r) ((fval f (s.g ra)).add (s.mode r) (fval f (s.g rb))))) := rfl
theorem exec_fsub : exec (.fsub rd ra rb r f) s =
    .next (s.setG rd (fres f (s.mode r) ((fval f (s.g ra)).add (s.mode r) (fval f (s.g rb)).neg))) := rfl
theorem exec_fmul : exec (.fmul rd ra rb r f) s =
    .next (s.setG rd (fres f (s.mode r) ((fval f (s.g ra)).mul (fval f (s.g rb))))) := rfl
theorem exec_ffma : exec (.ffma rd ra rb rc r f) s =
    .next (s.setG rd (fres f (s.mode r)
      (((fval f (s.g ra)).mul (fval f (s.g rb))).add (s.mode r) (fval f (s.g rc))))) := rfl
theorem exec_fdiv : exec (.fdiv rd ra rb r f) s =
    .next (s.setG rd (fres f (s.mode r) ((fval f (s.g ra)).div (fval f (s.g rb))))) := rfl
theorem exec_fsqrt : exec (.fsqrt rd ra r f) s =
    .next (s.setG rd (fres f (s.mode r) (fval f (s.g ra)).sqrt)) := rfl
theorem exec_fmin : exec (.fmin rd ra rb f) s =
    .next (s.setG rd (BitVec.ofNat 64 ((fmtOf f).minMax false (s.g ra).toNat (s.g rb).toNat))) := rfl
theorem exec_fmax : exec (.fmax rd ra rb f) s =
    .next (s.setG rd (BitVec.ofNat 64 ((fmtOf f).minMax true (s.g ra).toNat (s.g rb).toNat))) := rfl

end

theorem FFmt.minMax_nan (f : FFmt) (isMax : Bool) {a b : Nat} (h : f.value a = .nan ∨ f.value b = .nan) :
    f.minMax isMax a b = f.nanCode := by
  refine if_pos ?_
  obtain h | h := h <;> simp [h]

/-- Settles O5: each instruction is one Round of the exact result, and the NaNs are those of the exact results. -/
theorem floatArithmetic : Obligations.FloatArithmetic := by
  unfold Obligations.FloatArithmetic
  refine ⟨fun s rd ra rb rc r f F m a b c hF hm ha hb hc => ?_, fun s rd ra rb rc r f F q a b c hF ha hb hc => ?_⟩
  · obtain rfl := fmtOf_of_mem hF
    obtain rfl := mode_of_mem hm
    subst ha hb hc
    exact ⟨exec_fadd s rd ra rb r f, exec_fsub s rd ra rb r f, exec_fmul s rd ra rb r f, exec_ffma s rd ra rb rc r f,
      exec_fdiv s rd ra rb r f, exec_fsqrt s rd ra r f⟩
  · obtain ⟨rfl, rfl⟩ := fmtOf_canonicalNan_of_mem hF
    replace ha : fval f (s.g ra) = a := ha.symm
    replace hb : fval f (s.g rb) = b := hb.symm
    replace hc : fval f (s.g rc) = c := hc.symm
    rw [exec_fadd, exec_fsub, exec_fmul, exec_ffma, exec_fdiv, exec_fsqrt, ha, hb, hc]
    refine ⟨fun h => ?_, fun h => ?_, ?_, ?_, ?_, ?_, ?_⟩
    · have hmin (isMax : Bool) := (fmtOf f).minMax_nan isMax (ha ▸ hb ▸ h)
      rw [exec_fmin, exec_fmax, hmin, hmin]
      obtain rfl | rfl := h <;> simp [canonicalNan]
    · rw [FVal.sqrt_eq_nan h, fres_nan]
    · rintro ⟨t, rfl, rfl⟩
      rw [FVal.inf_add_inf_not, fres_nan]
    · rintro ⟨t, rfl, rfl⟩
      rw [FVal.neg_inf, FVal.inf_add_inf_not, fres_nan]
    · rintro (⟨t, u, e, rfl, rfl⟩ | ⟨t, u, e, rfl, rfl⟩)
      · rw [FVal.inf_mul_zero, FVal.nan_add, fres_nan]
        exact ⟨rfl, rfl⟩
      · rw [FVal.zero_mul_inf, FVal.nan_add, fres_nan]
        exact ⟨rfl, rfl⟩
    · rintro (rfl | ⟨t, hab, rfl⟩)
      · rw [FVal.add_nan, fres_nan]
      · rw [hab, FVal.inf_add_inf_not, fres_nan]
    · rintro (⟨t, u, rfl, rfl⟩ | ⟨t, u, d, e, rfl, rfl⟩)
      · rw [FVal.inf_div_inf, fres_nan]
      · rw [FVal.zero_div_zero, fres_nan]

end Sys2Proof.Machine
end

section
/-! SUPPORT. Floating comparisons, classes, minima and conversions (R85, R95-R98), and the statement on them. -/

namespace Sys2Proof.Machine

open Sys2Proof.Claim

/-! ### Encodings in a register (R79) -/

/-- The bits above a format's width do not bear on the value (R79). -/
theorem FFmt.value_mod (f : FFmt) (b : Nat) : f.value (b % 2 ^ (f.eb + f.p + 1)) = f.value b := by
  have hfrac : b % 2 ^ (f.eb + f.p + 1) % 2 ^ f.p = b % 2 ^ f.p :=
    Nat.mod_mod_of_dvd _ (Nat.pow_dvd_pow 2 (by omega))
  have hexp : b % 2 ^ (f.eb + f.p + 1) / 2 ^ f.p % 2 ^ f.eb = b / 2 ^ f.p % 2 ^ f.eb := by
    rw [show f.eb + f.p + 1 = f.p + (f.eb + 1) by omega, Nat.pow_add, Nat.mod_mul_right_div_self]
    exact Nat.mod_mod_of_dvd _ (Nat.pow_dvd_pow 2 (by omega))
  have hneg : b % 2 ^ (f.eb + f.p + 1) / 2 ^ (f.eb + f.p) % 2 = b / 2 ^ (f.eb + f.p) % 2 := by
    rw [Nat.pow_succ, Nat.mod_mul_right_div_self, Nat.mod_mod]
  unfold value
  rw [hfrac, hexp, hneg]

theorem totalKey_mod (n b : Nat) : totalKey n (b % 2 ^ n) = totalKey n b := by
  unfold totalKey
  rw [Nat.mod_mod]

theorem fmtOf_interchange (f : FpSel) : (fmtOf f).Interchange := by
  cases f
  · exact FFmt.interchange_f64
  · exact FFmt.interchange_f32

/-- A selector, its format and the format's width. -/
theorem fmtOf_width_of_mem {f : FpSel} {F : FFmt} {n : Nat} (h : (f, F, n) ∈ [(FpSel.d, f64, 64), (.s, f32, 32)]) :
    F = fmtOf f ∧ n = (fmtOf f).eb + (fmtOf f).p + 1 := by
  simp only [List.mem_cons, Prod.mk.injEq, List.not_mem_nil, or_false] at h
  obtain ⟨rfl, rfl, rfl⟩ | ⟨rfl, rfl, rfl⟩ := h <;> exact ⟨rfl, rfl⟩

/-! ### Comparisons (R85, R95) -/

theorem flag_of_iff {b : Bool} {p : Prop} [Decidable p] (h : b = true ↔ p) : flag b = truth p := by
  simp [flag, truth, h]

theorem FVal.isNan_iff {a : FVal} : a.isNan = true ↔ a = .nan := by cases a <;> simp [isNan]

theorem FVal.feq_iff (a b : FVal) : a.feq b = true ↔ a ≠ .nan ∧ b ≠ .nan ∧ a.cmp b = .eq := by
  simp [feq, isNan_eq_false, and_assoc]

theorem FVal.flt_iff (a b : FVal) : a.flt b = true ↔ a ≠ .nan ∧ b ≠ .nan ∧ a.cmp b = .lt := by
  simp [flt, isNan_eq_false, and_assoc]

theorem FVal.fle_iff (a b : FVal) : a.fle b = true ↔ a ≠ .nan ∧ b ≠ .nan ∧ a.cmp b ≠ .gt := by
  simp [fle, isNan_eq_false, and_assoc]

/-! ### Minima and maxima (R95) -/

theorem FFmt.minMax_of_not_nan (f : FFmt) (isMax : Bool) {a b : Nat} (ha : f.value a ≠ .nan) (hb : f.value b ≠ .nan) :
    f.minMax isMax a b =
      if decide (totalKey (f.eb + f.p + 1) a ≤ totalKey (f.eb + f.p + 1) b) = !isMax then a % 2 ^ (f.eb + f.p + 1)
      else b % 2 ^ (f.eb + f.p + 1) := by
  rw [minMax, if_neg (by simp [FVal.isNan_iff, ha, hb])]
  simp only [beq_iff_eq]

/-- A minimum or maximum is an operand, and its total key the lower or the higher one. -/
theorem FFmt.minMax_key (f : FFmt) (isMax : Bool) {a b : Nat} (ha : f.value a ≠ .nan) (hb : f.value b ≠ .nan) :
    f.minMax isMax a b ∈ [a % 2 ^ (f.eb + f.p + 1), b % 2 ^ (f.eb + f.p + 1)] ∧
      totalKey (f.eb + f.p + 1) (f.minMax isMax a b) =
        (if isMax then max else min) (totalKey (f.eb + f.p + 1) a) (totalKey (f.eb + f.p + 1) b) := by
  rw [f.minMax_of_not_nan isMax ha hb]
  by_cases h : totalKey (f.eb + f.p + 1) a ≤ totalKey (f.eb + f.p + 1) b
  · cases isMax <;> simp [h, totalKey_mod]
  · have h' := Nat.le_of_not_le h
    cases isMax <;> simp [h, h', totalKey_mod]

/-- A register that an encoding is written to reads as that number. -/
theorem toNat_ofNat_encoding (f : FpSel) {x : Nat} (h : x < 2 ^ ((fmtOf f).eb + (fmtOf f).p + 1)) :
    (BitVec.ofNat 64 x).toNat = x := by
  refine Nat.mod_eq_of_lt (Nat.lt_of_lt_of_le h (Nat.pow_le_pow_right (by decide) ?_))
  cases f <;> decide

/-- The same of the word that FMIN and FMAX write. -/
theorem minMax_word_key (f : FpSel) (isMax : Bool) {a b : Nat} (ha : (fmtOf f).value a ≠ .nan)
    (hb : (fmtOf f).value b ≠ .nan) {w : Word} (hw : w = BitVec.ofNat 64 ((fmtOf f).minMax isMax a b)) :
    w.toNat ∈ [a % 2 ^ ((fmtOf f).eb + (fmtOf f).p + 1), b % 2 ^ ((fmtOf f).eb + (fmtOf f).p + 1)] ∧
      totalKey ((fmtOf f).eb + (fmtOf f).p + 1) w.toNat = (if isMax then max else min)
        (totalKey ((fmtOf f).eb + (fmtOf f).p + 1) a) (totalKey ((fmtOf f).eb + (fmtOf f).p + 1) b) := by
  have hlt : (fmtOf f).minMax isMax a b < 2 ^ ((fmtOf f).eb + (fmtOf f).p + 1) := by
    rw [(fmtOf f).minMax_of_not_nan isMax ha hb]
    split <;> exact Nat.mod_lt _ (Nat.two_pow_pos _)
  rw [hw, toNat_ofNat_encoding f hlt]
  exact (fmtOf f).minMax_key isMax ha hb

/-! ### Classes (R95) -/

/-- An encoding is of class k. -/
def FFmt.IsClass (f : FFmt) (b k : Nat) : Prop :=
  (k = 0 ↔ f.value b = .inf true) ∧ (k = 7 ↔ f.value b = .inf false) ∧ (k = 8 ∨ k = 9 ↔ f.value b = .nan) ∧
    (k = 3 ↔ ∃ e, f.value b = .fin true 0 e) ∧ (k = 4 ↔ ∃ e, f.value b = .fin false 0 e) ∧
    (k = 2 ∨ k = 5 ↔ ∃ t m e, f.value b = .fin t m e ∧ 0 < m ∧ m < 2 ^ f.p) ∧
    (k ∈ [0, 1, 2, 3] → f.negOf b = true) ∧ (k ∈ [4, 5, 6, 7] → f.negOf b = false) ∧
    (k = 9 → b / 2 ^ (f.p - 1) % 2 = 1) ∧ (k = 8 → b / 2 ^ (f.p - 1) % 2 = 0)

section
variable {f : FFmt} (hf : f.Interchange) {b : Nat}
include hf

/-- The sign of an infinity is that of its encoding. -/
theorem FFmt.value_inf_neg {t : Bool} (h : f.value b = .inf t) : f.negOf b = t := by
  rw [value_fields hf] at h
  split at h
  · split at h
    · exact FVal.inf.inj h
    · cases h
  · split at h <;> cases h

/-- The sign of a finite value is that of its encoding. -/
theorem FFmt.value_fin_neg {t : Bool} {m : Nat} {e : Int} (h : f.value b = .fin t m e) : f.negOf b = t := by
  rw [value_fields hf] at h
  split at h
  · split at h <;> cases h
  · split at h <;> exact (FVal.fin.inj h).1

/-- The class mask has the one bit of the encoding's class. -/
theorem FFmt.classMask_eq : ∃ k < 10, f.classMask b = 2 ^ k ∧ f.IsClass b k := by
  unfold classMask
  match h : f.value b with
  | .nan =>
    by_cases hq : b / 2 ^ (f.p - 1) % 2 = 1
    · exact ⟨9, by decide, if_pos hq, by simp [IsClass, h, hq]⟩
    · exact ⟨8, by decide, if_neg hq, by simp [IsClass, h]; omega⟩
  | .inf t =>
    have hneg := value_inf_neg hf h
    cases t
    · exact ⟨7, by decide, rfl, by simp [IsClass, h, hneg]⟩
    · exact ⟨0, by decide, rfl, by simp [IsClass, h, hneg]⟩
  | .fin t m e =>
    have hneg := value_fin_neg hf h
    by_cases h0 : m = 0
    · subst h0
      cases t
      · exact ⟨4, by decide, rfl, by simp [IsClass, h, hneg]⟩
      · exact ⟨3, by decide, rfl, by simp [IsClass, h, hneg]⟩
    have hpos : 0 < m := Nat.pos_of_ne_zero h0
    by_cases hs : m < 2 ^ f.p
    · cases t
      · exact ⟨5, by decide, by simp [h0, hs], by simp [IsClass, h, hneg, h0, hs, hpos]⟩
      · exact ⟨2, by decide, by simp [h0, hs], by simp [IsClass, h, hneg, h0, hs, hpos]⟩
    · cases t
      · exact ⟨6, by decide, by simp [h0, hs], by simp [IsClass, h, hneg, h0, hs]⟩
      · exact ⟨1, by decide, by simp [h0, hs], by simp [IsClass, h, hneg, h0, hs]⟩

end

/-- The top bit of an encoding is its sign. -/
theorem FFmt.sign_bit (f : FFmt) {b : Nat} (h : b < 2 ^ (f.eb + f.p + 1)) :
    b / 2 ^ (f.eb + f.p) = (f.negOf b).toNat := by
  have hlt : b / 2 ^ (f.eb + f.p) < 2 := Nat.div_lt_of_lt_mul h
  rcases Nat.le_one_iff_eq_zero_or_eq_one.mp (Nat.le_of_lt_succ hlt) with h0 | h1
  · simp [negOf, h0]
  · simp [negOf, h1]

/-! ### Conversions (R96-R98) -/

theorem isNarrow_eq {c : Nat} (h : c ≤ 14) : isNarrow c = decide (12 ≤ c) := by
  rw [isNarrow, Bool.eq_iff_iff]
  simp only [Bool.or_eq_true, beq_iff_eq, decide_eq_true_eq]
  omega

/-- FCVT refuses all but a floating source and a destination of codes 8 to 14, and .NS for all but E5M2. -/
theorem fcvtBad_eq_false {dst src : Nat} {ns : Bool} :
    fcvtBad dst src ns = false ↔ 8 ≤ dst ∧ dst ≤ 14 ∧ 8 ≤ src ∧ (ns = true → dst = 13) := by
  simp [fcvtBad, and_assoc]

theorem intRange_bounds (c : Nat) : -2 ^ 63 ≤ (intRange c).1 ∧ (intRange c).1 ≤ 0 ∧ 0 ≤ (intRange c).2 ∧
    (intRange c).2 < 2 ^ 63 := by
  unfold intRange
  split <;> decide

/-- A value rounded to an integer format is in the format's range. -/
theorem toIntFmt_mem_range (c : Nat) (m : Mode) (v : FVal) :
    (intRange c).1 ≤ toIntFmt c m v ∧ toIntFmt c m v ≤ (intRange c).2 := by
  obtain ⟨-, hlo, hhi, -⟩ := intRange_bounds c
  match v with
  | .nan => exact ⟨hlo, hhi⟩
  | .inf neg => cases neg <;> simp [toIntFmt] <;> omega
  | .fin neg k e =>
    rw [toIntFmt, clampInt]
    omega

theorem toInt_fcvtiOp (c : Nat) (f : FpSel) (m : Mode) (a : Word) :
    (fcvtiOp c f m a).toInt = toIntFmt c m (fval f a) := by
  obtain ⟨hmin, -, -, hmax⟩ := intRange_bounds c
  obtain ⟨hlo, hhi⟩ := toIntFmt_mem_range c m (fval f a)
  exact BitVec.toInt_ofInt_eq_self (by decide) (by omega) (by omega)


section
variable (s : State) (rd ra rb : Reg) (f : FpSel)

theorem exec_fcls : exec (.fcls rd ra f) s =
    .next (s.setG rd (BitVec.ofNat 64 ((fmtOf f).classMask (fbits f (s.g ra))))) := rfl

theorem exec_fcvt (dst src : BitVec 4) (ns : Bool) (r : Rnd) : exec (.fcvt rd ra dst src ns r) s =
    .next (if fcvtBad dst.toNat src.toNat ns then s.trap .format 0
      else s.setG rd (fcvtOp dst.toNat src.toNat ns (s.mode r) (s.g ra))) := rfl

theorem exec_fcvti (int : BitVec 4) (r : Rnd) : exec (.fcvti rd ra int r f) s =
    .next (if 4 < int.toNat then s.trap .format 0 else s.setG rd (fcvtiOp int.toNat f (s.mode r) (s.g ra))) := by
  simp [exec, execFcvti]

theorem exec_icvtf (int : BitVec 4) (r : Rnd) : exec (.icvtf rd ra int r f) s =
    .next (if 4 < int.toNat then s.trap .format 0
      else s.setG rd (fres f (s.mode r) (.ofInt (readInt int.toNat (s.g ra).toNat)))) := by
  simp [exec, execIcvtf, icvtfOp]

end

theorem fcvtOp_converts {dst src : Nat} (ns : Bool) (m : Mode) (a : Word) (hd : dst ≤ 14)
    (h : dst ≠ src ∨ elemValue src (a.toNat % 2 ^ fmtBits src) = .nan) :
    fcvtOp dst src ns m a = BitVec.ofNat 64 (roundTo dst m (decide (12 ≤ dst) && !ns)
      (elemValue src (a.toNat % 2 ^ fmtBits src))) := by
  have hc : ¬(decide (dst = src) && !(elemValue src (a.toNat % 2 ^ fmtBits src)).isNan) = true := by
    obtain h | h := h <;> simp [h]
  simp only [fcvtOp, isNarrow_eq hd, if_neg hc]

theorem fcvtOp_same {dst : Nat} (ns : Bool) (m : Mode) (a : Word)
    (h : elemValue dst (a.toNat % 2 ^ fmtBits dst) ≠ .nan) :
    fcvtOp dst dst ns m a = BitVec.ofNat 64 (a.toNat % 2 ^ fmtBits dst) := by
  simp [fcvtOp, FVal.isNan_eq_false.mpr h]

/-- Settles O7: comparisons are those of the values, minima and maxima those of the total keys; the class mask follows
the value; each conversion is one Round, or the integer clamped to its range. -/
theorem floatComparisonsAndConversions : Obligations.FloatComparisonsAndConversions := by
  unfold Obligations.FloatComparisonsAndConversions
  refine ⟨fun s rd ra rb f F n a b x y hF hx hy ha hb => ?_, fun s rd ra dst src int ns r f F hF => ?_⟩
  · obtain ⟨rfl, rfl⟩ := fmtOf_width_of_mem hF
    have hkx : totalKey _ x = totalKey _ (s.g ra).toNat := hx ▸ totalKey_mod _ _
    have hky : totalKey _ y = totalKey _ (s.g rb).toNat := hy ▸ totalKey_mod _ _
    have hlt : x < 2 ^ ((fmtOf f).eb + (fmtOf f).p + 1) := hx ▸ Nat.mod_lt _ (Nat.two_pow_pos _)
    have hva : fval f (s.g ra) = a := by rw [ha, hx, FFmt.value_mod, fval]
    have hvb : fval f (s.g rb) = b := by rw [hb, hy, FFmt.value_mod, fval]
    have hkey (hna : a ≠ .nan) (hnb : b ≠ .nan) (isMax : Bool) :=
      minMax_word_key f isMax (hva ▸ hna : fval f (s.g ra) ≠ _) (hvb ▸ hnb : fval f (s.g rb) ≠ _) rfl
    simp only [← hkx, ← hky, ← hx, ← hy] at hkey
    refine ⟨?_, ?_, ?_, ?_, ?_, ?_, fun hna hnb => ⟨?_, ?_⟩⟩
    · rw [exec, execFeq, hva, hvb, flag_of_iff (FVal.feq_iff a b)]
    · rw [exec, execFlt, hva, hvb, flag_of_iff (FVal.flt_iff a b)]
    · rw [exec, execFle, hva, hvb, flag_of_iff (FVal.fle_iff a b)]
    · rw [exec, execFuno, hva, hvb, flag_of_iff (by rw [Bool.or_eq_true, FVal.isNan_iff, FVal.isNan_iff])]
    · rw [exec, execFtle, ftleOp, hkx, hky, flag_of_iff decide_eq_true_iff]
    · obtain ⟨k, hk, hmask, hinf, hinf', hnan, hz, hz', hsub, hneg, hpos, hq, hs⟩ :=
        FFmt.classMask_eq (fmtOf_interchange f) (b := x)
      have hsign := (fmtOf f).sign_bit hlt
      refine ⟨_, exec_fcls s rd ra f, k, hk, ?_, ?_⟩
      · rw [fbits, ← hx, hmask, BitVec.toNat_ofNat]
        exact Nat.mod_eq_of_lt (Nat.pow_lt_pow_right (by decide) (by omega))
      · rw [ha, Nat.add_sub_cancel, hsign]
        exact ⟨hinf, hinf', hnan, hz, hz', hsub, fun h => by rw [hneg h]; rfl, fun h => by rw [hpos h]; rfl, hq, hs⟩
    · exact ⟨_, exec_fmin s rd ra rb f, hkey hna hnb false⟩
    · exact ⟨_, exec_fmax s rd ra rb f, hkey hna hnb true⟩
  · obtain rfl := fmtOf_of_mem hF
    refine ⟨fun hd8 hd hs hn h => ?_, fun hd8 hd hn h => ?_, fun h => ?_,
      fun h => ⟨⟨fcvtiOp int.toNat f (s.mode r) (s.g ra), ?_, ?_⟩, ?_⟩, fun h => ?_⟩
    · rw [exec_fcvt, fcvtBad_eq_false.mpr ⟨hd8, hd, hs, hn⟩, fcvtOp_converts ns _ _ hd (h.imp_left ?_)]
      · rfl
      · exact fun hne he => hne (BitVec.eq_of_toNat_eq he)
    · rw [exec_fcvt, fcvtBad_eq_false.mpr ⟨hd8, hd, hd8, hn⟩, fcvtOp_same ns _ _ h]
      rfl
    · rw [exec_fcvt, if_pos (Bool.not_eq_false _ ▸ mt fcvtBad_eq_false.mp h)]
    · rw [exec_fcvti, if_neg (Nat.not_lt.mpr h)]
    · obtain ⟨hlo, hhi⟩ := toIntFmt_mem_range int.toNat (s.mode r) (fval f (s.g ra))
      have hint {v : FVal} (hv : fval f (s.g ra) = v) := hv ▸ toInt_fcvtiOp int.toNat f (s.mode r) (s.g ra)
      exact ⟨hint rfl ▸ hlo, hint rfl ▸ hhi, fun hv => BitVec.eq_of_toInt_eq (hint hv), hint, hint,
        fun _ _ _ => hint⟩
    · rw [exec_icvtf, if_neg (Nat.not_lt.mpr h)]
      rfl
    · rw [exec_fcvti, exec_icvtf, if_pos h, if_pos h]
      exact ⟨rfl, rfl⟩

end Sys2Proof.Machine
end

section
/-! SUPPORT. Writes of the system registers (R326, R328) and the instructions of supervisor mode (R324), and the statement
on them. -/

namespace Sys2Proof

/-- A field that reaches the top of a word is zero where the word is below the field. -/
theorem bits_high_eq_zero (w : Word) {lo : Nat} (h : lo ≤ 64) : bits w 63 lo = 0 ↔ w.toNat < 2 ^ lo := by
  have hlt : w.toNat / 2 ^ lo < 2 ^ (63 + 1 - lo) := by
    refine Nat.div_lt_of_lt_mul ?_
    rw [← Nat.pow_add, show lo + (63 + 1 - lo) = 64 by omega]
    exact w.isLt
  rw [bits, Nat.mod_eq_of_lt hlt, Nat.div_eq_zero_iff]
  simp

/-- A field that starts at the lowest bit is the word's remainder. -/
theorem bits_low (w : Word) (hi : Nat) : bits w hi 0 = w.toNat % 2 ^ (hi + 1) := by simp [bits]

/-- A word that ends within a field from the lowest bit is that field. -/
theorem bits_low_of_lt {w : Word} {hi : Nat} (h : w.toNat < 2 ^ (hi + 1)) : bits w hi 0 = w.toNat :=
  (bits_low w hi).trans (Nat.mod_eq_of_lt h)

/-- The bits of a field. -/
theorem testBit_bits (w : Word) (hi lo i : Nat) :
    (bits w hi lo).testBit i = (decide (i < hi + 1 - lo) && w.getLsbD (i + lo)) := by
  rw [bits, Nat.testBit_mod_two_pow, Nat.testBit_div_two_pow, BitVec.testBit_toNat]

namespace Machine

open Sys2Proof.Claim

/-! ### The values that a register accepts (R80, R127, R154, R167, R208, R285, R307, R327) -/

/-- LSEG: a base below 1024 and a limit that is not zero, within the core's segments (R154). -/
theorem sysAccepts_lseg (w : Word) : sysAccepts .lseg w = true ↔ Legal w .lseg := by
  have hlt := w.isLt
  simp only [sysAccepts, Bool.and_eq_true, beq_iff_eq, bne_iff_ne, decide_eq_true_eq, Legal]
  unfold bits
  constructor
  · rintro ⟨⟨⟨⟨htop, hmid⟩, hlim⟩, hle⟩, hsum⟩
    exact ⟨w.toNat % 2 ^ 10, w.toNat / 2 ^ 16 % 2 ^ 11, by omega, by omega, by omega, by omega⟩
  · rintro ⟨base, limit, hw, hb, hl, hsum⟩
    omega

/-- ORTB: the table's page and a log of 1 to 24 (R167). -/
theorem sysAccepts_ortb (w : Word) : sysAccepts .ortb w = true ↔ Legal w .ortb := by
  have hlt := w.isLt
  simp only [sysAccepts, Bool.and_eq_true, beq_iff_eq, bne_iff_ne, decide_eq_true_eq, Legal]
  unfold bits
  constructor
  · rintro ⟨⟨⟨⟨htop, hmid⟩, hlow⟩, hlog⟩, hle⟩
    exact ⟨w.toNat / 2 ^ 12 % 2 ^ 36, w.toNat / 2 ^ 54 % 2 ^ 5, by omega, by omega, by omega, by omega⟩
  · rintro ⟨base, log, hw, hb, hl, hle⟩
    omega

/-- A register of one field from bit 0 that is zero or in a range. -/
theorem optional_log_iff (w : Word) {k lo hi : Nat} (hk : hi < 2 ^ (k + 1)) (h63 : k < 64) :
    (bits w 63 (k + 1) == 0 && (bits w k 0 == 0 || (decide (lo ≤ bits w k 0) && decide (bits w k 0 ≤ hi)))) = true ↔
      w = 0 ∨ (lo ≤ w.toNat ∧ w.toNat ≤ hi) := by
  simp only [Bool.and_eq_true, Bool.or_eq_true, beq_iff_eq, decide_eq_true_eq, bits_high_eq_zero w (Nat.succ_le_of_lt h63)]
  have hzero : w = 0 ↔ w.toNat = 0 := BitVec.toNat_eq
  constructor
  · rintro ⟨hlt, h⟩
    rwa [bits_low_of_lt hlt, ← hzero] at h
  · intro h
    have hlt : w.toNat < 2 ^ (k + 1) := by
      rw [hzero] at h
      omega
    exact ⟨hlt, by rwa [bits_low_of_lt hlt, ← hzero]⟩

/-- SWR accepts the values that the rule of the register allows. -/
theorem sysAccepts_iff_legal (sr : SysReg) (w : Word) : sysAccepts sr w = true ↔ Legal w sr := by
  have hpc : (bits w 63 38 == 0 && bits w 2 0 == 0) = true ↔ w.toNat < 2 ^ 38 ∧ w.toNat % 8 = 0 := by
    simp [bits_high_eq_zero, bits_low]
  cases sr with
  | lseg => exact sysAccepts_lseg w
  | ortb => exact sysAccepts_ortb w
  | tedi => exact optional_log_iff w (k := 4) (by decide) (by decide)
  | wdog => exact optional_log_iff w (k := 5) (by decide) (by decide)
  | tepc => exact hpc
  | tvec => exact hpc
  | tsw => simp [sysAccepts, Tsw.reserved, Legal, bits_high_eq_zero, bit_eq_getLsbD]
  | tcause => simp [sysAccepts, Legal, bits_high_eq_zero, bit_eq_getLsbD]
  | _ => simp [sysAccepts, Legal]

/-- A write of TSW takes AWM, PS and S from the value (R127). -/
theorem Tsw.write_getLsbD (old new : Word) (i : Nat) : (Tsw.write old new).getLsbD i =
    if i = 4 ∨ i = 5 ∨ (11 ≤ i ∧ i ≤ 25) then new.getLsbD i else old.getLsbD i := by
  rw [Tsw.write, getLsbD_setBits _ _ _ (by decide) (by decide), getLsbD_setBits _ _ _ (by decide) (by decide),
    testBit_bits, testBit_bits]
  by_cases hmode : 4 ≤ i ∧ i ≤ 5
  · rw [if_pos hmode, if_pos (by omega), Nat.sub_add_cancel hmode.1]
    simp [show i - 4 < 2 by omega]
  by_cases hmarks : 11 ≤ i ∧ i ≤ 25
  · rw [if_neg hmode, if_pos hmarks, if_pos (by omega), Nat.sub_add_cancel hmarks.1]
    simp [show i - 11 < 15 by omega]
  · rw [if_neg hmode, if_neg hmarks, if_neg (by omega)]

/-! ### SWR (R328) -/

theorem sysWritable_eq_false_iff {sr : SysReg} :
    sysWritable sr = false ↔ sr = .bankm ∨ sr = .time ∨ ∃ n, sr = .xdone n := by
  cases sr <;> simp [sysWritable]

theorem sysPriv_eq_false_iff {sr : SysReg} : sysPriv sr = false ↔ sr ∈ [SysReg.vl, .rmode, .swq] := by
  cases sr <;> simp [sysPriv]

section
variable {s : State} {rs : Reg} {sr : SysReg}

theorem exec_swr_formless (h : sysWritable sr = false) : exec (.swr rs sr) s = .next (s.trap .illegal s.cur.bundle) := by
  rw [exec, execSwr, h]
  rfl

theorem exec_swr_user (h : sysWritable sr = true) (hp : sysPriv sr = true) (hs : s.sup = false) :
    exec (.swr rs sr) s = .next (s.trap .priv 0) := by
  rw [exec, execSwr, h, hp, hs]
  rfl

theorem exec_swr_illegal (h : sysWritable sr = true) (hp : sysPriv sr = false ∨ s.sup = true) (hl : ¬Legal (s.g rs) sr) :
    exec (.swr rs sr) s = .next (s.trap .illegal (s.g rs)) := by
  have ha : sysAccepts sr (s.g rs) = false := Bool.eq_false_iff.mpr (mt (sysAccepts_iff_legal sr _).mp hl)
  have hp' : (sysPriv sr && !s.sup) = false := by obtain hp | hp := hp <;> simp [hp]
  simp [exec, execSwr, h, hp', ha]

theorem exec_swr_writes (h : sysWritable sr = true) (hp : sysPriv sr = false ∨ s.sup = true) (hl : Legal (s.g rs) sr) :
    exec (.swr rs sr) s = .next (s.writeSys sr (s.g rs)) := by
  have ha : sysAccepts sr (s.g rs) = true := (sysAccepts_iff_legal sr _).mpr hl
  have hp' : (sysPriv sr && !s.sup) = false := by obtain hp | hp := hp <;> simp [hp]
  simp [exec, execSwr, h, hp', ha]

end

/-! ### Privileged instructions (R324) -/

/-- Each privileged instruction tests the mode before all else. -/
theorem exec_privileged {s : State} {ra rb : Reg} {i : Instr} (hs : s.sup = false) (hi : i ∈ privileged ra rb) :
    exec i s = .next (s.trap .priv 0) := by
  simp only [privileged, List.mem_cons, List.not_mem_nil, or_false] at hi
  obtain rfl | rfl | rfl | rfl | rfl | rfl | rfl | rfl | rfl | rfl := hi <;> exact congrArg _ (if_pos (by rw [hs]; rfl))

/-- SWR to TSW writes AWM, PS and S, and nothing else. -/
theorem writeSys_tsw (s : State) (w : Word) :
    s.writeSys .tsw w = s.updRegs (fun x => { x with tsw := (s.writeSys .tsw w).me.regs.tsw }) ∧
      (s.writeSys .tsw w).me.regs.tsw = Tsw.write s.me.regs.tsw w := by
  have htsw : (s.writeSys .tsw w).me.regs.tsw = Tsw.write s.me.regs.tsw w := by simp [State.writeSys]
  exact ⟨by rw [htsw]; rfl, htsw⟩

/-- Settles O11: SWR writes what the register's rule allows, traps what it does not, and tests the mode between; so does
each privileged instruction first of all. -/
theorem systemRegisterWrites : Obligations.SystemRegisterWrites := by
  unfold Obligations.SystemRegisterWrites
  refine ⟨fun s rs w hw => ?_, fun s ra rb i hs hi => exec_privileged hs hi⟩
  subst hw
  refine ⟨fun sr hsr => exec_swr_formless (sysWritable_eq_false_iff.mpr hsr), fun sr hs hsr => ?_,
    fun sr hb ht hx hsr hl => ?_, exec_swr_writes rfl (.inl rfl), exec_swr_writes rfl (.inl rfl),
    exec_swr_writes rfl (.inl rfl), fun hs => ?_⟩
  · have hreg : sysWritable sr = true ∧ sysPriv sr = true := by
      revert sr
      decide
    exact exec_swr_user hreg.1 hreg.2 hs
  · have hform : sysWritable sr = true := by
      rw [← Bool.not_eq_false, sysWritable_eq_false_iff]
      exact fun h => h.elim hb fun h => h.elim ht fun ⟨n, h⟩ => hx n h
    exact exec_swr_illegal hform (hsr.imp_left sysPriv_eq_false_iff.mpr) hl
  · have hwrites (sr : SysReg) (h : sysWritable sr = true) (hl : Legal (s.g rs) sr) := exec_swr_writes h (.inr hs) hl
    obtain ⟨heq, htsw⟩ := writeSys_tsw s (s.g rs)
    exact ⟨fun hl => ⟨_, hwrites .tsw rfl hl, heq, fun i => by rw [htsw, Tsw.write_getLsbD]⟩,
      hwrites .tepc rfl, hwrites .tcause rfl, hwrites .tvec rfl, hwrites .tval rfl trivial, hwrites .tscr rfl trivial,
      hwrites .lseg rfl, hwrites .ortb rfl, hwrites .codeo rfl, hwrites .frec rfl, hwrites .tedi rfl, hwrites .tedg rfl,
      hwrites .tedm rfl, hwrites .tedc rfl, hwrites .wdog rfl⟩

end Machine
end Sys2Proof
end

section
/-! SUPPORT. The functions of FFN (R92, R99) and the choice of FSEL (R100), and the statement on them. -/

namespace Sys2Proof.Machine

open Sys2Proof.Claim

/-! ### Words that Round to FP32 gives (R81) -/

section
variable (m : Mode)

theorem round32_nan : BitVec.ofNat 64 (f32.round m false .nan) = (0x7FC00000 : Word) := rfl

theorem round32_inf (t : Bool) :
    BitVec.ofNat 64 (f32.round m false (.inf t)) = (if t then 0xFF800000 else 0x7F800000 : Word) := by
  cases t <;> rfl

theorem round32_zero (t : Bool) (e : Int) :
    BitVec.ofNat 64 (f32.round m false (.fin t 0 e)) = (if t then 0x80000000 else 0 : Word) := by
  rw [FFmt.round_zero]
  cases t <;> rfl

theorem round32_one (t : Bool) :
    BitVec.ofNat 64 (f32.round m false (.fin t 1 0)) = (if t then 0xBF800000 else 0x3F800000 : Word) := by
  cases m <;> cases t <;> decide +kernel

theorem round32_half : BitVec.ofNat 64 (f32.round m false (.fin false 1 (-1))) = (0x3F000000 : Word) := by
  cases m <;> decide +kernel

end

/-! ### The functions (R92) -/

namespace Fn

variable {f : Fn} {x : Nat}

/-- A special operand gives the Round of its special value. -/
theorem apply_special {y v : FVal} {w : Word} (m : Mode) (hx : f32.value x = y) (hs : f.special y = some v)
    (hw : BitVec.ofNat 64 (f32.round m false v) = w) : BitVec.ofNat 64 (f.apply m x) = w := by
  simp only [apply, hx, hs, hw]

/-- Where both ends of the interval round alike, the function gives what they round to. -/
theorem apply_interval {m : Mode} {t : Bool} {k : Nat} {e : Int} (hx : f32.value x = .fin t k e)
    (hs : f.special (.fin t k e) = none)
    (h : f32.round m false (f.interval t k e).1 = f32.round m false (f.interval t k e).2) :
    f.apply m x = f32.round m false (f.interval t k e).1 := by
  simp only [apply, hx, hs]
  exact if_pos h

theorem special_nan (f : Fn) : f.special .nan = some .nan := by cases f <;> rfl

/-- Of the numbers other than zero only the negative ones are special, to LOG2 and RSQ. -/
theorem special_fin (f : Fn) (t : Bool) {k : Nat} (e : Int) (hk : k ≠ 0) :
    f.special (.fin t k e) = if t = true ∧ (f = .log2 ∨ f = .rsq) then some .nan else none := by
  obtain ⟨k, rfl⟩ := Nat.exists_eq_succ_of_ne_zero hk
  cases f <;> cases t <;> rfl

end Fn

/-- The functions that have no value below zero. -/
theorem fnOf_signed (op : FnOp) : fnOf op = .log2 ∨ fnOf op = .rsq ↔ op = .log2 ∨ op = .rsq := by
  cases op <;> simp [fnOf]

theorem exec_ffn (s : State) (rd ra : Reg) (op : FnOp) (r : Rnd) : exec (.ffn rd ra op r) s =
    .next (s.setG rd (BitVec.ofNat 64 ((fnOf op).apply (s.mode r) ((s.g ra).toNat % 2 ^ 32)))) := rfl

/-- LOG2 of one is zero. -/
theorem log2_one {w : Word} (m : Mode) (h : w.setWidth 32 = (0x3F800000 : BitVec 32)) :
    BitVec.ofNat 64 (Fn.log2.apply m (w.toNat % 2 ^ 32)) = (0 : Word) := by
  have hx : w.toNat % 2 ^ 32 = 0x3F800000 := by simpa using congrArg BitVec.toNat h
  rw [hx]
  cases m <;> decide +kernel

/-! ### The choice of a gradient format (R100) -/

/-- The 32-bit words of bytes read from an address up. -/
theorem words32_readN (m : List Host.Cell) (a n : Nat) :
    words32 n (Memory.readN m a (4 * n)) = (List.range n).map fun i => ofBytes (Memory.readN m (a + 4 * i) 4) := by
  induction n generalizing a with
  | zero => rfl
  | succ n ih =>
    rw [show 4 * (n + 1) = 4 + 4 * n by omega, Memory.readN_add, words32, List.take_left' (Memory.readN_length _ _ _),
      List.drop_left' (Memory.readN_length _ _ _), ih, List.range_succ_eq_map, List.map_cons, List.map_map]
    simp only [Nat.mul_zero, Nat.add_zero, List.cons.injEq, true_and]
    exact List.map_congr_left fun i _ => by simp only [Function.comp]; congr 2; omega

/-- Words that each stand at their address are the words read there. -/
theorem words32_eq (m : List Host.Cell) (a : Nat) {n : Nat} {ws : List Nat} (hn : ws.length = n)
    (h : ∀ i < n, ws.getD i 0 = ofBytes (Memory.readN m (a + 4 * i) 4)) : words32 n (Memory.readN m a (4 * n)) = ws := by
  rw [words32_readN]
  refine List.ext_getElem (by simp [hn]) fun i hi hi' => ?_
  rw [List.getElem_map, List.getElem_range, ← h i (hn ▸ hi'), List.getD_eq_getElem?_getD,
    List.getElem?_eq_getElem hi', Option.getD_some]

/-- The parameter word of FSEL by its fields. -/
structure FselFields (p : Word) (ts tz n lb : Nat) : Prop where
  sat : bits p 7 0 = ts
  zero : bits p 15 8 = tz
  words : bits p 27 16 = n
  log : bits p 31 28 = lb
  rest : bits p 63 32 = 0

theorem fselFields {p : Word} {ts tz n lb : Nat} (hp : p.toNat = ts + tz * 2 ^ 8 + n * 2 ^ 16 + lb * 2 ^ 28)
    (hts : ts < 2 ^ 8) (htz : tz < 2 ^ 8) (hn : n < 2 ^ 12) (hlb : lb < 16) : FselFields p ts tz n lb := by
  constructor <;> rw [bits, hp] <;> omega

theorem fselOp_eq {p : Word} {ts tz n lb : Nat} (hp : FselFields p ts tz n lb) (ws : List Nat) :
    fselOp ws p =
      if ∃ w ∈ ws, w / 2 ^ 8 % 256 = 255 then 0x4000A
      else if ts < (ws.map fun w => w / 2 ^ 16 % 256).sum ∨ tz < (ws.map fun w => w / 2 ^ 24 % 256).sum
      then BitVec.ofNat 64 (0x4002D + lb * 2 ^ 8)
      else BitVec.ofNat 64 (0x4002C + lb * 2 ^ 8) := by
  unfold fselOp
  simp only [hp.sat, hp.zero, hp.log, List.any_eq_true, beq_iff_eq, Bool.or_eq_true, decide_eq_true_eq]
  rw [apply_ite (BitVec.ofNat 64), apply_ite (BitVec.ofNat 64)]
  rfl

theorem exec_fsel_format {s : State} {rb : Reg} (rd ra : Reg) {ts tz n lb : Nat} (hp : FselFields (s.g rb) ts tz n lb)
    (h : lb < 3 ∨ 12 < lb) : exec (.fsel rd ra rb) s = .next (s.trap .format 0) := by
  simp only [exec, execFsel, hp.rest, hp.log]
  rw [if_pos (by simpa using h)]

theorem resolve_here_aligned {s : State} {a : Word} {al n pa : Nat} (h : s.resolve a al n = .here pa) :
    a.toNat % al = 0 := by
  refine Decidable.byContradiction fun hne => ?_
  rw [s.resolve_unaligned n hne] at h
  cases h

theorem exec_fsel_selects {s : State} {ra rb : Reg} (rd : Reg) {ts tz n lb pa : Nat} (hp : FselFields (s.g rb) ts tz n lb)
    (h3 : 3 ≤ lb) (h12 : lb ≤ 12) (hl : (s.g ra).getLsbD 63 = false) (hr : s.resolve (s.g ra) 4 (4 * n) = .here pa)
    (hc : s.spadPoisoned s.cur.pos pa (4 * n) = false) : exec (.fsel rd ra rb) s = .next
      ((s.setG rd (fselOp (words32 n (s.spadRead s.cur.pos pa (4 * n))) (s.g rb))).updMe fun x =>
        { x with ready := s.time + (n + 63) / 64 + 4 }) := by
  have hlog : ¬(lb < 3 ∨ 12 < lb) := by omega
  simp only [exec, execFsel, hp.rest, hp.log, hp.words, State.withAddr, hr, hc, bit_eq_getLsbD, hl,
    resolve_here_aligned hr]
  rw [if_neg (by simpa using hlog)]
  rfl

/-- An update of the running thread leaves the scratchpads. -/
theorem State.updMe_spad (s : State) (f : Slot → Slot) (p : Nat) : ((s.updMe f).core p).spad = (s.core p).spad := by
  rw [updMe, updSlot_core]

/-- Settles O15: FFN is one Round of a special value or of an interval's ends, and FSEL reads the fields of the words
where its address leads. -/
theorem functionsAndFormatChoice : Obligations.FunctionsAndFormatChoice := by
  unfold Obligations.FunctionsAndFormatChoice
  refine ⟨fun s rd ra op r x hx => ⟨_, exec_ffn s rd ra op r, ?_⟩,
    fun s rd ra rb pa n lb tz ts ws hp hts htz hn hlb => ?_⟩
  · generalize s.mode r = m
    have hspecial {y v : FVal} {w : Word} (h : x = y) := Fn.apply_special (f := fnOf op) (v := v) (w := w) m (hx ▸ h)
    refine ⟨fun h => ?_, fun h => ?_, fun h => ?_, fun t e h => ?_, fun t k e h hk => ⟨fun ht hop => ?_, fun hop => ?_,
      fun hop i hi hends => ?_⟩, fun hop hone => ?_⟩
    · exact hspecial h (Fn.special_nan _) (round32_nan m)
    · cases op with
      | exp2 => exact hspecial h rfl (round32_inf m false)
      | log2 => exact hspecial h rfl (round32_inf m false)
      | rcp => exact hspecial h rfl (round32_zero m false 0)
      | rsq => exact hspecial h rfl (round32_zero m false 0)
      | tanh => exact hspecial h rfl (round32_one m false)
      | sigm => exact hspecial h rfl (round32_one m false)
    · cases op with
      | exp2 => exact hspecial h rfl (round32_zero m false 0)
      | log2 => exact hspecial h rfl (round32_nan m)
      | rcp => exact hspecial h rfl (round32_zero m true 0)
      | rsq => exact hspecial h rfl (round32_nan m)
      | tanh => exact hspecial h rfl (round32_one m true)
      | sigm => exact hspecial h rfl (round32_zero m false 0)
    · cases op with
      | exp2 => exact hspecial h rfl (round32_one m false)
      | log2 => exact hspecial h rfl (round32_inf m true)
      | rcp => exact hspecial h rfl (round32_inf m t)
      | rsq => exact hspecial h rfl (round32_inf m t)
      | tanh => exact hspecial h rfl (round32_zero m t 0)
      | sigm => exact hspecial h rfl (round32_half m)
    · have hneg := (Fn.special_fin (fnOf op) t e hk).trans (if_pos ⟨ht, (fnOf_signed op).mpr hop⟩)
      exact hspecial h hneg (round32_nan m)
    · subst hop
      have hnone := (Fn.special_fin .rcp t e hk).trans (if_neg (by simp))
      rw [show fnOf .rcp = .rcp from rfl, Fn.apply_interval (hx ▸ h) hnone rfl, h]
      rfl
    · rw [← fnOf_signed] at hop
      subst hi
      rw [Fn.apply_interval (hx ▸ h) ((Fn.special_fin _ t e hk).trans (if_neg hop)) hends]
    · subst hop
      exact log2_one m hone
  · have hf := fselFields hp hts htz hn hlb
    refine ⟨exec_fsel_format rd ra hf,
      fun h3 h12 hl hr hc hlen hws => ⟨_, exec_fsel_selects rd hf h3 h12 hl hr hc, ?_⟩⟩
    have hwords : words32 n (s.spadRead s.cur.pos pa (4 * n)) = ws := words32_eq _ _ hlen hws
    rw [hwords, fselOp_eq hf]
    refine ⟨fun hrd => ?_, fun q hq => ?_, rfl, ?_⟩
    · rw [State.updMe_me, State.setG_me, Regs.setG_get _ _ hrd]
    · rw [State.updMe_me, State.setG_me, Regs.setG_get_ne _ _ hq]
    · exact (State.updMe_spad _ _ _).trans (State.updMe_spad _ _ _)

end Sys2Proof.Machine
end

section
/-! SUPPORT. Await marks (R128), branches, calls and jumps (R129-R132) and AWAIT (R134), and the statement on them. -/

namespace Sys2Proof.Machine

/-! ### Await marks (R128) -/

theorem Tsw.mark_eq (w : Word) {r : Reg} (h : r ≠ 0) : Tsw.mark w r = w.getLsbD (10 + r.val) := by
  simp [Tsw.mark, h, bit_eq_getLsbD]

theorem Tsw.getLsbD_setMark (w : Word) {r : Reg} (b : Bool) (i : Nat) (h : r ≠ 0) :
    (Tsw.setMark w r b).getLsbD i = if i = 10 + r.val then b else w.getLsbD i := by
  rw [Tsw.setMark, if_neg h]
  exact getLsbD_setBits_one w b i (by omega)

/-! ### Branches (R130) -/

/-- A branch on a condition that holds where `P` does. -/
theorem branchIf_eq (s : State) {b : Bool} {P : Prop} [Decidable P] (pc : BitVec 38) (h : b = true ↔ P) :
    branchIf s b pc = if P then s.setPc pc else s := by
  simp only [branchIf, h]

/-- A branch on a condition that holds where `P` does not. -/
theorem branchIf_eq_of_not (s : State) {b : Bool} {P : Prop} [Decidable P] (pc : BitVec 38) (h : b = true ↔ ¬P) :
    branchIf s b pc = if P then s else s.setPc pc := by
  rw [branchIf_eq s pc h, ite_not]

/-- LOOP counts down, and branches unless it has counted to zero (R131). -/
theorem exec_loop (ra : Reg) (off : BitVec 15) (s : State) : exec (.loop ra off) s = .next
    (if s.g ra = 1 then s.setG ra 0 else (s.setG ra (s.g ra - 1)).setPc (target s.cur.ipc off)) := by
  have hzero : s.g ra - 1 = 0 ↔ s.g ra = 1 := by
    generalize s.g ra = w
    bv_omega
  have hz : (s.g ra - 1 != 0) = true ↔ ¬s.g ra = 1 := bne_iff_ne.trans (not_congr hzero)
  refine congrArg _ ((branchIf_eq_of_not _ _ hz).trans ?_)
  split
  · rename_i h
    exact congrArg (s.setG ra) (hzero.mpr h)
  · rfl

/-! ### Calls and jumps (R132) -/

theorem link_eq (s : State) : link s = BitVec.ofNat 64 ((s.cur.ipc.toNat + 8) % 2 ^ 38) := by
  refine BitVec.eq_of_toNat_eq ?_
  simp [link, nextPc, State.pc]

theorem jumpOk_iff (t : Int) : jumpOk t = true ↔ 0 ≤ t ∧ t ≤ 2 ^ 38 - 8 ∧ t % 8 = 0 := by
  simp [jumpOk, and_assoc]

theorem exec_call (off : BitVec 15) (s : State) :
    exec (.call off) s = .next ((s.setG 15 (link s)).setPc (target s.cur.ipc off)) := rfl

section
variable {s : State} {ra : Reg} {off : BitVec 15} {t : Int} (ht : t = (s.g ra).toNat + 8 * off.toInt)
include ht

/-- A jump to a target that is a bundle's address. -/
theorem exec_jump_ok (hok : 0 ≤ t ∧ t ≤ 2 ^ 38 - 8 ∧ t % 8 = 0) :
    exec (.jr ra off) s = .next (s.setPc (BitVec.ofNat 38 t.toNat)) ∧
      exec (.callr ra off) s = .next ((s.setG 15 (link s)).setPc (BitVec.ofNat 38 t.toNat)) := by
  have hpc : BitVec.ofNat 38 t.toNat = BitVec.ofInt 38 t := by
    rw [← BitVec.ofInt_natCast, Int.toNat_of_nonneg hok.1]
  rw [hpc]
  subst ht
  exact ⟨congrArg _ (if_pos ((jumpOk_iff _).mpr hok)), congrArg _ (if_pos ((jumpOk_iff _).mpr hok))⟩

/-- A jump elsewhere traps, and CALLR then writes no link. -/
theorem exec_jump_traps (hbad : ¬(0 ≤ t ∧ t ≤ 2 ^ 38 - 8 ∧ t % 8 = 0)) :
    exec (.jr ra off) s = .next (s.trap .align (BitVec.ofInt 64 t)) ∧
      exec (.callr ra off) s = .next (s.trap .align (BitVec.ofInt 64 t)) := by
  subst ht
  exact ⟨congrArg _ (if_neg (mt (jumpOk_iff _).mp hbad)), congrArg _ (if_neg (mt (jumpOk_iff _).mp hbad))⟩

end

/-! ### AWAIT (R134) -/

section
variable {s : State} {rd : Reg} (h0 : rd ≠ 0)
include h0

theorem exec_await_marked (hm : s.me.regs.tsw.getLsbD (10 + rd.val) = true) :
    exec (.await rd) s = .next (s.updRegs fun x => { x with tsw := Tsw.setMark x.tsw rd false }) :=
  congrArg _ ((if_neg h0).trans (if_pos ((Tsw.mark_eq _ h0).trans hm)))

theorem exec_await_unmarked (hm : s.me.regs.tsw.getLsbD (10 + rd.val) = false) :
    exec (.await rd) s = .next (s.park (.await rd) 1 [] (.await rd)) :=
  congrArg _ ((if_neg h0).trans (if_neg (by rw [Tsw.mark_eq _ h0, hm]; decide)))

end

/-- Parking keeps the registers, whichever half parks. -/
theorem State.park_me_regs (s : State) (i : Instr) (n : Nat) (l : List Word) (w : Wait) :
    (s.park i n l w).me.regs = s.me.regs := by
  cases h : s.cur.isA with
  | false => rw [park_me_c _ _ _ _ _ h]
  | true => rw [park_me_a _ _ _ _ _ h]

/-- Settles O9: each branch by its condition, the jumps by the range of their target, AWAIT by the register's mark. -/
theorem controlFlow : Obligations.ControlFlow := by
  unfold Obligations.ControlFlow
  refine ⟨?_, ?_, fun s rd => ⟨rfl, fun h0 hm => ?_, fun h0 hm => ?_⟩⟩
  · rintro s ra rb off far _ _ rfl rfl
    refine ⟨rfl, congrArg _ (branchIf_eq _ _ beq_iff_eq), congrArg _ (branchIf_eq_of_not _ _ bne_iff_ne),
      congrArg _ (branchIf_eq _ _ BitVec.slt_iff_toInt_lt), congrArg _ (branchIf_eq _ _ ?_),
      congrArg _ (branchIf_eq _ _ BitVec.ult_iff_toNat_lt), congrArg _ (branchIf_eq _ _ ?_),
      congrArg _ (branchIf_eq _ _ beq_iff_eq), congrArg _ (branchIf_eq_of_not _ _ bne_iff_ne)⟩
    · rw [Bool.not_eq_true', ← Bool.not_eq_true, BitVec.slt_iff_toInt_lt, Int.not_lt]
    · rw [Bool.not_eq_true', ← Bool.not_eq_true, BitVec.ult_iff_toNat_lt, Nat.not_lt]
  · rintro s ra off t _ ht rfl
    rw [← link_eq]
    exact ⟨exec_loop ra off s, exec_call off s, fun h1 h2 h3 => exec_jump_ok ht ⟨h1, h2, h3⟩, exec_jump_traps ht⟩
  · refine ⟨_, exec_await_marked h0 hm, fun i => ?_, ?_⟩
    · rw [State.updRegs_me, Tsw.getLsbD_setMark _ _ _ h0]
      split <;> simp [*]
    · rw [State.updRegs_me]
  · exact ⟨_, exec_await_unmarked h0 hm, s.park_out _ _ _ _, s.park_me_regs _ _ _ _,
      fun hC => by rw [s.park_me_c _ _ _ _ hC]⟩

end Sys2Proof.Machine
end

section
/-! SUPPORT. Items for a thread on their way, payloads, acknowledgements and returns (R128, R273-R275, R278), and the
statement on messages. -/

namespace Sys2Proof

/-! ### The first of a list of alternatives, in a sparse table -/

theorem firstSome_append {α β : Type} (f : α → Option β) (l m : List α) :
    firstSome f (l ++ m) = (firstSome f l).or (firstSome f m) := by
  induction l with
  | nil => rfl
  | cons a l ih => cases h : f a <;> simp [firstSome, h, ih]

theorem firstSome_flatMap {α β γ : Type} (f : β → Option γ) (g : α → List β) (l : List α) :
    firstSome f (l.flatMap g) = firstSome (fun a => firstSome f (g a)) l := by
  induction l with
  | nil => rfl
  | cons a l ih =>
    rw [List.flatMap_cons, firstSome_append, ih]
    cases h : firstSome f (g a) <;> simp [firstSome, h]

theorem exists_of_firstSome {α β : Type} {f : α → Option β} {l : List α} {b : β} (h : firstSome f l = some b) :
    ∃ a ∈ l, f a = some b := by
  induction l with
  | nil => cases h
  | cons a l ih =>
    cases ha : f a with
    | some c => exact ⟨a, List.mem_cons_self, by simpa [firstSome, ha] using h⟩
    | none =>
      obtain ⟨x, hx, hf⟩ := ih (by simpa [firstSome, ha] using h)
      exact ⟨x, List.mem_cons_of_mem _ hx, hf⟩

section
variable {α β : Type} {f : Nat × α → Option β} {k : Nat} {y : β} (hkey : ∀ x, f x = some y → x.1 = k)
include hkey

/-- Where the first alternative comes from an entry of a key, the entry that the key reads gives it or gives none. -/
theorem firstSome_get {m : AMap α} (h : firstSome f m = some y) :
    ∃ a, m.get k = some a ∧ (f (k, a) = some y ∨ f (k, a) = none) := by
  induction m with
  | nil => cases h
  | cons x m ih =>
    obtain ⟨j, b⟩ := x
    by_cases hj : j = k
    · subst hj
      refine ⟨b, by simp [AMap.get], ?_⟩
      cases hb : f (j, b) with
      | some z => exact .inl (by simpa [firstSome, hb] using h)
      | none => exact .inr rfl
    · have hb : f (j, b) = none := by
        cases hb : f (j, b) with
        | none => rfl
        | some z => exact absurd (hkey (j, b) (by simpa [firstSome, hb] using h)) hj
      obtain ⟨a, ha, hf⟩ := ih (by simpa [firstSome, hb] using h)
      exact ⟨a, by simpa [AMap.get, hj] using ha, hf⟩

/-- The first alternative, from an entry of a key, stays when that key's entry is replaced by one that gives the same,
wherever the entry is put. -/
theorem firstSome_put {m : AMap α} {a c : α} (h : firstSome f m = some y) (ha : m.get k = some a)
    (hc : f (k, c) = f (k, a)) : firstSome f (m.put k c) = some y := by
  induction m with
  | nil => cases h
  | cons x m ih =>
    obtain ⟨j, b⟩ := x
    rw [AMap.put]
    split
    · obtain ⟨a', ha', hf⟩ := firstSome_get hkey h
      obtain rfl : a' = a := Option.some.inj (ha'.symm.trans ha)
      rw [firstSome, hc]
      obtain hf | hf := hf <;> simp [hf, h]
    · split
      · rename_i hj
        subst hj
        obtain rfl : b = a := by simpa [AMap.get] using ha
        simpa [firstSome, hc] using h
      · rename_i hj
        have hb : f (j, b) = none := by
          cases hb : f (j, b) with
          | none => rfl
          | some z => exact absurd (hkey (j, b) (by simpa [firstSome, hb] using h)) hj
        rw [firstSome, hb]
        exact ih (by simpa [firstSome, hb] using h) (by simpa [AMap.get, hj] using ha)

end

namespace Machine

namespace State

variable (s : State)

/-! ### The thread that waits for a token -/

/-- The busy slots of a core. -/
def busySlots (c : Nat × Core) : List (Nat × Fin 16) :=
  (slotIds.filter fun j => (c.2.slots.get j).busy).map fun j => (c.1, j)

/-- What a slot says of a token. -/
def tokenIn (k : Nat) (pj : Nat × Fin 16) : Option (Nat × Fin 16 × Bool) :=
  (waitsToken (s.slotAt pj.1 pj.2) k).map fun a => (pj.1, pj.2, a)

theorem findToken_eq (k : Nat) :
    s.findToken k = firstSome (fun c => firstSome (s.tokenIn k) (busySlots c)) s.cores :=
  firstSome_flatMap _ _ _

/-- An update of the slot that waits for a token, which leaves it busy and waiting, leaves the token its thread. -/
theorem findToken_updSlot {p : Nat} {j : Fin 16} {k : Nat} {a : Bool} (f : Slot → Slot)
    (hb : ∀ x, (f x).busy = x.busy) (hw : ∀ x, waitsToken (f x) k = waitsToken x k)
    (h : s.findToken k = some (p, j, a)) : (s.updSlot p j f).findToken k = some (p, j, a) := by
  have htok : (s.updSlot p j f).tokenIn k = s.tokenIn k := by
    funext ⟨q, i⟩
    by_cases e : q = p ∧ i = j
    · obtain ⟨rfl, rfl⟩ := e
      simp [tokenIn, hw]
    · rw [Decidable.not_and_iff_not_or_not] at e
      simp [tokenIn, s.updSlot_slotAt_ne f e]
  rw [findToken_eq] at h
  have hkey : ∀ c, firstSome (s.tokenIn k) (busySlots c) = some (p, j, a) → c.1 = p := by
    intro c hc
    obtain ⟨pj, hmem, hf⟩ := exists_of_firstSome hc
    obtain ⟨i, -, rfl⟩ := List.mem_map.mp hmem
    obtain ⟨b, -, he⟩ := Option.map_eq_some_iff.mp hf
    exact congrArg (·.1) he
  obtain ⟨c, hc, -⟩ := firstSome_get hkey h
  have hcore : s.core p = c := by simp [core, hc]
  rw [findToken_eq, htok]
  refine firstSome_put hkey h hc (congrArg (firstSome _) ?_)
  have hbusy : ∀ i, ((vput (s.core p).slots j (f (s.slotAt p j))).get i).busy = (c.slots.get i).busy := by
    intro i
    rw [hcore]
    by_cases e : i = j
    · subst e
      rw [vput_get, hb, slotAt, hcore]
    · rw [vput_get_ne _ _ e]
  simp only [busySlots, hbusy]

/-- The wait for a token ends in the slot that it is found in. -/
theorem endToken_found {p : Nat} {j : Fin 16} {k : Nat} {a : Bool} (f : Regs → Regs)
    (h : s.findToken k = some (p, j, a)) :
    s.endToken k f = s.updSlot p j fun x => { endSlotHalf s.time a x with regs := f (endSlotHalf s.time a x).regs } := by
  simp only [endToken, onToken, h]

/-! ### Traffic and items (R278, R286) -/

@[simp] theorem traffic_slotAt (v w n q : Nat) (k : Fin 16) : (s.traffic v w n).slotAt q k = s.slotAt q k := rfl

@[simp] theorem become_slotAt (id : Nat) (x : Item) (l : Load) (p q : Nat) (k : Fin 16) :
    (s.become id x l p).slotAt q k = s.slotAt q k := rfl

theorem become_get (id : Nat) (x : Item) (l : Load) (p : Nat) :
    (s.become id x l p).net.get id = some { x with load := l, dst := p, die := dieOf x.dst } := AMap.get_put _ _ _

/-! ### The way to a thread (R274) -/

section
variable {s : State} {x : Item} {t : Tid} (id : Nat) (arrive gone : State) (ht : s.travels x = true)
include ht

theorem toThread_next {q : Nat} (h : s.threadHop t x.dst = .next q) :
    s.toThread id x t arrive gone = { s with net := s.net.put id { x with dst := q, die := dieOf x.dst } } := by
  simp [toThread, ht, h, route]

theorem toThread_wait (h : s.threadHop t x.dst = .wait) : s.toThread id x t arrive gone = s := by
  simp [toThread, ht, h]

theorem toThread_here (h : s.threadHop t x.dst = .here) : s.toThread id x t arrive gone = arrive := by
  simp [toThread, ht, h]

theorem toThread_exited (h : s.threadHop t x.dst = .exited) : s.toThread id x t arrive gone = gone := by
  simp [toThread, ht, h]

end

/-! ### A thread in a slot (R270, R274) -/

section
variable {s : State} {t : Tid} {p : Nat} {j : Fin 16} (h : s.whereIs t = .slot p j)
include h

theorem findThread_of_whereIs : s.findThread t = some (p, j) := by
  have hg : (s.mapEntry t).gen = t.gen := by
    refine Decidable.byContradiction fun hne => ?_
    simp [whereIs, hne] at h
  cases hs : (s.mapEntry t).state with
  | home i => simpa [findThread, whereIs, hg, hs] using h
  | away q i => simpa [findThread, whereIs, hg, hs] using h
  | none | inFlight | yielded => simp [whereIs, hg, hs] at h

theorem context_of_whereIs : s.context t = some (s.slotAt p j) := by
  rw [context, findThread_of_whereIs h]

theorem updThread_of_whereIs (f : Slot → Slot) : s.updThread t f = some (s.updSlot p j f) := by
  rw [updThread, h]

theorem deliver_of_whereIs (hp : (s.slotAt p j).pair = none) (r : Reg) (w : Word) :
    s.deliver t r w = some (s.updSlot p j (payload s.time r w)) := by
  simp only [deliver, h, hp]

theorem deliver_to_pair {k : Fin 16} (hp : (s.slotAt p j).pair = some k) (r : Reg) (w : Word) :
    s.deliver t r w = some ((s.updSlot p j (payload s.time r w)).updSlot p k (payload s.time r w)) := by
  simp only [deliver, h, hp]

end

/-! ### Payloads (R128, R134) -/

@[simp] theorem payload_zero (now : Nat) (w : Word) (x : Slot) : payload now 0 w x = x := rfl

section
variable (now : Nat) {r : Reg} (w : Word) (x : Slot) (h0 : r ≠ 0)
include h0

/-- A payload's registers: the one named takes it, and its mark is set or, for an AWAIT that waits, cleared. -/
theorem payload_regs : ∃ m, (payload now r w x).regs = { x.regs.setG r w with tsw := Tsw.setMark (x.regs.setG r w).tsw r m } ∧
    (x.pendC = none → m = decide (x.cont ≠ some (r, now))) ∧
    ∀ q, x.pendC = some q → q.wait = .await r → m = false ∧ (payload now r w x).pendC = none := by
  cases hC : x.pendC with
  | none => exact ⟨x.cont != some (r, now), by simp [payload, h0, hC], fun _ => Bool.eq_iff_iff.mpr (by simp), by simp⟩
  | some q =>
    by_cases hq : q.wait = .await r
    · exact ⟨false, by simp [payload, h0, hC, hq], by simp, fun _ _ _ => ⟨rfl, by simp [payload, h0, hC, hq]⟩⟩
    · refine ⟨x.cont != some (r, now), by simp [payload, h0, hC, hq], by simp, fun q' e h => ?_⟩
      exact absurd (Option.some.inj e ▸ h) hq

theorem payload_get : (payload now r w x).regs.g.get r = w := by
  obtain ⟨m, hregs, -⟩ := payload_regs now w x h0
  rw [hregs]
  exact Regs.setG_get _ _ h0

theorem payload_get_ne {q : Reg} (h : q ≠ r) : (payload now r w x).regs.g.get q = x.regs.g.get q := by
  obtain ⟨m, hregs, -⟩ := payload_regs now w x h0
  rw [hregs]
  exact Regs.setG_get_ne _ _ h

/-- An AWAIT that waits for the payload ends, and the mark stays clear. -/
theorem payload_awaited {q : Pend} (hC : x.pendC = some q) (hq : q.wait = .await r) :
    (payload now r w x).pendC = none ∧ (payload now r w x).regs.tsw.getLsbD (10 + r.val) = false := by
  obtain ⟨m, hregs, -, hawait⟩ := payload_regs now w x h0
  obtain ⟨rfl, hnone⟩ := hawait q hC hq
  exact ⟨hnone, by rw [hregs, Tsw.getLsbD_setMark _ _ _ h0, if_pos rfl]⟩

/-- With no C half that waits, the mark is set unless a CONT has named the register in this cycle. -/
theorem payload_marks (hC : x.pendC = none) :
    (payload now r w x).regs.tsw.getLsbD (10 + r.val) = decide (x.cont ≠ some (r, now)) := by
  obtain ⟨m, hregs, hmark, -⟩ := payload_regs now w x h0
  rw [hregs, Tsw.getLsbD_setMark _ _ _ h0, if_pos rfl, hmark hC]

end

/-! ### Acknowledgements and returns (R273, R275) -/

/-- An event that a thread with none takes: it is the thread's only one, and no general register changes. -/
theorem withEvent_only (now : Nat) (c : Cause) (w : Word) {x : Slot} (he : x.events = []) :
    (withEvent now c w x).events = [⟨c, w⟩] ∧ (withEvent now c w x).regs.g = x.regs.g := by
  cases hC : x.pendC with
  | none => simp [withEvent, he, hC]
  | some q => cases hq : q.wait <;> simp [withEvent, he, hC, hq, apply_ite]

section
variable {s : State} {src : Tid} {p : Nat} {j : Fin 16} (id : Nat) (h : s.whereIs src = .slot p j)
include h

theorem ackMessage_of_send : s.ackMessage id src none = (s.updSlot p j (acked id)).dropItem id := by
  simp only [ackMessage, updThread_of_whereIs h]

/-- The acknowledgement of a SENDW ends its wait. -/
theorem ackMessage_of_sendw {k : Nat} (hk : s.findToken k = some (p, j, false)) :
    s.ackMessage id src (some k) = ((s.updSlot p j (acked id)).updSlot p j (endSlotHalf s.time false)).dropItem id := by
  simp only [ackMessage, updThread_of_whereIs h,
    endToken_found _ _ (s.findToken_updSlot (acked id) (fun _ => rfl) (fun _ => rfl) hk)]
  rfl

/-- The return of a SENDW is an event, and ends its wait. -/
theorem bounce_of_sendw (d : Word) {k : Nat} (hk : s.findToken k = some (p, j, false)) :
    s.bounce id d src (some k) = ((s.updSlot p j (endSlotHalf s.time false)).updSlot p j
      fun x => acked id (withEvent s.time .undeliverable d x)).dropItem id := by
  have hw : (s.updSlot p j (endSlotHalf s.time false)).whereIs src = .slot p j := h
  simp only [bounce, endToken_found _ _ hk]
  rw [updThread_of_whereIs hw]

/-- The return of a SEND whose thread has no BOUNCE register is an event. -/
theorem bounce_of_send_event (d : Word) (hb : (s.slotAt p j).bounce = 0) :
    s.bounce id d src none =
      ((s.updSlot p j (withEvent s.time .undeliverable d)).updSlot p j (acked id)).dropItem id := by
  have hw : (s.updSlot p j (withEvent s.time .undeliverable d)).whereIs src = .slot p j := h
  simp only [bounce, context_of_whereIs h, Option.map_some, Option.getD_some, hb, if_pos, updThread_of_whereIs h,
    Option.bind_some, updThread_of_whereIs hw]

/-- The return of a SEND goes to the BOUNCE register as a payload does, in both threads of a pair. -/
theorem bounce_of_send_register (d : Word) (hb : (s.slotAt p j).bounce ≠ 0) :
    ∃ u, s.deliver src (s.slotAt p j).bounce d = some u ∧
      s.bounce id d src none = (u.updSlot p j (acked id)).dropItem id ∧ u.net = s.net ∧ u.mem = s.mem ∧
      (u.slotAt p j).regs.g.get (s.slotAt p j).bounce = d := by
  have hfun : ∀ u, s.deliver src (s.slotAt p j).bounce d = some u → u.whereIs src = .slot p j →
      s.bounce id d src none = (u.updSlot p j (acked id)).dropItem id := by
    intro u hu hw
    simp only [bounce, context_of_whereIs h, Option.map_some, Option.getD_some, if_neg hb, hu, Option.bind_some,
      updThread_of_whereIs hw]
  cases hp : (s.slotAt p j).pair with
  | none =>
    have hu := deliver_of_whereIs h hp (s.slotAt p j).bounce d
    exact ⟨_, hu, hfun _ hu h, rfl, rfl, by rw [updSlot_slotAt, payload_get _ _ _ hb]⟩
  | some k =>
    have hu := deliver_to_pair h hp (s.slotAt p j).bounce d
    refine ⟨_, hu, hfun _ hu h, rfl, rfl, ?_⟩
    by_cases e : j = k
    · subst e
      rw [updSlot_slotAt, payload_get _ _ _ hb]
    · rw [updSlot_slotAt_ne _ _ (.inr e), updSlot_slotAt, payload_get _ _ _ hb]

end

end State

/-! ### The events of messages (R273-R275) -/

section
variable {s : State} {id : Nat} {x : Item} {d pay : Word} {src : Tid} {w : Option Nat} (hx : s.net.get id = some x)
include hx

theorem exec_messageDelivery (hpkg : pkgOf (bits d 35 0) = s.pkg) (hl : x.load = .message d pay src w) :
    exec (.messageDelivery id) s = .next (s.toThread id x (contTid d) (s.messageHere id x d pay src w)
      (s.become id x (.returned d src w) (s.posOf src.vc))) := by
  simp [exec, execMessageDelivery, hx, hl, hpkg]

theorem exec_messageAcknowledgement (hl : x.load = .delivered src w) :
    exec (.messageAcknowledgement id) s = .next (s.toThread id x src (s.ackMessage id src w) (s.dropItem id)) := by
  simp [exec, execMessageAcknowledgement, hx, hl]

theorem exec_messageReturn (hl : x.load = .returned d src w) :
    exec (.messageReturn id) s = .next (s.toThread id x src (s.bounce id d src w) (s.dropItem id)) := by
  simp [exec, execMessageReturn, hx, hl]

variable (ht : s.travels x = true)
include ht

/-- A message at its thread's core, whose thread is in a slot and in no pair: the payload and the acknowledgement. -/
theorem exec_messageDelivery_here (hpkg : pkgOf (bits d 35 0) = s.pkg) (hl : x.load = .message d pay src w) {p : Nat}
    {j : Fin 16} (hh : s.threadHop (contTid d) x.dst = .here) (hw : s.whereIs (contTid d) = .slot p j)
    (hp : (s.slotAt p j).pair = none) :
    exec (.messageDelivery id) s = .next
      (((s.updSlot p j (State.payload s.time (contReg d) pay)).traffic (contTid d).vc src.vc 32).become id x
        (.delivered src w) (s.posOf src.vc)) := by
  rw [exec_messageDelivery hx hpkg hl, State.toThread_here _ _ _ ht hh]
  simp only [State.messageHere, State.deliver_of_whereIs hw hp]

theorem exec_messageAcknowledgement_here (hl : x.load = .delivered src w) (hh : s.threadHop src x.dst = .here) :
    exec (.messageAcknowledgement id) s = .next (s.ackMessage id src w) := by
  rw [exec_messageAcknowledgement hx hl, State.toThread_here _ _ _ ht hh]

theorem exec_messageReturn_here (hl : x.load = .returned d src w) (hh : s.threadHop src x.dst = .here) :
    exec (.messageReturn id) s = .next (s.bounce id d src w) := by
  rw [exec_messageReturn hx hl, State.toThread_here _ _ _ ht hh]

end

/-- Settles O28: each item takes a hop, waits, or does at its thread's core what its kind says; the token that SENDW waits
for is still found after the acknowledgement has been noted. -/
theorem messagesArrive : Obligations.MessagesArrive := by
  unfold Obligations.MessagesArrive
  intro s id x d pay src p j hx ht hpkg
  refine ⟨?_, fun w hl hh hw hp h0 => ?_, fun w hl hh hw hp h0 => ?_, fun w hl hh => ?_, fun hl hh hw => ?_,
    fun k q hl hh hw hk hC hq => ?_, fun hl hh hw hb => ?_, fun hl hh hw hb he => ?_, fun k q hl hh hw hk hC hq he => ?_⟩
  · have hops {t : Tid} (q : Nat) {a g : State} {i : Instr} (hi : exec i s = .next (s.toThread id x t a g)) :
        (s.threadHop t x.dst = .next q →
          exec i s = .next { s with net := s.net.put id { x with dst := q, die := dieOf x.dst } }) ∧
        (s.threadHop t x.dst = .wait → exec i s = .next s) :=
      ⟨fun h => by rw [hi, State.toThread_next _ _ _ ht h], fun h => by rw [hi, State.toThread_wait _ _ _ ht h]⟩
    rintro i t q (⟨rfl, ⟨w, hl⟩, rfl⟩ | ⟨rfl, ⟨w, hl⟩, rfl⟩ | ⟨rfl, ⟨w, hl⟩, rfl⟩)
    · exact hops q (exec_messageDelivery hx hpkg hl)
    · exact hops q (exec_messageAcknowledgement hx hl)
    · exact hops q (exec_messageReturn hx hl)
  · refine ⟨_, _, exec_messageDelivery_here hx ht hpkg hl hh hw hp, ?_, fun r hr => ?_, fun q hC hq => ?_, fun hC => ?_,
      State.become_get _ _ _ _ _, rfl, rfl⟩ <;>
      simp only [State.become_slotAt, State.traffic_slotAt, State.updSlot_slotAt]
    · exact State.payload_get _ _ _ h0
    · exact State.payload_get_ne _ _ _ h0 hr
    · exact State.payload_awaited _ _ _ h0 hC hq
    · exact State.payload_marks _ _ _ h0 hC
  · refine ⟨_, _, exec_messageDelivery_here hx ht hpkg hl hh hw hp, ?_, State.become_get _ _ _ _ _, rfl, rfl⟩
    simp [h0]
  · exact ⟨_, _, by rw [exec_messageDelivery hx hpkg hl, State.toThread_exited _ _ _ ht hh], State.become_get _ _ _ _ _,
      rfl, rfl, rfl⟩
  · refine ⟨_, exec_messageAcknowledgement_here hx ht hl hh, ?_⟩
    rw [State.ackMessage_of_send id hw]
    simp [State.acked]
  · refine ⟨_, exec_messageAcknowledgement_here hx ht hl hh, ?_⟩
    rw [State.ackMessage_of_sendw id hw hk]
    simp [State.acked, State.endSlotHalf]
  · obtain ⟨u, hu, hbounce, hnet, hmem, hget⟩ := State.bounce_of_send_register id hw d hb
    refine ⟨_, exec_messageReturn_here hx ht hl hh, ?_⟩
    rw [hbounce]
    refine ⟨congrArg (AMap.del · id) hnet, ?_, fun hC hp => ?_, hmem⟩ <;>
      rw [State.dropItem_slotAt, State.updSlot_slotAt]
    · exact hget
    · rw [State.deliver_of_whereIs hw hp] at hu
      obtain rfl := Option.some.inj hu
      rw [State.updSlot_slotAt]
      exact State.payload_marks _ _ _ hb hC
  · refine ⟨_, exec_messageReturn_here hx ht hl hh, ?_⟩
    rw [State.bounce_of_send_event id hw d hb]
    obtain ⟨hev, hg⟩ := State.withEvent_only s.time .undeliverable d he
    simp [State.acked, hev, hg]
  · refine ⟨_, exec_messageReturn_here hx ht hl hh, ?_⟩
    rw [State.bounce_of_sendw id hw d hk]
    have hev := State.withEvent_first s.time .undeliverable d (x := State.endSlotHalf s.time false (s.slotAt p j)) he rfl
    simp only [State.dropItem_slotAt, State.updSlot_slotAt, State.acked, hev]
    exact ⟨rfl, rfl, trivial, rfl, rfl⟩

end Machine
end Sys2Proof
end

section
/-! SUPPORT. What reset leaves (R127, R153, R229, R252, R351, R363), and the statement on it. -/

namespace Sys2Proof.Machine

/-- No core holds anything at reset. -/
theorem reset_core (p : Nat) : State.reset.core p = {} := rfl

/-- A slot that no thread has had. -/
theorem reset_slotAt (p : Nat) (j : Fin 16) : State.reset.slotAt p j = {} := by
  simp [State.slotAt, reset_core, Vector.get]

/-- Settles O60: every table of the state at reset is empty, so each part reads as its initial value. -/
theorem resetState : Obligations.ResetState := by
  unfold Obligations.ResetState
  intro p k n j r
  have hslot := reset_slotAt p j
  have hg : (State.reset.slotAt p j).regs.g.get r = 0 := by simp [hslot, Vector.get]
  exact ⟨rfl, by rw [hslot], by rw [hslot], by rw [hslot], by rw [hslot], by rw [hslot], hg, rfl, rfl, rfl, rfl, rfl,
    rfl, rfl, rfl, rfl, rfl, rfl, rfl, rfl, rfl, rfl, rfl, Memory.wf_reset⟩

end Sys2Proof.Machine
end

section
/-! SUPPORT. The wait for the record caches' acknowledgements (R176) in a table that lists it twice, and the refutation of the
statement on fills, fetches and mappings. -/

namespace Sys2Proof.Machine

/-- A wait for cluster 0's record cache alone to drop a record. -/
def oneCacheWait : AckWait := { tbase := 0, obj := 0, left := [0] }

/-- Reset with that wait listed twice under token 7: no table of rising keys, but a state nonetheless. -/
def twiceListed : State := { State.reset with acks := [(7, oneCacheWait), (7, oneCacheWait)] }

/-- The last acknowledgement removes the wait's first entry, and the second is then the one read. -/
theorem twiceListed_keeps_wait :
    ∃ t, exec (.recordCacheAcknowledgement 0 7) twiceListed = .next t ∧ t.acks.get 7 = some oneCacheWait :=
  ⟨_, rfl, rfl⟩

/-- Refutes O25, in its last clause: "the last one ends the wait" is stated of every table of waits, and `twiceListed` lists
one wait twice, of which the last acknowledgement removes one. Tables of rising keys, in which `AMap.get_del` gives the
clause, are not supposed by the statement. -/
theorem not_fillsFetchesAndMappings : ¬ Obligations.FillsFetchesAndMappings := by
  unfold Obligations.FillsFetchesAndMappings
  intro h
  obtain ⟨t, ht, hkept⟩ := twiceListed_keeps_wait
  obtain ⟨-, -, -, -, hack⟩ := h.2 twiceListed 0 0 0 0 0 7 [] oneCacheWait 0 0
  obtain ⟨t', ht', -, -, -, hlast⟩ := hack rfl rfl rfl rfl
  obtain rfl : t = t' := Host.Outcome.next.inj (ht.symm.trans ht')
  have hgone : t.acks.get 7 = none := (hlast rfl).1
  rw [hkept] at hgone
  exact Option.some_ne_none _ hgone

end Sys2Proof.Machine
end
